-- ==== Sys2Proof/Word.lean ====
section
/-! DEFINITION. The words of the machine: bytes, 32-bit and 64-bit values, origin sets, label indices, and finite maps as lists. -/
namespace Sys2Proof

abbrev Byte := BitVec 8
/-- A 32-bit vector lane value (R65). -/
abbrev Word := BitVec 32
/-- A 64-bit scalar or address (R66, R85). -/
abbrev Dword := BitVec 64
/-- An origin set (R3): bit n is origin n. -/
abbrev OSet := BitVec 32
/-- A label index into a team's 16-entry label table (R3, R75). -/
abbrev Lbl := BitVec 4
/-- A mask register: bit l is lane l (R12). -/
abbrev Mask := BitVec 1024
/-- A finite map: pairs with strictly rising keys, no pair holding the value an unlisted key reads as (Machine/Store.lean). -/
abbrev SMap (α : Type) := List (Nat × α)

end Sys2Proof
end

