-- ==== Sys2Proof/Machine/Store.lean ====
section
/-! DEFINITION. Finite maps in one canonical form (strictly rising keys, no default value listed): memory, registers, tables. -/
namespace Sys2Proof.Machine

/-- What key k holds; d is what an unlisted key reads as. -/
def mget {α : Type} (d : α) : SMap α → Nat → α
  | [], _ => d
  | (a, x) :: m, k => if k = a then x else if k < a then d else mget d m k

/-- Remove key k (the filter drops nothing of a canonical map; with it a removal reads right in any list). -/
def mdel {α : Type} : SMap α → Nat → SMap α
  | [], _ => []
  | (a, x) :: m, k => if k = a then m.filter (fun p => decide (a < p.1)) else if k < a then (a, x) :: m else (a, x) :: mdel m k

/-- List key k with value v. -/
def mins {α : Type} : SMap α → Nat → α → SMap α
  | [], k, v => [(k, v)]
  | (a, x) :: m, k, v => if k = a then (k, v) :: m else if k < a then (k, v) :: (a, x) :: m else (a, x) :: mins m k v

/-- Key k takes value v: the default value removes the entry, so that equal maps are equal lists. -/
def mset {α : Type} [DecidableEq α] (d : α) (m : SMap α) (k : Nat) (v : α) : SMap α :=
  if v = d then mdel m k else mins m k v

/-- Keys rise strictly from lo on and no value is the default. -/
def mwfFrom {α : Type} [DecidableEq α] (d : α) : Nat → SMap α → Bool
  | _, [] => true
  | lo, (a, x) :: m => decide (lo ≤ a) && decide (x ≠ d) && mwfFrom d (a + 1) m

/-- The canonical form. -/
def mwf {α : Type} [DecidableEq α] (d : α) (m : SMap α) : Bool := mwfFrom d 0 m

/-- Optional lookup, for tables whose absence is a state of its own. -/
def mfind {α : Type} : SMap α → Nat → Option α
  | [], _ => none
  | (a, x) :: m, k => if k = a then some x else if k < a then none else mfind m k

/-- Change the value of key k by f. -/
def mupd {α : Type} [DecidableEq α] (d : α) (m : SMap α) (k : Nat) (f : α → α) : SMap α := mset d m k (f (mget d m k))

/-- The i-th element of a list, or d. -/
def nthD {α : Type} (d : α) : List α → Nat → α
  | [], _ => d
  | x :: _, 0 => x
  | _ :: l, n + 1 => nthD d l n

/-- The list with its i-th element changed by f. -/
def updNth {α : Type} (f : α → α) : List α → Nat → List α
  | [], _ => []
  | x :: l, 0 => f x :: l
  | x :: l, n + 1 => x :: updNth f l n

/-- The list without the first element that p accepts. -/
def dropFirst {α : Type} (p : α → Bool) : List α → List α
  | [] => []
  | x :: l => if p x then l else x :: dropFirst p l

/-- Insert into a list sorted by le, after equal elements. -/
def insertBy {α : Type} (le : α → α → Bool) (x : α) : List α → List α
  | [] => [x]
  | y :: l => if le y x then y :: insertBy le x l else x :: y :: l

/-- Sort by insertion, stable. -/
def sortBy {α : Type} (le : α → α → Bool) (l : List α) : List α := l.foldl (fun acc x => insertBy le x acc) []

/-- Numbers lo, lo+1, … of which there are n. -/
def upFrom : Nat → Nat → List Nat
  | _, 0 => []
  | lo, n + 1 => lo :: upFrom (lo + 1) n

end Sys2Proof.Machine
end

