-- ==== Sys2Proof/Syntax.lean ====
section
/-! DEFINITION. The instructions and events of the Jarsal: one constructor for every row of spec/opcode_table.json. A row with
an encoding is an instruction word, its arguments the word's fields in the table's order; a row without one is an operation of
a host, an engine, Limamon or the debug port: it takes no arguments here, because what it acts on stands in State.args, as a host
command's operands stand in its queue entry (entry 2). -/
namespace Sys2Proof

/-- Branch conditions (R236); code 15 is illegal. -/
inductive Cond where
  | eq | ne | lt | ge | le | gt | lo | hs | ls | hi | mi | pl | os | oc | al
deriving DecidableEq, Repr

/-- VCMP conditions (R258); codes 12-15 are illegal. -/
inductive VCond where
  | eq | ne | lt | ge | le | gt | lo | hs | ls | hi | un | or
deriving DecidableEq, Repr

/-- VCMP operand types (R258); codes 2-7 are illegal. -/
inductive CmpType where
  | i32 | f32
deriving DecidableEq, Repr

/-- SSHI kinds (R235); kind 3 is illegal. -/
inductive ShKind where
  | shl | shr | sra
deriving DecidableEq, Repr

/-- Sizes of LD and ST (R270): 1, 2, 4 and 16 registers. -/
inductive MSize where
  | w | d | x | blk
deriving DecidableEq, Repr

/-- Sizes of LDN and STN (R270). -/
inductive NSize where
  | i8 | n8 | i16 | n16
deriving DecidableEq, Repr

/-- Atomic operations (R276); codes 11-15 are illegal. -/
inductive AtomOp where
  | add | min | max | minn | maxn | and | or | xor | xchg | cas | fadd
deriving DecidableEq, Repr

/-- Ordering semantics of an atomic (R144). -/
inductive Sem where
  | rlx | acq | rel | ar
deriving DecidableEq, Repr

/-- Scopes (R140). -/
inductive Scope where
  | core | die | pkg | sys
deriving DecidableEq, Repr

/-- Element formats 1-4 of a described block (R47). -/
inductive Fmt where
  | e2m1 | i4 | e2m5 | i8
deriving DecidableEq, Repr

/-- INVL kinds (R321); kind 3 is illegal. -/
inductive InvlKind where
  | page | asid | part
deriving DecidableEq, Repr

/-- Cache policies of a MOD hint (R93); code 3 is illegal. -/
inductive CachePol where
  | normal | stream | noL1
deriving DecidableEq, Repr

/-- Rounding modes (R38); codes 4-15 are illegal. -/
inductive Rounding where
  | rne | rz | ru | rd
deriving DecidableEq, Repr

/-- What arrives over a window (R146, R288, R289): a transfer of a local team at its receiver, or one from a peer package; of one whose port
fails on the way, some bytes only (R358). -/
inductive Arrival where
  | outgoing (tid op : Nat)
  | torn (peer window : BitVec 16) (off : BitVec 32) (bytes : List (BitVec 8)) (lbl : OSet)
  | write (peer window : BitVec 16) (off : BitVec 32) (bytes : List (BitVec 8)) (lbl : OSet)
  | signal (peer window : BitVec 16) (value : BitVec 32) (lbl : OSet)
deriving DecidableEq, Repr

/-- A state item the debug port reads (no new value) or writes (R362). -/
inductive DebugAccess where
  | mem (addr : Nat) (new : Option Byte)
  | scalar (tid : Nat) (reg : Nat) (new : Option Dword)
  | vector (tid reg lane : Nat) (new : Option Word)
  | mask (tid reg : Nat) (new : Option Mask)
  | codes (tid : Nat) (new : Option (BitVec 4))
  | label (tid entry : Nat) (new : Option OSet)
  | special (tid num : Nat) (new : Option Dword)
  | pc (tid : Nat) (new : Option Dword)
  | scratch (tid half word : Nat) (new : Option Word)
  | handle (tid h word : Nat) (new : Option Dword)
  /-- the image of R72 and ROWLBL, 4,240 bytes (R228) -/
  | tile (tid half tile : Nat) (new : Option (List Byte))
  /-- 0-15 stall reason, 16 ISSUED, 17 RESIDENT -/
  | counter (tid n : Nat) (new : Option (BitVec 48))
  /-- the outstanding count of a token (R69) -/
  | token (tid q : Nat) (new : Option Byte)
  | scalarLabel (tid reg : Nat) (new : Option Lbl)
  | vectorLabel (tid reg lane : Nat) (new : Option Lbl)
  /-- label index, and ARMED above it -/
  | scratchTag (tid half word : Nat) (new : Option (BitVec 5))
  | handleLabel (tid h : Nat) (new : Option OSet)
  /-- value, and label index above it -/
  | latch (tid n lane : Nat) (new : Option (BitVec 36))
  /-- the open session as a session block (R194); no bytes: none is open -/
  | session (tid : Nat) (new : Option (List Byte))
  /-- a graph parameter as a replay's team holds it (R74), with its origins -/
  | teamParam (tid n : Nat) (new : Option (Dword × OSet))
  | graphOrigin (part inst n : Nat) (new : Option OSet)
  /-- soft-error counters in the order of ERRLOG (R368): corrected, uncorrectable -/
  | errors (n : Nat) (new : Option (Word × Word))
  | sampler (core : Nat) (new : Option (List Byte))
  /-- NOTIFY vector, and privilege in bit 15 (R354) -/
  | queueControl (q : Nat) (new : Option (BitVec 16))
  /-- the aperture base of a function of a link (R351), 24 the physical one -/
  | aperture (link part : Nat) (new : Option Dword)
  /-- a die's clock in MHz, and its nominal cycles below 1.6 GHz (R369, R370) -/
  | clock (die : Nat) (new : Option (BitVec 16 × BitVec 48))
  | frame (ent : Nat) (new : Option (BitVec 256))
  | anchor (idx : Nat) (new : Option Word)
  /-- a frame-map extent (R135) -/
  | extent (part n : Nat) (new : Option (BitVec 128))
  | graphParam (part inst n : Nat) (new : Option Dword)
  | queue (q : Nat) (new : Option (BitVec 128))
  /-- a partition table entry (R174), an origin table entry (R170), a policy entry (R172), as their bytes -/
  | partition (n : Nat) (new : Option (List Byte))
  | origin (part n : Nat) (new : Option (List Byte))
  | policy (n : Nat) (new : Option (List Byte))
  /-- the receiver or sender counter of a window for a peer (R215) -/
  | window (win peer : Nat) (rcv : Bool) (new : Option Word)
  /-- FENCE and SLOW of a core, as ENGSTAT holds them (R80) -/
  | fence (core : Nat) (new : Option (BitVec 5))
  /-- whether the self-test has disabled a core's matrix engine (R367) -/
  | engineOff (core : Nat) (new : Option Bool)
  /-- a team's restart point (R133) and its START (R213) -/
  | restart (tid : Nat) (new : Option Dword)
  | start (tid : Nat) (new : Option (BitVec 48))
  /-- a window's registration (R354): registered, partition; base; length in bytes -/
  | registration (win : Nat) (new : Option (List Byte))
  /-- a peer's binding (R354): bound, partition, remote partition; digest -/
  | peer (n : Nat) (new : Option (List Byte))
  /-- the nodes of a graph instance (R197, R354), 64 bytes each; no bytes: it is not recorded -/
  | graphNodes (part inst : Nat) (new : Option (List Byte))
  | measurement (n : Nat) (new : Option (BitVec 512))
  | time (new : Option (BitVec 48))
deriving DecidableEq, Repr

/-- Where a soft error strikes (R105). -/
inductive ErrorSite where
  | hbm (addr : Nat)
  | l2 (addr : Nat)
  | register (tid reg lane : Nat)
  | scratch (tid half word : Nat)
  | tile (tid half tile entry : Nat)
deriving DecidableEq, Repr

/-- What the operation being performed acts on, for the rows of the table that have no word (entry 2). Each meaning says which of
these it reads. -/
structure EventArgs where
  /-- the team (its number in the model, Team.key) -/
  tid : Nat := 0
  /-- the token-tracked operation (Op.id) -/
  op : Nat := 0
  /-- the lane, the iteration or row number -/
  n : Nat := 0
  core : Nat := 0
  slot : Nat := 0
  part : Nat := 0
  /-- the PCI Express link of a host's access (R350) -/
  link : Nat := 0
  /-- a host work queue, graph number, peer, policy entry, die or frame-table entry -/
  q : Nat := 0
  /-- a second frame-table entry, clock rate, self-test result or size -/
  m : Nat := 0
  /-- resolved, or corrected -/
  ok : Bool := true
  addr : Dword := 0
  bytes : List Byte := []
  arrival : Arrival := .outgoing 0 0
  debug : DebugAccess := .time none
  site : ErrorSite := .hbm 0
deriving DecidableEq, Repr

/-- The instructions and events (spec/opcode_table.json). -/
inductive Instr where
  /-- NOP (R247): Occupies one issue position and changes nothing. -/
  | nop
  /-- DLY (R247): Occupies n positions and makes the team not ready for n-1 issue cycles, counted as reason 2. -/
  | dly (n : BitVec 8)
  /-- BR (R248): Unconditional PC-relative branch that ends an open run. -/
  | br (o : BitVec 26)
  /-- BCC (R248): Branches PC-relative when the condition code test of R236 holds. -/
  | bcc (c : Cond) (o : BitVec 22)
  /-- BKZ (R248): Branches when the summary of the named mask is zero, exchanging over the pair link in a paired team. -/
  | bkz (k : BitVec 4) (o : BitVec 21)
  /-- BKNZ (R248): Branches when the summary of the named mask is not zero. -/
  | bknz (k : BitVec 4) (o : BitVec 21)
  /-- CALL (R248): PC-relative call that writes the return address to s62. -/
  | call (o : BitVec 26)
  /-- RET (R249): Transfers control to the address in s62. -/
  | ret
  /-- JMPR (R249): Transfers control to the address in a scalar register. -/
  | jmpr (a : BitVec 6)
  /-- CALLR (R249): Reads the target register, writes the link to s62 and jumps. -/
  | callr (a : BitVec 6)
  /-- EXIT (R36): Ends the whole team; the team becomes ineligible to issue until every token drains and its streams complete. -/
  | exit
  /-- TRAP (R323): Raises cause 0x03 with the code in TINFO0 and TPC at the next position. -/
  | trap (c : BitVec 16)
  /-- BRK (R323): Raises cause 0x02 when DBGCTL.BPEN is set, otherwise executes as NOP. -/
  | brk
  /-- RETH (R324): Restores k0 from k15, clears HANDLING, resumes suspended streams and continues at TPC. -/
  | reth
  /-- CALLG (R325): Posts one call record for the active lanes' requests and yields until the reply completes its token. -/
  | callg (q : BitVec 4) (v : BitVec 7) (s : BitVec 6)
  /-- SADD (R250): Scalar 64-bit add, optionally setting flags. -/
  | sadd (f : Bool) (d : BitVec 6) (a : BitVec 6) (b : BitVec 6)
  /-- SSUB (R250): Scalar 64-bit subtract, optionally setting flags. -/
  | ssub (f : Bool) (d : BitVec 6) (a : BitVec 6) (b : BitVec 6)
  /-- SMUL (R250): Scalar low 64-bit multiply. -/
  | smul (f : Bool) (d : BitVec 6) (a : BitVec 6) (b : BitVec 6)
  /-- SMULH (R250): Scalar signed high multiply. -/
  | smulh (f : Bool) (d : BitVec 6) (a : BitVec 6) (b : BitVec 6)
  /-- SMULHN (R250): Scalar unsigned high multiply. -/
  | smulhn (f : Bool) (d : BitVec 6) (a : BitVec 6) (b : BitVec 6)
  /-- SAND (R250): Scalar bitwise AND. -/
  | sand (f : Bool) (d : BitVec 6) (a : BitVec 6) (b : BitVec 6)
  /-- SOR (R250): Scalar bitwise OR. -/
  | sor (f : Bool) (d : BitVec 6) (a : BitVec 6) (b : BitVec 6)
  /-- SXOR (R250): Scalar bitwise XOR. -/
  | sxor (f : Bool) (d : BitVec 6) (a : BitVec 6) (b : BitVec 6)
  /-- SANDN (R250): Scalar AND NOT. -/
  | sandn (f : Bool) (d : BitVec 6) (a : BitVec 6) (b : BitVec 6)
  /-- SSHL (R250): Scalar shift left by sb[5:0]. -/
  | sshl (f : Bool) (d : BitVec 6) (a : BitVec 6) (b : BitVec 6)
  /-- SSHR (R250): Scalar logical shift right. -/
  | sshr (f : Bool) (d : BitVec 6) (a : BitVec 6) (b : BitVec 6)
  /-- SSRA (R250): Scalar arithmetic shift right. -/
  | ssra (f : Bool) (d : BitVec 6) (a : BitVec 6) (b : BitVec 6)
  /-- SMIN (R250): Scalar signed minimum. -/
  | smin (f : Bool) (d : BitVec 6) (a : BitVec 6) (b : BitVec 6)
  /-- SMAX (R250): Scalar signed maximum. -/
  | smax (f : Bool) (d : BitVec 6) (a : BitVec 6) (b : BitVec 6)
  /-- SMINN (R250): Scalar unsigned minimum. -/
  | sminn (f : Bool) (d : BitVec 6) (a : BitVec 6) (b : BitVec 6)
  /-- SMAXN (R250): Scalar unsigned maximum. -/
  | smaxn (f : Bool) (d : BitVec 6) (a : BitVec 6) (b : BitVec 6)
  /-- SCMP (R250): Sets the condition codes from sa minus sb. -/
  | scmp (a : BitVec 6) (b : BitVec 6)
  /-- SPOPC (R250): Scalar population count. -/
  | spopc (f : Bool) (d : BitVec 6) (a : BitVec 6)
  /-- SCLZ (R250): Scalar count of leading zeros. -/
  | sclz (f : Bool) (d : BitVec 6) (a : BitVec 6)
  /-- SCTZ (R250): Scalar count of trailing zeros. -/
  | sctz (f : Bool) (d : BitVec 6) (a : BitVec 6)
  /-- SADDI (R251): Scalar add of a sign-extended immediate. -/
  | saddi (d : BitVec 6) (a : BitVec 6) (i : BitVec 14)
  /-- SANDI (R251): Scalar AND with a sign-extended immediate. -/
  | sandi (d : BitVec 6) (a : BitVec 6) (i : BitVec 14)
  /-- SORI (R251): Scalar OR with a sign-extended immediate. -/
  | sori (d : BitVec 6) (a : BitVec 6) (i : BitVec 14)
  /-- SXORI (R251): Scalar XOR with a sign-extended immediate. -/
  | sxori (d : BitVec 6) (a : BitVec 6) (i : BitVec 14)
  /-- SSHI (R251): Scalar shift by an immediate amount of kind SHL, SHR or SRA. -/
  | sshi (d : BitVec 6) (a : BitVec 6) (k : ShKind) (n : BitVec 6)
  /-- SCMPI (R251): Sets the condition codes from sa minus an immediate. -/
  | scmpi (a : BitVec 6) (i : BitVec 14)
  /-- SLUI (R251): Loads a zero-extended widened immediate into a scalar. -/
  | slui (d : BitVec 6) (i : BitVec 20)
  /-- SMULI (R251): Scalar multiply by a sign-extended immediate. -/
  | smuli (d : BitVec 6) (a : BitVec 6) (i : BitVec 14)
  /-- VADD (R252): Vector 32-bit add per active lane. -/
  | vadd (n : Bool) (d : BitVec 7) (a : BitVec 7) (b : BitVec 7)
  /-- VSUB (R252): Vector 32-bit subtract. -/
  | vsub (n : Bool) (d : BitVec 7) (a : BitVec 7) (b : BitVec 7)
  /-- VMUL (R252): Vector low 32-bit multiply. -/
  | vmul (n : Bool) (d : BitVec 7) (a : BitVec 7) (b : BitVec 7)
  /-- VMULH (R252): Vector signed high multiply. -/
  | vmulh (n : Bool) (d : BitVec 7) (a : BitVec 7) (b : BitVec 7)
  /-- VMULHN (R252): Vector unsigned high multiply. -/
  | vmulhn (n : Bool) (d : BitVec 7) (a : BitVec 7) (b : BitVec 7)
  /-- VMAD (R252): Vector multiply-add with vd as third source. -/
  | vmad (n : Bool) (d : BitVec 7) (a : BitVec 7) (b : BitVec 7)
  /-- VAND (R252): Vector bitwise AND. -/
  | vand (n : Bool) (d : BitVec 7) (a : BitVec 7) (b : BitVec 7)
  /-- VOR (R252): Vector bitwise OR. -/
  | vor (n : Bool) (d : BitVec 7) (a : BitVec 7) (b : BitVec 7)
  /-- VXOR (R252): Vector bitwise XOR. -/
  | vxor (n : Bool) (d : BitVec 7) (a : BitVec 7) (b : BitVec 7)
  /-- VANDN (R252): Vector AND NOT. -/
  | vandn (n : Bool) (d : BitVec 7) (a : BitVec 7) (b : BitVec 7)
  /-- VSHL (R252): Vector shift left by vb[4:0]. -/
  | vshl (n : Bool) (d : BitVec 7) (a : BitVec 7) (b : BitVec 7)
  /-- VSHR (R252): Vector logical shift right. -/
  | vshr (n : Bool) (d : BitVec 7) (a : BitVec 7) (b : BitVec 7)
  /-- VSRA (R252): Vector arithmetic shift right. -/
  | vsra (n : Bool) (d : BitVec 7) (a : BitVec 7) (b : BitVec 7)
  /-- VMIN (R252): Vector signed minimum. -/
  | vmin (n : Bool) (d : BitVec 7) (a : BitVec 7) (b : BitVec 7)
  /-- VMAX (R252): Vector signed maximum. -/
  | vmax (n : Bool) (d : BitVec 7) (a : BitVec 7) (b : BitVec 7)
  /-- VABS (R252): Vector absolute value. -/
  | vabs (n : Bool) (d : BitVec 7) (a : BitVec 7)
  /-- VMINN (R252): Vector unsigned minimum. -/
  | vminn (n : Bool) (d : BitVec 7) (a : BitVec 7) (b : BitVec 7)
  /-- VMAXN (R252): Vector unsigned maximum. -/
  | vmaxn (n : Bool) (d : BitVec 7) (a : BitVec 7) (b : BitVec 7)
  /-- VADDSAT (R252): Vector signed saturating add. -/
  | vaddsat (n : Bool) (d : BitVec 7) (a : BitVec 7) (b : BitVec 7)
  /-- VSUBSAT (R252): Vector signed saturating subtract. -/
  | vsubsat (n : Bool) (d : BitVec 7) (a : BitVec 7) (b : BitVec 7)
  /-- VPOPC (R252): Vector population count. -/
  | vpopc (n : Bool) (d : BitVec 7) (a : BitVec 7)
  /-- VCLZ (R252): Vector count of leading zeros. -/
  | vclz (n : Bool) (d : BitVec 7) (a : BitVec 7)
  /-- VLANE (R252): Writes each lane's lane number. -/
  | vlane (n : Bool) (d : BitVec 7)
  /-- VBREV (R252): Vector bit reversal. -/
  | vbrev (n : Bool) (d : BitVec 7) (a : BitVec 7)
  /-- FADD (R253): FP32 add rounded once under the mode in force. -/
  | fadd (n : Bool) (d : BitVec 7) (a : BitVec 7) (b : BitVec 7)
  /-- FSUB (R253): FP32 subtract. -/
  | fsub (n : Bool) (d : BitVec 7) (a : BitVec 7) (b : BitVec 7)
  /-- FMUL (R253): FP32 multiply. -/
  | fmul (n : Bool) (d : BitVec 7) (a : BitVec 7) (b : BitVec 7)
  /-- FFMA (R253): FP32 fused multiply-add with one rounding. -/
  | ffma (n : Bool) (d : BitVec 7) (a : BitVec 7) (b : BitVec 7)
  /-- FMIN (R253): FP32 minimum under R42. -/
  | fmin (n : Bool) (d : BitVec 7) (a : BitVec 7) (b : BitVec 7)
  /-- FMAX (R253): FP32 maximum under R42. -/
  | fmax (n : Bool) (d : BitVec 7) (a : BitVec 7) (b : BitVec 7)
  /-- FABS (R253): FP32 absolute value. -/
  | fabs (n : Bool) (d : BitVec 7) (a : BitVec 7)
  /-- FNEG (R253): FP32 negation. -/
  | fneg (n : Bool) (d : BitVec 7) (a : BitVec 7)
  /-- FRCP (R253): Correctly rounded FP32 reciprocal. -/
  | frcp (n : Bool) (d : BitVec 7) (a : BitVec 7)
  /-- FRSQ (R253): Correctly rounded FP32 reciprocal square root. -/
  | frsq (n : Bool) (d : BitVec 7) (a : BitVec 7)
  /-- FEXP2 (R253): Correctly rounded FP32 power of two. -/
  | fexp2 (n : Bool) (d : BitVec 7) (a : BitVec 7)
  /-- FLOG2 (R253): Correctly rounded FP32 base-2 logarithm. -/
  | flog2 (n : Bool) (d : BitVec 7) (a : BitVec 7)
  /-- FFLOOR (R253): FP32 floor. -/
  | ffloor (n : Bool) (d : BitVec 7) (a : BitVec 7)
  /-- FFRAC (R253): FP32 fractional part. -/
  | ffrac (n : Bool) (d : BitVec 7) (a : BitVec 7)
  /-- BADD2 (R256): Adds two BF16 halves independently. -/
  | badd2 (n : Bool) (d : BitVec 7) (a : BitVec 7) (b : BitVec 7)
  /-- BMUL2 (R256): Multiplies two BF16 halves independently. -/
  | bmul2 (n : Bool) (d : BitVec 7) (a : BitVec 7) (b : BitVec 7)
  /-- BFMA2 (R256): Fused multiply-add on two BF16 halves. -/
  | bfma2 (n : Bool) (d : BitVec 7) (a : BitVec 7) (b : BitVec 7)
  /-- BMAX2 (R256): Maximum on two BF16 halves. -/
  | bmax2 (n : Bool) (d : BitVec 7) (a : BitVec 7) (b : BitVec 7)
  /-- CVT_F32_I32 (R257): Converts signed 32-bit integers to FP32. -/
  | cvtF32I32 (n : Bool) (d : BitVec 7) (a : BitVec 7)
  /-- CVT_F32_N32 (R257): Converts unsigned 32-bit integers to FP32. -/
  | cvtF32N32 (n : Bool) (d : BitVec 7) (a : BitVec 7)
  /-- CVT_I32_F32 (R257): Converts FP32 to saturated signed 32-bit integers. -/
  | cvtI32F32 (n : Bool) (d : BitVec 7) (a : BitVec 7)
  /-- CVT_N32_F32 (R257): Converts FP32 to saturated unsigned 32-bit integers. -/
  | cvtN32F32 (n : Bool) (d : BitVec 7) (a : BitVec 7)
  /-- CVT_BF2_F32 (R257): Rounds two FP32 sources into a BF16 pair. -/
  | cvtBf2F32 (n : Bool) (d : BitVec 7) (a : BitVec 7) (b : BitVec 7)
  /-- CVT_F32_BFL (R257): Widens the low BF16 half to FP32. -/
  | cvtF32Bfl (n : Bool) (d : BitVec 7) (a : BitVec 7)
  /-- CVT_F32_BFH (R257): Widens the high BF16 half to FP32. -/
  | cvtF32Bfh (n : Bool) (d : BitVec 7) (a : BitVec 7)
  /-- VCMP (R258): Compares lanes and writes the whole destination mask, restricted to k0. -/
  | vcmp (c : VCond) (k : BitVec 4) (t : CmpType) (a : BitVec 7) (b : BitVec 7)
  /-- VSEL (R259): Selects per lane between va and vb by a mask, joining both labels. -/
  | vsel (k : BitVec 4) (n : Bool) (d : BitVec 7) (a : BitVec 7) (b : BitVec 7)
  /-- VADDI (R260): Vector add of a sign-extended immediate. -/
  | vaddi (n : Bool) (d : BitVec 7) (a : BitVec 7) (i : BitVec 7)
  /-- VMULI (R260): Vector multiply by an immediate. -/
  | vmuli (n : Bool) (d : BitVec 7) (a : BitVec 7) (i : BitVec 7)
  /-- VANDI (R260): Vector AND with a zero-extended immediate. -/
  | vandi (n : Bool) (d : BitVec 7) (a : BitVec 7) (i : BitVec 7)
  /-- VORI (R260): Vector OR with an immediate. -/
  | vori (n : Bool) (d : BitVec 7) (a : BitVec 7) (i : BitVec 7)
  /-- VXORI (R260): Vector XOR with an immediate. -/
  | vxori (n : Bool) (d : BitVec 7) (a : BitVec 7) (i : BitVec 7)
  /-- VSHLI (R260): Vector shift left by an immediate amount. -/
  | vshli (n : Bool) (d : BitVec 7) (a : BitVec 7) (s : BitVec 5)
  /-- VSHRI (R260): Vector logical shift right by an immediate. -/
  | vshri (n : Bool) (d : BitVec 7) (a : BitVec 7) (s : BitVec 5)
  /-- VSRAI (R260): Vector arithmetic shift right by an immediate. -/
  | vsrai (n : Bool) (d : BitVec 7) (a : BitVec 7) (s : BitVec 5)
  /-- VMOVI (R260): Moves a sign-extended immediate into each active lane. -/
  | vmovi (n : Bool) (d : BitVec 7) (i : BitVec 7)
  /-- VMINI (R260): Vector signed minimum with an immediate. -/
  | vmini (n : Bool) (d : BitVec 7) (a : BitVec 7) (i : BitVec 7)
  /-- VMAXI (R260): Vector signed maximum with an immediate. -/
  | vmaxi (n : Bool) (d : BitVec 7) (a : BitVec 7) (i : BitVec 7)
  /-- VADDS (R261): Vector add of a scalar. -/
  | vadds (n : Bool) (d : BitVec 7) (a : BitVec 7) (s : BitVec 6)
  /-- VSUBS (R261): Vector subtract of a scalar. -/
  | vsubs (n : Bool) (d : BitVec 7) (a : BitVec 7) (s : BitVec 6)
  /-- VMULS (R261): Vector multiply by a scalar. -/
  | vmuls (n : Bool) (d : BitVec 7) (a : BitVec 7) (s : BitVec 6)
  /-- FADDS (R261): FP32 add of a scalar. -/
  | fadds (n : Bool) (d : BitVec 7) (a : BitVec 7) (s : BitVec 6)
  /-- FMULS (R261): FP32 multiply by a scalar. -/
  | fmuls (n : Bool) (d : BitVec 7) (a : BitVec 7) (s : BitVec 6)
  /-- FFMAS (R261): FP32 fused multiply-add with a scalar factor. -/
  | ffmas (n : Bool) (d : BitVec 7) (a : BitVec 7) (s : BitVec 6)
  /-- VMOVS (R261): Broadcasts a scalar's low word into each active lane. -/
  | vmovs (n : Bool) (d : BitVec 7) (s : BitVec 6)
  /-- VSHLS (R261): Vector shift left by a scalar amount. -/
  | vshls (n : Bool) (d : BitVec 7) (a : BitVec 7) (s : BitVec 6)
  /-- SHFL (R267): Group shuffle from lane g + (d mod W). -/
  | shfl (n : Bool) (d : BitVec 7) (a : BitVec 7) (b : BitVec 7)
  /-- SHFLX (R267): Group XOR shuffle. -/
  | shflx (n : Bool) (d : BitVec 7) (a : BitVec 7) (b : BitVec 7)
  /-- SHFLU (R267): Group shuffle up by d lanes. -/
  | shflu (n : Bool) (d : BitVec 7) (a : BitVec 7) (b : BitVec 7)
  /-- SHFLD (R267): Group shuffle down by d lanes. -/
  | shfld (n : Bool) (d : BitVec 7) (a : BitVec 7) (b : BitVec 7)
  /-- SCANI (R268): Inclusive integer group scan in Kogge-Stone order. -/
  | scani (n : Bool) (d : BitVec 7) (a : BitVec 7)
  /-- SCANF (R268): Inclusive FP32 group scan rounding at each step. -/
  | scanf (n : Bool) (d : BitVec 7) (a : BitVec 7)
  /-- REDI (R268): Integer group reduction. -/
  | redi (n : Bool) (d : BitVec 7) (a : BitVec 7)
  /-- REDF (R268): FP32 group sum reduction. -/
  | redf (n : Bool) (d : BitVec 7) (a : BitVec 7)
  /-- REDMAXF (R268): FP32 group maximum reduction. -/
  | redmaxf (n : Bool) (d : BitVec 7) (a : BitVec 7)
  /-- REDMINF (R268): FP32 group minimum reduction. -/
  | redminf (n : Bool) (d : BitVec 7) (a : BitVec 7)
  /-- CNFL (R269): Writes leader, count and rank of equal values within each group. -/
  | cnfl (n : Bool) (d : BitVec 7) (a : BitVec 7)
  /-- KAND (R264): Mask AND over the team width. -/
  | kand (d : BitVec 4) (a : BitVec 4) (b : BitVec 4)
  /-- KOR (R264): Mask OR. -/
  | kor (d : BitVec 4) (a : BitVec 4) (b : BitVec 4)
  /-- KXOR (R264): Mask XOR. -/
  | kxor (d : BitVec 4) (a : BitVec 4) (b : BitVec 4)
  /-- KANDN (R264): Mask AND NOT. -/
  | kandn (d : BitVec 4) (a : BitVec 4) (b : BitVec 4)
  /-- KNOT (R264): Mask complement over team lanes. -/
  | knot (d : BitVec 4) (a : BitVec 4)
  /-- KMOV (R264): Mask copy. -/
  | kmov (d : BitVec 4) (a : BitVec 4)
  /-- KALL (R264): Sets every team lane of a mask. -/
  | kall (d : BitVec 4)
  /-- KFIRST (R264): Keeps only the lowest set lane, with a pair-link exchange. -/
  | kfirst (d : BitVec 4) (a : BitVec 4)
  /-- KGANY (R264): Sets all lanes when any lane of the source is set. -/
  | kgany (d : BitVec 4) (a : BitVec 4)
  /-- KZERO (R264): Clears a mask; a meeting point of paired halves. -/
  | kzero (d : BitVec 4)
  /-- KCNT (R264): Counts the set lanes of a mask into a scalar. -/
  | kcnt (a : BitVec 4) (s : BitVec 6)
  /-- KTOS (R265): Copies one mask word to a scalar. -/
  | ktos (k : BitVec 4) (s : BitVec 6) (w : BitVec 5)
  /-- STOK (R265): Writes one mask word from a scalar. -/
  | stok (k : BitVec 4) (s : BitVec 6) (w : BitVec 5)
  /-- LD (R271): Per-lane load of 1, 2, 4 or 16 registers posting to a token. -/
  | ld (q : BitVec 4) (v : BitVec 7) (b : BitVec 6) (i : BitVec 7) (z : MSize)
  /-- LDN (R271): Per-lane narrow load widened by sign or zero extension. -/
  | ldn (q : BitVec 4) (v : BitVec 7) (b : BitVec 6) (i : BitVec 7) (z : NSize)
  /-- ST (R272): Per-lane store after ceiling and barrier checks. -/
  | st (q : BitVec 4) (v : BitVec 7) (b : BitVec 6) (i : BitVec 7) (z : MSize)
  /-- STN (R272): Per-lane narrowing store with clamping. -/
  | stn (q : BitVec 4) (v : BitVec 7) (b : BitVec 6) (i : BitVec 7) (z : NSize)
  /-- LDS_W (R274): Scalar word load, zero-extended. -/
  | ldsW (q : BitVec 4) (d : BitVec 6) (b : BitVec 6) (o : BitVec 7)
  /-- LDS_D (R274): Scalar doubleword load. -/
  | ldsD (q : BitVec 4) (d : BitVec 6) (b : BitVec 6) (o : BitVec 7)
  /-- STS_W (R274): Scalar word store. -/
  | stsW (q : BitVec 4) (d : BitVec 6) (b : BitVec 6) (o : BitVec 7)
  /-- STS_D (R274): Scalar doubleword store. -/
  | stsD (q : BitVec 4) (d : BitVec 6) (b : BitVec 6) (o : BitVec 7)
  /-- LDS_N8 (R274): Scalar byte load, zero-extended. -/
  | ldsN8 (q : BitVec 4) (d : BitVec 6) (b : BitVec 6) (o : BitVec 7)
  /-- LDS_N16 (R274): Scalar half load, zero-extended. -/
  | ldsN16 (q : BitVec 4) (d : BitVec 6) (b : BitVec 6) (o : BitVec 7)
  /-- STS_B8 (R274): Scalar byte store. -/
  | stsB8 (q : BitVec 4) (d : BitVec 6) (b : BitVec 6) (o : BitVec 7)
  /-- STS_H16 (R274): Scalar half store. -/
  | stsH16 (q : BitVec 4) (d : BitVec 6) (b : BitVec 6) (o : BitVec 7)
  /-- LDH (R117): Reads a tensor element by coordinates through a handle. -/
  | ldh (q : BitVec 4) (v : BitVec 7) (h : BitVec 3) (c : BitVec 7)
  /-- STH (R117): Stores a tensor element by coordinates; a zero removes a sparse key. -/
  | sth (q : BitVec 4) (v : BitVec 7) (h : BitVec 3) (c : BitVec 7)
  /-- SPADD (R117): Adds to a tensor element and returns the old value. -/
  | spadd (q : BitVec 4) (v : BitVec 7) (h : BitVec 3) (c : BitVec 7)
  /-- SPITER (R119): Advances each lane's traversal cursor to the next present key. -/
  | spiter (q : BitVec 4) (v : BitVec 7) (h : BitVec 3) (s : BitVec 6)
  /-- SPHAS (R117): Tests whether a tensor element is present or non-zero. -/
  | sphas (q : BitVec 4) (v : BitVec 7) (h : BitVec 3) (c : BitVec 7)
  /-- ATOM (R276): Per-lane indivisible read-modify-write at the home slice with semantics and scope. -/
  | atom (q : BitVec 4) (d : BitVec 7) (a : BitVec 7) (o : AtomOp) (e : Sem) (c : Scope)
  /-- SATOM (R276): Scalar indivisible read-modify-write of a word or doubleword. -/
  | satom (q : BitVec 4) (d : BitVec 6) (z : Bool) (a : BitVec 6) (o : AtomOp) (e : Sem) (c : Scope)
  /-- WAIT (R277): Makes the team ineligible until a token's count is at most t. -/
  | wait (q : BitVec 4) (t : BitVec 8)
  /-- WAITA (R277): Makes the team ineligible until every named token count is 0. -/
  | waita (b : BitVec 16)
  /-- YIELD (R277): Leaves the active set until a token's count is at most t, then resumes at the target. -/
  | yield (q : BitVec 4) (t : BitVec 8) (o : BitVec 10)
  /-- PHASE (R278): Release and acquire at a scope, holding the team until earlier accesses are performed. -/
  | phase (s : Scope)
  /-- MWAIT (R279): Arms a monitor on a location with an expected value. -/
  | mwait (a : BitVec 6) (b : BitVec 6) (z : Bool)
  /-- BARI (R280): Initialises and arms a barrier object with a target. -/
  | bari (a : BitVec 6) (b : BitVec 6)
  /-- BARA (R280): Releases at die scope and adds one arrival to an armed barrier. -/
  | bara (a : BitVec 6)
  /-- BARW (R280): Holds the team until the barrier is released, then acquires at die scope. -/
  | barw (a : BitVec 6)
  /-- KCOPY (R282): Starts a five-level strided copy, or a densifying copy from a sparse-tree handle. -/
  | kcopy (q : BitVec 4) (s : BitVec 6) (h : BitVec 3)
  /-- KGATH (R284): Gathers rows indexed by a vector register. -/
  | kgath (q : BitVec 4) (s : BitVec 6) (v : BitVec 7)
  /-- KSCAT (R284): Scatters rows to indices in a vector register. -/
  | kscat (q : BitVec 4) (s : BitVec 6) (v : BitVec 7)
  /-- KPOS (R286): Returns the committed position of a live stream. -/
  | kpos (q : BitVec 4) (d : BitVec 6) (a : BitVec 6)
  /-- KSTOP (R286): Stops every live stream with the named descriptor. -/
  | kstop (q : BitVec 4) (a : BitVec 6)
  /-- WWR (R288): Sends bytes to a fabric window after the Lodge test. -/
  | wwr (q : BitVec 4) (a : BitVec 6) (b : BitVec 6) (c : BitVec 6)
  /-- WSIG (R289): Adds a value to a window's receiver counter after earlier writes land. -/
  | wsig (q : BitVec 4) (a : BitVec 6) (b : BitVec 6)
  /-- WCNT (R290): Reads a window's sender or receiver counter. -/
  | wcnt (q : BitVec 4) (d : BitVec 6) (a : BitVec 6) (r : Bool)
  /-- WWT (R290): Holds the team until a window counter reaches a threshold. -/
  | wwt (a : BitVec 6) (b : BitVec 6) (r : Bool)
  /-- MMA (R296): Adds a block matrix product into a tile's active rows. -/
  | mma (q : BitVec 4) (t : BitVec 6) (a : BitVec 7) (b : BitVec 7)
  /-- MMAZ (R296): Clears a tile then adds a block matrix product. -/
  | mmaz (q : BitVec 4) (t : BitVec 6) (a : BitVec 7) (b : BitVec 7)
  /-- MMAN (R296): Subtracts a block matrix product from a tile. -/
  | mman (q : BitVec 4) (t : BitVec 6) (a : BitVec 7) (b : BitVec 7)
  /-- ACLR (R301): Clears a tile's entries, flags and row labels. -/
  | aclr (q : BitVec 4) (t : BitVec 6)
  /-- ACVT (R302): Converts a tile's active rows to FP32 or BF16 registers. -/
  | acvt (q : BitVec 4) (t : BitVec 6) (d : BitVec 7) (f : Bool)
  /-- ABQ (R303): Quantises tile rows into described blocks in registers. -/
  | abq (q : BitVec 4) (t : BitVec 6) (d : BitVec 7) (f : Fmt)
  /-- AST (R304): Stores a tile image to memory. -/
  | ast (q : BitVec 4) (t : BitVec 6) (a : BitVec 6)
  /-- ALD (R304): Loads and checks a tile image from memory. -/
  | ald (q : BitVec 4) (t : BitVec 6) (a : BitVec 6)
  /-- AMRG (R306): Adds a tile into a merge tile at its owning slice. -/
  | amrg (q : BitVec 4) (t : BitVec 6) (a : BitVec 6)
  /-- AMI (R305): Initialises a merge tile with a grid exponent. -/
  | ami (q : BitVec 4) (a : BitVec 6) (b : BitVec 6)
  /-- AEXP (R307): Reads a tile's XMAX, EMPTY and SAT into a scalar. -/
  | aexp (q : BitVec 4) (t : BitVec 6) (d : BitVec 6)
  /-- BQNT (R309): Quantises BF16 pairs into one described block per lane. -/
  | bqnt (d : BitVec 7) (a : BitVec 7) (f : Fmt)
  /-- BDEQ (R310): Expands a described block into 96 BF16 values. -/
  | bdeq (d : BitVec 7) (a : BitVec 7)
  /-- BHDR (R311): Checks a block and writes its header summary. -/
  | bhdr (d : BitVec 7) (a : BitVec 7)
  /-- TAPB (R178): Opens a tap session after reading and checking the tap descriptor. -/
  | tapb (a : BitVec 6) (b : BitVec 6) (c : BitVec 6) (q : BitVec 4)
  /-- FSEL (R179): Feeds a tile's JumpReLU values into the session's candidate lists. -/
  | fsel (t : BitVec 6) (a : BitVec 6) (q : BitVec 4)
  /-- TAPR (R181): Evaluates session rows against their rules, holds watched rows and writes deltas. -/
  | tapr (d : BitVec 4) (r : BitVec 4) (s : BitVec 6) (q : BitVec 4)
  /-- TAPE (R188): Re-evaluates one held row from handler-computed features. -/
  | tape (a : BitVec 6) (b : BitVec 6) (c : BitVec 6) (q : BitVec 4)
  /-- TAPL (R189): Releases a held row to RELEASED. -/
  | tapl (a : BitVec 6) (b : BitVec 6)
  /-- TAPH (R190): Reads a row map entry's state doubleword after a package acquire. -/
  | taph (d : BitVec 6) (a : BitVec 6) (b : BitVec 6)
  /-- SAMPLE (R313): Draws one lane of the selection group by weight. -/
  | sample (d : BitVec 6) (a : BitVec 7) (b : BitVec 6)
  /-- TOPK (R314): Selects the k largest values of the selection group with sums. -/
  | topk (d : BitVec 7) (a : BitVec 7) (s : BitVec 6)
  /-- MERGEK (R315): Merges top-k lists in memory into one output list. -/
  | mergek (q : BitVec 4) (a : BitVec 6) (b : BitVec 6) (c : BitVec 6)
  /-- RNGU (R316): Draws one uniform per lane from seed, token index and draw index. -/
  | rngu (d : BitVec 7) (a : BitVec 7) (b : BitVec 6)
  /-- LBLGET (R317): Reads the origin set of a register lane. -/
  | lblget (d : BitVec 6) (a : BitVec 7) (b : BitVec 6)
  /-- LBLS (R317): Reads the origin set of a scalar. -/
  | lbls (d : BitVec 6) (a : BitVec 6)
  /-- LBLT (R317): Tests each lane's origin set against a policy set into a mask. -/
  | lblt (k : BitVec 4) (a : BitVec 7) (b : BitVec 6)
  /-- SRD (R318): Reads a special register. -/
  | srd (d : BitVec 6) (n : BitVec 8)
  /-- SWR (R318): Writes a special register's RW fields and clears its W1C bits. -/
  | swr (a : BitVec 6) (n : BitVec 8)
  /-- GPRD (R319): Reads a graph-parameter register for the current replay. -/
  | gprd (d : BitVec 6) (n : BitVec 6)
  /-- GPWR (R319): Stages a graph-parameter value for the next replay. -/
  | gpwr (a : BitVec 6) (n : BitVec 6)
  /-- SPEXT (R320): Adds an extent of free nodes to a shard of a sparse tensor. -/
  | spext (h : BitVec 3) (a : BitVec 6) (b : BitVec 6)
  /-- INVL (R321): Invalidates first-stage translations of a page, ASID or the partition. -/
  | invl (k : InvlKind) (a : BitVec 6) (b : BitVec 6)
  /-- ICINV (R322): Releases, then drops instruction-cache lines of every core of the partition. -/
  | icinv (a : BitVec 6) (l : Bool)
  /-- IMM (R235): Hint prepending 22 immediate bits to its instruction's field. -/
  | imm (v : BitVec 22)
  /-- RUN (R27): Hint opening a run of n positions. -/
  | run (n : BitVec 4)
  /-- LIVEV (R227): Hint naming vector registers kept at a LIVE point. -/
  | livev (g : BitVec 6) (b : BitVec 16)
  /-- LIVES (R227): Hint naming scalars, masks or tokens kept at a LIVE point. -/
  | lives (c : BitVec 3) (b : BitVec 16)
  /-- LIVEP (R227): Hint naming a scratchpad range kept at a LIVE point. -/
  | livep (s : BitVec 14) (c : BitVec 8)
  /-- REGION (R133): Hint opening an idempotent region and setting the restart point. -/
  | region
  /-- OFF (R235): Hint adding a signed byte offset to each lane's address. -/
  | off (n : BitVec 22)
  /-- MOD (R38): Hint giving rounding, saturate and cache policy to its instruction. -/
  | mod (p : CachePol) (t : Bool) (r : Rounding)
  /-- PRIO (R156): Hint giving an issue priority class to its position. -/
  | prio (c : BitVec 3)
  /-- DLY_END (R247): The delay count of a DLY runs out and the team becomes ready to issue again. -/
  | dlyEnd
  /-- TEAM_EXIT_COMPLETE (R36): After the EXIT drain the team disarms its monitor, performs its system release, appends its exit record and returns its runs and tiles. -/
  | teamExitComplete
  /-- CALL_RECORD_POST (R161): A CALLG waiting on a full or absent call queue posts its record once space appears. -/
  | callRecordPost
  /-- CALLG_REPLY (R226): When DONE becomes 1 the hardware writes each masked lane's reply, clears DONE and completes the call's token with an acquire. -/
  | callgReply
  /-- WAIT_SATISFIED (R31): A waited token count falls to the threshold and the team becomes ready again. -/
  | waitSatisfied
  /-- YIELD_REACTIVATE (R31): The yielded team's token condition holds and it becomes ready at its target. -/
  | yieldReactivate
  /-- PHASE_RELEASE_DONE (R143): Every earlier access of a held PHASE has been performed; the acquire is done and the team issues on. -/
  | phaseReleaseDone
  /-- MWAIT_WAKE (R147): A write performed at home leaves the monitored value different; the team acquires and continues. -/
  | mwaitWake
  /-- BARW_RELEASE (R148): A waiting BARW sees ARMED clear or BERR set and continues after its acquire. -/
  | barwRelease
  /-- KUDU_ITERATION (R282): A Kudu iteration or row is performed; committed advances and the row arrives at its barrier. -/
  | kuduIteration
  /-- KUDU_COMMAND_COMPLETE (R282): A Kudu command has performed every iteration or stopped, and its token completes. -/
  | kuduCommandComplete
  /-- STREAM_RESUME (R134): After a fault is resolved the stream resumes at the iteration after its committed one. -/
  | streamResume
  /-- WWT_RELEASE (R290): The window counter reaches the threshold and the team continues after a system acquire. -/
  | wwtRelease
  /-- SENDER_COUNTER_ADVANCE (R146): A WWR's source may be reused; the sender counter advances and its token completes. -/
  | senderCounterAdvance
  /-- WINDOW_WRITE_ARRIVAL (R146): A WWR's bytes are performed at the receiver after the ceiling check and the receiver counter advances. -/
  | windowWriteArrival
  /-- WSIG_ARRIVAL (R289): The receiver applies a WSIG value to its receiver counter. -/
  | wsigArrival
  /-- MATRIX_OPERATION (R56): The matrix engine performs an accepted MMA or ACC operation on its tile and completes its token. -/
  | matrixOperation
  /-- MERGE_TILE_APPLY (R100): The owning slice applies an arriving AMI or AMRG to a merge tile in arrival order. -/
  | mergeTileApply
  /-- FSEL_FEED (R179): The Belvedere processes an accepted FSEL tile into the session lists. -/
  | fselFeed
  /-- TAPR_EVALUATION (R181): The Belvedere performs a TAPR's tensor writes, rule chains, holds, records and delta list, then writes kd. -/
  | taprEvaluation
  /-- TAPE_EVALUATION (R188): The Belvedere performs a TAPE's release, tensor updates, chain evaluation and row map update. -/
  | tapeEvaluation
  /-- MERGEK_COMPLETE (R315): The merge has read every list and written its output, completing the token. -/
  | mergekComplete
  /-- INVL_COMPLETE (R136): Every core has dropped the matching entries and pending accesses are done; the INVL's team continues. -/
  | invlComplete
  /-- ICINV_COMPLETE (R322): The instruction caches have dropped the lines and the ICINV's team continues. -/
  | icinvComplete
  /-- PAIR_LINK_EXCHANGE (R20): Both halves of a paired team have reached an exchange position and it completes. -/
  | pairLinkExchange
  /-- LOAD_COMPLETION (R271): A load's data returns and is written to its registers with labels. -/
  | loadCompletion
  /-- STORE_PERFORMED (R141): A store lane is applied at its home slice, raising the page's current set. -/
  | storePerformed
  /-- ATOMIC_PERFORMED (R144): An atomic lane is performed indivisibly at its home slice. -/
  | atomicPerformed
  /-- ARBOR_OPERATION (R113): A shard's Arbor performs one read, test, store, add, traversal read or extent addition whole. -/
  | arborOperation
  /-- PAGE_WALK (R127): A TLB miss walks the frame-table chain once a walk is free. -/
  | pageWalk
  /-- TRANSLATION_FAULT_RESOLVE (R133): Limamon resolves a translation or walk-limit fault and requeues the team at its restart point. -/
  | translationFaultResolve
  /-- MIGRATION_START (R132): Limamon picks an unpinned victim page and sets MIG to COPYING. -/
  | migrationStart
  /-- MIGRATION_END (R132): Limamon writes the new entry, invalidates the partition's cores and restarts held teams. -/
  | migrationEnd
  /-- TEAM_CREATE (R154): Limamon creates the head team of the launch list once some core has room. -/
  | teamCreate
  /-- COMPACTION (R155): After COMPACT_WAIT expires the scheduler compacts a core, moving teams at LIVE points or YIELDs. -/
  | compaction
  /-- ACTIVE_SET_EVICTION (R158): A team not ready for 64 cycles leaves the active set for a ready resident team. -/
  | activeSetEviction
  /-- PROGRESS_SWAP (R159): After PROGRESS_WINDOW without issue the scheduler swaps out the longest-idle team. -/
  | progressSwap
  /-- SAVE (R227): A requested save is taken at the team's next LIVE point: drain, release, save area write, free. -/
  | save
  /-- FULL_SAVE (R227): PREEMPT_LIMIT expires without a LIVE point and a full save is taken at the next position outside a run. -/
  | fullSave
  /-- TEAM_RESTORE (R227): A saved team that fits is restored: acquire, rebuild state, recheck monitor, reopen session, resume streams. -/
  | teamRestore
  /-- TRAP_ENTRY (R222): After the trap drain the cause registers and masks are written and execution continues at the trap vector. -/
  | trapEntry
  /-- GRAPH_REPLAY_START (R199): A replay starts once the previous one completes, applying staged graph parameters. -/
  | graphReplayStart
  /-- KERNEL_NODE_START (R198): Limamon checks and starts a KERNEL node once its dependencies complete. -/
  | kernelNodeStart
  /-- COMMIT_NODE (R201): Limamon retries parked rows and commits recorded tokens to delivery rings. -/
  | commitNode
  /-- DOORBELL_TAIL_WRITE (R150): A host write of TAIL through a doorbell page, setting ERROR on overflow. -/
  | doorbellTailWrite
  /-- REGISTER_WRITE (R351): A write to a host-visible register without a row of its own, such as the BAR0 aperture base. -/
  | registerWrite
  /-- HOST_READ_BAR4 (R356): A host read through the BAR4 aperture, tested by the Lodge. -/
  | hostReadBar4
  /-- HOST_WRITE_BAR4 (R351): A host write through the BAR4 aperture performed at its home slice with label empty. -/
  | hostWriteBar4
  /-- LAUNCH (R154): Places a kernel's teams on the partition's launch list. -/
  | launch
  /-- REPLAY (R198): Requests one replay of a graph record. -/
  | replay
  /-- PATCH (R199): Stages a graph-parameter value and origin set for the next replay. -/
  | patch
  /-- COPY (R353): Copies bytes carrying the source page's current set. -/
  | copy
  /-- FILL (R353): Fills memory with a repeated 64-bit pattern. -/
  | fill
  /-- SIGNAL (R353): Writes a doubleword after a system release of the queue's earlier commands. -/
  | signal
  /-- WAITV (R353): Waits for a location to meet a condition. -/
  | waitv
  /-- WAITV_MATCH (R353): A value performed at home meets the WAITV condition and the command completes after an acquire. -/
  | waitvMatch
  /-- INVL_PAGE_COMMAND (R136): Host command invalidating one page's translations. -/
  | invlPageCommand
  /-- INVL_ASID_COMMAND (R136): Host command invalidating one ASID's translations. -/
  | invlAsidCommand
  /-- INVL_PARTITION_COMMAND (R136): Host command invalidating the whole partition's translations. -/
  | invlPartitionCommand
  /-- QSET (R354): Sets a host work queue's state record and partition limits. -/
  | qset
  /-- PART_CREATE (R354): Creates a partition from a table image. -/
  | partCreate
  /-- PART_HALT (R354): Halts a partition. -/
  | partHalt
  /-- PART_RESET (R354): Resets a partition, clearing its origins and policy entries. -/
  | partReset
  /-- FMAP (R135): Writes a partition frame-map extent and invalidates the second stage. -/
  | fmap
  /-- ORIGIN (R170): Registers an origin's public key and destinations. -/
  | origin
  /-- POLICY (R172): Installs a signed Lodge policy entry after verifying each origin's signature. -/
  | policy
  /-- CLEAR (R172): Clears a Lodge policy entry, refusing new transfers under it. -/
  | clear
  /-- CLEAR_COMPLETE (R172): Every transfer admitted under a cleared entry has finished and the clear completes. -/
  | clearComplete
  /-- SPNEW (R107): Creates a sparse tensor's root table, node pool and descriptor. -/
  | spnew
  /-- GRAPH (R197): Records a graph record's node list and initial parameters. -/
  | graph
  /-- WINDOW_REGISTER (R354): Registers a fabric window, pinning its pages and zeroing its counters. -/
  | windowRegister
  /-- WINDOW_DEREGISTER (R354): Deregisters a fabric window and unpins its pages. -/
  | windowDeregister
  /-- PEER (R354): Binds a fabric peer number to a remote partition. -/
  | peer
  /-- PEER_BIND_COMPLETE (R354): The remote partition binds back and the PEER command completes. -/
  | peerBindComplete
  /-- SAMPLER_ENABLE (R216): Enables a core's sampler with interval, seed and ring. -/
  | samplerEnable
  /-- SAMPLER_DISABLE (R216): Disables a core's sampler. -/
  | samplerDisable
  /-- SAMPLER_TICK (R217): At a jittered tick the sampler selects an issued and a blocked team and writes a sample record. -/
  | samplerTick
  /-- QUERY_PARTITION (R354): Writes the partition table entry to an output. -/
  | queryPartition
  /-- QUERY_QUOTE (R361): Writes a signed attestation quote over the nonce and measurements. -/
  | queryQuote
  /-- RESTORE (R206): Restores a saved team into a compatible partition. -/
  | restore
  /-- MAP (R354): Writes a frame table entry and links it into its anchor chain. -/
  | map
  /-- FWLOAD (R360): Verifies and loads a firmware image, extending MR1. -/
  | fwload
  /-- HALT (R364): Suspends a team at its next position outside a run. -/
  | halt
  /-- RESUME (R364): Makes a halted team ready again. -/
  | resume
  /-- DUMP_ONE_TEAM (R365): Halts one team, copies its full save image and resumes it. -/
  | dumpOneTeam
  /-- DUMP_EVERY_TEAM (R365): Halts every team of the partition, copies their images and resumes them. -/
  | dumpEveryTeam
  /-- DBGSET (R366): Writes a team's DBGCTL, WATCHA and WATCHB between two positions. -/
  | dbgset
  /-- ERRLOG (R368): Writes the soft-error counters. -/
  | errlog
  /-- THROTTLE (R370): Writes each die's clock rate and time below nominal. -/
  | throttle
  /-- FRZ_N (R362): Assertion of the freeze pin stops every package clock. -/
  | frzN
  /-- FREEZE (R362): The debug-port FREEZE instruction stops every package clock. -/
  | freeze
  /-- THAW (R362): A debug-port thaw resumes every clock and retrains the links. -/
  | thaw
  /-- DEBUG_PORT_ACCESS (R362): In the frozen state the debug port reads or writes an architectural state item. -/
  | debugPortAccess
  /-- PACKAGE_RESET (R371): Package reset runs the bring-up steps in order. -/
  | packageReset
  /-- LINK_DOWN (R358): A fabric port fails its retries; pending window transfers complete with error. -/
  | linkDown
  /-- MATRIX_SELF_TEST (R367): The matrix sequencer runs a self-test product on each quarter-array. -/
  | matrixSelfTest
  /-- POWER_CONTROL (R369): Limamon steps each die's core clock to hold average power and peak current. -/
  | powerControl
  /-- PATROL_SCRUB (R368): The patrol scrub rewrites HBM units and reports uncorrectable ones. -/
  | patrolScrub
  /-- SOFT_ERROR (R105): A soft error strikes a protection unit of HBM, L2, the Orangery or the accumulator store, leaving it corrected on its next read or uncorrectable until a full write replaces it. -/
  | softError
  /-- HOST_MEMORY_WRITE (R97): A host agent writes host memory that the device reads, such as a ring entry, a delivery ring HEAD, or a location raced by a device atomic. -/
  | hostMemoryWrite
  /-- PARTITION_RESET_COMPLETE (R352): A partition reset finishes, the partition leaves RESETTING, and MSI-X vector 0 signals the completion of the reset. -/
  | partitionResetComplete
deriving DecidableEq, Repr

end Sys2Proof
end

