-- ==== Sys2Proof/Machine/Float.lean ====
section
/-! DEFINITION. Binary32 and BF16 arithmetic to the bit (R37-R44, R253-R257): exact values, rounded once. A format is given by its
precision p, 24 for binary32 and 8 for BF16; both have 8 exponent bits. -/
namespace Sys2Proof.Machine

/-- A decoded number: NaN, an infinity, or (-1)^neg m 2^e. -/
inductive FV where
  | nan
  | inf (neg : Bool)
  | fin (neg : Bool) (m : Nat) (e : Int)
deriving DecidableEq, Repr

/-- 2^n as a Nat for a non-negative Int. -/
def pow2 (n : Int) : Nat := 2 ^ n.toNat

/-- The exponent of a format's least subnormal bit. -/
def fpMinExp (p : Nat) : Int := -125 - (p : Int)

/-- Decode a bit pattern. -/
def fpDec (p : Nat) (b : Nat) : FV :=
  let fr := b % 2 ^ (p - 1)
  let ex := b / 2 ^ (p - 1) % 256
  let neg := b / 2 ^ (p + 7) % 2 == 1
  if ex = 255 then (if fr = 0 then .inf neg else .nan)
  else if ex = 0 then .fin neg fr (fpMinExp p)
  else .fin neg (fr + 2 ^ (p - 1)) (fpMinExp p + (ex : Int) - 1)

/-- The default NaN (R41). -/
def fpNan (p : Nat) : Nat := 511 * 2 ^ (p - 2)
/-- A signed infinity. -/
def fpInf (p : Nat) (neg : Bool) : Nat := 255 * 2 ^ (p - 1) + (if neg then 2 ^ (p + 7) else 0)
/-- A signed zero. -/
def fpZero (p : Nat) (neg : Bool) : Nat := if neg then 2 ^ (p + 7) else 0

/-- Whether a magnitude rounds up: remainder below the unit compared with half of it, inexactness, oddness, sign (R38). -/
def rndUp (md : Rounding) (neg : Bool) (rem half : Nat) (sticky odd : Bool) : Bool :=
  match md with
  | .rne => decide (half < rem) || (rem == half && (sticky || odd))
  | .rz => false
  | .ru => !neg && (rem != 0 || sticky)
  | .rd => neg && (rem != 0 || sticky)

/-- fpround (R39): the format's bits of (-1)^neg (m + d) 2^e, where 0 <= d < 1 and d > 0 exactly when sticky. A sticky m must have
more than p + 1 bits. -/
def fpRound (p : Nat) (md : Rounding) (neg : Bool) (m : Nat) (e : Int) (sticky : Bool) : Nat :=
  if m = 0 then fpZero p neg
  else
    let q := max ((Nat.log2 m : Int) + e - ((p : Int) - 1)) (fpMinExp p)
    let r : Nat :=
      if q ≤ e then m * pow2 (e - q)
      else
        let u := pow2 (q - e)
        let lo := m / u
        if rndUp md neg (2 * (m % u)) u sticky (lo % 2 == 1) then lo + 1 else lo
    let bits := (q - fpMinExp p).toNat * 2 ^ (p - 1) + r
    let sgn := fpZero p neg
    if bits < 255 * 2 ^ (p - 1) then bits + sgn
    else match md with
      | .rne => fpInf p neg
      | .rz => 255 * 2 ^ (p - 1) - 1 + sgn
      | .ru => if neg then 255 * 2 ^ (p - 1) - 1 + sgn else fpInf p neg
      | .rd => if neg then fpInf p neg else 255 * 2 ^ (p - 1) - 1 + sgn

/-- The signed integer of a finite value on the grid 2^g, for g at most its exponent. -/
def onGrid (neg : Bool) (m : Nat) (e g : Int) : Int := (if neg then -1 else 1) * ((m * pow2 (e - g) : Nat) : Int)

/-- Round an exact dyadic x 2^g; an exact zero takes the sign zneg. -/
def fpOfInt (p : Nat) (md : Rounding) (x : Int) (g : Int) (zneg : Bool) : Nat :=
  if x = 0 then fpZero p zneg else fpRound p md (decide (x < 0)) x.natAbs g false

/-- The sign of an exact zero sum of two values with signs a and b (IEEE 754). -/
def zeroSign (md : Rounding) (a b : Bool) : Bool := if a = b then a else md == .rd

/-- a + b of decoded values. -/
def fvAdd (p : Nat) (md : Rounding) : FV → FV → Nat
  | .nan, _ => fpNan p
  | _, .nan => fpNan p
  | .inf a, .inf b => if a = b then fpInf p a else fpNan p
  | .inf a, .fin _ _ _ => fpInf p a
  | .fin _ _ _, .inf b => fpInf p b
  | .fin na ma ea, .fin nb mb eb =>
    let g := min ea eb
    fpOfInt p md (onGrid na ma ea g + onGrid nb mb eb g) g (zeroSign md na nb)

/-- The exact product of decoded values. -/
def fvMul : FV → FV → FV
  | .nan, _ => .nan
  | _, .nan => .nan
  | .inf a, .inf b => .inf (a != b)
  | .inf a, .fin nb mb _ => if mb = 0 then .nan else .inf (a != nb)
  | .fin na ma _, .inf b => if ma = 0 then .nan else .inf (na != b)
  | .fin na ma ea, .fin nb mb eb => .fin (na != nb) (ma * mb) (ea + eb)

/-- Negation. -/
def fvNeg : FV → FV
  | .nan => .nan
  | .inf a => .inf (!a)
  | .fin a m e => .fin (!a) m e

/-- A decoded value, rounded to the format. -/
def fvRound (p : Nat) (md : Rounding) : FV → Nat
  | .nan => fpNan p
  | .inf a => fpInf p a
  | .fin n m e => if m = 0 then fpZero p n else fpRound p md n m e false

def fpAdd (p : Nat) (md : Rounding) (a b : Nat) : Nat := fvAdd p md (fpDec p a) (fpDec p b)
def fpSub (p : Nat) (md : Rounding) (a b : Nat) : Nat := fvAdd p md (fpDec p a) (fvNeg (fpDec p b))
def fpMul (p : Nat) (md : Rounding) (a b : Nat) : Nat := fvRound p md (fvMul (fpDec p a) (fpDec p b))
/-- a b + c, rounded once (R40). -/
def fpFma (p : Nat) (md : Rounding) (a b c : Nat) : Nat := fvAdd p md (fvMul (fpDec p a) (fpDec p b)) (fpDec p c)

def fpIsNan (p : Nat) (a : Nat) : Bool := fpDec p a == .nan

/-- A key that orders non-NaN values, -0 below +0 (R42). -/
def fpKey (p : Nat) (a : Nat) : Int :=
  let m := a % 2 ^ (p + 7)
  if a / 2 ^ (p + 7) % 2 = 1 then -1 - (m : Int) else (m : Int)

/-- a < b as IEEE 754 compares: false with NaN, zeros equal. -/
def fpLt (p : Nat) (a b : Nat) : Bool :=
  !fpIsNan p a && !fpIsNan p b && decide (fpKey p a < fpKey p b) && !(a % 2 ^ (p + 7) == 0 && b % 2 ^ (p + 7) == 0)
/-- a = b as IEEE 754 compares. -/
def fpEq (p : Nat) (a b : Nat) : Bool :=
  !fpIsNan p a && !fpIsNan p b && (a % 2 ^ (p + 8) == b % 2 ^ (p + 8) || (a % 2 ^ (p + 7) == 0 && b % 2 ^ (p + 7) == 0))

/-- FMIN, FMAX (R42): mx selects the larger. -/
def fpMinMax (p : Nat) (mx : Bool) (a b : Nat) : Nat :=
  if fpIsNan p a then (if fpIsNan p b then fpNan p else b)
  else if fpIsNan p b then a
  else if (decide (fpKey p a < fpKey p b)) == mx then b else a

/-- FABS, FNEG: NaN gives the default NaN. -/
def fpAbs (p : Nat) (a : Nat) : Nat := if fpIsNan p a then fpNan p else a % 2 ^ (p + 7)
def fpNegate (p : Nat) (a : Nat) : Nat :=
  if fpIsNan p a then fpNan p else if a / 2 ^ (p + 7) % 2 = 1 then a % 2 ^ (p + 7) else a % 2 ^ (p + 7) + 2 ^ (p + 7)

/-- 1/a (R254). -/
def fpRcp (md : Rounding) (a : Nat) : Nat :=
  match fpDec 24 a with
  | .nan => fpNan 24
  | .inf n => fpZero 24 n
  | .fin n m e =>
    if m = 0 then fpInf 24 n
    else fpRound 24 md n (2 ^ 80 / m) (-80 - e) (2 ^ 80 % m != 0)

/-- The integer square root, one bit of the result a step. -/
def isqrtGo (x : Nat) : Nat → Nat → Nat
  | 0, r => r
  | n + 1, r => if (r + 2 ^ n) * (r + 2 ^ n) ≤ x then isqrtGo x n (r + 2 ^ n) else isqrtGo x n r

/-- The integer square root of x below 2^160. -/
def isqrt (x : Nat) : Nat := isqrtGo x 80 0

/-- 1/sqrt a (R254). -/
def fpRsq (md : Rounding) (a : Nat) : Nat :=
  match fpDec 24 a with
  | .nan => fpNan 24
  | .inf n => if n then fpNan 24 else fpZero 24 false
  | .fin n m e =>
    if m = 0 then fpInf 24 n
    else if n then fpNan 24
    else
      let odd := e % 2 = 1
      let m' := if odd then 2 * m else m
      let e' := if odd then e - 1 else e
      let r := isqrt (2 ^ 120 / m')
      fpRound 24 md false r (-60 - e' / 2) (r * r * m' != 2 ^ 120)

/-- ln 2 in units of 2^-256, rounded down. -/
def ln2 : Nat := 80260960185991308862233904206310070533990667611589946606122867505419956976171

/-- The Taylor sum of exp in units of 2^-256: n terms from the k-th, whose value is t. -/
def expGo (x : Nat) : Nat → Nat → Nat → Nat
  | 0, _, _ => 0
  | n + 1, k, t => t + expGo x n (k + 1) (t * x / 2 ^ 256 / (k + 1))

/-- 2^(f / 2^w), 0 < f < 2^w, in units of 2^-256 to within a hundred units. Every other binary32 argument of 2^a lies farther than
that from a rounding boundary. -/
def exp2Frac (f w : Nat) : Nat := expGo (f * ln2 / 2 ^ w) 64 0 (2 ^ 256)

/-- 2^a (R254). -/
def fpExp2 (md : Rounding) (a : Nat) : Nat :=
  match fpDec 24 a with
  | .nan => fpNan 24
  | .inf n => if n then fpZero 24 false else fpInf 24 false
  | .fin n m e =>
    if m = 0 then 0x3F800000
    else if 0 ≤ e ∨ 2 ^ 9 ≤ m / pow2 (-e) then
      let k := if 0 ≤ e then min (m * pow2 (min e 10)) 1000 else min (m / pow2 (-e)) 1000
      fpRound 24 md false (2 ^ 60) ((if n then -(k : Int) else k) - 60) (k == 1000)
    else
      let w := (-e).toNat
      let x : Int := if n then -(m : Int) else m
      let k := x / ((2 ^ w : Nat) : Int)
      let f := (x % ((2 ^ w : Nat) : Int)).toNat
      if f = 0 then fpRound 24 md false 1 k false
      else fpRound 24 md false (exp2Frac f w) (k - 256) true

/-- The series of atanh: n terms of z^(2j+1)/(2j+1) from exponent k, where t = z^k, in units of 2^-256. -/
def atanhGo (z2 : Nat) : Nat → Nat → Nat → Nat
  | 0, _, _ => 0
  | n + 1, k, t => t / k + atanhGo z2 n (k + 2) (t * z2 / 2 ^ 256)

/-- log2 (m / 2^23), 2^23 < m < 2^24, in units of 2^-250. -/
def log2Frac (m : Nat) : Nat :=
  let z := (m - 2 ^ 23) * 2 ^ 256 / (m + 2 ^ 23)
  2 * atanhGo (z * z / 2 ^ 256) 100 1 z * 2 ^ 250 / ln2

/-- log2 a (R254). -/
def fpLog2 (md : Rounding) (a : Nat) : Nat :=
  match fpDec 24 a with
  | .nan => fpNan 24
  | .inf n => if n then fpNan 24 else fpInf 24 false
  | .fin n m e =>
    if m = 0 then fpInf 24 true
    else if n then fpNan 24
    else
      let l := Nat.log2 m
      let k : Int := (l : Int) + e
      let m' := m * 2 ^ (23 - l)
      if m' = 2 ^ 23 then fpOfInt 24 md k 0 false
      else
        let x : Int := k * ((2 ^ 250 : Nat) : Int) + (log2Frac m' : Int)
        if 0 ≤ x then fpRound 24 md false x.natAbs (-250) true else fpRound 24 md true (x.natAbs - 1) (-250) true

/-- The floor of a finite value as an integer. -/
def floorOf (n : Bool) (m : Nat) (e : Int) : Int :=
  let x : Int := if n then -(m : Int) else m
  if 0 ≤ e then x * (pow2 e : Int) else x / (pow2 (-e) : Int)

/-- FFLOOR (R254): exact. -/
def fpFloor (a : Nat) : Nat :=
  match fpDec 24 a with
  | .nan => fpNan 24
  | .inf n => fpInf 24 n
  | .fin n m e => if m = 0 then fpZero 24 n else fpOfInt 24 .rne (floorOf n m e) 0 false

/-- FFRAC (R254): a - floor a, rounded; an integral a gives +0. -/
def fpFrac (md : Rounding) (a : Nat) : Nat :=
  match fpDec 24 a with
  | .nan => fpNan 24
  | .inf _ => fpNan 24
  | .fin n m e =>
    if 0 ≤ e then 0
    else
      let x : Int := if n then -(m : Int) else m
      fpOfInt 24 md (x % (pow2 (-e) : Int)) e false

/-- A finite value rounded to an integer under the mode (R44). -/
def roundInt (md : Rounding) (n : Bool) (m : Nat) (e : Int) : Int :=
  let mag : Nat :=
    if 0 ≤ e then m * pow2 e
    else
      let u := pow2 (-e)
      if rndUp md n (2 * (m % u)) u false (m / u % 2 == 1) then m / u + 1 else m / u
  if n then -(mag : Int) else mag

/-- Clamp an integer to lo..hi. -/
def clampInt (lo hi x : Int) : Int := if x < lo then lo else if hi < x then hi else x

/-- i32 or n32 from f32 (R44), given the bounds. -/
def fpToInt (md : Rounding) (lo hi : Int) (a : Nat) : Int :=
  match fpDec 24 a with
  | .nan => 0
  | .inf n => if n then lo else hi
  | .fin n m e => if 200 < e then (if m = 0 then 0 else if n then lo else hi) else clampInt lo hi (roundInt md n m e)

/-- f32 from an integer (R44). -/
def fpOfNum (md : Rounding) (x : Int) : Nat := fpOfInt 24 md x 0 false

/-- A binary32 value rounded to BF16, NaN to 0x7FC0. -/
def fpToBf (md : Rounding) (a : Nat) : Nat := fvRound 8 md (fpDec 24 a)
/-- A BF16 value widened to binary32, NaN to the default NaN (R44). -/
def fpOfBf (a : Nat) : Nat := if fpIsNan 8 (a % 65536) then fpNan 24 else a % 65536 * 65536

/-- The clamp of the MOD saturate bit (R255). -/
def fpSat (p : Nat) (a : Nat) : Nat :=
  if fpIsNan p a then 0 else if a / 2 ^ (p + 7) % 2 = 1 then 0 else if 127 * 2 ^ (p - 1) < a then 127 * 2 ^ (p - 1) else a

/-- Order of TOPK and MERGEK (R314): a key, higher first; all NaNs highest and equal, +0 above -0. -/
def topKey (a : Nat) : Int := if fpIsNan 24 a then 2 ^ 40 else fpKey 24 a

/-- The bits of x 2^g as FP32 or BF16, RNE (R58). -/
def fpOfDyadic (p : Nat) (x : Int) (g : Int) : Nat := fpOfInt p .rne x g false

/-- The integer nearest to x / 2^d, ties to even (R39 align, rne). -/
def rneShift (x : Int) (d : Nat) : Int :=
  let m := x.natAbs
  let u := 2 ^ d
  let r := if rndUp .rne false (2 * (m % u)) u false (m / u % 2 == 1) then m / u + 1 else m / u
  if x < 0 then -(r : Int) else r

/-- rne (x 2^g / 2^h) (R54, R61). -/
def rneGrid (x : Int) (g h : Int) : Int := if h ≤ g then x * (pow2 (g - h) : Int) else rneShift x (h - g).toNat

/-- sat(x, n) (R39): the value and the saturation bit. -/
def satInt (x : Int) (n : Nat) : Int × Bool :=
  if x.natAbs < 2 ^ (n - 1) then (x, false) else (if x < 0 then -((2 ^ (n - 1) - 1 : Nat) : Int) else ((2 ^ (n - 1) - 1 : Nat) : Int), true)

end Sys2Proof.Machine
end

