-- ==== Sys2Proof/Config.lean ====
section
/-! DEFINITION. What the manual leaves to an implementation: constants without a value, so that nothing can be proved about the
value itself. Their log entries are named with each. -/
namespace Sys2Proof

/-- The free values of a run: the first argument is State.free, which every step advances, the second says which value of that
step is asked for. Used for every choice the spec leaves open (entry 1). -/
opaque Config.free : Nat → Nat → Nat

/-- Free extra cycles of a step (stalls, R19, R195, R369: timing is out of the model; entry 4). -/
opaque Config.stall : Nat → Nat

/-- SHAKE256 with an output length in bytes (named by R1, R172, R359-R361; defined by FIPS 202, not by the spec; entry 6). -/
opaque Config.shake256 : List Byte → Nat → List Byte

/-- SLH-DSA verification: public key, message, signature (R172, R360; FIPS 205, not the spec; entry 6). -/
opaque Config.slhVerify : List Byte → List Byte → List Byte → Bool

/-- SLH-DSA signing with the package's attestation key: seed digest, message (R359, R361; entry 6). -/
opaque Config.attestSign : List Byte → List Byte → List Byte

/-- The 64-byte public key of the device identity key, which Limamon derives from a seed (R359; entry 6). -/
opaque Config.identityOf : List Byte → List Byte

/-- The identity key's signature, of a seed and a message (R359; entry 6). -/
opaque Config.identitySign : List Byte → List Byte → List Byte

/-- The 48-byte public key of the attestation key that a seed digest gives (R359; entry 6). -/
opaque Config.attestOf : List Byte → List Byte

/-- The physical function's queues that bring-up activates: number, BASE, LOG2SIZE (R371; entry 30). -/
opaque Config.pfQueues : List (Nat × BitVec 44 × BitVec 4)

/-- The 96-byte fused seed (R359; entry 6). -/
opaque Config.fuseSeed : List Byte

/-- The image of ROM Limamon that MR0 measures (R360, R371; entry 6). -/
opaque Config.romImage : List Byte

/-- Goltum's firmware key in ROM (R360; entry 6). -/
opaque Config.romKey : List Byte

/-- The version, embedded public key and signature of a firmware image (R360 gives no image layout; entry 6). -/
opaque Config.fwVersionOf : List Byte → Nat
opaque Config.fwBodyOf : List Byte → List Byte
opaque Config.fwSignatureOf : List Byte → List Byte

/-- The address Limamon gives the save area of a team (R139: Limamon pins it; no address is stated; entry 23). -/
opaque Config.saveAreaOf : Nat → BitVec 64

/-- Where Limamon keeps a partition's frame map (R174 FMAP; entry 24). -/
opaque Config.frameMapAddress : Nat → BitVec 64

/-- How die 1's copy of the time base stands to die 0's (R208: within 1; entry 4): one behind, equal or one ahead, by this modulo 3. -/
opaque Config.dieSkew : Nat

end Sys2Proof
end

