-- ==== Sys2Proof/Machine/State.lean ====
section
/-! DEFINITION. The state of the package: everything the manual names (INVENTORY.md, State), as plain data. -/
namespace Sys2Proof.Machine

/-- Why the machine stops. -/
inductive Fault where
  /-- Raised by DEBUG_PORT_ACCESS while the package is not frozen: the manual describes the debug port's accesses in the frozen
  state only (R362). Safe: the model stops. -/
  | debugPortNotFrozen
deriving DecidableEq, Repr

/-- Why an instruction has no meaning. -/
inductive Refusal where
  /-- Raised by exec's arm of an instruction that is not modelled yet. Safe: the model stops. -/
  | notModelled (mnemonic : String)
deriving DecidableEq, Repr

/-- A vector register lane: value and label index (R65). -/
structure LVal where
  val : Word := 0
  lbl : Lbl := 0
deriving DecidableEq, Repr

/-- A scalar register: value and label index (R66). -/
structure SVal where
  val : Dword := 0
  lbl : Lbl := 0
deriving DecidableEq, Repr

/-- A scratchpad word: value, label index, ARMED tag (R91). -/
structure ScrWord where
  val : Word := 0
  lbl : Lbl := 0
  armed : Bool := false
deriving DecidableEq, Repr

/-- An accumulator tile (R55, R71): entries and saturation bits by 16 r + c, the SAT flag, Xmax (none while EMPTY), row labels by r. SAT is
set with any bit of the map; ALD loads both from its image (R304). -/
structure Tile where
  ent : SMap Int := []
  sat : SMap Bool := []
  flag : Bool := false
  xmax : Option Int := none
  lbl : SMap Lbl := []
deriving DecidableEq, Repr

/-- Condition codes (R67). -/
structure CC where
  z : Bool := false
  n : Bool := false
  c : Bool := false
  v : Bool := false
deriving DecidableEq, Repr

/-- A place a fixed-latency or token-tracked result goes to. -/
inductive Loc where
  | v (reg lane : Nat)
  | s (reg : Nat)
  | k (reg : Nat)
  | cc
  | spec (num : Nat)
deriving DecidableEq, Repr

/-- An older value that a read may still return (R22, R23, R32): until position `upto`, or, when `op` is not 0, until token `upto`
of operation op has been waited. -/
structure Haz where
  loc : Loc
  old : Nat
  lbl : Lbl
  upto : Nat
  op : Nat
deriving DecidableEq, Repr

/-- A latch b1-b3 (R26): the run and the position from which its producer's result may be read, and its lanes. -/
structure Latch where
  run : Nat := 0
  ready : Nat := 0
  lanes : SMap LVal := []
deriving DecidableEq, Repr

/-- A tensor handle (R73): eight 64-bit words and a label. -/
structure Handle where
  words : SMap Dword := []
  lbl : OSet := 0
deriving DecidableEq, Repr

/-- Special registers of a team (R77-R81) and the HANDLING bit (R222). -/
structure Special where
  tcause : Byte := 0
  tpc : Dword := 0
  tinfo0 : Dword := 0
  tinfo1 : Dword := 0
  tstat : BitVec 19 := 0
  dbgctl : Byte := 0
  watcha : BitVec 22 := 0
  watchb : BitVec 22 := 0
  handling : Bool := false
deriving DecidableEq, Repr

/-- The registers of a team: vector lanes by 1024 reg + lane, scalars, codes, masks, label table entries 1-15 (entry 0 is the empty
set; an unlisted entry is empty), tiles by 64 half + tile, scratchpad words by 2^20 half + word, handles, and the results
pushed into the latches, the last first: b1, b2, b3, then those that a read outside a run may still return (R28). -/
structure Regs where
  v : SMap LVal := []
  s : SMap SVal := []
  cc : CC := {}
  k : SMap Mask := []
  labels : SMap OSet := []
  tiles : SMap Tile := []
  scr : SMap ScrWord := []
  hnd : SMap Handle := []
  latches : List Latch := []
deriving DecidableEq, Repr

/-- Where one lane's access goes once translated: a physical byte address with the frame-table entry that describes its page,
a scratchpad byte, or a byte of a register lane (R85, R91, R83). -/
inductive Target where
  | mem (pa ent : Nat) (cached : Bool)
  | scr (half off : Nat)
  | reg (reg lane byte : Nat)
deriving DecidableEq, Repr

/-- Who writes: a store or atomic, or an engine's command, of a team, with the operation, its token and the cores whose L1 it updates; Limamon; a
host; a fabric peer (R140). -/
inductive Writer where
  | team (key op : Nat) (cores : List Nat)
  | engine (key q op : Nat) (cores : List Nat)
  | limamon
  | host
  | peer
deriving DecidableEq, Repr

/-- What bounds a team's reads from below (R142): the write numbers of its latest acquires at core, package and system scope, those of a wider one
included, and of each token the newest operation that it has waited. -/
structure Bound where
  core : Nat := 0
  pkg : Nat := 0
  sys : Nat := 0
  waited : SMap Nat := []
deriving DecidableEq, Repr

/-- One lane's access: address, where it goes, bytes, the data of a write, the labels of data and address, a lane's further operand
(the element index of a described block, the new value of CAS), and whether it has been performed; of an atomic performed `aux` and
`lbl` then hold its result. `note`: 1 a higher lane of the store writes the same bytes, 2 no label table entry was found for `lbl`, 3 an
uncorrectable unit was met, 4 not performed. `seen`: what an atomic on host memory may have read before a racing host
write, with the number of the write it read (R97). A scalar access has lane 2048. -/
structure Acc where
  lane : Nat
  va : Dword
  tgt : Target
  len : Nat
  data : Nat := 0
  lbl : OSet := 0
  albl : OSet := 0
  aux : Nat := 0
  fin : Bool := false
  note : Nat := 0
  seen : Option (Nat × Nat) := none
deriving DecidableEq, Repr

/-- How a load's bytes become register values (R271, R274, R117). -/
inductive LoadDst where
  | regs (v n : Nat)
  | ext (v : Nat) (signed : Bool)
  | scal (sd : Nat)
  | elem (v : Nat) (test : Bool)
  | test (v : Nat) (vt : Nat)
deriving DecidableEq, Repr

/-- An atomic's arithmetic (R276), or that of SPADD through a dense handle by VTYPE (R114). -/
inductive AtomKind where
  | op (o : AtomOp) (dbl : Bool)
  | spadd (vtype : Nat)
deriving DecidableEq, Repr

/-- An Arbor's operations (R114, R119, R121). -/
inductive ArborOp where
  | read | test | store | add | iter | extend
deriving DecidableEq, Repr

/-- One lane of an Arbor operation: key and shard, data, labels; for SPITER the cursor and the best key found so far with the shards
still to be read; what became of it. -/
structure ArborLane where
  lane : Nat
  key : Nat
  shard : Nat
  data : Word := 0
  lbl : OSet := 0
  start : Bool := false
  atEnd : Bool := false
  todo : List Nat := []
  best : Option (Nat × Word) := none
  res : Word := 0
  rlbl : OSet := 0
  done : Bool := false
  refused : Bool := false
  bad : Bool := false
deriving DecidableEq, Repr

/-- A Kudu command's kinds (R282-R284). -/
inductive KuduKind where
  | copy | gath | scat
deriving DecidableEq, Repr

/-- The command descriptor of R281. -/
structure KuduDesc where
  src : Dword
  dst : Dword
  bar : Dword
  len : Nat
  srch : Bool
  rowarr : Bool
  cnt : List Nat
  ss : List Int
  ds : List Int
  org : List Nat
  lbl : OSet
deriving DecidableEq, Repr

/-- A Kudu command (R281-R287): descriptor as last read and whether it is to be read (again), gathered rows (lane, index, label),
committed and speculative positions, rows performed at or beyond the committed one, the fault that stops it with its reason, whether it
may resume, is suspended, is stopping (KSTOP); the rows that ended in error, after which it issues no more; whether the Lodge has tested
it and under which entries; a set that found no label table entry; the leaves of a sparse source read so far, each with its shard and the
range of keys it answers for (R122); whether a ceiling has refused it, after which it writes nothing more (R102). -/
structure Kudu where
  kind : KuduKind
  desc : Dword
  tgt : Target
  h : Nat
  hw : Handle
  lbl : OSet
  rows : List (Nat × Int × OSet) := []
  rd : Option KuduDesc := none
  stale : Bool := true
  committed : Nat := 0
  spec : Nat := 0
  perf : List Nat := []
  fault : Option (Dword × Nat) := none
  resumable : Bool := false
  suspended : Bool := false
  stopping : Bool := false
  dead : List Nat := []
  tested : Bool := false
  under : List Nat := []
  full : Option OSet := none
  leaves : List (Nat × Nat × Nat × List (Nat × Nat)) := []
  cut : Bool := false
deriving DecidableEq, Repr

/-- A window transfer in flight (R288). -/
structure Wwr where
  win : Dword
  len : Nat
  src : List Acc
  lbl : OSet
  pins : List Nat := []
deriving DecidableEq, Repr

/-- Accumulator operations (R300). -/
inductive AccOp where
  | clr
  | cvt (vd : Nat) (bf : Bool)
  | blk (vd : Nat) (f : Fmt)
  | st (accs : List Acc)
  | ld (accs : List Acc)
  | exp (sd : Nat)
deriving DecidableEq, Repr

/-- A candidate list of a session row: label and (feature, value) pairs, ascending by feature (R177, R194). -/
structure SessRow where
  lbl : OSet := 0
  list : SMap Word := []
deriving DecidableEq, Repr

/-- The B fields of a tap descriptor (R163). -/
structure TapDesc where
  addr : Dword := 0
  theta : Dword := 0
  ftens : Dword := 0
  rules : Dword := 0
  rowmap : Dword := 0
  hold : Dword := 0
  nf : Nat := 0
  kk : Nat := 0
  tapid : Nat := 0
deriving DecidableEq, Repr

/-- A Belvedere session (R177, R178, R194). -/
structure Session where
  id : Nat := 0
  desc : TapDesc := {}
  hrow : Dword := 0
  sc : Dword := 0
  rows : SMap SessRow := []
  isOpen : Bool := true
deriving DecidableEq, Repr

/-- What a token-tracked operation does, with what it still has to do. -/
inductive OpKind where
  | load (dst : LoadDst) (pol : CachePol) (accs : List Acc)
  | store (accs : List Acc)
  | code (accs : List Acc)
  | atomic (k : AtomKind) (dst : LoadDst) (acq : Option Scope) (accs : List Acc)
  | arbor (o : ArborOp) (h : Nat) (hw : Handle) (v sd : Nat) (lanes : List ArborLane)
  | kudu (c : Kudu)
  | kpos (sd : Nat) (desc : Dword)
  | kstop (desc : Dword) (streams : List Nat)
  | wwr (w : Wwr)
  | wsig (win : Dword) (n : Word) (lbl : OSet)
  | wcnt (sd : Nat) (win : Dword) (rcv : Bool)
  | mma (var : Nat) (tile va vb half w : Nat) (rows : BitVec 32) (hz : List Haz)
  | acc (o : AccOp) (tile half w : Nat) (rows : BitVec 32)
  | ami (pa ent : Nat) (va : Dword) (e : Int) (lbl : OSet) (half : Nat)
  | amrg (pa ent : Nat) (va : Dword) (tile half : Nat) (lbl : OSet)
  | tapb
  | fsel (sid tile : Nat) (f : Nat) (rows : BitVec 32) (lbl : OSet)
  | tapr (sid kd : Nat) (rows : BitVec 32) (sd : Dword) (evid : Dword) (lbl : OSet)
  | tape (d : TapDesc) (sa : Dword) (row : Nat) (evid : Dword) (lbl : OSet)
  | mergek (sb : Dword) (lbl : OSet) (table out : List Acc)
  | callg (v : Nat) (serv : BitVec 16) (mask : Mask) (posted : Bool) (done : Dword)
  | instant
deriving DecidableEq, Repr

/-- An operation of a team not yet retired (R29, R30): number, token (none for a held instruction that posts to none), address of
its instruction and of its group's first word, pinned frames, lanes of its destinations written since (R32), when it
was accepted, which orders a core's queues (R160), and what bounds its reads (R142). -/
structure Op where
  id : Nat
  q : Option Nat
  pc : Dword
  first : Dword
  kind : OpKind
  done : Bool := false
  err : Bool := false
  clob : List Loc := []
  dirty : Bool := false
  pins : List Nat := []
  seq : Nat := 0
  bound : Bound := {}
deriving DecidableEq, Repr

/-- A synchronous trap that is draining (R219, R222). -/
structure TrapInfo where
  cause : Byte
  tpc : Dword
  k14 : Mask
  ti0 : Dword
  ti1 : Dword
deriving DecidableEq, Repr

/-- A translation or walk-limit fault that went to Limamon (R128, R133): the trap it becomes if it is not resolved. -/
structure TFault where
  va : Dword
  trap : TrapInfo
deriving DecidableEq, Repr

/-- An armed monitor (R147): its location, where that lies while it has a translation, its size and the expected value. -/
structure Monitor where
  va : Dword
  tgt : Option Target
  dbl : Bool
  want : Dword
deriving DecidableEq, Repr

/-- Invalidation in progress (R136, R321). -/
structure InvlReq where
  kind : InvlKind
  asid : Nat
  vpn : Nat
deriving DecidableEq, Repr

/-- What a resident team waits for (R156); `ready` waits for nothing. A delay of n positions began at time `since`. -/
inductive Wait where
  | ready
  | token (q t : Nat)
  | tokens (b : BitVec 16)
  | yield (q t : Nat) (target : Dword)
  | dly (since n : Nat)
  | phase (sc : Scope)
  | monitor (m : Monitor)
  | barrier (half off : Nat)
  | window (win : Dword) (rcv : Bool) (t : Word)
  | invl (r : InvlReq)
  | icinv (line : Option Nat)
  | exit (status : Nat) (trap : Option TrapInfo)
  | trap (t : TrapInfo)
  | tfault (f : TFault)
  | call (op : Nat)
  | held (op : Nat)
  | pair
deriving DecidableEq, Repr

/-- A save requested of a team (R227): one that awaits its LIVE point, one whose LIVE point has been reached and that drains there, a full one. -/
inductive SaveWant where
  | live | atPoint | full
deriving DecidableEq, Repr

/-- What a kernel declares (R8, R353). -/
structure Decl where
  entry : Dword := 0
  handler : Dword := 0
  lanes : Nat := 8
  group : Nat := 8
  acc : Nat := 0
  vregs : Nat := 1
  scratch : Nat := 0
deriving DecidableEq, Repr

/-- Where one half of a team lies on its core (R2, R9, R154): the first granule of its register run and of its scratchpad run, its first
accumulator tile. -/
structure Runs where
  reg : Nat := 160
  scr : Nat := 160
  acc : Nat := 0
deriving DecidableEq, Repr

/-- A resident team. `key` is the model's number of the team; `runs` its halves' places, `pins` the pinned frames of its save area;
`saveAt` the time its save was requested (R227); `bound` what bounds its reads (R142); `entries` its places in the
active sets of its cores, `lastReady` when it was last ready, `stuck` the structural stall that holds its position, and `retry` whether
something has happened since it was met (R19, R157, R158); `ipc` the
address of the position it issued last (R218); `reopen` the session that a
restore has still to reopen (R194); `slide` the cores whose compaction has still to move it (R155); `why` the reason the
first cycle of the last step was counted under (R211). -/
structure Team where
  key : Nat := 0
  live : Bool := false
  part : Nat := 0
  teamId : Word := 0
  launch : Nat := 0
  launchId : Word := 0
  index : Nat := 0
  core : Nat := 0
  slot : Nat := 0
  decl : Decl := {}
  regs : Regs := {}
  sp : Special := {}
  pc : Dword := 0
  pos : Nat := 0
  hgrp : Dword := 0
  hints : List Instr := []
  runId : Nat := 0
  runOpen : Bool := false
  runEnd : Nat := 0
  haz : List Haz := []
  ops : List Op := []
  nextOp : Nat := 1
  bound : Bound := {}
  restart : Dword := 0
  restartOp : Nat := 1
  wait : Wait := .ready
  met : Bool := false
  sessions : List Session := []
  reopen : Option Session := none
  active : Bool := false
  entries : List Nat := []
  lastIssue : Nat := 0
  lastReady : Nat := 0
  stuck : Option Nat := none
  retry : Bool := false
  ipc : Dword := 0
  prio : Nat := 0
  start : BitVec 48 := 0
  stall : SMap (BitVec 48) := []
  issued : BitVec 48 := 0
  resident : BitVec 48 := 0
  gp : Option (SMap Dword × SMap OSet) := none
  saveArea : Dword := 0
  runs : List Runs := []
  pins : List Nat := []
  save : Option SaveWant := none
  saveAt : Nat := 0
  halted : Bool := false
  slide : List Nat := []
  why : Nat := 3
  badV : List Nat := []
  badS : List Nat := []
  badT : List Nat := []
deriving DecidableEq, Repr

/-- A launch (R153, R154, R175, R213). -/
structure Launch where
  key : Nat := 0
  part : Nat := 0
  launchId : Word := 0
  prio : Nat := 0
  decl : Decl := {}
  arg : Dword := 0
  count : Nat := 0
  exits : Dword := 0
  made : Nat := 0
  left : Nat := 0
  cmd : Option Nat := none
  graph : Option Nat := none
deriving DecidableEq, Repr

/-- A saved team that is to be restored (R159, R206): its partition, priority and launch, its save area with the pinned frames, its declarations,
its number in the model, its TEAMID, whether a debug command has halted it (R364), the policy entries its saved streams were admitted under
(R172). -/
structure Swapped where
  part : Nat
  prio : Nat
  launch : Nat
  area : Dword
  pins : List Nat
  decl : Decl
  key : Nat
  teamId : Word := 0
  halted : Bool := false
  under : List Nat := []
deriving DecidableEq, Repr

/-- An entry of the launch list (R154): the next team of a launch, or a saved team. -/
inductive ListItem where
  | launch (key : Nat)
  | restore (x : Swapped)
deriving DecidableEq, Repr

/-- A TLB entry: the combined translation of both stages (R129, R135), with the permissions of each. `ent` and `ext` are the frame-table
entry and the frame-map extent it came from. -/
structure TlbEnt where
  part : Nat
  asid : Nat
  vpn : Nat
  pf : Nat
  cls : BitVec 2
  mi : Bool
  perm : BitVec 4
  sperm : BitVec 4
  ceil : OSet
  ent : Nat
  ext : Nat
deriving DecidableEq, Repr

/-- What a sampler has found in the cycle of a tick, by its time and number (R217): the team chosen on the tick's slot, by TEAMID with the address it
issued from; and the teams that did not issue, by TEAMID with address, slot and reason. -/
structure Found where
  time : Nat := 0
  num : Nat := 0
  issued : Option (Nat × Nat) := none
  blocked : List (Nat × Nat × Nat × Nat) := []
deriving DecidableEq, Repr

/-- A core's sampler (R216, R217). `found`: the ticks whose records are still to be written, the oldest first; `next` numbers the tick after them. -/
structure Sampler where
  on : Bool := false
  b : Nat := 0
  l : BitVec 16 := 0
  ring : Dword := 0
  next : Nat := 0
  tick : Nat := 0
  drop : Word := 0
  last : Word := 0
  found : List Found := []
deriving DecidableEq, Repr

/-- A core: TLB (R129); the lines of each set of its L1, the last used first (R92, R93), those of its instruction cache with the write number each
was filled at (R232), and of single bytes the write number that its loads have seen (R142); the matrix engine's self-test state (R80, R367: quarters
fenced, slow, disabled, the sequence numbers of each quarter's last passing test and of the last failure with its quarter, the quarters for which
operations completed since that pass), sampler, error counters (R368), the entry of the active set last chosen on each slot (R157). -/
structure Core where
  tlb : List TlbEnt := []
  l1 : SMap (List Nat) := []
  ic : SMap Nat := []
  seen : SMap Nat := []
  fence : BitVec 4 := 0
  slow : Bool := false
  off : Bool := false
  lastPass : SMap Dword := []
  lastFail : Dword := 0
  failQ : Nat := 0
  ran : BitVec 4 := 0
  sampler : Sampler := {}
  corrected : Word := 0
  uncorr : Word := 0
  lastEntry : SMap Nat := []
deriving DecidableEq, Repr

/-- A frame-table entry (R126). -/
structure Frame where
  link : BitVec 32 := 0xFFFFFFFF
  pin : BitVec 16 := 0
  ceil : OSet := 0
  cur : OSet := 0
  asid : BitVec 16 := 0
  part : BitVec 5 := 0
  mig : BitVec 3 := 0
  v : Bool := false
  mi : Bool := false
  cls : BitVec 2 := 0
  perm : BitVec 4 := 0
  vpn : BitVec 41 := 0
  fw : Dword := 0
deriving DecidableEq, Repr

/-- A frame-map extent (R135). -/
structure Extent where
  perm : BitVec 4 := 0
  count : BitVec 24 := 0
  hbase : BitVec 25 := 0
  gbase : BitVec 24 := 0
deriving DecidableEq, Repr

/-- A partition table entry (R174). -/
structure Part where
  state : Byte := 0
  hcause : Byte := 0
  qbase : Word := 0
  qcount : Word := 0
  pairs : BitVec 128 := 0
  fmap : Dword := 0
  wq : Dword := 0
  fq : Dword := 0
  cq : Dword := 0
  cwait : Word := 32768
  pwin : Word := 65536
  plim : Word := 131072
  origins : OSet := 0
  lctr : Dword := 0
  mbox : Dword := 0
deriving DecidableEq, Repr

/-- An origin table entry (R170): public key and the 64 bytes of destination descriptors. -/
structure Origin where
  key : List Byte := []
  dest : List Byte := []
  reg : Bool := false
deriving DecidableEq, Repr

/-- A Lodge policy entry (R172); `clearing` while its clear waits for admitted transfers. -/
structure Policy where
  set : OSet := 0
  part : Nat := 0
  valid : Bool := false
  ctr : Dword := 0
  dest : List Byte := []
  clearing : Bool := false
deriving DecidableEq, Repr

/-- A host work queue's record (R150), its NOTIFY vector and privilege (R354). -/
structure Queue where
  head : Word := 0
  tail : Word := 0
  state : BitVec 4 := 0
  log2 : BitVec 4 := 0
  prio : BitVec 3 := 0
  part : BitVec 5 := 0
  base : BitVec 44 := 0
  vec : Nat := 0
  priv : Bool := false
deriving DecidableEq, Repr

/-- A peer binding (R354). -/
structure Peer where
  part : Nat := 0
  digest : Dword := 0
  rpart : Nat := 0
  bound : Bool := false
deriving DecidableEq, Repr

/-- A registered window (R354): its partition, pinned frames, and the counters of each peer (R215). -/
structure Window where
  part : Nat := 0
  base : Dword := 0
  len : Nat := 0
  reg : Bool := false
  snd : SMap Word := []
  rcv : SMap Word := []
  pins : List Nat := []
deriving DecidableEq, Repr

/-- A transfer sent and not yet performed at the receiver (R146), with what a record of its loss names (R358) and its acceptance number. -/
structure OutMsg where
  team : Nat
  op : Nat
  win : Dword
  under : List Nat
  part : Nat := 0
  launchId : Word := 0
  teamId : Word := 0
  core : Nat := 0
  seq : Nat := 0
deriving DecidableEq, Repr

/-- A graph node (R197, R354): its kind, RETRY, and bytes 16-63, a KERNEL node's LAUNCH operands. -/
structure Node where
  kernel : Bool := true
  retry : Bool := false
  ops : List Byte := []
deriving DecidableEq, Repr

/-- A staged graph parameter (R74, R199). -/
structure Staged where
  n : Nat
  val : Dword
  org : OSet
  seq : Dword
deriving DecidableEq, Repr

/-- A graph (R197, R198): nodes, parameters, staged values, and the node of a running replay. -/
structure Graph where
  made : Bool := false
  nodes : List Node := []
  gp : SMap Dword := []
  org : SMap OSet := []
  staged : List Staged := []
  running : Option Nat := none
  busy : Bool := false
  cmd : Option Nat := none
deriving DecidableEq, Repr

/-- A live dump (R365): of every team or of one; the teams still to be copied, those that the dump halted itself, those it has taken up, those that
handled no trap then and those that have been found halted; the streams it has suspended, each as (team, operation); output and its length. -/
structure Dump where
  every : Bool
  keys : List Nat
  fresh : List Nat
  seen : List Nat := []
  calm : List Nat := []
  caught : List Nat := []
  parked : List (Nat × Nat) := []
  out : Dword
  len : Nat
deriving DecidableEq, Repr

/-- What an accepted host command waits for. -/
inductive CmdWait where
  | launch (key : Nat)
  | replay (g : Nat)
  | graph (g : Nat) (bytes : List Byte)
  | waitv (va want : Dword) (ge : Bool)
  | invl (r : InvlReq)
  | fmap (ext : Nat) (old : Extent)
  | peer (n : Nat)
  | clear (n : Nat)
  | reset (p : Nat)
  | restore (area : Dword)
  | dump (x : Dump)
deriving DecidableEq, Repr

/-- A host command in flight (R152, R153). -/
structure Cmd where
  id : Nat
  q : Nat
  part : Nat
  tag : Word
  comp : Dword
  notify : Bool
  wait : CmdWait
  met : Bool := false
deriving DecidableEq, Repr

/-- What Limamon knows of a saved team (R206), found by the SEQ of its save: the public keys registered in its partition, by number, the
pages its save area names with their classes (none: a page that had no translation), and what the image has no field for: its partition, launch
and declarations, whether its replay's parameters are its own (R205), the labels of the handles, START, the number of its next operation, and its
suspended streams as operations (entry 31). -/
structure SaveNote where
  seq : Dword
  keys : List (Nat × List Byte)
  pages : List (Nat × Option Nat)
  part : Nat := 0
  launch : Nat := 0
  decl : Decl := {}
  gp : Bool := false
  handles : List OSet := []
  start : BitVec 48 := 0
  streams : List Op := []
  nextOp : Nat := 1
deriving DecidableEq, Repr

/-- The issue cycle that narrow teams may still join (R18): the slot, the pipeline class, the lanes issued so far, the teams that could have been chosen
in it and have not issued, in the order of choice (R157); its time, the events of its units so far, and the place of the next team (R78). -/
structure Joint where
  core : Nat
  slot : Nat
  cls : Nat
  lanes : Nat
  keys : List Nat
  time : BitVec 48 := 0
  evn : SMap Nat := []
  place : Nat := 1
deriving DecidableEq, Repr

/-- What the teams and engines act on. `cyc`, `stallR`, `stepK`, `causes` and `stepRun` are the step's own: passes taken, a structural stall, the
execution mask at its position, the structural reasons its word may stall for (R19), whether it stands inside a run. `joint`: the issue cycle just
over. `phase`: by how far a die's core clock is ahead of the time base, in 1/1600 of its cycles (R208). `waitSince`: which entry of the launch list
waits for compaction at the head of a partition's, and since when (R155). `ports`: the fabric ports taken down (R358). `wn` numbers the writes to
memory; `hist` holds of a byte what it was before each write to it, with the write's number and agent, the newest first (R141); `limAcq` and
`limSys` are Limamon's latest acquires at package and system scope (R142); `slots` the overflow slots that records have been put into, by partition and
address (R167). -/
structure Dev where
  time : BitVec 48 := 0
  evn : SMap Nat := []
  cyc : Nat := 0
  stallR : Option Nat := none
  stepK : Mask := 0
  causes : List Nat := []
  stepRun : Bool := false
  phase : SMap Nat := []
  joint : Option Joint := none
  free : Nat := 0
  frozen : Bool := false
  mem : List Host.Cell := []
  wn : Nat := 0
  hist : SMap (List (Nat × Writer × Byte)) := []
  limAcq : Nat := 0
  limSys : Nat := 0
  slots : List (Nat × Nat) := []
  badU : List Nat := []
  badCorr : List Nat := []
  hbmU : List Nat := []
  frames : SMap Frame := []
  cores : SMap Core := []
  cur : Team := {}
  rest : List Team := []
  nextKey : Nat := 1
  launches : SMap Launch := []
  list : List ListItem := []
  waitSince : SMap (Nat × Nat) := []
  saves : List SaveNote := []
  graphs : SMap Graph := []
  windows : SMap Window := []
  outs : List OutMsg := []
  ports : List Nat := []
  cmds : List Cmd := []
  msix : List (Nat × Nat) := []
  hostData : List Byte := []
  aborted : Bool := false
  sliceErr : SMap (Word × Word) := []
  stackErr : SMap (Word × Word) := []
deriving DecidableEq, Repr

/-- Firmware and host tables: nothing here is changed by an instruction word. `attestKey` and `attestCert`: the attestation public key of
this package reset and its signature by the identity key (R359). `bars`: the functions' BARs are enabled (R371); `apertures`: the
functions' aperture bases (R351), by 25 link + function, where 24 is a link's physical function. `lastQ`: the queue last served of each priority (R153). -/
structure Fw where
  parts : SMap Part := []
  origins : SMap Origin := []
  policy : SMap Policy := []
  fmaps : SMap Extent := []
  anchors : SMap (BitVec 32) := []
  queues : SMap Queue := []
  peers : SMap Peer := []
  mr : SMap (List Byte) := []
  bars : Bool := false
  apertures : SMap Dword := []
  resets : Nat := 0
  attestKey : List Byte := []
  attestCert : List Byte := []
  fuse : Nat := 0
  fwVersion : Nat := 0
  rate : SMap Nat := []
  below : SMap (BitVec 48) := []
  nextCmd : Nat := 1
  lastQ : SMap Nat := []
  nextLaunch : SMap Nat := []
  nextTeam : SMap Nat := []
deriving DecidableEq, Repr

/-- One entry of the schedule: which agent moves next. -/
inductive Act where
  /-- the team issues its next position -/
  | issue (team : Nat)
  /-- a narrow team joins the cycle just issued (R18) -/
  | join (team : Nat)
  /-- an operation or event without a word -/
  | event (i : Instr) (a : EventArgs)
  /-- Limamon takes the next entry of a host work queue -/
  | host (q : Nat)
deriving DecidableEq, Repr

/-- The machine. `sched` and `args` are the model's own (entry 2). -/
structure State where
  fw : Fw := {}
  dev : Dev := {}
  sched : List Act := []
  args : EventArgs := {}
deriving DecidableEq, Repr

/-- The machine right after reset (R371 before its first step): every register at the value the manual states or the log names
(INVENTORY.md, entries 3, 5, 24), memory with nothing listed. -/
def State.reset : State := {}

end Sys2Proof.Machine
end

