-- ==== Sys2Proof/Machine/Block.lean ====
section
/-! DEFINITION. Described blocks (R45-R50, R59, R60) and the arithmetic of accumulator tiles on them (R51-R56). A block is the list of
its 64 bytes. -/
namespace Sys2Proof.Machine

/-- Whether a format code is assigned (R47). -/
def blkKnown (f : Nat) : Bool := decide (f ≤ 4)
/-- The 4-bit class. -/
def blkNarrow (f : Nat) : Bool := f == 1 || f == 2
/-- Elements of a format, 0 for a zero block. -/
def blkCount (f : Nat) : Nat := if f == 1 || f == 2 then 96 else if f == 3 || f == 4 then 48 else 0
/-- The unit exponent u. -/
def blkUnit (f : Nat) : Int := if f = 1 then -1 else if f = 3 then -5 else 0
/-- The largest code integer C. -/
def blkMax (f : Nat) : Nat := if f = 1 then 12 else if f = 2 then 7 else if f = 3 then 252 else 127

/-- Byte n of a block. -/
def blkByte (b : List Nat) (n : Nat) : Nat := nthD 0 b n
/-- The code of element i (R46). -/
def blkCode (b : List Nat) (f i : Nat) : Nat :=
  if blkNarrow f then (if i % 2 = 0 then blkByte b (2 + i / 2) % 16 else blkByte b (2 + i / 2) / 16) else blkByte b (2 + i)
/-- Side entry j. -/
def blkSide (b : List Nat) (j : Nat) : Nat := blkByte b (50 + 2 * j) + 256 * blkByte b (51 + 2 * j)
/-- The escape code of a format. -/
def blkEsc (f : Nat) : Nat := if blkNarrow f then 8 else 128

/-- The magnitude of an unsigned code (R48). -/
def codeMag (f c : Nat) : Nat :=
  if f = 1 then (if c / 2 = 0 then c % 2 else (2 + c % 2) * 2 ^ (c / 2 - 1))
  else if f = 3 then (if c / 32 = 0 then c % 32 else (32 + c % 32) * 2 ^ (c / 32 - 1))
  else c

/-- The integer of a code that is no escape (R48). -/
def codeInt (f c : Nat) : Int :=
  if f = 1 then (if c < 8 then (codeMag 1 c : Int) else -(codeMag 1 (c - 8) : Int))
  else if f = 2 then (if c < 8 then (c : Int) else (c : Int) - 16)
  else if f = 3 then (if c < 128 then (codeMag 3 c : Int) else -(codeMag 3 (c - 128) : Int))
  else (if c < 128 then (c : Int) else (c : Int) - 256)

/-- One element: its integer, or its side entry when escaped. -/
inductive Elem where
  | num (n : Int)
  | esc (bf : Nat)
deriving DecidableEq, Repr

/-- Elements from i on, n of them; k escapes came before (R49). -/
def blkElemsGo (b : List Nat) (f : Nat) : Nat → Nat → Nat → List Elem
  | 0, _, _ => []
  | n + 1, i, k =>
    let c := blkCode b f i
    if c = blkEsc f then .esc (blkSide b k) :: blkElemsGo b f n (i + 1) (k + 1)
    else .num (codeInt f c) :: blkElemsGo b f n (i + 1) k

/-- The elements of a block; none for a zero block. -/
def blkElems (b : List Nat) : List Elem := blkElemsGo b (blkByte b 0) (blkCount (blkByte b 0)) 0 0

/-- Escapes of a block. -/
def blkEscs (b : List Nat) : Nat := ((upFrom 0 (blkCount (blkByte b 0))).filter fun i => blkCode b (blkByte b 0) i = blkEsc (blkByte b 0)).length

/-- The lowest format reason of a block (R50, R219), 0 when it passes. -/
def blkCheck (b : List Nat) : Nat :=
  let f := blkByte b 0
  if f = 0 then 0
  else if !blkKnown f then 1
  else if blkByte b 1 = 255 then 2
  else
    let n := blkEscs b
    if 7 < n then 3
    else
      let used := upFrom 0 n
      if used.any fun j => blkSide b j % 32768 = 0 then 4
      else if (upFrom n (7 - n)).any fun j => blkSide b j ≠ 0 then 5
      else if used.any fun j => blkSide b j / 128 % 256 = 255 then 6
      else 0

/-- The exponent s - 127 + u of a block's unit. -/
def blkExp (b : List Nat) : Int := (blkByte b 1 : Int) - 127 + blkUnit (blkByte b 0)

/-- An element's BF16 value (R60). -/
def elemBf (b : List Nat) : Elem → Nat
  | .num n => fpOfInt 8 .rne n (blkExp b) false
  | .esc w => w
/-- An element's FP32 value (R117). -/
def elemF32 (b : List Nat) : Elem → Nat
  | .num n => fpOfInt 24 .rne n (blkExp b) false
  | .esc w => w * 65536

/-- A finite BF16 pattern as an integer on the grid 2^-133. -/
def bfGrid (w : Nat) : Int :=
  match fpDec 8 w with
  | .fin n m e => onGrid n m e (-133)
  | _ => 0

/-- An element's true value on the grid 2^-200. -/
def elemTrue (b : List Nat) : Elem → Int
  | .num n => n * (pow2 (blkExp b + 200) : Int)
  | .esc w => bfGrid w * (2 ^ 67 : Nat)

/-- The integer an element contributes to P: 0 for an escape (R49). -/
def elemInt : Elem → Int
  | .num n => n
  | .esc _ => 0

/-- The Chinese remainder reconstruction (R39). -/
def crt (r1 r2 r3 : Nat) : Int :=
  let x := (8421376 * r1 + 16711425 * r2 + 8421120 * r3) % 16776960
  if x ≤ 8388479 then (x : Int) else (x : Int) - 16776960

/-- The residue of an integer in a channel. -/
def residue (x : Int) (m : Nat) : Nat := (x % (m : Int)).toNat

/-- A running sum kept in one residue channel (R51). -/
def channel (m : Nat) (l : List (Elem × Elem)) : Nat :=
  l.foldl (fun acc p => (acc + residue (elemInt p.1) m * residue (elemInt p.2) m) % m) 0

/-- Whether either element is escaped. -/
def isOutlier : Elem × Elem → Bool
  | (.num _, .num _) => false
  | _ => true

/-- V of two non-zero blocks on the grid 2^-400 (R51-R54). -/
def blkDot (a b : List Nat) : Int :=
  let l := (blkElems a).zip (blkElems b)
  let p := crt (channel 255 l) (channel 256 l) (channel 257 l)
  let o := (l.filter isOutlier).foldl (fun acc x => acc + elemTrue a x.1 * elemTrue b x.2) 0
  p * (pow2 (blkExp a + blkExp b + 400) : Int) + o

/-- The n-th largest magnitude, duplicates counted (R59). -/
def nthLargest (l : List Int) (n : Nat) : Nat := nthD 0 (sortBy (fun a b => decide (b ≤ a)) (l.map Int.natAbs)) n

/-- The smallest scale from s on, n more to try, whose largest code reaches m 2^g (R59). -/
def scaleFrom (f m : Nat) (g : Int) : Nat → Nat → Nat
  | 0, s => s
  | n + 1, s =>
    let h := (s : Int) - 127 + blkUnit f
    if m * pow2 (g - h) ≤ blkMax f * pow2 (h - g) then s else scaleFrom f m g n (s + 1)

/-- The unsigned code nearest to a magnitude v' in units where a code of magnitude 1 is `unit`; of two equally near the even one. -/
def nearCode (f v' unit : Nat) : Nat :=
  let dist := fun c => (((codeMag f c * unit : Nat) : Int) - (v' : Int)).natAbs
  (upFrom 1 (if blkNarrow f then 7 else 127)).foldl
    (fun best c => if dist c < dist best || (dist c == dist best && c % 2 == 0) then c else best) 0

/-- The element code of a signed magnitude code. -/
def signCode (f c : Nat) (neg : Bool) : Nat :=
  if c = 0 || !neg then c
  else if f = 1 then c + 8 else if f = 3 then c + 128 else if f = 2 then 16 - c else 256 - c

/-- The code whose magnitude is C. -/
def topCode (f : Nat) : Nat := if blkNarrow f then 7 else 127

/-- Pack element codes into the element area. -/
def packCodes (f : Nat) : List Nat → List Nat
  | a :: b :: r => if blkNarrow f then (a + 16 * b) :: packCodes f r else a :: b :: packCodes f r
  | l => l

/-- The BF16 side entry of a value (R59). -/
def sideOf (v : Int) (g : Int) : Nat :=
  let w := fpOfInt 8 .rne v g false
  if w = 0x7F80 then 0x7F7F else if w = 0xFF80 then 0xFF7F else w

/-- quant (R59): the block of values v 2^g in format f. -/
def quant (vs : List Int) (g : Int) (f : Nat) : List Nat :=
  if vs.all (· == 0) then List.replicate 64 0
  else
    let m8 := nthLargest vs 7
    let m := if m8 = 0 then nthLargest vs 0 else m8
    let s := scaleFrom f m g 254 0
    let h := (s : Int) - 127 + blkUnit f
    let big := fun (v : Int) => decide (blkMax f * pow2 (h - g) < v.natAbs * pow2 (g - h))
    let ix := vs.zip (upFrom 0 vs.length)
    let out := ix.filter fun p => big p.1
    let esc := (sortBy (fun (a b : Int × Nat) => decide (b.1.natAbs ≤ a.1.natAbs)) out).take 7
    let isEsc := fun i => esc.any fun p => p.2 == i
    let codes := ix.map fun p =>
      if isEsc p.2 then blkEsc f
      else if big p.1 then signCode f (topCode f) (decide (p.1 < 0))
      else signCode f (nearCode f (p.1.natAbs * pow2 (g - h)) (pow2 (h - g))) (decide (p.1 < 0))
    let side := (ix.filter fun p => isEsc p.2).map fun p => sideOf p.1 g
    let sb := side.flatMap fun w => [w % 256, w / 256]
    [f, s] ++ packCodes f codes ++ sb ++ List.replicate (14 - sb.length) 0

/-- Entry (r, c) of a tile. -/
def Tile.e (t : Tile) (r c : Nat) : Int := mget 0 t.ent (16 * r + c)

/-- Saturation of entry (r, c). -/
def Tile.isSat (t : Tile) (r c : Nat) : Bool := mget false t.sat (16 * r + c)

/-- A tile as ACLR leaves it (R55). -/
def Tile.cleared : Tile := {}

/-- ACVT's value of entry (r, c) in precision p (R58). Of a saturated entry of an empty tile, which only ALD can load, the rule says both an infinity
and +0: +0 is taken (entry 47). -/
def Tile.cvt (t : Tile) (p r c : Nat) : Nat :=
  match t.xmax with
  | none => 0
  | some x => if t.isSat r c then fpInf p (decide (t.e r c < 0)) else fpOfDyadic p (t.e r c) (x - 28)

/-- The rows and columns of a tile. -/
def tileCells : List (Nat × Nat) := (upFrom 0 32).flatMap fun r => (upFrom 0 16).map fun c => (r, c)

/-- Renormalise to a coarser grid (R56 align): saturated entries keep their value. -/
def Tile.coarser (t : Tile) (d : Nat) : Tile :=
  { t with ent := t.ent.filterMap fun (k, e) =>
      let e' := if mget false t.sat k then e else rneShift e d
      if e' = 0 then none else some (k, e') }

/-- Add x on the tile's grid to entry (r, c), saturating (R56). -/
def Tile.accum (t : Tile) (r c : Nat) (x : Int) : Tile :=
  if t.isSat r c then t
  else
    let (y, s) := satInt (t.e r c + x) 64
    { t with ent := mset 0 t.ent (16 * r + c) y, sat := mset false t.sat (16 * r + c) s }

/-- The partials of an MMA: row, column, scale, V on the grid 2^-400 (R53, R54). -/
def mmaPartials (rows : List (Nat × List Nat)) (cols : List (Nat × List Nat)) : List (Nat × Nat × Int × Int) :=
  rows.flatMap fun (r, a) => cols.filterMap fun (c, b) =>
    if blkByte a 0 = 0 || blkByte b 0 = 0 then none else some (r, c, blkExp a + blkExp b, blkDot a b)

/-- SAT is the OR of the saturation map (R56, R71). -/
def Tile.flagged (t : Tile) : Tile := { t with flag := t.sat.any (·.2) }

/-- MMA's effect on a tile's entries (R56): op is 1 or -1. -/
def Tile.mma (t : Tile) (op : Int) (rows cols : List (Nat × List Nat)) : Tile :=
  let ps := mmaPartials rows cols
  match ps with
  | [] => t
  | p :: _ =>
    let mx := ps.foldl (fun m q => max m q.2.2.1) p.2.2.1
    let xnew := match t.xmax with | none => mx | some x => max x mx
    let t1 := match t.xmax with
      | none => t
      | some x => if x < xnew then t.coarser (xnew - x).toNat else t
    (ps.foldl (fun (u : Tile) q => u.accum q.1 q.2.1 (op * rneGrid q.2.2.2 (-400) (xnew - 28))) { t1 with xmax := some xnew }).flagged

/-- The first failing block of an MMA and its reason (R50, R299), blocks in order: A rows, then B columns. -/
def mmaCheck (bs : List (List Nat)) : Option (Nat × Nat) :=
  let nz := bs.filter fun b => blkByte b 0 ≠ 0
  let cls := match nz with | [] => true | b :: _ => blkNarrow (blkByte b 0)
  let bad := fun (b : List Nat) =>
    let r := blkCheck b
    if r ≠ 0 then r else if blkByte b 0 ≠ 0 && (blkNarrow (blkByte b 0) != cls) then 7 else 0
  ((bs.zip (upFrom 0 bs.length)).filterMap fun (b, i) => if bad b = 0 then none else some (i, bad b)).head?

end Sys2Proof.Machine
end

