-- ==== Sys2Proof/WellFormed.lean ====
section
/-! DEFINITION. Static well-formedness of an instruction (R233-R243): what of its fields is legal whatever the team declares.
What depends on a declaration (.vregs, .acc, .scratch) is checked when the instruction issues. -/
namespace Sys2Proof

/-- A vector destination: v0-v123 or vz (R233). -/
def isVDst (d : BitVec 7) : Bool := d.toNat < 124 || d.toNat == 127
/-- A range of n registers starting at v ends below 124 (R233): no latch and no vz in it. -/
def isVRange (v : BitVec 7) (n : Nat) : Bool := v.toNat + n ≤ 124
/-- A source or result of a single register that is no latch (R233). -/
def noLatch (v : BitVec 7) : Bool := v.toNat < 124 || v.toNat == 127
/-- A tile range a(t)..a(t+n-1) below 48 (R233). -/
def isTile (t : BitVec 6) (n : Nat) : Bool := t.toNat + n ≤ 48

/-- Registers of an LD or ST (R270). -/
def MSize.regs : MSize → Nat
  | .w => 1 | .d => 2 | .x => 4 | .blk => 16
/-- Data registers of BQNT's input (R309). -/
def Fmt.pairs : Fmt → Nat
  | .e2m1 => 48 | .i4 => 48 | .e2m5 => 24 | .i8 => 24
/-- Tiles ABQ reads (R303). -/
def Fmt.tiles : Fmt → Nat
  | .e2m1 => 6 | .i4 => 6 | .e2m5 => 3 | .i8 => 3
/-- The pairings VCMP allows (R242, R258). -/
def VCond.fits : VCond → CmpType → Bool
  | .lo, .f32 => false | .hs, .f32 => false | .ls, .f32 => false | .hi, .f32 => false
  | .un, .i32 => false | .or, .i32 => false
  | _, _ => true

/-- Well-formed instructions. A decoded word is always one (Decode.lean). -/
def Instr.wf : Instr → Bool
  | .nop => true
  | .dly n => n != 0
  | .br _ => true
  | .bcc _ _ => true
  | .bkz _ _ => true
  | .bknz _ _ => true
  | .call _ => true
  | .ret => true
  | .jmpr _ => true
  | .callr _ => true
  | .exit => true
  | .trap _ => true
  | .brk => true
  | .reth => true
  | .callg _ v _ => isVRange v 2
  | .sadd _ _ _ _ => true
  | .ssub _ _ _ _ => true
  | .smul _ _ _ _ => true
  | .smulh _ _ _ _ => true
  | .smulhn _ _ _ _ => true
  | .sand _ _ _ _ => true
  | .sor _ _ _ _ => true
  | .sxor _ _ _ _ => true
  | .sandn _ _ _ _ => true
  | .sshl _ _ _ _ => true
  | .sshr _ _ _ _ => true
  | .ssra _ _ _ _ => true
  | .smin _ _ _ _ => true
  | .smax _ _ _ _ => true
  | .sminn _ _ _ _ => true
  | .smaxn _ _ _ _ => true
  | .scmp _ _ => true
  | .spopc _ _ _ => true
  | .sclz _ _ _ => true
  | .sctz _ _ _ => true
  | .saddi _ _ _ => true
  | .sandi _ _ _ => true
  | .sori _ _ _ => true
  | .sxori _ _ _ => true
  | .sshi _ _ _ _ => true
  | .scmpi _ _ => true
  | .slui _ _ => true
  | .smuli _ _ _ => true
  | .vadd _ d _ _ => isVDst d
  | .vsub _ d _ _ => isVDst d
  | .vmul _ d _ _ => isVDst d
  | .vmulh _ d _ _ => isVDst d
  | .vmulhn _ d _ _ => isVDst d
  | .vmad _ d _ _ => isVDst d
  | .vand _ d _ _ => isVDst d
  | .vor _ d _ _ => isVDst d
  | .vxor _ d _ _ => isVDst d
  | .vandn _ d _ _ => isVDst d
  | .vshl _ d _ _ => isVDst d
  | .vshr _ d _ _ => isVDst d
  | .vsra _ d _ _ => isVDst d
  | .vmin _ d _ _ => isVDst d
  | .vmax _ d _ _ => isVDst d
  | .vabs _ d _ => isVDst d
  | .vminn _ d _ _ => isVDst d
  | .vmaxn _ d _ _ => isVDst d
  | .vaddsat _ d _ _ => isVDst d
  | .vsubsat _ d _ _ => isVDst d
  | .vpopc _ d _ => isVDst d
  | .vclz _ d _ => isVDst d
  | .vlane _ d => isVDst d
  | .vbrev _ d _ => isVDst d
  | .fadd _ d _ _ => isVDst d
  | .fsub _ d _ _ => isVDst d
  | .fmul _ d _ _ => isVDst d
  | .ffma _ d _ _ => isVDst d
  | .fmin _ d _ _ => isVDst d
  | .fmax _ d _ _ => isVDst d
  | .fabs _ d _ => isVDst d
  | .fneg _ d _ => isVDst d
  | .frcp _ d _ => isVDst d
  | .frsq _ d _ => isVDst d
  | .fexp2 _ d _ => isVDst d
  | .flog2 _ d _ => isVDst d
  | .ffloor _ d _ => isVDst d
  | .ffrac _ d _ => isVDst d
  | .badd2 _ d _ _ => isVDst d
  | .bmul2 _ d _ _ => isVDst d
  | .bfma2 _ d _ _ => isVDst d
  | .bmax2 _ d _ _ => isVDst d
  | .cvtF32I32 _ d _ => isVDst d
  | .cvtF32N32 _ d _ => isVDst d
  | .cvtI32F32 _ d _ => isVDst d
  | .cvtN32F32 _ d _ => isVDst d
  | .cvtBf2F32 _ d _ _ => isVDst d
  | .cvtF32Bfl _ d _ => isVDst d
  | .cvtF32Bfh _ d _ => isVDst d
  | .vcmp c _ t _ _ => c.fits t
  | .vsel _ _ d _ _ => isVDst d
  | .vaddi _ d _ _ => isVDst d
  | .vmuli _ d _ _ => isVDst d
  | .vandi _ d _ _ => isVDst d
  | .vori _ d _ _ => isVDst d
  | .vxori _ d _ _ => isVDst d
  | .vshli _ d _ _ => isVDst d
  | .vshri _ d _ _ => isVDst d
  | .vsrai _ d _ _ => isVDst d
  | .vmovi _ d _ => isVDst d
  | .vmini _ d _ _ => isVDst d
  | .vmaxi _ d _ _ => isVDst d
  | .vadds _ d _ _ => isVDst d
  | .vsubs _ d _ _ => isVDst d
  | .vmuls _ d _ _ => isVDst d
  | .fadds _ d _ _ => isVDst d
  | .fmuls _ d _ _ => isVDst d
  | .ffmas _ d _ _ => isVDst d
  | .vmovs _ d _ => isVDst d
  | .vshls _ d _ _ => isVDst d
  | .shfl _ d _ _ => isVDst d
  | .shflx _ d _ _ => isVDst d
  | .shflu _ d _ _ => isVDst d
  | .shfld _ d _ _ => isVDst d
  | .scani _ d _ => isVDst d
  | .scanf _ d _ => isVDst d
  | .redi _ d _ => isVDst d
  | .redf _ d _ => isVDst d
  | .redmaxf _ d _ => isVDst d
  | .redminf _ d _ => isVDst d
  | .cnfl _ d _ => isVDst d
  | .kand _ _ _ => true
  | .kor _ _ _ => true
  | .kxor _ _ _ => true
  | .kandn _ _ _ => true
  | .knot _ _ => true
  | .kmov _ _ => true
  | .kall _ => true
  | .kfirst _ _ => true
  | .kgany _ _ => true
  | .kzero _ => true
  | .kcnt _ _ => true
  | .ktos _ _ _ => true
  | .stok _ _ _ => true
  | .ld _ v _ i z => noLatch v && noLatch i && (z == .w || isVRange v z.regs)
  | .ldn _ v _ i _ => noLatch v && noLatch i
  | .st _ v _ i z => (z == .w || isVRange v z.regs) && noLatch i
  | .stn _ v _ i _ => noLatch v && noLatch i
  | .ldsW _ _ _ _ => true
  | .ldsD _ _ _ _ => true
  | .stsW _ _ _ _ => true
  | .stsD _ _ _ _ => true
  | .ldsN8 _ _ _ _ => true
  | .ldsN16 _ _ _ _ => true
  | .stsB8 _ _ _ _ => true
  | .stsH16 _ _ _ _ => true
  | .ldh _ v _ c => noLatch v && isVRange c 1
  | .sth _ v _ c => noLatch v && isVRange c 1
  | .spadd _ v _ c => noLatch v && isVRange c 1
  | .spiter _ v _ _ => isVRange v 4
  | .sphas _ v _ c => noLatch v && isVRange c 1
  | .atom _ d a o _ _ => isVRange d (if o == .cas then 2 else 1) && isVRange a 2
  | .satom _ d z _ o _ _ => (o != .cas || d.toNat ≤ 61) && (o != .fadd || !z)
  | .wait _ _ => true
  | .waita b => b != 0
  | .yield _ _ _ => true
  | .phase _ => true
  | .mwait _ _ _ => true
  | .bari _ _ => true
  | .bara _ => true
  | .barw _ => true
  | .kcopy _ _ _ => true
  | .kgath _ _ v => isVRange v 1
  | .kscat _ _ v => isVRange v 1
  | .kpos _ _ _ => true
  | .kstop _ _ => true
  | .wwr _ _ _ _ => true
  | .wsig _ _ _ => true
  | .wcnt _ _ _ _ => true
  | .wwt _ _ _ => true
  | .mma _ t a b => isTile t 1 && isVRange a 16 && isVRange b 8
  | .mmaz _ t a b => isTile t 1 && isVRange a 16 && isVRange b 8
  | .mman _ t a b => isTile t 1 && isVRange a 16 && isVRange b 8
  | .aclr _ t => isTile t 1
  | .acvt _ t d f => isTile t 1 && isVRange d (if f then 8 else 16)
  | .abq _ t d f => isTile t f.tiles && isVRange d 16
  | .ast _ t _ => isTile t 1
  | .ald _ t _ => isTile t 1
  | .amrg _ t _ => isTile t 1
  | .ami _ _ _ => true
  | .aexp _ t _ => isTile t 1
  | .bqnt d a f => isVRange d 16 && isVRange a f.pairs
  | .bdeq d a => isVRange d 48 && isVRange a 16
  | .bhdr d a => isVRange d 1 && isVRange a 16
  | .tapb _ _ _ _ => true
  | .fsel t _ _ => isTile t 1
  | .tapr d _ _ _ => d != 0 && d != 14 && d != 15
  | .tape _ _ _ _ => true
  | .tapl _ _ => true
  | .taph _ _ _ => true
  | .sample _ _ _ => true
  | .topk d _ s => isVRange d 2 && s.toNat ≤ 60
  | .mergek _ _ _ _ => true
  | .rngu d a _ => isVDst d && isVRange a 2
  | .lblget _ _ _ => true
  | .lbls _ _ => true
  | .lblt _ _ _ => true
  | .srd _ _ => true
  | .swr _ _ => true
  | .gprd _ _ => true
  | .gpwr _ _ => true
  | .spext _ _ _ => true
  | .invl k a b => match k with | .page => true | .asid => a == 0 | .part => a == 0 && b == 0
  | .icinv a l => !l || a == 0
  | .imm _ => true
  | .run _ => true
  | .livev g b => g.toNat < 8 && (g != 7 || b.toNat < 4096)
  | .lives c b => c.toNat < 6 && (c != 3 || b.toNat < 32768)
  | .livep _ _ => true
  | .region => true
  | .off _ => true
  | .mod _ _ _ => true
  | .prio _ => true
  | .dlyEnd => true
  | .teamExitComplete => true
  | .callRecordPost => true
  | .callgReply => true
  | .waitSatisfied => true
  | .yieldReactivate => true
  | .phaseReleaseDone => true
  | .mwaitWake => true
  | .barwRelease => true
  | .kuduIteration => true
  | .kuduCommandComplete => true
  | .streamResume => true
  | .wwtRelease => true
  | .senderCounterAdvance => true
  | .windowWriteArrival => true
  | .wsigArrival => true
  | .matrixOperation => true
  | .mergeTileApply => true
  | .fselFeed => true
  | .taprEvaluation => true
  | .tapeEvaluation => true
  | .mergekComplete => true
  | .invlComplete => true
  | .icinvComplete => true
  | .pairLinkExchange => true
  | .loadCompletion => true
  | .storePerformed => true
  | .atomicPerformed => true
  | .arborOperation => true
  | .pageWalk => true
  | .translationFaultResolve => true
  | .migrationStart => true
  | .migrationEnd => true
  | .teamCreate => true
  | .compaction => true
  | .activeSetEviction => true
  | .progressSwap => true
  | .save => true
  | .fullSave => true
  | .teamRestore => true
  | .trapEntry => true
  | .graphReplayStart => true
  | .kernelNodeStart => true
  | .commitNode => true
  | .doorbellTailWrite => true
  | .registerWrite => true
  | .hostReadBar4 => true
  | .hostWriteBar4 => true
  | .launch => true
  | .replay => true
  | .patch => true
  | .copy => true
  | .fill => true
  | .signal => true
  | .waitv => true
  | .waitvMatch => true
  | .invlPageCommand => true
  | .invlAsidCommand => true
  | .invlPartitionCommand => true
  | .qset => true
  | .partCreate => true
  | .partHalt => true
  | .partReset => true
  | .fmap => true
  | .origin => true
  | .policy => true
  | .clear => true
  | .clearComplete => true
  | .spnew => true
  | .graph => true
  | .windowRegister => true
  | .windowDeregister => true
  | .peer => true
  | .peerBindComplete => true
  | .samplerEnable => true
  | .samplerDisable => true
  | .samplerTick => true
  | .queryPartition => true
  | .queryQuote => true
  | .restore => true
  | .map => true
  | .fwload => true
  | .halt => true
  | .resume => true
  | .dumpOneTeam => true
  | .dumpEveryTeam => true
  | .dbgset => true
  | .errlog => true
  | .throttle => true
  | .frzN => true
  | .freeze => true
  | .thaw => true
  | .debugPortAccess => true
  | .packageReset => true
  | .linkDown => true
  | .matrixSelfTest => true
  | .powerControl => true
  | .patrolScrub => true
  | .softError => true
  | .hostMemoryWrite => true
  | .partitionResetComplete => true

end Sys2Proof
end

