-- ==== Sys2Proof/Decode.lean ====
section
/-! DEFINITION. Decoding a 32-bit word (R231-R243), total: a word that is no instruction gives none, which the step turns into
the illegal-instruction trap of R243. After it the encoder, from the same tables, and the decoding of a host command's code. -/
namespace Sys2Proof

/-- The field of n bits whose lowest bit is worth `unit` (= 2^lo) in the word. -/
def fld (w unit n : Nat) : BitVec n := BitVec.ofNat n (w / unit)
/-- A one-bit field. -/
def bitf (w unit : Nat) : Bool := w / unit % 2 == 1

/-- The Cond of a code, if the code is assigned. -/
def Cond.ofCode : Nat → Option Cond
  | 0 => some .eq
  | 1 => some .ne
  | 2 => some .lt
  | 3 => some .ge
  | 4 => some .le
  | 5 => some .gt
  | 6 => some .lo
  | 7 => some .hs
  | 8 => some .ls
  | 9 => some .hi
  | 10 => some .mi
  | 11 => some .pl
  | 12 => some .os
  | 13 => some .oc
  | 14 => some .al
  | _ => none
/-- The code of a Cond. -/
def Cond.code : Cond → Nat
  | .eq => 0
  | .ne => 1
  | .lt => 2
  | .ge => 3
  | .le => 4
  | .gt => 5
  | .lo => 6
  | .hs => 7
  | .ls => 8
  | .hi => 9
  | .mi => 10
  | .pl => 11
  | .os => 12
  | .oc => 13
  | .al => 14

/-- The VCond of a code, if the code is assigned. -/
def VCond.ofCode : Nat → Option VCond
  | 0 => some .eq
  | 1 => some .ne
  | 2 => some .lt
  | 3 => some .ge
  | 4 => some .le
  | 5 => some .gt
  | 6 => some .lo
  | 7 => some .hs
  | 8 => some .ls
  | 9 => some .hi
  | 10 => some .un
  | 11 => some .or
  | _ => none
/-- The code of a VCond. -/
def VCond.code : VCond → Nat
  | .eq => 0
  | .ne => 1
  | .lt => 2
  | .ge => 3
  | .le => 4
  | .gt => 5
  | .lo => 6
  | .hs => 7
  | .ls => 8
  | .hi => 9
  | .un => 10
  | .or => 11

/-- The CmpType of a code, if the code is assigned. -/
def CmpType.ofCode : Nat → Option CmpType
  | 0 => some .i32
  | 1 => some .f32
  | _ => none
/-- The code of a CmpType. -/
def CmpType.code : CmpType → Nat
  | .i32 => 0
  | .f32 => 1

/-- The ShKind of a code, if the code is assigned. -/
def ShKind.ofCode : Nat → Option ShKind
  | 0 => some .shl
  | 1 => some .shr
  | 2 => some .sra
  | _ => none
/-- The code of a ShKind. -/
def ShKind.code : ShKind → Nat
  | .shl => 0
  | .shr => 1
  | .sra => 2

/-- The MSize of a code, if the code is assigned. -/
def MSize.ofCode : Nat → Option MSize
  | 0 => some .w
  | 1 => some .d
  | 2 => some .x
  | 3 => some .blk
  | _ => none
/-- The code of a MSize. -/
def MSize.code : MSize → Nat
  | .w => 0
  | .d => 1
  | .x => 2
  | .blk => 3

/-- The NSize of a code, if the code is assigned. -/
def NSize.ofCode : Nat → Option NSize
  | 0 => some .i8
  | 1 => some .n8
  | 2 => some .i16
  | 3 => some .n16
  | _ => none
/-- The code of a NSize. -/
def NSize.code : NSize → Nat
  | .i8 => 0
  | .n8 => 1
  | .i16 => 2
  | .n16 => 3

/-- The AtomOp of a code, if the code is assigned. -/
def AtomOp.ofCode : Nat → Option AtomOp
  | 0 => some .add
  | 1 => some .min
  | 2 => some .max
  | 3 => some .minn
  | 4 => some .maxn
  | 5 => some .and
  | 6 => some .or
  | 7 => some .xor
  | 8 => some .xchg
  | 9 => some .cas
  | 10 => some .fadd
  | _ => none
/-- The code of a AtomOp. -/
def AtomOp.code : AtomOp → Nat
  | .add => 0
  | .min => 1
  | .max => 2
  | .minn => 3
  | .maxn => 4
  | .and => 5
  | .or => 6
  | .xor => 7
  | .xchg => 8
  | .cas => 9
  | .fadd => 10

/-- The Sem of a code, if the code is assigned. -/
def Sem.ofCode : Nat → Option Sem
  | 0 => some .rlx
  | 1 => some .acq
  | 2 => some .rel
  | 3 => some .ar
  | _ => none
/-- The code of a Sem. -/
def Sem.code : Sem → Nat
  | .rlx => 0
  | .acq => 1
  | .rel => 2
  | .ar => 3

/-- The Scope of a code, if the code is assigned. -/
def Scope.ofCode : Nat → Option Scope
  | 0 => some .core
  | 1 => some .die
  | 2 => some .pkg
  | 3 => some .sys
  | _ => none
/-- The code of a Scope. -/
def Scope.code : Scope → Nat
  | .core => 0
  | .die => 1
  | .pkg => 2
  | .sys => 3

/-- The Fmt of a code, if the code is assigned. -/
def Fmt.ofCode : Nat → Option Fmt
  | 1 => some .e2m1
  | 2 => some .i4
  | 3 => some .e2m5
  | 4 => some .i8
  | _ => none
/-- The code of a Fmt. -/
def Fmt.code : Fmt → Nat
  | .e2m1 => 1
  | .i4 => 2
  | .e2m5 => 3
  | .i8 => 4

/-- The InvlKind of a code, if the code is assigned. -/
def InvlKind.ofCode : Nat → Option InvlKind
  | 0 => some .page
  | 1 => some .asid
  | 2 => some .part
  | _ => none
/-- The code of a InvlKind. -/
def InvlKind.code : InvlKind → Nat
  | .page => 0
  | .asid => 1
  | .part => 2

/-- The CachePol of a code, if the code is assigned. -/
def CachePol.ofCode : Nat → Option CachePol
  | 0 => some .normal
  | 1 => some .stream
  | 2 => some .noL1
  | _ => none
/-- The code of a CachePol. -/
def CachePol.code : CachePol → Nat
  | .normal => 0
  | .stream => 1
  | .noL1 => 2

/-- The Rounding of a code, if the code is assigned. -/
def Rounding.ofCode : Nat → Option Rounding
  | 0 => some .rne
  | 1 => some .rz
  | 2 => some .ru
  | 3 => some .rd
  | _ => none
/-- The code of a Rounding. -/
def Rounding.code : Rounding → Nat
  | .rne => 0
  | .rz => 1
  | .ru => 2
  | .rd => 3

/-- Major 0x00. -/
def decodeMajor00 (w : Nat) : Option Instr :=
  match w / 4194304 % 16 with
  | 0 => if w / 1 % 4194304 = 0 then some (.nop) else none
  | 1 => if w / 256 % 16384 = 0 then some (.dly (fld w 1 8)) else none
  | _ => none

/-- Major 0x01. -/
def decodeMajor01 (w : Nat) : Option Instr :=
  some (.br (fld w 1 26))

/-- Major 0x02. -/
def decodeMajor02 (w : Nat) : Option Instr :=
  (Cond.ofCode (w / 4194304 % 16)).bind fun c => some (.bcc c (fld w 1 22))

/-- Major 0x03. -/
def decodeMajor03 (w : Nat) : Option Instr :=
  match w / 33554432 % 2 with
  | 0 => some (.bkz (fld w 2097152 4) (fld w 1 21))
  | 1 => some (.bknz (fld w 2097152 4) (fld w 1 21))
  | _ => none

/-- Major 0x04. -/
def decodeMajor04 (w : Nat) : Option Instr :=
  some (.call (fld w 1 26))

/-- Major 0x05. -/
def decodeMajor05 (w : Nat) : Option Instr :=
  match w / 4194304 % 16 with
  | 0 => if w / 1 % 4194304 = 0 then some (.ret) else none
  | 1 => if w / 1 % 65536 = 0 then some (.jmpr (fld w 65536 6)) else none
  | 2 => if w / 1 % 65536 = 0 then some (.callr (fld w 65536 6)) else none
  | 3 => if w / 1 % 4194304 = 0 then some (.exit) else none
  | 4 => if w / 65536 % 64 = 0 then some (.trap (fld w 1 16)) else none
  | 5 => if w / 1 % 4194304 = 0 then some (.brk) else none
  | 6 => if w / 1 % 4194304 = 0 then some (.reth) else none
  | 7 => if w / 1 % 32 = 0 then some (.callg (fld w 262144 4) (fld w 2048 7) (fld w 32 6)) else none
  | _ => none

/-- Major 0x06. -/
def decodeMajor06 (w : Nat) : Option Instr :=
  match w / 1048576 % 64 with
  | 0 => if w / 262144 % 2 = 0 then some (.sadd (bitf w 524288) (fld w 4096 6) (fld w 64 6) (fld w 1 6)) else none
  | 1 => if w / 262144 % 2 = 0 then some (.ssub (bitf w 524288) (fld w 4096 6) (fld w 64 6) (fld w 1 6)) else none
  | 2 => if w / 262144 % 2 = 0 then some (.smul (bitf w 524288) (fld w 4096 6) (fld w 64 6) (fld w 1 6)) else none
  | 3 => if w / 262144 % 2 = 0 then some (.smulh (bitf w 524288) (fld w 4096 6) (fld w 64 6) (fld w 1 6)) else none
  | 4 => if w / 262144 % 2 = 0 then some (.smulhn (bitf w 524288) (fld w 4096 6) (fld w 64 6) (fld w 1 6)) else none
  | 5 => if w / 262144 % 2 = 0 then some (.sand (bitf w 524288) (fld w 4096 6) (fld w 64 6) (fld w 1 6)) else none
  | 6 => if w / 262144 % 2 = 0 then some (.sor (bitf w 524288) (fld w 4096 6) (fld w 64 6) (fld w 1 6)) else none
  | 7 => if w / 262144 % 2 = 0 then some (.sxor (bitf w 524288) (fld w 4096 6) (fld w 64 6) (fld w 1 6)) else none
  | 8 => if w / 262144 % 2 = 0 then some (.sandn (bitf w 524288) (fld w 4096 6) (fld w 64 6) (fld w 1 6)) else none
  | 9 => if w / 262144 % 2 = 0 then some (.sshl (bitf w 524288) (fld w 4096 6) (fld w 64 6) (fld w 1 6)) else none
  | 10 => if w / 262144 % 2 = 0 then some (.sshr (bitf w 524288) (fld w 4096 6) (fld w 64 6) (fld w 1 6)) else none
  | 11 => if w / 262144 % 2 = 0 then some (.ssra (bitf w 524288) (fld w 4096 6) (fld w 64 6) (fld w 1 6)) else none
  | 12 => if w / 262144 % 2 = 0 then some (.smin (bitf w 524288) (fld w 4096 6) (fld w 64 6) (fld w 1 6)) else none
  | 13 => if w / 262144 % 2 = 0 then some (.smax (bitf w 524288) (fld w 4096 6) (fld w 64 6) (fld w 1 6)) else none
  | 14 => if w / 262144 % 2 = 0 then some (.sminn (bitf w 524288) (fld w 4096 6) (fld w 64 6) (fld w 1 6)) else none
  | 15 => if w / 262144 % 2 = 0 then some (.smaxn (bitf w 524288) (fld w 4096 6) (fld w 64 6) (fld w 1 6)) else none
  | 16 => if w / 4096 % 256 = 191 then some (.scmp (fld w 64 6) (fld w 1 6)) else none
  | 17 => if w / 1 % 64 = 0 ∧ w / 262144 % 2 = 0 then some (.spopc (bitf w 524288) (fld w 4096 6) (fld w 64 6)) else none
  | 18 => if w / 1 % 64 = 0 ∧ w / 262144 % 2 = 0 then some (.sclz (bitf w 524288) (fld w 4096 6) (fld w 64 6)) else none
  | 19 => if w / 1 % 64 = 0 ∧ w / 262144 % 2 = 0 then some (.sctz (bitf w 524288) (fld w 4096 6) (fld w 64 6)) else none
  | _ => none

/-- Major 0x08. -/
def decodeMajor08 (w : Nat) : Option Instr :=
  some (.saddi (fld w 1048576 6) (fld w 16384 6) (fld w 1 14))

/-- Major 0x09. -/
def decodeMajor09 (w : Nat) : Option Instr :=
  some (.sandi (fld w 1048576 6) (fld w 16384 6) (fld w 1 14))

/-- Major 0x0A. -/
def decodeMajor0A (w : Nat) : Option Instr :=
  some (.sori (fld w 1048576 6) (fld w 16384 6) (fld w 1 14))

/-- Major 0x0B. -/
def decodeMajor0B (w : Nat) : Option Instr :=
  some (.sxori (fld w 1048576 6) (fld w 16384 6) (fld w 1 14))

/-- Major 0x0C. -/
def decodeMajor0C (w : Nat) : Option Instr :=
  if w / 64 % 64 = 0 then (ShKind.ofCode (w / 4096 % 4)).bind fun k => some (.sshi (fld w 1048576 6) (fld w 16384 6) k (fld w 1 6)) else none

/-- Major 0x0D. -/
def decodeMajor0D (w : Nat) : Option Instr :=
  if w / 1048576 % 64 = 63 then some (.scmpi (fld w 16384 6) (fld w 1 14)) else none

/-- Major 0x0E. -/
def decodeMajor0E (w : Nat) : Option Instr :=
  some (.slui (fld w 1048576 6) (fld w 1 20))

/-- Major 0x0F. -/
def decodeMajor0F (w : Nat) : Option Instr :=
  some (.smuli (fld w 1048576 6) (fld w 16384 6) (fld w 1 14))

/-- Major 0x10. -/
def decodeMajor10 (w : Nat) : Option Instr :=
  match w / 4194304 % 16 with
  | 0 => some (.vadd (bitf w 2097152) (fld w 16384 7) (fld w 128 7) (fld w 1 7))
  | 1 => some (.vsub (bitf w 2097152) (fld w 16384 7) (fld w 128 7) (fld w 1 7))
  | 2 => some (.vmul (bitf w 2097152) (fld w 16384 7) (fld w 128 7) (fld w 1 7))
  | 3 => some (.vmulh (bitf w 2097152) (fld w 16384 7) (fld w 128 7) (fld w 1 7))
  | 4 => some (.vmulhn (bitf w 2097152) (fld w 16384 7) (fld w 128 7) (fld w 1 7))
  | 5 => some (.vmad (bitf w 2097152) (fld w 16384 7) (fld w 128 7) (fld w 1 7))
  | 6 => some (.vand (bitf w 2097152) (fld w 16384 7) (fld w 128 7) (fld w 1 7))
  | 7 => some (.vor (bitf w 2097152) (fld w 16384 7) (fld w 128 7) (fld w 1 7))
  | 8 => some (.vxor (bitf w 2097152) (fld w 16384 7) (fld w 128 7) (fld w 1 7))
  | 9 => some (.vandn (bitf w 2097152) (fld w 16384 7) (fld w 128 7) (fld w 1 7))
  | 10 => some (.vshl (bitf w 2097152) (fld w 16384 7) (fld w 128 7) (fld w 1 7))
  | 11 => some (.vshr (bitf w 2097152) (fld w 16384 7) (fld w 128 7) (fld w 1 7))
  | 12 => some (.vsra (bitf w 2097152) (fld w 16384 7) (fld w 128 7) (fld w 1 7))
  | 13 => some (.vmin (bitf w 2097152) (fld w 16384 7) (fld w 128 7) (fld w 1 7))
  | 14 => some (.vmax (bitf w 2097152) (fld w 16384 7) (fld w 128 7) (fld w 1 7))
  | 15 => if w / 1 % 128 = 0 then some (.vabs (bitf w 2097152) (fld w 16384 7) (fld w 128 7)) else none
  | _ => none

/-- Major 0x11. -/
def decodeMajor11 (w : Nat) : Option Instr :=
  match w / 4194304 % 16 with
  | 0 => some (.vminn (bitf w 2097152) (fld w 16384 7) (fld w 128 7) (fld w 1 7))
  | 1 => some (.vmaxn (bitf w 2097152) (fld w 16384 7) (fld w 128 7) (fld w 1 7))
  | 2 => some (.vaddsat (bitf w 2097152) (fld w 16384 7) (fld w 128 7) (fld w 1 7))
  | 3 => some (.vsubsat (bitf w 2097152) (fld w 16384 7) (fld w 128 7) (fld w 1 7))
  | 4 => if w / 1 % 128 = 0 then some (.vpopc (bitf w 2097152) (fld w 16384 7) (fld w 128 7)) else none
  | 5 => if w / 1 % 128 = 0 then some (.vclz (bitf w 2097152) (fld w 16384 7) (fld w 128 7)) else none
  | 6 => if w / 1 % 16384 = 0 then some (.vlane (bitf w 2097152) (fld w 16384 7)) else none
  | 7 => if w / 1 % 128 = 0 then some (.vbrev (bitf w 2097152) (fld w 16384 7) (fld w 128 7)) else none
  | _ => none

/-- Major 0x12. -/
def decodeMajor12 (w : Nat) : Option Instr :=
  match w / 4194304 % 16 with
  | 0 => some (.fadd (bitf w 2097152) (fld w 16384 7) (fld w 128 7) (fld w 1 7))
  | 1 => some (.fsub (bitf w 2097152) (fld w 16384 7) (fld w 128 7) (fld w 1 7))
  | 2 => some (.fmul (bitf w 2097152) (fld w 16384 7) (fld w 128 7) (fld w 1 7))
  | 3 => some (.ffma (bitf w 2097152) (fld w 16384 7) (fld w 128 7) (fld w 1 7))
  | 4 => some (.fmin (bitf w 2097152) (fld w 16384 7) (fld w 128 7) (fld w 1 7))
  | 5 => some (.fmax (bitf w 2097152) (fld w 16384 7) (fld w 128 7) (fld w 1 7))
  | 6 => if w / 1 % 128 = 0 then some (.fabs (bitf w 2097152) (fld w 16384 7) (fld w 128 7)) else none
  | 7 => if w / 1 % 128 = 0 then some (.fneg (bitf w 2097152) (fld w 16384 7) (fld w 128 7)) else none
  | 8 => if w / 1 % 128 = 0 then some (.frcp (bitf w 2097152) (fld w 16384 7) (fld w 128 7)) else none
  | 9 => if w / 1 % 128 = 0 then some (.frsq (bitf w 2097152) (fld w 16384 7) (fld w 128 7)) else none
  | 10 => if w / 1 % 128 = 0 then some (.fexp2 (bitf w 2097152) (fld w 16384 7) (fld w 128 7)) else none
  | 11 => if w / 1 % 128 = 0 then some (.flog2 (bitf w 2097152) (fld w 16384 7) (fld w 128 7)) else none
  | 12 => if w / 1 % 128 = 0 then some (.ffloor (bitf w 2097152) (fld w 16384 7) (fld w 128 7)) else none
  | 13 => if w / 1 % 128 = 0 then some (.ffrac (bitf w 2097152) (fld w 16384 7) (fld w 128 7)) else none
  | _ => none

/-- Major 0x13. -/
def decodeMajor13 (w : Nat) : Option Instr :=
  match w / 4194304 % 16 with
  | 0 => some (.badd2 (bitf w 2097152) (fld w 16384 7) (fld w 128 7) (fld w 1 7))
  | 1 => some (.bmul2 (bitf w 2097152) (fld w 16384 7) (fld w 128 7) (fld w 1 7))
  | 2 => some (.bfma2 (bitf w 2097152) (fld w 16384 7) (fld w 128 7) (fld w 1 7))
  | 3 => some (.bmax2 (bitf w 2097152) (fld w 16384 7) (fld w 128 7) (fld w 1 7))
  | _ => none

/-- Major 0x14. -/
def decodeMajor14 (w : Nat) : Option Instr :=
  match w / 4194304 % 16 with
  | 0 => if w / 1 % 128 = 0 then some (.cvtF32I32 (bitf w 2097152) (fld w 16384 7) (fld w 128 7)) else none
  | 1 => if w / 1 % 128 = 0 then some (.cvtF32N32 (bitf w 2097152) (fld w 16384 7) (fld w 128 7)) else none
  | 2 => if w / 1 % 128 = 0 then some (.cvtI32F32 (bitf w 2097152) (fld w 16384 7) (fld w 128 7)) else none
  | 3 => if w / 1 % 128 = 0 then some (.cvtN32F32 (bitf w 2097152) (fld w 16384 7) (fld w 128 7)) else none
  | 4 => some (.cvtBf2F32 (bitf w 2097152) (fld w 16384 7) (fld w 128 7) (fld w 1 7))
  | 5 => if w / 1 % 128 = 0 then some (.cvtF32Bfl (bitf w 2097152) (fld w 16384 7) (fld w 128 7)) else none
  | 6 => if w / 1 % 128 = 0 then some (.cvtF32Bfh (bitf w 2097152) (fld w 16384 7) (fld w 128 7)) else none
  | _ => none

/-- Major 0x15. -/
def decodeMajor15 (w : Nat) : Option Instr :=
  if w / 16384 % 2 = 0 then (VCond.ofCode (w / 4194304 % 16)).bind fun c => (CmpType.ofCode (w / 32768 % 8)).bind fun t => some (.vcmp c (fld w 262144 4) t (fld w 128 7) (fld w 1 7)) else none

/-- Major 0x16. -/
def decodeMajor16 (w : Nat) : Option Instr :=
  some (.vsel (fld w 4194304 4) (bitf w 2097152) (fld w 16384 7) (fld w 128 7) (fld w 1 7))

/-- Major 0x17. -/
def decodeMajor17 (w : Nat) : Option Instr :=
  match w / 4194304 % 16 with
  | 0 => some (.vaddi (bitf w 2097152) (fld w 16384 7) (fld w 128 7) (fld w 1 7))
  | 1 => some (.vmuli (bitf w 2097152) (fld w 16384 7) (fld w 128 7) (fld w 1 7))
  | 2 => some (.vandi (bitf w 2097152) (fld w 16384 7) (fld w 128 7) (fld w 1 7))
  | 3 => some (.vori (bitf w 2097152) (fld w 16384 7) (fld w 128 7) (fld w 1 7))
  | 4 => some (.vxori (bitf w 2097152) (fld w 16384 7) (fld w 128 7) (fld w 1 7))
  | 5 => if w / 32 % 4 = 0 then some (.vshli (bitf w 2097152) (fld w 16384 7) (fld w 128 7) (fld w 1 5)) else none
  | 6 => if w / 32 % 4 = 0 then some (.vshri (bitf w 2097152) (fld w 16384 7) (fld w 128 7) (fld w 1 5)) else none
  | 7 => if w / 32 % 4 = 0 then some (.vsrai (bitf w 2097152) (fld w 16384 7) (fld w 128 7) (fld w 1 5)) else none
  | 8 => if w / 128 % 128 = 0 then some (.vmovi (bitf w 2097152) (fld w 16384 7) (fld w 1 7)) else none
  | 9 => some (.vmini (bitf w 2097152) (fld w 16384 7) (fld w 128 7) (fld w 1 7))
  | 10 => some (.vmaxi (bitf w 2097152) (fld w 16384 7) (fld w 128 7) (fld w 1 7))
  | _ => none

/-- Major 0x18. -/
def decodeMajor18 (w : Nat) : Option Instr :=
  match w / 4194304 % 16 with
  | 0 => if w / 64 % 2 = 0 then some (.vadds (bitf w 2097152) (fld w 16384 7) (fld w 128 7) (fld w 1 6)) else none
  | 1 => if w / 64 % 2 = 0 then some (.vsubs (bitf w 2097152) (fld w 16384 7) (fld w 128 7) (fld w 1 6)) else none
  | 2 => if w / 64 % 2 = 0 then some (.vmuls (bitf w 2097152) (fld w 16384 7) (fld w 128 7) (fld w 1 6)) else none
  | 3 => if w / 64 % 2 = 0 then some (.fadds (bitf w 2097152) (fld w 16384 7) (fld w 128 7) (fld w 1 6)) else none
  | 4 => if w / 64 % 2 = 0 then some (.fmuls (bitf w 2097152) (fld w 16384 7) (fld w 128 7) (fld w 1 6)) else none
  | 5 => if w / 64 % 2 = 0 then some (.ffmas (bitf w 2097152) (fld w 16384 7) (fld w 128 7) (fld w 1 6)) else none
  | 6 => if w / 64 % 256 = 0 then some (.vmovs (bitf w 2097152) (fld w 16384 7) (fld w 1 6)) else none
  | 7 => if w / 64 % 2 = 0 then some (.vshls (bitf w 2097152) (fld w 16384 7) (fld w 128 7) (fld w 1 6)) else none
  | _ => none

/-- Major 0x19. -/
def decodeMajor19 (w : Nat) : Option Instr :=
  match w / 4194304 % 16 with
  | 0 => some (.shfl (bitf w 2097152) (fld w 16384 7) (fld w 128 7) (fld w 1 7))
  | 1 => some (.shflx (bitf w 2097152) (fld w 16384 7) (fld w 128 7) (fld w 1 7))
  | 2 => some (.shflu (bitf w 2097152) (fld w 16384 7) (fld w 128 7) (fld w 1 7))
  | 3 => some (.shfld (bitf w 2097152) (fld w 16384 7) (fld w 128 7) (fld w 1 7))
  | 4 => if w / 1 % 128 = 0 then some (.scani (bitf w 2097152) (fld w 16384 7) (fld w 128 7)) else none
  | 5 => if w / 1 % 128 = 0 then some (.scanf (bitf w 2097152) (fld w 16384 7) (fld w 128 7)) else none
  | 6 => if w / 1 % 128 = 0 then some (.redi (bitf w 2097152) (fld w 16384 7) (fld w 128 7)) else none
  | 7 => if w / 1 % 128 = 0 then some (.redf (bitf w 2097152) (fld w 16384 7) (fld w 128 7)) else none
  | 8 => if w / 1 % 128 = 0 then some (.redmaxf (bitf w 2097152) (fld w 16384 7) (fld w 128 7)) else none
  | 9 => if w / 1 % 128 = 0 then some (.redminf (bitf w 2097152) (fld w 16384 7) (fld w 128 7)) else none
  | 10 => if w / 1 % 128 = 0 then some (.cnfl (bitf w 2097152) (fld w 16384 7) (fld w 128 7)) else none
  | _ => none

/-- Major 0x1A. -/
def decodeMajor1A (w : Nat) : Option Instr :=
  match w / 4194304 % 16 with
  | 0 => if w / 1 % 1024 = 0 then some (.kand (fld w 262144 4) (fld w 16384 4) (fld w 1024 4)) else none
  | 1 => if w / 1 % 1024 = 0 then some (.kor (fld w 262144 4) (fld w 16384 4) (fld w 1024 4)) else none
  | 2 => if w / 1 % 1024 = 0 then some (.kxor (fld w 262144 4) (fld w 16384 4) (fld w 1024 4)) else none
  | 3 => if w / 1 % 1024 = 0 then some (.kandn (fld w 262144 4) (fld w 16384 4) (fld w 1024 4)) else none
  | 4 => if w / 1 % 16384 = 0 then some (.knot (fld w 262144 4) (fld w 16384 4)) else none
  | 5 => if w / 1 % 16384 = 0 then some (.kmov (fld w 262144 4) (fld w 16384 4)) else none
  | 6 => if w / 1 % 262144 = 0 then some (.kall (fld w 262144 4)) else none
  | 7 => if w / 1 % 16384 = 0 then some (.kfirst (fld w 262144 4) (fld w 16384 4)) else none
  | 8 => if w / 1 % 16384 = 0 then some (.kgany (fld w 262144 4) (fld w 16384 4)) else none
  | 9 => if w / 1 % 262144 = 0 then some (.kzero (fld w 262144 4)) else none
  | 10 => if w / 1 % 16 = 0 ∧ w / 1024 % 16 = 0 ∧ w / 262144 % 16 = 0 then some (.kcnt (fld w 16384 4) (fld w 16 6)) else none
  | _ => none

/-- Major 0x1B. -/
def decodeMajor1B (w : Nat) : Option Instr :=
  match w / 4194304 % 16 with
  | 0 => if w / 1 % 128 = 0 then some (.ktos (fld w 262144 4) (fld w 4096 6) (fld w 128 5)) else none
  | 1 => if w / 1 % 128 = 0 then some (.stok (fld w 262144 4) (fld w 4096 6) (fld w 128 5)) else none
  | _ => none

/-- Major 0x20. -/
def decodeMajor20 (w : Nat) : Option Instr :=
  (MSize.ofCode (w / 1 % 4)).bind fun z => some (.ld (fld w 4194304 4) (fld w 32768 7) (fld w 512 6) (fld w 4 7) z)

/-- Major 0x21. -/
def decodeMajor21 (w : Nat) : Option Instr :=
  (NSize.ofCode (w / 1 % 4)).bind fun z => some (.ldn (fld w 4194304 4) (fld w 32768 7) (fld w 512 6) (fld w 4 7) z)

/-- Major 0x22. -/
def decodeMajor22 (w : Nat) : Option Instr :=
  (MSize.ofCode (w / 1 % 4)).bind fun z => some (.st (fld w 4194304 4) (fld w 32768 7) (fld w 512 6) (fld w 4 7) z)

/-- Major 0x23. -/
def decodeMajor23 (w : Nat) : Option Instr :=
  (NSize.ofCode (w / 1 % 4)).bind fun z => some (.stn (fld w 4194304 4) (fld w 32768 7) (fld w 512 6) (fld w 4 7) z)

/-- Major 0x24. -/
def decodeMajor24 (w : Nat) : Option Instr :=
  match w / 128 % 8 with
  | 0 => some (.ldsW (fld w 4194304 4) (fld w 65536 6) (fld w 1024 6) (fld w 1 7))
  | 1 => some (.ldsD (fld w 4194304 4) (fld w 65536 6) (fld w 1024 6) (fld w 1 7))
  | 2 => some (.stsW (fld w 4194304 4) (fld w 65536 6) (fld w 1024 6) (fld w 1 7))
  | 3 => some (.stsD (fld w 4194304 4) (fld w 65536 6) (fld w 1024 6) (fld w 1 7))
  | 4 => some (.ldsN8 (fld w 4194304 4) (fld w 65536 6) (fld w 1024 6) (fld w 1 7))
  | 5 => some (.ldsN16 (fld w 4194304 4) (fld w 65536 6) (fld w 1024 6) (fld w 1 7))
  | 6 => some (.stsB8 (fld w 4194304 4) (fld w 65536 6) (fld w 1024 6) (fld w 1 7))
  | 7 => some (.stsH16 (fld w 4194304 4) (fld w 65536 6) (fld w 1024 6) (fld w 1 7))
  | _ => none

/-- Major 0x25. -/
def decodeMajor25 (w : Nat) : Option Instr :=
  match w % 32 with
  | 0 => some (.ldh (fld w 4194304 4) (fld w 32768 7) (fld w 4096 3) (fld w 32 7))
  | 1 => some (.sth (fld w 4194304 4) (fld w 32768 7) (fld w 4096 3) (fld w 32 7))
  | 2 => some (.spadd (fld w 4194304 4) (fld w 32768 7) (fld w 4096 3) (fld w 32 7))
  | 3 => if w / 2048 % 2 = 0 then some (.spiter (fld w 4194304 4) (fld w 32768 7) (fld w 4096 3) (fld w 32 6)) else none
  | 4 => some (.sphas (fld w 4194304 4) (fld w 32768 7) (fld w 4096 3) (fld w 32 7))
  | _ => none

/-- Major 0x26. -/
def decodeMajor26 (w : Nat) : Option Instr :=
  (AtomOp.ofCode (w / 16 % 16)).bind fun o => (Sem.ofCode (w / 4 % 4)).bind fun e => (Scope.ofCode (w / 1 % 4)).bind fun c => some (.atom (fld w 4194304 4) (fld w 32768 7) (fld w 256 7) o e c)

/-- Major 0x27. -/
def decodeMajor27 (w : Nat) : Option Instr :=
  if w / 2097152 % 2 = 0 then (AtomOp.ofCode (w / 16 % 16)).bind fun o => (Sem.ofCode (w / 4 % 4)).bind fun e => (Scope.ofCode (w / 1 % 4)).bind fun c => some (.satom (fld w 4194304 4) (fld w 32768 6) (bitf w 16384) (fld w 256 6) o e c) else none

/-- Major 0x28. -/
def decodeMajor28 (w : Nat) : Option Instr :=
  match w / 4194304 % 16 with
  | 0 => if w / 1 % 1024 = 0 then some (.wait (fld w 262144 4) (fld w 1024 8)) else none
  | 1 => if w / 1 % 64 = 0 then some (.waita (fld w 64 16)) else none
  | 2 => some (.yield (fld w 262144 4) (fld w 1024 8) (fld w 1 10))
  | 3 => if w / 1 % 1048576 = 0 then (Scope.ofCode (w / 1048576 % 4)).bind fun s => some (.phase s) else none
  | 4 => if w / 1 % 512 = 0 then some (.mwait (fld w 65536 6) (fld w 1024 6) (bitf w 512)) else none
  | 5 => if w / 1 % 1024 = 0 then some (.bari (fld w 65536 6) (fld w 1024 6)) else none
  | 6 => if w / 1 % 65536 = 0 then some (.bara (fld w 65536 6)) else none
  | 7 => if w / 1 % 65536 = 0 then some (.barw (fld w 65536 6)) else none
  | _ => none

/-- Major 0x29. -/
def decodeMajor29 (w : Nat) : Option Instr :=
  match w / 4194304 % 16 with
  | 0 => if w / 1 % 512 = 0 then some (.kcopy (fld w 262144 4) (fld w 4096 6) (fld w 512 3)) else none
  | 1 => if w / 1 % 32 = 0 then some (.kgath (fld w 262144 4) (fld w 4096 6) (fld w 32 7)) else none
  | 2 => if w / 1 % 32 = 0 then some (.kscat (fld w 262144 4) (fld w 4096 6) (fld w 32 7)) else none
  | 3 => if w / 1 % 64 = 0 then some (.kpos (fld w 262144 4) (fld w 4096 6) (fld w 64 6)) else none
  | 4 => if w / 1 % 4096 = 0 then some (.kstop (fld w 262144 4) (fld w 4096 6)) else none
  | _ => none

/-- Major 0x2A. -/
def decodeMajor2A (w : Nat) : Option Instr :=
  match w / 4194304 % 16 with
  | 0 => some (.wwr (fld w 262144 4) (fld w 4096 6) (fld w 64 6) (fld w 1 6))
  | 1 => if w / 1 % 64 = 0 then some (.wsig (fld w 262144 4) (fld w 4096 6) (fld w 64 6)) else none
  | 2 => if w / 1 % 32 = 0 then some (.wcnt (fld w 262144 4) (fld w 4096 6) (fld w 64 6) (bitf w 32)) else none
  | 3 => if w / 1 % 512 = 0 then some (.wwt (fld w 65536 6) (fld w 1024 6) (bitf w 512)) else none
  | _ => none

/-- Major 0x30. -/
def decodeMajor30 (w : Nat) : Option Instr :=
  match w / 16777216 % 4 with
  | 0 => some (.mma (fld w 1048576 4) (fld w 16384 6) (fld w 128 7) (fld w 1 7))
  | 1 => some (.mmaz (fld w 1048576 4) (fld w 16384 6) (fld w 128 7) (fld w 1 7))
  | 2 => some (.mman (fld w 1048576 4) (fld w 16384 6) (fld w 128 7) (fld w 1 7))
  | _ => none

/-- Major 0x31. -/
def decodeMajor31 (w : Nat) : Option Instr :=
  match w / 4194304 % 16 with
  | 0 => if w / 1 % 4096 = 0 then some (.aclr (fld w 262144 4) (fld w 4096 6)) else none
  | 1 => if w / 1 % 16 = 0 then some (.acvt (fld w 262144 4) (fld w 4096 6) (fld w 32 7) (bitf w 16)) else none
  | 2 => if w / 1 % 4 = 0 then (Fmt.ofCode (w / 4 % 8)).bind fun f => some (.abq (fld w 262144 4) (fld w 4096 6) (fld w 32 7) f) else none
  | 3 => if w / 1 % 64 = 0 then some (.ast (fld w 262144 4) (fld w 4096 6) (fld w 64 6)) else none
  | 4 => if w / 1 % 64 = 0 then some (.ald (fld w 262144 4) (fld w 4096 6) (fld w 64 6)) else none
  | 5 => if w / 1 % 64 = 0 then some (.amrg (fld w 262144 4) (fld w 4096 6) (fld w 64 6)) else none
  | 6 => if w / 4096 % 64 = 0 then some (.ami (fld w 262144 4) (fld w 64 6) (fld w 1 6)) else none
  | 7 => if w / 1 % 64 = 0 then some (.aexp (fld w 262144 4) (fld w 4096 6) (fld w 64 6)) else none
  | _ => none

/-- Major 0x32. -/
def decodeMajor32 (w : Nat) : Option Instr :=
  match w / 4194304 % 16 with
  | 0 => if w / 1 % 32 = 0 then (Fmt.ofCode (w / 32 % 8)).bind fun f => some (.bqnt (fld w 32768 7) (fld w 256 7) f) else none
  | 1 => if w / 1 % 256 = 0 then some (.bdeq (fld w 32768 7) (fld w 256 7)) else none
  | 2 => if w / 1 % 256 = 0 then some (.bhdr (fld w 32768 7) (fld w 256 7)) else none
  | _ => none

/-- Major 0x33. -/
def decodeMajor33 (w : Nat) : Option Instr :=
  match w / 4194304 % 16 with
  | 0 => some (.tapb (fld w 65536 6) (fld w 1024 6) (fld w 16 6) (fld w 1 4))
  | 1 => if w / 16 % 64 = 0 then some (.fsel (fld w 65536 6) (fld w 1024 6) (fld w 1 4)) else none
  | 2 => if w / 16 % 16 = 0 then some (.tapr (fld w 262144 4) (fld w 16384 4) (fld w 256 6) (fld w 1 4)) else none
  | 3 => some (.tape (fld w 65536 6) (fld w 1024 6) (fld w 16 6) (fld w 1 4))
  | 4 => if w / 1 % 1024 = 0 then some (.tapl (fld w 65536 6) (fld w 1024 6)) else none
  | 5 => if w / 1 % 16 = 0 then some (.taph (fld w 65536 6) (fld w 1024 6) (fld w 16 6)) else none
  | _ => none

/-- Major 0x34. -/
def decodeMajor34 (w : Nat) : Option Instr :=
  match w / 4194304 % 16 with
  | 0 => if w / 1 % 8 = 0 then some (.sample (fld w 65536 6) (fld w 512 7) (fld w 8 6)) else none
  | 1 => if w / 1 % 4 = 0 then some (.topk (fld w 32768 7) (fld w 256 7) (fld w 4 6)) else none
  | 2 => some (.mergek (fld w 262144 4) (fld w 4096 6) (fld w 64 6) (fld w 1 6))
  | 3 => if w / 1 % 4 = 0 then some (.rngu (fld w 32768 7) (fld w 256 7) (fld w 4 6)) else none
  | _ => none

/-- Major 0x35. -/
def decodeMajor35 (w : Nat) : Option Instr :=
  match w / 4194304 % 16 with
  | 0 => if w / 1 % 8 = 0 then some (.lblget (fld w 65536 6) (fld w 512 7) (fld w 8 6)) else none
  | 1 => if w / 1 % 1024 = 0 then some (.lbls (fld w 65536 6) (fld w 1024 6)) else none
  | 2 => if w / 1 % 32 = 0 then some (.lblt (fld w 262144 4) (fld w 2048 7) (fld w 32 6)) else none
  | _ => none

/-- Major 0x36. -/
def decodeMajor36 (w : Nat) : Option Instr :=
  match w / 4194304 % 16 with
  | 0 => if w / 1 % 256 = 0 then some (.srd (fld w 65536 6) (fld w 256 8)) else none
  | 1 => if w / 1 % 256 = 0 then some (.swr (fld w 65536 6) (fld w 256 8)) else none
  | 2 => if w / 1 % 1024 = 0 then some (.gprd (fld w 65536 6) (fld w 1024 6)) else none
  | 3 => if w / 1 % 1024 = 0 then some (.gpwr (fld w 65536 6) (fld w 1024 6)) else none
  | 4 => if w / 1 % 128 = 0 then some (.spext (fld w 524288 3) (fld w 8192 6) (fld w 128 6)) else none
  | 5 => if w / 1 % 256 = 0 then (InvlKind.ofCode (w / 1048576 % 4)).bind fun k => some (.invl k (fld w 16384 6) (fld w 256 6)) else none
  | 6 => if w / 1 % 32768 = 0 then some (.icinv (fld w 65536 6) (bitf w 32768)) else none
  | _ => none

/-- Major 0x3E. -/
def decodeMajor3E (w : Nat) : Option Instr :=
  match w / 4194304 % 16 with
  | 0 => some (.imm (fld w 1 22))
  | 1 => if w / 16 % 262144 = 0 then some (.run (fld w 1 4)) else none
  | 2 => some (.livev (fld w 65536 6) (fld w 1 16))
  | 3 => if w / 65536 % 8 = 0 then some (.lives (fld w 524288 3) (fld w 1 16)) else none
  | 4 => some (.livep (fld w 256 14) (fld w 1 8))
  | 5 => if w / 1 % 4194304 = 0 then some (.region) else none
  | 6 => some (.off (fld w 1 22))
  | 7 => if w / 128 % 32768 = 0 then (CachePol.ofCode (w / 32 % 4)).bind fun p => (Rounding.ofCode (w / 1 % 16)).bind fun r => some (.mod p (bitf w 16) r) else none
  | 8 => if w / 8 % 524288 = 0 then some (.prio (fld w 1 3)) else none
  | _ => none

/-- The instruction of a word by its fields alone, before the checks of Instr.wf. -/
def decodeFields (w : Nat) : Option Instr :=
  match w / 67108864 % 64 with
  | 0 => decodeMajor00 w
  | 1 => decodeMajor01 w
  | 2 => decodeMajor02 w
  | 3 => decodeMajor03 w
  | 4 => decodeMajor04 w
  | 5 => decodeMajor05 w
  | 6 => decodeMajor06 w
  | 8 => decodeMajor08 w
  | 9 => decodeMajor09 w
  | 10 => decodeMajor0A w
  | 11 => decodeMajor0B w
  | 12 => decodeMajor0C w
  | 13 => decodeMajor0D w
  | 14 => decodeMajor0E w
  | 15 => decodeMajor0F w
  | 16 => decodeMajor10 w
  | 17 => decodeMajor11 w
  | 18 => decodeMajor12 w
  | 19 => decodeMajor13 w
  | 20 => decodeMajor14 w
  | 21 => decodeMajor15 w
  | 22 => decodeMajor16 w
  | 23 => decodeMajor17 w
  | 24 => decodeMajor18 w
  | 25 => decodeMajor19 w
  | 26 => decodeMajor1A w
  | 27 => decodeMajor1B w
  | 32 => decodeMajor20 w
  | 33 => decodeMajor21 w
  | 34 => decodeMajor22 w
  | 35 => decodeMajor23 w
  | 36 => decodeMajor24 w
  | 37 => decodeMajor25 w
  | 38 => decodeMajor26 w
  | 39 => decodeMajor27 w
  | 40 => decodeMajor28 w
  | 41 => decodeMajor29 w
  | 42 => decodeMajor2A w
  | 48 => decodeMajor30 w
  | 49 => decodeMajor31 w
  | 50 => decodeMajor32 w
  | 51 => decodeMajor33 w
  | 52 => decodeMajor34 w
  | 53 => decodeMajor35 w
  | 54 => decodeMajor36 w
  | 62 => decodeMajor3E w
  | _ => none

/-- Decode one word (R232, R243): none is the illegal instruction. -/
def decodeWord (w : Nat) : Option Instr :=
  if w < 4294967296 then
    match decodeFields w with
    | some i => if i.wf then some i else none
    | none => none
  else none

/-- A little-endian word from its bytes (R231). -/
def wordOfBytes : List Byte → Nat
  | [] => 0
  | b :: r => b.toNat + 256 * wordOfBytes r

/-- The n bytes of a value, lowest first (R37). -/
def bytesOfNat : Nat → Nat → List Byte
  | 0, _ => []
  | n + 1, v => BitVec.ofNat 8 v :: bytesOfNat n (v / 256)

/-- The decoder: one instruction from four bytes and the rest of the list (R231). -/
def decode (l : List Byte) : Option (Instr × List Byte) :=
  match l with
  | a :: b :: c :: d :: r =>
    match decodeWord (wordOfBytes [a, b, c, d]) with
    | some i => some (i, r)
    | none => none
  | _ => none

/-- The bytes of an instruction word of the opcode table, as stored: every Jarsal instruction is four bytes, and bits the table
does not give are 0. -/
def tableBytes (_nbits w : Nat) : List Byte := bytesOfNat 4 w

/-- What the decoder reads from the word w numbered as the opcode table numbers it. -/
def decodeTableWord (nbits w : Nat) : Option Instr :=
  match decode (tableBytes nbits w) with
  | some (i, _) => some i
  | none => none

/-- The value of a one-bit field. -/
def bitCode (b : Bool) : Nat := if b then 1 else 0

/-- The word of an instruction (R234-R242); none for an operation that has no word. -/
def encode : Instr → Option Nat
  | .nop => some (0)
  | .dly n => some (4194304 + n.toNat)
  | .br o => some (67108864 + o.toNat)
  | .bcc c o => some (134217728 + c.code * 4194304 + o.toNat)
  | .bkz k o => some (201326592 + k.toNat * 2097152 + o.toNat)
  | .bknz k o => some (234881024 + k.toNat * 2097152 + o.toNat)
  | .call o => some (268435456 + o.toNat)
  | .ret => some (335544320)
  | .jmpr a => some (339738624 + a.toNat * 65536)
  | .callr a => some (343932928 + a.toNat * 65536)
  | .exit => some (348127232)
  | .trap c => some (352321536 + c.toNat)
  | .brk => some (356515840)
  | .reth => some (360710144)
  | .callg q v s => some (364904448 + q.toNat * 262144 + v.toNat * 2048 + s.toNat * 32)
  | .sadd f d a b => some (402653184 + bitCode f * 524288 + d.toNat * 4096 + a.toNat * 64 + b.toNat)
  | .ssub f d a b => some (403701760 + bitCode f * 524288 + d.toNat * 4096 + a.toNat * 64 + b.toNat)
  | .smul f d a b => some (404750336 + bitCode f * 524288 + d.toNat * 4096 + a.toNat * 64 + b.toNat)
  | .smulh f d a b => some (405798912 + bitCode f * 524288 + d.toNat * 4096 + a.toNat * 64 + b.toNat)
  | .smulhn f d a b => some (406847488 + bitCode f * 524288 + d.toNat * 4096 + a.toNat * 64 + b.toNat)
  | .sand f d a b => some (407896064 + bitCode f * 524288 + d.toNat * 4096 + a.toNat * 64 + b.toNat)
  | .sor f d a b => some (408944640 + bitCode f * 524288 + d.toNat * 4096 + a.toNat * 64 + b.toNat)
  | .sxor f d a b => some (409993216 + bitCode f * 524288 + d.toNat * 4096 + a.toNat * 64 + b.toNat)
  | .sandn f d a b => some (411041792 + bitCode f * 524288 + d.toNat * 4096 + a.toNat * 64 + b.toNat)
  | .sshl f d a b => some (412090368 + bitCode f * 524288 + d.toNat * 4096 + a.toNat * 64 + b.toNat)
  | .sshr f d a b => some (413138944 + bitCode f * 524288 + d.toNat * 4096 + a.toNat * 64 + b.toNat)
  | .ssra f d a b => some (414187520 + bitCode f * 524288 + d.toNat * 4096 + a.toNat * 64 + b.toNat)
  | .smin f d a b => some (415236096 + bitCode f * 524288 + d.toNat * 4096 + a.toNat * 64 + b.toNat)
  | .smax f d a b => some (416284672 + bitCode f * 524288 + d.toNat * 4096 + a.toNat * 64 + b.toNat)
  | .sminn f d a b => some (417333248 + bitCode f * 524288 + d.toNat * 4096 + a.toNat * 64 + b.toNat)
  | .smaxn f d a b => some (418381824 + bitCode f * 524288 + d.toNat * 4096 + a.toNat * 64 + b.toNat)
  | .scmp a b => some (420212736 + a.toNat * 64 + b.toNat)
  | .spopc f d a => some (420478976 + bitCode f * 524288 + d.toNat * 4096 + a.toNat * 64)
  | .sclz f d a => some (421527552 + bitCode f * 524288 + d.toNat * 4096 + a.toNat * 64)
  | .sctz f d a => some (422576128 + bitCode f * 524288 + d.toNat * 4096 + a.toNat * 64)
  | .saddi d a i => some (536870912 + d.toNat * 1048576 + a.toNat * 16384 + i.toNat)
  | .sandi d a i => some (603979776 + d.toNat * 1048576 + a.toNat * 16384 + i.toNat)
  | .sori d a i => some (671088640 + d.toNat * 1048576 + a.toNat * 16384 + i.toNat)
  | .sxori d a i => some (738197504 + d.toNat * 1048576 + a.toNat * 16384 + i.toNat)
  | .sshi d a k n => some (805306368 + d.toNat * 1048576 + a.toNat * 16384 + k.code * 4096 + n.toNat)
  | .scmpi a i => some (938475520 + a.toNat * 16384 + i.toNat)
  | .slui d i => some (939524096 + d.toNat * 1048576 + i.toNat)
  | .smuli d a i => some (1006632960 + d.toNat * 1048576 + a.toNat * 16384 + i.toNat)
  | .vadd n d a b => some (1073741824 + bitCode n * 2097152 + d.toNat * 16384 + a.toNat * 128 + b.toNat)
  | .vsub n d a b => some (1077936128 + bitCode n * 2097152 + d.toNat * 16384 + a.toNat * 128 + b.toNat)
  | .vmul n d a b => some (1082130432 + bitCode n * 2097152 + d.toNat * 16384 + a.toNat * 128 + b.toNat)
  | .vmulh n d a b => some (1086324736 + bitCode n * 2097152 + d.toNat * 16384 + a.toNat * 128 + b.toNat)
  | .vmulhn n d a b => some (1090519040 + bitCode n * 2097152 + d.toNat * 16384 + a.toNat * 128 + b.toNat)
  | .vmad n d a b => some (1094713344 + bitCode n * 2097152 + d.toNat * 16384 + a.toNat * 128 + b.toNat)
  | .vand n d a b => some (1098907648 + bitCode n * 2097152 + d.toNat * 16384 + a.toNat * 128 + b.toNat)
  | .vor n d a b => some (1103101952 + bitCode n * 2097152 + d.toNat * 16384 + a.toNat * 128 + b.toNat)
  | .vxor n d a b => some (1107296256 + bitCode n * 2097152 + d.toNat * 16384 + a.toNat * 128 + b.toNat)
  | .vandn n d a b => some (1111490560 + bitCode n * 2097152 + d.toNat * 16384 + a.toNat * 128 + b.toNat)
  | .vshl n d a b => some (1115684864 + bitCode n * 2097152 + d.toNat * 16384 + a.toNat * 128 + b.toNat)
  | .vshr n d a b => some (1119879168 + bitCode n * 2097152 + d.toNat * 16384 + a.toNat * 128 + b.toNat)
  | .vsra n d a b => some (1124073472 + bitCode n * 2097152 + d.toNat * 16384 + a.toNat * 128 + b.toNat)
  | .vmin n d a b => some (1128267776 + bitCode n * 2097152 + d.toNat * 16384 + a.toNat * 128 + b.toNat)
  | .vmax n d a b => some (1132462080 + bitCode n * 2097152 + d.toNat * 16384 + a.toNat * 128 + b.toNat)
  | .vabs n d a => some (1136656384 + bitCode n * 2097152 + d.toNat * 16384 + a.toNat * 128)
  | .vminn n d a b => some (1140850688 + bitCode n * 2097152 + d.toNat * 16384 + a.toNat * 128 + b.toNat)
  | .vmaxn n d a b => some (1145044992 + bitCode n * 2097152 + d.toNat * 16384 + a.toNat * 128 + b.toNat)
  | .vaddsat n d a b => some (1149239296 + bitCode n * 2097152 + d.toNat * 16384 + a.toNat * 128 + b.toNat)
  | .vsubsat n d a b => some (1153433600 + bitCode n * 2097152 + d.toNat * 16384 + a.toNat * 128 + b.toNat)
  | .vpopc n d a => some (1157627904 + bitCode n * 2097152 + d.toNat * 16384 + a.toNat * 128)
  | .vclz n d a => some (1161822208 + bitCode n * 2097152 + d.toNat * 16384 + a.toNat * 128)
  | .vlane n d => some (1166016512 + bitCode n * 2097152 + d.toNat * 16384)
  | .vbrev n d a => some (1170210816 + bitCode n * 2097152 + d.toNat * 16384 + a.toNat * 128)
  | .fadd n d a b => some (1207959552 + bitCode n * 2097152 + d.toNat * 16384 + a.toNat * 128 + b.toNat)
  | .fsub n d a b => some (1212153856 + bitCode n * 2097152 + d.toNat * 16384 + a.toNat * 128 + b.toNat)
  | .fmul n d a b => some (1216348160 + bitCode n * 2097152 + d.toNat * 16384 + a.toNat * 128 + b.toNat)
  | .ffma n d a b => some (1220542464 + bitCode n * 2097152 + d.toNat * 16384 + a.toNat * 128 + b.toNat)
  | .fmin n d a b => some (1224736768 + bitCode n * 2097152 + d.toNat * 16384 + a.toNat * 128 + b.toNat)
  | .fmax n d a b => some (1228931072 + bitCode n * 2097152 + d.toNat * 16384 + a.toNat * 128 + b.toNat)
  | .fabs n d a => some (1233125376 + bitCode n * 2097152 + d.toNat * 16384 + a.toNat * 128)
  | .fneg n d a => some (1237319680 + bitCode n * 2097152 + d.toNat * 16384 + a.toNat * 128)
  | .frcp n d a => some (1241513984 + bitCode n * 2097152 + d.toNat * 16384 + a.toNat * 128)
  | .frsq n d a => some (1245708288 + bitCode n * 2097152 + d.toNat * 16384 + a.toNat * 128)
  | .fexp2 n d a => some (1249902592 + bitCode n * 2097152 + d.toNat * 16384 + a.toNat * 128)
  | .flog2 n d a => some (1254096896 + bitCode n * 2097152 + d.toNat * 16384 + a.toNat * 128)
  | .ffloor n d a => some (1258291200 + bitCode n * 2097152 + d.toNat * 16384 + a.toNat * 128)
  | .ffrac n d a => some (1262485504 + bitCode n * 2097152 + d.toNat * 16384 + a.toNat * 128)
  | .badd2 n d a b => some (1275068416 + bitCode n * 2097152 + d.toNat * 16384 + a.toNat * 128 + b.toNat)
  | .bmul2 n d a b => some (1279262720 + bitCode n * 2097152 + d.toNat * 16384 + a.toNat * 128 + b.toNat)
  | .bfma2 n d a b => some (1283457024 + bitCode n * 2097152 + d.toNat * 16384 + a.toNat * 128 + b.toNat)
  | .bmax2 n d a b => some (1287651328 + bitCode n * 2097152 + d.toNat * 16384 + a.toNat * 128 + b.toNat)
  | .cvtF32I32 n d a => some (1342177280 + bitCode n * 2097152 + d.toNat * 16384 + a.toNat * 128)
  | .cvtF32N32 n d a => some (1346371584 + bitCode n * 2097152 + d.toNat * 16384 + a.toNat * 128)
  | .cvtI32F32 n d a => some (1350565888 + bitCode n * 2097152 + d.toNat * 16384 + a.toNat * 128)
  | .cvtN32F32 n d a => some (1354760192 + bitCode n * 2097152 + d.toNat * 16384 + a.toNat * 128)
  | .cvtBf2F32 n d a b => some (1358954496 + bitCode n * 2097152 + d.toNat * 16384 + a.toNat * 128 + b.toNat)
  | .cvtF32Bfl n d a => some (1363148800 + bitCode n * 2097152 + d.toNat * 16384 + a.toNat * 128)
  | .cvtF32Bfh n d a => some (1367343104 + bitCode n * 2097152 + d.toNat * 16384 + a.toNat * 128)
  | .vcmp c k t a b => some (1409286144 + c.code * 4194304 + k.toNat * 262144 + t.code * 32768 + a.toNat * 128 + b.toNat)
  | .vsel k n d a b => some (1476395008 + k.toNat * 4194304 + bitCode n * 2097152 + d.toNat * 16384 + a.toNat * 128 + b.toNat)
  | .vaddi n d a i => some (1543503872 + bitCode n * 2097152 + d.toNat * 16384 + a.toNat * 128 + i.toNat)
  | .vmuli n d a i => some (1547698176 + bitCode n * 2097152 + d.toNat * 16384 + a.toNat * 128 + i.toNat)
  | .vandi n d a i => some (1551892480 + bitCode n * 2097152 + d.toNat * 16384 + a.toNat * 128 + i.toNat)
  | .vori n d a i => some (1556086784 + bitCode n * 2097152 + d.toNat * 16384 + a.toNat * 128 + i.toNat)
  | .vxori n d a i => some (1560281088 + bitCode n * 2097152 + d.toNat * 16384 + a.toNat * 128 + i.toNat)
  | .vshli n d a s => some (1564475392 + bitCode n * 2097152 + d.toNat * 16384 + a.toNat * 128 + s.toNat)
  | .vshri n d a s => some (1568669696 + bitCode n * 2097152 + d.toNat * 16384 + a.toNat * 128 + s.toNat)
  | .vsrai n d a s => some (1572864000 + bitCode n * 2097152 + d.toNat * 16384 + a.toNat * 128 + s.toNat)
  | .vmovi n d i => some (1577058304 + bitCode n * 2097152 + d.toNat * 16384 + i.toNat)
  | .vmini n d a i => some (1581252608 + bitCode n * 2097152 + d.toNat * 16384 + a.toNat * 128 + i.toNat)
  | .vmaxi n d a i => some (1585446912 + bitCode n * 2097152 + d.toNat * 16384 + a.toNat * 128 + i.toNat)
  | .vadds n d a s => some (1610612736 + bitCode n * 2097152 + d.toNat * 16384 + a.toNat * 128 + s.toNat)
  | .vsubs n d a s => some (1614807040 + bitCode n * 2097152 + d.toNat * 16384 + a.toNat * 128 + s.toNat)
  | .vmuls n d a s => some (1619001344 + bitCode n * 2097152 + d.toNat * 16384 + a.toNat * 128 + s.toNat)
  | .fadds n d a s => some (1623195648 + bitCode n * 2097152 + d.toNat * 16384 + a.toNat * 128 + s.toNat)
  | .fmuls n d a s => some (1627389952 + bitCode n * 2097152 + d.toNat * 16384 + a.toNat * 128 + s.toNat)
  | .ffmas n d a s => some (1631584256 + bitCode n * 2097152 + d.toNat * 16384 + a.toNat * 128 + s.toNat)
  | .vmovs n d s => some (1635778560 + bitCode n * 2097152 + d.toNat * 16384 + s.toNat)
  | .vshls n d a s => some (1639972864 + bitCode n * 2097152 + d.toNat * 16384 + a.toNat * 128 + s.toNat)
  | .shfl n d a b => some (1677721600 + bitCode n * 2097152 + d.toNat * 16384 + a.toNat * 128 + b.toNat)
  | .shflx n d a b => some (1681915904 + bitCode n * 2097152 + d.toNat * 16384 + a.toNat * 128 + b.toNat)
  | .shflu n d a b => some (1686110208 + bitCode n * 2097152 + d.toNat * 16384 + a.toNat * 128 + b.toNat)
  | .shfld n d a b => some (1690304512 + bitCode n * 2097152 + d.toNat * 16384 + a.toNat * 128 + b.toNat)
  | .scani n d a => some (1694498816 + bitCode n * 2097152 + d.toNat * 16384 + a.toNat * 128)
  | .scanf n d a => some (1698693120 + bitCode n * 2097152 + d.toNat * 16384 + a.toNat * 128)
  | .redi n d a => some (1702887424 + bitCode n * 2097152 + d.toNat * 16384 + a.toNat * 128)
  | .redf n d a => some (1707081728 + bitCode n * 2097152 + d.toNat * 16384 + a.toNat * 128)
  | .redmaxf n d a => some (1711276032 + bitCode n * 2097152 + d.toNat * 16384 + a.toNat * 128)
  | .redminf n d a => some (1715470336 + bitCode n * 2097152 + d.toNat * 16384 + a.toNat * 128)
  | .cnfl n d a => some (1719664640 + bitCode n * 2097152 + d.toNat * 16384 + a.toNat * 128)
  | .kand d a b => some (1744830464 + d.toNat * 262144 + a.toNat * 16384 + b.toNat * 1024)
  | .kor d a b => some (1749024768 + d.toNat * 262144 + a.toNat * 16384 + b.toNat * 1024)
  | .kxor d a b => some (1753219072 + d.toNat * 262144 + a.toNat * 16384 + b.toNat * 1024)
  | .kandn d a b => some (1757413376 + d.toNat * 262144 + a.toNat * 16384 + b.toNat * 1024)
  | .knot d a => some (1761607680 + d.toNat * 262144 + a.toNat * 16384)
  | .kmov d a => some (1765801984 + d.toNat * 262144 + a.toNat * 16384)
  | .kall d => some (1769996288 + d.toNat * 262144)
  | .kfirst d a => some (1774190592 + d.toNat * 262144 + a.toNat * 16384)
  | .kgany d a => some (1778384896 + d.toNat * 262144 + a.toNat * 16384)
  | .kzero d => some (1782579200 + d.toNat * 262144)
  | .kcnt a s => some (1786773504 + a.toNat * 16384 + s.toNat * 16)
  | .ktos k s w => some (1811939328 + k.toNat * 262144 + s.toNat * 4096 + w.toNat * 128)
  | .stok k s w => some (1816133632 + k.toNat * 262144 + s.toNat * 4096 + w.toNat * 128)
  | .ld q v b i z => some (2147483648 + q.toNat * 4194304 + v.toNat * 32768 + b.toNat * 512 + i.toNat * 4 + z.code)
  | .ldn q v b i z => some (2214592512 + q.toNat * 4194304 + v.toNat * 32768 + b.toNat * 512 + i.toNat * 4 + z.code)
  | .st q v b i z => some (2281701376 + q.toNat * 4194304 + v.toNat * 32768 + b.toNat * 512 + i.toNat * 4 + z.code)
  | .stn q v b i z => some (2348810240 + q.toNat * 4194304 + v.toNat * 32768 + b.toNat * 512 + i.toNat * 4 + z.code)
  | .ldsW q d b o => some (2415919104 + q.toNat * 4194304 + d.toNat * 65536 + b.toNat * 1024 + o.toNat)
  | .ldsD q d b o => some (2415919232 + q.toNat * 4194304 + d.toNat * 65536 + b.toNat * 1024 + o.toNat)
  | .stsW q d b o => some (2415919360 + q.toNat * 4194304 + d.toNat * 65536 + b.toNat * 1024 + o.toNat)
  | .stsD q d b o => some (2415919488 + q.toNat * 4194304 + d.toNat * 65536 + b.toNat * 1024 + o.toNat)
  | .ldsN8 q d b o => some (2415919616 + q.toNat * 4194304 + d.toNat * 65536 + b.toNat * 1024 + o.toNat)
  | .ldsN16 q d b o => some (2415919744 + q.toNat * 4194304 + d.toNat * 65536 + b.toNat * 1024 + o.toNat)
  | .stsB8 q d b o => some (2415919872 + q.toNat * 4194304 + d.toNat * 65536 + b.toNat * 1024 + o.toNat)
  | .stsH16 q d b o => some (2415920000 + q.toNat * 4194304 + d.toNat * 65536 + b.toNat * 1024 + o.toNat)
  | .ldh q v h c => some (2483027968 + q.toNat * 4194304 + v.toNat * 32768 + h.toNat * 4096 + c.toNat * 32)
  | .sth q v h c => some (2483027969 + q.toNat * 4194304 + v.toNat * 32768 + h.toNat * 4096 + c.toNat * 32)
  | .spadd q v h c => some (2483027970 + q.toNat * 4194304 + v.toNat * 32768 + h.toNat * 4096 + c.toNat * 32)
  | .spiter q v h s => some (2483027971 + q.toNat * 4194304 + v.toNat * 32768 + h.toNat * 4096 + s.toNat * 32)
  | .sphas q v h c => some (2483027972 + q.toNat * 4194304 + v.toNat * 32768 + h.toNat * 4096 + c.toNat * 32)
  | .atom q d a o e c => some (2550136832 + q.toNat * 4194304 + d.toNat * 32768 + a.toNat * 256 + o.code * 16 + e.code * 4 + c.code)
  | .satom q d z a o e c => some (2617245696 + q.toNat * 4194304 + d.toNat * 32768 + bitCode z * 16384 + a.toNat * 256 + o.code * 16 + e.code * 4 + c.code)
  | .wait q t => some (2684354560 + q.toNat * 262144 + t.toNat * 1024)
  | .waita b => some (2688548864 + b.toNat * 64)
  | .yield q t o => some (2692743168 + q.toNat * 262144 + t.toNat * 1024 + o.toNat)
  | .phase s => some (2696937472 + s.code * 1048576)
  | .mwait a b z => some (2701131776 + a.toNat * 65536 + b.toNat * 1024 + bitCode z * 512)
  | .bari a b => some (2705326080 + a.toNat * 65536 + b.toNat * 1024)
  | .bara a => some (2709520384 + a.toNat * 65536)
  | .barw a => some (2713714688 + a.toNat * 65536)
  | .kcopy q s h => some (2751463424 + q.toNat * 262144 + s.toNat * 4096 + h.toNat * 512)
  | .kgath q s v => some (2755657728 + q.toNat * 262144 + s.toNat * 4096 + v.toNat * 32)
  | .kscat q s v => some (2759852032 + q.toNat * 262144 + s.toNat * 4096 + v.toNat * 32)
  | .kpos q d a => some (2764046336 + q.toNat * 262144 + d.toNat * 4096 + a.toNat * 64)
  | .kstop q a => some (2768240640 + q.toNat * 262144 + a.toNat * 4096)
  | .wwr q a b c => some (2818572288 + q.toNat * 262144 + a.toNat * 4096 + b.toNat * 64 + c.toNat)
  | .wsig q a b => some (2822766592 + q.toNat * 262144 + a.toNat * 4096 + b.toNat * 64)
  | .wcnt q d a r => some (2826960896 + q.toNat * 262144 + d.toNat * 4096 + a.toNat * 64 + bitCode r * 32)
  | .wwt a b r => some (2831155200 + a.toNat * 65536 + b.toNat * 1024 + bitCode r * 512)
  | .mma q t a b => some (3221225472 + q.toNat * 1048576 + t.toNat * 16384 + a.toNat * 128 + b.toNat)
  | .mmaz q t a b => some (3238002688 + q.toNat * 1048576 + t.toNat * 16384 + a.toNat * 128 + b.toNat)
  | .mman q t a b => some (3254779904 + q.toNat * 1048576 + t.toNat * 16384 + a.toNat * 128 + b.toNat)
  | .aclr q t => some (3288334336 + q.toNat * 262144 + t.toNat * 4096)
  | .acvt q t d f => some (3292528640 + q.toNat * 262144 + t.toNat * 4096 + d.toNat * 32 + bitCode f * 16)
  | .abq q t d f => some (3296722944 + q.toNat * 262144 + t.toNat * 4096 + d.toNat * 32 + f.code * 4)
  | .ast q t a => some (3300917248 + q.toNat * 262144 + t.toNat * 4096 + a.toNat * 64)
  | .ald q t a => some (3305111552 + q.toNat * 262144 + t.toNat * 4096 + a.toNat * 64)
  | .amrg q t a => some (3309305856 + q.toNat * 262144 + t.toNat * 4096 + a.toNat * 64)
  | .ami q a b => some (3313500160 + q.toNat * 262144 + a.toNat * 64 + b.toNat)
  | .aexp q t d => some (3317694464 + q.toNat * 262144 + t.toNat * 4096 + d.toNat * 64)
  | .bqnt d a f => some (3355443200 + d.toNat * 32768 + a.toNat * 256 + f.code * 32)
  | .bdeq d a => some (3359637504 + d.toNat * 32768 + a.toNat * 256)
  | .bhdr d a => some (3363831808 + d.toNat * 32768 + a.toNat * 256)
  | .tapb a b c q => some (3422552064 + a.toNat * 65536 + b.toNat * 1024 + c.toNat * 16 + q.toNat)
  | .fsel t a q => some (3426746368 + t.toNat * 65536 + a.toNat * 1024 + q.toNat)
  | .tapr d r s q => some (3430940672 + d.toNat * 262144 + r.toNat * 16384 + s.toNat * 256 + q.toNat)
  | .tape a b c q => some (3435134976 + a.toNat * 65536 + b.toNat * 1024 + c.toNat * 16 + q.toNat)
  | .tapl a b => some (3439329280 + a.toNat * 65536 + b.toNat * 1024)
  | .taph d a b => some (3443523584 + d.toNat * 65536 + a.toNat * 1024 + b.toNat * 16)
  | .sample d a b => some (3489660928 + d.toNat * 65536 + a.toNat * 512 + b.toNat * 8)
  | .topk d a s => some (3493855232 + d.toNat * 32768 + a.toNat * 256 + s.toNat * 4)
  | .mergek q a b c => some (3498049536 + q.toNat * 262144 + a.toNat * 4096 + b.toNat * 64 + c.toNat)
  | .rngu d a b => some (3502243840 + d.toNat * 32768 + a.toNat * 256 + b.toNat * 4)
  | .lblget d a b => some (3556769792 + d.toNat * 65536 + a.toNat * 512 + b.toNat * 8)
  | .lbls d a => some (3560964096 + d.toNat * 65536 + a.toNat * 1024)
  | .lblt k a b => some (3565158400 + k.toNat * 262144 + a.toNat * 2048 + b.toNat * 32)
  | .srd d n => some (3623878656 + d.toNat * 65536 + n.toNat * 256)
  | .swr a n => some (3628072960 + a.toNat * 65536 + n.toNat * 256)
  | .gprd d n => some (3632267264 + d.toNat * 65536 + n.toNat * 1024)
  | .gpwr a n => some (3636461568 + a.toNat * 65536 + n.toNat * 1024)
  | .spext h a b => some (3640655872 + h.toNat * 524288 + a.toNat * 8192 + b.toNat * 128)
  | .invl k a b => some (3644850176 + k.code * 1048576 + a.toNat * 16384 + b.toNat * 256)
  | .icinv a l => some (3649044480 + a.toNat * 65536 + bitCode l * 32768)
  | .imm v => some (4160749568 + v.toNat)
  | .run n => some (4164943872 + n.toNat)
  | .livev g b => some (4169138176 + g.toNat * 65536 + b.toNat)
  | .lives c b => some (4173332480 + c.toNat * 524288 + b.toNat)
  | .livep s c => some (4177526784 + s.toNat * 256 + c.toNat)
  | .region => some (4181721088)
  | .off n => some (4185915392 + n.toNat)
  | .mod p t r => some (4190109696 + p.code * 32 + bitCode t * 16 + r.code)
  | .prio c => some (4194304000 + c.toNat)
  | .dlyEnd => none
  | .teamExitComplete => none
  | .callRecordPost => none
  | .callgReply => none
  | .waitSatisfied => none
  | .yieldReactivate => none
  | .phaseReleaseDone => none
  | .mwaitWake => none
  | .barwRelease => none
  | .kuduIteration => none
  | .kuduCommandComplete => none
  | .streamResume => none
  | .wwtRelease => none
  | .senderCounterAdvance => none
  | .windowWriteArrival => none
  | .wsigArrival => none
  | .matrixOperation => none
  | .mergeTileApply => none
  | .fselFeed => none
  | .taprEvaluation => none
  | .tapeEvaluation => none
  | .mergekComplete => none
  | .invlComplete => none
  | .icinvComplete => none
  | .pairLinkExchange => none
  | .loadCompletion => none
  | .storePerformed => none
  | .atomicPerformed => none
  | .arborOperation => none
  | .pageWalk => none
  | .translationFaultResolve => none
  | .migrationStart => none
  | .migrationEnd => none
  | .teamCreate => none
  | .compaction => none
  | .activeSetEviction => none
  | .progressSwap => none
  | .save => none
  | .fullSave => none
  | .teamRestore => none
  | .trapEntry => none
  | .graphReplayStart => none
  | .kernelNodeStart => none
  | .commitNode => none
  | .doorbellTailWrite => none
  | .registerWrite => none
  | .hostReadBar4 => none
  | .hostWriteBar4 => none
  | .launch => none
  | .replay => none
  | .patch => none
  | .copy => none
  | .fill => none
  | .signal => none
  | .waitv => none
  | .waitvMatch => none
  | .invlPageCommand => none
  | .invlAsidCommand => none
  | .invlPartitionCommand => none
  | .qset => none
  | .partCreate => none
  | .partHalt => none
  | .partReset => none
  | .fmap => none
  | .origin => none
  | .policy => none
  | .clear => none
  | .clearComplete => none
  | .spnew => none
  | .graph => none
  | .windowRegister => none
  | .windowDeregister => none
  | .peer => none
  | .peerBindComplete => none
  | .samplerEnable => none
  | .samplerDisable => none
  | .samplerTick => none
  | .queryPartition => none
  | .queryQuote => none
  | .restore => none
  | .map => none
  | .fwload => none
  | .halt => none
  | .resume => none
  | .dumpOneTeam => none
  | .dumpEveryTeam => none
  | .dbgset => none
  | .errlog => none
  | .throttle => none
  | .frzN => none
  | .freeze => none
  | .thaw => none
  | .debugPortAccess => none
  | .packageReset => none
  | .linkDown => none
  | .matrixSelfTest => none
  | .powerControl => none
  | .patrolScrub => none
  | .softError => none
  | .hostMemoryWrite => none
  | .partitionResetComplete => none

/-- The bytes of an instruction word. -/
def encodeBytes (i : Instr) : Option (List Byte) := (encode i).map (bytesOfNat 4)

/-- The host command of a queue entry (R152, R353, R354, R364): code, and the byte of the operands that tells apart the rows of
one code (INVL kind, PART operation, WINDOW operation, SAMPLER interval, QUERY kind, DUMP kind). -/
def decodeCommand (code sub : Nat) : Option Instr :=
  match code with
  | 0x01 => some .launch | 0x02 => some .replay | 0x03 => some .patch | 0x04 => some .copy
  | 0x05 => some .fill | 0x06 => some .signal | 0x07 => some .waitv
  | 0x08 => match sub with
    | 0 => some .invlPageCommand | 1 => some .invlAsidCommand | 2 => some .invlPartitionCommand | _ => none
  | 0x40 => some .qset
  | 0x41 => match sub with
    | 0 => some .partCreate | 1 => some .partHalt | 2 => some .partReset | _ => none
  | 0x42 => some .fmap | 0x43 => some .origin | 0x44 => some .policy | 0x45 => some .clear
  | 0x46 => some .spnew | 0x47 => some .graph
  | 0x48 => match sub with
    | 0 => some .windowRegister | 1 => some .windowDeregister | _ => none
  | 0x49 => some .peer
  | 0x4A => match sub with
    | 0 => some .samplerDisable | _ => some .samplerEnable
  | 0x4B => match sub with
    | 0 => some .queryPartition | 1 => some .queryQuote | _ => none
  | 0x4C => some .restore | 0x4D => some .map | 0x4E => some .fwload
  | 0x50 => some .halt | 0x51 => some .resume
  | 0x52 => match sub with
    | 0 => some .dumpOneTeam | 1 => some .dumpEveryTeam | _ => none
  | 0x53 => some .dbgset | 0x54 => some .errlog | 0x55 => some .throttle
  | _ => none

end Sys2Proof
end

