-- ==== Sys2Proof/Machine/Memory.lean ====
section
/-! DEFINITION. Physical memory, the core caches over it, and translation (R85-R96, R126-R138). -/
namespace Sys2Proof.Machine

/-- What a byte that nothing has written reads as (entry 3). -/
def memDefault : Byte := 0

/-- One byte of physical memory, as its home holds it. -/
def memGet (m : List Host.Cell) (pa : Nat) : Byte := mget memDefault m pa

/-- Write one byte at its home. -/
def memSet (m : List Host.Cell) (pa : Nat) (b : Byte) : List Host.Cell := mset memDefault m pa b

/-- The canonical form of memory. -/
def Memory.wf (m : List Host.Cell) : Bool := mwf memDefault m

/-- n bytes from pa, lowest first. -/
def memBytes (m : List Host.Cell) (pa : Nat) : Nat → List Byte
  | 0 => []
  | n + 1 => memGet m pa :: memBytes m (pa + 1) n

/-- A little-endian number from bytes (R37). -/
def leNat : List Byte → Nat
  | [] => 0
  | b :: r => b.toNat + 256 * leNat r

/-- The n bytes of a number, lowest first. -/
def leBytes : Nat → Nat → List Byte
  | 0, _ => []
  | n + 1, v => BitVec.ofNat 8 v :: leBytes n (v / 256)

/-- n bytes at pa as a number. -/
def memNat (m : List Host.Cell) (pa n : Nat) : Nat := leNat (memBytes m pa n)

/-- A physical address of host memory. -/
def paIsHost (pa : Nat) : Bool := decide (2 ^ 40 ≤ pa)

/-- Core c of the package. -/
def Dev.core (d : Dev) (c : Nat) : Core := mget {} d.cores c
/-- Change core c. -/
def Dev.updCore (d : Dev) (c : Nat) (f : Core → Core) : Dev := { d with cores := mins d.cores c (f (mget {} d.cores c)) }

/-- One byte takes its home's next value; what it was is kept with the number and the agent of this write (R141). A byte that has only ever
been what is written now keeps nothing: no read of it can tell. -/
def putByte (self : Writer) (d : Dev) (pa : Nat) (b : Byte) : Dev :=
  let old := memGet d.mem pa
  let h := mget [] d.hist pa
  if old = b ∧ h.isEmpty then d else { d with mem := memSet d.mem pa b, hist := mins d.hist pa ((d.wn, self, old) :: h) }

/-- Bytes upwards from pa. -/
def putBytes (self : Writer) : Dev → Nat → List Byte → Dev
  | d, _, [] => d
  | d, pa, b :: r => putBytes self (putByte self d pa b) (pa + 1) r

/-- A write takes the next number in the order of writes (R141). -/
def nextWrite (d : Dev) : Dev := { d with wn := d.wn + 1 }

/-- Write bytes upwards from pa at home, as one write (R92, R141, R145). -/
def devSetBytes (self : Writer) (d : Dev) (pa : Nat) (bs : List Byte) : Dev := putBytes self (nextWrite d) pa bs

/-- A full write of a 64-bit protection unit clears its error (R105). -/
def clearUnits (d : Dev) (pa n : Nat) : Dev :=
  match d.badU with
  | [] => d
  | l => { d with badU := l.filter fun u => !(decide (pa ≤ 8 * u) && decide (8 * u + 8 ≤ pa + n)) }

/-- Whether an uncorrectable unit meets pa..pa+n-1 (R105). -/
def badAt (d : Dev) (pa n : Nat) : Bool := d.badU.any fun u => decide (8 * u < pa + n) && decide (pa < 8 * u + 8)

/-- Whether a write of n bytes at pa meets an uncorrectable unit that it does not cover (R106). -/
def badNarrow (d : Dev) (pa n : Nat) : Bool :=
  d.badU.any fun u => decide (8 * u < pa + n) && decide (pa < 8 * u + 8) && !(decide (pa ≤ 8 * u) && decide (8 * u + 8 ≤ pa + n))

/-- Write n bytes of a number at pa. -/
def devSetNat (self : Writer) (d : Dev) (pa n v : Nat) : Dev := clearUnits (devSetBytes self d pa (leBytes n v)) pa n

/-! ### What reads return (R92, R93, R142) -/

/-- A byte as of write number w, from its older values. -/
def asOf (cur : Byte) (w : Nat) : List (Nat × Writer × Byte) → Byte
  | [] => cur
  | (n, _, b) :: r => if w < n then asOf b w r else cur

/-- Whether an agent lies in package scope, as a writer of host memory or of device memory (R140). -/
def Writer.inPackage (host : Bool) : Writer → Bool
  | .peer => false
  | .host => !host
  | _ => true

/-- Whether an agent is a team or an engine of some of the cores cs (R140). -/
def Writer.onCores (cs : List Nat) : Writer → Bool
  | .team _ _ ws => ws.any cs.contains
  | .engine _ _ _ ws => ws.any cs.contains
  | _ => false

/-- Whether operation n of team key, on the cores cs, returns write w of an agent or a later one (R142): (a) its team's earlier stores, engine
writes whose token the team has waited, and what the operation itself has written (R181, R282); (c) what its team's latest acquire of each scope covers. -/
def Bound.covers (b : Bound) (key n : Nat) (cs : List Nat) (host : Bool) (w : Nat) (x : Writer) : Bool :=
  decide (w ≤ b.sys) || (decide (w ≤ b.pkg) && x.inPackage host) || (decide (w ≤ b.core) && x.onCores cs) ||
  match x with
  | .team k o _ => k == key && decide (o < n)
  | .engine k q o _ => k == key && (decide (o ≤ mget 0 b.waited q) || o == n)
  | _ => false

/-- The same for Limamon's reads (R142). -/
def Dev.limCovers (d : Dev) (host : Bool) (w : Nat) (x : Writer) : Bool :=
  decide (w ≤ d.limSys) || (decide (w ≤ d.limAcq) && x.inPackage host) || x == .limamon

/-- The newest write of a byte's that a reader returns or goes beyond. -/
def latestOf (covers : Nat → Writer → Bool) (h : List (Nat × Writer × Byte)) : Nat :=
  h.foldl (fun m x => if covers x.1 x.2.1 then max m x.1 else m) 0

/-- As of which write unit u of n bytes from pa is read: not before what the reader covers, nor before what it has seen; free beyond (R142). -/
def readTime (d : Dev) (covers : Bool → Nat → Writer → Bool) (seen : Nat → Nat) (unit pa n u : Nat) : Nat :=
  let lo := max pa (u * unit)
  let low := (upFrom lo (min (pa + n) ((u + 1) * unit) - lo)).foldl (fun m a => max m (max (seen a) (latestOf (covers (paIsHost a)) (mget [] d.hist a)))) 0
  low + Config.free d.free (2 ^ 80 + u) % (d.wn + 1 - low)

/-- The bytes of pa.. as a read returns them, each unit of so many bytes as of one write (R142, R166). -/
def boundedBytes (d : Dev) (covers : Bool → Nat → Writer → Bool) (seen : Nat → Nat) (unit pa n : Nat) : List Byte :=
  match d.hist with
  | [] => memBytes d.mem pa n
  | h => (upFrom pa n).map fun a => asOf (memGet d.mem a) (readTime d covers seen unit pa n (a / unit)) (mget [] h a)

/-- What loads of some cores have seen of a byte (R142 (b)). -/
def Dev.seenBy (d : Dev) (cs : List Nat) (a : Nat) : Nat := cs.foldl (fun m c => max m (mget 0 (d.core c).seen a)) 0

/-- Loads of some cores have returned n bytes from pa, each as of write f: of those that have been anything else it is noted (R142 (b)). -/
def noteSeen (f : Nat → Nat) (cs : List Nat) (pa n : Nat) (d : Dev) : Dev :=
  match d.hist with
  | [] => d
  | h => ((upFrom pa n).filter fun a => !(mget [] h a).isEmpty).foldl (fun d a =>
      cs.foldl (fun d c => d.updCore c fun k => { k with seen := mins k.seen a (max (f a) (mget 0 k.seen a)) }) d) d

/-- Sets of an L1, and of each its ways (R92). -/
def l1Sets : Nat := 640
def l1Ways : Nat := 8
/-- Lines of an instruction cache (R1). -/
def icLines : Nat := 1024

/-- A load uses or allocates a line of a set whose lines are listed last used first: into the least recently used way, which stream leaves so (R93,
entry 8). -/
def touchLine (pol : CachePol) (line : Nat) (set : List Nat) : List Nat :=
  if set.contains line then line :: set.filter (· != line)
  else if pol = .stream then set.take (l1Ways - 1) ++ [line]
  else line :: set.take (l1Ways - 1)

/-- A load of core c through its L1 uses a line (R92, R93). -/
def useLine (pol : CachePol) (line c : Nat) (d : Dev) : Dev :=
  d.updCore c fun k => { k with l1 := mupd [] k.l1 (line % l1Sets) (touchLine pol line) }

/-- List line `line` of an instruction cache as filled now. Past the capacity one other line goes, which is free (R92: the order of replacement is
open). -/
def fillLine (d : Dev) (cap line : Nat) (m : SMap Nat) : SMap Nat :=
  let m1 := mdel m line
  mins (if cap ≤ m1.length then mdel m1 (nthD (0, 0) m1 (Config.free d.free (2 ^ 81 + line) % m1.length)).1 else m1) line d.wn

/-- What Limamon reads (R142). -/
def limamonBytes (d : Dev) (pa n : Nat) : List Byte := boundedBytes d d.limCovers (fun _ => 0) 8 pa n

/-- Drop every L1 line of a core (R92, R140). -/
def dropL1 (d : Dev) (c : Nat) : Dev := d.updCore c fun k => { k with l1 := [] }

/-- The instruction-cache lines a scope of ICINV names leave core k (R322). -/
def dropIc (line : Option Nat) (k : Core) : Core :=
  match line with
  | none => { k with ic := [] }
  | some a => { k with ic := mdel k.ic a }

/-- Fetch four bytes for core c through its instruction cache (R232): a changed word reads as it was or as it is until ICINV. -/
def fetchBytes (d : Dev) (c pa : Nat) : Nat × Dev :=
  match mfind (d.core c).ic (pa / 128) with
  | some w => (leNat (boundedBytes d (fun _ n _ => decide (n ≤ w)) (fun _ => 0) 8 pa 4), d)
  | none => (memNat d.mem pa 4, d.updCore c fun k => { k with ic := fillLine d icLines (pa / 128) k.ic })

/-- A frame's bytes belong to another location from now on: its older values are nobody's (R126, R132). -/
def forgetFrame (d : Dev) (pf : Nat) : Dev := { d with hist := d.hist.filter fun p => p.1 / 65536 != pf }

/-! ### Translation -/

/-- The guest frame number, and frame-table entry index, of a LINK (R126): stack t, frame f is 2^20 t + f, host frame f is 2^23 + f;
none ends the walk (R127; entry 25). -/
def linkEnt (l : BitVec 32) : Option Nat :=
  let t := l.toNat / 2 ^ 28
  let f := l.toNat % 2 ^ 28
  if t < 8 then (if f < 2 ^ 20 then some (t * 2 ^ 20 + f) else none)
  else if t = 8 then (if f < 2 ^ 24 then some (2 ^ 23 + f) else none)
  else none

/-- The LINK of a frame-table entry. -/
def entLink (e : Nat) : BitVec 32 :=
  if e < 2 ^ 23 then BitVec.ofNat 32 (e / 2 ^ 20 * 2 ^ 28 + e % 2 ^ 20) else BitVec.ofNat 32 (8 * 2 ^ 28 + (e - 2 ^ 23))

/-- The frame-table entry of guest frame g in the first stage of a partition: each partition has its own inverted table and anchors (R135;
entry 37). -/
def entOf (part g : Nat) : Nat := part * 2 ^ 26 + g
/-- The guest frame of an entry. -/
def guestOf (e : Nat) : Nat := e % 2 ^ 26

/-- H of a lookup key (R127). -/
def walkHash (part asid vpn : Nat) : Nat :=
  let k := part * 2 ^ 57 + asid * 2 ^ 41 + vpn
  (k ^^^ (k / 2 ^ 23) ^^^ (k / 2 ^ 46)) % 2 ^ 23

/-- What a walk ends in. -/
inductive Walk where
  | hit (ent : Nat)
  | miss
  | limit
deriving DecidableEq, Repr

def Dev.frame (d : Dev) (e : Nat) : Frame := mget {} d.frames e

/-- Whether an entry matches the key (R127). -/
def Frame.isFor (f : Frame) (part asid vpn : Nat) : Bool :=
  f.v && f.part.toNat == part && f.asid.toNat == asid && f.vpn.toNat == vpn

/-- Follow links; n more entries may be read (R127, R128). -/
def walkGo (fr : SMap Frame) (part asid vpn : Nat) : Nat → BitVec 32 → Walk
  | 0, l => match linkEnt l with | none => .miss | some _ => .limit
  | n + 1, l =>
    match linkEnt l with
    | none => .miss
    | some g =>
      let e := entOf part g
      let f := mget {} fr e
      if f.isFor part asid vpn then .hit e else if n = 0 then .limit else walkGo fr part asid vpn n f.link

/-- The anchor H of a partition's tables. -/
def anchorOf (part h : Nat) : Nat := part * 2 ^ 23 + h

/-- An anchor that nothing has written ends its chain (entry 5). -/
def anchorDefault : BitVec 32 := 0xFFFFFFFF

/-- The walk of a lookup key: the 17th entry read without a match is the limit. -/
def walk (fw : Fw) (d : Dev) (part asid vpn : Nat) : Walk :=
  walkGo d.frames part asid vpn 17 (mget anchorDefault fw.anchors (anchorOf part (walkHash part asid vpn)))

/-- An extent holds a guest frame. -/
def Extent.holds (x : Extent) (g : Nat) : Bool := decide (x.gbase.toNat ≤ g) && decide (g < x.gbase.toNat + x.count.toNat)

/-- The extent of a partition's frame map that holds the guest frame of an entry (R135). -/
def extentOf (fw : Fw) (part e : Nat) : Option (Nat × Extent) :=
  (upFrom (part * 64) 64).findSome? fun i => if (mget {} fw.fmaps i).holds (guestOf e) then some (i, mget {} fw.fmaps i) else none

/-- Second stage of the guest frame of an entry through an extent. The manual does not say what an extent names whose frames run past the last frame of
the stacks or of host memory: it is taken as it stands, on into host frames, and its host frame numbers wrap modulo 2^25 (entry 25). -/
def stage2 (x : Extent) (e : Nat) : Nat := (x.hbase.toNat + (guestOf e - x.gbase.toNat)) % 2 ^ 25

/-- The combined translation from entry e through extent x (R129, R135). -/
def combine (d : Dev) (part asid vpn e : Nat) (x : Nat × Extent) : TlbEnt :=
  let f := d.frame e
  { part, asid, vpn, pf := stage2 x.2 e, cls := f.cls, mi := f.mi, perm := f.perm, sperm := x.2.perm, ceil := f.ceil, ent := e, ext := x.1 }

/-- The extent that a pending frame-map change of partition part replaced, when it still covers the guest frame of an entry (R136, R137). -/
def oldExtent (d : Dev) (part e : Nat) : Option (Nat × Extent) :=
  d.cmds.findSome? fun c => match c.wait with
    | .fmap i x => if i / 64 == part && x.holds (guestOf e) then some (i, x) else none
    | _ => none

/-- What a virtual address needs of its page. -/
inductive Access where
  | bytes | described | merge | node | readout | plain
deriving DecidableEq, Repr

/-- Rights an access needs (R130): read, write, execute, engine; `dev`: host memory is refused as by its class (R279, R287); `firm`: it is
Limamon's own, which no move of the page holds up (entry 38). -/
structure Need where
  r : Bool := false
  w : Bool := false
  x : Bool := false
  e : Bool := false
  cls : Access := .bytes
  dev : Bool := false
  firm : Bool := false
deriving DecidableEq, Repr

/-- The same for an access of Limamon's own. -/
def Need.own (n : Need) : Need := { n with firm := true }

/-- What translating an address comes to. -/
inductive Xl where
  | ok (t : TlbEnt)
  | refused (reason : Nat) (cls : Nat)
  | missing (reason : Nat)
deriving DecidableEq, Repr

/-- The permission bits R W X E of an access. -/
def Need.bits (n : Need) : BitVec 4 :=
  (if n.r then 8 else 0) ||| (if n.w then 4 else 0) ||| (if n.x then 2 else 0) ||| (if n.e then 1 else 0)

/-- Whether the region class accepts the access (R88, R98): a reason, 0 refused by class, 5 for a write to a merge page. -/
def classRefuses (n : Need) (t : TlbEnt) : Option Nat :=
  if n.dev && decide (2 ^ 24 ≤ t.pf) then some 0 else
  match n.cls with
  | .bytes => if t.cls = 2 then some 0 else if t.mi && n.w then some 5 else none
  | .described => if t.cls = 1 then (if t.mi && n.w then some 5 else none) else some 0
  | .plain => if t.cls = 0 then (if t.mi && n.w then some 5 else none) else some 0
  | .merge => if t.cls = 0 && t.mi then none else some 0
  | .node => if t.cls = 2 then none else some 0
  | .readout => if t.cls = 2 || t.mi || decide (2 ^ 24 ≤ t.pf) then some 0 else none

/-- The page of a translated address (R85): bits [56:16]. -/
def vpnOf (va : Dword) : Nat := va.toNat / 65536 % 2 ^ 41

/-- Canonical and outside the windows (R85). -/
def isTranslated (va : Dword) : Bool :=
  decide (va.toNat < 0x0100000000000000) || (decide (0xFF00000000000000 ≤ va.toNat) && decide (va.toNat < 0xFFFFF00000000000))
def inScratch (va : Dword) : Bool := decide (0xFFFFF00000000000 ≤ va.toNat) && decide (va.toNat < 0xFFFFF80000000000)
def inRegWin (va : Dword) : Bool := decide (0xFFFFF80000000000 ≤ va.toNat)

/-- Both stages walked afresh. -/
def freshXl (fw : Fw) (d : Dev) (part asid vpn : Nat) : Except Nat TlbEnt :=
  match walk fw d part asid vpn with
  | .miss => .error 1
  | .limit => .error 6
  | .hit e =>
    match extentOf fw part e, oldExtent d part e with
    | none, none => .error 4
    | some x, none => .ok (combine d part asid vpn e x)
    | none, some y => if Config.free d.free (vpn * 4 + 1) % 2 = 0 then .ok (combine d part asid vpn e y) else .error 4
    | some x, some y => .ok (combine d part asid vpn e (if x = y then x else if Config.free d.free (vpn * 4 + 1) % 2 = 0 then y else x))

/-- The cached translation of a page on core c. -/
def tlbFind (d : Dev) (c part asid vpn : Nat) : Option TlbEnt :=
  (d.core c).tlb.find? fun t => t.part == part && t.asid == asid && t.vpn == vpn

/-- The set of the TLB a page falls in (R129). -/
def tlbSet (asid vpn : Nat) : Nat := (vpn % 256) ^^^ (asid % 256)

/-- Whether two cached translations are of one page. -/
def TlbEnt.same (t u : TlbEnt) : Bool := u.part == t.part && u.asid == t.asid && u.vpn == t.vpn

/-- Enter a translation in core c's TLB: 256 sets of 8 ways; which entry of a full set goes is free (R129). -/
def tlbFill (d : Dev) (c : Nat) (t : TlbEnt) : Dev :=
  d.updCore c fun k =>
    let l := k.tlb.filter fun u => !(t.same u)
    let set := l.filter fun u => tlbSet u.asid u.vpn == tlbSet t.asid t.vpn
    { k with tlb := t :: if set.length < 8 then l else l.filter fun u => some u != (set.drop (Config.free d.free (2 ^ 82 + t.vpn) % 8)).head? }

/-- Of a cached translation t that a fresh walk does not give: fields of either where both name one entry (R130), else the old first stage with
the second stage as it is (R136). -/
def mixEnt (fw : Fw) (d : Dev) (part : Nat) (t : TlbEnt) (fresh : Except Nat TlbEnt) : TlbEnt :=
  match fresh.toOption.filter fun u => u.ent == t.ent with
  | some u =>
    let old := fun (n : Nat) => decide (Config.free d.free (t.vpn * 4 + 3 + n * 2 ^ 64) % 2 = 0)
    { t with pf := if old 0 then t.pf else u.pf, sperm := if old 0 then t.sperm else u.sperm, perm := if old 1 then t.perm else u.perm,
             ceil := if old 2 then t.ceil else u.ceil, cls := if old 3 then t.cls else u.cls, mi := if old 4 then t.mi else u.mi }
  | none => match extentOf fw part t.ent with
    | some x => { t with pf := stage2 x.2 t.ent, sperm := x.2.perm, ext := x.1 }
    | none => t

/-- Look a page up for core c (R129, R130, R137, R138): the TLB's entry, or a fresh walk, either where they differ, or fields of
both. -/
def lookup (fw : Fw) (d : Dev) (c part asid vpn : Nat) : Except Nat TlbEnt × Dev :=
  let fresh := freshXl fw d part asid vpn
  match tlbFind d c part asid vpn with
  | none => (fresh, match fresh with | .ok t => tlbFill d c t | .error _ => d)
  | some t =>
    if fresh.toOption = some t then (.ok t, d)
    else
      match Config.free d.free (vpn * 4 + 2) % 3 with
      | 0 => (.ok t, d)
      | 1 => (fresh, match fresh with | .ok u => tlbFill d c u | .error _ => d)
      | _ => (.ok (mixEnt fw d part t fresh), d)

/-- Whether a move holds an access up (R132). -/
def Need.held (n : Need) (mig : BitVec 3) : Bool := !n.firm && (mig == 2 || (mig == 1 && n.w))

/-- What a lookup gives an access with a need (R130, R132, R134); a refusal carries its reason and the page's class. -/
def judge (d : Dev) (n : Need) : Except Nat TlbEnt → Xl
  | .error r => .missing r
  | .ok t =>
    match classRefuses n t with
    | some r => .refused r t.cls.toNat
    | none =>
      if t.perm &&& t.sperm &&& n.bits ≠ n.bits then .refused 2 t.cls.toNat
      else if n.held (d.frame t.ent).mig then .missing 1 else .ok t

/-- What an untranslated address comes to: a window's, or one that is not canonical (R134). -/
def offMap (va : Dword) : Xl := .refused (if inScratch va || inRegWin va then 1 else 3) 0

/-- Translate for a need. -/
def translate (fw : Fw) (d : Dev) (c part : Nat) (n : Need) (va : Dword) : Xl × Dev :=
  if !isTranslated va then (offMap va, d)
  else let x := lookup fw d c part 0 (vpnOf va); (judge x.2 n x.1, x.2)

/-- The pages that an instruction has looked up so far: core, page, outcome (R129). -/
abbrev Pages := List ((Nat × Nat) × Except Nat TlbEnt)

/-- Translate for a need, a page that the instruction has looked up not again (R129). -/
def translateIn (fw : Fw) (ps : Pages) (d : Dev) (c part : Nat) (n : Need) (va : Dword) : Xl × Pages × Dev :=
  if !isTranslated va then (offMap va, ps, d)
  else match ps.find? fun p => p.1 == (c, vpnOf va) with
    | some p => (judge d n p.2, ps, d)
    | none => let x := lookup fw d c part 0 (vpnOf va); (judge x.2 n x.1, ((c, vpnOf va), x.1) :: ps, x.2)

/-- The physical address of va in a translated page. -/
def TlbEnt.pa (t : TlbEnt) (va : Dword) : Nat := t.pf * 65536 + va.toNat % 65536

/-- A page of host memory. -/
def TlbEnt.isHost (t : TlbEnt) : Bool := decide (2 ^ 24 ≤ t.pf)

/-- The home slice of a device address (R95, R98 for a merge page), or the pass-through slice of a host address (R96). -/
def homeSlice (mi : Bool) (pa : Nat) : Nat :=
  if paIsHost pa then pa / 65536 % 2 ^ 24 % 256
  else
    let f := pa / 65536 % 2 ^ 20
    let stack := pa / 2 ^ 36 % 8
    if mi then stack * 32 + (8 * (f % 4) + pa % 65536 / 8192) else stack * 32 + ((pa % 65536 / 2048) ^^^ (f % 32))

/-- Firmware's and engines' own address of a partition (ASID 0, R353), without a TLB. -/
def fwXl (fw : Fw) (d : Dev) (part : Nat) (n : Need) (va : Dword) : Xl := (translate fw { d with cores := [] } 512 part n va).1

/-- The pages a range of bytes touches, by their first address in it. -/
def pagesOf (va : Dword) (len : Nat) : List Dword :=
  if len = 0 then []
  else
    let first := va.toNat / 65536
    let last := (va.toNat + len - 1) / 65536
    va :: (upFrom (first + 1) (last - first)).map fun p => BitVec.ofNat 64 (p * 65536)

/-- Translate every page of a range; the first that fails decides. -/
def fwRange (fw : Fw) (d : Dev) (part : Nat) (n : Need) (va : Dword) (len : Nat) : Except (Dword × Nat) (List (Dword × TlbEnt)) :=
  (pagesOf va len).foldr (fun p acc =>
    match fwXl fw d part n p with
    | .ok t => acc.map fun l => (p, t) :: l
    | .refused r _ => .error (p, r)
    | .missing r => .error (p, r)) (.ok [])

/-- The physical address of an address within translated pages. -/
def rangePa (l : List (Dword × TlbEnt)) (va : Nat) : Nat :=
  match l.find? fun p => p.1.toNat / 65536 == va / 65536 % 2 ^ 48 with
  | some p => p.2.pf * 65536 + va % 65536
  | none => 0

/-- Read len bytes of a translated range at home. -/
def rangeHome (d : Dev) (l : List (Dword × TlbEnt)) (va len : Nat) : List Byte := (upFrom va len).map fun a => memGet d.mem (rangePa l a)

/-- Limamon's read of len bytes of a translated range (R142). -/
def rangeBytes (d : Dev) (l : List (Dword × TlbEnt)) (va len : Nat) : List Byte :=
  match d.hist with
  | [] => rangeHome d l va len
  | _ => (upFrom va len).flatMap fun a => limamonBytes d (rangePa l a) 1

/-- An address lies in a unit in error that va..va+len-1 does not cover (R106). -/
def rangeNarrow (d : Dev) (l : List (Dword × TlbEnt)) (va len a : Nat) : Bool :=
  d.badU.contains (rangePa l a / 8) && !(decide (va ≤ a / 8 * 8) && decide (a / 8 * 8 + 8 ≤ va + len))

/-- Write bytes into a translated range as one write, but for units in error that it does not cover (R106). -/
def rangeWrite (self : Writer) (d : Dev) (l : List (Dword × TlbEnt)) (va : Nat) (bs : List Byte) : Dev :=
  let d' := ((upFrom va bs.length).zip bs).foldl (fun d p =>
    if rangeNarrow d l va bs.length p.1 then d else putByte self d (rangePa l p.1) p.2) (nextWrite d)
  match d'.badU with
  | [] => d'
  | _ => ((upFrom va bs.length).filter fun a => a % 8 == 0 && decide (a + 8 ≤ va + bs.length)).foldl
      (fun d a => clearUnits d (rangePa l a) 8) d'

/-- The join of the current sets of the pages. -/
def rangeCur (d : Dev) (l : List (Dword × TlbEnt)) : OSet := l.foldl (fun s p => s ||| (d.frame p.2.ent).cur) 0

/-- Raise a page's current set (R101). -/
def raiseCur (d : Dev) (ent : Nat) (s : OSet) : Dev :=
  if s = 0 then d else { d with frames := mupd {} d.frames ent fun f => { f with cur := f.cur ||| s } }

/-- Raise the sets of every page of a range. -/
def rangeRaise (d : Dev) (l : List (Dword × TlbEnt)) (s : OSet) : Dev := l.foldl (fun d p => raiseCur d p.2.ent s) d

/-- Whether a set lies within every page's ceiling (R101). -/
def rangeAdmits (l : List (Dword × TlbEnt)) (s : OSet) : Bool := l.all fun p => s &&& ~~~p.2.ceil == 0

/-- Pin frames (R131). -/
def pinFrames (d : Dev) (es : List Nat) : Dev :=
  { d with frames := es.foldl (fun f e => mupd {} f e fun x => { x with pin := x.pin + 1 }) d.frames }
/-- Whether every frame can be pinned now (R131): not full and not migrating. -/
def canPin (d : Dev) (es : List Nat) : Bool := es.all fun e => (d.frame e).mig == 0 && decide ((d.frame e).pin.toNat < 65535)
/-- A page has been moved and its new entry is still to be written: every access to it is held up (R132), and Limamon, which is to write the entry, takes
up nothing else (entry 38). -/
def Dev.moved (d : Dev) : Bool := d.frames.any fun p => p.2.mig == 2

/-- Release pins. -/
def unpinFrames (d : Dev) (es : List Nat) : Dev :=
  { d with frames := es.foldl (fun f e => mupd {} f e fun x => { x with pin := x.pin - 1 }) d.frames }

end Sys2Proof.Machine
end

