-- ==== Sys2Proof/Machine/Ops.lean ====
section
/-! DEFINITION. The operations every meaning is written over: registers with their latencies, labels, records, taking a trap and
returning from one, tokens, waiting, and advancing to the next position. -/
namespace Sys2Proof.Machine

/-! ### The acting team -/

/-- Change the acting team. -/
def Dev.upd (d : Dev) (f : Team → Team) : Dev := { d with cur := f d.cur }
/-- Change the acting team's registers. -/
def Dev.updR (d : Dev) (f : Regs → Regs) : Dev := { d with cur := { d.cur with regs := f d.cur.regs } }
/-- Change the acting team's special registers. -/
def Dev.updS (d : Dev) (f : Special → Special) : Dev := { d with cur := { d.cur with sp := f d.cur.sp } }

/-- Team width (R8). -/
def Team.lanes (t : Team) : Nat := t.decl.lanes
/-- A paired team (R11). -/
def Team.paired (t : Team) : Bool := decide (512 < t.decl.lanes)
/-- The core of the half that holds lane l (R11). -/
def Team.coreOf (t : Team) (l : Nat) : Nat := if t.paired && decide (512 ≤ l) && decide (l < 1024) then t.core + 1 else t.core
/-- The half whose scratchpad run and tiles lane l reaches (R87, R292). -/
def Team.halfOf (t : Team) (l : Nat) : Nat := if t.paired && decide (512 ≤ l) && decide (l < 1024) then 1 else 0
/-- The cores a team runs on. -/
def Team.cores (t : Team) : List Nat := if t.paired then [t.core, t.core + 1] else [t.core]

/-- All lanes of a team of n lanes. -/
def allLanes (n : Nat) : Mask := BitVec.ofNat 1024 (2 ^ n - 1)
/-- The set lanes of a mask below n, ascending. -/
def maskLanes (n : Nat) (k : Mask) : List Nat := (upFrom 0 n).filter fun l => k.getLsbD l
/-- The mask of a list of lanes. -/
def lanesMask (l : List Nat) : Mask := l.foldl (fun m i => m ||| BitVec.ofNat 1024 (2 ^ i)) 0
/-- The lane number a scalar access is written with. -/
def scalarLane : Nat := 2048
/-- The k14 of a list of lanes: every team lane for a scalar access (R274). -/
def Team.laneMask (t : Team) (l : List Nat) : Mask := if l.contains scalarLane then allLanes t.decl.lanes else lanesMask l
/-- Word w of a mask (R12). -/
def maskWord (k : Mask) (w : Nat) : BitVec 32 := BitVec.ofNat 32 (k.toNat / 2 ^ (32 * w))
/-- A mask from its 32 words. -/
def ofWords (f : Nat → BitVec 32) : Mask := BitVec.ofNat 1024 ((upFrom 0 32).foldl (fun a w => a + (f w).toNat * 2 ^ (32 * w)) 0)
/-- The summary word (R12). -/
def maskSum (k : Mask) : BitVec 32 :=
  BitVec.ofNat 32 ((upFrom 0 32).foldl (fun a w => if maskWord k w = 0 then a else a + 2 ^ w) 0)

/-- A key of a place, for free choices. -/
def Loc.code : Loc → Nat
  | .v r l => 8 * (1024 * r + l)
  | .s r => 8 * r + 1
  | .k r => 8 * r + 2
  | .cc => 3
  | .spec n => 8 * n + 4

/-- The older values a read of a place may still return at this position (R22, R23, R32). -/
def Team.olds (t : Team) (l : Loc) : List Haz :=
  match t.haz with
  | [] => []
  | hs => hs.filter fun h => h.loc == l && (h.op != 0 || decide (t.pos < h.upto))

/-- Choose between the current value and older ones: free (R22). -/
def pick {α : Type} (fr key : Nat) (cur : α) : List α → α
  | [] => cur
  | l => nthD cur (cur :: l) (Config.free fr key % (l.length + 1))

/-- An operand number and a place as one key. -/
def slotKey (slot : Nat) (l : Loc) : Nat := slot * 2 ^ 24 + l.code

/-- The register lane as last written. -/
def Regs.lane (r : Regs) (v l : Nat) : LVal := mget {} r.v (1024 * v + l)

/-- Whether latch b_(n+1) may be read here (R27). -/
def Team.latchOk (t : Team) (n : Nat) : Bool :=
  let b := nthD {} t.regs.latches n
  t.runOpen && decide (t.pos ≤ t.runEnd) && b.run == t.runId && decide (b.ready ≤ t.pos) && b.run != 0

/-- A latch read (R27, R28): outside a valid run, zero or a value the team produced earlier. -/
def latchRead (d : Dev) (slot n l : Nat) : LVal :=
  let t := d.cur
  let b := nthD {} t.regs.latches n
  if t.latchOk n then mget {} b.lanes l
  else pick d.free (slotKey slot (.v (124 + n) l)) {} (t.regs.latches.flatMap fun x => x.lanes.map (·.2))

/-- Read lane l of a vector field (R65, R233). -/
def vread (d : Dev) (slot v l : Nat) : LVal :=
  if v = 127 then {}
  else if 124 ≤ v then latchRead d slot (v - 124) l
  else pick d.free (slotKey slot (.v v l)) (d.cur.regs.lane v l)
    ((d.cur.olds (.v v l)).map fun h => { val := BitVec.ofNat 32 h.old, lbl := h.lbl })

/-- Whether a latch field is read outside R27. -/
def badLatch (t : Team) (v : Nat) : Bool := decide (124 ≤ v) && decide (v < 127) && !t.latchOk (v - 124)

/-- Read a scalar field (R66). -/
def sread (d : Dev) (slot s : Nat) : SVal :=
  if s = 63 then {}
  else pick d.free (slotKey slot (.s s)) (mget {} d.cur.regs.s s)
    ((d.cur.olds (.s s)).map fun h => { val := BitVec.ofNat 64 h.old, lbl := h.lbl })

/-- Read a mask: each word old or new (R241). -/
def kread (d : Dev) (slot k : Nat) : Mask :=
  let cur := mget 0 d.cur.regs.k k
  match d.cur.olds (.k k) with
  | [] => cur
  | hs => ofWords fun w => pick d.free (slotKey slot (.k k) * 64 + w) (maskWord cur w) (hs.map fun h => maskWord (BitVec.ofNat 1024 h.old) w)

/-- Whether a mask reads as empty through its summary, seen whole (R248). -/
def kempty (d : Dev) (slot k : Nat) : Bool :=
  pick d.free (slotKey slot (.k k) * 64 + 33) (mget 0 d.cur.regs.k k == 0) (((d.cur.olds (.k k)).filter fun h => h.lbl == 0).map fun h => h.old == 0)

/-- The execution mask. -/
def Dev.k0 (d : Dev) : Mask := kread d 0 0
/-- Active lanes, ascending. -/
def Dev.act (d : Dev) : List Nat := maskLanes d.cur.lanes d.k0

/-- Codes as a number, for the list of older values. -/
def CC.toN (c : CC) : Nat := (if c.z then 8 else 0) + (if c.n then 4 else 0) + (if c.c then 2 else 0) + (if c.v then 1 else 0)
def CC.ofN (n : Nat) : CC := { z := n / 8 % 2 == 1, n := n / 4 % 2 == 1, c := n / 2 % 2 == 1, v := n % 2 == 1 }
/-- Read the condition codes. -/
def ccread (d : Dev) : CC := pick d.free (slotKey 0 .cc) d.cur.regs.cc ((d.cur.olds .cc).map fun h => CC.ofN h.old)

/-- A special register as a read sees it, given its current value (R318). -/
def specRead (d : Dev) (n : Nat) (cur : Nat) : Nat := pick d.free (slotKey 0 (.spec n)) cur ((d.cur.olds (.spec n)).map fun h => h.old)

/-- A scalar register or the condition codes, whose next value is read from the next position on (R248, R263). -/
def Loc.atOnce : Loc → Bool
  | .s _ => true
  | .cc => true
  | _ => false

/-- A fixed-latency write to a place at this position (R22, R23): for lat positions a read may still return what it replaces, and what was
readable there before; an operation that has landed there is overwritten (R32). A scalar or codes of latency 1 leave nothing older (R248, R263). -/
def Team.pushHaz (t : Team) (loc : Loc) (old : Nat) (lbl : Lbl) (lat : Nat) : Team :=
  let here := t.haz.filter fun h => h.loc == loc
  let rest := t.haz.filter fun h => h.loc != loc
  let upto := ((here.filter fun h => h.op == 0).map (·.upto)).foldl max (t.pos + lat)
  if upto ≤ t.pos + 1 || (loc.atOnce && decide (lat ≤ 1)) then { t with haz := rest }
  else { t with haz := { loc, old, lbl, upto, op := 0 } :: (here.map fun h => if h.op = 0 then h else { h with upto, op := 0 }) ++ rest }

/-- Lane l of register r lies among n bytes from byte b of lane l0 of register r0, in the order of the register window (R83). -/
def inRegRange (lanes r0 l0 b n r l : Nat) : Bool :=
  decide (r0 * lanes + l0 ≤ r * lanes + l) && decide (4 * (r * lanes + l) < 4 * (r0 * lanes + l0) + b + n)

/-- Whether an operation of a team of so many lanes will write a place; of a Kudu command's, whether it may: its rows are not all known (R283). -/
def OpKind.writes (lanes : Nat) : OpKind → Loc → Bool
  | .load (.regs v n) _ as, .v r l => decide (v ≤ r) && decide (r < v + n) && as.any (·.lane == l)
  | .load (.ext v _) _ as, .v r l => v == r && as.any (·.lane == l)
  | .load (.elem v _) _ as, .v r l => v == r && as.any (·.lane == l)
  | .load (.test v _) _ as, .v r l => v == r && as.any (·.lane == l)
  | .load (.scal sd) _ _, .s r => sd == r
  | .store as, .v r l => as.any fun a => !a.fin && (match a.tgt with | .reg r' l' b => inRegRange lanes r' l' b a.len r l | _ => false)
  | .kudu _, .v _ _ => true
  | .atomic _ (.regs v _) _ as, .v r l => v == r && as.any (·.lane == l)
  | .atomic _ (.scal sd) _ _, .s r => sd == r
  | .arbor o _ _ v _ ls, .v r l => o != .extend && o != .store && decide (v ≤ r) && decide (r < v + if o = .iter then 4 else 1) && ls.any (·.lane == l)
  | .arbor .iter _ _ _ sd _, .s r => sd == r
  | .kpos sd _, .s r => sd == r
  | .wcnt sd _ _, .s r => sd == r
  | .acc (.cvt vd bf) _ _ w rows, .v r l => decide (vd ≤ r) && decide (r < vd + if bf then 8 else 16) && l / 32 == w && rows.getLsbD (l % 32)
  | .acc (.blk vd _) _ _ w rows, .v r l => decide (vd ≤ r) && decide (r < vd + 16) && l / 32 == w && rows.getLsbD (l % 32)
  | .acc (.exp sd) _ _ _ _, .s r => sd == r
  | .tapr _ kd _ _ _ _, .k r => kd == r
  | .callg v _ m _ _, .v r l => (v == r || v + 1 == r) && m.getLsbD l
  | _, _ => false

/-- Whether a pending MMA still reads a register lane (R25, R295). -/
def OpKind.reads : OpKind → Loc → Bool
  | .mma _ _ va vb _ w rows _, .v r l =>
    l / 32 == w && ((decide (va ≤ r) && decide (r < va + 16) && rows.getLsbD (l % 32)) || (decide (vb ≤ r) && decide (r < vb + 8)))
  | _, _ => false

/-- A place is written while operations are pending (R32). -/
def Team.clobber (t : Team) (loc : Loc) : Team :=
  match t.ops with
  | [] => t
  | os => { t with ops := os.map fun o =>
      if o.done then o
      else { o with clob := if o.kind.writes t.lanes loc then loc :: o.clob else o.clob, dirty := o.dirty || o.kind.reads loc } }

/-- A register lane takes an operation's result while a pending MMA may still read it (R32). -/
def Team.spoil (t : Team) (loc : Loc) : Team :=
  match t.ops with
  | [] => t
  | os => { t with ops := os.map fun o => if o.done then o else { o with dirty := o.dirty || o.kind.reads loc } }

/-- A full write of a register lane clears its error (R105). -/
def Team.clearV (t : Team) (v l : Nat) : Team :=
  match t.badV with
  | [] => t
  | b => { t with badV := b.filter (· != 1024 * v + l) }

/-- Write a vector register lane; vz discards (R65). -/
def Team.vset (t : Team) (v l : Nat) (x : LVal) (lat : Nat) : Team :=
  if 124 ≤ v then t
  else
    let old := t.regs.lane v l
    let t1 := (t.pushHaz (.v v l) old.val.toNat old.lbl lat).clobber (.v v l)
    ({ t1 with regs := { t1.regs with v := mset {} t1.regs.v (1024 * v + l) x } } : Team).clearV v l

/-- Write a scalar register; sz discards (R66). -/
def Team.sset (t : Team) (s : Nat) (x : SVal) (lat : Nat) : Team :=
  if s = 63 then t
  else
    let old := mget {} t.regs.s s
    let t1 := (t.pushHaz (.s s) old.val.toNat old.lbl lat).clobber (.s s)
    { t1 with regs := { t1.regs with s := mset {} t1.regs.s s x } }

/-- Write a mask; lanes at or beyond the team width read 0 (R12). -/
def Team.kset (t : Team) (k : Nat) (m : Mask) (lat : Nat) : Team :=
  let t1 := (t.pushHaz (.k k) (mget 0 t.regs.k k).toNat 0 lat).clobber (.k k)
  { t1 with regs := { t1.regs with k := mset 0 t1.regs.k k (m &&& allLanes t.lanes) } }

/-- A mask with word w replaced. -/
def setWord (m : Mask) (w : Nat) (x : BitVec 32) : Mask := ofWords fun i => if i = w then x else maskWord m i

/-- Write word w of a mask (R265): the other words keep what a read of them may return, and until when. Of the mask's older values that word
stays readable for the new write's latency (label 1: no value that the whole mask has had). -/
def Team.kwset (t : Team) (k w : Nat) (x : BitVec 32) (lat : Nat) : Team :=
  let cur := mget 0 t.regs.k k
  let here := t.haz.filter fun h => h.loc == .k k
  let upto := ((here.filter fun h => h.op == 0).map (·.upto)).foldl max (t.pos + lat)
  let part := here.map fun h => { h with old := (setWord cur w (maskWord (BitVec.ofNat 1024 h.old) w)).toNat, lbl := 1, upto, op := 0 }
  let t1 := ({ t with haz := { loc := .k k, old := cur.toNat, lbl := 0, upto, op := 0 } :: part ++ t.haz } : Team).clobber (.k k)
  { t1 with regs := { t1.regs with k := mset 0 t1.regs.k k (setWord cur w x &&& allLanes t.lanes) } }

/-- Write the condition codes. -/
def Team.ccset (t : Team) (c : CC) (lat : Nat) : Team :=
  let t1 := t.pushHaz .cc t.regs.cc.toN 0 lat
  { t1 with regs := { t1.regs with cc := c } }

/-! ### Labels -/

/-- The origin set of a label index (R75). -/
def Team.org (t : Team) (i : Lbl) : OSet := if i = 0 then 0 else mget 0 t.regs.labels i.toNat

/-- The index of a set that the table holds. -/
def findLabel (labels : SMap OSet) (s : OSet) : Option Lbl :=
  if s = 0 then some 0 else ((upFrom 1 15).find? fun i => mget 0 labels i == s).map (BitVec.ofNat 4)

/-- The label index of a set: the entry that holds it, else the lowest empty one (R75); none when the table is full. -/
def allocLabel (labels : SMap OSet) (s : OSet) : Option (Lbl × SMap OSet) :=
  match findLabel labels s with
  | some i => some (i, labels)
  | none =>
    match (upFrom 1 15).find? fun i => mget 0 labels i == 0 with
    | some i => some (BitVec.ofNat 4 i, mset 0 labels i s)
    | none => none

/-- Allocate for lanes in ascending order (R75): the index of each lane, and the lanes and first set that found no entry. -/
def allocLanes (labels : SMap OSet) : List (Nat × OSet) → List (Nat × Lbl) × SMap OSet × List Nat × OSet
  | [] => ([], labels, [], 0)
  | (l, s) :: r =>
    match allocLabel labels s with
    | some (i, ls) => let (a, ls', f, fs) := allocLanes ls r; ((l, i) :: a, ls', f, fs)
    | none => let (a, ls', f, _) := allocLanes labels r; (a, ls', l :: f, s)

/-- The lanes that need a new set (R246): in their turn no entry holds it. -/
def needLanes (labels : SMap OSet) : List (Nat × OSet) → List Nat
  | [] => []
  | (l, s) :: r => match findLabel labels s with
    | some _ => needLanes labels r
    | none => l :: needLanes (match allocLabel labels s with | some p => p.2 | none => labels) r

/-! ### Sequence numbers and records -/

/-- A die's copy of the time base, as CLOCK reads it (R208). -/
def Dev.dieTime (d : Dev) (die : Nat) : BitVec 48 := if die == 0 then d.time else d.time + BitVec.ofNat 48 (Config.dieSkew % 3) - 1

/-- A sequence number of a unit (R78, R209); its TIME is that of the package's time base (R210, entry 4). -/
def newSeq (d : Dev) (unit : Nat) : Dword × Dev :=
  let n := mget 0 d.evn unit
  (BitVec.ofNat 64 (((d.time.toNat + n / 16) % 2 ^ 48) * 65536 + unit * 16 + n % 16), { d with evn := mins d.evn unit (n + 1) })

/-- The slot unit of a team (R209). -/
def Team.unit (t : Team) : Nat := t.core * 4 + t.slot

/-- A 64-byte record as its fields, each (offset, bytes, value). -/
def packBytes (size : Nat) (fs : List (Nat × Nat × Nat)) : List Byte :=
  leBytes size (fs.foldl (fun a f => a + f.2.2 % 2 ^ (8 * f.2.1) * 2 ^ (8 * f.1)) 0)

/-- Rights of firmware reads and writes (R130). -/
def fwR : Need := { r := true, e := true, firm := true }
def fwW : Need := { w := true, e := true, firm := true }

/-- A little-endian field of a list of bytes. -/
def fieldAt (bs : List Byte) (off n : Nat) : Nat := leNat ((bs.drop off).take n)

/-- Whether a translated range holds an uncorrectable unit (R105). -/
def rangeBad (d : Dev) (l : List (Dword × TlbEnt)) (va len : Nat) : Bool :=
  match d.badU with
  | [] => false
  | us => (upFrom va len).any fun a => us.contains (rangePa l a / 8)

/-- Read len bytes of a partition's memory for firmware; none when a page refuses or a unit is uncorrectable. -/
def fwRead (fw : Fw) (d : Dev) (part : Nat) (va : Dword) (len : Nat) : Option (List Byte) :=
  match fwRange fw d part fwR va len with
  | .ok l => if rangeBad d l va.toNat len then none else some (rangeBytes d l va.toNat len)
  | .error _ => none

/-- The same at home: what is changed there by indivisible operations (R161, R213). -/
def fwHome (fw : Fw) (d : Dev) (part : Nat) (va : Dword) (len : Nat) : Option (List Byte) :=
  match fwRange fw d part fwR va len with
  | .ok l => if rangeBad d l va.toNat len then none else some (rangeHome d l va.toNat len)
  | .error _ => none

/-- Write bytes for firmware, or for an engine of some core, with a label, which raises the sets of the pages; none when a page refuses. -/
def fwWriteBy (self : Writer) (fw : Fw) (d : Dev) (part : Nat) (va : Dword) (bs : List Byte) (s : OSet) : Option Dev :=
  match fwRange fw d part fwW va bs.length with
  | .ok l => some (rangeRaise (rangeWrite self d l va.toNat bs) l s)
  | .error _ => none

/-- Limamon's write. -/
def fwWrite (fw : Fw) (d : Dev) (part : Nat) (va : Dword) (bs : List Byte) (s : OSet) : Option Dev := fwWriteBy .limamon fw d part va bs s

/-- A record queue's fields (R161): BASE, SIZE, TAIL, HEAD, LOST; none when absent or not readable. TAIL and LOST are read where they are
advanced, HEAD old or new. -/
def ringOf (fw : Fw) (d : Dev) (part : Nat) (desc : Dword) : Option (Nat × Nat × Nat × Nat × Nat) :=
  if desc = 0 then none
  else match fwRead fw d part desc 32, fwHome fw d part desc 32 with
    | some bs, some hs =>
      let size := fieldAt bs 8 8
      if (upFrom 4 13).any fun n => size == 2 ^ n then
        some (fieldAt bs 0 8, size, fieldAt hs 16 4, fieldAt bs 24 4, fieldAt hs 28 4)
      else none
    | _, _ => none

/-- Post a record when its ring has space (R161): the record, then TAIL. -/
def ringPost (self : Writer) (fw : Fw) (d : Dev) (part : Nat) (desc : Dword) (bs : List Byte) (s : OSet) : Option Dev :=
  match ringOf fw d part desc with
  | none => none
  | some (base, size, tail, head, _) =>
    if (tail + 2 ^ 32 - head) % 2 ^ 32 = size then none
    else match fwWriteBy self fw d part (BitVec.ofNat 64 (base + 64 * (tail % size))) bs s with
      | none => none
      | some d1 => fwWriteBy self fw d1 part (desc + 16) (leBytes 4 (tail + 1)) 0

def Fw.part (fw : Fw) (p : Nat) : Part := mget {} fw.parts p

/-- A fault-queue record (R225); a full queue raises LOST instead (R161). -/
def postFault (fw : Fw) (d : Dev) (part unit kind cause : Nat) (launch team : Nat) (addr i0 i1 : Nat) (org : OSet) : Dev :=
  let (seq, d1) := newSeq d unit
  let bs := packBytes 64 [(0, 8, seq.toNat), (8, 1, kind), (9, 1, part), (10, 1, cause), (12, 4, launch), (16, 4, team),
    (24, 8, addr), (32, 8, i0), (40, 8, i1), (48, 4, org.toNat)]
  let fq := (fw.part part).fq
  match ringPost .limamon fw d1 part fq bs 0 with
  | some d2 => d2
  | none =>
    if fq = 0 then d1
    else match fwHome fw d1 part fq 32 with
      | none => d1
      | some r =>
        let lost := fieldAt r 28 4
        match fwWrite fw d1 part (fq + 28) (leBytes 4 (min (lost + 1) (2 ^ 32 - 1))) 0 with
        | some d2 => d2
        | none => d1

/-- A fault record whose source is the acting team's launch. -/
def teamFault (fw : Fw) (d : Dev) (unit kind cause addr i0 i1 : Nat) (org : OSet) : Dev :=
  let t := d.cur
  postFault fw d t.part unit kind cause t.launchId.toNat t.teamId.toNat addr i0 i1 org

/-! ### Traps -/

/-- The address a trap at issue reports: the first word of the hint group (R240). -/
def Team.first (t : Team) : Dword := if t.hints.isEmpty then t.pc else t.hgrp

/-- A Kudu stream (R285), known as such once its descriptor has been read. -/
def Kudu.isStream (c : Kudu) : Bool :=
  c.kind == .copy && (match c.rd with | some r => !r.srch | none => false)

/-- Suspend a stream at its committed position (R285): later rows may be performed again. One that is ending in error drains. -/
def suspendOp (o : Op) : Op :=
  match o.kind with
  | .kudu c => if c.isStream && !o.done && c.dead.isEmpty then { o with kind := .kudu { c with suspended := true, perf := [] } } else o
  | _ => o

/-- Where a stream's issue goes on when it resumes: at its committed position; one that KSTOP has stopped has still to complete what it had
issued (R285, R286). -/
def Kudu.again (c : Kudu) : Nat := if c.stopping then c.spec else c.committed

/-- Resume a stream that trap entry or a save suspended (R223). -/
def resumeOp (o : Op) : Op :=
  match o.kind with
  | .kudu c => if c.suspended then { o with kind := .kudu { c with suspended := false, stale := true, spec := c.again } } else o
  | _ => o

/-- Whether an operation need not drain at trap entry: a suspended stream, or a KPOS or KSTOP has none. -/
def Op.parked (o : Op) : Bool := match o.kind with | .kudu c => c.suspended | _ => false

/-- Set the error bit of a token (R79). -/
def Team.qerr (t : Team) (q : Nat) : Team := { t with sp := { t.sp with tstat := t.sp.tstat ||| BitVec.ofNat 19 (2 ^ q) } }

/-- The team's operations have drained (R222): only suspended streams are left. -/
def Team.drained (t : Team) : Bool := t.ops.all fun o => o.done || o.parked

/-- Finished operations leave a drained team, those behind a suspended stream of their token too: the counts are then those of its
streams (R222, R227). -/
def Team.leaveDone (t : Team) : Team :=
  let out := t.ops.filter fun o => o.done
  let t1 := out.foldl (fun t o => match o.q with | some q => if o.err then t.qerr q else t | none => t) t
  { t1 with ops := t1.ops.filter fun o => !o.done }

/-- The sessions that a team keeps when its open one ends: those whose TAPR has still to be performed (R178). -/
def Team.closed (t : Team) : List Session := t.sessions.filter fun s => !s.isOpen

/-- Every open run ends (R27). -/
def Team.endRun (t : Team) : Team := { t with runOpen := false }

/-- TAKING AN EXCEPTION (R222, step 4 and 5): TCAUSE, TPC, TINFO0 and TINFO1 are written, k15 takes the former k0, k14 the mask of
R219, k0 every lane, HANDLING is set, and execution continues at the trap vector; without a vector the team ends as EXIT does (R175),
its record is posted and its streams run to completion. -/
def enterTrap (fw : Fw) (d : Dev) (i : TrapInfo) : Dev :=
  let t := d.cur.leaveDone
  let k0 := mget 0 t.regs.k 0
  let k1 := mset 0 t.regs.k 15 k0
  let k2 := mset 0 k1 14 (i.k14 &&& allLanes t.lanes)
  let t1 := { t with
    sp := { t.sp with tcause := i.cause, tpc := i.tpc &&& ~~~3, tinfo0 := i.ti0, tinfo1 := i.ti1, handling := true },
    regs := { t.regs with k := mset 0 k2 0 (allLanes t.lanes) },
    haz := t.haz.filter fun h => (h.op == 0 || t.ops.any (·.id == h.op)) && h.loc != .k 0 && h.loc != .k 14 && h.loc != .k 15,
    hints := [], runOpen := false, wait := .ready, pc := t.decl.handler }
  if t.decl.handler = 0 then
    teamFault fw { d with cur := { t1 with wait := .exit 1 (some i), ops := t1.ops.map resumeOp, sessions := t1.closed } } t.unit 0x10 i.cause.toNat
      i.tpc.toNat i.ti0.toNat i.ti1.toNat 0
  else { d with cur := t1 }

/-- RETURNING FROM AN EXCEPTION (R223): k0 takes k15, HANDLING is cleared, suspended streams resume, execution continues at TPC. -/
def returnTrap (d : Dev) (tpc : Dword) (k15 : Mask) : Dev :=
  let t := d.cur
  { d with cur := { t with
      sp := { t.sp with handling := false }, regs := { t.regs with k := mset 0 t.regs.k 0 k15 },
      ops := t.ops.map resumeOp, hints := [], runOpen := false, pc := tpc, pos := t.pos + 1 } }

/-- A team whose save drains at a LIVE point leaves the point: the save awaits the next one (R227; entry 31). -/
def Team.leavePoint (t : Team) : Team := match t.save with | some .atPoint => { t with save := some .live } | _ => t

/-- Raise a trap (R222): the team stops issuing and drains; with nothing to drain it enters at once. A further cause during the
drain posts TRAP-SHADOWED. -/
def raiseTrap (fw : Fw) (d : Dev) (i : TrapInfo) : Dev :=
  match d.cur.wait with
  | .trap _ => teamFault fw d d.cur.unit 0x11 i.cause.toNat i.tpc.toNat i.ti0.toNat 0 0
  | _ =>
    let d1 := d.upd fun t => { t.leavePoint with ops := t.ops.map suspendOp, wait := .trap i, runOpen := false, met := false }
    if d1.cur.drained then enterTrap fw d1 i else d1

/-- A cause detected at issue (R220): TPC is the group's first word. -/
def trapIssue (fw : Fw) (d : Dev) (cause : Nat) (k14 : Mask) (ti0 ti1 : Nat) : Dev :=
  raiseTrap fw d { cause := BitVec.ofNat 8 cause, tpc := d.cur.first, k14, ti0 := BitVec.ofNat 64 ti0, ti1 := BitVec.ofNat 64 ti1 }

/-- A cause detected at completion of an operation (R220): TPC is the first position not issued, TINFO1 the instruction. A team that is held for
a translation fault goes on at its restart point (R133), so that is the position after RETH. -/
def trapDone (fw : Fw) (d : Dev) (o : Op) (cause : Nat) (k14 : Mask) (ti0 : Nat) : Dev :=
  match d.cur.wait with
  | .trap _ => teamFault fw d d.cur.unit 0x11 cause o.pc.toNat ti0 0 0
  | .tfault _ =>
    let d1 := d.upd fun t => { t with wait := .ready, pc := t.restart, hints := [] }
    raiseTrap fw d1 { cause := BitVec.ofNat 8 cause, tpc := d1.cur.restart, k14, ti0 := BitVec.ofNat 64 ti0, ti1 := o.pc }
  | _ => raiseTrap fw d { cause := BitVec.ofNat 8 cause, tpc := d.cur.first, k14, ti0 := BitVec.ofNat 64 ti0, ti1 := o.pc }

/-- The illegal instruction (R243): TINFO0 holds the offending word, TINFO1 what names a descriptor (R219). -/
def trapIllegal (fw : Fw) (d : Dev) (word ti1 : Nat) : Dev := trapIssue fw d 1 d.k0 word ti1

/-! ### Tokens -/

/-- Outstanding operations on a token (R29). -/
def Team.count (t : Team) (q : Nat) : Nat := (t.ops.filter fun o => o.q == some q).length

/-- Register lanes that a window store or a Kudu command will or may write while a fixed-latency write to them is still pending (R83). -/
def Team.unsettled (t : Team) (k : OpKind) : List Loc :=
  let here := (t.haz.filter fun h => h.op == 0 && decide (t.pos < h.upto) && k.writes t.lanes h.loc).map (·.loc)
  match k with
  | .store _ => here
  | .kudu _ => here
  | _ => []

/-- Post an operation (R29), which may have error status already; `seq` orders it among those that the core's queues take (R160). -/
def Team.post (t : Team) (q : Option Nat) (k : OpKind) (pins : List Nat) (err : Bool := false) (seq : Nat := 0) : Team :=
  { t with ops := t.ops ++ [{ id := t.nextOp, q, pc := t.pc, first := t.first, kind := k, err, pins, clob := t.unsettled k, seq, bound := t.bound }], nextOp := t.nextOp + 1 }

/-- A word that issues, as the operation that its reads and writes are bounded by. -/
def Team.self (t : Team) : Op := { id := t.nextOp, q := none, pc := t.pc, first := t.first, kind := .instant, bound := t.bound }

/-- What bounds the reads of an operation of the acting team (R142). -/
def Dev.covers (d : Dev) (o : Op) : Bool → Nat → Writer → Bool := o.bound.covers d.cur.key o.id d.cur.cores

/-- The acting team as it writes for an operation: a store or atomic, or an engine; what a held or an issuing word writes is the team's own. -/
def Dev.storer (d : Dev) (o : Op) : Writer := .team d.cur.key o.id d.cur.cores
def Dev.engine (d : Dev) (o : Op) : Writer :=
  match o.q with
  | some q => .engine d.cur.key q o.id d.cur.cores
  | none => .team d.cur.key (o.id - 1) d.cur.cores

/-- Operations retire in issue order on each token (R30): a finished one leaves when no older one of its token is left. -/
def retireGo (kept : List Op) : List Op → List Op × List Op
  | [] => ([], [])
  | o :: r =>
    let stay := !o.done || kept.any fun p => p.q == o.q && o.q.isSome
    if stay then let (a, b) := retireGo (o :: kept) r; (o :: a, b)
    else let (a, b) := retireGo kept r; (a, o :: b)

/-- A held instruction lets the team go on: a sparse operation once every lane is performed or refused (R118), an acquiring atomic
once its token has completed (R276), a CALLG likewise (R325). -/
def Team.unheld (t : Team) : Team :=
  match t.wait with
  | .held n =>
    if (match t.ops.find? fun o => o.id == n with | some o => o.done && (match o.kind with | .arbor _ _ _ _ _ _ => true | .tapb => true | _ => false) | none => true)
    then { t with wait := .ready } else t
  | .call n => if t.ops.any fun o => o.id == n then t else { t with wait := .ready, haz := t.haz.filter fun h => h.op != n }
  | _ => t

/-- Retire what can retire; an error sets the token's bit (R30). -/
def Dev.retire (d : Dev) : Dev :=
  let (stay, out) := retireGo [] d.cur.ops
  let t := out.foldl (fun t o => match o.q with | some q => if o.err then t.qerr q else t | none => t) { d.cur with ops := stay }
  { d with cur := t.unheld }

/-- Operation n of the acting team. -/
def Team.op (t : Team) (n : Nat) : Option Op := t.ops.find? fun o => o.id == n

/-- Replace operation n. -/
def Team.setOp (t : Team) (n : Nat) (f : Op → Op) : Team := { t with ops := t.ops.map fun o => if o.id = n then f o else o }

/-- An operation is finished: its pins are released (R131), and it retires in its turn. -/
def finishOp (d : Dev) (n : Nat) (err : Bool) : Dev :=
  let pins := match d.cur.op n with | some o => o.pins | none => []
  ((unpinFrames d pins).upd fun t => t.setOp n fun o => { o with done := true, err := o.err || err, pins := [] }).retire

/-- The newest operation of a token that has been waited when every older one has: the one before the oldest still there. -/
def Team.waitedOf (t : Team) (q : Nat) : Nat := (match t.ops.find? fun o => o.q == some q with | some o => o.id | none => t.nextOp) - 1

/-- The tokens that q names have been waited: the older values of their completed operations are gone (R30, R32), and the engine writes of those
count as the team's own (R142 (a)). -/
def Team.settle (t : Team) (q : Nat → Bool) : Team :=
  { t with
    haz := t.haz.filter fun h => h.op == 0 || !q h.upto || t.ops.any (·.id == h.op)
    bound := { t.bound with waited := ((upFrom 0 16).filter q).foldl (fun m n => mset 0 m n (t.waitedOf n)) t.bound.waited } }

/-- An operation's result lands in a register lane (R32): where the lane was written meanwhile, either value; a read before the token
is waited may still return the old one. -/
def landV (d : Dev) (o : Op) (v l : Nat) (x : LVal) : Dev :=
  if 124 ≤ v then d
  else
    let old := d.cur.regs.lane v l
    let y := if o.clob.contains (.v v l) then pick d.free (slotKey 9 (.v v l)) x [old] else x
    d.upd fun t => (({ t with
      regs := { t.regs with v := mset {} t.regs.v (1024 * v + l) y },
      haz := { loc := .v v l, old := old.val.toNat, lbl := old.lbl, upto := o.q.getD 0, op := o.id } :: t.haz } : Team).clearV v l).spoil (.v v l)

/-- The same for a scalar register. -/
def landS (d : Dev) (o : Op) (s : Nat) (x : SVal) : Dev :=
  if s = 63 then d
  else
    let old := mget {} d.cur.regs.s s
    let y := if o.clob.contains (.s s) then pick d.free (slotKey 9 (.s s)) x [old] else x
    d.upd fun t => { t with
      regs := { t.regs with s := mset {} t.regs.s s y },
      haz := { loc := .s s, old := old.val.toNat, lbl := old.lbl, upto := o.q.getD 0, op := o.id } :: t.haz }

/-- A cause found when an operation completes: code, k14, TINFO0 (R219, R220). -/
structure DoneCause where
  code : Nat
  k14 : Mask
  ti0 : Nat
deriving DecidableEq, Repr

/-- Of several causes of one completion the lowest is taken (R219). -/
def raiseDone (fw : Fw) (d : Dev) (o : Op) (cs : List DoneCause) : Dev :=
  match sortBy (fun (a b : DoneCause) => decide (a.code ≤ b.code)) cs with
  | [] => d
  | c :: _ => trapDone fw d o c.code c.k14 c.ti0

/-- Results of an operation with their origin sets (R246): lanes allocate in ascending order; a full table raises label-table-full at
completion, and the failing lanes keep their old values (R220). A lane whose registers are all vz needs no index. -/
def landLanes (d : Dev) (o : Op) (all : List (Nat × OSet × List (Nat × Word))) : Dev × List DoneCause :=
  let rs := all.filter fun r => r.2.2.any fun p => decide (p.1 < 124)
  let (ix, labels, failed, fs) := allocLanes d.cur.regs.labels (rs.map fun r => (r.1, r.2.1))
  let d1 := d.updR fun r => { r with labels }
  let d2 := rs.foldl (fun d r => match ix.find? fun p => p.1 == r.1 with
    | some (_, i) => r.2.2.foldl (fun d p => landV d o p.1 r.1 { val := p.2, lbl := i }) d
    | none => d) d1
  (d2, if failed.isEmpty then [] else [{ code := 0x0C, k14 := lanesMask (needLanes d.cur.regs.labels (rs.map fun r => (r.1, r.2.1))), ti0 := fs.toNat }])

/-- A scalar result of an operation. -/
def landScalar (d : Dev) (o : Op) (s : Nat) (v : Dword) (set : OSet) : Dev × List DoneCause :=
  if s = 63 then (d, [])
  else match allocLabel d.cur.regs.labels set with
    | some (i, labels) => (landS (d.updR fun r => { r with labels }) o s { val := v, lbl := i }, [])
    | none => (d, [{ code := 0x0C, k14 := allLanes d.cur.lanes, ti0 := set.toNat }])

/-! ### The next position -/

/-- Cycles since a time of the time base, which wraps (R208). -/
def elapsed (d : Dev) (since : Nat) : Nat := (d.time.toNat + 2 ^ 48 - since % 2 ^ 48) % 2 ^ 48

/-- Whether n cycles have passed since a time. -/
def longAgo (d : Dev) (since n : Nat) : Bool := decide (n ≤ elapsed d since)

/-- Passes of a vector instruction (R13). -/
def passes (k : Mask) : Nat := max 1 ((upFrom 0 32).filter fun w => maskWord k w ≠ 0).length

/-- The stream stays at its position under a structural stall or a hold counted as reason r (R19, R156). -/
def stall (d : Dev) (r : Nat) : Dev := { d with stallR := some r }

/-- Whether single stepping is on as this position sees it (R81, R318). -/
def stepping (d : Dev) : Bool := specRead d 0x20 d.cur.sp.dbgctl.toNat % 2 == 1 && !d.cur.sp.handling

/-- After a position: the step trap of R221, taken with the next position in TPC. -/
def stepTrap (fw : Fw) (d : Dev) (on : Bool) (at_ : Dword) (k : Mask) : Dev :=
  if on then
    match d.cur.wait with
    | .trap _ => d
    | _ => raiseTrap fw d { cause := 0x0F, tpc := d.cur.pc, k14 := k, ti0 := at_, ti1 := 0 }
  else d

/-- Hazards whose latency has passed go. -/
def Team.purge (t : Team) : Team :=
  match t.haz with
  | [] => t
  | hs => { t with haz := hs.filter fun h => h.op != 0 || decide (t.pos < h.upto) }

/-- Leave the position for `target`, n positions on. -/
def Team.goto (t : Team) (target : Dword) (n : Nat) : Team :=
  ({ t with pc := target, pos := t.pos + n, hints := [], met := false } : Team).purge

/-- A word begins: the execution mask is noted for the step trap (R219: k0 at the stepped position). -/
def noteStep (d : Dev) : Dev := if stepping d then { d with stepK := d.k0 } else d

/-- The position is done: the next word, n positions on (R21). -/
def finishN (fw : Fw) (n : Nat) (d : Dev) : Dev :=
  let on := stepping d
  let a := d.cur.first
  stepTrap fw (d.upd fun t => t.goto (t.pc + 4) n) on a d.stepK

/-- One position. -/
def finish (fw : Fw) (d : Dev) : Dev := finishN fw 1 d

/-- A vector position, which takes one pass for each non-empty word of k0. -/
def finishV (fw : Fw) (k : Mask) (d : Dev) : Dev := finish fw { d with cyc := passes k }

/-- The word at this position may stall the next one for a structural reason (R19). -/
def Dev.mayStall (d : Dev) (reason : Nat) : Dev := { d with causes := reason :: d.causes }

/-- A taken transfer: it ends a run, and its target is the next position (R21, R27), after a refill (R19). -/
def jumpTo (fw : Fw) (target : Dword) (d : Dev) : Dev :=
  let on := stepping d
  let a := d.cur.first
  stepTrap fw ((d.mayStall 6).upd fun t => t.endRun.goto target 1) on a d.stepK

/-- The team waits at its position. -/
def waitAt (w : Wait) (d : Dev) : Dev := d.upd fun t => { t.endRun with wait := w }

/-- A wait is over: the team continues at `target`. -/
def release (fw : Fw) (target : Dword) (d : Dev) : Dev :=
  let on := stepping d
  let a := d.cur.first
  stepTrap fw (d.upd fun t => ({ t with wait := .ready } : Team).goto target 1) on a (mget 0 d.cur.regs.k 0)

/-- The position of a held word ends for the team: it stays held by w, and no step trap is raised yet (R219, R221). -/
def holdOn (n : Nat) (w : Wait) (d : Dev) : Dev := { d with cyc := n }.upd fun t => { t.goto (t.pc + 4) 1 with wait := w }

/-- A held word's position is over once it lets the team go on: the step trap of R221 comes now, after the causes of the word itself, which are lower
(R219). d is the machine before. -/
def stepHeld (fw : Fw) (d d' : Dev) : Dev :=
  let ended := fun n => match d'.cur.wait, d.cur.op n with
    | .ready, some o => stepTrap fw d' (stepping d') o.first d'.k0
    | _, _ => d'
  match d.cur.wait with
  | .held n => ended n
  | .call n => ended n
  | _ => d'

/-- The operation is finished, and the lowest of its causes is raised. -/
def endOp (fw : Fw) (d : Dev) (o : Op) (err : Bool) (cs : List DoneCause) : Dev :=
  stepHeld fw d (raiseDone fw (finishOp d o.id err) o cs)

/-- Every write numbered up to w bounds later reads, as far as an acquire's scope goes (R140, R142 (c)). -/
def Bound.raise (b : Bound) (sc : Scope) (w : Nat) : Bound :=
  match sc with
  | .core => { b with core := w }
  | .die => { b with core := w, pkg := w }
  | .pkg => { b with core := w, pkg := w }
  | .sys => { b with core := w, pkg := w, sys := w }

/-- The scope at which a team performs an acquire (R140): a paired team's core scope is die scope. -/
def Team.scope (t : Team) (sc : Scope) : Scope := if sc = .core && t.paired then .die else sc

/-- An acquire at a scope (R92, R140, R142): at die scope and wider the team's cores drop their L1 lines; every write performed so far by the agents
of the scope bounds the team's later reads. -/
def acquire (d : Dev) (sc0 : Scope) : Dev :=
  let sc := d.cur.scope sc0
  (if sc = .core then d else d.cur.cores.foldl dropL1 d).upd fun t => { t with bound := t.bound.raise sc d.wn }

/-- Whether an operation is one that a release waits for (R143, R124): loads, stores, atomics and sparse operations. -/
def OpKind.covered : OpKind → Bool
  | .load _ _ _ => true
  | .store _ => true
  | .code _ => true
  | .atomic _ _ _ _ => true
  | .arbor _ _ _ _ _ _ => true
  | _ => false

/-- A release has nothing left to wait for (R143). -/
def Team.released (t : Team) : Bool := t.ops.all fun o => o.done || !o.kind.covered

end Sys2Proof.Machine
end

