-- ==== Sys2Proof/Machine/Operands.lean ====
section
/-! DEFINITION. Operand forms: hint groups, immediates, register ranges, addresses and the frames of a word's issue (R233-R240, R245,
R246, R270-R276). -/
namespace Sys2Proof.Machine

/-- The vector registers an instruction names: first and how many (R65, R233). A handle's coordinate registers, whose number the
descriptor gives, are checked by the HND meanings. -/
def vranges : Instr → List (Nat × Nat)
  | .nop => []
  | .dly _ => []
  | .br _ => []
  | .bcc _ _ => []
  | .bkz _ _ => []
  | .bknz _ _ => []
  | .call _ => []
  | .ret => []
  | .jmpr _ => []
  | .callr _ => []
  | .exit => []
  | .trap _ => []
  | .brk => []
  | .reth => []
  | .callg _ v _ => [(v.toNat, 2)]
  | .sadd _ _ _ _ => []
  | .ssub _ _ _ _ => []
  | .smul _ _ _ _ => []
  | .smulh _ _ _ _ => []
  | .smulhn _ _ _ _ => []
  | .sand _ _ _ _ => []
  | .sor _ _ _ _ => []
  | .sxor _ _ _ _ => []
  | .sandn _ _ _ _ => []
  | .sshl _ _ _ _ => []
  | .sshr _ _ _ _ => []
  | .ssra _ _ _ _ => []
  | .smin _ _ _ _ => []
  | .smax _ _ _ _ => []
  | .sminn _ _ _ _ => []
  | .smaxn _ _ _ _ => []
  | .scmp _ _ => []
  | .spopc _ _ _ => []
  | .sclz _ _ _ => []
  | .sctz _ _ _ => []
  | .saddi _ _ _ => []
  | .sandi _ _ _ => []
  | .sori _ _ _ => []
  | .sxori _ _ _ => []
  | .sshi _ _ _ _ => []
  | .scmpi _ _ => []
  | .slui _ _ => []
  | .smuli _ _ _ => []
  | .vadd _ d a b => [(d.toNat, 1), (a.toNat, 1), (b.toNat, 1)]
  | .vsub _ d a b => [(d.toNat, 1), (a.toNat, 1), (b.toNat, 1)]
  | .vmul _ d a b => [(d.toNat, 1), (a.toNat, 1), (b.toNat, 1)]
  | .vmulh _ d a b => [(d.toNat, 1), (a.toNat, 1), (b.toNat, 1)]
  | .vmulhn _ d a b => [(d.toNat, 1), (a.toNat, 1), (b.toNat, 1)]
  | .vmad _ d a b => [(d.toNat, 1), (a.toNat, 1), (b.toNat, 1)]
  | .vand _ d a b => [(d.toNat, 1), (a.toNat, 1), (b.toNat, 1)]
  | .vor _ d a b => [(d.toNat, 1), (a.toNat, 1), (b.toNat, 1)]
  | .vxor _ d a b => [(d.toNat, 1), (a.toNat, 1), (b.toNat, 1)]
  | .vandn _ d a b => [(d.toNat, 1), (a.toNat, 1), (b.toNat, 1)]
  | .vshl _ d a b => [(d.toNat, 1), (a.toNat, 1), (b.toNat, 1)]
  | .vshr _ d a b => [(d.toNat, 1), (a.toNat, 1), (b.toNat, 1)]
  | .vsra _ d a b => [(d.toNat, 1), (a.toNat, 1), (b.toNat, 1)]
  | .vmin _ d a b => [(d.toNat, 1), (a.toNat, 1), (b.toNat, 1)]
  | .vmax _ d a b => [(d.toNat, 1), (a.toNat, 1), (b.toNat, 1)]
  | .vabs _ d a => [(d.toNat, 1), (a.toNat, 1)]
  | .vminn _ d a b => [(d.toNat, 1), (a.toNat, 1), (b.toNat, 1)]
  | .vmaxn _ d a b => [(d.toNat, 1), (a.toNat, 1), (b.toNat, 1)]
  | .vaddsat _ d a b => [(d.toNat, 1), (a.toNat, 1), (b.toNat, 1)]
  | .vsubsat _ d a b => [(d.toNat, 1), (a.toNat, 1), (b.toNat, 1)]
  | .vpopc _ d a => [(d.toNat, 1), (a.toNat, 1)]
  | .vclz _ d a => [(d.toNat, 1), (a.toNat, 1)]
  | .vlane _ d => [(d.toNat, 1)]
  | .vbrev _ d a => [(d.toNat, 1), (a.toNat, 1)]
  | .fadd _ d a b => [(d.toNat, 1), (a.toNat, 1), (b.toNat, 1)]
  | .fsub _ d a b => [(d.toNat, 1), (a.toNat, 1), (b.toNat, 1)]
  | .fmul _ d a b => [(d.toNat, 1), (a.toNat, 1), (b.toNat, 1)]
  | .ffma _ d a b => [(d.toNat, 1), (a.toNat, 1), (b.toNat, 1)]
  | .fmin _ d a b => [(d.toNat, 1), (a.toNat, 1), (b.toNat, 1)]
  | .fmax _ d a b => [(d.toNat, 1), (a.toNat, 1), (b.toNat, 1)]
  | .fabs _ d a => [(d.toNat, 1), (a.toNat, 1)]
  | .fneg _ d a => [(d.toNat, 1), (a.toNat, 1)]
  | .frcp _ d a => [(d.toNat, 1), (a.toNat, 1)]
  | .frsq _ d a => [(d.toNat, 1), (a.toNat, 1)]
  | .fexp2 _ d a => [(d.toNat, 1), (a.toNat, 1)]
  | .flog2 _ d a => [(d.toNat, 1), (a.toNat, 1)]
  | .ffloor _ d a => [(d.toNat, 1), (a.toNat, 1)]
  | .ffrac _ d a => [(d.toNat, 1), (a.toNat, 1)]
  | .badd2 _ d a b => [(d.toNat, 1), (a.toNat, 1), (b.toNat, 1)]
  | .bmul2 _ d a b => [(d.toNat, 1), (a.toNat, 1), (b.toNat, 1)]
  | .bfma2 _ d a b => [(d.toNat, 1), (a.toNat, 1), (b.toNat, 1)]
  | .bmax2 _ d a b => [(d.toNat, 1), (a.toNat, 1), (b.toNat, 1)]
  | .cvtF32I32 _ d a => [(d.toNat, 1), (a.toNat, 1)]
  | .cvtF32N32 _ d a => [(d.toNat, 1), (a.toNat, 1)]
  | .cvtI32F32 _ d a => [(d.toNat, 1), (a.toNat, 1)]
  | .cvtN32F32 _ d a => [(d.toNat, 1), (a.toNat, 1)]
  | .cvtBf2F32 _ d a b => [(d.toNat, 1), (a.toNat, 1), (b.toNat, 1)]
  | .cvtF32Bfl _ d a => [(d.toNat, 1), (a.toNat, 1)]
  | .cvtF32Bfh _ d a => [(d.toNat, 1), (a.toNat, 1)]
  | .vcmp _ _ _ a b => [(a.toNat, 1), (b.toNat, 1)]
  | .vsel _ _ d a b => [(d.toNat, 1), (a.toNat, 1), (b.toNat, 1)]
  | .vaddi _ d a _ => [(d.toNat, 1), (a.toNat, 1)]
  | .vmuli _ d a _ => [(d.toNat, 1), (a.toNat, 1)]
  | .vandi _ d a _ => [(d.toNat, 1), (a.toNat, 1)]
  | .vori _ d a _ => [(d.toNat, 1), (a.toNat, 1)]
  | .vxori _ d a _ => [(d.toNat, 1), (a.toNat, 1)]
  | .vshli _ d a _ => [(d.toNat, 1), (a.toNat, 1)]
  | .vshri _ d a _ => [(d.toNat, 1), (a.toNat, 1)]
  | .vsrai _ d a _ => [(d.toNat, 1), (a.toNat, 1)]
  | .vmovi _ d _ => [(d.toNat, 1)]
  | .vmini _ d a _ => [(d.toNat, 1), (a.toNat, 1)]
  | .vmaxi _ d a _ => [(d.toNat, 1), (a.toNat, 1)]
  | .vadds _ d a _ => [(d.toNat, 1), (a.toNat, 1)]
  | .vsubs _ d a _ => [(d.toNat, 1), (a.toNat, 1)]
  | .vmuls _ d a _ => [(d.toNat, 1), (a.toNat, 1)]
  | .fadds _ d a _ => [(d.toNat, 1), (a.toNat, 1)]
  | .fmuls _ d a _ => [(d.toNat, 1), (a.toNat, 1)]
  | .ffmas _ d a _ => [(d.toNat, 1), (a.toNat, 1)]
  | .vmovs _ d _ => [(d.toNat, 1)]
  | .vshls _ d a _ => [(d.toNat, 1), (a.toNat, 1)]
  | .shfl _ d a b => [(d.toNat, 1), (a.toNat, 1), (b.toNat, 1)]
  | .shflx _ d a b => [(d.toNat, 1), (a.toNat, 1), (b.toNat, 1)]
  | .shflu _ d a b => [(d.toNat, 1), (a.toNat, 1), (b.toNat, 1)]
  | .shfld _ d a b => [(d.toNat, 1), (a.toNat, 1), (b.toNat, 1)]
  | .scani _ d a => [(d.toNat, 1), (a.toNat, 1)]
  | .scanf _ d a => [(d.toNat, 1), (a.toNat, 1)]
  | .redi _ d a => [(d.toNat, 1), (a.toNat, 1)]
  | .redf _ d a => [(d.toNat, 1), (a.toNat, 1)]
  | .redmaxf _ d a => [(d.toNat, 1), (a.toNat, 1)]
  | .redminf _ d a => [(d.toNat, 1), (a.toNat, 1)]
  | .cnfl _ d a => [(d.toNat, 1), (a.toNat, 1)]
  | .kand _ _ _ => []
  | .kor _ _ _ => []
  | .kxor _ _ _ => []
  | .kandn _ _ _ => []
  | .knot _ _ => []
  | .kmov _ _ => []
  | .kall _ => []
  | .kfirst _ _ => []
  | .kgany _ _ => []
  | .kzero _ => []
  | .kcnt _ _ => []
  | .ktos _ _ _ => []
  | .stok _ _ _ => []
  | .ld _ v _ i z => [(v.toNat, z.regs), (i.toNat, 1)]
  | .ldn _ v _ i _ => [(v.toNat, 1), (i.toNat, 1)]
  | .st _ v _ i z => [(v.toNat, z.regs), (i.toNat, 1)]
  | .stn _ v _ i _ => [(v.toNat, 1), (i.toNat, 1)]
  | .ldsW _ _ _ _ => []
  | .ldsD _ _ _ _ => []
  | .stsW _ _ _ _ => []
  | .stsD _ _ _ _ => []
  | .ldsN8 _ _ _ _ => []
  | .ldsN16 _ _ _ _ => []
  | .stsB8 _ _ _ _ => []
  | .stsH16 _ _ _ _ => []
  | .ldh _ v _ c => [(v.toNat, 1), (c.toNat, 1)]
  | .sth _ v _ c => [(v.toNat, 1), (c.toNat, 1)]
  | .spadd _ v _ c => [(v.toNat, 1), (c.toNat, 1)]
  | .spiter _ v _ _ => [(v.toNat, 4)]
  | .sphas _ v _ c => [(v.toNat, 1), (c.toNat, 1)]
  | .atom _ d a o _ _ => [(d.toNat, (if o = .cas then 2 else 1)), (a.toNat, 2)]
  | .satom _ _ _ _ _ _ _ => []
  | .wait _ _ => []
  | .waita _ => []
  | .yield _ _ _ => []
  | .phase _ => []
  | .mwait _ _ _ => []
  | .bari _ _ => []
  | .bara _ => []
  | .barw _ => []
  | .kcopy _ _ _ => []
  | .kgath _ _ v => [(v.toNat, 1)]
  | .kscat _ _ v => [(v.toNat, 1)]
  | .kpos _ _ _ => []
  | .kstop _ _ => []
  | .wwr _ _ _ _ => []
  | .wsig _ _ _ => []
  | .wcnt _ _ _ _ => []
  | .wwt _ _ _ => []
  | .mma _ _ a b => [(a.toNat, 16), (b.toNat, 8)]
  | .mmaz _ _ a b => [(a.toNat, 16), (b.toNat, 8)]
  | .mman _ _ a b => [(a.toNat, 16), (b.toNat, 8)]
  | .aclr _ _ => []
  | .acvt _ _ d f => [(d.toNat, (if f then 8 else 16))]
  | .abq _ _ d _ => [(d.toNat, 16)]
  | .ast _ _ _ => []
  | .ald _ _ _ => []
  | .amrg _ _ _ => []
  | .ami _ _ _ => []
  | .aexp _ _ _ => []
  | .bqnt d a f => [(d.toNat, 16), (a.toNat, f.pairs)]
  | .bdeq d a => [(d.toNat, 48), (a.toNat, 16)]
  | .bhdr d a => [(d.toNat, 1), (a.toNat, 16)]
  | .tapb _ _ _ _ => []
  | .fsel _ _ _ => []
  | .tapr _ _ _ _ => []
  | .tape _ _ _ _ => []
  | .tapl _ _ => []
  | .taph _ _ _ => []
  | .sample _ a _ => [(a.toNat, 1)]
  | .topk d a _ => [(d.toNat, 2), (a.toNat, 1)]
  | .mergek _ _ _ _ => []
  | .rngu d a _ => [(d.toNat, 1), (a.toNat, 2)]
  | .lblget _ a _ => [(a.toNat, 1)]
  | .lbls _ _ => []
  | .lblt _ a _ => [(a.toNat, 1)]
  | .srd _ _ => []
  | .swr _ _ => []
  | .gprd _ _ => []
  | .gpwr _ _ => []
  | .spext _ _ _ => []
  | .invl _ _ _ => []
  | .icinv _ _ => []
  | .imm _ => []
  | .run _ => []
  | .livev _ _ => []
  | .lives _ _ => []
  | .livep _ _ => []
  | .region => []
  | .off _ => []
  | .mod _ _ _ => []
  | .prio _ => []
  | .dlyEnd => []
  | .teamExitComplete => []
  | .callRecordPost => []
  | .callgReply => []
  | .waitSatisfied => []
  | .yieldReactivate => []
  | .phaseReleaseDone => []
  | .mwaitWake => []
  | .barwRelease => []
  | .kuduIteration => []
  | .kuduCommandComplete => []
  | .streamResume => []
  | .wwtRelease => []
  | .senderCounterAdvance => []
  | .windowWriteArrival => []
  | .wsigArrival => []
  | .matrixOperation => []
  | .mergeTileApply => []
  | .fselFeed => []
  | .taprEvaluation => []
  | .tapeEvaluation => []
  | .mergekComplete => []
  | .invlComplete => []
  | .icinvComplete => []
  | .pairLinkExchange => []
  | .loadCompletion => []
  | .storePerformed => []
  | .atomicPerformed => []
  | .arborOperation => []
  | .pageWalk => []
  | .translationFaultResolve => []
  | .migrationStart => []
  | .migrationEnd => []
  | .teamCreate => []
  | .compaction => []
  | .activeSetEviction => []
  | .progressSwap => []
  | .save => []
  | .fullSave => []
  | .teamRestore => []
  | .trapEntry => []
  | .graphReplayStart => []
  | .kernelNodeStart => []
  | .commitNode => []
  | .doorbellTailWrite => []
  | .registerWrite => []
  | .hostReadBar4 => []
  | .hostWriteBar4 => []
  | .launch => []
  | .replay => []
  | .patch => []
  | .copy => []
  | .fill => []
  | .signal => []
  | .waitv => []
  | .waitvMatch => []
  | .invlPageCommand => []
  | .invlAsidCommand => []
  | .invlPartitionCommand => []
  | .qset => []
  | .partCreate => []
  | .partHalt => []
  | .partReset => []
  | .fmap => []
  | .origin => []
  | .policy => []
  | .clear => []
  | .clearComplete => []
  | .spnew => []
  | .graph => []
  | .windowRegister => []
  | .windowDeregister => []
  | .peer => []
  | .peerBindComplete => []
  | .samplerEnable => []
  | .samplerDisable => []
  | .samplerTick => []
  | .queryPartition => []
  | .queryQuote => []
  | .restore => []
  | .map => []
  | .fwload => []
  | .halt => []
  | .resume => []
  | .dumpOneTeam => []
  | .dumpEveryTeam => []
  | .dbgset => []
  | .errlog => []
  | .throttle => []
  | .frzN => []
  | .freeze => []
  | .thaw => []
  | .debugPortAccess => []
  | .packageReset => []
  | .linkDown => []
  | .matrixSelfTest => []
  | .powerControl => []
  | .patrolScrub => []
  | .softError => []
  | .hostMemoryWrite => []
  | .partitionResetComplete => []

/-- The vector registers an instruction reads at its position; `rank` is the rank of a handle's tensor (R25, R105). -/
def vsources (rank : Nat → Nat) : Instr → List (Nat × Nat)
  | .callg _ v _ => [(v.toNat, 2)]
  | .vadd _ _ a b => [(a.toNat, 1), (b.toNat, 1)]
  | .vsub _ _ a b => [(a.toNat, 1), (b.toNat, 1)]
  | .vmul _ _ a b => [(a.toNat, 1), (b.toNat, 1)]
  | .vmulh _ _ a b => [(a.toNat, 1), (b.toNat, 1)]
  | .vmulhn _ _ a b => [(a.toNat, 1), (b.toNat, 1)]
  | .vmad _ d a b => [(d.toNat, 1), (a.toNat, 1), (b.toNat, 1)]
  | .vand _ _ a b => [(a.toNat, 1), (b.toNat, 1)]
  | .vor _ _ a b => [(a.toNat, 1), (b.toNat, 1)]
  | .vxor _ _ a b => [(a.toNat, 1), (b.toNat, 1)]
  | .vandn _ _ a b => [(a.toNat, 1), (b.toNat, 1)]
  | .vshl _ _ a b => [(a.toNat, 1), (b.toNat, 1)]
  | .vshr _ _ a b => [(a.toNat, 1), (b.toNat, 1)]
  | .vsra _ _ a b => [(a.toNat, 1), (b.toNat, 1)]
  | .vmin _ _ a b => [(a.toNat, 1), (b.toNat, 1)]
  | .vmax _ _ a b => [(a.toNat, 1), (b.toNat, 1)]
  | .vabs _ _ a => [(a.toNat, 1)]
  | .vminn _ _ a b => [(a.toNat, 1), (b.toNat, 1)]
  | .vmaxn _ _ a b => [(a.toNat, 1), (b.toNat, 1)]
  | .vaddsat _ _ a b => [(a.toNat, 1), (b.toNat, 1)]
  | .vsubsat _ _ a b => [(a.toNat, 1), (b.toNat, 1)]
  | .vpopc _ _ a => [(a.toNat, 1)]
  | .vclz _ _ a => [(a.toNat, 1)]
  | .vbrev _ _ a => [(a.toNat, 1)]
  | .fadd _ _ a b => [(a.toNat, 1), (b.toNat, 1)]
  | .fsub _ _ a b => [(a.toNat, 1), (b.toNat, 1)]
  | .fmul _ _ a b => [(a.toNat, 1), (b.toNat, 1)]
  | .ffma _ d a b => [(d.toNat, 1), (a.toNat, 1), (b.toNat, 1)]
  | .fmin _ _ a b => [(a.toNat, 1), (b.toNat, 1)]
  | .fmax _ _ a b => [(a.toNat, 1), (b.toNat, 1)]
  | .fabs _ _ a => [(a.toNat, 1)]
  | .fneg _ _ a => [(a.toNat, 1)]
  | .frcp _ _ a => [(a.toNat, 1)]
  | .frsq _ _ a => [(a.toNat, 1)]
  | .fexp2 _ _ a => [(a.toNat, 1)]
  | .flog2 _ _ a => [(a.toNat, 1)]
  | .ffloor _ _ a => [(a.toNat, 1)]
  | .ffrac _ _ a => [(a.toNat, 1)]
  | .badd2 _ _ a b => [(a.toNat, 1), (b.toNat, 1)]
  | .bmul2 _ _ a b => [(a.toNat, 1), (b.toNat, 1)]
  | .bfma2 _ d a b => [(d.toNat, 1), (a.toNat, 1), (b.toNat, 1)]
  | .bmax2 _ _ a b => [(a.toNat, 1), (b.toNat, 1)]
  | .cvtF32I32 _ _ a => [(a.toNat, 1)]
  | .cvtF32N32 _ _ a => [(a.toNat, 1)]
  | .cvtI32F32 _ _ a => [(a.toNat, 1)]
  | .cvtN32F32 _ _ a => [(a.toNat, 1)]
  | .cvtBf2F32 _ _ a b => [(a.toNat, 1), (b.toNat, 1)]
  | .cvtF32Bfl _ _ a => [(a.toNat, 1)]
  | .cvtF32Bfh _ _ a => [(a.toNat, 1)]
  | .vcmp _ _ _ a b => [(a.toNat, 1), (b.toNat, 1)]
  | .vsel _ _ _ a b => [(a.toNat, 1), (b.toNat, 1)]
  | .vaddi _ _ a _ => [(a.toNat, 1)]
  | .vmuli _ _ a _ => [(a.toNat, 1)]
  | .vandi _ _ a _ => [(a.toNat, 1)]
  | .vori _ _ a _ => [(a.toNat, 1)]
  | .vxori _ _ a _ => [(a.toNat, 1)]
  | .vshli _ _ a _ => [(a.toNat, 1)]
  | .vshri _ _ a _ => [(a.toNat, 1)]
  | .vsrai _ _ a _ => [(a.toNat, 1)]
  | .vmini _ _ a _ => [(a.toNat, 1)]
  | .vmaxi _ _ a _ => [(a.toNat, 1)]
  | .vadds _ _ a _ => [(a.toNat, 1)]
  | .vsubs _ _ a _ => [(a.toNat, 1)]
  | .vmuls _ _ a _ => [(a.toNat, 1)]
  | .fadds _ _ a _ => [(a.toNat, 1)]
  | .fmuls _ _ a _ => [(a.toNat, 1)]
  | .ffmas _ d a _ => [(d.toNat, 1), (a.toNat, 1)]
  | .vshls _ _ a _ => [(a.toNat, 1)]
  | .shfl _ _ a b => [(a.toNat, 1), (b.toNat, 1)]
  | .shflx _ _ a b => [(a.toNat, 1), (b.toNat, 1)]
  | .shflu _ _ a b => [(a.toNat, 1), (b.toNat, 1)]
  | .shfld _ _ a b => [(a.toNat, 1), (b.toNat, 1)]
  | .scani _ _ a => [(a.toNat, 1)]
  | .scanf _ _ a => [(a.toNat, 1)]
  | .redi _ _ a => [(a.toNat, 1)]
  | .redf _ _ a => [(a.toNat, 1)]
  | .redmaxf _ _ a => [(a.toNat, 1)]
  | .redminf _ _ a => [(a.toNat, 1)]
  | .cnfl _ _ a => [(a.toNat, 1)]
  | .ld _ _ _ i _ => [(i.toNat, 1)]
  | .ldn _ _ _ i _ => [(i.toNat, 1)]
  | .st _ v _ i z => [(v.toNat, z.regs), (i.toNat, 1)]
  | .stn _ v _ i _ => [(v.toNat, 1), (i.toNat, 1)]
  | .ldh _ _ h c => [(c.toNat, rank h.toNat)]
  | .sth _ v h c => [(v.toNat, 1), (c.toNat, rank h.toNat)]
  | .spadd _ v h c => [(v.toNat, 1), (c.toNat, rank h.toNat)]
  | .spiter _ v _ _ => [(v.toNat, 4)]
  | .sphas _ _ h c => [(c.toNat, rank h.toNat)]
  | .atom _ d a o _ _ => [(d.toNat, (if o = .cas then 2 else 1)), (a.toNat, 2)]
  | .kgath _ _ v => [(v.toNat, 1)]
  | .kscat _ _ v => [(v.toNat, 1)]
  | .bqnt _ a f => [(a.toNat, f.pairs)]
  | .bdeq _ a => [(a.toNat, 16)]
  | .bhdr _ a => [(a.toNat, 16)]
  | .sample _ a _ => [(a.toNat, 1)]
  | .topk _ a _ => [(a.toNat, 1)]
  | .rngu _ a _ => [(a.toNat, 2)]
  | .lblget _ a _ => [(a.toNat, 1)]
  | .lblt _ a _ => [(a.toNat, 1)]
  | _ => []

/-- The tiles an instruction names (R71). -/
def tileRange : Instr → Nat × Nat
  | .mma _ t _ _ => (t.toNat, 1)
  | .mmaz _ t _ _ => (t.toNat, 1)
  | .mman _ t _ _ => (t.toNat, 1)
  | .aclr _ t => (t.toNat, 1)
  | .acvt _ t _ _ => (t.toNat, 1)
  | .abq _ t _ f => (t.toNat, f.tiles)
  | .ast _ t _ => (t.toNat, 1)
  | .ald _ t _ => (t.toNat, 1)
  | .amrg _ t _ => (t.toNat, 1)
  | .aexp _ t _ => (t.toNat, 1)
  | .fsel t _ _ => (t.toNat, 1)
  | _ => (0, 0)

/-- Instructions whose immediate or offset an IMM hint widens (R235, R238). -/
def takesImm : Instr → Bool
  | .br _ => true
  | .bcc _ _ => true
  | .bkz _ _ => true
  | .bknz _ _ => true
  | .call _ => true
  | .trap _ => true
  | .saddi _ _ _ => true
  | .sandi _ _ _ => true
  | .sori _ _ _ => true
  | .sxori _ _ _ => true
  | .scmpi _ _ => true
  | .slui _ _ => true
  | .smuli _ _ _ => true
  | .vaddi _ _ _ _ => true
  | .vmuli _ _ _ _ => true
  | .vandi _ _ _ _ => true
  | .vori _ _ _ _ => true
  | .vxori _ _ _ _ => true
  | .vmovi _ _ _ => true
  | .vmini _ _ _ _ => true
  | .vmaxi _ _ _ _ => true
  | .ldsW _ _ _ _ => true
  | .ldsD _ _ _ _ => true
  | .stsW _ _ _ _ => true
  | .stsD _ _ _ _ => true
  | .ldsN8 _ _ _ _ => true
  | .ldsN16 _ _ _ _ => true
  | .stsB8 _ _ _ _ => true
  | .stsH16 _ _ _ _ => true
  | .yield _ _ _ => true
  | _ => false

/-- Instructions an OFF hint applies to (R238). -/
def takesOff : Instr → Bool
  | .ld _ _ _ _ _ => true
  | .ldn _ _ _ _ _ => true
  | .st _ _ _ _ _ => true
  | .stn _ _ _ _ _ => true
  | .ldsW _ _ _ _ => true
  | .ldsD _ _ _ _ => true
  | .stsW _ _ _ _ => true
  | .stsD _ _ _ _ => true
  | .ldsN8 _ _ _ _ => true
  | .ldsN16 _ _ _ _ => true
  | .stsB8 _ _ _ _ => true
  | .stsH16 _ _ _ _ => true
  | .atom _ _ _ _ _ _ => true
  | .satom _ _ _ _ _ _ _ => true
  | _ => false

/-- Instructions before which no MOD hint may stand: NOP, DLY and those of R293. -/
def barsMod : Instr → Bool
  | .nop => true
  | .dly _ => true
  | .trap _ => true
  | .brk => true
  | .reth => true
  | .callg _ _ _ => true
  | .mma _ _ _ _ => true
  | .mmaz _ _ _ _ => true
  | .mman _ _ _ _ => true
  | .aclr _ _ => true
  | .acvt _ _ _ _ => true
  | .abq _ _ _ _ => true
  | .ast _ _ _ => true
  | .ald _ _ _ => true
  | .amrg _ _ _ => true
  | .ami _ _ _ => true
  | .aexp _ _ _ => true
  | .bqnt _ _ _ => true
  | .bdeq _ _ => true
  | .bhdr _ _ => true
  | .tapb _ _ _ _ => true
  | .fsel _ _ _ => true
  | .tapr _ _ _ _ => true
  | .tape _ _ _ _ => true
  | .tapl _ _ => true
  | .taph _ _ _ => true
  | .sample _ _ _ => true
  | .topk _ _ _ => true
  | .mergek _ _ _ _ => true
  | .rngu _ _ _ => true
  | .lblget _ _ _ => true
  | .lbls _ _ => true
  | .lblt _ _ _ => true
  | .srd _ _ => true
  | .swr _ _ => true
  | .gprd _ _ => true
  | .gpwr _ _ => true
  | .spext _ _ _ => true
  | .invl _ _ _ => true
  | .icinv _ _ => true
  | _ => false

/-- Instructions a rounding field acts on (R38). -/
def takesRound : Instr → Bool
  | .fadd _ _ _ _ => true
  | .fsub _ _ _ _ => true
  | .fmul _ _ _ _ => true
  | .ffma _ _ _ _ => true
  | .fmin _ _ _ _ => true
  | .fmax _ _ _ _ => true
  | .fabs _ _ _ => true
  | .fneg _ _ _ => true
  | .frcp _ _ _ => true
  | .frsq _ _ _ => true
  | .fexp2 _ _ _ => true
  | .flog2 _ _ _ => true
  | .ffloor _ _ _ => true
  | .ffrac _ _ _ => true
  | .badd2 _ _ _ _ => true
  | .bmul2 _ _ _ _ => true
  | .bfma2 _ _ _ _ => true
  | .bmax2 _ _ _ _ => true
  | .cvtF32I32 _ _ _ => true
  | .cvtF32N32 _ _ _ => true
  | .cvtI32F32 _ _ _ => true
  | .cvtN32F32 _ _ _ => true
  | .cvtBf2F32 _ _ _ _ => true
  | .cvtF32Bfl _ _ _ => true
  | .cvtF32Bfh _ _ _ => true
  | .fadds _ _ _ _ => true
  | .fmuls _ _ _ _ => true
  | .ffmas _ _ _ _ => true
  | .scanf _ _ _ => true
  | .redf _ _ _ => true
  | _ => false

/-- Instructions the saturate bit acts on (R238, R255). -/
def takesSat : Instr → Bool
  | .fadd _ _ _ _ => true
  | .fsub _ _ _ _ => true
  | .fmul _ _ _ _ => true
  | .ffma _ _ _ _ => true
  | .fmin _ _ _ _ => true
  | .fmax _ _ _ _ => true
  | .fabs _ _ _ => true
  | .fneg _ _ _ => true
  | .frcp _ _ _ => true
  | .frsq _ _ _ => true
  | .fexp2 _ _ _ => true
  | .flog2 _ _ _ => true
  | .ffloor _ _ _ => true
  | .ffrac _ _ _ => true
  | .badd2 _ _ _ _ => true
  | .bmul2 _ _ _ _ => true
  | .bfma2 _ _ _ _ => true
  | .bmax2 _ _ _ _ => true
  | .fadds _ _ _ _ => true
  | .fmuls _ _ _ _ => true
  | .ffmas _ _ _ _ => true
  | _ => false

/-- Loads through the L1, by their word; LDH and SPHAS depend on their handle (R93). -/
def takesPolicy : Instr → Bool
  | .ld _ _ _ _ _ => true
  | .ldn _ _ _ _ _ => true
  | .ldsW _ _ _ _ => true
  | .ldsD _ _ _ _ => true
  | .ldsN8 _ _ _ _ => true
  | .ldsN16 _ _ _ _ => true
  | .ldh _ _ _ _ => true
  | .sphas _ _ _ _ => true
  | _ => false

/-! ### Hint groups -/

/-- IMM payloads of the group, in order (R235). -/
def immWords (hs : List Instr) : List Nat := hs.filterMap fun | .imm v => some v.toNat | _ => none

/-- The MOD hint's fields: policy, saturate, rounding; all zero without one. -/
def modOf (hs : List Instr) : CachePol × Bool × Rounding :=
  (hs.findSome? fun | .mod p s r => some (p, s, r) | _ => none).getD (.normal, false, .rne)

/-- The rounding mode in force (R38). -/
def Dev.rnd (d : Dev) : Rounding := (modOf d.cur.hints).2.2
/-- The saturate bit in force (R255). -/
def Dev.sat (d : Dev) : Bool := (modOf d.cur.hints).2.1
/-- The cache policy in force (R93). -/
def Dev.pol (d : Dev) : CachePol := (modOf d.cur.hints).1

/-- The OFF hint's signed bytes, 0 without one (R235). -/
def offOf (hs : List Instr) : Int := (hs.findSome? fun | .off n => some n.toInt | _ => none).getD 0

/-- How many hints of a kind stand in the group. -/
def hintCount (hs : List Instr) (p : Instr → Bool) : Nat := (hs.filter p).length

def isImm : Instr → Bool | .imm _ => true | _ => false
def isRun : Instr → Bool | .run _ => true | _ => false
def isOff : Instr → Bool | .off _ => true | _ => false
def isMod : Instr → Bool | .mod _ _ _ => true | _ => false
def isPrio : Instr → Bool | .prio _ => true | _ => false
def isRegion : Instr → Bool | .region => true | _ => false
def isLives (c : Nat) : Instr → Bool | .lives k _ => k.toNat == c | _ => false
/-- The words of a LIVE point (R227). -/
def isLive : Instr → Bool | .livev _ _ => true | .lives _ _ => true | .livep _ _ => true | _ => false

/-- A LIVEP range lies within .scratch (R238). -/
def livepOk (scratch : Nat) : Instr → Bool
  | .livep s c => decide ((s.toNat + c.toNat + 1) * 256 ≤ scratch)
  | _ => true

/-- The hint group may stand before the instruction (R38, R93, R238, R239, R293). -/
def hintsOk (t : Team) (i : Instr) : Bool :=
  match t.hints with
  | [] => true
  | hs =>
    let m := modOf hs
    decide (hintCount hs isImm ≤ 2) && decide (hintCount hs isRun ≤ 1) && decide (hintCount hs isOff ≤ 1) &&
    decide (hintCount hs isMod ≤ 1) && decide (hintCount hs isPrio ≤ 1) && decide (hintCount hs isRegion ≤ 1) &&
    (upFrom 0 6).all (fun c => decide (hintCount hs (isLives c) ≤ 1)) && hs.all (livepOk t.decl.scratch) &&
    (hintCount hs isImm == 0 || takesImm i) && (hintCount hs isOff == 0 || takesOff i) &&
    (hintCount hs isMod == 0 || (!barsMod i && (m.1 == .normal || takesPolicy i) && (!m.2.1 || takesSat i) && (m.2.2 == .rne || takesRound i)))

/-- Every register and tile named lies below what the kernel declares (R65, R71, R233). -/
def declOk (t : Team) (i : Instr) : Bool :=
  (vranges i).all (fun r => decide (124 ≤ r.1) || decide (r.1 + r.2 ≤ t.decl.vregs)) &&
  ((tileRange i).2 == 0 || decide ((tileRange i).1 + (tileRange i).2 ≤ t.decl.acc))

/-- The word of an instruction (R234). -/
def wordOf (i : Instr) : Nat := (encode i).getD 0

/-- Whether a word's meaning ended in a trap or a translation fault at its own position. -/
def raisedAt (d d' : Dev) : Bool :=
  match d'.cur.wait with
  | .trap t => t.cause != 0x0F
  | .exit _ (some t) => t.cause != 0x0F
  | .tfault _ => true
  | _ => d'.cur.pos == d.cur.pos && d'.cur.pc != d.cur.pc

/-- RANK of handle h (R73). -/
def Team.rank (t : Team) (h : Nat) : Nat := (mget 0 (mget {} t.regs.hnd h).words 0).toNat / 256 % 256

/-- The first lane of the selection group (R312); none when k0 is empty. -/
def selGroup (d : Dev) : Option Nat :=
  match d.act with
  | [] => none
  | l :: _ => some (d.cur.decl.group * (l / d.cur.decl.group))

/-- The active lanes of the selection group, whose others SAMPLE and TOPK ignore (R312). -/
def selLanes (d : Dev) : List Nat :=
  match selGroup d with
  | none => []
  | some g => d.act.filter fun l => decide (g ≤ l) && decide (l < g + d.cur.decl.group)

/-- The lanes whose vector registers a word reads: the active ones, those of the selection group, or the lane that LBLGET names (R317). -/
def readLanes (d : Dev) : Instr → List Nat
  | .sample _ _ _ => selLanes d
  | .topk _ _ _ => selLanes d
  | .lblget _ _ b => let l := (sread d 2 b.toNat).val.toNat % 2 ^ 32; if d.cur.lanes ≤ l then [] else [l]
  | _ => d.act

/-- The lanes of register reads that meet an uncorrectable register lane, with the register (R105). -/
def badReads (d : Dev) (i : Instr) : List (Nat × Nat) :=
  (readLanes d i).flatMap fun l => ((vsources d.cur.rank i).flatMap fun p => upFrom p.1 p.2).filterMap fun r =>
    if d.cur.badV.contains (1024 * r + l) then some (l, r) else none

/-- A register lane's address in the register window (R83). -/
def regAddr (lanes r l : Nat) : Nat := 0xFFFFF80000000000 + (r * lanes + l) * 4

/-- A word that reads an uncorrectable register lane takes the uncorrectable-data trap (R105) unless a lower cause was raised. -/
def guardRegs (fw : Fw) (d : Dev) (i : Instr) (d' : Dev) : Dev :=
  match d.cur.badV with
  | [] => d'
  | _ =>
    match badReads d i with
    | [] => d'
    | (l, r) :: rest =>
      if raisedAt d d' then d'
      else trapIssue fw d 0x0D (lanesMask (l :: rest.map (·.1))) (regAddr d.cur.lanes r l) 0

/-- A word at its position: an illegal combination takes the illegal-instruction trap of R243 with nothing performed. -/
def word (i : Instr) (s : State) (f : Fw → Dev → Dev) : Host.Outcome State Fault Refusal :=
  .next { s with dev := if hintsOk s.dev.cur i && declOk s.dev.cur i then guardRegs s.fw s.dev i (f s.fw (noteStep s.dev)) else trapIllegal s.fw s.dev (wordOf i) 0 }

/-! ### Immediates (R235) -/

/-- The field widened by the group's IMM words. -/
def widen (d : Dev) (field : Nat) (bits : Nat) : Nat × Nat :=
  let ws := immWords d.cur.hints
  ((ws.foldl (fun a w => a * 2 ^ 22 + w) 0) * 2 ^ bits + field, 22 * ws.length + bits)

/-- A two's-complement value of a width as 64 bits. -/
def sext64 (v bits : Nat) : Dword := if v / 2 ^ (bits - 1) % 2 = 1 then BitVec.ofInt 64 ((v : Int) - 2 ^ bits) else BitVec.ofNat 64 v

/-- The sign-extended immediate. -/
def immS (d : Dev) (field bits : Nat) : Dword := let w := widen d field bits; sext64 w.1 w.2
/-- The zero-extended immediate. -/
def immZ (d : Dev) (field bits : Nat) : Dword := BitVec.ofNat 64 (widen d field bits).1

/-- A PC-relative target (R231). -/
def relTarget (d : Dev) (field bits : Nat) : Dword := d.cur.pc + 4 * immS d field bits

/-! ### The frame of a fixed-latency vector result (R245) -/

/-- The label set of lane l of the vector fields. -/
def srcLabel (d : Dev) (srcs : List Nat) (l : Nat) : OSet :=
  (srcs.zip (upFrom 1 srcs.length)).foldl (fun s p => s ||| d.cur.org (vread d p.2 p.1 l).lbl) 0

/-- The values of lane l of the vector fields. -/
def srcVals (d : Dev) (srcs : List Nat) (l : Nat) : List Nat :=
  (srcs.zip (upFrom 1 srcs.length)).map fun p => (vread d p.2 p.1 l).val.toNat

/-- Push a result into the latches (R26): b1, b2 and b3 are the last three; a read outside a run may meet any (R28). -/
def pushLatch (t : Team) (lat : Nat) (lanes : SMap LVal) : Team :=
  let inRun := t.runOpen && decide (t.pos ≤ t.runEnd)
  let b : Latch := { run := if inRun then t.runId else 0, ready := t.pos + lat, lanes }
  { t with regs := { t.regs with latches := b :: t.regs.latches } }

/-- The sticky bit of a latch read that broke R27 (R28, R79): d is the machine that read, d' the one that goes on. -/
def noteLatch (d : Dev) (srcs : List Nat) (d' : Dev) : Dev :=
  if srcs.any (badLatch d.cur) && !d.act.isEmpty then d'.updS fun s => { s with tstat := s.tstat ||| 0x10000#19 } else d'

/-- Write results of lanes, allocating labels in ascending lane order (R75, R245, R246); a full table traps before any register,
latch or flag changes. `k` continues. -/
def putLanes (fw : Fw) (d : Dev) (lat : Nat) (vd : Nat) (write push : Bool) (rs : List (Nat × Word × OSet)) (k : Dev → Dev) : Dev :=
  let (ix, labels, failed, fs) := allocLanes d.cur.regs.labels (rs.map fun r => (r.1, r.2.2))
  if failed.isEmpty then
    let vals := (rs.zip ix).map fun p => (p.1.1, ({ val := p.1.2.1, lbl := p.2.2 } : LVal))
    let t0 := { d.cur with regs := { d.cur.regs with labels } }
    let t1 := if write && vd != 127 then vals.foldl (fun t p => t.vset vd p.1 p.2 lat) t0 else t0
    let t2 := if push then pushLatch t1 lat (vals.foldl (fun m p => mset {} m p.1 p.2) []) else t1
    k { d with cur := t2 }
  else
    trapIssue fw (d.updR fun r => { r with labels }) 0x0C (lanesMask (needLanes d.cur.regs.labels (rs.map fun r => (r.1, r.2.2)))) fs.toNat 0

/-- A vector instruction (R245): every active lane l takes fn l (source values), with label the join of its sources' and `extra`. -/
def vectorOp (fw : Fw) (n : Bool) (vd lat : Nat) (srcs : List Nat) (extra : OSet) (fn : Nat → List Nat → Nat) (d : Dev) : Dev :=
  let k := d.k0
  let rs := d.act.map fun l => (l, BitVec.ofNat 32 (fn l (srcVals d srcs l)), srcLabel d srcs l ||| extra)
  putLanes fw d lat vd (!n) true rs fun d' => finishV fw k (noteLatch d srcs d')

/-- The two-source form. -/
def vector2 (fw : Fw) (n : Bool) (vd lat a b : Nat) (fn : Nat → Nat → Nat) (d : Dev) : Dev :=
  vectorOp fw n vd lat [a, b] 0 (fun _ xs => fn (nthD 0 xs 0) (nthD 0 xs 1)) d
/-- The one-source form. -/
def vector1 (fw : Fw) (n : Bool) (vd lat a : Nat) (fn : Nat → Nat) (d : Dev) : Dev :=
  vectorOp fw n vd lat [a] 0 (fun _ xs => fn (nthD 0 xs 0)) d
/-- The three-source form, which reads vd. -/
def vector3 (fw : Fw) (n : Bool) (vd lat a b : Nat) (fn : Nat → Nat → Nat → Nat) (d : Dev) : Dev :=
  vectorOp fw n vd lat [a, b, vd] 0 (fun _ xs => fn (nthD 0 xs 0) (nthD 0 xs 1) (nthD 0 xs 2)) d

/-- A scalar result with its origin set (R246): one index, a full table traps; sz discards the result and needs none. -/
def putScalar (fw : Fw) (d : Dev) (sd : Nat) (v : Dword) (s : OSet) (lat : Nat) (k : Dev → Dev) : Dev :=
  if sd = 63 then k d
  else match allocLabel d.cur.regs.labels s with
  | some (i, labels) => k (d.upd fun t => ({ t with regs := { t.regs with labels } } : Team).sset sd { val := v, lbl := i } lat)
  | none => trapIssue fw d 0x0C (allLanes d.cur.lanes) s.toNat 0

/-- Value of a scalar field as a number, and its origin set. -/
def sval (d : Dev) (slot s : Nat) : Dword := (sread d slot s).val
def sorg (d : Dev) (slot s : Nat) : OSet := d.cur.org (sread d slot s).lbl

/-! ### Addresses -/

/-- What resolving one lane's address comes to. -/
inductive Res where
  | ok (t : Target) (e : Option TlbEnt)
  | refused (reason cls : Nat)
  | missing (reason : Nat)
  | bound (size : Nat)
deriving DecidableEq, Repr

/-- Bytes of the register run as the register window shows it (R83). -/
def regBytes (t : Team) : Nat := t.decl.vregs * t.lanes * 4

/-- Resolve an address of half `half` of the acting team (R85, R86, R83, R130), with the pages looked up so far. `regs` says whether the register
window is open to the access, `win` whether any window is: no rule says what an address of a dense-described handle in a window comes to, and such
an access takes the unrecoverable translation fault with reason 1 (entry 39). -/
def resolveIn (fw : Fw) (ps : Pages) (d : Dev) (half : Nat) (n : Need) (win regs : Bool) (va : Dword) (len : Nat) : Res × Pages × Dev :=
  let t := d.cur
  if inScratch va && win then
    let off := va.toNat - 0xFFFFF00000000000
    (if off + len ≤ t.decl.scratch then .ok (.scr half off) none else .bound t.decl.scratch, ps, d)
  else if inRegWin va && win then
    let off := va.toNat - 0xFFFFF80000000000
    (if regs && decide (off + len ≤ regBytes t) then .ok (.reg (off / 4 / t.lanes) (off / 4 % t.lanes) (off % 4)) none else .bound (regBytes t), ps, d)
  else
    match translateIn fw ps d (t.core + half) t.part n va with
    | (.ok e, r) => (.ok (.mem (e.pa va) e.ent (!e.mi)) (some e), r)
    | (.refused r c, q) => (.refused r c, q)
    | (.missing r, q) => (.missing r, q)

/-- Resolve one address. -/
def resolve (fw : Fw) (d : Dev) (half : Nat) (n : Need) (win regs : Bool) (va : Dword) (len : Nat) : Res × Dev :=
  let r := resolveIn fw [] d half n win regs va len
  (r.1, r.2.2)

/-- A lane's access before it is resolved: lane, address, bytes, data, labels, further operand; its own alignment and need, where an
instruction has accesses of two kinds. -/
structure Want where
  lane : Nat
  va : Dword
  len : Nat
  data : Nat := 0
  lbl : OSet := 0
  albl : OSet := 0
  aux : Nat := 0
  align : Nat := 0
  need : Option Need := none
deriving DecidableEq, Repr

/-- Resolve every lane's address in turn, with the pages looked up so far. -/
def resolveGo (fw : Fw) (n : Need) (win regs : Bool) : List Want → Pages → Dev → List (Want × Res) × Dev
  | [], _, d => ([], d)
  | w :: r, ps, d =>
    let x := resolveIn fw ps d (d.cur.halfOf w.lane) (w.need.getD n) win regs w.va w.len
    let xs := resolveGo fw n win regs r x.2.1 x.2.2
    ((w, x.1) :: xs.1, xs.2)

/-- Resolve every lane's address, each distinct page looked up once (R129). -/
def resolveAll (fw : Fw) (n : Need) (win regs : Bool) (ws : List Want) (d : Dev) : List (Want × Res) × Dev := resolveGo fw n win regs ws [] d

/-- The armed words among the scratchpad words that a store touches (R104). -/
def armedIn (r : Regs) (half off len : Nat) : List Nat :=
  (upFrom (off / 8) ((off + len + 7) / 8 - off / 8)).filter fun dw => (mget {} r.scr (half * 2 ^ 20 + 2 * dw)).armed

/-- The first of them. -/
def armedAt (r : Regs) (half off len : Nat) : Option Nat := (armedIn r half off len).head?

/-- The barrier word a resolved access would clobber, the first where it is several. -/
def clobbers (r : Regs) (x : Want × Res) : Option Nat :=
  match x.2 with
  | .ok (.scr h o) _ => armedAt r h o x.1.len
  | _ => none

/-- All of them, with their half. -/
def clobbered (r : Regs) (x : Want × Res) : List (Nat × Nat) :=
  match x.2 with
  | .ok (.scr h o) _ => (armedIn r h o x.1.len).map fun w => (h, w)
  | _ => []

/-- BERR of an armed word is set and it is disarmed; its waiters find ARMED clear (R104). -/
def clobberWord (d : Dev) (half dw : Nat) : Dev :=
  d.updR fun r =>
    let a := half * 2 ^ 20 + 2 * dw
    let hi := mget {} r.scr (a + 1)
    let lo := mget {} r.scr a
    { r with scr := mset {} (mset {} r.scr (a + 1) { hi with val := hi.val ||| 0x80000000 }) a { lo with armed := false } }

/-- The k14 of a per-lane cause: the failing lanes. -/
def failMask (d : Dev) (l : List (Want × Res)) : Mask := d.cur.laneMask (l.map fun x => x.1.lane)

/-- The team waits for Limamon to resolve a translation fault (R128, R133): operations issued at or after the restart point that have
not completed are aborted; their lanes already performed stay. It ends no run (R27). -/
def faultTeam (d : Dev) (va : Dword) (i : TrapInfo) : Dev :=
  let t := d.cur
  let gone := t.ops.filter fun o => decide (t.restartOp ≤ o.id) && !o.done
  let d1 := unpinFrames d (gone.flatMap (·.pins))
  (d1.upd fun t => { t with ops := t.ops.filter fun o => !(decide (t.restartOp ≤ o.id) && !o.done), wait := .tfault { va, trap := i } }).retire

/-- The class TINFO1 holds of a page without a combined translation (R134): that of its frame entry, where the walk found one. -/
def missClass (fw : Fw) (d : Dev) (va : Dword) : Nat :=
  match walk fw d d.cur.part 0 (vpnOf va) with | .hit e => (d.frame e).cls.toNat | _ => 0

/-- A fault of the acting team that Limamon may resolve; unresolved it is the trap of R134 at this position, with `ti0` the address. -/
def missAt (fw : Fw) (d : Dev) (k14 : Mask) (va ti0 : Dword) (reason : Nat) : Dev :=
  faultTeam d va { cause := 5, tpc := d.cur.first, k14, ti0, ti1 := BitVec.ofNat 64 (reason * 16 + missClass fw d va) }

/-- The same at the address itself. -/
def missTeam (fw : Fw) (d : Dev) (k14 : Mask) (va : Dword) (reason : Nat) : Dev := missAt fw d k14 va va reason

/-- Address of the lowest access of a list. -/
def lowVa (l : List (Want × Res)) : Nat := match l with | [] => 0 | x :: _ => x.1.va.toNat

/-- The checks of a memory instruction in the order of their causes (R219, R273): translation, alignment, window bound, armed words,
ceiling; an engine checks armed words and ceilings when it writes (R102, R104). `k` runs with the resolved accesses when every check
passes. -/
def accesses (fw : Fw) (n : Need) (win regs : Bool) (ws : List Want) (align : Nat) (d : Dev)
    (k : List Acc → Dev → Dev) : Dev :=
  let (rs, d1) := resolveAll fw n win regs ws d
  let refused := rs.filter fun x => match x.2 with | .refused _ _ => true | _ => false
  let missing := rs.filter fun x => match x.2 with | .missing _ => true | _ => false
  let mis := rs.filter fun x => x.1.va.toNat % (if x.1.align = 0 then align else x.1.align) ≠ 0
  let out := rs.filter fun x => match x.2 with | .bound _ => true | _ => false
  let own := n.w && !(n.e && n.cls != .merge)
  let clob := if own then rs.filter fun x => (clobbers d.cur.regs x).isSome else []
  let above := if own then rs.filter fun x => match x.2 with
    | .ok _ (some e) => (x.1.lbl ||| x.1.albl) &&& ~~~e.ceil ≠ 0
    | _ => false else []
  match refused with
  | x :: _ => trapIssue fw d1 5 (failMask d refused) (lowVa refused) (match x.2 with | .refused r c => r * 16 + c | _ => 0)
  | [] =>
  match missing with
  | x :: _ => missTeam fw d1 (failMask d missing) x.1.va (match x.2 with | .missing r => r | _ => 0)
  | [] =>
  match mis with
  | _ :: _ => trapIssue fw d1 6 (failMask d mis) (lowVa mis) 0
  | [] =>
  match out with
  | x :: _ => trapIssue fw d1 7 (failMask d out) (lowVa out) (match x.2 with | .bound s => s | _ => 0)
  | [] =>
  match clob with
  | x :: _ =>
    let d2 := (clob.flatMap (clobbered d.cur.regs)).foldl (fun d p => clobberWord d p.1 p.2) d1
    trapIssue fw d2 8 (failMask d clob)
      (0xFFFFF00000000000 + 8 * ((clobbers d.cur.regs x).getD 0)) 0
  | [] =>
  match above with
  | x :: _ => trapIssue fw d1 9 (failMask d above) (lowVa above) (match x.2 with | .ok _ (some e) => e.ceil.toNat | _ => 0)
  | [] =>
    k (rs.filterMap fun x => match x.2 with
      | .ok t _ => some { lane := x.1.lane, va := x.1.va, tgt := t, len := x.1.len, data := x.1.data, lbl := x.1.lbl, albl := x.1.albl, aux := x.1.aux }
      | _ => none) d1

/-- Posting to a token (R29): the token-overflow trap comes first, as the lower cause. -/
def posting (fw : Fw) (q : Nat) (d : Dev) (k : Dev → Dev) : Dev :=
  if 255 ≤ d.cur.count q then trapIssue fw d 4 d.k0 q 0 else k d

/-- Post an operation; one with nothing to do completes at once. -/
def postOp (d : Dev) (q : Nat) (kind : OpKind) (pins : List Nat) (empty : Bool) : Dev :=
  let id := d.cur.nextOp
  let d1 := pinFrames (d.upd fun t => t.post (some q) kind pins false d.free) pins
  if empty then finishOp d1 id false else d1

/-- A region ends at this position: a replay starts after it (R133). -/
def endRegion (t : Team) : Team := { t with restart := t.pc + 4, restartOp := t.nextOp }

/-- The frame-table entries of accesses, once each. -/
def accEnts (as : List Acc) : List Nat :=
  as.foldl (fun l a => match a.tgt with | .mem _ e _ => if l.contains e then l else e :: l | _ => l) []

end Sys2Proof.Machine
end

