-- ==== Sys2Proof/Machine/Access.lean ====
section
/-! DEFINITION. How accesses are performed: the Lodge's test, loads, stores and atomics at their homes, and the events that perform
them (R85-R92, R101-R106, R141-R144, R170-R173, R221, R271-R276, R356). -/
namespace Sys2Proof.Machine

/-! ### Events -/

/-- The acting team becomes the team with number tid. -/
def Dev.focus (d : Dev) (tid : Nat) : Option Dev :=
  if d.cur.live && d.cur.key == tid then some d
  else match d.rest.find? fun t => t.live && t.key == tid with
    | none => none
    | some t => some { d with cur := t, rest := (if d.cur.live then [d.cur] else []) ++ d.rest.filter fun u => u.key != tid }

/-- An event: it happens when f answers, else nothing changes (entry 2). -/
def event (σ : State) (f : Fw → EventArgs → Dev → Option Dev) : Host.Outcome State Fault Refusal :=
  .next { σ with dev := (f σ.fw σ.args σ.dev).getD σ.dev }

/-- An event of a team. -/
def teamEvent (σ : State) (f : Fw → EventArgs → Dev → Option Dev) : Host.Outcome State Fault Refusal :=
  event σ fun fw a d => (d.focus a.tid).bind (f fw a)

/-- An event that ends a team's wait: not while the team's save drains at a LIVE point, which the team does not leave (R227). -/
def releaseEvent (σ : State) (f : Fw → EventArgs → Dev → Option Dev) : Host.Outcome State Fault Refusal :=
  teamEvent σ fun fw a d => if d.cur.save = some .atPoint then none else f fw a d

/-- An event of a pending operation of a team. -/
def opEvent (σ : State) (f : Fw → EventArgs → Op → Dev → Option Dev) : Host.Outcome State Fault Refusal :=
  teamEvent σ fun fw a d =>
    match d.cur.op a.op with
    | some o => if o.done then none else f fw a o d
    | none => none

/-- Change the kind of operation n. -/
def Dev.setKind (d : Dev) (n : Nat) (k : OpKind) : Dev := d.upd fun t => t.setOp n fun o => { o with kind := k }
/-- Set the error status of operation n. -/
def Dev.setErr (d : Dev) (n : Nat) : Dev := d.upd fun t => t.setOp n fun o => { o with err := true }

/-! ### The Lodge (R170-R173, R356) -/

/-- Destination descriptors in 64 bytes (R171): kind, base, length in bytes. -/
def destsOf (bs : List Byte) : List (Nat × Nat × Nat) :=
  (upFrom 0 4).map fun i => (fieldAt bs (16 * i + 12) 1, fieldAt bs (16 * i) 8, 65536 * fieldAt bs (16 * i + 8) 4)

/-- A transfer to base..base+len-1 falls within a descriptor; a partition is named by its number, and its range is as long as LEN says
(entry 26). -/
def destFits (bs : List Byte) (kind base len : Nat) : Bool :=
  (destsOf bs).any fun d => d.1 == kind && d.2.2 != 0 &&
    (if kind = 3 then d.2.1 == base && decide (len ≤ d.2.2) else decide (d.2.1 ≤ base) && decide (base + len ≤ d.2.1 + d.2.2))

/-- The Lodge's test of a transfer of partition part: the policy entries it is admitted under, or none when it is refused. -/
def lodge (fw : Fw) (part : Nat) (lbl : OSet) (kind base len : Nat) : Option (List Nat) :=
  if lbl = 0 then (if kind = 3 then (if base = part then some [] else none) else some [])
  else if lbl &&& (lbl - 1) = 0 then
    match (upFrom 0 32).find? fun i => lbl.getLsbD i with
    | some o => if destFits (mget {} fw.origins (32 * part + o)).dest kind base len then some [] else none
    | none => none
  else
    match fw.policy.find? fun p => p.2.valid && !p.2.clearing && p.2.part == part && lbl &&& ~~~p.2.set == 0 && destFits p.2.dest kind base len with
    | some p => some [p.1]
    | none => none

/-- The record of a refused transfer (R225, R356). -/
def egressRefused (fw : Fw) (d : Dev) (addr bytes : Nat) (lbl : OSet) : Dev := teamFault fw d 0xA02 0x16 0 addr bytes 0 lbl

/-! ### Faults that Limamon resolves (R128, R132-R134) -/

/-- What Limamon finds of a faulting address: its page moves (R132), has no translation, or has one. -/
inductive Repair where
  | moving | missing | there
deriving DecidableEq, Repr

def repairOf (fw : Fw) (d : Dev) (part : Nat) (va : Dword) : Repair :=
  match walk fw d part 0 (vpnOf va) with
  | .hit e => if (d.frame e).mig ≠ 0 then .moving else (match freshXl fw d part 0 (vpnOf va) with | .ok _ => .there | .error _ => .missing)
  | _ => .missing

/-- Limamon resolves a fault only once the page has a translation, and gives up only where it has none (R128, R132). -/
def mayResolve (r : Repair) (ok : Bool) : Bool := if ok then r = .there else r = .missing

/-! ### Places -/

/-- A byte of the scratchpad (R85). -/
def scrByte (r : Regs) (half off : Nat) : Nat := (mget {} r.scr (half * 2 ^ 20 + off / 4)).val.toNat / 2 ^ (8 * (off % 4)) % 256
/-- n bytes of the scratchpad. -/
def scrNat (r : Regs) (half off : Nat) : Nat → Nat
  | 0 => 0
  | n + 1 => scrByte r half off + 256 * scrNat r half (off + 1) n
/-- Words a range of bytes touches. -/
def wordsOf (off n : Nat) : List Nat := if n = 0 then [] else upFrom (off / 4) ((off + n - 1) / 4 + 1 - off / 4)
/-- Join of the labels of the words read (R91). -/
def scrLabel (t : Team) (half off n : Nat) : OSet :=
  (wordsOf off n).foldl (fun s w => s ||| t.org (mget {} t.regs.scr (half * 2 ^ 20 + w)).lbl) 0

/-- Scratchpad words in error that n bytes meet and do not cover (R106). -/
def scrNarrow (t : Team) (half off n : Nat) : List Nat :=
  match t.badS with
  | [] => []
  | bad => (wordsOf off n).filter fun w => bad.contains (half * 2 ^ 20 + w) && !(decide (off ≤ 4 * w) && decide (4 * w + 4 ≤ off + n))

/-- Write n bytes of a scratchpad: every word written whole takes set s, a word written in part joins its old label (R91), a word in error
that is not covered stays as it is (R106). None when the label table has no entry for a set. -/
def scrWrite (t : Team) (half off n data : Nat) (s : OSet) : Except OSet Team :=
  (wordsOf off n).foldl (fun acc w =>
    match acc with
    | .error e => .error e
    | .ok t =>
      let k := half * 2 ^ 20 + w
      let old := mget {} t.regs.scr k
      let whole := decide (off ≤ 4 * w) && decide (4 * w + 4 ≤ off + n)
      if !whole && t.badS.contains k then .ok t else
      let set := if whole then s else s ||| t.org old.lbl
      match allocLabel t.regs.labels set with
      | none => .error set
      | some (i, labels) =>
        let v := (upFrom 0 4).foldl (fun v j =>
          let a := 4 * w + j
          let b := if decide (off ≤ a) && decide (a < off + n) then data / 2 ^ (8 * (a - off)) % 256 else old.val.toNat / 2 ^ (8 * j) % 256
          v + b * 2 ^ (8 * j)) 0
        let x : ScrWord := { val := BitVec.ofNat 32 v, lbl := i, armed := old.armed }
        .ok { t with regs := { t.regs with labels, scr := mset {} t.regs.scr k x }, badS := if whole then t.badS.filter (· != k) else t.badS }) (.ok t)

/-- A position of the register run as a number: register lanes follow each other (R83). -/
def Target.linear (lanes : Nat) : Target → Nat
  | .mem pa _ _ => pa
  | .scr h o => h * 2 ^ 22 + o
  | .reg r l b => (r * lanes + l) * 4 + b

/-- Two accesses of a team meet in a byte. -/
def Target.meets (lanes : Nat) (a : Target) (n : Nat) (b : Target) (m : Nat) : Bool :=
  (match a, b with
    | .mem _ _ _, .mem _ _ _ => true
    | .scr _ _, .scr _ _ => true
    | .reg _ _ _, .reg _ _ _ => true
    | _, _ => false) &&
  decide (a.linear lanes < b.linear lanes + m) && decide (b.linear lanes < a.linear lanes + n)

/-- The accesses of an operation that its team's program order covers (R141). -/
def OpKind.accs : OpKind → List Acc
  | .load _ _ as => as
  | .store as => as
  | .code as => as
  | .atomic _ _ _ as => as
  | _ => []

/-- Whether an operation writes memory as a store or atomic does. -/
def OpKind.isWrite : OpKind → Bool
  | .store _ => true
  | .code _ => true
  | .atomic _ _ _ _ => true
  | _ => false

/-- Earlier accesses of the team to the same bytes have been performed (R141). -/
def Team.inTurn (t : Team) (n : Nat) (a : Acc) : Bool :=
  t.ops.all fun o => decide (n ≤ o.id) || o.done || o.kind.accs.all fun b => b.fin || !(a.tgt.meets t.lanes a.len b.tgt b.len)

/-- Earlier writes of the team to bytes an engine command is about to read have been performed (R141). -/
def Team.writesDone (t : Team) (n : Nat) (tgt : Target) (len : Nat) : Bool :=
  t.ops.all fun o => decide (n ≤ o.id) || o.done || !o.kind.isWrite || o.kind.accs.all fun b => b.fin || !(tgt.meets t.lanes len b.tgt b.len)

/-! ### Soft errors (R105, R106, R368) -/

/-- One more, saturating at 32 bits (R368). -/
def satInc (w : Word) : Word := if w = 0xFFFFFFFF then w else w + 1

/-- Count an error of a unit at its HBM stack or its L2 slice (R368); `mi`: it lies in a merge page (R98). -/
def countErr (d : Dev) (corrected mi : Bool) (u : Nat) : Dev :=
  let f := fun (p : Word × Word) => if corrected then (satInc p.1, p.2) else (p.1, satInc p.2)
  if d.hbmU.contains u then { d with stackErr := mupd (0, 0) d.stackErr (8 * u / 2 ^ 36 % 8) f }
  else { d with sliceErr := mupd (0, 0) d.sliceErr (homeSlice mi (8 * u)) f }

/-- A read meets units that were in error and are corrected (R105): counted, and clean from then on. -/
def noteCorr (d : Dev) (mi : Bool) (pa n : Nat) : Dev :=
  match d.badCorr with
  | [] => d
  | l =>
    let (hit, stay) := l.partition fun u => decide (8 * u < pa + n) && decide (pa < 8 * u + 8)
    hit.foldl (fun d u => countErr d true mi u) { d with badCorr := stay }

/-- The same over a range that Limamon reads. -/
def noteRange (d : Dev) (l : List (Dword × TlbEnt)) (va len : Nat) : Dev :=
  match d.badCorr with
  | [] => d
  | _ => l.foldl (fun d p =>
      let lo := max va p.1.toNat
      noteCorr d p.2.mi (p.2.pf * 65536 + lo % 65536) (min (va + len) ((lo / 65536 + 1) * 65536) - lo)) d

/-- The same for a read of a partition's memory. -/
def fwNote (fw : Fw) (d : Dev) (part : Nat) (va : Dword) (len : Nat) : Dev :=
  match d.badCorr with
  | [] => d
  | _ => match fwRange fw d part fwR va len with | .ok l => noteRange d l va.toNat len | .error _ => d

/-- The error reporting of the slice that holds an address (R209, R98). -/
def errUnit (mi : Bool) (pa : Nat) : Nat := 0x800 + homeSlice mi pa

/-- The page of a frame-table entry is a merge page (R98). -/
def Dev.merge (d : Dev) (e : Nat) : Bool := (d.frame e).mi

/-- Units in error that n bytes at pa meet (R105), and those that they do not cover (R106). -/
def badUnits (d : Dev) (pa n : Nat) : List Nat := d.badU.filter fun u => decide (8 * u < pa + n) && decide (pa < 8 * u + 8)
def narrowUnits (d : Dev) (pa n : Nat) : List Nat := (badUnits d pa n).filter fun u => !(decide (pa ≤ 8 * u) && decide (8 * u + 8 ≤ pa + n))

/-- Uncorrectable units are met: each is counted (R368). -/
def countBad (d : Dev) (mi : Bool) (us : List Nat) : Dev := us.foldl (fun d u => countErr d false mi u) d

/-- The first unit in error that n bytes at pa meet, as the address of the part of it that is read. -/
def badFirst (d : Dev) (pa n : Nat) : Nat := ((upFrom pa n).find? fun a => d.badU.contains (a / 8)).getD pa

/-! ### Watchpoints (R81, R221) -/

/-- What an access does to the scratchpad (R81): an atomic reads, and where it stores it also writes (entry 40). -/
structure Touch where
  r : Bool := false
  w : Bool := false
deriving DecidableEq, Repr

/-- A watchpoint of kind k selects an access: 1 writes, 2 reads, 3 either. -/
def Touch.chosen (x : Touch) (k : Nat) : Bool := (x.w && k % 2 == 1) || (x.r && k / 2 % 2 == 1)

/-- The watched doublewords an access touches, with the watchpoints that fire on each. -/
def watched (d : Dev) (x : Touch) (a : Acc) : List (Nat × Bool × Bool) :=
  match a.tgt with
  | .scr _ off =>
    let g := d.cur.sp.dbgctl.toNat
    let dwA := d.cur.sp.watcha.toNat / 8
    let dwB := d.cur.sp.watchb.toNat / 8
    (upFrom (off / 8) ((off + a.len - 1) / 8 + 1 - off / 8)).filterMap fun w =>
      let fa := x.chosen (g / 16 % 4) && w == dwA
      let fb := x.chosen (g / 64 % 4) && w == dwB
      if fa || fb then some (w, fa, fb) else none
  | _ => []

/-- The watchpoint cause of an operation's accesses; TINFO0 [2] tells of the access it reports whether it was a write. -/
def watchCause (d : Dev) (x : Acc → Touch) (as : List Acc) : List DoneCause :=
  if d.cur.sp.handling || d.cur.sp.dbgctl.toNat / 16 = 0 then []
  else
    let hits := as.filterMap fun a => match watched d (x a) a with | [] => none | l => some (a, l)
    match hits with
    | [] => []
    | (a, l) :: _ =>
      let h := (l.find? fun y => y.2.1).getD (nthD (0, false, false) l 0)
      [{ code := 0x0E, k14 := d.cur.laneMask (hits.map (·.1.lane)),
         ti0 := 0xFFFFF00000000000 + 8 * h.1 + (if h.2.1 then 1 else 0) + (if h.2.2 then 2 else 0) + (if (x a).w then 4 else 0) }]

/-- Touches of a load and of a store. -/
def readTouch : Acc → Touch := fun _ => { r := true }
def writeTouch : Acc → Touch := fun _ => { w := true }

/-! ### Loads (R271, R142) -/

/-- Whether a load reads its bytes in L2 (R92, R93). -/
def atHome (pol : CachePol) (cached : Bool) : Bool := !cached || pol == .noL1

/-- What a load of operation o returns of n bytes at pa (R142): what their home holds, or through the L1 any write between its bounds, one for all
its lanes (R271). The halves of a paired team share what they have seen (entry 8). -/
def loadBytes (d : Dev) (o : Op) (pol : CachePol) (cached : Bool) (pa n : Nat) : List Byte :=
  if atHome pol cached then memBytes d.mem pa n else boundedBytes d (d.covers o) (d.seenBy d.cur.cores) 8 pa n

/-- The load has read them, as machine d0 had them: its cores have seen those writes, and the L1 of core c uses their line (R92, R93). -/
def noteLoad (d0 : Dev) (o : Op) (c : Nat) (pol : CachePol) (cached : Bool) (pa n : Nat) (d : Dev) : Dev :=
  let home := atHome pol cached
  let time := fun a => if home then d0.wn else readTime d0 (d0.covers o) (d0.seenBy d0.cur.cores) 8 pa n (a / 8)
  noteSeen time d0.cur.cores pa n (if home then d else useLine pol (pa / 128) c d)

/-- What one access of operation o reads: its bytes as a number, their label set with the address label, whether a unit was uncorrectable. -/
def readAcc (d : Dev) (o : Op) (pol : CachePol) (a : Acc) : Nat × OSet × Bool :=
  let t := d.cur
  match a.tgt with
  | .mem pa e cached => (leNat (loadBytes d o pol cached pa a.len), (d.frame e).cur ||| a.albl, badAt d pa a.len)
  | .scr h off =>
    (scrNat t.regs h off a.len, scrLabel t h off a.len ||| a.albl, (wordsOf off a.len).any fun w => t.badS.contains (h * 2 ^ 20 + w))
  | .reg r l b =>
    let w := r * t.lanes + l
    let regs := upFrom w ((b + a.len + 3) / 4)
    let v := regs.foldl (fun v i => v + (vread d 8 (i / t.lanes) (i % t.lanes)).val.toNat * 2 ^ (32 * (i - w))) 0
    (v / 2 ^ (8 * b) % 2 ^ (8 * a.len), regs.foldl (fun s i => s ||| t.org (vread d 8 (i / t.lanes) (i % t.lanes)).lbl) a.albl,
      regs.any fun i => t.badV.contains (1024 * (i / t.lanes) + i % t.lanes))

/-- What reading an access of machine d0 leaves behind: lines and what has been seen, corrected errors. -/
def noteAcc (d0 : Dev) (o : Op) (pol : CachePol) (d : Dev) (a : Acc) : Dev :=
  match a.tgt with
  | .mem pa e cached => noteCorr (noteLoad d0 o (d0.cur.coreOf a.lane) pol cached pa a.len d) (d0.merge e) pa a.len
  | _ => d

/-- Every lane reads what it reads of one machine: lanes that read the same bytes read them in one access (R271). -/
def readAccs (d : Dev) (o : Op) (pol : CachePol) (as : List Acc) : List (Acc × Nat × OSet × Bool) × Dev :=
  (as.map fun a => (a, readAcc d o pol a), as.foldl (noteAcc d o pol) d)

/-- Whether a value is zero by VTYPE (R114): 0 FP32, 1 BF16, 2 i32. -/
def isZeroV (vtype v : Nat) : Bool := if vtype = 0 then v % 2 ^ 31 == 0 else if vtype = 1 then v % 2 ^ 15 == 0 else v % 2 ^ 32 == 0

/-- The 64 bytes of a block read as a number. -/
def blockOf (v : Nat) : List Nat := (leBytes 64 v).map (·.toNat)

/-- The registers a lane's bytes give. -/
def loadRegs (dst : LoadDst) (a : Acc) (v : Nat) : List (Nat × Word) :=
  match dst with
  | .regs r n => (upFrom 0 n).map fun j => (r + j, BitVec.ofNat 32 (v / 2 ^ (32 * j)))
  | .ext r signed => [(r, if signed then (sext64 v (8 * a.len)).setWidth 32 else BitVec.ofNat 32 v)]
  | .scal _ => []
  | .elem r test =>
    let b := blockOf v
    let x := if blkByte b 0 = 0 then 0 else elemF32 b (nthD (.num 0) (blkElems b) a.aux)
    [(r, if test then (if isZeroV 0 x then 0 else 1) else BitVec.ofNat 32 x)]
  | .test r vt => [(r, if isZeroV vt v then 0 else 1)]

/-- Elements of the block a lane reads; a zero block has as many as any class (R47). -/
def blockLen (v : Nat) : Nat := if v % 256 = 0 then 96 else blkCount (v % 256)

/-- An address lies in the records of one of the partition's queues (R161), or in an overflow slot that a record has been put into (R167). -/
def inRing (fw : Fw) (d : Dev) (part : Nat) (va : Dword) : Bool :=
  let p := fw.part part
  ([p.wq, p.fq, p.cq].any fun q => match ringOf fw d part q with
    | some (base, size, _) => decide (base ≤ va.toNat) && decide (va.toNat < base + 64 * size)
    | none => false) || d.slots.any fun s => s.1 == part && decide (s.2 ≤ va.toNat) && decide (va.toNat < s.2 + 64)

/-- A record is delivered to the team that loads it: a package-scope acquire before the load, which bounds its reads too (R92, R145; entry 41). -/
def deliverTo (fw : Fw) (d : Dev) (o : Op) (as : List Acc) : Dev × Op :=
  if as.any fun a => inRing fw d d.cur.part a.va then (acquire d .pkg, { o with bound := o.bound.raise .pkg d.wn }) else (d, o)

/-- The uncorrectable units of memory that accesses meet, each once, with whether its page is a merge page. -/
def accUnits (d : Dev) (as : List Acc) : List (Nat × Bool) :=
  (as.flatMap fun a => match a.tgt with
    | .mem pa e _ => (badUnits d pa a.len).map fun u => (u, d.merge e)
    | _ => []).eraseDups

/-- A load completes (R271): every lane's bytes are bound now, and land in its registers. The manual orders failing blocks for MMA and the block
instructions only (R50): of an LDH, whose lanes each read one, the lanes are taken ascending and the first block of a class sets it (entry 42). -/
def completeLoad (fw : Fw) (o0 : Op) (dst : LoadDst) (pol : CachePol) (as : List Acc) (d0 : Dev) : Dev :=
  let (d, o) := deliverTo fw d0 o0 as
  let (rs, d1) := readAccs d o pol as
  let bad := rs.filter fun r => r.2.2.2
  let cBad : List DoneCause := match bad with
    | [] => []
    | r :: _ => [{ code := 0x0D, k14 := d.cur.laneMask (bad.map fun r => r.1.lane), ti0 := r.1.va.toNat }]
  let good := rs.filter fun r => !r.2.2.2
  let d1 := (accUnits d as).foldl (fun d u => countErr d false u.2 u.1) d1
  match dst with
  | .scal sd =>
    match good with
    | [] => endOp fw d1 o false cBad
    | r :: _ =>
      let (d2, cs) := landScalar d1 o sd (BitVec.ofNat 64 r.2.1) r.2.2.1
      endOp fw d2 o false (cs ++ watchCause d2 readTouch as)
  | .elem _ _ =>
    match mmaCheck (good.map fun r => blockOf r.2.1) with
    | some (i, _) =>
      let ti0 := match good.drop i with | r :: _ => r.1.va.toNat | [] => 0
      endOp fw d1 o false [{ code := 0x0A, k14 := mget 0 d.cur.regs.k 0, ti0 }]
    | none =>
      let fit := good.filter fun r => decide (r.1.aux < blockLen r.2.1)
      let (d2, cs) := landLanes d1 o (fit.map fun r => (r.1.lane, r.2.2.1, loadRegs dst r.1 r.2.1))
      endOp fw d2 o (decide (fit.length < good.length)) (cs ++ cBad ++ watchCause d2 readTouch as)
  | _ =>
    let (d2, cs) := landLanes d1 o (good.map fun r => (r.1.lane, r.2.2.1, loadRegs dst r.1 r.2.1))
    endOp fw d2 o false (cs ++ cBad ++ watchCause d2 readTouch as)

/-! ### Window counters (R146, R215) -/

/-- Fields of a window operand (R288). -/
def winPeer (w : Dword) : Nat := w.toNat / 2 ^ 48
def winNum (w : Dword) : Nat := w.toNat / 2 ^ 32 % 65536
def winOff (w : Dword) : Nat := w.toNat % 2 ^ 32

def Dev.window (d : Dev) (w : Nat) : Window := mget {} d.windows w

/-- A counter of a window for the operand's peer (R146, R215). -/
def winCounter (d : Dev) (w : Dword) (rcv : Bool) : Word :=
  let x := d.window (winNum w)
  mget 0 (if rcv then x.rcv else x.snd) (winPeer w)

/-- LOAD_COMPLETION: a load is performed and its data returns (R271, R142, R30). Enabled once the team's earlier accesses to its bytes
have been performed (R141). A WCNT's counter returns the same way (R290). -/
def execLoadCompletion (σ : State) : Host.Outcome State Fault Refusal :=
  opEvent σ fun fw _ o d =>
    match o.kind with
    | .load dst pol as => if as.all (d.cur.inTurn o.id) then some (completeLoad fw o dst pol as d) else none
    | .wcnt sd win rcv =>
      let (d1, cs) := landScalar d o sd ((winCounter d win rcv).setWidth 64) 0
      some (endOp fw d1 o false cs)
    | _ => none

/-! ### Stores (R272, R141, R101) -/

/-- Mark the lanes of a store whose bytes a higher lane writes too (R272). -/
def shadow : List Acc → List Acc
  | [] => []
  | a :: r => (if r.any fun b => b.tgt == a.tgt then { a with note := 1 } else a) :: shadow r

/-- The lanes of a store above a whose bytes are the same. -/
def above (as : List Acc) (a : Acc) : List Acc := as.filter fun b => decide (a.lane < b.lane) && b.tgt == a.tgt

/-- A lane as it is sent (R272): the store writes a place once, with the bytes of its highest lane that is performed; a lower one waits for those
above it. -/
def unshadow (as : List Acc) (a : Acc) : Option Acc :=
  if a.note ≠ 1 then some a
  else if (above as a).any fun b => !b.fin then none
  else some (if (above as a).all fun b => b.note == 2 || b.note == 4 then { a with note := 0 } else a)

/-- The result of one lane of a store or atomic being sent: its new form, an error, and the machine. -/
structure Sent where
  acc : Acc
  err : Bool := false
  dev : Dev
deriving DecidableEq, Repr

/-- Write into a register lane through the window (R83): in part or whole, under R32. -/
def regWrite (d : Dev) (o : Op) (a : Acc) (r l b : Nat) (s : OSet) : Sent :=
  let t := d.cur
  let w := r * t.lanes + l
  let parts := upFrom w ((b + a.len + 3) / 4)
  let old := d.cur.regs.lane r l
  let set := if a.len < 4 then s ||| t.org old.lbl else s
  match allocLabel t.regs.labels set with
  | none => { acc := { a with fin := true, note := 2, lbl := set }, dev := d }
  | some (i, labels) =>
    let d1 := d.updR fun r => { r with labels }
    let d2 := parts.foldl (fun d j =>
      let cur := (d.cur.regs.lane (j / t.lanes) (j % t.lanes)).val.toNat
      let v := if a.len < 4 then
          cur - (cur / 2 ^ (8 * b) % 2 ^ (8 * a.len)) * 2 ^ (8 * b) + a.data % 2 ^ (8 * a.len) * 2 ^ (8 * b)
        else a.data / 2 ^ (32 * (j - w)) % 2 ^ 32
      landV d o (j / t.lanes) (j % t.lanes) { val := BitVec.ofNat 32 v, lbl := i }) d1
    { acc := { a with fin := true }, dev := d2 }

/-- A store that does not cover an uncorrectable unit is not performed for it (R106): a record, and error status. -/
def narrowRecord (fw : Fw) (d : Dev) (unit : Nat) (va : Dword) : Dev := teamFault fw d unit 0x13 0 va.toNat 1 0 0

/-- The same for a unit of memory, which is counted (R368). -/
def narrowUnit (fw : Fw) (d : Dev) (mi : Bool) (va : Dword) (u : Nat) : Dev := narrowRecord fw (countErr d false mi u) (errUnit mi (8 * u)) va

/-- Send one lane of a store: the Lodge, the home slice, the page's set (R272, R101, R106, R356). Units of the Orangery have no slice: the record
of a narrow store to one names the team's slot (entry 43). -/
def storeAcc (fw : Fw) (d : Dev) (o : Op) (a : Acc) : Sent :=
  let s := a.lbl ||| a.albl
  match a.tgt with
  | .scr h off =>
    if a.note = 1 then { acc := { a with fin := true }, dev := d }
    else match scrWrite d.cur h off a.len a.data s with
      | .ok t =>
        match scrNarrow d.cur h off a.len with
        | [] => { acc := { a with fin := true }, dev := { d with cur := t } }
        | _ => { acc := { a with fin := true, note := 4 }, err := true, dev := narrowRecord fw { d with cur := t } t.unit a.va }
      | .error e => { acc := { a with fin := true, note := 2, lbl := e }, dev := d }
  | .reg r l b =>
    if a.note = 1 then { acc := { a with fin := true }, dev := d }
    else if decide (a.len < 4) && d.cur.badV.contains (1024 * r + l) then
      { acc := { a with fin := true, note := 4 }, err := true, dev := narrowRecord fw d d.cur.unit a.va }
    else regWrite d o a r l b s
  | .mem pa e _ =>
    if paIsHost pa && (lodge fw d.cur.part s 1 a.va.toNat a.len).isNone then
      { acc := { a with fin := true, note := 4 }, err := true, dev := egressRefused fw d a.va.toNat a.len s }
    else if badNarrow d pa a.len then
      { acc := { a with fin := true, note := 4 }, err := true, dev := narrowUnit fw d (d.merge e) a.va (pa / 8) }
    else
      let d1 := if a.note = 1 then d else devSetNat (d.storer o) d pa a.len a.data
      { acc := { a with fin := true }, dev := raiseCur d1 e s }

/-- The byte of a described block of format f that holds element i, and that byte with the element's code replaced (R47, R48). -/
def codeAt (f i : Nat) : Nat := 2 + if blkNarrow f then i / 2 else i
def codeIn (f i old code : Nat) : Nat :=
  if blkNarrow f then (if i % 2 = 0 then old / 16 * 16 + code % 16 else old % 16 + code % 16 * 16) else code % 256

/-- Write an element code into a described block (R117), indivisibly: the class is that of the block's format. A format byte in a unit in error
leaves the lane not performed, as a narrow store to that unit (R105, R106; entry 43). -/
def codeAcc (fw : Fw) (d : Dev) (o : Op) (a : Acc) : Sent :=
  let not := fun (d : Dev) => ({ acc := { a with fin := true, note := 4 }, err := true, dev := d } : Sent)
  let send := fun (f : Nat) (byte : Nat → Nat) (tgt : Nat → Target) =>
    if f = 0 || !blkKnown f || decide (blkCount f ≤ a.aux) then not d
    else
      let k := codeAt f a.aux
      let r := storeAcc fw d o { a with va := a.va + BitVec.ofNat 64 k, tgt := tgt k, len := 1, data := codeIn f a.aux (byte k) a.data }
      { r with acc := { a with fin := true, note := r.acc.note, lbl := r.acc.lbl } }
  match a.tgt with
  | .mem pa e c =>
    if badAt d pa 1 then not (narrowUnit fw d (d.merge e) a.va (pa / 8))
    else send (memGet d.mem pa).toNat (fun k => (memGet d.mem (pa + k)).toNat) fun k => .mem (pa + k) e c
  | .scr h off =>
    if d.cur.badS.contains (h * 2 ^ 20 + off / 4) then not (narrowRecord fw d d.cur.unit a.va)
    else send (scrByte d.cur.regs h off) (fun k => scrByte d.cur.regs h (off + k)) fun k => .scr h (off + k)
  | .reg _ _ _ => not d

/-- Replace the access of lane n. -/
def setAcc (as : List Acc) (n : Nat) (a : Acc) : List Acc := as.map fun b => if b.lane = n then a else b

/-- The label-table-full cause of a store's or atomic's lanes (R220, R246). -/
def fullCause (d : Dev) (as : List Acc) : List DoneCause :=
  match as.filter fun a => a.note == 2 with
  | [] => []
  | a :: r => [{ code := 0x0C, k14 := d.cur.laneMask ((a :: r).map fun x => x.lane), ti0 := a.lbl.toNat }]

/-- The causes of a store whose lanes have all been performed. -/
def storeCauses (d : Dev) (as : List Acc) : List DoneCause :=
  fullCause d as ++ watchCause d writeTouch (as.filter fun a => a.note != 2 && a.note != 4)

/-- STORE_PERFORMED: lane n of a store is applied at its home (R141, R272); with the last lane its token completes (R143). Two lanes of one
dense-described STH that name one element are performed in any order: R117 gives none (entry 39). -/
def execStorePerformed (σ : State) : Host.Outcome State Fault Refusal :=
  opEvent σ fun fw e o d =>
    let go := fun (as : List Acc) (mk : List Acc → OpKind) (send : Fw → Dev → Op → Acc → Sent) =>
      match as.find? fun a => a.lane == e.n && !a.fin with
      | none => none
      | some a =>
        if !(d.cur.inTurn o.id a) then none
        else (unshadow as a).map fun a =>
          let r := send fw d o a
          let as' := setAcc as e.n r.acc
          let d1 := r.dev.setKind o.id (mk as')
          let d2 := if r.err then d1.setErr o.id else d1
          if as'.all (·.fin) then endOp fw d2 o false (storeCauses d2 as') else d2
    match o.kind with
    | .store as => go as .store storeAcc
    | .code as => go as .code codeAcc
    | _ => none

/-! ### Atomics (R144, R276) -/

/-- The signed value of a word of n bits. -/
def sintOf (n v : Nat) : Int := if v / 2 ^ (n - 1) % 2 = 1 then (v : Int) - (2 ^ n : Nat) else v

/-- The new value of an atomic on n bits, none when nothing is written (R276). -/
def atomNew (o : AtomOp) (n m x y : Nat) : Option Nat :=
  match o with
  | .add => some ((m + x) % 2 ^ n)
  | .min => some (if sintOf n x < sintOf n m then x else m)
  | .max => some (if sintOf n m < sintOf n x then x else m)
  | .minn => some (min m x)
  | .maxn => some (max m x)
  | .and => some (m &&& x)
  | .or => some (m ||| x)
  | .xor => some (m ^^^ x)
  | .xchg => some x
  | .cas => if m = x then some y else none
  | .fadd => some (fpAdd 24 .rne m x)

/-- The sum of R114 by VTYPE. -/
def addV (vtype m x : Nat) : Nat :=
  if vtype = 0 then fpAdd 24 .rne (m % 2 ^ 32) (x % 2 ^ 32)
  else if vtype = 1 then fpAdd 8 .rne (m % 65536) (x % 65536)
  else (m + x) % 2 ^ 32

/-- The new value of an atomic kind. -/
def AtomKind.new (k : AtomKind) (m : Nat) (a : Acc) : Option Nat :=
  match k with
  | .op o _ => atomNew o (8 * a.len) m a.data a.aux
  | .spadd v => some (addV v m a.data)

/-- Whether n bytes at pa have been written by hosts alone since write w. -/
def hostOnly (d : Dev) (w pa n : Nat) : Bool := (upFrom pa n).all fun b => (mget [] d.hist b).all fun x => decide (x.1 ≤ w) || x.2.1 == .host

/-- What an atomic's read has seen and what it leaves in memory, of n bytes at pa, where `seen` tells of a host write that races it (R97): the read and
the write after the host's; the read before it and the write after it; or both before it. Between them no device write falls. -/
def atomicSpan (d : Dev) (k : AtomKind) (a : Acc) (pa : Nat) : Nat × Option Nat :=
  let cur := memNat d.mem pa a.len
  match a.seen with
  | none => (cur, k.new cur a)
  | some (w, m) =>
    let host := fun (b : Nat) => (mget [] d.hist b).any fun x => decide (w < x.1)
    if !(hostOnly d w pa a.len) then (cur, k.new cur a)
    else match Config.free d.free (2 ^ 85 + a.lane) % 3 with
      | 0 => (cur, k.new cur a)
      | 1 => (m, k.new m a)
      | _ => (m, (k.new m a).map fun v => leNat ((leBytes a.len v).zip (upFrom pa a.len) |>.map fun x => if host x.2 then memGet d.mem x.2 else x.1))

/-- One lane of an atomic is performed at its home (R276). -/
def atomicAcc (fw : Fw) (d : Dev) (o : Op) (k : AtomKind) (a : Acc) : Sent :=
  let s := a.lbl ||| a.albl
  match a.tgt with
  | .mem pa e _ =>
    if paIsHost pa && (lodge fw d.cur.part s 1 a.va.toNat a.len).isNone then
      { acc := { a with fin := true, note := 4 }, err := true, dev := egressRefused fw d a.va.toNat a.len s }
    else if badAt d pa a.len then { acc := { a with fin := true, note := 3 }, dev := countBad d (d.merge e) (badUnits d pa a.len) }
    else
      let (m, new) := atomicSpan d k a pa
      let res := (d.frame e).cur ||| a.albl
      let d1 := match new with
        | some v => raiseCur (devSetNat (d.storer o) d pa a.len v) e s
        | none => d
      { acc := { a with fin := true, aux := m, lbl := res }, dev := noteCorr d1 (d.merge e) pa a.len }
  | .scr h off =>
    let m := scrNat d.cur.regs h off a.len
    let res := scrLabel d.cur h off a.len ||| a.albl
    if (wordsOf off a.len).any fun w => d.cur.badS.contains (h * 2 ^ 20 + w) then { acc := { a with fin := true, note := 3 }, dev := d }
    else
      match k.new m a with
      | none => { acc := { a with fin := true, aux := m, lbl := res }, dev := d }
      | some v => match scrWrite d.cur h off a.len v s with
        | .ok t => { acc := { a with fin := true, aux := m, lbl := res }, dev := { d with cur := t } }
        | .error e => { acc := { a with fin := true, note := 2, lbl := e }, dev := d }
  | .reg _ _ _ => { acc := { a with fin := true, note := 4 }, err := true, dev := d }

/-- What a performed lane of an atomic did to its location (R81, R276): a compare that failed stored nothing. -/
def AtomKind.touch (k : AtomKind) (a : Acc) : Touch :=
  match k with
  | .op .cas _ => { r := true, w := a.aux == a.data }
  | _ => { r := true, w := true }

/-- Every lane has been performed: results land, the acquire of the semantics field follows (R144). -/
def completeAtomic (fw : Fw) (o : Op) (k : AtomKind) (dst : LoadDst) (acq : Option Scope) (as : List Acc) (d : Dev) : Dev :=
  let good := as.filter fun a => a.note == 0
  let bad := as.filter fun a => a.note == 3
  let cs := fullCause d as ++ (match bad with
    | [] => []
    | a :: _ => [{ code := 0x0D, k14 := d.cur.laneMask (bad.map (·.lane)), ti0 := a.va.toNat }]) ++ watchCause d k.touch good
  let (d1, c1) := match dst with
    | .scal sd => (match good with | a :: _ => landScalar d o sd (BitVec.ofNat 64 a.aux) a.lbl | [] => (d, []))
    | _ => landLanes d o (good.map fun (a : Acc) => (a.lane, a.lbl, loadRegs dst a a.aux))
  let d2 := match acq with | some sc => acquire d1 sc | none => d1
  endOp fw d2 o false (c1 ++ cs)

/-- ATOMIC_PERFORMED: lane n of an atomic is performed; lanes to one address go in ascending order (R144). -/
def execAtomicPerformed (σ : State) : Host.Outcome State Fault Refusal :=
  opEvent σ fun fw e o d =>
    match o.kind with
    | .atomic k dst acq as =>
      match as.find? fun a => a.lane == e.n && !a.fin with
      | none => none
      | some a =>
        if !(d.cur.inTurn o.id a) || as.any fun b => !b.fin && decide (b.lane < a.lane) && b.tgt.meets d.cur.lanes b.len a.tgt a.len then none
        else
          let r := atomicAcc fw d o k a
          let as' := setAcc as e.n r.acc
          let d1 := r.dev.setKind o.id (.atomic k dst acq as')
          let d2 := if r.err then d1.setErr o.id else d1
          if as'.all (·.fin) then some (completeAtomic fw o k dst acq as' d2) else some d2
    | _ => none

end Sys2Proof.Machine
end

