-- ==== Sys2Proof/Machine/Atomic.lean ====
section
/-! DEFINITION. Atomics (R275, R276, R144). -/
namespace Sys2Proof.Machine

/-- The acquire half of a semantics field. -/
def semAcq (e : Sem) (c : Scope) : Option Scope := match e with | .acq => some c | .ar => some c | _ => none
/-- Whether it has a release half. -/
def semRel (e : Sem) : Bool := match e with | .rel => true | .ar => true | _ => false

/-- Post an atomic (R276): a release holds the team at the position until every earlier access has been performed; an acquire holds it
until the token completes; it ends a region (R133). -/
def postAtomic (fw : Fw) (q : Nat) (k : AtomKind) (dst : LoadDst) (e : Sem) (c : Scope) (scalar : Bool) (d0 : Dev) (as : List Acc) (d : Dev) : Dev :=
  if semRel e && !d0.cur.released then stall (d.upd Team.endRun) 9
  else
    let id := d.cur.nextOp
    let d1 := postOp (if e = .rlx then d else d.upd Team.endRun) q (.atomic k dst (semAcq e c) as) [] false
    let d2 := d1.upd endRegion
    match semAcq e c with
    | none =>
      let d3 := if scalar then finish fw d2 else finishV fw d0.k0 d2
      if as.isEmpty then finishOp d3 id false else d3
    | some sc =>
      let d3 := holdOn (if scalar then 1 else passes d0.k0) (.held id) d2
      if as.isEmpty then stepHeld fw d3 (finishOp (acquire d3 sc) id false) else d3

/-- ATOM: a word read-modify-write per lane at the address pair va, va+1 (R275, R276). -/
def execAtom (q : BitVec 4) (d : BitVec 7) (a : BitVec 7) (o : AtomOp) (e : Sem) (c : Scope) (σ : State) : Host.Outcome State Fault Refusal :=
  word (.atom q d a o e c) σ fun fw D =>
    let ws : List Want := D.act.map fun l =>
      let lo := vread D 1 a.toNat l
      let hi := vread D 1 (a.toNat + 1) l
      let x := vread D 2 d.toNat l
      let y := vread D 3 (d.toNat + 1) l
      { lane := l, va := BitVec.ofNat 64 (lo.val.toNat + hi.val.toNat * 2 ^ 32) + BitVec.ofInt 64 (offOf D.cur.hints), len := 4,
        data := x.val.toNat, lbl := D.cur.org x.lbl ||| (if o = .cas then D.cur.org y.lbl else 0),
        albl := D.cur.org lo.lbl ||| D.cur.org hi.lbl, aux := if o = .cas then y.val.toNat else 0 }
    posting fw q.toNat D fun D => accesses fw { r := true, w := true } true false ws 4 D
      (postAtomic fw q.toNat (.op o false) (.regs d.toNat 1) e c false D)

/-- SATOM: one word or doubleword read-modify-write at sa (R275, R276). -/
def execSatom (q : BitVec 4) (d : BitVec 6) (z : Bool) (a : BitVec 6) (o : AtomOp) (e : Sem) (c : Scope) (σ : State) :
    Host.Outcome State Fault Refusal :=
  word (.satom q d z a o e c) σ fun fw D =>
    let n := if z then 8 else 4
    let w : Want :=
    { lane := scalarLane, va := sval D 1 a.toNat + BitVec.ofInt 64 (offOf D.cur.hints), len := n,
      data := (sval D 2 d.toNat).toNat % 2 ^ (8 * n),
      lbl := sorg D 2 d.toNat ||| (if o = .cas then sorg D 3 (d.toNat + 1) else 0), albl := sorg D 1 a.toNat,
      aux := if o = .cas then (sval D 3 (d.toNat + 1)).toNat % 2 ^ (8 * n) else 0 }
    posting fw q.toNat D fun D => accesses fw { r := true, w := true } true false [w] n D
      (postAtomic fw q.toNat (.op o z) (.scal d.toNat) e c true D)

end Sys2Proof.Machine
end

