-- ==== Sys2Proof/Machine/Engine.lean ====
section
/-! DEFINITION. What the engines of a core share: the ranges they reach, reading and writing them with labels, their queues (R91, R101,
R102, R104-R106, R130, R131, R145, R160). -/
namespace Sys2Proof.Machine

/-- One piece of the range an engine reaches: where it begins in the range, its address, place, bytes and page. -/
structure Piece where
  off : Nat
  va : Dword
  tgt : Target
  len : Nat
  page : Option TlbEnt := none
deriving DecidableEq, Repr

/-- Why an engine does not reach a range: beyond a window, a page refused, a page without a translation. -/
inductive EStop where
  | bound
  | refused (va : Dword) (reason cls : Nat)
  | missing (va : Dword) (reason : Nat)
deriving DecidableEq, Repr

/-- Translate the pages of a range in turn. -/
def enginePages (fw : Fw) (c part : Nat) (n : Need) (base stop : Nat) : List Dword → Dev → Except EStop (List Piece) × Dev
  | [], d => (.ok [], d)
  | p :: r, d =>
    match translate fw d c part n p with
    | (.refused x k, d1) => (.error (.refused p x k), d1)
    | (.missing x, d1) => (.error (.missing p x), d1)
    | (.ok t, d1) =>
      match enginePages fw c part n base stop r d1 with
      | (.error e, d2) => (.error e, d2)
      | (.ok l, d2) =>
        (.ok ({ off := p.toNat - base, va := p, tgt := .mem (t.pa p) t.ent (!t.mi), len := min stop ((p.toNat / 65536 + 1) * 65536) - p.toNat,
                page := some t } :: l), d2)

/-- The pieces of len bytes at va for an engine of the acting team (R86, R130); `regs`: the register window is open to it, in whole
words. A paired team's engines reach the low half's run (entry 27). -/
def engineRange (fw : Fw) (n : Need) (regs : Bool) (va : Dword) (len : Nat) (d : Dev) : Except EStop (List Piece) × Dev :=
  if inScratch va || inRegWin va then
    if inRegWin va && (va.toNat % 4 != 0 || len % 4 != 0) then (.error .bound, d)
    else match (resolve fw d 0 n true regs va len).1 with
      | .ok t _ => (.ok [{ off := 0, va, tgt := t, len }], d)
      | _ => (.error .bound, d)
  else enginePages fw d.cur.core d.cur.part { n with e := true } va.toNat (va.toNat + len) (pagesOf va len) d

/-- The core whose engine takes an operation: a paired team's tiles are those of the half it names (R292). -/
def Op.core (t : Team) (o : Op) : Nat :=
  match o.kind with
  | .mma _ _ _ _ half _ _ _ => t.core + half
  | .acc _ _ half _ _ => t.core + half
  | .amrg _ _ _ _ half _ => t.core + half
  | .ami _ _ _ _ _ half => t.core + half
  | _ => t.core

/-- What an engine reads for operation o of n bytes at pa, each unit of so many bytes in one access (R142, R166): bounded as of the command's issue,
and by what the core that runs it has seen (R304). -/
def engineBytes (d : Dev) (o : Op) (unit pa n : Nat) : List Byte := boundedBytes d (d.covers o) (d.seenBy [o.core d.cur]) unit pa n

/-- Word i of a team's register run. -/
def regWord (d : Dev) (i : Nat) : LVal := vread d 8 (i / d.cur.lanes) (i % d.cur.lanes)

/-- The bytes of a piece as an engine of the acting team reads them (R142), each with the set of its page or window word (R287). -/
def readPiece (d : Dev) (o : Op) (p : Piece) : List (Byte × OSet) :=
  match p.tgt with
  | .mem pa e _ => let s := (d.frame e).cur; (engineBytes d o 8 pa p.len).map fun b => (b, s)
  | .scr h off => (upFrom off p.len).map fun a =>
      (BitVec.ofNat 8 (scrByte d.cur.regs h a), d.cur.org (mget {} d.cur.regs.scr (h * 2 ^ 20 + a / 4)).lbl)
  | .reg r l b => (upFrom ((r * d.cur.lanes + l) * 4 + b) p.len).map fun a =>
      let x := regWord d (a / 4)
      (BitVec.ofNat 8 (x.val.toNat / 2 ^ (8 * (a % 4))), d.cur.org x.lbl)

/-- Whether a piece holds an uncorrectable unit (R105). -/
def badPiece (d : Dev) (p : Piece) : Bool :=
  match p.tgt with
  | .mem pa _ _ => badAt d pa p.len
  | .scr h off => (wordsOf off p.len).any fun w => d.cur.badS.contains (h * 2 ^ 20 + w)
  | .reg r l _ => match d.cur.badV with
    | [] => false
    | bad => (upFrom (r * d.cur.lanes + l) (p.len / 4)).any fun i => bad.contains (1024 * (i / d.cur.lanes) + i % d.cur.lanes)

/-- The bytes of a range. -/
def readPieces (d : Dev) (o : Op) (l : List Piece) : List (Byte × OSet) := l.flatMap (readPiece d o)

/-- Corrected errors of a range that is read. -/
def notePieces (d : Dev) (l : List Piece) : Dev :=
  l.foldl (fun d p => match p.tgt with | .mem pa e _ => noteCorr d (d.merge e) pa p.len | _ => d) d

/-- The join of the sets of bytes. -/
def joinOf (bs : List (Byte × OSet)) : OSet := bs.foldl (fun s b => s ||| b.2) 0

/-- The virtual address of the first unit in error of a piece. -/
def badVa (d : Dev) (p : Piece) : Nat :=
  match p.tgt with
  | .mem pa _ _ => p.va.toNat + (badFirst d pa p.len - pa)
  | .scr h off => p.va.toNat + (((upFrom off p.len).find? fun a => d.cur.badS.contains (h * 2 ^ 20 + a / 4)).getD off - off)
  | .reg r l _ =>
    let w := r * d.cur.lanes + l
    p.va.toNat + 4 * (((upFrom w (p.len / 4)).find? fun i => d.cur.badV.contains (1024 * (i / d.cur.lanes) + i % d.cur.lanes)).getD w - w)

/-- The uncorrectable units of memory that pieces meet are counted, each once (R368). -/
def countPieces (d : Dev) (l : List Piece) : Dev :=
  ((l.flatMap fun p => match p.tgt with
    | .mem pa e _ => (badUnits d pa p.len).map fun u => (u, d.merge e)
    | _ => []).eraseDups).foldl (fun d u => countErr d false u.2 u.1) d

/-- The UNCORRECTABLE record of an engine's read (R105, R225): the slice of the first unit reports for memory, the reading engine for the Orangery. -/
def uncRecord (fw : Fw) (d0 : Dev) (unit : Nat) (l : List Piece) : Dev :=
  let d := countPieces d0 l
  match l.find? (badPiece d) with
  | some p => match p.tgt with
    | .mem pa e _ =>
      let a := badFirst d pa p.len
      teamFault fw d (errUnit (d.merge e) a) 0x13 0 (badVa d p) 0 0 0
    | _ => teamFault fw d unit 0x13 0 (badVa d p) 0 0 0
  | none => d

/-- What writing comes to: a unit or word was skipped; a set found no label table entry. -/
structure Wrote where
  dev : Dev
  err : Bool := false
  full : Option OSet := none
deriving DecidableEq, Repr

/-- Write bytes at home as one write, but for units in error that are not covered (R106), and raise the page's set. -/
def writeMem (fw : Fw) (self : Writer) (d : Dev) (pa ent : Nat) (va : Dword) (bs : List Byte) (s : OSet) : Wrote :=
  match narrowUnits d pa bs.length with
  | [] => { dev := raiseCur (clearUnits (devSetBytes self d pa bs) pa bs.length) ent s }
  | bad =>
    let d1 := ((upFrom pa bs.length).zip bs).foldl (fun d p => if bad.contains (p.1 / 8) then d else putByte self d p.1 p.2) (nextWrite d)
    { dev := bad.foldl (fun d u => narrowUnit fw d (d.merge ent) (va + BitVec.ofNat 64 (max (8 * u) pa - pa)) u)
        (raiseCur (clearUnits d1 pa bs.length) ent s),
      err := true }

/-- Write bytes into a scratchpad: words of an armed barrier are skipped (R104), a word in error that is not covered too (R106), each other word
takes its bytes' set (R91). -/
def writeScr (fw : Fw) (unit : Nat) (d : Dev) (half off : Nat) (va : Dword) (bs : List (Byte × OSet)) : Wrote :=
  let n := bs.length
  let dws := (upFrom (off / 8) ((off + n + 7) / 8 - off / 8)).filter fun dw => (mget {} d.cur.regs.scr (half * 2 ^ 20 + 2 * dw)).armed
  let d1 := dws.foldl (fun d w => clobberWord d half w) d
  let bad := (scrNarrow d.cur half off n).filter fun w => !(dws.contains (w / 2))
  let d2 := bad.foldl (fun d w => narrowRecord fw d unit (va + BitVec.ofNat 64 (max (4 * w) off - off))) d1
  (wordsOf off n).foldl (fun r w =>
    if dws.contains (w / 2) then r
    else
      let lo := max off (4 * w)
      let k := min (off + n) (4 * w + 4) - lo
      let part := (bs.drop (lo - off)).take k
      match scrWrite r.dev.cur half lo k (leNat (part.map (·.1))) (joinOf part) with
      | .ok t => { r with dev := { r.dev with cur := t } }
      | .error s => { r with full := some s }) { dev := d2, err := !dws.isEmpty || !bad.isEmpty }

/-- Write whole words into the register run (R83). -/
def writeRegs (d : Dev) (o : Op) (va : Dword) (first : Nat) (bs : List (Byte × OSet)) : Wrote :=
  (upFrom 0 (bs.length / 4)).foldl (fun r i =>
    let part := (bs.drop (4 * i)).take 4
    let rg := (first + i) / d.cur.lanes
    let ln := (first + i) % d.cur.lanes
    let a : Acc := { lane := scalarLane, va, tgt := .reg rg ln 0, len := 4, data := leNat (part.map (·.1)) }
    let x := regWrite r.dev o a rg ln 0 (joinOf part)
    { r with dev := x.dev, full := if x.acc.note = 2 then some x.acc.lbl else r.full }) { dev := d }

/-- Write a piece for an engine of the acting team; the lines of its cores are updated (R145). -/
def writePiece (fw : Fw) (unit : Nat) (d : Dev) (o : Op) (p : Piece) (bs : List (Byte × OSet)) : Wrote :=
  match p.tgt with
  | .mem pa e _ => writeMem fw (d.engine o) d pa e p.va (bs.map (·.1)) (joinOf bs)
  | .scr h off => writeScr fw unit d h off p.va bs
  | .reg r l b => writeRegs d o p.va (((r * d.cur.lanes + l) * 4 + b) / 4) bs

/-- Whether a piece's page admits a set (R101, R102). -/
def Piece.admits (p : Piece) (s : OSet) : Bool := match p.page with | some t => s &&& ~~~t.ceil == 0 | none => true

/-- The LABEL-CEILING record of a refused piece (R102, R225). -/
def ceilingRecord (fw : Fw) (d : Dev) (unit : Nat) (p : Piece) (s : OSet) : Dev :=
  teamFault fw d unit 0x12 0 p.va.toNat (match p.page with | some t => t.ceil.toNat | none => 0) s.toNat s

/-- Write pieces in turn, each after its page's ceiling (R102): what was written, and whether a ceiling refused. -/
def writePieces (fw : Fw) (unit : Nat) (o : Op) (bs : List (Byte × OSet)) : List Piece → Wrote → Wrote × Bool
  | [], w => (w, false)
  | p :: r, w =>
    let part := (bs.drop p.off).take p.len
    if !(p.admits (joinOf part)) then ({ w with dev := ceilingRecord fw w.dev unit p (joinOf part) }, true)
    else
      let x := writePiece fw unit w.dev o p part
      writePieces fw unit o bs r { dev := x.dev, err := w.err || x.err, full := match x.full with | some s => some s | none => w.full }

/-- The frame-table entries of pieces. -/
def pieceEnts (l : List Piece) : List Nat :=
  l.foldl (fun es p => match p.tgt with | .mem _ e _ => if es.contains e then es else es ++ [e] | _ => es) []

/-- Whether a piece lies in host memory. -/
def Piece.host (p : Piece) : Bool := match p.tgt with | .mem pa _ _ => paIsHost pa | _ => false

/-- The Lodge's test of an engine's writes to host memory (R356): the entries it is admitted under; none when it is refused. -/
def lodgePieces (fw : Fw) (d : Dev) (l : List Piece) (s : OSet) : Option (List Nat) :=
  match l.filter Piece.host with
  | [] => some []
  | p :: r =>
    let lo := r.foldl (fun m q => min m q.va.toNat) p.va.toNat
    let hi := r.foldl (fun m q => max m (q.va.toNat + q.len)) (p.va.toNat + p.len)
    lodge fw d.cur.part s 1 lo (hi - lo)

/-- Pin the frames of an operation that it does not hold yet; none when one cannot be pinned now (R131). -/
def pinOp (d : Dev) (n : Nat) (es : List Nat) : Option Dev :=
  let have_ := match d.cur.op n with | some o => o.pins | none => []
  let more := es.filter fun e => !(have_.contains e)
  if canPin d more then some ((pinFrames d more).upd fun t => t.setOp n fun o => { o with pins := o.pins ++ more }) else none

/-! ### Queues (R160) -/

/-- Operations that a queue of core c holds. -/
def Dev.queued (d : Dev) (c : Nat) (f : Op → Bool) : Nat :=
  ((d.cur :: d.rest).filter (·.live)).foldl (fun n t => n + (t.ops.filter fun o => !o.done && o.core t == c && f o).length) 0

/-- The operations of each engine's queue. -/
def inMatrix (o : Op) : Bool := match o.kind with | .mma _ _ _ _ _ _ _ _ => true | .acc _ _ _ _ _ => true | .ami _ _ _ _ _ _ => true | .amrg _ _ _ _ _ _ => true | _ => false
def inKudu (o : Op) : Bool := match o.kind with | .kudu c => !c.suspended | .kpos _ _ => true | .kstop _ _ => true | _ => false
def inBelvedere (o : Op) : Bool := match o.kind with | .fsel _ _ _ _ _ => true | .tapr _ _ _ _ _ _ => true | .tape _ _ _ _ _ => true | .tapb => true | _ => false
def inWindow (o : Op) : Bool := match o.kind with | .wwr _ => true | .wsig _ _ _ => true | _ => false

/-- A queue of core c has performed every command that it accepted before operation o: those of o's team in issue order, those of others in the order of
acceptance (R160, R177; entry 30). -/
def Dev.queueTurn (d : Dev) (c : Nat) (f : Op → Bool) (o : Op) : Bool :=
  let holds := fun (t : Team) (p : Op) => !p.done && p.core t == c && f p
  d.cur.ops.all (fun p => decide (o.id ≤ p.id) || !(holds d.cur p)) &&
  d.rest.all fun t => !t.live || t.ops.all fun p => decide (o.seq ≤ p.seq) || !(holds t p)

/-- An instruction that finds a queue of core c full stalls at its position; a structural stall ends no run (R19). -/
def queueRoom (d : Dev) (c : Nat) (f : Op → Bool) (cap reason : Nat) (k : Dev) : Dev :=
  if cap ≤ d.queued c f then stall d reason else k

end Sys2Proof.Machine
end

