-- ==== Sys2Proof/Machine/Sync.lean ====
section
/-! DEFINITION. Waiting, yielding, phases, monitors and barriers (R31, R143, R147, R148, R277-R280), and the events that end a wait. -/
namespace Sys2Proof.Machine

/-- A token's count is at most t. -/
def Team.atMost (t : Team) (q n : Nat) : Bool := decide (t.count q ≤ n)

/-- Every token of a bitmap counts 0. -/
def Team.allZero (t : Team) (b : BitVec 16) : Bool := (upFrom 0 16).all fun q => !b.getLsbD q || t.atMost q 0

/-- WAIT: goes on once qN counts at most t (R31, R277). -/
def execWait (q : BitVec 4) (t : BitVec 8) (σ : State) : Host.Outcome State Fault Refusal :=
  word (.wait q t) σ fun fw D =>
    if D.cur.atMost q.toNat t.toNat then finish fw (D.upd fun c => c.endRun.settle (· == q.toNat)) else waitAt (.token q.toNat t.toNat) D

/-- WAITA: goes on once every named count is 0 (R277). -/
def execWaita (b : BitVec 16) (σ : State) : Host.Outcome State Fault Refusal :=
  word (.waita b) σ fun fw D =>
    if D.cur.allZero b then finish fw (D.upd fun c => c.endRun.settle fun q => b.getLsbD q) else waitAt (.tokens b) D

/-- A YIELD lets the team go on: the count is at most t, and no compaction has still to move the team here (R31, R155). -/
def Team.mayPass (c : Team) (q t : Nat) : Bool := c.atMost q t && c.slide.isEmpty

/-- YIELD: goes on at the target; held, the team first leaves the active set (R31, R158). -/
def execYield (q : BitVec 4) (t : BitVec 8) (o : BitVec 10) (σ : State) : Host.Outcome State Fault Refusal :=
  word (.yield q t o) σ fun fw D =>
    let target := relTarget D o.toNat 10
    if D.cur.mayPass q.toNat t.toNat then jumpTo fw target (D.upd fun c => c.settle (· == q.toNat))
    else (waitAt (.yield q.toNat t.toNat target) D).upd fun c => { c with active := false }

/-- WAIT_SATISFIED: the waited counts have fallen (R31). -/
def execWaitSatisfied (σ : State) : Host.Outcome State Fault Refusal :=
  releaseEvent σ fun fw _ D =>
    match D.cur.wait with
    | .token q t => if D.cur.atMost q t then some (release fw (D.cur.pc + 4) (D.upd fun c => c.settle (· == q))) else none
    | .tokens b => if D.cur.allZero b then some (release fw (D.cur.pc + 4) (D.upd fun c => c.settle fun q => b.getLsbD q)) else none
    | _ => none

/-- YIELD_REACTIVATE: the yielded team's token condition holds; it is ready at its target (R31, R158). -/
def execYieldReactivate (σ : State) : Host.Outcome State Fault Refusal :=
  releaseEvent σ fun fw _ D =>
    match D.cur.wait with
    | .yield q t target => if D.cur.mayPass q t then some (release fw target (D.upd fun c => c.settle (· == q))) else none
    | _ => none

/-- DLY_END: the delay count has run out (R247). -/
def execDlyEnd (σ : State) : Host.Outcome State Fault Refusal :=
  teamEvent σ fun _ _ D =>
    match D.cur.wait with
    | .dly since n => if longAgo D since n then some (D.upd fun c => { c with wait := .ready }) else none
    | _ => none

/-- PAIR_LINK_EXCHANGE: both halves have reached the exchange; the position is performed when it issues again (R20). -/
def execPairLinkExchange (σ : State) : Host.Outcome State Fault Refusal :=
  releaseEvent σ fun _ _ D =>
    match D.cur.wait with
    | .pair => some (D.upd fun c => { c with wait := .ready, met := true })
    | _ => none

/-- PHASE: a release, then an acquire, at a scope (R143). -/
def execPhase (s : Scope) (σ : State) : Host.Outcome State Fault Refusal :=
  word (.phase s) σ fun fw D =>
    if D.cur.released then finish fw (acquire (D.upd Team.endRun) s) else waitAt (.phase s) D

/-- PHASE_RELEASE_DONE: every earlier access of a held PHASE has been performed (R143). -/
def execPhaseReleaseDone (σ : State) : Host.Outcome State Fault Refusal :=
  releaseEvent σ fun fw _ D =>
    match D.cur.wait with
    | .phase sc => if D.cur.released then some (release fw (D.cur.pc + 4) (acquire D sc)) else none
    | _ => none

/-! ### Monitors -/

/-- The monitored bytes. -/
def Monitor.len (m : Monitor) : Nat := if m.dbl then 8 else 4

/-- The monitored location no longer holds the expected value at home. -/
def Monitor.differs (m : Monitor) (d : Dev) (r : Regs) : Bool :=
  match m.tgt with
  | some (.mem pa _ _) => BitVec.ofNat 64 (memNat d.mem pa m.len) != m.want
  | some (.scr h o) => BitVec.ofNat 64 (scrNat r h o m.len) != m.want
  | _ => false

/-- Whether the location lies in an uncorrectable unit. -/
def Monitor.isBad (m : Monitor) (d : Dev) : Bool :=
  match m.tgt with
  | some (.mem pa _ _) => badAt d pa m.len
  | some (.scr h o) => (wordsOf o m.len).any fun w => d.cur.badS.contains (h * 2 ^ 20 + w)
  | _ => false

/-- The location is read: an error there is counted (R368). -/
def Monitor.note (m : Monitor) (d : Dev) : Dev :=
  match m.tgt with
  | some (.mem pa e _) =>
    if badAt d pa m.len then countBad d (d.merge e) (badUnits d pa m.len) else noteCorr d (d.merge e) pa m.len
  | _ => d

/-- MWAIT: arms a monitor; the team goes on, after a package-scope acquire, once the location differs from sb (R147, R279). -/
def execMwait (a : BitVec 6) (b : BitVec 6) (z : Bool) (σ : State) : Host.Outcome State Fault Refusal :=
  word (.mwait a b z) σ fun fw D =>
    let n := if z then 8 else 4
    let w : Want := { lane := scalarLane, va := sval D 1 a.toNat, len := n }
    accesses fw { r := true, dev := true } true false [w] n D fun as D =>
      match as with
      | [] => D
      | x :: _ =>
        let m : Monitor := { va := x.va, tgt := some x.tgt, dbl := z, want := BitVec.ofNat 64 ((sval D 2 b.toNat).toNat % 2 ^ (8 * n)) }
        let D := m.note D
        if m.isBad D then trapIssue fw D 0x0D (allLanes D.cur.lanes) x.va.toNat 0
        else if m.differs D D.cur.regs then finish fw (acquire (D.upd Team.endRun) .pkg)
        else waitAt (.monitor m) D

/-- MWAIT_WAKE: a write has left the monitored value different (R147); a save that drains there awaits the next LIVE point. -/
def execMwaitWake (σ : State) : Host.Outcome State Fault Refusal :=
  teamEvent σ fun fw _ D =>
    match D.cur.wait with
    | .monitor m => if D.cur.met || m.differs D D.cur.regs then some (release fw (D.cur.pc + 4) (acquire (D.upd Team.leavePoint) .pkg)) else none
    | _ => none

/-! ### Barriers (R103, R148, R280) -/

/-- The word of a barrier instruction (R280): 8-byte aligned, then within the scratchpad window. -/
def barrierAt (fw : Fw) (d : Dev) (va : Dword) (k : Nat → Dev) : Dev :=
  let off := va.toNat - 0xFFFFF00000000000
  if va.toNat % 8 ≠ 0 then trapIssue fw d 6 (allLanes d.cur.lanes) va.toNat 0
  else if !(inScratch va && decide (off + 8 ≤ d.cur.decl.scratch)) then trapIssue fw d 7 (allLanes d.cur.lanes) va.toNat d.cur.decl.scratch
  else k off

/-- Reading an uncorrectable barrier word traps (R105). -/
def readable (fw : Fw) (d : Dev) (va : Dword) (off : Nat) (k : Dev) : Dev :=
  if (wordsOf off 8).any fun w => d.cur.badS.contains w then trapIssue fw d 0x0D (allLanes d.cur.lanes) va.toNat 0 else k

/-- Whether the barrier at byte off of a half's scratchpad is armed. -/
def armed (r : Regs) (half off : Nat) : Bool := (mget {} r.scr (half * 2 ^ 20 + off / 4)).armed

/-- One arrival at an armed barrier (R103): COUNT + 1, and ARMED clears when COUNT reaches TARGET. -/
def arrive (r : Regs) (half off : Nat) : Regs :=
  let k := half * 2 ^ 20 + off / 4
  let lo := mget {} r.scr k
  let hi := mget {} r.scr (k + 1)
  if lo.armed then
    { r with scr := mset {} r.scr k { lo with val := lo.val + 1, armed := lo.val + 1 != hi.val &&& 0x7FFFFFFF } }
  else r

/-- Write and arm a barrier (R280). -/
def armBarrier (r : Regs) (off : Nat) (target : Word) (lbl : Lbl) : Regs :=
  let k := off / 4
  { r with scr := mset {} (mset {} r.scr (k + 1) { val := target &&& 0x7FFFFFFF, lbl }) k { val := 0, lbl, armed := target &&& 0x7FFFFFFF != 0 } }

/-- BARI: TARGET := sb[30:0], COUNT := 0, armed unless TARGET is 0; held until earlier writes to the word are performed (R280). -/
def execBari (a : BitVec 6) (b : BitVec 6) (σ : State) : Host.Outcome State Fault Refusal :=
  word (.bari a b) σ fun fw D =>
    barrierAt fw D (sval D 1 a.toNat) fun off =>
      if !(D.cur.writesDone D.cur.nextOp (.scr 0 off) 8) then stall (D.upd Team.endRun) 9
      else
        let s := sorg D 1 a.toNat ||| sorg D 2 b.toNat
        match allocLabel D.cur.regs.labels s with
        | none => trapIssue fw D 0x0C (allLanes D.cur.lanes) s.toNat 0
        | some (i, labels) =>
          finish fw ((D.upd fun c => { c.endRun with badS := c.badS.filter fun w => !(wordsOf off 8).contains w }).updR fun r => armBarrier { r with labels } off ((sval D 2 b.toNat).setWidth 32) i)

/-- BARA: a die-scope release, then one arrival (R280); it ends a region (R133). -/
def execBara (a : BitVec 6) (σ : State) : Host.Outcome State Fault Refusal :=
  word (.bara a) σ fun fw D =>
    barrierAt fw D (sval D 1 a.toNat) fun off =>
      if !D.cur.released then stall (D.upd Team.endRun) 9
      else readable fw D (sval D 1 a.toNat) off (finish fw (((D.upd Team.endRun).updR fun r => arrive r 0 off).upd endRegion))

/-- BARW: goes on once ARMED is clear, after a die-scope acquire (R280). -/
def execBarw (a : BitVec 6) (σ : State) : Host.Outcome State Fault Refusal :=
  word (.barw a) σ fun fw D =>
    barrierAt fw D (sval D 1 a.toNat) fun off =>
      readable fw D (sval D 1 a.toNat) off
        (if armed D.cur.regs 0 off then waitAt (.barrier 0 off) D else finish fw (acquire (D.upd Team.endRun) .die))

/-- BARW_RELEASE: ARMED is clear (R148, R104). -/
def execBarwRelease (σ : State) : Host.Outcome State Fault Refusal :=
  releaseEvent σ fun fw _ D =>
    match D.cur.wait with
    | .barrier h off => if armed D.cur.regs h off then none else some (release fw (D.cur.pc + 4) (acquire D .die))
    | _ => none

end Sys2Proof.Machine
end

