-- ==== Sys2Proof/Machine/Matrix.lean ====
section
/-! DEFINITION. The matrix engine: MMA, the accumulator instructions, merge tiles (R51-R62, R71, R72, R98-R100, R291-R307). -/
namespace Sys2Proof.Machine

/-! ### Rows and tiles -/

/-- Words of a mask with a set bit, below the team width. -/
def maskWords (n : Nat) (k : Mask) : List Nat := (upFrom 0 ((n + 31) / 32)).filter fun w => maskWord k w ≠ 0

/-- The row word and the active rows (R291): an empty mask has none; more than one word is illegal. -/
def rowWord (d : Dev) : Option (Nat × BitVec 32) :=
  match maskWords d.cur.lanes d.k0 with
  | [] => some (0, 0)
  | [w] => some (w, maskWord d.k0 w)
  | _ => none

/-- The half whose tiles an instruction acts on (R292). -/
def tileHalf (d : Dev) : Nat :=
  match maskWords d.cur.lanes d.k0 with
  | w :: _ => if d.cur.paired && decide (16 ≤ w) then 1 else 0
  | [] => 0

/-- Rows of a 32-bit map, ascending. -/
def rowList (rows : BitVec 32) : List Nat := (upFrom 0 32).filter fun r => rows.getLsbD r

/-- Tile t of a half. -/
def Regs.tile (r : Regs) (half t : Nat) : Tile := mget {} r.tiles (64 * half + t)
/-- Replace a tile. -/
def Dev.setTile (d : Dev) (half t : Nat) (x : Tile) : Dev := d.updR fun r => { r with tiles := mset {} r.tiles (64 * half + t) x }

/-- The origin set of row r. -/
def Team.rowSet (t : Team) (x : Tile) (r : Nat) : OSet := t.org (mget 0 x.lbl r)
/-- The join of every row label. -/
def Team.tileSet (t : Team) (x : Tile) : OSet := (upFrom 0 32).foldl (fun s r => s ||| t.rowSet x r) 0

/-- The accumulator words of a tile that are in error: entries 0-511, metadata from 512 on. -/
def Team.badTile (t : Team) (half tile : Nat) : List Nat :=
  match t.badT with
  | [] => []
  | l => (l.filter fun k => k / 1024 == 64 * half + tile).map (· % 1024)

/-- Whether reading the entries of rows, and the metadata, meets an uncorrectable word (R300). -/
def badRows (t : Team) (half tile : Nat) (rows : List Nat) : Bool :=
  (t.badTile half tile).any fun i => decide (512 ≤ i) || rows.contains (i / 16)

/-- A tile is written whole: its errors are gone (R105). -/
def Dev.clearTile (d : Dev) (half tile : Nat) : Dev := d.upd fun t => { t with badT := t.badT.filter fun k => k / 1024 != 64 * half + tile }

/-- The tiles of a half that an operation names (R57, R179). -/
def OpKind.tiles : OpKind → List (Nat × Nat)
  | .mma _ t _ _ h _ _ _ => [(h, t)]
  | .acc (.blk _ f) t h _ _ => (upFrom t f.tiles).map fun x => (h, x)
  | .acc _ t h _ _ => [(h, t)]
  | .amrg _ _ _ t h _ => [(h, t)]
  | .fsel _ t _ _ _ => [(0, t)]
  | _ => []

/-- Earlier operations of the team on the same tiles have been performed (R57). -/
def Team.tileTurn (t : Team) (n : Nat) (k : OpKind) : Bool :=
  t.ops.all fun o => decide (n ≤ o.id) || o.done || o.kind.tiles.all fun x => !(k.tiles.contains x)

/-! ### Issue -/

/-- Post an operation of the matrix queue (R160, R297). -/
def postMatrix (fw : Fw) (q : Nat) (k : OpKind) (pins : List Nat) (ends : Bool) (d : Dev) : Dev :=
  queueRoom d (d.cur.core + tileHalf d) inMatrix 16 7
    (if !(canPin d pins) then stall d 7
     else
       let d1 := postOp d q k pins false
       finish fw (if ends then d1.upd endRegion else d1))

/-- An instruction of the row word. -/
def withRows (fw : Fw) (i : Instr) (d : Dev) (k : Nat → BitVec 32 → Dev) : Dev :=
  match rowWord d with
  | none => trapIllegal fw d (wordOf i) 0
  | some (w, rows) => k w rows

/-- An MMA (R294-R297): what its operand lanes may still read as (R22) goes with it. -/
def mmaIssue (fw : Fw) (i : Instr) (var q t a b : Nat) (d : Dev) : Dev :=
  withRows fw i d fun w rows => posting fw q d fun d =>
    let k : OpKind := .mma var t a b (tileHalf d) w rows []
    let hz := d.cur.haz.filter fun h => k.reads h.loc && (h.op != 0 || decide (d.cur.pos < h.upto))
    postMatrix fw q (.mma var t a b (tileHalf d) w rows hz) [] false d

/-- MMA: adds a product of blocks into a tile (R296). -/
def execMma (q : BitVec 4) (t : BitVec 6) (a : BitVec 7) (b : BitVec 7) (σ : State) : Host.Outcome State Fault Refusal :=
  word (.mma q t a b) σ fun fw D => mmaIssue fw (.mma q t a b) 0 q.toNat t.toNat a.toNat b.toNat D

/-- MMAZ: clears the tile first (R296). -/
def execMmaz (q : BitVec 4) (t : BitVec 6) (a : BitVec 7) (b : BitVec 7) (σ : State) : Host.Outcome State Fault Refusal :=
  word (.mmaz q t a b) σ fun fw D => mmaIssue fw (.mmaz q t a b) 1 q.toNat t.toNat a.toNat b.toNat D

/-- MMAN: subtracts (R296). -/
def execMman (q : BitVec 4) (t : BitVec 6) (a : BitVec 7) (b : BitVec 7) (σ : State) : Host.Outcome State Fault Refusal :=
  word (.mman q t a b) σ fun fw D => mmaIssue fw (.mman q t a b) 2 q.toNat t.toNat a.toNat b.toNat D

/-- An accumulator operation of the selected half. -/
def accIssue (fw : Fw) (q t : Nat) (o : AccOp) (w : Nat) (rows : BitVec 32) (pins : List Nat) (d : Dev) : Dev :=
  postMatrix fw q (.acc o t (tileHalf d) w rows) pins false d

/-- ACLR: clears a tile (R301). -/
def execAclr (q : BitVec 4) (t : BitVec 6) (σ : State) : Host.Outcome State Fault Refusal :=
  word (.aclr q t) σ fun fw D => posting fw q.toNat D fun D => accIssue fw q.toNat t.toNat .clr 0 0 [] D

/-- ACVT: converts the active rows to registers (R302). -/
def execAcvt (q : BitVec 4) (t : BitVec 6) (d : BitVec 7) (f : Bool) (σ : State) : Host.Outcome State Fault Refusal :=
  word (.acvt q t d f) σ fun fw D => withRows fw (.acvt q t d f) D fun w rows =>
    posting fw q.toNat D fun D => accIssue fw q.toNat t.toNat (.cvt d.toNat f) w rows [] D

/-- ABQ: quantises the active rows into blocks (R303). -/
def execAbq (q : BitVec 4) (t : BitVec 6) (d : BitVec 7) (f : Fmt) (σ : State) : Host.Outcome State Fault Refusal :=
  word (.abq q t d f) σ fun fw D => withRows fw (.abq q t d f) D fun w rows =>
    posting fw q.toNat D fun D => accIssue fw q.toNat t.toNat (.blk d.toNat f) w rows [] D

/-- The accesses of a tile image at va: one for each page, or the scratchpad range (R72, R304). -/
def imageWants (va : Dword) (lbl : OSet) : List Want :=
  if inScratch va || inRegWin va then [{ lane := scalarLane, va, len := 4224, albl := lbl }]
  else (pagesOf va 4224).map fun p =>
    { lane := scalarLane, va := p, len := min (va.toNat + 4224) ((p.toNat / 65536 + 1) * 65536) - p.toNat, albl := lbl }

/-- AST: stores a tile image (R304). -/
def execAst (q : BitVec 4) (t : BitVec 6) (a : BitVec 6) (σ : State) : Host.Outcome State Fault Refusal :=
  word (.ast q t a) σ fun fw D => posting fw q.toNat D fun D =>
    accesses fw { w := true, e := true } true false (imageWants (sval D 1 a.toNat) (sorg D 1 a.toNat)) 64 D fun as D1 =>
      accIssue fw q.toNat t.toNat (.st as) 0 0 (accEnts as) D1

/-- ALD: loads a tile image (R304). -/
def execAld (q : BitVec 4) (t : BitVec 6) (a : BitVec 6) (σ : State) : Host.Outcome State Fault Refusal :=
  word (.ald q t a) σ fun fw D => posting fw q.toNat D fun D =>
    accesses fw { r := true, e := true } true false (imageWants (sval D 1 a.toNat) (sorg D 1 a.toNat)) 64 D fun as D1 =>
      accIssue fw q.toNat t.toNat (.ld as) 0 0 (accEnts as) D1

/-- AEXP: returns XMAX, EMPTY and SAT (R307). -/
def execAexp (q : BitVec 4) (t : BitVec 6) (d : BitVec 6) (σ : State) : Host.Outcome State Fault Refusal :=
  word (.aexp q t d) σ fun fw D => posting fw q.toNat D fun D => accIssue fw q.toNat t.toNat (.exp d.toNat) 0 0 [] D

/-- The merge tile at va (R305): neither window holds one; `k` goes on with its place. -/
def mergeAt (fw : Fw) (n : Need) (va : Dword) (lbl : OSet) (d : Dev) (k : Acc → Dev → Dev) : Dev :=
  if inScratch va || inRegWin va then
    if va.toNat % 8192 ≠ 0 then trapIssue fw d 6 (allLanes d.cur.lanes) va.toNat 0
    else trapIssue fw d 7 (allLanes d.cur.lanes) va.toNat (if inScratch va then d.cur.decl.scratch else regBytes d.cur)
  else accesses fw n true false [{ lane := scalarLane, va, len := 8192, lbl }] 8192 d fun as d1 =>
    match as with
    | a :: _ => k a d1
    | [] => d1

/-- Frame-table entry and physical address of an access to memory. -/
def accPlace (a : Acc) : Nat × Nat := match a.tgt with | .mem pa e _ => (pa, e) | _ => (0, 0)

/-- AMI: initialises a merge tile; an exponent outside its range changes nothing and completes in error (R305); it ends a region. -/
def execAmi (q : BitVec 4) (a : BitVec 6) (b : BitVec 6) (σ : State) : Host.Outcome State Fault Refusal :=
  word (.ami q a b) σ fun fw D => posting fw q.toNat D fun D =>
    let e := (sval D 2 b.toNat).toInt
    let lbl := sorg D 1 a.toNat ||| sorg D 2 b.toNat
    mergeAt fw { w := true, e := true, cls := .merge } (sval D 1 a.toNat) lbl D fun x D1 =>
      let (pa, ent) := accPlace x
      postMatrix fw q.toNat (.ami pa ent x.va e lbl (tileHalf D)) [ent] true D1

/-- The join of a tile's row labels once the operations issued before have been performed. -/
def tileSetAfter (d : Dev) (half tile : Nat) : OSet :=
  d.cur.ops.foldl (fun s o =>
    if o.done then s
    else match o.kind with
      | .mma var t va vb h w rows _ =>
        if h = half && t = tile then
          let a := (rowList rows).foldl (fun x r => (upFrom va 16).foldl (fun x v => x ||| d.cur.org (d.cur.regs.lane v (32 * w + r)).lbl) x) 0
          let b := if rows = 0 then 0 else (upFrom (32 * w) 32).foldl (fun x l => (upFrom vb 8).foldl (fun x v => x ||| d.cur.org (d.cur.regs.lane v l).lbl) x) 0
          (if var = 1 then 0 else s) ||| a ||| b
        else s
      | .acc .clr t h _ _ => if h = half && t = tile then 0 else s
      | .acc (.ld as) t h _ _ => if h = half && t = tile then as.foldl (fun x a => x ||| a.albl ||| (match a.tgt with
          | .mem _ e _ => (d.frame e).cur
          | .scr hf off => scrLabel d.cur hf off a.len
          | .reg _ _ _ => 0)) 0 else s
      | _ => s) (d.cur.tileSet (d.cur.regs.tile half tile))

/-- AMRG: adds a tile into a merge tile (R306); it ends a region. -/
def execAmrg (q : BitVec 4) (t : BitVec 6) (a : BitVec 6) (σ : State) : Host.Outcome State Fault Refusal :=
  word (.amrg q t a) σ fun fw D => posting fw q.toNat D fun D =>
    let half := tileHalf D
    let la := sorg D 1 a.toNat
    mergeAt fw { r := true, w := true, e := true, cls := .merge } (sval D 1 a.toNat) (tileSetAfter D half t.toNat ||| la) D fun x D1 =>
      let (pa, ent) := accPlace x
      postMatrix fw q.toNat (.amrg pa ent x.va t.toNat half la) [ent] true D1

/-! ### The engine -/

/-- A register lane as an MMA reads it: now, or as it could be read when the MMA was issued (R25, R22). -/
def mmaLane (d : Dev) (hz : List Haz) (v l : Nat) : LVal :=
  if d.cur.lanes ≤ l then {}
  else pick d.free (slotKey 8 (.v v l)) (d.cur.regs.lane v l)
    ((hz.filter fun h => h.loc == .v v l).map fun h => { val := BitVec.ofNat 32 h.old, lbl := h.lbl })

/-- Bytes of 32-bit words, lowest first. -/
def wordsBytes (l : List Word) : List Nat := l.flatMap fun w => (leBytes 4 w.toNat).map (·.toNat)

/-- n registers of a lane from v on: their bytes and the join of their labels. -/
def mmaRegs (d : Dev) (hz : List Haz) (v n l : Nat) : List Nat × OSet :=
  let xs := (upFrom v n).map fun r => mmaLane d hz r l
  (wordsBytes (xs.map (·.val)), xs.foldl (fun s x => s ||| d.cur.org x.lbl) 0)

/-- A tile of which every entry is open (R32): flags stay, its exponent is open too. -/
def openTile (d : Dev) (half tile : Nat) (x : Tile) : Tile :=
  let key := fun i => 2 ^ 40 + 2 ^ 20 * (64 * half + tile) + i
  { x with
    ent := (upFrom 0 512).foldl (fun m i => mset 0 m i (BitVec.ofNat 64 (Config.free d.free (key i))).toInt) []
    xmax := if Config.free d.free (key 1000) % 2 = 0 then x.xmax else some ((Config.free d.free (key 1001) % 519 : Nat) - 264 : Int) }

/-- Take indices for row labels (R75): the new row label map, or the set that found no entry; the table as left. -/
def rowLabels (labels : SMap OSet) (old : SMap Lbl) (rs : List (Nat × OSet)) : Except OSet (SMap Lbl) × SMap OSet :=
  let (ix, ls, failed, fs) := allocLanes labels rs
  if failed.isEmpty then (.ok (ix.foldl (fun m p => mset 0 m p.1 p.2) old), ls) else (.error fs, ls)

/-- The lanes of rows. -/
def rowLanes (w : Nat) (rows : List Nat) : Mask := lanesMask (rows.map fun r => 32 * w + r)

/-- The operand lanes of an MMA that are uncorrectable, with the register (R105): rows of A, then columns of B. -/
def badOperands (t : Team) (va vb w : Nat) (rs : List Nat) : List (Nat × Nat) :=
  match t.badV with
  | [] => []
  | bad =>
    ((rs.map (32 * w + ·)).flatMap fun l => (upFrom va 16).map fun r => (l, r)) ++
      ((upFrom (32 * w) 32).flatMap fun l => (upFrom vb 8).map fun r => (l, r)) |>.filter fun p => bad.contains (1024 * p.2 + p.1)

/-- The uncorrectable units an MMA reads: words of the tile, unless it clears the tile first, or operand lanes (R105, R299). -/
def mmaUnc (t : Team) (clears : Bool) (tile va vb half w : Nat) (rs : List Nat) : List DoneCause :=
  if !clears && badRows t half tile (upFrom 0 32) then [{ code := 0x0D, k14 := rowLanes w rs, ti0 := tile }]
  else match badOperands t va vb w rs with
    | [] => []
    | (l, r) :: rest => [{ code := 0x0D, k14 := lanesMask (l :: rest.map (·.1)), ti0 := regAddr t.lanes r l }]

/-- A block whose lanes are uncorrectable is not checked (R50, R105). -/
def readableBlock (bad : List (Nat × Nat)) (lanes : List Nat) (b : List Nat) : List Nat :=
  if bad.any fun p => lanes.contains p.1 then b.map fun _ => 0 else b

/-- An MMA is performed (R296, R299); of several causes the lowest is raised (R219). With no active row it reads nothing (R291). -/
def mmaPerform (fw : Fw) (o : Op) (var t va vb half w : Nat) (rows : BitVec 32) (hz : List Haz) (d : Dev) : Dev :=
  let old := d.cur.regs.tile half t
  let base := if var = 1 then Tile.cleared else old
  let rs := rowList rows
  if rs.isEmpty then finishOp (if var = 1 then (d.setTile half t base).clearTile half t else d) o.id false
  else
    let bad := badOperands d.cur va vb w rs
    let as := rs.map fun r => (r, mmaRegs d hz va 16 (32 * w + r))
    let bs := (upFrom 0 16).map fun c =>
      let lo := mmaRegs d hz vb 8 (32 * w + 2 * c)
      let hi := mmaRegs d hz vb 8 (32 * w + 2 * c + 1)
      (c, lo.1 ++ hi.1, lo.2 ||| hi.2)
    let blb := bs.foldl (fun s b => s ||| b.2.2) 0
    let checked := as.map (fun a => readableBlock bad [32 * w + a.1] a.2.1) ++ bs.map fun b => readableBlock bad [32 * w + 2 * b.1, 32 * w + 2 * b.1 + 1] b.2.1
    match (if o.dirty then none else mmaCheck checked) with
    | some (i, reason) =>
      let (reg, lane) := if i < rs.length then (va, 32 * w + nthD 0 rs i) else (vb, 32 * w + 2 * (i - rs.length))
      endOp fw d o false [{ code := 0x0A, k14 := mget 0 d.cur.regs.k 0, ti0 := reg + reason * 2 ^ 8 + lane * 2 ^ 16 + 2 ^ 63 }]
    | none =>
      let sets := as.map fun a => (a.1, d.cur.rowSet base a.1 ||| a.2.2 ||| blb)
      match rowLabels d.cur.regs.labels base.lbl sets with
      | (.error s, ls) =>
        endOp fw (d.updR fun r => { r with labels := ls }) o false
          [{ code := 0x0C, k14 := rowLanes w (needLanes d.cur.regs.labels sets), ti0 := s.toNat }]
      | (.ok lbl, ls) =>
        match mmaUnc d.cur (var == 1) t va vb half w rs with
        | [] =>
          let x := if o.dirty then openTile d half t base
            else base.mma (if var = 2 then -1 else 1) (as.map fun a => (a.1, a.2.1)) (bs.map fun b => (b.1, b.2.1))
          finishOp (((d.updR fun r => { r with labels := ls }).setTile half t { x with lbl }).clearTile half t) o.id false
        | cs => endOp fw d o false cs

/-- Bytes of a tile image (R72). R71 calls XMAX meaningless while EMPTY: of an empty tile it is written as 0 (entry 47). -/
def tileImage (x : Tile) : List Byte :=
  let ents := (upFrom 0 512).flatMap fun i => leBytes 8 (BitVec.ofInt 64 (mget 0 x.ent i)).toNat
  let xm := (BitVec.ofInt 16 (x.xmax.getD 0)).toNat
  let sat := x.sat.foldl (fun a p => if p.2 then a + 2 ^ p.1 else a) 0
  let fl := (if x.xmax.isNone then 1 else 0) + (if x.flag then 2 else 0)
  ents ++ leBytes 2 xm ++ leBytes 1 fl ++ leBytes 13 0 ++ leBytes 64 sat ++ leBytes 48 0

/-- The tile of an image, if it passes R72's checks. The XMAX of an EMPTY image is not kept (entry 47). -/
def imageTile (bs : List Byte) : Option Tile :=
  let fl := fieldAt bs 4098 1
  let xm := sintOf 16 (fieldAt bs 4096 2)
  let empty := fl % 2 == 1
  let sat := fieldAt bs 4112 64
  if decide (4 ≤ fl) || fieldAt bs 4099 13 != 0 || fieldAt bs 4176 48 != 0 || (!empty && (decide (xm < -264) || decide (254 < xm))) then none
  else some { ent := (upFrom 0 512).foldl (fun m i => mset 0 m i (sintOf 64 (fieldAt bs (8 * i) 8))) [],
              sat := (upFrom 0 512).foldl (fun m i => mset false m i (sat / 2 ^ i % 2 == 1)) [],
              flag := fl / 2 == 1, xmax := if empty then none else some xm }

/-- The pieces of an image. -/
def accPieces (d : Dev) (as : List Acc) : List Piece :=
  (as.foldl (fun (p : Nat × List Piece) a =>
    let page := match a.tgt with
      | .mem _ e _ => some { part := 0, asid := 0, vpn := 0, pf := 0, cls := 0, mi := false, perm := 0, sperm := 0, ceil := (d.frame e).ceil, ent := e, ext := 0 }
      | _ => none
    (p.1 + a.len, p.2 ++ [{ off := p.1, va := a.va, tgt := a.tgt, len := a.len, page }])) (0, [])).2

/-- The address labels of accesses. -/
def accLabel (as : List Acc) : OSet := as.foldl (fun s a => s ||| a.albl) 0

/-- AST is performed (R304, R102): its bytes take the join of all row labels (R72) and, as those of any store, that of its address (R91, R101, R287;
entry 51). -/
def astPerform (fw : Fw) (o : Op) (t half : Nat) (as : List Acc) (d : Dev) : Dev :=
  let x := d.cur.regs.tile half t
  let s := d.cur.tileSet x ||| accLabel as
  let ps := accPieces d as
  if badRows d.cur half t (upFrom 0 32) then endOp fw d o false [{ code := 0x0D, k14 := allLanes d.cur.lanes, ti0 := t }]
  else match lodgePieces fw d ps s with
    | none => finishOp (egressRefused fw d (match as with | a :: _ => a.va.toNat | [] => 0) 4224 s) o.id true
    | some _ =>
      let (w, refused) := writePieces fw d.cur.unit o ((tileImage x).map fun b => (b, s)) ps { dev := d }
      endOp fw w.dev o (w.err || refused) (match w.full with | some e => [{ code := 0x0C, k14 := allLanes d.cur.lanes, ti0 := e.toNat }] | none => [])

/-- ALD is performed (R304, R72). -/
def aldPerform (fw : Fw) (o : Op) (t half : Nat) (as : List Acc) (d : Dev) : Dev :=
  let ps := accPieces d as
  if ps.any (badPiece d) then finishOp (uncRecord fw d d.cur.unit ps) o.id true
  else
    let d1 := notePieces d ps
    let bs := readPieces d o ps
    match imageTile (bs.map (·.1)) with
    | none => endOp fw d1 o false [{ code := 0x0A, k14 := mget 0 d.cur.regs.k 0, ti0 := match as with | a :: _ => a.va.toNat | [] => 0 }]
    | some x =>
      let s := joinOf bs ||| accLabel as
      match rowLabels d.cur.regs.labels [] ((upFrom 0 32).map fun r => (r, s)) with
      | (.error _, ls) => endOp fw (d1.updR fun r => { r with labels := ls }) o false [{ code := 0x0C, k14 := allLanes d.cur.lanes, ti0 := s.toNat }]
      | (.ok lbl, ls) => finishOp (((d1.updR fun r => { r with labels := ls }).setTile half t { x with lbl }).clearTile half t) o.id false

/-- ABQ's block of row r (R303): every tile on its own grid. -/
def abqBlock (ts : List Tile) (f : Nat) (r : Nat) : List Nat :=
  let g : Int := ts.foldl (fun g x => match x.xmax with | some e => min g (e - 28) | none => g) 1000
  quant (ts.flatMap fun x => (upFrom 0 16).map fun c => match x.xmax with | some e => x.e r c * (pow2 (e - 28 - g) : Int) | none => 0) g f

/-- The 16 registers of a block. -/
def blockRegs (v : Nat) (b : List Nat) : List (Nat × Word) :=
  (upFrom 0 16).map fun j => (v + j, BitVec.ofNat 32 ((upFrom 0 4).foldl (fun a i => a + nthD 0 b (4 * j + i) * 2 ^ (8 * i)) 0))

/-- An accumulator operation is performed (R301-R307). -/
def accPerform (fw : Fw) (o : Op) (k : AccOp) (t half w : Nat) (rows : BitVec 32) (d : Dev) : Dev :=
  let x := d.cur.regs.tile half t
  let rs := rowList rows
  match k with
  | .clr => finishOp ((d.setTile half t Tile.cleared).clearTile half t) o.id false
  | .cvt vd bf =>
    if badRows d.cur half t rs then endOp fw d o false [{ code := 0x0D, k14 := rowLanes w rs, ti0 := t }]
    else
      let regs := fun r => if bf then (upFrom 0 8).map fun j => (vd + j, BitVec.ofNat 32 (x.cvt 8 r (2 * j) + x.cvt 8 r (2 * j + 1) * 65536))
        else (upFrom 0 16).map fun c => (vd + c, BitVec.ofNat 32 (x.cvt 24 r c))
      let (d1, cs) := landLanes d o (rs.map fun r => (32 * w + r, d.cur.rowSet x r, regs r))
      endOp fw d1 o false cs
  | .blk vd f =>
    let ts := (upFrom t f.tiles).map fun i => d.cur.regs.tile half i
    match (upFrom t f.tiles).filter fun i => badRows d.cur half i rs with
    | i :: _ => endOp fw d o false [{ code := 0x0D, k14 := rowLanes w rs, ti0 := i }]
    | [] =>
      let (d1, cs) := landLanes d o (rs.map fun r => (32 * w + r, ts.foldl (fun s y => s ||| d.cur.rowSet y r) 0, blockRegs vd (abqBlock ts f.code r)))
      endOp fw d1 o false cs
  | .st as => astPerform fw o t half as d
  | .ld as => aldPerform fw o t half as d
  | .exp sd =>
    if badRows d.cur half t [] then endOp fw d o false [{ code := 0x0D, k14 := allLanes d.cur.lanes, ti0 := t }]
    else
      let v := (if x.flag then 2 ^ 17 else 0) + (match x.xmax with | none => 2 ^ 16 | some e => (BitVec.ofInt 16 e).toNat)
      let (d1, cs) := landScalar d o sd (BitVec.ofNat 64 v) (d.cur.tileSet x)
      endOp fw d1 o false cs

/-- The accesses of a tile image that ALD reads follow the team's earlier writes (R141). -/
def accReady (t : Team) (n : Nat) : AccOp → Bool
  | .ld as => as.all fun a => t.writesDone n a.tgt a.len
  | .st as => as.all fun a => t.writesDone n a.tgt a.len
  | _ => true

/-- The MATRIX-FENCE record of a core (R225, R367): the window is that of the quarter that failed. -/
def fenceRecord (fw : Fw) (d : Dev) (part core : Nat) : Dev :=
  let k := d.core core
  postFault fw d part (0xA00 + core / 128) 0x1D 0 0xFFFFFFFF 0xFFFFFFFF core (mget 0 k.lastPass k.failQ).toNat k.lastFail.toNat 0

/-- An operation runs on the matrix engine of its half's core (R292); a disabled engine completes it in error with a record (R367). -/
def onEngine (fw : Fw) (o : Op) (d : Dev) (k : Dev → Dev) : Dev :=
  let c := o.core d.cur
  if (d.core c).off then finishOp (fenceRecord fw d d.cur.part c) o.id true
  else k (if (d.core c).ran = 15 then d else d.updCore c fun x => { x with ran := 15 })

/-- An operation is next in the matrix queue of its half's core (R160), and next on its tiles (R57). -/
def matrixTurn (d : Dev) (o : Op) : Bool := d.queueTurn (o.core d.cur) inMatrix o && d.cur.tileTurn o.id o.kind

/-- MATRIX_OPERATION: the matrix engine performs an accepted MMA or accumulator operation (R296-R307), in the order of acceptance (R160), which on each
tile is issue order (R57). -/
def execMatrixOperation (σ : State) : Host.Outcome State Fault Refusal :=
  opEvent σ fun fw _ o d =>
    if !(matrixTurn d o) then none
    else match o.kind with
      | .mma var t va vb half w rows hz => some (onEngine fw o d (mmaPerform fw o var t va vb half w rows hz))
      | .acc k t half w rows => if accReady d.cur o.id k then some (onEngine fw o d (accPerform fw o k t half w rows)) else none
      | _ => none

/-! ### Merge tiles (R61, R98-R100) -/

/-- Write bytes of a merge tile by its slice's adders. -/
def mergeWrite (d : Dev) (o : Op) (pa : Nat) (bs : List Byte) : Dev := clearUnits (devSetBytes (d.engine o) d pa bs) pa bs.length

/-- AMI at its slice (R99): zero entries and map, E, INIT set and SAT clear; the reserved bytes beside the flags are 0, so that every unit is
written whole. -/
def amiApply (d : Dev) (o : Op) (pa ent : Nat) (e : Int) (s : OSet) : Dev :=
  raiseCur (mergeWrite d o pa (leBytes 6208 0 ++ leBytes 2 (BitVec.ofInt 16 e).toNat ++ [1] ++ leBytes 5 0)) ent s

/-- The sum of an accumulator entry into a merge entry (R61): value and saturation. A saturated entry that holds 0, which only ALD can load, has no
sign that the rule names: it counts as positive (entry 47). -/
def mergeEntry (x : Tile) (e : Int) (i : Nat) (old : Int) (sat : Bool) : Int × Bool :=
  if mget false x.sat i then ((if mget 0 x.ent i < 0 then -1 else 1) * (2 ^ 95 - 1), true)
  else if sat then (old, true)
  else
    let q : Int := match x.xmax with | none => 0 | some m => rneGrid (mget 0 x.ent i) (m - 28) e
    satInt (old + q) 96

/-- AMRG at its slice (R61): the new bytes of the tile. -/
def amrgBytes (d : Dev) (pa : Nat) (x : Tile) : List Byte :=
  let map := memNat d.mem (pa + 6144) 64
  let e := sintOf 16 (memNat d.mem (pa + 6208) 2)
  let rs := (upFrom 0 512).map fun i => mergeEntry x e i (sintOf 96 (memNat d.mem (pa + 12 * i) 12)) (map / 2 ^ i % 2 == 1)
  let map' := (rs.zip (upFrom 0 512)).foldl (fun a p => if p.1.2 then a + 2 ^ p.2 else a) 0
  (rs.flatMap fun r => leBytes 12 (BitVec.ofInt 96 r.1).toNat) ++ leBytes 64 map' ++ leBytes 2 (BitVec.ofInt 16 e).toNat ++
    [if map' = 0 then 1 else 3]

/-- An AMRG at its slice (R61, R100, R105): errors of the tile or the merge tile, a merge tile that nothing initialised, or the sum. -/
def amrgPerform (fw : Fw) (o : Op) (pa ent : Nat) (va : Dword) (t half : Nat) (lbl : OSet) (d : Dev) : Dev :=
  let x := d.cur.regs.tile half t
  if badRows d.cur half t (upFrom 0 32) then endOp fw d o false [{ code := 0x0D, k14 := allLanes d.cur.lanes, ti0 := t }]
  else if badAt d pa 8192 then
    let a := badFirst d pa 8192
    finishOp (teamFault fw (countBad d true (badUnits d pa 8192)) (errUnit true a) 0x13 0 (va.toNat + (a - pa)) 0 0 0) o.id true
  else if memNat d.mem (pa + 6210) 1 % 2 = 0 then finishOp d o.id true
  else finishOp (raiseCur (mergeWrite (noteCorr d true pa 8192) o pa (amrgBytes d pa x)) ent (d.cur.tileSet x ||| lbl)) o.id false

/-- MERGE_TILE_APPLY: the owning slice applies an AMI or AMRG to its merge tile, in arrival order (R100, R305, R306); it leaves its half's
matrix engine first (R292, R367), whose queue drains in the order of acceptance (R160). -/
def execMergeTileApply (σ : State) : Host.Outcome State Fault Refusal :=
  opEvent σ fun fw _ o d =>
    if !(matrixTurn d o) then none
    else match o.kind with
    | .ami pa ent _ e lbl _ => some (onEngine fw o d fun d =>
        if decide (e < -1024) || decide (1023 < e) then finishOp d o.id true else finishOp (amiApply d o pa ent e lbl) o.id false)
    | .amrg pa ent va t half lbl => some (onEngine fw o d (amrgPerform fw o pa ent va t half lbl))
    | _ => none

end Sys2Proof.Machine
end

