-- ==== Sys2Proof/Machine/Blk.lean ====
section
/-! DEFINITION. Block instructions BQNT, BDEQ and BHDR (R308-R311). -/
namespace Sys2Proof.Machine

/-- Registers of lanes written with one label a lane (R308, R246): lanes allocate in ascending order, and a full table traps before any
register changes. -/
def putRegs (fw : Fw) (d : Dev) (lat : Nat) (rs : List (Nat × OSet × List (Nat × Word))) (k : Dev → Dev) : Dev :=
  let sets := rs.map fun r => (r.1, r.2.1)
  let (ix, labels, failed, fs) := allocLanes d.cur.regs.labels sets
  let d1 := d.updR fun r => { r with labels }
  if failed.isEmpty then
    k (d1.upd fun t => (rs.zip ix).foldl (fun t p => p.1.2.2.foldl (fun t x => t.vset x.1 p.1.1 { val := x.2, lbl := p.2.2 } lat) t) t)
  else trapIssue fw d1 0x0C (lanesMask (needLanes d.cur.regs.labels sets)) fs.toNat 0

/-- n registers of a lane from v on: values and the join of their labels. -/
def laneRegs (d : Dev) (v n l : Nat) : List Word × OSet :=
  let xs := (upFrom v n).map fun r => vread d 1 r l
  (xs.map (·.val), xs.foldl (fun s x => s ||| d.cur.org x.lbl) 0)

/-- The frame of a block instruction (R308): every active lane's inputs are checked; the lowest failing lane is reported. -/
def blockOp (fw : Fw) (va n : Nat) (check : List Word → Nat) (out : List Word → List (Nat × Word)) (d : Dev) : Dev :=
  let xs := d.act.map fun l => (l, laneRegs d va n l)
  match xs.filter fun x => check x.2.1 ≠ 0 with
  | x :: _ => trapIssue fw d 0x0A d.k0 (va + x.1 * 2 ^ 16 + 2 ^ 63) (check x.2.1)
  | [] => putRegs fw d 8 (xs.map fun x => (x.1, x.2.2, out x.2.1)) (finishV fw d.k0)

/-- The BF16 halfWords of registers, low half first (R309). -/
def halfWords (ws : List Word) : List Nat := ws.flatMap fun w => [w.toNat % 65536, w.toNat / 65536]

/-- Registers from pairs of BF16 values. -/
def pairRegs (v : Nat) : List Nat → List (Nat × Word)
  | a :: b :: r => (v, BitVec.ofNat 32 (a + b * 65536)) :: pairRegs (v + 1) r
  | _ => []

/-- BQNT: quantises BF16 pairs into a block (R309). -/
def execBqnt (d : BitVec 7) (a : BitVec 7) (f : Fmt) (σ : State) : Host.Outcome State Fault Refusal :=
  word (.bqnt d a f) σ fun fw D =>
    blockOp fw a.toNat (blkCount f.code / 2) (fun ws => if (halfWords ws).any fun h => h / 128 % 256 == 255 then 10 else 0)
      (fun ws => blockRegs d.toNat (quant ((halfWords ws).map bfGrid) (-133) f.code)) D

/-- BDEQ: expands a block into 96 BF16 values (R310). -/
def execBdeq (d : BitVec 7) (a : BitVec 7) (σ : State) : Host.Outcome State Fault Refusal :=
  word (.bdeq d a) σ fun fw D =>
    blockOp fw a.toNat 16 (fun ws => blkCheck (wordsBytes ws))
      (fun ws =>
        let b := wordsBytes ws
        let vs := (blkElems b).map (elemBf b)
        pairRegs d.toNat (vs ++ List.replicate (96 - vs.length) 0)) D

/-- BHDR: the block's header (R311). -/
def execBhdr (d : BitVec 7) (a : BitVec 7) (σ : State) : Host.Outcome State Fault Refusal :=
  word (.bhdr d a) σ fun fw D =>
    blockOp fw a.toNat 16 (fun ws => blkCheck (wordsBytes ws))
      (fun ws =>
        let b := wordsBytes ws
        let f := blkByte b 0
        [(d.toNat, if f = 0 then 0 else BitVec.ofNat 32 (f + blkByte b 1 * 2 ^ 8 + blkCount f * 2 ^ 16 + blkEscs b * 2 ^ 24))]) D

end Sys2Proof.Machine
end

