-- ==== Sys2Proof/Machine/Fetch.lean ====
section
/-! DEFINITION. Fetching an instruction (R231, R232) and the hint group that stands at a position (R227, R239, R240). -/
namespace Sys2Proof.Machine

/-- What a fetch comes to: a word, or the machine after the fault it raised. -/
inductive Fetched where
  | word (w : Nat) (d : Dev)
  | raised (d : Dev)
deriving DecidableEq, Repr

/-- Fetch the word at the team's pc through its core's instruction cache (R231, R232, R105): windows and pages without X refuse. Errors of
the units it reads are counted (R368), and the position may stall for a line or a translation that is missing (R19). -/
def fetch (fw : Fw) (d : Dev) : Fetched :=
  let t := d.cur
  let all := allLanes t.lanes
  if inScratch t.pc || inRegWin t.pc then .raised (trapIssue fw d 5 all t.pc.toNat 32)
  else
    match translate fw d t.core t.part { x := true } t.pc with
    | (.refused r c, d1) => .raised (trapIssue fw d1 5 all t.pc.toNat (r * 16 + c))
    | (.missing r, d1) => .raised (missTeam fw d1 all t.pc r)
    | (.ok e, d1) =>
      let pa := e.pa t.pc
      if badAt d1 pa 4 then .raised (trapIssue fw (countErr d1 false e.mi (pa / 8)) 0x0D all t.pc.toNat 0)
      else
        let d2 := if (tlbFind d t.core t.part 0 (vpnOf t.pc)).isNone then d1.mayStall 9 else d1
        let d3 := if (mfind (d1.core t.core).ic (pa / 128)).isNone then d2.mayStall 5 else d2
        let (w, d4) := fetchBytes (noteCorr d3 e.mi pa 4) t.core pa
        .word w d4

/-- The word at an address as memory holds it, for looking ahead. -/
def peekWord (fw : Fw) (d : Dev) (va : Dword) : Option Instr :=
  match fwXl fw d d.cur.part (Need.own { x := true }) va with
  | .ok e => decodeWord (memNat d.mem (e.pa va) 4)
  | _ => none

/-- Whether an instruction is a hint word (R238). -/
def Instr.isHint : Instr → Bool
  | .imm _ => true | .run _ => true | .livev _ _ => true | .lives _ _ => true | .livep _ _ => true
  | .region => true | .off _ => true | .mod _ _ _ => true | .prio _ => true
  | _ => false

/-- The hint words that stand at an address before their instruction. -/
def hintGroup (fw : Fw) (d : Dev) : Nat → Dword → List Instr
  | 0, _ => []
  | n + 1, va =>
    match peekWord fw d va with
    | some i => if Instr.isHint i then i :: hintGroup fw d n (va + 4) else []
    | none => []

/-- The group at the team's pc. -/
def Dev.group (fw : Fw) (d : Dev) : List Instr := hintGroup fw d 64 d.cur.pc

/-- The team stands at a hint group, or inside one, whose first word lies outside a run (R227, R240): a RUN hint has ended the run before it
(R27). -/
def Team.between (t : Team) : Bool :=
  t.hints.any isRun || !(t.runOpen && decide (t.pos ≤ t.runEnd + t.hints.length))

/-- The whole group of the team's instruction: the hint words that have issued and those that follow. -/
def Dev.whole (fw : Fw) (d : Dev) : List Instr := d.cur.hints ++ d.group fw

/-- Whether the instruction after a group lies in the run that a RUN word of the group opens, the n positions after it (R27); none without one. -/
def groupRun : List Instr → Option Bool
  | [] => none
  | .run n :: r => (groupRun r).orElse fun _ => some (decide (r.length ≤ n.toNat))
  | _ :: r => groupRun r

/-- The team stands at a LIVE point (R227), or in a word that holds it there (R279): a group with LIVE words, whose instruction lies in
no run (R240). -/
def atLive (fw : Fw) (d : Dev) : Bool :=
  let g := d.whole fw
  g.any isLive && !((groupRun g).getD (d.cur.runOpen && decide (d.cur.pos + (d.group fw).length ≤ d.cur.runEnd)))

/-- A save requested inside a group is taken at its first word (R240), from which the team goes on. -/
def Team.atFirst (t : Team) : Team := if t.hints.isEmpty then t else { t with pc := t.hgrp, hints := [], runOpen := false }

end Sys2Proof.Machine
end

