-- ==== Sys2Proof/Machine/Limamon.lean ====
section
/-! DEFINITION. What Limamon's steps share: completion words and their records, and launches (R152-R154, R213, R225). -/
namespace Sys2Proof.Machine

/-- An event that may change firmware tables too. -/
def eventFw (σ : State) (f : Fw → EventArgs → Dev → Option (Fw × Dev)) : Host.Outcome State Fault Refusal :=
  match f σ.fw σ.args σ.dev with
  | some (w, d) => .next { σ with fw := w, dev := d }
  | none => .next σ

/-- Limamon's unit number, by die (R209); it serves every host work queue on die 0 (entry 30). -/
def limamon (die : Nat) : Nat := 0xA00 + die

/-- No launch, no team in a record (R225). -/
def nobody : Nat := 0xFFFFFFFF

/-- A record of Limamon that no launch is the source of. -/
def firmRecord (fw : Fw) (d : Dev) (part kind addr i0 i1 : Nat) (s : OSet) : Dev :=
  postFault fw d part (limamon 0) kind 0 nobody nobody addr i0 i1 s

/-! ### Limamon's reads and writes of a partition's memory (R105, R106, R130) -/

/-- The page of a translated range that holds an address is a merge page (R98). -/
def rangeMerge (l : List (Dword × TlbEnt)) (va : Nat) : Bool :=
  match l.find? fun p => p.1.toNat / 65536 == va / 65536 % 2 ^ 48 with
  | some p => p.2.mi
  | none => false

/-- The UNCORRECTABLE record of a read of Limamon's (R105, R225), with the first unit's slice and address; every unit is counted (R368). -/
def commandUnc (fw : Fw) (d : Dev) (part : Nat) (l : List (Dword × TlbEnt)) (va len : Nat) : Dev :=
  match if d.badU.isEmpty then [] else (upFrom va len).filter fun a => d.badU.contains (rangePa l a / 8) with
  | a :: r =>
    let units := ((a :: r).map fun b => (rangePa l b / 8, rangeMerge l b)).eraseDups
    postFault fw (units.foldl (fun d u => countErr d false u.2 u.1) d) part (errUnit (rangeMerge l a) (rangePa l a)) 0x13 0 nobody nobody a 0 0 0
  | [] => d

/-- The records of the units in error that a write of Limamon's does not cover, and does not write (R106, R225). -/
def commandNarrow (fw : Fw) (d : Dev) (part : Nat) (l : List (Dword × TlbEnt)) (va len : Nat) : Dev :=
  match d.badU with
  | [] => d
  | _ => ((upFrom va len).filter fun a => rangeNarrow d l va len a && (a == va || a % 8 == 0)).foldl (fun d a =>
      postFault fw (countErr d false (rangeMerge l a) (rangePa l a / 8)) part (errUnit (rangeMerge l a) (rangePa l a)) 0x13 0 nobody nobody a 1 0 0) d

/-- Limamon's write with what R106 asks of one that a unit in error meets; none when a page refuses. -/
def firmWrite (fw : Fw) (d : Dev) (part : Nat) (va : Dword) (bs : List Byte) (s : OSet) : Option Dev :=
  match fwRange fw d part fwW va bs.length with
  | .ok l => (fwWrite fw d part va bs s).map fun d1 => commandNarrow fw d1 part l va.toNat bs.length
  | .error _ => none

/-- An acquire of Limamon's at package scope: every write performed so far by the agents of the package bounds its later reads (R140, R142). -/
def firmAcquire (d : Dev) : Dev := { d with limAcq := d.wn }
/-- The same at system scope. -/
def firmAcquireSys (d : Dev) : Dev := { d with limAcq := d.wn, limSys := d.wn }

/-- Raise an MSI-X vector: the function (0 the physical one, n + 1 that of partition n) and the vector (R350, R352). -/
def raiseMsi (d : Dev) (function vec : Nat) : Dev := { d with msix := d.msix ++ [(function, vec)] }

/-- The partition that owns a queue (R174); a queue that none owns is the physical function's (entry 30). -/
def Fw.owner (fw : Fw) (q : Nat) : Option Nat :=
  (fw.parts.find? fun p => p.2.state != 0 && decide (p.2.qbase.toNat ≤ q) && decide (q < p.2.qbase.toNat + p.2.qcount.toNat)).map (·.1)

/-- Entries of a queue's ring (R150): LOG2SIZE is 1 to 16 in a field of four bits, in which 16 is 0 (entry 34). -/
def Queue.entries (q : Queue) : Nat := 2 ^ (if q.log2 = 0 then 16 else q.log2.toNat)

/-- The function that a queue interrupts. -/
def Fw.function (fw : Fw) (q : Nat) : Nat := match fw.owner q with | some p => p + 1 | none => 0

/-- A completion address as Limamon checks it (R152): 8-byte aligned, its page grants W and E. -/
def compOk (fw : Fw) (d : Dev) (part : Nat) (comp : Dword) : Bool :=
  comp == 0 || (comp.toNat % 8 == 0 && (match fwXl fw d part fwW comp with | .ok _ => true | _ => false))

/-- The COMMAND-REJECTED record (R152, R225). -/
def rejected (fw : Fw) (d : Dev) (part q tag status : Nat) (comp : Dword) : Dev :=
  firmRecord fw d part 0x1E comp.toNat (tag + q * 2 ^ 32) status 0

/-- A command completes (R152): its completion word, or the record when the word cannot be written, and the interrupt of NOTIFY. -/
def completion (fw : Fw) (d : Dev) (c : Cmd) (status : Nat) : Dev :=
  let d1 := if c.comp = 0 then d
    else match (if compOk fw d c.part c.comp then firmWrite fw d c.part c.comp (leBytes 8 (status + c.tag.toNat * 2 ^ 32)) 0 else none) with
      | some d1 => d1
      | none => rejected fw d c.part c.q c.tag.toNat status c.comp
  if c.notify then raiseMsi d1 (fw.function c.q) (mget {} fw.queues c.q).vec else d1

/-- A command in flight completes and is gone. -/
def endCmd (fw : Fw) (d : Dev) (c : Cmd) (status : Nat) : Dev :=
  completion fw { d with cmds := d.cmds.filter fun x => x.id != c.id } c status

/-- The command in flight with a number. -/
def Dev.cmd (d : Dev) (id : Nat) : Option Cmd := d.cmds.find? fun c => c.id == id

/-! ### Kernel records and launches (R8, R154, R353) -/

/-- The declarations of a kernel record (R353). -/
def declOf (bs : List Byte) : Decl :=
  { entry := BitVec.ofNat 64 (fieldAt bs 0 8), handler := BitVec.ofNat 64 (fieldAt bs 8 8), lanes := fieldAt bs 16 2, group := fieldAt bs 18 1,
    acc := fieldAt bs 19 1, vregs := fieldAt bs 20 1, scratch := fieldAt bs 24 4 }

/-- The record's reserved bytes are 0. -/
def recordOk (bs : List Byte) : Bool := fieldAt bs 21 3 == 0 && fieldAt bs 28 36 == 0

/-- Granules of a half's register run and scratchpad run (R9). -/
def Decl.regGranules (k : Decl) : Nat := (k.vregs * min k.lanes 512 * 4 + 4095) / 4096
def Decl.scrGranules (k : Decl) : Nat := (k.scratch + 4095) / 4096

/-- The declarations keep the limits of R8; entry and handler are instruction addresses (R231; entry 29). -/
def Decl.ok (k : Decl) : Bool :=
  (k.group == 8 || k.group == 16 || k.group == 32 || k.group == 64) && decide (8 ≤ k.lanes) && decide (k.lanes ≤ 1024) && k.lanes % k.group == 0 &&
  decide (1 ≤ k.vregs) && decide (k.vregs ≤ 124) && decide (k.scratch ≤ 3538944) && k.scratch % 256 == 0 && decide (k.acc ≤ 48) &&
  k.entry.toNat % 4 == 0 && k.handler.toNat % 4 == 0

/-- LAUNCH operands (R353): kernel record, argument block, team count, exit array. -/
structure LaunchOps where
  record : Dword
  arg : Dword
  count : Nat
  exits : Dword
deriving DecidableEq, Repr

/-- Whether every byte of operands (bytes 16-63) outside the named ranges (offset in the entry, length) is 0 (R353, R354). -/
def namedOnly (ops : List Byte) (named : List (Nat × Nat)) : Bool :=
  (upFrom 0 48).all fun i => nthD 0 ops i == 0 || named.any fun r => decide (r.1 ≤ i + 16) && decide (i + 16 < r.1 + r.2)

/-- A field of the operands, by its offset in the entry. -/
def operand (ops : List Byte) (off n : Nat) : Nat := fieldAt ops (off - 16) n

/-- LAUNCH operands of bytes 16-63. -/
def launchOps (ops : List Byte) : Option LaunchOps :=
  if namedOnly ops [(16, 8), (24, 8), (32, 4), (40, 8)] then
    some { record := BitVec.ofNat 64 (operand ops 16 8), arg := BitVec.ofNat 64 (operand ops 24 8), count := operand ops 32 4,
           exits := BitVec.ofNat 64 (operand ops 40 8) }
  else none

/-- Limamon's check of a launch (R8, R152, R353): its operands and declarations, or the status that refuses it. A record that cannot be
read is an operand outside its limits (entry 29). -/
def checkLaunch (fw : Fw) (d : Dev) (part : Nat) (ops : List Byte) : Except Nat (Decl × LaunchOps) :=
  match launchOps ops with
  | none => .error 1
  | some o =>
    if o.record.toNat % 64 ≠ 0 || o.count = 0 || decide (2 ^ 24 < o.count) then .error 1
    else match fwRead fw d part o.record 64 with
      | none => .error 1
      | some bs => if !(recordOk bs) then .error 1 else if (declOf bs).ok then .ok (declOf bs, o) else .error 2

/-- The launch list is ordered by priority, and within one by acceptance (R154). -/
def ListItem.prio (d : Dev) : ListItem → Nat
  | .launch k => (mget {} d.launches k).prio
  | .restore x => x.prio

/-- The partition of a list item. -/
def ListItem.part (d : Dev) : ListItem → Nat
  | .launch k => (mget {} d.launches k).part
  | .restore x => x.part

/-- Behind the items of its priority. -/
def enlist (d : Dev) (x : ListItem) (p : Nat) : Dev :=
  { d with list := d.list.filter (fun y => decide (p ≤ y.prio d)) ++ [x] ++ d.list.filter fun y => decide (y.prio d < p) }

/-- Before them: a team that was swapped out returns to the head with its priority (R159). -/
def enlistFirst (d : Dev) (x : ListItem) (p : Nat) : Dev :=
  { d with list := d.list.filter (fun y => decide (p < y.prio d)) ++ [x] ++ d.list.filter fun y => decide (y.prio d ≤ p) }

/-- Accept a launch: it takes a number and its place on the list. `graph`: the instance whose node it is. -/
def startLaunch (fw : Fw) (d : Dev) (part prio : Nat) (k : Decl) (o : LaunchOps) (cmd graph : Option Nat) : Fw × Dev :=
  let key := d.nextKey
  let n := mget 0 fw.nextLaunch part
  let l : Launch :=
    { key, part, launchId := BitVec.ofNat 32 n, prio, decl := k, arg := o.arg, count := o.count, exits := o.exits, left := o.count, cmd, graph }
  ({ fw with nextLaunch := mset 0 fw.nextLaunch part ((n + 1) % 2 ^ 32) },
    enlist { d with launches := mins d.launches key l, nextKey := key + 1 } (.launch key) prio)

end Sys2Proof.Machine
end

