-- ==== Sys2Proof/Machine/Arbor.lean ====
section
/-! DEFINITION. The Arbor: shard records, nodes and the operations on a shard's tree (R107-R123, R372). -/
namespace Sys2Proof.Machine

/-- Why an Arbor operation does not perform: a failed check (R372), a page being moved (R132), a page without a translation, an uncorrectable
unit among n bytes, too few nodes. -/
inductive AErr where
  | bad | wait | gone (va reason : Nat) | unc (pa va n : Nat) | full
deriving DecidableEq, Repr

/-- One shard of a tensor: partition, root table, s, LEAFCAP, VTYPE, shard number. -/
structure Tree where
  part : Nat
  base : Nat
  s : Nat
  cap : Nat
  vt : Nat
  shard : Nat
deriving DecidableEq, Repr

/-- A shard record's fields (R110). -/
structure Shard where
  keys : Nat := 0
  free : Nat := 0xFFFFFFFF
  nfree : Nat := 0
  next : Nat := 0
  height : Nat := 0
  root : Nat := 0xFFFFFFFF
deriving DecidableEq, Repr

/-- A node (R112): its handle and address, level, keys, and a leaf's values or an internal node's child handles. -/
structure ANode where
  h : Nat
  va : Nat
  level : Nat
  keys : List Nat
  vals : List Nat := []
  kids : List Nat := []
deriving DecidableEq, Repr

/-- No node. -/
def nilNode : Nat := 0xFFFFFFFF

/-- The physical address and frame entry of n bytes in a sparse page (R372). What a table that SPNEW never formatted places across two pages fails
the check (entry 44). A page that is being moved holds the operation up (R132). -/
def arborXl (fw : Fw) (d : Dev) (part : Nat) (w : Bool) (va n : Nat) : Except AErr TlbEnt :=
  if va % 65536 + n > 65536 then .error .bad
  else match fwXl fw d part (Need.own { r := true, w, e := true, cls := .node }) (BitVec.ofNat 64 va) with
    | .ok t => if ({ w } : Need).held (d.frame t.ent).mig then .error .wait else .ok t
    | .refused _ _ => .error .bad
    | .missing r => .error (.gone va r)

/-- Read n bytes of a sparse page. -/
def arborRead (fw : Fw) (d : Dev) (part va n : Nat) : Except AErr Nat :=
  match arborXl fw d part false va n with
  | .error e => .error e
  | .ok t =>
    let pa := t.pa (BitVec.ofNat 64 va)
    if badAt d pa n then .error (.unc pa va n) else .ok (memNat d.mem pa n)

/-- Address of the shard record. -/
def Tree.recVa (t : Tree) : Nat := t.base + 2048 * (t.shard + 1)
/-- Address of extent entry e. -/
def Tree.extVa (t : Tree) (e : Nat) : Nat := t.base + 2048 * (2 ^ t.s + 1) + 4096 * t.shard + 16 * e

/-- A field of a number of bytes. -/
def numAt (v off n : Nat) : Nat := v / 2 ^ (8 * off) % 2 ^ (8 * n)

/-- A shard record's bytes. -/
def Shard.bytes (s : Shard) : List Byte :=
  packBytes 64 [(0, 4, s.root), (4, 1, s.height), (5, 1, s.next), (8, 4, s.nfree), (12, 4, s.free), (16, 5, s.keys)]

/-- The address of a node handle (R111). -/
def nodeVa (fw : Fw) (d : Dev) (t : Tree) (sh : Shard) (h : Nat) : Except AErr Nat :=
  let e := h / 2 ^ 24
  let i := h % 2 ^ 24
  if sh.next ≤ e then .error .bad
  else match arborRead fw d t.part (t.extVa e) 16 with
    | .error x => .error x
    | .ok v =>
      let n := numAt v 8 4
      if n = 0 || decide (2 ^ 24 < n) || numAt v 12 4 ≠ 0 || decide (n ≤ i) then .error .bad else .ok (numAt v 0 8 + 256 * i)

/-- Every handle that a record or node holds names an extent below NEXT and a node of it (R372); no node is none. -/
def handlesOk (fw : Fw) (d : Dev) (t : Tree) (sh : Shard) : List Nat → Except AErr Unit
  | [] => .ok ()
  | h :: r =>
    if h = nilNode then handlesOk fw d t sh r
    else match nodeVa fw d t sh h with
      | .error e => .error e
      | .ok _ => handlesOk fw d t sh r

/-- Read and check the shard record, its ROOT and FREE with it. -/
def readShard (fw : Fw) (d : Dev) (t : Tree) : Except AErr Shard :=
  match arborRead fw d t.part t.recVa 64 with
  | .error e => .error e
  | .ok v =>
    let sh : Shard := { keys := numAt v 16 5, free := numAt v 12 4, nfree := numAt v 8 4, next := numAt v 5 1, height := numAt v 4 1, root := numAt v 0 4 }
    if numAt v 21 43 ≠ 0 || numAt v 6 2 ≠ 0 then .error .bad
    else (handlesOk fw d t sh [sh.root, sh.free]).map fun _ => sh

/-- Read and check a node of a level (R112, R372). -/
def readNode (fw : Fw) (d : Dev) (t : Tree) (sh : Shard) (level h : Nat) : Except AErr ANode :=
  match nodeVa fw d t sh h with
  | .error e => .error e
  | .ok va =>
    match arborRead fw d t.part va 256 with
    | .error e => .error e
    | .ok v =>
      let n := numAt v 1 1
      if numAt v 4 4 ≠ 0 || numAt v 3 1 ≠ t.shard || numAt v 2 1 ≠ level then .error .bad
      else if level = 0 then
        if numAt v 0 1 ≠ 1 || n = 0 || decide (t.cap < n) then .error .bad
        else .ok { h, va, level, keys := (upFrom 0 n).map fun i => numAt v (8 + 12 * i) 8, vals := (upFrom 0 n).map fun i => numAt v (16 + 12 * i) 4 }
      else if numAt v 0 1 ≠ 2 || decide (20 < n) then .error .bad
      else
        let kids := (upFrom 0 (n + 1)).map fun i => numAt v (168 + 4 * i) 4
        if kids.contains nilNode then .error .bad
        else (handlesOk fw d t sh kids).map fun _ => { h, va, level, keys := (upFrom 0 n).map fun i => numAt v (8 + 8 * i) 8, kids }

/-- A node's bytes. -/
def ANode.bytes (t : Tree) (n : ANode) : List Byte :=
  let ix := upFrom 0 n.keys.length
  packBytes 256 ([(0, 1, if n.level = 0 then 1 else 2), (1, 1, n.keys.length), (2, 1, n.level), (3, 1, t.shard)] ++
    (if n.level = 0 then (n.keys.zip ix).map (fun p => (8 + 12 * p.2, 8, p.1)) ++ (n.vals.zip ix).map (fun p => (16 + 12 * p.2, 4, p.1))
     else (n.keys.zip ix).map (fun p => (8 + 8 * p.2, 8, p.1)) ++ (n.kids.zip (upFrom 0 n.kids.length)).map (fun p => (168 + 4 * p.2, 4, p.1))))

/-- A free node's bytes. -/
def freeBytes (shard next : Nat) : List Byte := packBytes 256 [(3, 1, shard), (8, 4, next)]

/-- The child that holds key k (R112). -/
def childOf (keys : List Nat) (k : Nat) : Nat := (keys.filter fun x => decide (x ≤ k)).length

/-- Walk from node h of a level to the leaf that holds key k: the leaf, and its ancestors upwards, each with the child taken. -/
def descend (fw : Fw) (d : Dev) (t : Tree) (sh : Shard) (k : Nat) : Nat → Nat → List (ANode × Nat) → Except AErr (ANode × List (ANode × Nat))
  | 0, h, up =>
    match readNode fw d t sh 0 h with
    | .error e => .error e
    | .ok n => .ok (n, up)
  | l + 1, h, up =>
    match readNode fw d t sh (l + 1) h with
    | .error e => .error e
    | .ok n => let i := childOf n.keys k; descend fw d t sh k l (nthD nilNode n.kids i) ((n, i) :: up)

/-- The leaf of key k in a shard that is not empty. -/
def findLeaf (fw : Fw) (d : Dev) (t : Tree) (sh : Shard) (k : Nat) : Except AErr (ANode × List (ANode × Nat)) :=
  if sh.height = 0 || decide (64 < sh.height) then .error .bad else descend fw d t sh k (sh.height - 1) sh.root []

/-- Whether the shard is empty. -/
def Shard.isEmpty (s : Shard) : Bool := s.root == nilNode

/-- The value of key k. -/
def leafGet (n : ANode) (k : Nat) : Option Nat := ((n.keys.zip n.vals).find? fun p => p.1 == k).map (·.2)

/-- The keys that a leaf answers for, as the separators above it bound them (R112). -/
def leafRange (up : List (ANode × Nat)) : Nat × Nat :=
  up.foldl (fun r p => (if p.2 = 0 then r.1 else max r.1 (nthD 0 p.1.keys (p.2 - 1)), min r.2 (nthD (2 ^ 64) p.1.keys p.2))) (0, 2 ^ 64)

/-- The leaf of key k, as one operation reads it: the range of keys it answers for, and its keys with their values (R122). -/
def arborLeaf (fw : Fw) (d : Dev) (t : Tree) (k : Nat) : Except AErr (Nat × Nat × List (Nat × Nat)) :=
  match readShard fw d t with
  | .error e => .error e
  | .ok sh =>
    if sh.isEmpty then .ok (0, 2 ^ 64, [])
    else (findLeaf fw d t sh k).map fun p => ((leafRange p.2).1, (leafRange p.2).2, p.1.keys.zip p.1.vals)

/-- The value of key k in a shard (R114). -/
def arborGet (fw : Fw) (d : Dev) (t : Tree) (k : Nat) : Except AErr (Option Nat) :=
  match readShard fw d t with
  | .error e => .error e
  | .ok sh =>
    if sh.isEmpty then .ok none
    else match findLeaf fw d t sh k with
      | .error e => .error e
      | .ok (n, _) => .ok (leafGet n k)

/-- The first key at or above lo in a leaf, with its value. -/
def leafFrom (n : ANode) (lo : Nat) : Option (Nat × Nat) := (n.keys.zip n.vals).find? fun p => decide (lo ≤ p.1)

/-- The ancestor at which the next leaf begins: its next child and level. -/
def nextChild : List (ANode × Nat) → Option (Nat × Nat)
  | [] => none
  | (n, i) :: up => if i + 1 < n.kids.length then some (nthD nilNode n.kids (i + 1), n.level - 1) else nextChild up

/-- The smallest present key at or above lo, with its value (R119). -/
def arborFrom (fw : Fw) (d : Dev) (t : Tree) (lo : Nat) : Except AErr (Option (Nat × Nat)) :=
  match readShard fw d t with
  | .error e => .error e
  | .ok sh =>
    if sh.isEmpty || decide (2 ^ 64 ≤ lo) then .ok none
    else match findLeaf fw d t sh lo with
      | .error e => .error e
      | .ok (n, up) =>
        match leafFrom n lo with
        | some p => .ok (some p)
        | none =>
          match nextChild up with
          | none => .ok none
          | some (h, l) =>
            match descend fw d t sh 0 l h [] with
            | .error e => .error e
            | .ok (m, _) => .ok (leafFrom m lo)

/-- n nodes from the head of the free list: handle and address of each, and the new head. -/
def takeFree (fw : Fw) (d : Dev) (t : Tree) (sh : Shard) : Nat → Nat → Except AErr (List (Nat × Nat) × Nat)
  | 0, head => .ok ([], head)
  | n + 1, head =>
    match nodeVa fw d t sh head with
    | .error e => .error e
    | .ok va =>
      match arborRead fw d t.part va 256 with
      | .error e => .error e
      | .ok v =>
        if numAt v 0 1 ≠ 0 || numAt v 3 1 ≠ t.shard || numAt v 4 4 ≠ 0 then .error .bad
        else match handlesOk fw d t sh [numAt v 8 4] with
        | .error e => .error e
        | .ok _ => match takeFree fw d t sh n (numAt v 8 4) with
          | .error e => .error e
          | .ok (l, h') => .ok ((head, va) :: l, h')

/-- Insert x before position i. -/
def insAt {α : Type} (l : List α) (i : Nat) (x : α) : List α := l.take i ++ x :: l.drop i
/-- Remove position i. -/
def delAt {α : Type} (l : List α) (i : Nat) : List α := l.take i ++ l.drop (i + 1)

/-- Internal nodes and roots needed to give the parents one more child (R115). -/
def splitNeed : List (ANode × Nat) → Nat
  | [] => 1
  | (n, _) :: up => if n.keys.length = 20 then splitNeed up + 1 else 0

/-- Give a separator and a new child to the parents (R115): the nodes changed, and a new root, which takes `level`. -/
def insertUp (level root : Nat) (sep child : Nat) (new : List (Nat × Nat)) : List (ANode × Nat) → List ANode × Option Nat
  | [] => match new with
    | (h, va) :: _ => ([{ h, va, level, keys := [sep], kids := [root, child] }], some h)
    | [] => ([], none)
  | (n, i) :: up =>
    let ks := insAt n.keys i sep
    let cs := insAt n.kids (i + 1) child
    if ks.length ≤ 20 then ([{ n with keys := ks, kids := cs }], none)
    else match new with
      | [] => ([], none)
      | (h, va) :: more =>
        let hi : ANode := { h, va, level := n.level, keys := ks.drop 11, kids := cs.drop 11 }
        let (l, r) := insertUp level root (nthD 0 ks 10) h more up
        ({ n with keys := ks.take 10, kids := cs.take 11 } :: hi :: l, r)

/-- What an operation changes: nodes written, nodes freed in order, the record. -/
structure Edit where
  nodes : List ANode := []
  freed : List (Nat × Nat) := []
  sh : Shard
deriving DecidableEq, Repr

/-- Insert an absent key (R115). -/
def insertKey (fw : Fw) (d : Dev) (t : Tree) (sh : Shard) (k v : Nat) : Except AErr Edit :=
  if sh.isEmpty then
    if sh.nfree < 1 then .error .full
    else match takeFree fw d t sh 1 sh.free with
      | .error e => .error e
      | .ok (l, f) =>
        match l with
        | (h, va) :: _ => .ok { nodes := [{ h, va, level := 0, keys := [k], vals := [v] }],
                                sh := { sh with keys := sh.keys + 1, free := f, nfree := sh.nfree - 1, height := 1, root := h } }
        | [] => .error .bad
  else match findLeaf fw d t sh k with
    | .error e => .error e
    | .ok (n, up) =>
      let i := (n.keys.filter fun x => decide (x < k)).length
      let ks := insAt n.keys i k
      let vs := insAt n.vals i v
      if ks.length ≤ t.cap then .ok { nodes := [{ n with keys := ks, vals := vs }], sh := { sh with keys := sh.keys + 1 } }
      else
        let need := 1 + splitNeed up
        if sh.nfree < need then .error .full
        else match takeFree fw d t sh need sh.free with
          | .error e => .error e
          | .ok (l, f) =>
            match l with
            | [] => .error .bad
            | (h, va) :: more =>
              let low := (t.cap + 2) / 2
              let hi : ANode := { h, va, level := 0, keys := ks.drop low, vals := vs.drop low }
              let (ns, r) := insertUp sh.height sh.root (nthD 0 hi.keys 0) h more up
              let height := if r.isSome then sh.height + 1 else sh.height
              .ok { nodes := { n with keys := ks.take low, vals := vs.take low } :: hi :: ns,
                    sh := { sh with keys := sh.keys + 1, free := f, nfree := sh.nfree - need, height, root := r.getD sh.root } }

/-- The new root while it is an internal node with one child and no key (R116): freed nodes, root, height. -/
def collapse (fw : Fw) (d : Dev) (t : Tree) (sh : Shard) : Nat → Nat → Except AErr (List (Nat × Nat) × Nat × Nat)
  | 0, h => .ok ([], h, 1)
  | l + 1, h =>
    match readNode fw d t sh (l + 1) h with
    | .error e => .error e
    | .ok n =>
      if n.keys.isEmpty then
        match collapse fw d t sh l (nthD nilNode n.kids 0) with
        | .error e => .error e
        | .ok (f, r, ht) => .ok ((n.h, n.va) :: f, r, ht)
      else .ok ([], h, l + 2)

/-- Remove a child and its separator upwards (R116): nodes changed, nodes freed, root and height. -/
def removeUp (fw : Fw) (d : Dev) (t : Tree) (sh : Shard) : List (ANode × Nat) → Except AErr (List ANode × List (Nat × Nat) × Nat × Nat)
  | [] => .ok ([], [], nilNode, 0)
  | (n, i) :: up =>
    if n.kids.length ≤ 1 then
      match removeUp fw d t sh up with
      | .error e => .error e
      | .ok (w, f, r, h) => .ok (w, (n.h, n.va) :: f, r, h)
    else
      let m := { n with keys := delAt n.keys (i - 1), kids := delAt n.kids i }
      if up.isEmpty && m.keys.isEmpty then
        match collapse fw d t sh (n.level - 1) (nthD nilNode m.kids 0) with
        | .error e => .error e
        | .ok (f, r, h) => .ok ([], (n.h, n.va) :: f, r, h)
      else .ok ([m], [], sh.root, sh.height)

/-- Change the value of key k from what it is (R114); zero removes it. -/
def editKey (fw : Fw) (d : Dev) (t : Tree) (sh : Shard) (k : Nat) (v : Nat) : Except AErr Edit :=
  let zero := isZeroV t.vt v
  if sh.isEmpty then (if zero then .ok { sh } else insertKey fw d t sh k v)
  else match findLeaf fw d t sh k with
    | .error e => .error e
    | .ok (n, up) =>
      if !(n.keys.contains k) then (if zero then .ok { sh } else insertKey fw d t sh k v)
      else
        let i := (n.keys.filter fun x => decide (x < k)).length
        if !zero then .ok { nodes := [{ n with vals := insAt (delAt n.vals i) i v }], sh }
        else
          let m := { n with keys := delAt n.keys i, vals := delAt n.vals i }
          let sh' := { sh with keys := sh.keys - 1 }
          if !m.keys.isEmpty then .ok { nodes := [m], sh := sh' }
          else match removeUp fw d t sh up with
            | .error e => .error e
            | .ok (w, f, r, h) => .ok { nodes := w, freed := (n.h, n.va) :: f, sh := { sh' with root := r, height := h } }

/-- Push freed nodes at the head of the free list (R116): their bytes, and the record. -/
def pushFree (shard : Nat) : List (Nat × Nat) → Shard → List (Nat × List Byte) × Shard
  | [], sh => ([], sh)
  | (h, va) :: r, sh =>
    let (l, sh') := pushFree shard r { sh with free := h, nfree := sh.nfree + 1 }
    ((va, freeBytes shard sh.free) :: l, sh')

/-- Write bytes into sparse pages, all or none: every page must admit the set (R123). -/
def arborWrite (fw : Fw) (d : Dev) (t : Tree) (ws : List (Nat × List Byte)) (s : OSet) : Except AErr Dev :=
  let checks := ws.map fun w => match arborXl fw d t.part true w.1 w.2.length with
    | .error e => Except.error e
    | .ok x => if s &&& ~~~x.ceil ≠ 0 then .error AErr.bad else .ok (w, x)
  match checks.findSome? fun c => match c with | .error e => some e | .ok _ => none with
  | some e => .error e
  | none =>
    match arborXl fw d t.part true t.base 8 with
    | .error e => .error e
    | .ok b =>
      if s &&& ~~~b.ceil ≠ 0 then .error .bad
      else .ok (raiseCur (checks.foldl (fun d c => match c with
        | .ok (w, x) =>
          let pa := x.pa (BitVec.ofNat 64 w.1)
          raiseCur (clearUnits (devSetBytes (.team d.cur.key 0 []) d pa w.2) pa w.2.length) x.ent s
        | .error _ => d) d) b.ent s)

/-- Perform an edit. One that changes nothing, an STH of zero or an SPADD giving zero at an absent key, writes nothing and raises no set
(entry 44). -/
def applyEdit (fw : Fw) (d : Dev) (t : Tree) (e : Edit) (s : OSet) : Except AErr Dev :=
  if e.nodes.isEmpty && e.freed.isEmpty then .ok d else
  let (fs, sh) := pushFree t.shard e.freed e.sh
  arborWrite fw d t (e.nodes.map (fun n => (n.va, n.bytes t)) ++ fs ++ [(t.recVa, sh.bytes)]) s

/-- Corrected errors among bytes that the Arbor reads (R105). -/
def arborNote (fw : Fw) (t : Tree) (vs : List (Nat × Nat)) (d : Dev) : Dev :=
  match d.badCorr with
  | [] => d
  | _ => vs.foldl (fun d v => match arborXl fw d t.part false v.1 v.2 with
      | .ok x => noteCorr d x.mi (x.pa (BitVec.ofNat 64 v.1)) v.2
      | .error _ => d) d

/-- What an operation on key k reads: the record, and the nodes down to its leaf with their extent entries. -/
def arborPath (fw : Fw) (d : Dev) (t : Tree) (k : Nat) : List (Nat × Nat) :=
  (t.recVa, 64) :: match readShard fw d t with
    | .error _ => []
    | .ok sh => if sh.isEmpty then [] else match findLeaf fw d t sh k with
      | .error _ => []
      | .ok (n, up) => (n :: up.map (·.1)).flatMap fun m => [(t.extVa (m.h / 2 ^ 24), 16), (m.va, 256)]

/-- Store or add at a key (R114): the old value and the machine. -/
def arborPut (fw : Fw) (d : Dev) (t : Tree) (k : Nat) (f : Nat → Nat) (s : OSet) : Except AErr (Nat × Dev) :=
  match arborGet fw d t k, readShard fw d t with
  | .error e, _ => .error e
  | _, .error e => .error e
  | .ok old, .ok sh =>
    let o := old.getD 0
    match editKey fw d t sh k (f o) with
    | .error e => .error e
    | .ok ed =>
      match applyEdit fw (arborNote fw t (ed.nodes.map fun n => (n.va, 256)) d) t ed s with
      | .error e => .error e
      | .ok d' => .ok (o, d')

/-- Add an extent of n nodes at base (R121). -/
def arborExtend (fw : Fw) (d : Dev) (t : Tree) (base n : Nat) (s : OSet) : Except AErr Dev :=
  match readShard fw d t with
  | .error e => .error e
  | .ok sh =>
    if 255 ≤ sh.next then .error .full
    else
      let h0 := sh.next * 2 ^ 24
      let nodes := (upFrom 0 n).map fun i => (base + 256 * i, freeBytes t.shard (if i + 1 = n then sh.free else h0 + i + 1))
      let sh' := { sh with free := h0, nfree := sh.nfree + n, next := sh.next + 1 }
      arborWrite fw d t (nodes ++ [(t.extVa sh.next, packBytes 16 [(0, 8, base), (8, 4, n)]), (t.recVa, sh'.bytes)]) s

/-! ### The Arbors' queues (R110, R160) -/

/-- The home slice of a shard: that of its record's address (R110). -/
def shardSlice (fw : Fw) (d : Dev) (part base shard : Nat) : Option Nat :=
  match fwXl fw d part (Need.own { r := true, e := true, cls := .node }) (BitVec.ofNat 64 (base + 2048 * (shard + 1))) with
  | .ok t => some (homeSlice t.mi (t.pa (BitVec.ofNat 64 (base + 2048 * (shard + 1)))))
  | _ => none

/-- The shards an operation has still to be performed in, one for each entry it holds. -/
def OpKind.arborShards : OpKind → List (Nat × Nat)
  | .arbor o _ hw _ _ ls =>
    let base := (mget 0 hw.words 1).toNat
    (ls.filter fun l => !l.done).flatMap fun l => if o = .iter then l.todo.map fun j => (base, j) else [(base, l.shard)]
  | _ => []

/-- Entries that the queue of a slice's Arbor holds. -/
def arborQueued (fw : Fw) (d : Dev) (slice : Nat) : Nat :=
  ((d.cur :: d.rest).filter (·.live)).foldl (fun n t => n + ((t.ops.filter fun o => !o.done).flatMap fun o =>
    o.kind.arborShards.filter fun p => shardSlice fw d t.part p.1 p.2 == some slice).length) 0

/-- Whether an Arbor that is to perform an operation on one of these shards has its queue full, 64 entries to a slice (R160). What one
instruction sends to a queue with room may exceed it: the rule stalls an instruction that finds its queue full (entry 44). -/
def arborFull (fw : Fw) (d : Dev) (base : Nat) (shards : List Nat) : Bool :=
  shards.any fun j => match shardSlice fw d d.cur.part base j with | some s => decide (64 ≤ arborQueued fw d s) | none => false

/-- An instruction that finds such a queue full stalls at its position, which ends no run (R19, R125). -/
def arborRoom (fw : Fw) (d : Dev) (base : Nat) (shards : List Nat) (k : Dev) : Dev :=
  if arborFull fw d base shards then stall d 9 else k

end Sys2Proof.Machine
end

