-- ==== Sys2Proof/Machine/Sparse.lean ====
section
/-! DEFINITION. Instructions through tensor handles: LDH, STH, SPADD, SPITER, SPHAS, SPEXT, and the Arbor's operations (R117-R125). -/
namespace Sys2Proof.Machine

/-! ### Handles (R73) -/

/-- Word j of a handle. -/
def Handle.w (h : Handle) (j : Nat) : Nat := (mget 0 h.words j).toNat
def Handle.type (h : Handle) : Nat := h.w 0 % 256
def Handle.rank (h : Handle) : Nat := h.w 0 / 256 % 256
def Handle.vtype (h : Handle) : Nat := h.w 0 / 2 ^ 16 % 256
def Handle.shards (h : Handle) : Nat := h.w 0 / 2 ^ 24 % 256
def Handle.leafcap (h : Handle) : Nat := h.w 0 / 2 ^ 32 % 256
def Handle.base (h : Handle) : Nat := h.w 1
/-- The BOUND field of dimension d. -/
def Handle.boundField (h : Handle) (d : Nat) : Nat := h.w (2 + d / 2) / 2 ^ (32 * (d % 2)) % 2 ^ 32
/-- BOUND of dimension d; a field of 0 stands for 2^32. -/
def Handle.bound (h : Handle) (d : Nat) : Nat := if h.boundField d = 0 then 2 ^ 32 else h.boundField d
/-- STRIDE of dimension d of a dense tensor, in bytes. -/
def Handle.stride (h : Handle) (d : Nat) : Nat := h.w (5 + d / 2) / 2 ^ (32 * (d % 2)) % 2 ^ 32
/-- KEYW of dimension d of a sparse-tree tensor. -/
def Handle.keyw (h : Handle) (d : Nat) : Nat := h.w 5 / 2 ^ (6 * d) % 64

/-- Whether a descriptor is valid (R73). Word 7 [63:32] of a dense descriptor holds no dimension's stride and is not named reserved: the model takes
it as a reserved field, which must be 0 (entry 45). -/
def Handle.ok (h : Handle) : Bool :=
  let dims := upFrom 0 h.rank
  (h.type == 1 || h.type == 2 || h.type == 3) && (if h.type == 2 then h.vtype == 3 else decide (h.vtype ≤ 2)) &&
  decide (1 ≤ h.rank) && decide (h.rank ≤ 5) && h.w 0 / 2 ^ 40 == 0 && h.w 4 / 2 ^ 32 == 0 &&
  ((upFrom h.rank (5 - h.rank)).all fun d => h.boundField d == 0) &&
  (if h.type == 3 then
    decide (4 ≤ h.leafcap) && decide (h.leafcap ≤ 20) && decide (h.shards ≤ 8) && (dims.all fun d => h.keyw d != 0) &&
    decide ((dims.map h.keyw).sum ≤ 64) && (dims.all fun d => decide (h.bound d ≤ 2 ^ h.keyw d)) && h.w 5 / 2 ^ 30 == 0 && h.w 6 == 0 && h.w 7 == 0
   else h.leafcap == 0 && h.shards == 0 && h.w 7 / 2 ^ 32 == 0)

/-- Word j of a handle with the handle's label, as one number: what a pending SWR keeps of the old state (R318). -/
def handleCode (x : Handle) (j : Nat) : Nat := (mget 0 x.words j).toNat + 2 ^ 64 * x.lbl.toNat

/-- Handle h of a team, as a read at this position sees it (R318): each word old or new, and with an old word the label it had. -/
def handleAt (d : Dev) (h : Nat) : Handle :=
  let x := mget {} d.cur.regs.hnd h
  let seen := fun (j : Nat) => specRead d (0x40 + 8 * h + j) (handleCode x j)
  { words := (upFrom 0 8).foldl (fun m j => mset 0 m j (BitVec.ofNat 64 (seen j % 2 ^ 64))) x.words,
    lbl := (upFrom 0 8).foldl (fun s j => s &&& BitVec.ofNat 32 (seen j / 2 ^ 64)) x.lbl }

/-- pack and shard (R108). -/
def Handle.pack (h : Handle) (c : List Nat) : Nat := (c.zip (upFrom 0 c.length)).foldl (fun k p => k * 2 ^ h.keyw p.2 + p.1) 0
def shardOf (s key : Nat) : Nat := (key ^^^ (key / 2 ^ 19) ^^^ (key / 2 ^ 38)) % 2 ^ s

/-- Coordinates of lane l. -/
def coords (d : Dev) (c n l : Nat) : List Nat := (upFrom 0 n).map fun i => (vread d 2 (c + i) l).val.toNat
/-- The join of their labels and the handle's. -/
def coordLabel (d : Dev) (h : Handle) (c n l : Nat) : OSet := (upFrom 0 n).foldl (fun s i => s ||| d.cur.org (vread d 2 (c + i) l).lbl) h.lbl

/-- Every coordinate lies below its bound. -/
def Handle.inBounds (h : Handle) (c : List Nat) : Bool := (c.zip (upFrom 0 c.length)).all fun p => decide (p.1 < h.bound p.2)

/-- The address of a dense element: BASE plus strides (R117). -/
def Handle.dense (h : Handle) (c : List Nat) : Dword :=
  BitVec.ofNat 64 h.base + ((c.zip (upFrom 0 c.length)).foldl (fun (a : Dword) p => a + BitVec.ofNat 64 (p.1 * h.stride p.2)) 0)

/-- The tree of a shard of a sparse-tree handle. -/
def Handle.tree (h : Handle) (part shard : Nat) : Tree := { part, base := h.base, s := h.shards, cap := h.leafcap, vt := h.vtype, shard }

/-- An illegal instruction that names a descriptor (R73, R219). -/
def trapHandle (fw : Fw) (d : Dev) (i : Instr) (h : Nat) : Dev := trapIllegal fw d (wordOf i) (8 + h)

/-- The checks of a handle-dispatched word: descriptor, coordinate registers, cache policy, forms a type refuses (R117, R125). -/
def handleForm (fw : Fw) (d : Dev) (i : Instr) (h c : Nat) (refused : Handle → Bool) (k : Handle → Dev) : Dev :=
  let x := handleAt d h
  if !x.ok || refused x then trapHandle fw d i h
  else if decide (d.cur.decl.vregs < c + x.rank) || (x.type == 3 && d.pol != .normal) then trapIllegal fw d (wordOf i) 0
  else k x

/-! ### Sparse-tree forms -/

/-- The root table's page as a sparse operation needs it (R88, R125, R130): reached, then within its ceiling. An empty k0, and lanes that are all out of
bounds, reach it too (entry 44). -/
def rootPage (fw : Fw) (d : Dev) (w : Bool) (h : Handle) (lanes : List (Nat × OSet)) (k : Dev → Dev) : Dev :=
  let va := BitVec.ofNat 64 h.base
  let mask := d.cur.laneMask (lanes.map (·.1))
  match translate fw d d.cur.core d.cur.part { r := true, w, e := true, cls := .node } va with
  | (.refused r c, d1) => trapIssue fw d1 5 mask h.base (r * 16 + c)
  | (.missing r, d1) => missTeam fw d1 mask va r
  | (.ok t, d1) =>
    match (if w then lanes.filter fun p => p.2 &&& ~~~t.ceil ≠ 0 else []) with
    | [] => k d1
    | above => trapIssue fw d1 9 (d.cur.laneMask (above.map (·.1))) h.base t.ceil.toNat

/-- Post an operation through a handle: STH and SPADD on a sparse tree hold the team until every lane is performed (R118), SPADD ends
a region, lanes out of bounds give error status. -/
def postHandle (fw : Fw) (q : Option Nat) (k : OpKind) (held ends err : Bool) (empty : Bool) (k0 : Mask) (d : Dev) : Dev :=
  let id := d.cur.nextOp
  let d1 := d.upd fun t => (if held then t.endRun else t).post q k [] err
  let d2 := if ends then d1.upd endRegion else d1
  if held then
    let d3 := holdOn (passes k0) (.held id) d2
    if empty then stepHeld fw d3 (finishOp d3 id false) else d3
  else
    let d3 := finishV fw k0 d2
    if empty then finishOp d3 id false else d3

/-- A coordinate operation through a sparse-tree handle. -/
def sparseForm (fw : Fw) (q : Nat) (o : ArborOp) (v c hn : Nat) (h : Handle) (d : Dev) : Dev :=
  let w := o == .store || o == .add
  let rows := d.act.map fun l =>
    let cs := coords d c h.rank l
    let x := vread d 3 v l
    let lb := coordLabel d h c h.rank l ||| (if w then d.cur.org x.lbl else 0)
    (l, cs, x.val, lb)
  let inside := rows.filter fun r => h.inBounds r.2.1
  let lanes : List ArborLane := inside.map fun r =>
    let k := h.pack r.2.1
    { lane := r.1, key := k, shard := shardOf h.shards k, data := r.2.2.1, lbl := r.2.2.2 }
  posting fw q d fun d => arborRoom fw d h.base (lanes.map (·.shard)) <| rootPage fw d w h (rows.map fun r => (r.1, r.2.2.2)) fun d1 =>
    postHandle fw (some q) (.arbor o hn h v 63 lanes) w (o == .add) (decide (inside.length < rows.length)) lanes.isEmpty d.k0 d1

/-! ### Dense forms -/

/-- Rows of a dense form: lane, address, element index, label of the coordinates and the handle; lanes out of bounds are left out. -/
def denseRows (d : Dev) (h : Handle) (c : Nat) : List (Nat × Dword × Nat × OSet) :=
  d.act.filterMap fun l =>
    let cs := coords d c h.rank l
    if !(h.inBounds cs) then none
    else
      let n := if h.type = 2 then h.rank - 1 else h.rank
      some (l, h.dense (cs.take n), if h.type = 2 then nthD 0 cs (h.rank - 1) else 0, coordLabel d h c h.rank l)

/-- Bytes of a dense element: a described form reaches its block. -/
def Handle.size (h : Handle) : Nat := if h.type = 2 then 64 else if h.vtype = 1 then 2 else 4

/-- What a dense form needs of its page (R88, R130). -/
def Handle.need (h : Handle) (r w : Bool) : Need := { r, w, cls := if h.type = 2 then .described else .bytes }

/-- A load through a dense handle. -/
def denseLoad (fw : Fw) (q : Nat) (dst : LoadDst) (c : Nat) (h : Handle) (d : Dev) : Dev :=
  let rows := denseRows d h c
  let ws : List Want := rows.map fun r => { lane := r.1, va := r.2.1, len := h.size, albl := r.2.2.2, aux := r.2.2.1 }
  posting fw q d fun d => accesses fw (h.need true false) (h.type != 2) true ws h.size d fun as d1 =>
    postHandle fw (some q) (.load dst d.pol as) false false (decide (rows.length < d.act.length)) as.isEmpty d.k0 d1

/-- LDH: reads the element at the lane's coordinates (R117, R114). -/
def execLdh (q : BitVec 4) (v : BitVec 7) (h : BitVec 3) (c : BitVec 7) (σ : State) : Host.Outcome State Fault Refusal :=
  word (.ldh q v h c) σ fun fw D =>
    handleForm fw D (.ldh q v h c) h.toNat c.toNat (fun _ => false) fun x =>
      if x.type = 3 then sparseForm fw q.toNat .read v.toNat c.toNat h.toNat x D
      else denseLoad fw q.toNat (if x.type = 2 then .elem v.toNat false else if x.vtype = 1 then .ext v.toNat false else .regs v.toNat 1) c.toNat x D

/-- SPHAS: whether the element is present, or not zero (R117, R114). -/
def execSphas (q : BitVec 4) (v : BitVec 7) (h : BitVec 3) (c : BitVec 7) (σ : State) : Host.Outcome State Fault Refusal :=
  word (.sphas q v h c) σ fun fw D =>
    handleForm fw D (.sphas q v h c) h.toNat c.toNat (fun _ => false) fun x =>
      if x.type = 3 then sparseForm fw q.toNat .test v.toNat c.toNat h.toNat x D
      else denseLoad fw q.toNat (if x.type = 2 then .elem v.toNat true else .test v.toNat x.vtype) c.toNat x D

/-- STH: stores the element at the lane's coordinates (R117, R114, R118). -/
def execSth (q : BitVec 4) (v : BitVec 7) (h : BitVec 3) (c : BitVec 7) (σ : State) : Host.Outcome State Fault Refusal :=
  word (.sth q v h c) σ fun fw D =>
    handleForm fw D (.sth q v h c) h.toNat c.toNat (fun _ => false) fun x =>
      if x.type = 3 then sparseForm fw q.toNat .store v.toNat c.toNat h.toNat x D
      else
        let rows := denseRows D x c.toNat
        let ws : List Want := rows.map fun r =>
          { lane := r.1, va := r.2.1, len := x.size, albl := r.2.2.2, aux := r.2.2.1,
            data := (vread D 3 v.toNat r.1).val.toNat % (if x.vtype = 1 then 2 ^ 16 else 2 ^ 32), lbl := D.cur.org (vread D 3 v.toNat r.1).lbl }
        posting fw q.toNat D fun D => accesses fw (x.need false true) (x.type != 2) true ws x.size D fun as D1 =>
          postHandle fw (some q.toNat) (if x.type = 2 then .code as else .store (shadow as)) false false
            (decide (rows.length < D.act.length)) as.isEmpty D.k0 D1

/-- SPADD: adds to the element and returns its old value (R117, R114, R118); it ends a region (R133). -/
def execSpadd (q : BitVec 4) (v : BitVec 7) (h : BitVec 3) (c : BitVec 7) (σ : State) : Host.Outcome State Fault Refusal :=
  word (.spadd q v h c) σ fun fw D =>
    handleForm fw D (.spadd q v h c) h.toNat c.toNat (fun x => x.type == 2) fun x =>
      if x.type = 3 then sparseForm fw q.toNat .add v.toNat c.toNat h.toNat x D
      else
        let rows := denseRows D x c.toNat
        let ws : List Want := rows.map fun r =>
          { lane := r.1, va := r.2.1, len := x.size, albl := r.2.2.2, data := (vread D 3 v.toNat r.1).val.toNat % 2 ^ (8 * x.size),
            lbl := D.cur.org (vread D 3 v.toNat r.1).lbl }
        posting fw q.toNat D fun D => accesses fw (x.need true true) true false ws x.size D fun as D1 =>
          postHandle fw (some q.toNat) (.atomic (.spadd x.vtype) (.regs v.toNat 1) none as) false true
            (decide (rows.length < D.act.length)) as.isEmpty D.k0 D1

/-- SPITER: the next present key of each lane's cursor (R119). -/
def execSpiter (q : BitVec 4) (v : BitVec 7) (h : BitVec 3) (s : BitVec 6) (σ : State) : Host.Outcome State Fault Refusal :=
  word (.spiter q v h s) σ fun fw D =>
    let x := handleAt D h.toNat
    if !x.ok || x.type ≠ 3 then trapHandle fw D (.spiter q v h s) h.toNat
    else
      let lanes : List ArborLane := D.act.map fun l =>
        let lo := vread D 3 v.toNat l
        let hi := vread D 3 (v.toNat + 1) l
        let fl := vread D 3 (v.toNat + 2) l
        let atEnd := fl.val.getLsbD 1
        { lane := l, key := lo.val.toNat + hi.val.toNat * 2 ^ 32, shard := 0, data := fl.val, start := fl.val.getLsbD 0, atEnd,
          lbl := x.lbl ||| D.cur.org lo.lbl ||| D.cur.org hi.lbl ||| D.cur.org fl.lbl, todo := if atEnd then [] else upFrom 0 (2 ^ x.shards),
          done := atEnd, rlbl := x.lbl ||| D.cur.org lo.lbl ||| D.cur.org hi.lbl ||| D.cur.org fl.lbl }
      posting fw q.toNat D fun D => arborRoom fw D x.base (lanes.flatMap (·.todo)) <| rootPage fw D false x (lanes.map fun l => (l.lane, l.lbl)) fun D1 =>
        postHandle fw (some q.toNat) (.arbor .iter h.toNat x v.toNat s.toNat lanes) false false false false D.k0 D1

/-- The pages of an extent and what they must be (R121): sparse class, then the root table's ceiling. -/
def extentPages (fw : Fw) (d : Dev) (part : Nat) (va : Dword) (len : Nat) : List (Dword × Xl) :=
  (pagesOf va len).map fun p => (p, fwXl fw d part { r := true, w := true, e := true, cls := .node } p)

/-- SPEXT: adds an extent of sb[63:32] nodes at sa to shard sb[7:0] (R121, R320); the team is held until it is performed. An extent whose nodes do not
fill its last page is accepted when that page is of sparse class (entry 44). -/
def execSpext (h : BitVec 3) (a : BitVec 6) (b : BitVec 6) (σ : State) : Host.Outcome State Fault Refusal :=
  word (.spext h a b) σ fun fw D =>
    let x := handleAt D h.toNat
    let va := sval D 1 a.toNat
    let sb := (sval D 2 b.toNat).toNat
    let n := sb / 2 ^ 32
    let shard := sb % 256
    let all := allLanes D.cur.lanes
    let lb := x.lbl ||| sorg D 1 a.toNat ||| sorg D 2 b.toNat
    let info := h.toNat + shard * 256
    if !x.ok || x.type ≠ 3 then trapHandle fw D (.spext h a b) h.toNat
    else arborRoom fw D x.base [shard] <| rootPage fw D true x [(scalarLane, 0)] fun D =>
      let ps := extentPages fw D D.cur.part va (256 * n)
      let bad := ps.filterMap fun p => match p.2 with | .refused r c => some (r * 16 + c) | _ => none
      let miss := ps.filterMap fun p => match p.2 with | .missing r => some (p.1, r) | _ => none
      let ceil := match translate fw D D.cur.core D.cur.part { r := true, e := true, cls := .node } (BitVec.ofNat 64 x.base) with
        | (.ok t, _) => t.ceil
        | _ => 0
      let other := ps.filterMap fun p => match p.2 with | .ok t => if t.ceil ≠ ceil then some t.ceil else none | _ => none
      match bad, miss, other with
      | i :: _, _, _ => trapIssue fw D 5 all va.toNat i
      | [], (p, r) :: _, _ => missAt fw D all p va r
      | [], [], o =>
        if va.toNat % 65536 ≠ 0 then trapIssue fw D 6 all va.toNat 0
        else match o with
          | c :: _ => trapIssue fw D 9 all va.toNat c.toNat
          | [] =>
            if lb &&& ~~~ceil ≠ 0 then trapIssue fw D 9 all va.toNat ceil.toNat
            else if n = 0 || decide (2 ^ 24 < n) || sb / 256 % 2 ^ 24 ≠ 0 || decide (2 ^ x.shards ≤ shard) then trapIssue fw D 0x0B all info 0
            else
              let lane : ArborLane := { lane := scalarLane, key := va.toNat, shard, data := BitVec.ofNat 32 n, lbl := lb }
              postHandle fw none (.arbor .extend h.toNat x 0 63 [lane]) true false false false D.k0 D

/-! ### The Arbor's operations -/

/-- Whether a lane still has an operation to do in a shard. -/
def ArborLane.pending (l : ArborLane) (o : ArborOp) (shard : Nat) : Bool :=
  !l.done && (if o = .iter then l.todo.contains shard else l.shard == shard)

/-- The team's operations on one shard go in issue order and in lane order (R113). -/
def arborTurn (t : Team) (n lane base shard : Nat) : Bool :=
  t.ops.all fun o =>
    match o.kind with
    | .arbor k _ hw _ _ ls =>
      hw.base != base || decide (n < o.id) || o.done || ls.all fun l => (o.id == n && decide (lane ≤ l.lane)) || !(l.pending k shard)
    | _ => true

/-- The label of a tensor: the current set of its root table page (R123). -/
def tensorLabel (fw : Fw) (d : Dev) (part base : Nat) : OSet :=
  match fwXl fw d part (Need.own { r := true, e := true, cls := .node }) (BitVec.ofNat 64 base) with
  | .ok t => (d.frame t.ent).cur
  | _ => 0

/-- The record of an uncorrectable unit that an Arbor met among n bytes, by its slice (R105, R225); each such unit is counted (R368). -/
def arborUnc (fw : Fw) (d : Dev) (pa va n : Nat) : Dev :=
  let a := badFirst d pa n
  teamFault fw (countBad d false (badUnits d pa n)) (errUnit false a) 0x13 0 (va + (a - pa)) 0 0 0

/-- A lane that met an error: not performed, with a record for an uncorrectable unit (R105, R372); none while a page is being moved, or has no
translation: Limamon is to see to that first (R128, R132). -/
def arborFail (fw : Fw) (d : Dev) (l : ArborLane) (e : AErr) : Option (ArborLane × Dev) :=
  match e with
  | .wait => none
  | .gone _ _ => none
  | .full => some ({ l with done := true, refused := true }, d)
  | .bad => some ({ l with done := true, bad := true }, d)
  | .unc pa va n => some ({ l with done := true, bad := true }, arborUnc fw d pa va n)

/-- One operation of a lane on a shard (R114, R119, R121), or why it is not performed. -/
def arborTry (fw : Fw) (d0 : Dev) (o : ArborOp) (hw : Handle) (l : ArborLane) (shard : Nat) : Except AErr (ArborLane × Dev) :=
  let t := hw.tree d0.cur.part shard
  let d := arborNote fw t (arborPath fw d0 t (if o = .extend then 0 else l.key)) d0
  let lab := tensorLabel fw d d.cur.part hw.base ||| l.lbl
  match o with
  | .read => (arborGet fw d t l.key).map fun v => ({ l with done := true, res := BitVec.ofNat 32 (v.getD 0), rlbl := lab }, d)
  | .test => (arborGet fw d t l.key).map fun v => ({ l with done := true, res := if v.isSome then 1 else 0, rlbl := lab }, d)
  | .store =>
    (arborPut fw d t l.key (fun _ => if hw.vtype = 1 then l.data.toNat % 65536 else l.data.toNat) l.lbl).map fun p => ({ l with done := true }, p.2)
  | .add =>
    (arborPut fw d t l.key (fun v => addV hw.vtype v l.data.toNat) l.lbl).map fun p =>
      ({ l with done := true, res := BitVec.ofNat 32 p.1, rlbl := lab }, p.2)
  | .iter =>
    (arborFrom fw d t (if l.start then 0 else l.key + 1)).map fun p =>
      let best := match p, l.best with
        | some (k, v), some (k', v') => if k < k' then some (k, BitVec.ofNat 32 v) else some (k', v')
        | some (k, v), none => some (k, BitVec.ofNat 32 v)
        | none, b => b
      let todo := l.todo.filter (· != shard)
      ({ l with best, todo, rlbl := l.rlbl ||| lab, done := todo.isEmpty }, d)
  | .extend => (arborExtend fw d t l.key l.data.toNat l.lbl).map fun d1 => ({ l with done := true }, d1)

/-- The same with what becomes of a lane that is not performed. -/
def arborLane (fw : Fw) (d : Dev) (o : ArborOp) (hw : Handle) (l : ArborLane) (shard : Nat) : Option (ArborLane × Dev) :=
  match arborTry fw d o hw l shard with
  | .ok p => some p
  | .error e => arborFail fw (arborNote fw (hw.tree d.cur.part shard) (arborPath fw d (hw.tree d.cur.part shard) (if o = .extend then 0 else l.key)) d) l e

/-- The first page that holds up the lanes of an operation, performed in turn: the lane that meets it, and whether it moves or has no translation. -/
def arborHeld (fw : Fw) (o : ArborOp) (hw : Handle) : List (ArborLane × Nat) → Dev → Option (Nat × AErr)
  | [], _ => none
  | (l, j) :: r, d =>
    match arborTry fw d o hw l j with
    | .error .wait => some (l.lane, .wait)
    | .error (.gone va x) => some (l.lane, .gone va x)
    | .error _ => arborHeld fw o hw r d
    | .ok p => arborHeld fw o hw r p.2

/-- The lanes of an operation that are still to be performed, each with its shards. -/
def arborLeft (o : ArborOp) (ls : List ArborLane) : List (ArborLane × Nat) :=
  (ls.filter fun l => !l.done).flatMap fun l => if o = .iter then l.todo.map fun j => (l, j) else [(l, l.shard)]

/-- SPADD translates the pages of all its lanes before it performs any (R133). -/
def arborReady (fw : Fw) (d : Dev) (o : ArborOp) (hw : Handle) (ls : List ArborLane) : Bool :=
  o != .add || ls.any (·.done) || (arborHeld fw o hw (arborLeft o ls) d).isNone

/-- A SPITER lane's results (R119). -/
def iterRegs (v : Nat) (l : ArborLane) : List (Nat × Word) :=
  let flags := l.data &&& ~~~(3 : Word)
  if l.atEnd || l.bad then []
  else match l.best with
    | none => [(v + 2, flags ||| 2), (v + 3, 0)]
    | some (k, x) => [(v, BitVec.ofNat 32 k), (v + 1, BitVec.ofNat 32 (k / 2 ^ 32)), (v + 2, flags), (v + 3, x)]

/-- Every lane has been performed or refused (R117-R121). -/
def completeArbor (fw : Fw) (op : Op) (o : ArborOp) (h : Nat) (hw : Handle) (v sd : Nat) (ls : List ArborLane) (d : Dev) : Dev :=
  let err := ls.any (·.bad)
  let good := ls.filter fun l => !l.bad && !l.refused
  let all := allLanes d.cur.lanes
  match o with
  | .extend =>
    let d1 := finishOp d op.id false
    stepHeld fw d <| match ls with
    | l :: _ =>
      if l.bad || l.refused then
        raiseTrap fw d1 { cause := 0x0B, tpc := op.first, k14 := all, ti0 := BitVec.ofNat 64 (h + l.shard * 256), ti1 := if l.bad then 1 else 0 }
      else d1
    | [] => d1
  | .iter =>
    let (d1, cs) := landLanes d op (good.map fun l => (l.lane, l.rlbl, iterRegs v l))
    let n := (good.filter fun l => !l.atEnd && l.best.isSome).length
    let ended := if ls.any (·.atEnd) then tensorLabel fw d d.cur.part hw.base else 0
    let (d2, cs') := landScalar d1 op sd (BitVec.ofNat 64 n) (ls.foldl (fun s l => s ||| l.rlbl) ended)
    endOp fw (d2.upd fun t => t.ccset { z := n == 0 } 1) op err (cs ++ cs')
  | _ =>
    let refused := ls.filter (·.refused)
    let (d1, cs) := if o = .store then (d, []) else landLanes d op (good.map fun l => (l.lane, l.rlbl, [(v, l.res)]))
    match refused with
    | [] => endOp fw d1 op err cs
    | l :: r =>
      let low := r.foldl (fun m x => min m x.shard) l.shard
      raiseTrap fw (finishOp d1 op.id err)
        { cause := 0x0B, tpc := op.first, k14 := lanesMask (refused.map fun x => x.lane), ti0 := BitVec.ofNat 64 (h + low * 256),
          ti1 := BitVec.ofNat 64 hw.base }

/-- Limamon has given up a page that an operation needs (R128): STH, SPADD and SPEXT, which hold their team, take the unrecoverable translation fault
at their position; the lanes of another that reach the page end in error (entry 13). -/
def arborGiveUp (fw : Fw) (op : Op) (o : ArborOp) (h : Nat) (hw : Handle) (v sd : Nat) (ls : List ArborLane) (d : Dev) : Option Dev :=
  match arborHeld fw o hw (arborLeft o ls) d with
  | some (lane, .gone va x) =>
    if !(mayResolve (repairOf fw d d.cur.part (BitVec.ofNat 64 va)) false) then none
    else if o = .store ∨ o = .add ∨ o = .extend then
      some (raiseTrap fw (finishOp d op.id (ls.any (·.bad)))
        { cause := 5, tpc := op.first, k14 := d.cur.laneMask [lane], ti0 := BitVec.ofNat 64 va,
          ti1 := BitVec.ofNat 64 (x * 16 + missClass fw d (BitVec.ofNat 64 va)) })
    else
      let ls' := ls.map fun l => if l.lane = lane then { l with done := true, bad := true } else l
      let d1 := d.setKind op.id (.arbor o h hw v sd ls')
      some (if ls'.all (·.done) then completeArbor fw op o h hw v sd ls' d1 else d1)
  | _ => none

/-- ARBOR_OPERATION: the Arbor of a shard performs one lane's operation whole (R113-R121): lane n, for SPITER on shard q. -/
def execArborOperation (σ : State) : Host.Outcome State Fault Refusal :=
  opEvent σ fun fw e op d =>
    match op.kind with
    | .arbor o h hw v sd ls =>
      if ls.all (·.done) then some (completeArbor fw op o h hw v sd ls d)
      else match ls.find? fun l => l.lane == e.n && !l.done with
        | none => none
        | some l =>
          let shard := if o = .iter then e.q else l.shard
          if !(l.pending o shard) || !(arborTurn d.cur op.id l.lane hw.base shard) || !(arborReady fw d o hw ls) then none
          else match arborLane fw d o hw l shard with
            | none => none
            | some (l', d1) =>
              let ls' := ls.map fun x => if x.lane = l.lane then l' else x
              let d2 := d1.setKind op.id (.arbor o h hw v sd ls')
              if ls'.all (·.done) then some (completeArbor fw op o h hw v sd ls' d2) else some d2
    | _ => none

end Sys2Proof.Machine
end

