-- ==== Sys2Proof/Machine/Tap.lean ====
section
/-! DEFINITION. Tap points and feature rules: TAPB, FSEL, TAPR, TAPE, TAPL, TAPH and the Belvedere's evaluation (R163-R169, R176-R193,
R196, R214, R224). -/
namespace Sys2Proof.Machine

/-- The Belvedere's unit number (R209). -/
def Team.belUnit (t : Team) : Nat := 0x400 + t.core

/-! ### The tables -/

/-- Translate ranges for the Belvedere, page by page. -/
def tapPages (fw : Fw) : List (Dword × Nat × Need) → Dev → Except EStop (List Piece) × Dev
  | [], d => (.ok [], d)
  | (va, len, n) :: r, d =>
    match enginePages fw d.cur.core d.cur.part n va.toNat (va.toNat + len) (pagesOf va len) d with
    | (.error e, d1) => (.error e, d1)
    | (.ok l, d1) =>
      match tapPages fw r d1 with
      | (.error e, d2) => (.error e, d2)
      | (.ok m, d2) => (.ok (l ++ m), d2)

/-- Physical address and frame-table entry of an address within translated ranges. -/
def placeOf (ps : List Piece) (va : Nat) : Nat × Nat :=
  match ps.find? fun p => decide (p.va.toNat ≤ va) && decide (va < p.va.toNat + p.len) with
  | some p => match p.tgt with
    | .mem pa e _ => (pa + (va - p.va.toNat), e)
    | _ => (0, 0)
  | none => (0, 0)

/-- Read n bytes for a command as the Belvedere reads them (R142), up to a rule's 16 in one access (R166). -/
def tapRead (d : Dev) (o : Op) (ps : List Piece) (va n : Nat) : Nat := leNat (engineBytes d o (max 8 n) (placeOf ps va).1 n)
/-- Read n bytes at home, where they are changed by an indivisible operation. -/
def tapHome (d : Dev) (ps : List Piece) (va n : Nat) : Nat := memNat d.mem (placeOf ps va).1 n
/-- The current set of the page that holds an address. -/
def tapSet (d : Dev) (ps : List Piece) (va : Nat) : OSet := (d.frame (placeOf ps va).2).cur
/-- Write n bytes at home. -/
def tapWrite (d : Dev) (o : Op) (ps : List Piece) (va n v : Nat) : Dev := devSetNat (d.engine o) d (placeOf ps va).1 n v

/-- Whether the Belvedere may write at an address that it has translated for reading (R98, R130). -/
def tapMay (ps : List Piece) (va : Nat) : Bool :=
  match ps.find? fun p => decide (p.va.toNat ≤ va) && decide (va < p.va.toNat + p.len) with
  | some p => match p.page with | some t => !t.mi && t.perm &&& t.sperm &&& 5 == 5 | none => false
  | none => false

/-- A page of the ranges that is being copied holds a write up until the move ends (R132). -/
def tapHeld (d : Dev) (ps : List Piece) : Bool :=
  ps.any fun p => match p.tgt with | .mem _ e _ => ({ w := true } : Need).held (d.frame e).mig | _ => false

/-- The UNCORRECTABLE record of n bytes that the Belvedere reads (R105, R225). -/
def tapUnc (fw : Fw) (d : Dev) (ps : List Piece) (va n : Nat) : Dev :=
  let (pa, e) := placeOf ps va
  let a := badFirst d pa n
  teamFault fw (countBad d (d.merge e) (badUnits d pa n)) (errUnit (d.merge e) a) 0x13 0 (va + (a - pa)) 0 0 0

/-- Needs of the Belvedere. -/
def belR : Need := { r := true, e := true }
def belRW : Need := { r := true, w := true, e := true }

/-- The B fields of a descriptor's bytes (R163). -/
def tapFields (va : Dword) (v : Nat) : TapDesc :=
  { addr := va, theta := BitVec.ofNat 64 (numAt v 16 8), ftens := BitVec.ofNat 64 (numAt v 24 8), rules := BitVec.ofNat 64 (numAt v 32 8),
    rowmap := BitVec.ofNat 64 (numAt v 40 8), hold := BitVec.ofNat 64 (numAt v 48 8), nf := numAt v 56 4, kk := numAt v 60 2,
    tapid := numAt v 62 1 }

/-- Whether a descriptor is aligned, its B fields are within their limits and its reserved bytes 0 (R163). -/
def tapOk (x : TapDesc) (v : Nat) : Bool :=
  x.addr.toNat % 128 == 0 && x.theta.toNat % 4 == 0 && x.rules.toNat % 65536 == 0 && x.rowmap.toNat % 128 == 0 && x.hold.toNat % 512 == 0 &&
  decide (1 ≤ x.nf) && decide (x.nf ≤ 131072) && decide (1 ≤ x.kk) && decide (x.kk ≤ 256) && decide (x.tapid ≤ 63) && numAt v 72 56 == 0

/-- The feature tensor's descriptor as the Belvedere reads it: the handle, with its page's current set (R163, R193). -/
def tensorAt (d : Dev) (o : Op) (ps : List Piece) (va : Nat) : Handle :=
  { words := (upFrom 0 8).foldl (fun m j => mset 0 m j (BitVec.ofNat 64 (tapRead d o ps (va + 8 * j) 8))) [], lbl := tapSet d ps va }

/-- Whether it is the descriptor R163 states: rank 4, key widths 12, 24, 6, 17, VTYPE FP32. -/
def tensorOk (h : Handle) : Bool :=
  h.ok && h.type == 3 && h.rank == 4 && h.vtype == 0 && h.keyw 0 == 12 && h.keyw 1 == 24 && h.keyw 2 == 6 && h.keyw 3 == 17

/-- A trap of a stop at issue: translation faults of R163, the failing address in TINFO0. -/
def tapStop (fw : Fw) (d : Dev) : EStop → Dev
  | .missing va r => missTeam fw d (allLanes d.cur.lanes) va r
  | .refused va r c => trapIssue fw d 5 (allLanes d.cur.lanes) va.toNat (r * 16 + c)
  | .bound => d

/-- The checks every TAP instruction makes of its descriptor (R163, R196): its pages are translated first, for TAPB and TAPE the feature
tensor descriptor's too; writes of the team to what is to be read come before it (R141, R145); `lower` is a cause of a lower code than the
format fault. `ends`: the hold ends a run (R27). -/
def withTap (fw : Fw) (va : Dword) (ftens ends : Bool) (lower : Option (Dev → Dev)) (d : Dev) (k : TapDesc → List Piece → Dev → Dev) : Dev :=
  let seen := fun (ps : List Piece) (d : Dev) => ps.all fun p => d.cur.writesDone d.cur.nextOp p.tgt p.len
  let hold := fun (d : Dev) => stall (if ends then d.upd Team.endRun else d) 9
  match tapPages fw [(va, 128, { belR with cls := .plain })] d with
  | (.error e, d1) => tapStop fw d1 e
  | (.ok ps, d1) =>
    if !(seen ps d1) then hold d1
    else
      let v := leNat ((readPieces d1 d1.cur.self ps).map (·.1))
      let x := tapFields va v
      match (if ftens then tapPages fw [(x.ftens, 64, belR)] d1 else (.ok [], d1)) with
      | (.error e, d2) => tapStop fw d2 e
      | (.ok fs, d2) =>
        if !(seen fs d2) then hold d2
        else match lower with
          | some f => f d2
          | none =>
            if !(tapOk x v) || (ftens && !(tensorOk (tensorAt d2 d2.cur.self fs x.ftens.toNat))) then trapIssue fw d2 0x0A d.k0 va.toNat 8
            else k x (ps ++ fs) d2

/-! ### Sessions (R177, R178) -/

/-- The open session of a team. -/
def Team.session (t : Team) : Option Session := t.sessions.find? (·.isOpen)

/-- Session stores of the acting team's core that are taken, its own open session apart. -/
def Dev.stores (d : Dev) : Nat :=
  ((d.cur :: d.rest).filter fun t => t.live && t.core == d.cur.core).foldl (fun n t => n + t.sessions.length) 0 -
    (d.cur.sessions.filter (·.isOpen)).length

/-- A core's Belvedere has performed every command that its queue accepted before operation o (R160, R177). -/
def Dev.belTurn (d : Dev) (o : Op) : Bool := d.queueTurn d.cur.core inBelvedere o

/-- A release covers every earlier access of the team (R143, R145). -/
def Team.releasedBefore (t : Team) (n : Nat) : Bool := t.ops.all fun o => decide (n ≤ o.id) || o.done || !o.kind.covered

/-- ROWBASE, lane word and HSTRIDE of TAPB's sc (R178). -/
def scRow (sc : Dword) : Nat := sc.toNat % 4096
def scWord (sc : Dword) : Nat := sc.toNat / 65536 % 16
def scStride (sc : Dword) : Nat := sc.toNat / 2 ^ 32

/-- TAPB: opens a session of 32 rows under a tap descriptor (R178). It stays at its position while a store is wanting, and while writes of its own
team that it has to see are still to be performed; then its queue takes it, and it holds the team until the commands accepted before it have been
performed (R160; entry 30). -/
def execTapb (a : BitVec 6) (b : BitVec 6) (c : BitVec 6) (q : BitVec 4) (σ : State) : Host.Outcome State Fault Refusal :=
  word (.tapb a b c q) σ fun fw D =>
    let sc := sval D 3 c.toNat
    if D.cur.paired || decide (4064 < scRow sc) || decide (D.cur.lanes ≤ 32 * scWord sc) || sc.toNat / 4096 % 16 ≠ 0 || sc.toNat / 2 ^ 20 % 4096 ≠ 0 then
      trapIllegal fw D (wordOf (.tapb a b c q)) 0
    else posting fw q.toNat D fun D => withTap fw (sval D 1 a.toNat) true true none D fun x ps D1 =>
      if ps.any (badPiece D1) then
        finish fw (postOp ((uncRecord fw D1 D1.cur.belUnit ps).upd fun t => t.endRun.qerr q.toNat) q.toNat .instant [] true)
      else if decide (4 ≤ D1.stores) then stall (D1.upd Team.endRun) 9
      else queueRoom D1 D1.cur.core inBelvedere 16 9
        (let n := D1.cur.nextOp
         let s : Session := { id := n, desc := x, hrow := sval D 2 b.toNat, sc }
         let next := D1.belTurn { D1.cur.self with seq := D1.free }
         let D2 := postOp ((notePieces D1 ps).upd fun t => { t.endRun with sessions := s :: t.closed }) q.toNat .tapb [] next
         if next then finish fw D2 else holdOn 1 (.held n) D2)

/-- FSEL: feeds a tile to the session (R179). -/
def execFsel (t : BitVec 6) (a : BitVec 6) (q : BitVec 4) (σ : State) : Host.Outcome State Fault Refusal :=
  word (.fsel t a q) σ fun fw D =>
    let f := (sval D 1 a.toNat).toNat
    match D.cur.session with
    | some s =>
      if D.cur.paired || f % 16 ≠ 0 then trapIllegal fw D (wordOf (.fsel t a q)) 0
      else posting fw q.toNat D fun D => queueRoom D D.cur.core inBelvedere 16 9
        (finish fw (postOp D q.toNat (.fsel s.id t.toNat f (maskWord D.k0 (scWord s.sc)) (sorg D 1 a.toNat)) [] false))
    | none => trapIllegal fw D (wordOf (.fsel t a q)) 0

/-- The greatest pair of a candidate list to drop: the smallest value, of equal values the highest feature (R179). -/
def dropPair (l : SMap Word) : SMap Word :=
  match l with
  | [] => []
  | p :: r =>
    let m := r.foldl (fun m x => if fpLt 24 m.2.toNat x.2.toNat then m else x) p
    mdel l m.1

/-- Feed feature f with value z to a list of at most k (R179). -/
def feed (k : Nat) (l : SMap Word) (f z : Nat) : SMap Word :=
  let l1 := mins l f (BitVec.ofNat 32 z)
  if k < l1.length then dropPair l1 else l1

/-- One row of a tile is fed: thresholds by column, none for a column fed to no row. -/
def feedRow (x : Tile) (r f0 nf k : Nat) (th : List (Option Nat)) (l : SMap Word) : SMap Word :=
  ((upFrom 0 16).zip th).foldl (fun l p =>
    match p.2 with
    | none => l
    | some h => let z := x.cvt 24 r p.1
      if decide (f0 + p.1 < nf) && fpLt 24 h z then feed k l (f0 + p.1) z else l) l

/-- A TRANSLATION record of the Belvedere (R225). -/
def tapRecord (fw : Fw) (d : Dev) (x : TapDesc) (va : Dword) (r : Nat) : Dev :=
  teamFault fw d d.cur.belUnit 0x15 0 va.toNat x.tapid (r * 16) 0

/-- The page of a threshold, as FSEL's translation gave it. -/
def thPiece (ps : List Piece) (va : Nat) : Option TlbEnt := (ps.find? fun p => p.va.toNat / 65536 == va / 65536).bind (·.page)

/-- FSEL is performed (R179). `giveUp`: Limamon has not resolved the faults of pages without a translation; else the command waits for them
(none), as it waits for its team's earlier writes to the thresholds (R141). -/
def fselPerform (fw : Fw) (giveUp : Bool) (o : Op) (s : Session) (t f : Nat) (rows : BitVec 32) (lbl : OSet) (d : Dev) : Option Dev :=
  let lo := s.desc.theta + BitVec.ofNat 64 (4 * f)
  let rs := (pagesOf lo 64).map fun p =>
    (p, tapPages fw [(p, if p.toNat % 65536 = 0 then (lo.toNat + 64) % 65536 else min 64 (65536 - p.toNat % 65536), belR)] d)
  let waits := rs.any fun r => match r.2.1 with
    | .error (.missing va _) => !(giveUp && mayResolve (repairOf fw d d.cur.part va) false)
    | _ => false
  let ps := rs.flatMap fun r => match r.2.1 with | .ok l => l | .error _ => []
  if waits || !(ps.all fun p => d.cur.writesDone o.id p.tgt p.len) then none
  else
    let d1 := rs.foldl (fun d r => match r.2.1 with
      | .error (.missing va x) => tapRecord fw d s.desc va x
      | .error (.refused va x _) => tapRecord fw d s.desc va x
      | _ => d) d
    let x := d.cur.regs.tile 0 t
    let cols := (upFrom 0 16).map fun c => (lo + BitVec.ofNat 64 (4 * c)).toNat
    let place := fun (va : Nat) => (thPiece ps va).map fun e => (e, e.pa (BitVec.ofNat 64 va))
    let bad := fun (va : Nat) => match place va with | some (_, pa) => badAt d pa 4 | none => false
    let unc := cols.filter bad
    let th := cols.map fun va => match place va with | some (_, pa) => if badAt d pa 4 then none else some (leNat (engineBytes d o 8 pa 4)) | none => none
    let d2 := unc.foldl (fun d va => match place va with
      | some (e, pa) => teamFault fw d (errUnit e.mi pa) 0x13 0 va 0 0 0
      | none => d) (countPieces (notePieces d1 ps) ps)
    let tset := ps.foldl (fun s p => s ||| (match p.tgt with | .mem _ e _ => (d.frame e).cur | _ => 0)) 0
    let err := decide (ps.length < rs.length) || !unc.isEmpty
    if badRows d.cur 0 t (rowList rows) then
      some (finishOp (teamFault fw d2 d.cur.belUnit 0x13 0 t 0 0 0) o.id true)
    else
      let rows' := (rowList rows).foldl (fun m r =>
        let u := mget {} m r
        mset {} m r { lbl := u.lbl ||| d.cur.rowSet x r ||| tset ||| lbl, list := feedRow x r f s.desc.nf s.desc.kk th u.list }) s.rows
      some (finishOp (d2.upd fun tm => { tm with sessions := tm.sessions.map fun u => if u.id = s.id then { u with rows := rows' } else u }) o.id err)

/-- FSEL_FEED: the Belvedere feeds a tile to a session (R179), after the commands before it (R160, R177) and in the tile's turn (R57). A session
that EXIT has ended takes nothing (R178). A TAPB that has waited for its turn completes here, and its team goes on. -/
def execFselFeed (σ : State) : Host.Outcome State Fault Refusal :=
  opEvent σ fun fw _ o d =>
    match o.kind with
    | .tapb => if d.belTurn o then some (endOp fw d o false []) else none
    | .fsel sid t f rows lbl =>
      if !(d.belTurn o && d.cur.tileTurn o.id o.kind) then none
      else match d.cur.sessions.find? fun s => s.id == sid with
        | some s => fselPerform fw false o s t f rows lbl d
        | none => some (finishOp d o.id false)
    | _ => none

/-! ### Rules (R164-R166, R181, R214) -/

/-- Fields of bytes 0-7 of a row map entry (R167). -/
def rmState (m : Nat) : Nat := m / 2 ^ 20 % 16
def rmTap (m : Nat) : Nat := m / 2 ^ 14 % 64
def rmDepth (m : Nat) : Nat := m / 2 ^ 24 % 4
def rmSlot (m : Nat) : Nat := m / 2 ^ 28 % 4096
def rmTok (m : Nat) : Nat := m / 2 ^ 40 % 2 ^ 24

/-- m with HSTATE, HTAP and DEPTH replaced. -/
def rmWith (m state tap depth : Nat) : Nat :=
  m - rmState m * 2 ^ 20 - rmTap m * 2 ^ 14 - rmDepth m * 2 ^ 24 + state % 16 * 2 ^ 20 + tap % 64 * 2 ^ 14 + depth % 4 * 2 ^ 24

/-- The hold bit of a row (R169). -/
def holdAt (x : TapDesc) (row : Nat) : Nat := x.hold.toNat + 4 * (row / 32)
def holdBit (d : Dev) (o : Op) (ps : List Piece) (x : TapDesc) (row : Nat) : Bool := tapRead d o ps (holdAt x row) 4 / 2 ^ (row % 32) % 2 == 1
/-- Set it. -/
def setHold (d : Dev) (o : Op) (ps : List Piece) (x : TapDesc) (row : Nat) : Dev :=
  tapWrite d o ps (holdAt x row) 4 (tapHome d ps (holdAt x row) 4 ||| 2 ^ (row % 32))

/-- The row map entry of a row. -/
def rowAt (x : TapDesc) (row : Nat) : Nat := x.rowmap.toNat + 128 * row

/-- The chain of a head word: first rule and count; none when malformed (R164, R165). -/
def chainOf (head : Nat) : Option (Nat × Nat) :=
  let first := head / 65536
  let n := head % 128
  if decide (64 < n) || decide (65536 < first + n) then none else some (first, n)

/-- The ranges of the rule table that the chain of a slot reaches. -/
def headRange (x : TapDesc) (slot : Nat) : Dword × Nat × Need := (x.rules + BitVec.ofNat 64 (4 * slot), 4, belR)
def chainRange (x : TapDesc) (head : Nat) : List (Dword × Nat × Need) :=
  match chainOf head with
  | some (first, n) => if n = 0 then [] else [(x.rules + BitVec.ofNat 64 (16384 + 16 * first), 16 * n, belR)]
  | none => []

/-- A rule's fields (R165). -/
def ruleKind (v : Nat) : Nat := v / 2 ^ 28 % 16
def ruleFeat (v : Nat) : Nat := v % 2 ^ 17

/-- Whether a rule is malformed (R165). -/
def ruleBad (x : TapDesc) (v : Nat) : Bool :=
  let p0 := numAt v 4 4
  let p1 := numAt v 8 4
  decide (4 < ruleKind v) || v / 2 ^ 17 % 2 ^ 11 != 0 || decide (x.nf ≤ ruleFeat v) || fpIsNan 24 p0 || fpIsNan 24 p1 ||
  (ruleKind v != 3 && p1 != 0) || (ruleKind v == 3 && fpLt 24 p1 p0)

/-- What evaluating a chain comes to: working values, first hitting rule by feature, whether an edge watch was evaluated, the rule pages'
sets, an error, a wait for a page of the tensor. -/
structure Chain where
  dev : Dev
  w : SMap Nat
  hit : SMap Nat := []
  edge : Bool := false
  set : OSet := 0
  err : Bool := false
  wait : Bool := false
deriving DecidableEq, Repr

/-- A feature tensor key (R163). -/
def tapKey (h : Handle) (x : TapDesc) (m tok f : Nat) : Nat := h.pack [rmSlot m, tok, x.tapid, f]

/-- The tree of a key. -/
def keyTree (d : Dev) (h : Handle) (key : Nat) : Tree := h.tree d.cur.part (shardOf h.shards key)

/-- a ≥ b of FP32. -/
def fpGe (a b : Nat) : Bool := fpLt 24 b a || fpEq 24 a b

/-- What an Arbor meets holds a command of the Belvedere up: a page that is being moved (R132), or one without a translation until Limamon has given it
up (R128). -/
def AErr.holds (fw : Fw) (giveUp : Bool) (d : Dev) : AErr → Bool
  | .wait => true
  | .gone va _ => !(giveUp && mayResolve (repairOf fw d d.cur.part (BitVec.ofNat 64 va)) false)
  | _ => false

/-- One hit of a rule: the indivisible saturating add of R166 and R214. A page that refuses the write is the fault of R180: a record, and error
status. -/
def advanceHits (fw : Fw) (o : Op) (x : TapDesc) (ps : List Piece) (at_ : Nat) (c : Chain) : Chain :=
  if tapMay ps at_ then { c with dev := tapWrite c.dev o ps (at_ + 12) 4 (min (tapHome c.dev ps (at_ + 12) 4 + 1) (2 ^ 32 - 1)) }
  else { c with err := true, dev := tapRecord fw c.dev x (BitVec.ofNat 64 (at_ + 12)) 2 }

/-- One rule of a chain (R165, R181). -/
def evalRule (fw : Fw) (giveUp : Bool) (o : Op) (x : TapDesc) (h : Handle) (ps : List Piece) (m : Nat) (fv : SMap Word) (c : Chain) (i : Nat) : Chain :=
  let at_ := x.rules.toNat + 16384 + 16 * i
  let v := tapRead c.dev o ps at_ 16
  let c := { c with set := c.set ||| tapSet c.dev ps at_ }
  let f := ruleFeat v
  let p0 := numAt v 4 4
  let val := (mget 0 fv f).toNat
  let w := mget 0 c.w f
  let watch := fun (c : Chain) =>
    { advanceHits fw o x ps at_ c with hit := match mfind c.hit f with | some _ => c.hit | none => mins c.hit f i }
  if c.wait || ruleKind v = 0 then c
  else if badAt c.dev (placeOf ps at_).1 16 then
    { c with err := true, dev := tapUnc fw c.dev ps at_ 16 }
  else if ruleBad x v then
    { c with dev := teamFault fw c.dev c.dev.cur.belUnit 0x17 0 x.rules.toNat (rmSlot m + x.tapid * 65536) i 0 }
  else if ruleKind v = 1 then (if fpGe val p0 then watch c else c)
  else if ruleKind v = 2 then
    let key := tapKey h x m (rmTok m - 1) f
    match (if rmTok m = 0 then .ok none else arborGet fw c.dev (keyTree c.dev h key) key) with
    | .ok p => if fpGe val p0 && fpLt 24 (p.getD 0) p0 then { watch c with edge := true } else { c with edge := true }
    | .error e =>
      if e.holds fw giveUp c.dev then { c with wait := true }
      else { c with edge := true, err := true, dev := match e with | .unc pa va n => arborUnc fw c.dev pa va n | _ => c.dev }
  else if ruleKind v = 3 then
    let r := fpMinMax 24 false (fpMinMax 24 true w p0) (numAt v 8 4)
    { (if r = w then c else advanceHits fw o x ps at_ c) with w := mins c.w f r }
  else { advanceHits fw o x ps at_ c with w := mins c.w f (fpAdd 24 .rne w p0) }

/-- The chain of a row (R164, R181), whose head word has been read. -/
def evalChain (fw : Fw) (giveUp : Bool) (o : Op) (x : TapDesc) (h : Handle) (ps : List Piece) (m head : Nat) (fv : SMap Word) (d : Dev) : Chain :=
  let ha := x.rules.toNat + 4 * rmSlot m
  let c : Chain := { dev := d, w := fv.map fun p => (p.1, p.2.toNat), set := tapSet d ps ha }
  match chainOf head with
  | none => { c with dev := teamFault fw d d.cur.belUnit 0x17 0 x.rules.toNat (rmSlot m + x.tapid * 65536) 0xFFFF 0 }
  | some (first, n) => (upFrom first n).foldl (evalRule fw giveUp o x h ps m fv) c

/-- The deltas of a row: features whose working value differs from the value (R181). -/
def deltasOf (fv : SMap Word) (w : SMap Nat) : List (Nat × Nat) :=
  w.filterMap fun p =>
    let d := fpSub 24 .rne p.2 (mget 0 fv p.1).toNat
    if d % 2 ^ 31 = 0 then none else some (p.1, d)

/-- Store or remove a key of the feature tensor (R183): an error posts FEATURE-LOST; none while it must wait. -/
def tapStore (fw : Fw) (giveUp : Bool) (x : TapDesc) (h : Handle) (m row : Nat) (s data : OSet) (f v : Nat) (r : Dev × Bool) : Option (Dev × Bool) :=
  let d := r.1
  let key := tapKey h x m (rmTok m) f
  match arborPut fw d (keyTree d h key) key (fun _ => v) s with
  | .ok (_, d1) => some (d1, r.2)
  | .error (.unc pa va n) => some (arborUnc fw d pa va n, true)
  | .error e =>
    if e.holds fw giveUp d then none
    else some (teamFault fw d d.cur.belUnit 0x1A 0 x.ftens.toNat (row + x.tapid * 65536) f data, true)

/-- Store a row's list. -/
def tapStoreList (fw : Fw) (giveUp : Bool) (x : TapDesc) (h : Handle) (m row : Nat) (s data : OSet) (fv : SMap Word) (r : Dev × Bool) : Option (Dev × Bool) :=
  fv.foldl (fun a p => a.bind (tapStore fw giveUp x h m row s data p.1 p.2.toNat)) (some r)

/-! ### Records and holds (R161, R167, R185, R224) -/

/-- Deliver a watch record: the watch queue, the row's overflow slot, which holds a record from then on, or a count of what was lost. -/
def deliver (fw : Fw) (o : Op) (ps : List Piece) (entry : Nat) (bs : List Byte) (s : OSet) (d : Dev) : Dev :=
  match ringPost (d.engine o) fw d d.cur.part (fw.part d.cur.part).wq bs s with
  | some d1 => d1
  | none =>
    let m := tapHome d ps entry 8
    if m / 2 ^ 13 % 2 = 1 then tapWrite d o ps (entry + 8) 4 (min (tapHome d ps (entry + 8) 4 + 1) (2 ^ 32 - 1))
    else
      let pl := placeOf ps (entry + 64)
      let slot := (d.cur.part, entry + 64)
      let d1 := if d.slots.contains slot then d else { d with slots := slot :: d.slots }
      tapWrite (raiseCur (devSetBytes (d.engine o) d1 pl.1 bs) pl.2 s) o ps entry 8 (m + 2 ^ 13)

/-- Post a row's watch records, ascending by feature (R185). -/
def watchRecords (fw : Fw) (o : Op) (x : TapDesc) (ps : List Piece) (row m : Nat) (fv : SMap Word) (hit : SMap Nat) (s : OSet) (evid : Dword) (haddr flags : Nat)
    (d : Dev) : Dev :=
  hit.foldl (fun d p =>
    let (seq, d1) := newSeq d d.cur.belUnit
    deliver fw o ps (rowAt x row)
      (packBytes 64 [(0, 8, seq.toNat), (8, 1, 1), (9, 1, d.cur.part), (10, 1, x.tapid), (11, 1, flags), (12, 4, d.cur.launchId.toNat), (16, 2, row),
        (18, 2, rmSlot m), (20, 4, p.1), (24, 4, rmTok m), (28, 4, (mget 0 fv p.1).toNat), (32, 2, p.2), (36, 4, s.toNat), (40, 8, evid.toNat),
        (48, 8, haddr)]) s d1) d

/-- The compare-and-swap of bytes 0-7 from m, made with the hold bit (R181, R187); none when they have changed. -/
def casRow (o : Op) (x : TapDesc) (ps : List Piece) (row m new : Nat) (d : Dev) : Option Dev :=
  if tapHome d ps (rowAt x row) 8 = m then some (setHold (tapWrite d o ps (rowAt x row) 8 new) o ps x row) else none

/-- Bytes of a delta list with the set of each (R182, R193). The manual gives the header none: it takes `lbl`, that of the instruction's operands and, of
a TAPE, of the list it read (entry 51). -/
def deltaBytes (lbl : OSet) (es : List (Nat × Nat × Nat × OSet)) : List (Byte × OSet) :=
  (leBytes 8 es.length).map (fun b => (b, lbl)) ++
    es.flatMap fun e => (leBytes 4 (e.1 * 2 ^ 27 + e.2.1) ++ leBytes 4 e.2.2.1).map fun b => (b, e.2.2.2)

/-- Write a delta list in the scratchpad and finish the operation. -/
def tapDeltas (fw : Fw) (o : Op) (at_ : Dword) (lbl : OSet) (es : List (Nat × Nat × Nat × OSet)) (err : Bool) (d : Dev) : Dev :=
  let w := writeScr fw d.cur.belUnit d 0 (at_.toNat - 0xFFFFF00000000000) at_ (deltaBytes lbl es)
  endOp fw w.dev o (err || w.err) (match w.full with | some s => [{ code := 0x0C, k14 := allLanes d.cur.lanes, ti0 := s.toNat }] | none => [])

/-! ### TAPR (R180-R187) -/

/-- TAPR: evaluates the rows of kr and closes the session (R180). -/
def execTapr (d : BitVec 4) (r : BitVec 4) (s : BitVec 6) (q : BitVec 4) (σ : State) : Host.Outcome State Fault Refusal :=
  word (.tapr d r s q) σ fun fw D =>
    match D.cur.session with
    | some u =>
      if D.cur.paired then trapIllegal fw D (wordOf (.tapr d r s q)) 0
      else posting fw q.toNat D fun D =>
        let sd := sval D 1 s.toNat
        if !(inScratch sd) || decide (D.cur.decl.scratch < sd.toNat - 0xFFFFF00000000000 + 8 + 256 * (u.desc.kk + 64)) then
          trapIssue fw D 7 (allLanes D.cur.lanes) sd.toNat D.cur.decl.scratch
        else queueRoom D D.cur.core inBelvedere 16 9
          (let (evid, D1) := newSeq D D.cur.belUnit
           let D2 := postOp D1 q.toNat (.tapr u.id d.toNat (maskWord (kread D 2 r.toNat) (scWord u.sc)) sd evid (sorg D 1 s.toNat)) [] false
           finish fw (D2.upd fun t => endRegion { t with sessions := t.sessions.map fun x => if x.id = u.id then { x with isOpen := false } else x }))
    | none => trapIllegal fw D (wordOf (.tapr d r s q)) 0

/-- kd lands (R184): per word old or new until the token is waited. -/
def landK (d : Dev) (o : Op) (k : Nat) (m : Mask) : Dev :=
  let old := mget 0 d.cur.regs.k k
  let y := if o.clob.contains (.k k) then ofWords fun w => pick d.free (slotKey 9 (.k k) * 64 + w) (maskWord m w) [maskWord old w] else m
  d.upd fun t => { t with
    regs := { t.regs with k := mset 0 t.regs.k k (y &&& allLanes t.lanes) },
    haz := { loc := .k k, old := old.toNat, lbl := 0, upto := o.q.getD 0, op := o.id } :: t.haz }

/-- How a step of the Belvedere that must translate pages goes on. -/
inductive TapReach where
  | ok (ps : List Piece)
  | wait
  | fail (va : Dword) (reason : Nat)
deriving DecidableEq, Repr

/-- Translate ranges for a command: a page without a translation, or one that is being moved, holds it up (R132); one that Limamon cannot give or
that refuses fails it (R180). -/
def tapReach (fw : Fw) (giveUp : Bool) (rs : List (Dword × Nat × Need)) (d : Dev) : TapReach × Dev :=
  match tapPages fw rs d with
  | (.ok ps, d1) => (if tapHeld d1 ps then .wait else .ok ps, d1)
  | (.error (.missing va r), d1) => (if giveUp && mayResolve (repairOf fw d d.cur.part va) false then .fail va r else .wait, d1)
  | (.error (.refused va r _), d1) => (.fail va r, d1)
  | (.error .bound, d1) => (.fail 0 3, d1)

/-- One row that TAPR is to evaluate (R181): session row, bytes 0-7 of its row map entry and the head word of its chain as they were read. -/
structure TapRow where
  i : Nat
  m : Nat
  head : Nat := 0
deriving DecidableEq, Repr

/-- What TAPR's rows add up to: the machine, delta entries, an error. -/
structure TapSum where
  dev : Dev
  es : List (Nat × Nat × Nat × OSet) := []
  err : Bool := false
deriving DecidableEq, Repr

/-- Bytes 0-7 of a row's entry and its hold bit may both be written (R168, R169); else a record, and the row is not held. -/
def holdMay (x : TapDesc) (ps : List Piece) (row : Nat) : Bool := tapMay ps (rowAt x row) && tapMay ps (holdAt x row)

/-- A row's evaluation (R181); none while it must wait. -/
def taprRow (fw : Fw) (giveUp : Bool) (o : Op) (s : Session) (h : Handle) (ps : List Piece) (evid : Dword) (lbl : OSet) (a : TapSum) (r : TapRow) : Option TapSum :=
  let x := s.desc
  let row := scRow s.sc + r.i
  let u := mget {} s.rows r.i
  let rset := tapSet a.dev ps (rowAt x row)
  match tapStoreList fw giveUp x h r.m row (u.lbl ||| rset ||| h.lbl ||| lbl) u.lbl u.list (a.dev, a.err) with
  | none => none
  | some (d1, err1) =>
    let c := evalChain fw giveUp o x h ps r.m r.head u.list d1
    if c.wait then none
    else
      let dset := u.lbl ||| rset ||| c.set ||| lbl
      let oset := if c.edge then dset ||| tensorLabel fw c.dev d1.cur.part h.base else dset
      let err := err1 || c.err
      if c.hit.isEmpty then some { dev := c.dev, es := a.es ++ (deltasOf u.list c.w).map fun p => (r.i, p.1, p.2, dset), err }
      else if !(holdMay x ps row) then some { a with dev := tapRecord fw c.dev x (BitVec.ofNat 64 (rowAt x row)) 2, err := true }
      else match casRow o x ps row r.m (rmWith r.m 1 x.tapid (rmDepth r.m)) c.dev with
        | some d2 =>
          some { a with dev := watchRecords fw o x ps row r.m u.list c.hit oset evid ((s.hrow + BitVec.ofNat 64 (r.i * scStride s.sc)).toNat) 0 d2, err }
        | none => some { a with dev := c.dev, err }

/-- The hold array bits of a session's rows (R181). -/
def holdBits (d : Dev) (o : Op) (ps : List Piece) (s : Session) : Nat :=
  (upFrom 0 32).foldl (fun a i => if holdBit d o ps s.desc (scRow s.sc + i) then a + 2 ^ i else a) 0

/-- The row map, hold array and tensor ranges that TAPR reads (R180): the words of the hold array from that of the first row to that of the last. -/
def taprRanges (s : Session) (rows : List Nat) : List (Dword × Nat × Need) :=
  let first := holdAt s.desc (scRow s.sc)
  rows.map (fun i => (BitVec.ofNat 64 (rowAt s.desc (scRow s.sc + i)), 128, belR)) ++
  [(BitVec.ofNat 64 first, holdAt s.desc (scRow s.sc + 31) + 4 - first, belR), (s.desc.ftens, 64, belR)]

/-- A command of the Belvedere that cannot reach a page ends in error (R180): a record, and no other effect. -/
def tapFail (fw : Fw) (o : Op) (x : TapDesc) (va : Dword) (r : Nat) (d : Dev) : Dev := finishOp (tapRecord fw d x va r) o.id true

/-- TAPR's store is free once it completes (R178). -/
def freeStore (sid : Nat) (d : Dev) : Dev := d.upd fun t => { t with sessions := t.sessions.filter fun s => s.id != sid }

/-- The rows that TAPR evaluates: those that both their entry and the hold array show in RUN (R169). -/
def runningRows (d : Dev) (o : Op) (ps : List Piece) (s : Session) (rs : List Nat) : List TapRow :=
  rs.filterMap fun i =>
    let row := scRow s.sc + i
    let m := tapRead d o ps (rowAt s.desc row) 8
    if rmState m = 0 && !(holdBit d o ps s.desc row) then some { i, m } else none

/-- TAPR is performed (R180, R181); none while it must wait. -/
def taprPerform (fw : Fw) (giveUp : Bool) (o : Op) (s : Session) (kd : Nat) (rows : BitVec 32) (sd evid : Dword) (lbl : OSet) (d : Dev) : Option Dev :=
  let rs := rowList rows
  let stop := fun (va : Dword) (r : Nat) (d : Dev) => some (tapFail fw o s.desc va r (freeStore s.id d))
  match tapReach fw giveUp (taprRanges s rs) d with
  | (.wait, _) => none
  | (.fail va r, d1) => stop va r d1
  | (.ok ps, d1) =>
    let ms := runningRows d1 o ps s rs
    match tapReach fw giveUp (ms.map fun r => headRange s.desc (rmSlot r.m)) d1 with
    | (.wait, _) => none
    | (.fail va r, d2) => stop va r d2
    | (.ok hs, d2) =>
      let ms := ms.map fun r => { r with head := tapRead d2 o hs (s.desc.rules.toNat + 4 * rmSlot r.m) 4 }
      match tapReach fw giveUp (ms.flatMap fun r => chainRange s.desc r.head) d2 with
      | (.wait, _) => none
      | (.fail va r, d3) => stop va r d3
      | (.ok cs, d3) =>
        let all := ps ++ hs ++ cs
        if (ps ++ hs).any (badPiece d3) then some (finishOp (uncRecord fw (freeStore s.id d3) d.cur.belUnit (ps ++ hs)) o.id true)
        else
          let h := tensorAt d3 o ps s.desc.ftens.toNat
          (ms.foldl (fun a r => a.bind fun a => taprRow fw giveUp o s h all evid lbl a r) (some { dev := notePieces d3 all })).map fun a =>
            let k := BitVec.ofNat 1024 (holdBits a.dev o all s * 2 ^ (32 * scWord s.sc))
            tapDeltas fw o sd lbl a.es a.err (freeStore s.id (landK a.dev o kd k))

/-- TAPR_EVALUATION: the Belvedere evaluates a session's rows (R181), after the release of R145 and the team's commands before it. -/
def execTaprEvaluation (σ : State) : Host.Outcome State Fault Refusal :=
  opEvent σ fun fw _ o d =>
    match o.kind with
    | .tapr sid kd rows sd evid lbl =>
      match d.cur.sessions.find? fun s => s.id == sid with
      | some s => if d.belTurn o && d.cur.releasedBefore o.id then taprPerform fw false o s kd rows sd evid lbl d else none
      | none => none
    | _ => none

/-! ### TAPE (R188) -/

/-- TAPE: evaluates a held row from a list of features (R188). -/
def execTape (a : BitVec 6) (b : BitVec 6) (c : BitVec 6) (q : BitVec 4) (σ : State) : Host.Outcome State Fault Refusal :=
  word (.tape a b c q) σ fun fw D =>
    let sa := sval D 1 a.toNat
    let row := (sval D 3 c.toNat).toNat
    let outside := !(inScratch sa) || decide (D.cur.decl.scratch < sa.toNat - 0xFFFFF00000000000 + 2064 + 8 + 8 * 320)
    if 4095 < row then trapIllegal fw D (wordOf (.tape a b c q)) 0
    else posting fw q.toNat D fun D =>
      withTap fw (sval D 2 b.toNat) true false
        (if outside then some fun D => trapIssue fw D 7 (allLanes D.cur.lanes) sa.toNat D.cur.decl.scratch else none) D fun x ps D1 =>
        if ps.any (badPiece D1) then finish fw (postOp ((uncRecord fw D1 D1.cur.belUnit ps).upd fun t => t.qerr q.toNat) q.toNat .instant [] true)
        else queueRoom D1 D1.cur.core inBelvedere 16 9
          (let (evid, D2) := newSeq (notePieces D1 ps) D1.cur.belUnit
           finish fw ((postOp D2 q.toNat (.tape x sa row evid (sorg D 1 a.toNat ||| sorg D 2 b.toNat ||| sorg D 3 c.toNat)) [] false).upd endRegion))

/-- The entries of TAPE's list: features ascending below NF, no NaN (R188); none when it breaks a rule. -/
def tapeList (nf : Nat) : List (Nat × Nat) → Option Nat → Option (SMap Word)
  | [], _ => some []
  | (f, v) :: r, last =>
    if decide (nf ≤ f) || (match last with | some p => decide (f ≤ p) | none => false) || fpIsNan 24 v then none
    else (tapeList nf r (some f)).map fun l => (f, BitVec.ofNat 32 v) :: l

/-- Remove the present keys of a row in shard j whose feature is not listed (R188). -/
def pruneShard (fw : Fw) (giveUp : Bool) (x : TapDesc) (h : Handle) (m row j : Nat) (s data : OSet) (fv : SMap Word) (hi : Nat) : Nat → Nat → Dev × Bool → Option (Dev × Bool)
  | 0, _, r => some r
  | n + 1, lo, r =>
    match arborFrom fw r.1 (h.tree r.1.cur.part j) lo with
    | .error (.unc pa va n) => some (arborUnc fw r.1 pa va n, true)
    | .error e => if e.holds fw giveUp r.1 then none else some (r.1, true)
    | .ok none => some r
    | .ok (some (key, _)) =>
      if hi < key then some r
      else
        let f := key % 2 ^ 17
        if (mfind fv f).isSome then pruneShard fw giveUp x h m row j s data fv hi n (key + 1) r
        else match tapStore fw giveUp x h m row s data f 0 r with
          | none => none
          | some r1 => pruneShard fw giveUp x h m row j s data fv hi n (key + 1) r1

/-- Remove them in every shard. -/
def prune (fw : Fw) (giveUp : Bool) (x : TapDesc) (h : Handle) (m row : Nat) (s data : OSet) (fv : SMap Word) (r : Dev × Bool) : Option (Dev × Bool) :=
  let lo := tapKey h x m (rmTok m) 0
  (upFrom 0 (2 ^ h.shards)).foldl (fun a j => a.bind (pruneShard fw giveUp x h m row j s data fv (lo + 2 ^ 17 - 1) 131073 lo)) (some r)

/-- The row and list have passed TAPE's checks: the tensor, the chain, then a hit's update and records or the deltas (R188). -/
def tapeRun (fw : Fw) (giveUp : Bool) (o : Op) (x : TapDesc) (sa : Dword) (row : Nat) (evid : Dword) (dl : OSet) (haddr m head : Nat) (fv : SMap Word) (ps : List Piece) (d : Dev) :
    Option Dev :=
  let h := tensorAt d o ps x.ftens.toNat
  let rset := tapSet d ps (rowAt x row)
  let s := dl ||| rset ||| h.lbl
  match (prune fw giveUp x h m row s dl fv (d, false)).bind (tapStoreList fw giveUp x h m row s dl fv) with
  | none => none
  | some (d1, err) =>
    let c := evalChain fw giveUp o x h ps m head fv d1
    let e := err || c.err
    let dset := dl ||| rset ||| c.set
    let oset := if c.edge then dset ||| tensorLabel fw c.dev d.cur.part h.base else dset
    if c.wait then none
    else if c.hit.isEmpty then
      if tapHome c.dev ps (rowAt x row) 8 ≠ m then some (finishOp c.dev o.id true)
      else some (tapDeltas fw o (sa + 2064) dl ((deltasOf fv c.w).map fun p => (0, p.1, p.2, dset)) e c.dev)
    else if !(holdMay x ps row) then some (tapFail fw o x (BitVec.ofNat 64 (rowAt x row)) 2 c.dev)
    else if rmDepth m = 3 then
      match casRow o x ps row m (rmWith m 4 (rmTap m) 3) c.dev with
      | some d2 => some (finishOp (teamFault fw d2 d.cur.belUnit 0x18 0 (rowAt x row) row x.tapid 0) o.id e)
      | none => some (finishOp c.dev o.id true)
    else
      match casRow o x ps row m (rmWith m 1 x.tapid (rmDepth m + 1)) c.dev with
      | some d2 => some (finishOp (watchRecords fw o x ps row m fv c.hit oset evid haddr 1 d2) o.id e)
      | none => some (finishOp c.dev o.id true)

/-- TAPE's input list as its scratchpad holds it: whether it keeps R188's rules apart from those of its entries, and the entries. -/
def tapeInput (d : Dev) (x : TapDesc) (off : Nat) : Option (SMap Word) :=
  let n := scrNat d.cur.regs 0 off 4
  let es := (upFrom 0 (min n 256)).map fun j => (scrNat d.cur.regs 0 (off + 16 + 8 * j) 4, scrNat d.cur.regs 0 (off + 20 + 8 * j) 4)
  if decide (n ≤ 256) && decide (n ≤ x.kk) && scrNat d.cur.regs 0 (off + 4) 4 == 0 && es.all (fun e => e.1 / 2 ^ 17 == 0) then tapeList x.nf es none
  else none

/-- TAPE is performed (R188): a row that is not held under the tap, or a list that breaks a rule, ends it with no other effect (R168); then it reaches
the other tables. None while it must wait. -/
def tapePerform (fw : Fw) (giveUp : Bool) (o : Op) (x : TapDesc) (sa : Dword) (row : Nat) (evid : Dword) (lbl : OSet) (d : Dev) : Option Dev :=
  match tapReach fw giveUp [(BitVec.ofNat 64 (rowAt x row), 128, belR)] d with
  | (.wait, _) => none
  | (.fail va r, d1) => some (tapFail fw o x va r d1)
  | (.ok rs, d1) =>
    let m := tapRead d1 o rs (rowAt x row) 8
    let off := sa.toNat - 0xFFFFF00000000000
    let n := scrNat d.cur.regs 0 off 4
    let list : Piece := { off := 0, va := sa, tgt := .scr 0 off, len := 16 + 8 * min n 256 }
    let unc := fun (l : List Piece) (d : Dev) => some (finishOp (uncRecord fw d d.cur.belUnit (l.filter (badPiece d))) o.id true)
    if (list :: rs).any (badPiece d1) then unc (list :: rs) d1
    else if !(rmState m == 1 && rmTap m == x.tapid) then some (finishOp (notePieces d1 rs) o.id true)
    else match tapeInput d x off with
      | none => some (finishOp (notePieces d1 rs) o.id true)
      | some fv =>
        match tapReach fw giveUp [(BitVec.ofNat 64 (holdAt x row), 4, belR), (x.ftens, 64, belR), headRange x (rmSlot m)] d1 with
        | (.wait, _) => none
        | (.fail va r, d2) => some (tapFail fw o x va r d2)
        | (.ok hs, d2) =>
          let head := tapRead d2 o hs (x.rules.toNat + 4 * rmSlot m) 4
          match tapReach fw giveUp (chainRange x head) d2 with
          | (.wait, _) => none
          | (.fail va r, d3) => some (tapFail fw o x va r d3)
          | (.ok cs, d3) =>
            if hs.any (badPiece d3) then unc hs d3
            else tapeRun fw giveUp o x sa row evid (scrLabel d.cur 0 off (16 + 8 * n) ||| lbl) (scrNat d.cur.regs 0 (off + 8) 8) m head fv
              (rs ++ hs ++ cs) (notePieces d3 (rs ++ hs ++ cs))

/-- TAPE_EVALUATION: the Belvedere performs a TAPE (R188), after the release of R145 and the team's commands before it. -/
def execTapeEvaluation (σ : State) : Host.Outcome State Fault Refusal :=
  opEvent σ fun fw _ o d =>
    match o.kind with
    | .tape x sa row evid lbl => if d.belTurn o && d.cur.releasedBefore o.id then tapePerform fw false o x sa row evid lbl d else none
    | _ => none

/-! ### TAPL and TAPH (R189, R190) -/

/-- TAPL: releases a held row (R189, R168); the team stays at its position until the release of R145 is done; it ends a region. -/
def execTapl (a : BitVec 6) (b : BitVec 6) (σ : State) : Host.Outcome State Fault Refusal :=
  word (.tapl a b) σ fun fw D =>
    let row := (sval D 2 b.toNat).toNat
    if 4095 < row then trapIllegal fw D (wordOf (.tapl a b)) 0
    else withTap fw (sval D 1 a.toNat) false true none D fun x ps D1 =>
      match tapPages fw [(BitVec.ofNat 64 (rowAt x row), 8, belRW), (BitVec.ofNat 64 (holdAt x row), 4, belRW)] D1 with
      | (.error e, D2) => tapStop fw D2 e
      | (.ok rs, D2) =>
        if !D2.cur.released then stall (D2.upd Team.endRun) 9
        else match (ps ++ rs).find? (badPiece D2) with
          | some p => trapIssue fw (countPieces D2 (ps ++ rs)) 0x0D (allLanes D.cur.lanes) p.va.toNat 0
          | none =>
            let m := tapHome D2 rs (rowAt x row) 8
            let D3 := (notePieces D2 (ps ++ rs)).upd fun t => endRegion t.endRun
            let o := D3.cur.self
            finish fw (if rmState m = 1 then setHold (tapWrite D3 o rs (rowAt x row) 8 (rmWith m 2 x.tapid (rmDepth m))) o rs x row
              else teamFault fw D3 D3.cur.belUnit 0x19 0 (rowAt x row) row (rmState m) 0)

/-- TAPH: reads bytes 0-7 of a row map entry after a package-scope acquire (R190). -/
def execTaph (d : BitVec 6) (a : BitVec 6) (b : BitVec 6) (σ : State) : Host.Outcome State Fault Refusal :=
  word (.taph d a b) σ fun fw D =>
    let row := (sval D 2 b.toNat).toNat
    if 4095 < row then trapIllegal fw D (wordOf (.taph d a b)) 0
    else withTap fw (sval D 1 a.toNat) false true none D fun x ps D1 =>
      match tapPages fw [(BitVec.ofNat 64 (rowAt x row), 8, belR)] D1 with
      | (.error e, D2) => tapStop fw D2 e
      | (.ok rs, D2) =>
        if !(rs.all fun p => D2.cur.writesDone D2.cur.nextOp p.tgt p.len) then stall (D2.upd Team.endRun) 9
        else match (ps ++ rs).find? (badPiece D2) with
          | some p => trapIssue fw (countPieces D2 (ps ++ rs)) 0x0D (allLanes D.cur.lanes) p.va.toNat 0
          | none =>
            let s := tapSet D2 rs (rowAt x row) ||| sorg D 1 a.toNat ||| sorg D 2 b.toNat
            putScalar fw (acquire ((notePieces D2 (ps ++ rs)).upd Team.endRun) .pkg) d.toNat (BitVec.ofNat 64 (tapHome D2 rs (rowAt x row) 8)) s 1 (finish fw)

end Sys2Proof.Machine
end

