-- ==== Sys2Proof/Machine/Generation.lean ====
section
/-! DEFINITION. Graphs: recording, replays, their nodes, and COMMIT nodes (R74, R162, R168, R169, R197-R202, R354). -/
namespace Sys2Proof.Machine

/-- The number of a partition's graph instance in the model. -/
def graphKey (part inst : Nat) : Nat := part * 1024 + inst
def Dev.graph (d : Dev) (g : Nat) : Graph := mget {} d.graphs g
def Dev.setGraph (d : Dev) (g : Nat) (f : Graph → Graph) : Dev := { d with graphs := mupd {} d.graphs g f }

/-- The TRANSLATION record of a host command (R152, R225). -/
def commandFault (fw : Fw) (d : Dev) (part : Nat) (va : Dword) (reason : Nat) : Dev :=
  firmRecord fw d part 0x15 va.toNat 0 (reason * 16) 0

/-- A node of 64 bytes; none for an unknown kind. -/
def nodeOf (bs : List Byte) : Option Node :=
  match fieldAt bs 0 1 with
  | 1 => some { kernel := true, retry := fieldAt bs 1 1 % 2 == 1, ops := (bs.drop 16).take 48 }
  | 2 => some { kernel := false, retry := fieldAt bs 1 1 % 2 == 1, ops := [] }
  | _ => none

/-- Values 8 n bytes apart as a map. -/
def numbered {α : Type} [DecidableEq α] (z : α) (f : Nat → α) (n : Nat) : SMap α := (upFrom 0 n).foldl (fun m i => mset z m i (f i)) []

/-- GRAPH is performed (R354): the nodes and the initial parameters are read and the instance takes them; its status and the machine. Values staged for
an instance that is recorded again are dropped with its old nodes: the manual does not say what becomes of them (entry 19). -/
def makeGraph (fw : Fw) (part : Nat) (ops : List Byte) (d : Dev) : Nat × Dev :=
  let n := operand ops 20 4
  let list := BitVec.ofNat 64 (operand ops 24 8)
  let gp := BitVec.ofNat 64 (operand ops 32 8)
  match fwRange fw d part fwR list (64 * n), fwRange fw d part fwR gp 768 with
  | .error (va, r), _ => (4, commandFault fw d part va r)
  | .ok _, .error (va, r) => (4, commandFault fw d part va r)
  | .ok l, .ok m =>
    if rangeBad d l list.toNat (64 * n) then (4, commandUnc fw d part l list.toNat (64 * n))
    else if rangeBad d m gp.toNat 768 then (4, commandUnc fw d part m gp.toNat 768)
    else
      let nodes := (upFrom 0 n).map fun i => nodeOf (rangeBytes d l (list.toNat + 64 * i) 64)
      if nodes.any (·.isNone) then (1, d)
      else
        let bs := rangeBytes d m gp.toNat 768
        let g : Graph := { made := true, nodes := nodes.filterMap id, gp := numbered 0 (fun i => BitVec.ofNat 64 (fieldAt bs (8 * i) 8)) 64,
                           org := numbered 0 (fun i => BitVec.ofNat 32 (fieldAt bs (512 + 4 * i) 4)) 64 }
        (0, (noteRange (noteRange d l list.toNat (64 * n)) m gp.toNat 768).setGraph (graphKey part (operand ops 16 4)) fun _ => g)

/-- The oldest command in flight that waits for an instance. -/
def graphWaiting (d : Dev) (g : Nat) : Option Cmd :=
  d.cmds.find? fun c => match c.wait with | .replay h => h == g | .graph h _ => h == g | _ => false

/-- GRAPH commands that waited for a replay are performed, up to the next REPLAY (R354). -/
def graphPending (fw : Fw) (g : Nat) : Nat → Dev → Dev
  | 0, d => d
  | n + 1, d =>
    match graphWaiting d g with
    | some c => match c.wait with
      | .graph _ ops => let (st, d1) := makeGraph fw c.part ops d; graphPending fw g n (endCmd fw d1 c st)
      | _ => d
    | none => d

/-- A replay ends with a status (R198). -/
def endReplay (fw : Fw) (d : Dev) (g status : Nat) : Dev :=
  let d1 := d.setGraph g fun x => { x with running := none, busy := false, cmd := none }
  let d2 := match (d.graph g).cmd.bind d.cmd with | some c => endCmd fw d1 c status | none => d1
  graphPending fw g d2.cmds.length d2

/-- The running node has completed: the next one, or the end of the replay. -/
def nextNode (fw : Fw) (d : Dev) (g : Nat) : Dev :=
  let x := d.graph g
  let i := match x.running with | some i => i + 1 | none => 0
  if i < x.nodes.length then d.setGraph g fun y => { y with running := some i, busy := false } else endReplay fw d g 0

/-- The staged value of a register that counts: the one with the largest sequence number (R74, R210). -/
def newest (l : List Staged) (n : Nat) : Option Staged :=
  (l.filter (·.n == n)).foldl (fun a x => match a with
    | none => some x
    | some y => if 0 < (x.seq - y.seq).toInt then some x else some y) none

/-- Apply the staged values (R199). -/
def Graph.apply (g : Graph) : Graph :=
  (upFrom 0 64).foldl (fun g n => match newest g.staged n with
    | some x => { g with gp := mset 0 g.gp n x.val, org := mset 0 g.org n x.org }
    | none => g) g

/-- GRAPH_REPLAY_START: a replay starts once the previous one of its instance has completed, with the staged values applied (R198,
R199). q: the instance, by graphKey. -/
def execGraphReplayStart (σ : State) : Host.Outcome State Fault Refusal :=
  event σ fun fw e d =>
    let x := d.graph e.q
    if x.running.isSome then none
    else match graphWaiting d e.q with
      | some c => match c.wait with
        | .replay _ =>
          if !x.made then some (endCmd fw d c 1)
          else some (d.setGraph e.q fun y => { y.apply with running := some 0, busy := false, cmd := some c.id, staged := [] })
        | _ => none
      | none => none

/-- The priority of the queue whose REPLAY runs an instance. -/
def replayPrio (fw : Fw) (d : Dev) (g : Nat) : Nat :=
  match (d.graph g).cmd.bind d.cmd with | some c => (mget {} fw.queues c.q).prio.toNat | none => 0

/-- The node that is to start. -/
def Graph.node (x : Graph) : Option Node :=
  match x.running with
  | some i => if x.busy then none else (x.nodes.drop i).head?
  | none => none

/-- KERNEL_NODE_START: the launch of a KERNEL node is checked as LAUNCH is, and accepted; a failed check ends the replay (R198). It waits
while a page has been moved (R132). -/
def execKernelNodeStart (σ : State) : Host.Outcome State Fault Refusal :=
  eventFw σ fun fw e d =>
    match (d.graph e.q).node with
    | some n =>
      if !n.kernel || d.moved then none
      else match checkLaunch fw d (e.q / 1024) n.ops with
        | .error st => some (fw, endReplay fw d e.q st)
        | .ok (k, o) =>
          some (startLaunch fw (d.setGraph e.q fun y => { y with busy := true }) (e.q / 1024) (replayPrio fw d e.q) k o none (some e.q))
    | none => none

/-! ### COMMIT nodes -/

/-- What a COMMIT node works on: partition, gp0-gp5. -/
structure Commit where
  part : Nat
  rows : Nat
  vocab : Nat
  commit : Nat
  rowmap : Nat
  rings : Nat
  hold : Nat
deriving DecidableEq, Repr

/-- The parameters of a replay's COMMIT node (R199). -/
def commitOf (g : Nat) (x : Graph) : Commit :=
  let v := fun n => (mget 0 x.gp n).toNat
  { part := g / 1024, rows := v 0, vocab := v 1, commit := v 2, rowmap := v 3, rings := v 4, hold := v 5 }

/-- Limamon's accesses for a COMMIT node (R130). -/
def Commit.read (x : Commit) (fw : Fw) (d : Dev) (va n : Nat) : Option (List Byte) := fwRead fw d x.part (BitVec.ofNat 64 va) n
def Commit.write (x : Commit) (fw : Fw) (d : Dev) (va : Nat) (bs : List Byte) (s : OSet) : Dev :=
  (firmWrite fw d x.part (BitVec.ofNat 64 va) bs s).getD d
/-- The errors of n bytes that it reads (R105): corrected ones are counted, uncorrectable ones are recorded too. -/
def Commit.note (x : Commit) (fw : Fw) (va n : Nat) (d : Dev) : Dev :=
  match fwRange fw d x.part fwR (BitVec.ofNat 64 va) n with
  | .ok l => noteRange (commandUnc fw d x.part l va n) l va n
  | .error _ => d
/-- Whether its write of n bytes would be refused. -/
def Commit.shut (x : Commit) (fw : Fw) (d : Dev) (va n : Nat) : Bool := (fwRange fw d x.part fwW (BitVec.ofNat 64 va) n).toOption.isNone
/-- Add to a 64-bit counter, which wraps (R200, R207); one that cannot be read stays as it is (entry 21). -/
def Commit.bump (x : Commit) (fw : Fw) (d0 : Dev) (va n : Nat) : Dev :=
  let d := x.note fw va 8 d0
  match x.read fw d va 8 with | some bs => x.write fw d va (leBytes 8 (leNat bs + n)) 0 | none => d

/-- The COMMIT-MALFORMED record (R225). -/
def Commit.bad (x : Commit) (fw : Fw) (d : Dev) (addr row : Nat) : Dev := firmRecord fw d x.part 0x1B addr row 0 0

/-- Write a row's state with its hold bit (R168, R169); a hold word that cannot be read stays as it is (entry 21). -/
def Commit.setRow (x : Commit) (fw : Fw) (d : Dev) (row m : Nat) (held : Bool) : Dev :=
  let d1 := x.note fw (x.hold + 4 * (row / 32)) 4 (x.write fw d (x.rowmap + 128 * row) (leBytes 8 m) 0)
  match x.read fw d1 (x.hold + 4 * (row / 32)) 4 with
  | some bs =>
    let b := leNat bs
    let bit := 2 ^ (row % 32)
    let old := if b / bit % 2 = 1 then bit else 0
    x.write fw d1 (x.hold + 4 * (row / 32)) (leBytes 4 (b - old + if held then bit else 0)) 0
  | none => d1

/-- A delivery ring descriptor (R200): BASE, HEAD and TAIL addresses, LOG2SIZE. -/
def ringDesc (bs : List Byte) : Option (Nat × Nat × Nat × Nat) :=
  let lg := fieldAt bs 24 1
  if decide (lg < 2) || decide (16 < lg) || fieldAt bs 25 7 != 0 || fieldAt bs 8 8 % 4 != 0 || fieldAt bs 16 8 % 4 != 0 then none
  else some (fieldAt bs 0 8, fieldAt bs 8 8, fieldAt bs 16 8, lg)

/-- A commit record with N above 8 or a reserved byte not 0 (R201). -/
def badRecord (raw : List Byte) : Bool :=
  decide (8 < fieldAt raw 0 1) || fieldAt raw 1 1 / 2 != 0 || fieldAt raw 2 6 != 0 || fieldAt raw 48 16 != 0

/-- What stops an entry of a delivery ring from being written (R201). -/
inductive RingStop where
  | egress (va : Nat)
  | ceiling (va ceil : Nat)
  | page (va : Nat)
deriving DecidableEq, Repr

/-- The first entry that the Lodge or its page's ceiling refuses. -/
def ringStop (fw : Fw) (d : Dev) (part : Nat) (s : OSet) (vas : List Nat) : Option RingStop :=
  vas.findSome? fun va =>
    match fwRange fw d part fwW (BitVec.ofNat 64 va) 16 with
    | .error _ => some (.page va)
    | .ok l =>
      if l.any fun p => p.2.isHost then (if (lodge fw part s 1 va 16).isNone then some (.egress va) else none)
      else match l.find? fun p => s &&& ~~~p.2.ceil != 0 with
        | some p => some (.ceiling va p.2.ceil.toNat)
        | none => none

/-- Write entries e of a ring, each with a sequence number of its own (R162, R201): the machine and the last number. -/
def ringWrite (x : Commit) (fw : Fw) (s : OSet) (tok : Nat) : List (Nat × Nat) → Dev × Nat → Dev × Nat
  | [], r => r
  | (va, t) :: l, (d, _) =>
    let (seq, d1) := newSeq d (limamon 0)
    ringWrite x fw s (tok + 1) l (x.write fw d1 va (leBytes 4 t ++ leBytes 4 tok ++ leBytes 8 seq.toNat) s, seq.toNat)

/-- Whether a page refuses something of what is about to be written, each an address with its bytes. Such a row is skipped with a COMMIT-MALFORMED record,
before anything of it is written (entry 21). -/
def Commit.stuck (x : Commit) (fw : Fw) (d : Dev) (l : List (Nat × Nat)) : Bool := l.any fun p => x.shut fw d p.1 p.2

/-- A row whose ring has no room parks (R162, R168, R201): PTOKEN takes its first token with the set of the record's page, which the row map's page has to
admit (R101, R355); one that does not refuses the row as a ring's page does (entry 21). -/
def Commit.park (x : Commit) (fw : Fw) (d : Dev) (row m tok : Nat) (s : OSet) : Dev :=
  let ptok := x.rowmap + 128 * row + 16
  let full := match fwRange fw d x.part fwW (BitVec.ofNat 64 ptok) 4 with
    | .ok l => l.find? fun (p : Dword × TlbEnt) => s &&& ~~~p.2.ceil != 0
    | .error _ => none
  match full with
  | some p => firmRecord fw (x.write fw d (x.commit + 64 + 64 * row + 1) (leBytes 1 1) 0) x.part 0x12 ptok p.2.ceil.toNat s.toNat s
  | none => x.write fw (x.setRow fw d row (rmWith m 3 (rmTap m) (rmDepth m)) true) ptok (leBytes 4 tok) s

/-- Commit one row (R201, R202). A record, row map entry, descriptor, HEAD or TAIL that cannot be read ends it with COMMIT-MALFORMED (entry 21). -/
def Commit.row (x : Commit) (fw : Fw) (d0 : Dev) (row : Nat) : Dev :=
  let rec_ := x.commit + 64 + 64 * row
  let entry := x.rowmap + 128 * row
  let d := x.note fw entry 8 (x.note fw rec_ 64 d0)
  let bad := fun (d : Dev) => x.bad fw d rec_ row
  match x.read fw d rec_ 64, x.read fw d entry 8 with
  | some raw, some ms =>
    if badRecord raw then bad d
    else
      let m := leNat ms
      let d := x.note fw (x.rings + 32 * rmSlot m) 32 d
      match (x.read fw d (x.rings + 32 * rmSlot m) 32).bind ringDesc with
      | none => bad d
      | some (base, headAt, tailAt, lg) =>
        let n := fieldAt raw 0 1
        let toks := (upFrom 0 n).map fun i => fieldAt raw (8 + 4 * i) 4
        let e := (toks.takeWhile fun t => decide (t < x.vocab)).length
        let rejected := fun (d : Dev) => if e < n then x.bump fw d x.commit 1 else d
        if e = 0 then (if x.stuck fw d [(rec_, 64), (x.commit, 8)] then bad d else x.write fw (rejected d) rec_ (leBytes 1 0) 0)
        else
          let d := x.note fw headAt 4 (x.note fw tailAt 4 d)
          match x.read fw d headAt 4, x.read fw d tailAt 4 with
          | some hs, some ts =>
            let tail := leNat ts
            let s := match fwRange fw d x.part fwR (BitVec.ofNat 64 rec_) 64 with | .ok l => rangeCur d l | .error _ => 0
            let hold := (x.hold + 4 * (row / 32), 4)
            if 2 ^ lg < (tail + 2 ^ 32 - leNat hs) % 2 ^ 32 + e then
              if x.stuck fw d [(entry, 20), hold] then bad d else x.park fw d row m (nthD 0 toks 0) s
            else
              let vas := (upFrom 0 e).map fun i => base + 16 * ((tail + i) % 2 ^ lg)
              let refuse := fun (d : Dev) => x.write fw d (rec_ + 1) (leBytes 1 1) 0
              match ringStop fw d x.part s vas with
              | some (.egress va) => postFault fw (refuse d) x.part 0xA02 0x16 0 nobody nobody va 16 (rmSlot m) s
              | some (.ceiling va c) => firmRecord fw (refuse d) x.part 0x12 va c s.toNat s
              | some (.page _) => bad d
              | none =>
                if x.stuck fw d [(rec_, 64), (entry, 8), hold, (x.commit, 16), (tailAt, 4)] then bad d
                else
                  let (d1, seq) := ringWrite x fw s (rmTok m) (vas.zip toks) (d, 0)
                  let d2 := x.write fw d1 tailAt (leBytes 4 (tail + e)) 0
                  let m1 := rmWith m 0 (rmTap m) 0
                  let d3 := x.setRow fw d2 row (m1 - rmTok m1 * 2 ^ 40 + (rmTok m1 + e) % 2 ^ 24 * 2 ^ 40) false
                  let d4 := x.write fw (rejected d3) rec_ (leBytes 2 0) 0
                  x.bump fw (x.write fw d4 (rec_ + 40) (leBytes 8 seq) 0) (x.commit + 8) e
          | _, _ => bad d
  | _, _ => bad d

/-- Whether gp0-gp5 keep the limits of R199: rows, the commit array and the hold array in plain pages. -/
def Commit.ok (x : Commit) (fw : Fw) (d : Dev) : Bool :=
  let page := fun (va n : Nat) => match fwRange fw d x.part (Need.own { cls := .plain }) (BitVec.ofNat 64 va) n with
    | .ok _ => true
    | .error _ => false
  decide (1 ≤ x.rows) && decide (x.rows ≤ 4096) && x.commit % 64 == 0 && x.hold % 512 == 0 && page x.commit (64 + 64 * x.rows) && page x.hold 512

/-- HSTATE of a row. -/
def Commit.state (x : Commit) (fw : Fw) (d : Dev) (row : Nat) : Option Nat := (x.read fw d (x.rowmap + 128 * row) 8).map fun bs => rmState (leNat bs)

/-- A COMMIT node's work on the rows below ROWS (R199, R201): an acquire, then parked rows with RETRY, then the rows that are RUN or RELEASED and have
tokens. A row whose row map entry, or the first byte of whose record, cannot be read is not taken (entry 21). -/
def Commit.run (x : Commit) (fw : Fw) (retry : Bool) (d0 : Dev) : Dev :=
  let d := firmAcquire d0
  if !(x.ok fw d) then x.bad fw d x.commit 0xFFFFFFFF
  else
    let d1 := if retry then (upFrom 0 x.rows).foldl (fun d r => if x.state fw d r = some 3 then x.row fw d r else d) d else d
    (upFrom 0 x.rows).foldl (fun d r =>
      if (x.state fw d r = some 0 || x.state fw d r = some 2) && (match x.read fw d (x.commit + 64 + 64 * r) 1 with | some b => leNat b != 0 | none => false)
      then x.row fw d r else d) d1

/-- COMMIT_NODE: Limamon performs a COMMIT node of a running replay (R201); its next node follows. It waits while a page has been moved (R132). -/
def execCommitNode (σ : State) : Host.Outcome State Fault Refusal :=
  event σ fun fw e d =>
    match (d.graph e.q).node with
    | some n => if n.kernel || d.moved then none else some (nextNode fw ((commitOf e.q (d.graph e.q)).run fw n.retry d) e.q)
    | none => none

end Sys2Proof.Machine
end

