-- ==== Sys2Proof/Machine/Kudu.lean ====
section
/-! DEFINITION. The Kudu: copies, gathers, scatters and streams (R281-R287, R134, R148). -/
namespace Sys2Proof.Machine

/-- The Kudu's unit number (R209). -/
def Team.kuduUnit (t : Team) : Nat := 0x500 + t.core

/-! ### Issue -/

/-- Post a Kudu command after the checks of its descriptor address (R287). Its acceptance pins the descriptor's page, or waits to (R131). -/
def kuduIssue (fw : Fw) (kind : KuduKind) (q s h : Nat) (rows : Dev → List (Nat × Int × OSet)) (d : Dev) : Dev :=
  let w : Want := { lane := scalarLane, va := sval d 1 s, len := 128, albl := sorg d 1 s }
  posting fw q d fun d => accesses fw { r := true, e := true, cls := .readout } true false [w] 128 d fun as d1 =>
    match as with
    | [] => d1
    | a :: _ =>
      queueRoom d1 d1.cur.core inKudu 32 8
        (let es := accEnts [a]
         let c : Kudu := { kind, desc := a.va, tgt := a.tgt, h, hw := handleAt d h, lbl := a.albl, rows := rows d }
         finish fw (postOp d1 q (.kudu c) (if canPin d1 es then es else []) false))

/-- KCOPY: copies rows in a five-level loop, or densifies a box of a sparse-tree tensor (R282, R283). -/
def execKcopy (q : BitVec 4) (s : BitVec 6) (h : BitVec 3) (σ : State) : Host.Outcome State Fault Refusal :=
  word (.kcopy q s h) σ fun fw D => kuduIssue fw .copy q.toNat s.toNat h.toNat (fun _ => []) D

/-- The rows of an index register's active lanes (R284). -/
def indexRows (d : Dev) (v : Nat) : List (Nat × Int × OSet) :=
  d.act.map fun l => let x := vread d 2 v l; (l, x.val.toInt, d.cur.org x.lbl)

/-- KGATH: gathers a row for each active lane (R284). -/
def execKgath (q : BitVec 4) (s : BitVec 6) (v : BitVec 7) (σ : State) : Host.Outcome State Fault Refusal :=
  word (.kgath q s v) σ fun fw D => kuduIssue fw .gath q.toNat s.toNat 0 (fun d => indexRows d v.toNat) D

/-- KSCAT: scatters a row for each active lane (R284). -/
def execKscat (q : BitVec 4) (s : BitVec 6) (v : BitVec 7) (σ : State) : Host.Outcome State Fault Refusal :=
  word (.kscat q s v) σ fun fw D => kuduIssue fw .scat q.toNat s.toNat 0 (fun d => indexRows d v.toNat) D

/-- KPOS: asks for the committed position of the oldest live stream of a descriptor (R286). -/
def execKpos (q : BitVec 4) (d : BitVec 6) (a : BitVec 6) (σ : State) : Host.Outcome State Fault Refusal :=
  word (.kpos q d a) σ fun fw D =>
    posting fw q.toNat D fun D => queueRoom D D.cur.core inKudu 32 8 (finish fw (postOp D q.toNat (.kpos d.toNat (sval D 1 a.toNat)) [] false))

/-- A command that KSTOP names: a live copy of the descriptor that is, or may still prove to be, a stream. -/
def stopsFor (va : Dword) (o : Op) : Bool :=
  match o.kind with
  | .kudu c => !o.done && c.kind == .copy && c.desc == va && (c.isStream || c.rd.isNone)
  | _ => false

/-- KSTOP: stops every live stream of a descriptor (R286). -/
def execKstop (q : BitVec 4) (a : BitVec 6) (σ : State) : Host.Outcome State Fault Refusal :=
  word (.kstop q a) σ fun fw D =>
    posting fw q.toNat D fun D => queueRoom D D.cur.core inKudu 32 8
      (let va := sval D 1 a.toNat
       let hit := (D.cur.ops.filter (stopsFor va)).map (·.id)
       let D1 := D.upd fun t => { t with ops := t.ops.map fun o => match o.kind with
         | .kudu c => if hit.contains o.id then { o with kind := .kudu { c with stopping := true } } else o
         | _ => o }
       finish fw (postOp D1 q.toNat (.kstop va hit) [] hit.isEmpty))

/-! ### The descriptor (R281-R284) -/

/-- The fields of a descriptor that keeps R281's limits. -/
def kuduDesc (bs : List Byte) (lbl : OSet) : Option KuduDesc :=
  let f := fieldAt bs
  let cnt := (upFrom 0 4).map fun i => f (32 + 2 * i) 2
  let sgn := fun o => sintOf 32 (f o 4)
  if f 24 4 = 0 || decide (2 ^ 24 < f 24 4) || decide (4 ≤ f 28 2) || f 30 2 != 0 || (cnt.drop 1).any (· == 0) || f 92 36 != 0 then none
  else some { src := BitVec.ofNat 64 (f 0 8), dst := BitVec.ofNat 64 (f 8 8), bar := BitVec.ofNat 64 (f 16 8), len := f 24 4,
              srch := f 28 2 % 2 == 1, rowarr := f 28 2 / 2 == 1, cnt, ss := (upFrom 0 4).map fun i => sgn (40 + 4 * i),
              ds := (upFrom 0 4).map fun i => sgn (56 + 4 * i), org := (upFrom 0 5).map fun i => f (72 + 4 * i) 4, lbl }

/-- Every element from the second on satisfies p. -/
def tailAll {α : Type} (p : α → Bool) (l : List α) : Bool := (l.drop 1).all p

/-- Bytes of a sparse value (R283). -/
def Handle.valBytes (h : Handle) : Nat := if h.vtype = 1 then 2 else 4

/-- Coordinates a SRCH box covers in dimension i. -/
def boxExtent (c : Kudu) (x : KuduDesc) (i : Nat) : Nat :=
  if i + 1 = c.hw.rank then x.len / c.hw.valBytes else nthD 0 x.cnt (c.hw.rank - 2 - i)

/-- Rows or iterations of a command. -/
def kuduTotal (c : Kudu) (x : KuduDesc) : Nat :=
  match c.kind with
  | .copy => x.cnt.foldl (· * ·) 1
  | _ => c.rows.length

/-- The level indices i1 to i4 of iteration n (R282). -/
def levels (cnt : List Nat) (n : Nat) : List Nat :=
  match cnt with
  | [] => []
  | c :: r => n % c :: levels r (n / c)

/-- The sum of indices by strides. -/
def strided (is : List Nat) (ss : List Int) : Int := (is.zip ss).foldl (fun a p => a + (p.1 : Int) * p.2) 0

/-- Source and destination addresses of row n. -/
def rowAddrs (c : Kudu) (x : KuduDesc) (n : Nat) : Dword × Dword :=
  match c.kind with
  | .copy =>
    let is := levels x.cnt n
    (x.src + BitVec.ofInt 64 (strided is x.ss), x.dst + BitVec.ofInt 64 (strided is x.ds))
  | .gath =>
    let v := (nthD (0, 0, 0) c.rows n).2.1
    (x.src + BitVec.ofInt 64 (v * nthD 0 x.ss 0), x.dst + BitVec.ofInt 64 ((n : Int) * nthD 0 x.ds 0))
  | .scat =>
    let v := (nthD (0, 0, 0) c.rows n).2.1
    (x.src + BitVec.ofInt 64 ((n : Int) * nthD 0 x.ss 0), x.dst + BitVec.ofInt 64 (v * nthD 0 x.ds 0))

/-- The label every byte of row n carries besides its source's (R287). -/
def rowLabel (c : Kudu) (x : KuduDesc) (n : Nat) : OSet := c.lbl ||| x.lbl ||| (nthD (0, 0, 0) c.rows n).2.2

/-- Register-window accesses come in whole words (R281): where a row of one side reaches that window, the addresses of that side's rows there, LEN and
its strides are multiples of 4. -/
def regFit (vas : List Dword) (len : Nat) (strides : List Int) : Bool :=
  let there := vas.filter inRegWin
  there.isEmpty || ((there.all fun va => va.toNat % 4 == 0) && len % 4 == 0 && strides.all fun s => s % 4 == 0)

/-- Whether a command performs its descriptor (R281-R284). -/
def kuduValid (scratch : Nat) (c : Kudu) (x : KuduDesc) : Bool :=
  let rows := (upFrom 0 (kuduTotal c x)).map (rowAddrs c x)
  regFit (x.dst :: rows.map (·.2)) x.len x.ds && (x.srch || regFit (x.src :: rows.map (·.1)) x.len x.ss) &&
  (!x.rowarr || (inScratch x.bar && x.bar.toNat % 8 == 0 && decide (x.bar.toNat - 0xFFFFF00000000000 + 8 ≤ scratch))) &&
  (match c.kind with
    | .copy =>
      if x.srch then
        c.hw.ok && c.hw.type == 3 && x.src == 0 && x.ss.all (· == 0) && x.len % c.hw.valBytes == 0 &&
        ((x.cnt.drop (c.hw.rank - 1)).all (· == 1)) && nthD 0 x.cnt 0 != 0 &&
        ((upFrom 0 c.hw.rank).all fun i => decide (nthD 0 x.org i + boxExtent c x i ≤ c.hw.bound i))
      else c.h == 0 && nthD 0 x.cnt 0 != 0
    | _ => !x.srch && tailAll (· == 1) x.cnt && tailAll (· == 0) x.ss && tailAll (· == 0) x.ds)

/-- What the source and the destination need of their pages. R282 has merge pages refuse byte transfers as R88 does, whose table accepts them on
plain pages; R98 has them accept Kudu reads and refuse writes, which is followed (entry 46). -/
def kuduSrcNeed : Need := { r := true, e := true }
def kuduDstNeed (x : KuduDesc) : Need := { w := true, e := true, cls := if x.srch then .plain else .bytes }

/-- What a command's rows reach as the pages stand now: pieces of source and destination, the label of what they will write, and the first page
of each side that has no translation. -/
structure Reach where
  src : List Piece := []
  dst : List Piece := []
  lbl : OSet := 0
  noSrc : Option (Dword × Nat) := none
  noDst : Option (Dword × Nat) := none
deriving DecidableEq, Repr

/-- The page a range misses. -/
def missOf (r : Except EStop (List Piece)) : Option (Dword × Nat) := match r with | .error (.missing va x) => some (va, x) | _ => none

/-- The set of a piece as its bytes are read. -/
def Piece.set (d : Dev) (o : Op) (p : Piece) : OSet := match p.tgt with | .mem _ e _ => (d.frame e).cur | _ => joinOf (readPiece d o p)

def kuduReach (fw : Fw) (d : Dev) (o : Op) (c : Kudu) (x : KuduDesc) : Reach :=
  (upFrom 0 (kuduTotal c x)).foldl (fun a n =>
    let s : Except EStop (List Piece) := if x.srch then .ok [] else (engineRange fw kuduSrcNeed true (rowAddrs c x n).1 x.len d).1
    let t := (engineRange fw (kuduDstNeed x) true (rowAddrs c x n).2 x.len d).1
    let ps := s.toOption.getD []
    { src := a.src ++ ps, dst := a.dst ++ t.toOption.getD [], lbl := ps.foldl (fun l p => l ||| p.set d o) (a.lbl ||| rowLabel c x n),
      noSrc := match a.noSrc with | some y => some y | none => missOf s,
      noDst := match a.noDst with | some y => some y | none => missOf t }) {}

/-- The page whose translation the Lodge's test at the start must wait for (R356): where what is written may reach host memory and may carry an
origin, the test covers every row or none. -/
def Reach.awaits (r : Reach) (set : OSet) : Option (Dword × Nat) :=
  if !(r.dst.any Piece.host) && r.noDst.isNone then none
  else match r.noSrc with
    | some y => some y
    | none => if set = 0 then none else r.noDst

/-- Replace the command of operation n. -/
def setKudu (d : Dev) (n : Nat) (c : Kudu) : Dev := d.setKind n (.kudu c)

/-- A save of the team has begun to drain (R227): at its LIVE point, or, a full one, between positions outside a run. -/
def Team.atSave (t : Team) : Bool := match t.save with | some .atPoint => true | some .full => t.between | _ => false

/-- A command with a descriptor begins, or goes on with a descriptor read again: the Lodge tests it once, and it pins the pages it reaches. -/
def kuduBegin (fw : Fw) (o : Op) (c : Kudu) (x : KuduDesc) (desc : List Piece) (d : Dev) : Option Dev :=
  let r := kuduReach fw d o c x
  let set := if x.srch then r.lbl ||| tensorLabel fw d d.cur.part c.hw.base ||| c.hw.lbl else r.lbl
  match if c.tested then none else r.awaits set with
  | some y => some (setKudu d o.id { c with rd := some x, fault := some y })
  | none =>
    match (if c.tested then some c.under else lodgePieces fw d r.dst set) with
    | none => some (finishOp (egressRefused fw d x.dst.toNat (x.len * kuduTotal c x) set) o.id true)
    | some under =>
      (pinOp d o.id (pieceEnts (desc ++ r.src ++ r.dst))).map fun d1 =>
        let draining := (match d.cur.wait with | .trap _ => true | _ => false) || d.cur.atSave
        setKudu (notePieces d1 desc) o.id
          { c with rd := some x, stale := false, tested := true, under, resumable := false, stopping := c.stopping && !x.srch,
                   suspended := draining && c.kind == .copy && !x.srch }

/-- The STREAM-FAULT record (R134, R225). -/
def streamRecord (fw : Fw) (d : Dev) (c : Kudu) (va : Dword) (reason : Nat) : Dev :=
  teamFault fw d d.cur.kuduUnit 0x14 0 va.toNat c.committed (reason * 16) 0

/-- How a command reads its descriptor: as of its issue (R142); a stream that resumes, with what its team has stored since (R285). -/
def Kudu.reader (c : Kudu) (t : Team) (o : Op) : Op := if c.isStream || c.kind == .copy && c.tested then { o with id := t.nextOp, bound := t.bound } else o

/-- The first step of a command: it reads its descriptor where its page lies now; none while it must wait. -/
def kuduStart (fw : Fw) (o : Op) (c : Kudu) (d : Dev) : Option Dev :=
  match engineRange fw { r := true, e := true, cls := .readout } false c.desc 128 d with
  | (.error .bound, d1) => some (finishOp d1 o.id true)
  | (.error (.refused va r _), d1) => some (finishOp (streamRecord fw d1 c va r) o.id true)
  | (.error (.missing va r), d1) => some (setKudu d1 o.id { c with fault := some (va, r) })
  | (.ok desc, d1) =>
    if !(desc.all fun p => d1.cur.writesDone o.id p.tgt p.len) then none
    else if desc.any (badPiece d1) then some (finishOp (uncRecord fw d1 d1.cur.kuduUnit desc) o.id true)
    else
      let bs := readPieces d1 (c.reader d1.cur o) desc
      match kuduDesc (bs.map (·.1)) (joinOf bs) with
      | none => some (finishOp d1 o.id true)
      | some x => if kuduValid d1.cur.decl.scratch c x then kuduBegin fw o c x desc d1 else some (finishOp d1 o.id true)

/-! ### Rows -/

/-- Advance the committed position over the rows performed (R282, R285); `k` more rows may be passed. -/
def advance (perf : List Nat) : Nat → Nat → Nat
  | 0, c => c
  | k + 1, c => if perf.contains c then advance perf k (c + 1) else c

/-- Row n has been performed: positions move, and each row newly committed arrives at the barrier (R148). -/
def rowDone (o : Op) (c : Kudu) (x : KuduDesc) (n : Nat) (w : Wrote) : Dev :=
  let perf := n :: c.perf
  let com := advance perf perf.length c.committed
  let c1 := { c with committed := com, spec := max c.spec (n + 1), perf := perf.filter fun m => decide (com ≤ m),
                     full := match w.full with | some s => some s | none => c.full }
  let d1 := setKudu w.dev o.id c1
  let d2 := if w.err then d1.setErr o.id else d1
  if x.rowarr then
    (upFrom 0 (com - c.committed)).foldl (fun d _ => d.updR fun r => arrive r 0 (x.bar.toNat - 0xFFFFF00000000000)) d2
  else d2

/-- Row n ends the command in error (R281, R102, R105, R134). -/
def rowDead (d : Dev) (o : Op) (c : Kudu) (n : Nat) : Dev :=
  (setKudu d o.id { c with dead := n :: c.dead, spec := max c.spec (n + 1) }).setErr o.id

/-- Row n meets a stop: a window's end, a refusal, or a missing translation, which Limamon may resolve (R281, R130, R134). -/
def rowStop (fw : Fw) (d : Dev) (o : Op) (c : Kudu) (n : Nat) : EStop → Dev
  | .bound => rowDead d o c n
  | .refused va r _ => rowDead (streamRecord fw d c va r) o c n
  | .missing va r => setKudu d o.id { c with fault := some (va, r), spec := max c.spec (n + 1) }

/-- Whether byte a of row n's destination was already written by a row of a higher lane (R284). -/
def coveredByHigher (c : Kudu) (x : KuduDesc) (n : Nat) (a : Nat) : Bool :=
  c.kind != .copy && c.perf.any fun m => decide (n < m) && (let t := (rowAddrs c x m).2.toNat; decide (t ≤ a) && decide (a < t + x.len))

/-- Split a piece into the runs of bytes that are to be written. -/
def uncovered (c : Kudu) (x : KuduDesc) (n : Nat) (p : Piece) : List Piece :=
  if !((upFrom p.va.toNat p.len).any (coveredByHigher c x n)) then [p]
  else ((upFrom 0 p.len).filter fun i => !(coveredByHigher c x n (p.va.toNat + i))).map fun i =>
    { p with off := p.off + i, va := p.va + BitVec.ofNat 64 i, len := 1,
             tgt := match p.tgt with
               | .mem pa e k => .mem (pa + i) e k
               | .scr h o => .scr h (o + i)
               | .reg r l b => .reg r l (b + i) }

/-- In the register window whole words are covered or not. -/
def uncoveredWords (c : Kudu) (x : KuduDesc) (n : Nat) (lanes : Nat) (p : Piece) : List Piece :=
  match p.tgt with
  | .reg r l b =>
    ((upFrom 0 (p.len / 4)).filter fun i => !(coveredByHigher c x n (p.va.toNat + 4 * i))).map fun i =>
      let a := ((r * lanes + l) * 4 + b) / 4 + i
      { p with off := p.off + 4 * i, va := p.va + BitVec.ofNat 64 (4 * i), len := 4, tgt := .reg (a / lanes) (a % lanes) 0 }
  | _ => uncovered c x n p

/-- The bytes of row n, or why there are none yet: read from the source, or gathered from the leaves (R282-R284, R122). -/
inductive RowRead where
  | bytes (bs : List (Byte × OSet)) (src : List Piece)
  | stop (e : EStop)
  | unc (src : List Piece)
  | leaf (shard key : Nat)
deriving DecidableEq, Repr

/-- What the leaves read so far say of a key of a shard; none when no leaf answers for it. -/
def Kudu.valueOf (c : Kudu) (shard key : Nat) : Option Nat :=
  (c.leaves.find? fun l => l.1 == shard && decide (l.2.1 ≤ key) && decide (key < l.2.2.1)).map fun l =>
    ((l.2.2.2.find? fun p => p.1 == key).map (·.2)).getD 0

/-- The keys of row n of a sparse box, in the order of its elements (R283). -/
def boxKeys (c : Kudu) (x : KuduDesc) (n : Nat) : List Nat :=
  let is := levels x.cnt n
  let k := c.hw.rank
  let lead := (upFrom 0 (k - 1)).map fun i => nthD 0 x.org i + nthD 0 is (k - 2 - i)
  (upFrom 0 (x.len / c.hw.valBytes)).map fun j => c.hw.pack (lead ++ [nthD 0 x.org (k - 1) + j])

/-- Row n of a sparse box: the values of its keys, or the first key whose leaf is still to be read (R122). -/
def boxRow (fw : Fw) (d : Dev) (c : Kudu) (x : KuduDesc) (n : Nat) : RowRead :=
  let lab := rowLabel c x n ||| tensorLabel fw d d.cur.part c.hw.base ||| c.hw.lbl
  (boxKeys c x n).foldl (fun acc key =>
    match acc with
    | .bytes bs src => match c.valueOf (shardOf c.hw.shards key) key with
      | some v => .bytes (bs ++ (leBytes c.hw.valBytes v).map fun b => (b, lab)) src
      | none => .leaf (shardOf c.hw.shards key) key
    | e => e) (.bytes [] [])

/-- Read row n. -/
def rowRead (fw : Fw) (d : Dev) (o : Op) (c : Kudu) (x : KuduDesc) (n : Nat) : RowRead × Dev :=
  if x.srch then (boxRow fw d c x n, d)
  else
    match engineRange fw kuduSrcNeed true (rowAddrs c x n).1 x.len d with
    | (.error e, d1) => (.stop e, d1)
    | (.ok src, d1) =>
      if src.any (badPiece d1) then (.unc src, d1)
      else (.bytes ((readPieces d1 o src).map fun b => (b.1, b.2 ||| rowLabel c x n)) src, d1)

/-- The leaf of a key is read by one Arbor operation, which takes its turn in the slice's queue; the pages it reaches are pinned (R122, R131, R160). -/
def leafRead (fw : Fw) (o : Op) (c : Kudu) (n shard key : Nat) (d : Dev) : Option Dev :=
  let t := c.hw.tree d.cur.part shard
  let path := arborPath fw d t key
  if arborFull fw d c.hw.base [shard] then none
  else match arborLeaf fw d t key with
    | .error .wait => none
    | .error (.gone va r) => some (rowStop fw d o c n (.missing (BitVec.ofNat 64 va) r))
    | .error (.unc pa va k) => some (rowDead (arborUnc fw d pa va k) o c n)
    | .error _ => some (rowDead d o c n)
    | .ok l =>
      (pinOp d o.id (path.filterMap fun v => (arborXl fw d t.part false v.1 v.2).toOption.map (·.ent)).eraseDups).map fun d1 =>
        setKudu (arborNote fw t path d1) o.id { c with leaves := (shard, l) :: c.leaves, spec := max c.spec (n + 1) }

/-- The entries of the pages that leaves of a sparse source lie in, as they stand (R122, R131). -/
def boxEnts (fw : Fw) (d : Dev) (c : Kudu) (x : KuduDesc) : List Nat :=
  ((upFrom 0 (kuduTotal c x)).flatMap (boxKeys c x)).flatMap fun key =>
    let t := c.hw.tree d.cur.part (shardOf c.hw.shards key)
    (arborPath fw d t key).filterMap fun v => (arborXl fw d t.part false v.1 v.2).toOption.map (·.ent)

/-- The entries of the pages that an accepted command of the acting team reaches, by its descriptor as it stands: they do not move (R131). -/
def kuduEnts (fw : Fw) (d : Dev) (o : Op) (c : Kudu) : List Nat :=
  let desc := (engineRange fw (Need.own { r := true, e := true, cls := .readout }) false c.desc 128 d).1.toOption.getD []
  let bs := readPieces d o desc
  match c.rd.orElse fun _ => kuduDesc (bs.map (·.1)) (joinOf bs) with
  | none => pieceEnts desc
  | some x => let r := kuduReach fw d o c x; pieceEnts (desc ++ r.src ++ r.dst) ++ if x.srch then boxEnts fw d c x else []

/-- Earlier writes of the team to the bytes a row reads have been performed (R141). -/
def rowReady (d : Dev) (o : Op) (src : List Piece) : Bool := src.all fun p => d.cur.writesDone o.id p.tgt p.len

/-- Whether row n may be performed now: no earlier iteration of a copy still to be performed reads what it writes (R282); gathered and scattered rows
go in any order (R284). -/
def rowFree (c : Kudu) (x : KuduDesc) (n : Nat) : Bool :=
  let t := (rowAddrs c x n).2.toNat
  c.kind != .copy || (upFrom c.committed (n - c.committed)).all fun m =>
    c.perf.contains m || c.dead.contains m || x.srch ||
      (let s := (rowAddrs c x m).1.toNat; !(decide (s < t + x.len) && decide (t < s + x.len)))

/-- Write row n, whose bytes have been read. -/
def rowWrite (fw : Fw) (o : Op) (c : Kudu) (x : KuduDesc) (n : Nat) (bs : List (Byte × OSet)) (src : List Piece) (d1 : Dev) : Option Dev :=
  match engineRange fw (kuduDstNeed x) true (rowAddrs c x n).2 x.len d1 with
  | (.error e, d2) => some (rowStop fw d2 o c n e)
  | (.ok dst, d2) =>
    (pinOp d2 o.id (pieceEnts (src ++ dst))).map fun d3 =>
      let (w, refused) := writePieces fw d1.cur.kuduUnit o bs (dst.flatMap (uncoveredWords c x n d1.cur.lanes)) { dev := notePieces d3 src }
      let c1 := { c with full := match w.full with | some s => some s | none => c.full }
      if refused then rowDead w.dev o { c1 with cut := true } n else rowDone o c1 x n w

/-- Perform row n; none while it must wait. -/
def kuduRow (fw : Fw) (o : Op) (c : Kudu) (x : KuduDesc) (n : Nat) (d : Dev) : Option Dev :=
  match rowRead fw d o c x n with
  | (.stop e, d1) => some (rowStop fw d1 o c n e)
  | (.unc src, d1) => some (rowDead (uncRecord fw d1 d.cur.kuduUnit src) o c n)
  | (.leaf shard key, d1) => leafRead fw o c n shard key d1
  | (.bytes bs src, d1) => if rowReady d1 o src then rowWrite fw o c x n bs src d1 else none

/-- Whether a command issues row n: rows already issued go on after a stop (R281, R286). -/
def rowOpen (c : Kudu) (x : KuduDesc) (n : Nat) : Bool :=
  decide (n < kuduTotal c x) && decide (c.committed ≤ n) && !(c.perf.contains n) && !(c.dead.contains n) && c.fault.isNone &&
  !c.suspended && !c.cut && (decide (n < c.spec) || (!c.stopping && c.dead.isEmpty))

/-- KUDU_ITERATION: a command reads its descriptor, then performs iteration or row n (R282-R285). -/
def execKuduIteration (σ : State) : Host.Outcome State Fault Refusal :=
  opEvent σ fun fw e o d =>
    match o.kind with
    | .kudu c =>
      if c.suspended || c.fault.isSome || !c.dead.isEmpty && c.stale then none
      else if c.stale then kuduStart fw o c d
      else match c.rd with
        | none => none
        | some x => if rowOpen c x e.n && rowFree c x e.n then kuduRow fw o c x e.n d else none
    | _ => none

/-- Every row issued has been performed or has ended in error. -/
def Kudu.settled (c : Kudu) : Bool :=
  (upFrom c.committed (c.spec - c.committed)).all fun m => c.perf.contains m || c.dead.contains m

/-- Whether a command is finished: all rows performed, a stop in error settled, or a stream ended by KSTOP (R281, R285, R286). -/
def Kudu.finished (c : Kudu) : Bool :=
  match c.rd with
  | none => !c.dead.isEmpty
  | some x => (decide (kuduTotal c x ≤ c.committed) && !c.stale) || (!c.dead.isEmpty && (c.cut || c.settled)) || (c.stopping && (c.suspended || (c.committed == c.spec && c.fault.isNone)))

/-- The streams KSTOP named have ended, or proved to be no streams. -/
def stopDone (t : Team) (ids : List Nat) : Bool :=
  t.ops.all fun o => !(ids.contains o.id) || o.done || (match o.kind with | .kudu c => c.rd.isSome && !c.isStream | _ => true)

/-- The COMMITTED that KPOS returns (R286); none while an earlier command of the descriptor has not read it. -/
def posOf (t : Team) (n : Nat) (va : Dword) : Option Dword :=
  match t.ops.find? fun o => decide (o.id < n) && stopsFor va o with
  | none => some 0xFFFFFFFFFFFFFFFF
  | some o => match o.kind with
    | .kudu c => if c.rd.isNone then none else some (BitVec.ofNat 64 c.committed)
    | _ => none

/-- KUDU_COMMAND_COMPLETE: a Kudu command's token completes (R282-R286). -/
def execKuduCommandComplete (σ : State) : Host.Outcome State Fault Refusal :=
  opEvent σ fun fw _ o d =>
    match o.kind with
    | .kudu c =>
      if !c.finished then none
      else
        let all := allLanes d.cur.lanes
        some (endOp fw d o (!c.dead.isEmpty) (match c.full with | some s => [{ code := 0x0C, k14 := all, ti0 := s.toNat }] | none => []))
    | .kpos sd va =>
      match posOf d.cur o.id va with
      | none => none
      | some v => let (d1, cs) := landScalar d o sd v 0; some (endOp fw d1 o false cs)
    | .kstop _ ids => if stopDone d.cur ids then some (finishOp d o.id false) else none
    | _ => none

/-- STREAM_RESUME: a stream whose fault Limamon has resolved goes on at its committed position (R285, R134). -/
def execStreamResume (σ : State) : Host.Outcome State Fault Refusal :=
  opEvent σ fun _ _ o d =>
    match o.kind with
    | .kudu c =>
      if c.fault.isSome && c.resumable then
        some (setKudu d o.id { c with fault := none, resumable := false, stale := true, perf := [], spec := c.again })
      else none
    | _ => none

end Sys2Proof.Machine
end

