-- ==== Sys2Proof/Machine/Flags.lean ====
section
/-! DEFINITION. Condition codes: every computation the manual gives (R67, R236, R250, R251). -/
namespace Sys2Proof.Machine

/-- Whether a branch condition holds (R236). -/
def condHolds (c : Cond) (f : CC) : Bool :=
  match c with
  | .eq => f.z
  | .ne => !f.z
  | .lt => f.n != f.v
  | .ge => f.n == f.v
  | .le => f.z || f.n != f.v
  | .gt => !f.z && f.n == f.v
  | .lo => !f.c
  | .hs => f.c
  | .ls => !f.c || f.z
  | .hi => f.c && !f.z
  | .mi => f.n
  | .pl => !f.n
  | .os => f.v
  | .oc => !f.v
  | .al => true

/-- Z and N of a result, with C and V given (R250). -/
def ccOf (r : Dword) (c v : Bool) : CC := { z := r == 0, n := r.msb, c, v }

/-- Flags of an addition: carry out of bit 63 and signed overflow. -/
def ccAdd (a b : Dword) : CC := ccOf (a + b) (decide (2 ^ 64 ≤ a.toNat + b.toNat)) (a.msb == b.msb && (a + b).msb != a.msb)

/-- Flags of a subtraction: C when no borrow occurs, V on signed overflow. -/
def ccSub (a b : Dword) : CC := ccOf (a - b) (decide (b.toNat ≤ a.toNat)) (a.msb != b.msb && (a - b).msb != a.msb)

/-- Flags of SMUL: V when the signed product lies outside 64 bits. -/
def ccMul (a b : Dword) : CC :=
  let p := a.toInt * b.toInt
  ccOf (a * b) false (!(decide (-(2 ^ 63) ≤ p) && decide (p < 2 ^ 63)))

/-- Flags of the logical, shift, minimum and counting forms: C and V clear. -/
def ccLogic (r : Dword) : CC := ccOf r false false

end Sys2Proof.Machine
end

