-- ==== Sys2Proof/Machine/Control.lean ====
section
/-! DEFINITION. Control flow: delays, branches, calls, EXIT, traps and returns (R247-R249, R323, R324). -/
namespace Sys2Proof.Machine

/-- A register target (R231, R249): misaligned, it traps with nothing written; else `k` goes on. -/
def regTarget (fw : Fw) (d : Dev) (t : Dword) (k : Dev) : Dev := if t.toNat % 4 ≠ 0 then trapIssue fw d 6 d.k0 t.toNat 0 else k

/-- The link (R66): s62 takes the address after this word, with the empty label. -/
def setLink (d : Dev) : Dev := d.upd fun t => t.sset 62 { val := t.pc + 4, lbl := 0 } 1

/-- DLY (R247): n positions; the team is not ready for the cycles after its own. -/
def delay (fw : Fw) (n : Nat) (d : Dev) : Dev :=
  let d1 := finishN fw n d
  if n ≤ 1 then d1 else match d1.cur.wait with
    | .ready => d1.upd fun t => { t with wait := .dly d.time.toNat n }
    | _ => d1

/-- EXIT (R36): the team stops issuing until every token has drained; its suspended streams run to completion, and its open session ends
(R178). -/
def exitTeam (d : Dev) : Dev := (waitAt (.exit 0 none) d).upd fun t => { t with ops := t.ops.map resumeOp, sessions := t.closed }

/-- A pair-link exchange (R20): a paired team is held at its position until both halves have met there. -/
def pairHold (d : Dev) (k : Dev) : Dev := if d.cur.paired && !d.cur.met then (stall d 12).upd fun t => { t with wait := .pair } else k

/-- NOP: one position, nothing changes (R247). -/
def execNop (σ : State) : Host.Outcome State Fault Refusal :=
  word (.nop) σ fun fw D => finish fw D

/-- DLY: n positions (R247). -/
def execDly (n : BitVec 8) (σ : State) : Host.Outcome State Fault Refusal :=
  word (.dly n) σ fun fw D => delay fw n.toNat D

/-- BR: PC-relative jump (R248). -/
def execBr (o : BitVec 26) (σ : State) : Host.Outcome State Fault Refusal :=
  word (.br o) σ fun fw D => jumpTo fw (relTarget D o.toNat 26) D

/-- BCC: taken when the condition of R236 holds (R248). -/
def execBcc (c : Cond) (o : BitVec 22) (σ : State) : Host.Outcome State Fault Refusal :=
  word (.bcc c o) σ fun fw D => if condHolds c (ccread D) then jumpTo fw (relTarget D o.toNat 22) D else finish fw D

/-- The branch on a mask's summary (R248), after the exchange of a paired team. -/
def maskBranch (fw : Fw) (k o : Nat) (onZero : Bool) (d : Dev) : Dev :=
  if kempty d 1 k == onZero then jumpTo fw (relTarget d o 21) d else finish fw d

/-- BKZ: taken when the mask is empty (R248). -/
def execBkz (k : BitVec 4) (o : BitVec 21) (σ : State) : Host.Outcome State Fault Refusal :=
  word (.bkz k o) σ fun fw D => pairHold D (maskBranch fw k.toNat o.toNat true D)

/-- BKNZ: taken when the mask is not empty (R248). -/
def execBknz (k : BitVec 4) (o : BitVec 21) (σ : State) : Host.Outcome State Fault Refusal :=
  word (.bknz k o) σ fun fw D => pairHold D (maskBranch fw k.toNat o.toNat false D)

/-- CALL: link in s62, PC-relative jump (R248). -/
def execCall (o : BitVec 26) (σ : State) : Host.Outcome State Fault Refusal :=
  word (.call o) σ fun fw D => jumpTo fw (relTarget D o.toNat 26) (setLink D)

/-- RET: PC := s62 (R249). -/
def execRet (σ : State) : Host.Outcome State Fault Refusal :=
  word (.ret) σ fun fw D => let t := sval D 1 62; regTarget fw D t (jumpTo fw t D)

/-- JMPR: PC := sa (R249). -/
def execJmpr (a : BitVec 6) (σ : State) : Host.Outcome State Fault Refusal :=
  word (.jmpr a) σ fun fw D => let t := sval D 1 a.toNat; regTarget fw D t (jumpTo fw t D)

/-- CALLR: reads sa, writes the link, jumps (R249). -/
def execCallr (a : BitVec 6) (σ : State) : Host.Outcome State Fault Refusal :=
  word (.callr a) σ fun fw D => let t := sval D 1 a.toNat; regTarget fw D t (jumpTo fw t (setLink D))

/-- EXIT: ends the team (R36). -/
def execExit (σ : State) : Host.Outcome State Fault Refusal :=
  word (.exit) σ fun fw D => (fun _ => exitTeam D) fw

/-- TRAP: cause 0x03, TINFO0 the widened code, TPC the next position (R323, R220); the word occupies its own (R21). -/
def execTrap (c : BitVec 16) (σ : State) : Host.Outcome State Fault Refusal :=
  word (.trap c) σ fun fw D => raiseTrap fw (D.upd fun t => t.goto (t.pc + 4) 1) { cause := 3, tpc := D.cur.pc + 4, k14 := D.k0, ti0 := immZ D c.toNat 16, ti1 := 0 }

/-- BRK: cause 0x02 when BPEN is set, else NOP (R323, R221). -/
def execBrk (σ : State) : Host.Outcome State Fault Refusal :=
  word (.brk) σ fun fw D => if specRead D 0x20 D.cur.sp.dbgctl.toNat / 2 % 2 = 1 then trapIssue fw D 2 D.k0 0 0 else finish fw D

/-- RETH: returns from a trap (R223, R324); illegal with HANDLING clear. -/
def execReth (σ : State) : Host.Outcome State Fault Refusal :=
  word (.reth) σ fun fw D => if D.cur.sp.handling then returnTrap D (BitVec.ofNat 64 (specRead D 0x11 D.cur.sp.tpc.toNat)) (kread D 1 15) else trapIllegal fw D (wordOf .reth) 0

end Sys2Proof.Machine
end

