-- ==== Sys2Proof/Machine/CrossLane.lean ====
section
/-! DEFINITION. Cross-lane operations (R266-R269). -/
namespace Sys2Proof.Machine

/-- Lanes of the group of lane l (R10). -/
def groupLanes (w l : Nat) : List Nat := upFrom (w * (l / w)) w

/-- One Kogge-Stone step at distance s (R63). -/
def ksStep (op : Nat → Nat → Nat) (s : Nat) (x : List Nat) : List Nat :=
  (x.zip (upFrom 0 x.length)).map fun p => if s ≤ p.2 then op p.1 (nthD 0 x (p.2 - s)) else p.1

/-- Steps at distances s, 2s, 4s, … below the length; n bounds their number. -/
def ksGo (op : Nat → Nat → Nat) : Nat → Nat → List Nat → List Nat
  | 0, _, x => x
  | n + 1, s, x => if s < x.length then ksGo op n (2 * s) (ksStep op s x) else x

/-- ksscan (R63): inclusive prefixes. -/
def ksScan (op : Nat → Nat → Nat) (x : List Nat) : List Nat := ksGo op 7 1 x

/-- Values of a group entering a scan: inactive lanes take the identity (R64). -/
def groupVals (d : Dev) (slot v l ident : Nat) : List Nat :=
  (groupLanes d.cur.decl.group l).map fun i => if d.k0.getLsbD i then (vread d slot v i).val.toNat else ident

/-- Join of the labels of the active lanes of a group that p selects. -/
def groupLabel (d : Dev) (slot v l : Nat) (p : Nat → Bool) : OSet :=
  ((groupLanes d.cur.decl.group l).filter fun i => d.k0.getLsbD i && p i).foldl (fun s i => s ||| d.cur.org (vread d slot v i).lbl) 0

/-- The latency of group scans and reductions (R241). -/
def scanLat (w : Nat) : Nat := if w = 8 then 12 else if w = 16 then 14 else if w = 32 then 16 else 18

/-- The default NaN in place of any NaN (R41). -/
def canonNan (x : Nat) : Nat := if fpIsNan 24 x then fpNan 24 else x

/-- SCANF's prefixes: a NaN that no addition has met is the default NaN too (R41). -/
def scanF (op : Nat → Nat → Nat) (xs : List Nat) : List Nat := (ksScan op xs).map canonNan

/-- A scan (R268): each active lane takes the prefix at its own index. -/
def scanOp (fw : Fw) (n : Bool) (vd va : Nat) (ident : Nat) (scan : List Nat → List Nat) (d : Dev) : Dev :=
  let w := d.cur.decl.group
  let rs := d.act.map fun l => (l, BitVec.ofNat 32 (nthD 0 (scan (groupVals d 1 va l ident)) (l % w)), groupLabel d 1 va l fun i => decide (i ≤ l))
  putLanes fw d (scanLat w) vd (!n) true rs fun d' => finishV fw d.k0 (noteLatch d [va] d')

/-- A reduction (R268): each active lane takes the prefix at index W - 1. -/
def reduceOp (fw : Fw) (n : Bool) (vd va : Nat) (ident : Nat) (op : Nat → Nat → Nat) (d : Dev) : Dev :=
  let w := d.cur.decl.group
  let rs := d.act.map fun l => (l, BitVec.ofNat 32 (nthD 0 (ksScan op (groupVals d 1 va l ident)) (w - 1)), groupLabel d 1 va l fun _ => true)
  putLanes fw d (scanLat w) vd (!n) true rs fun d' => finishV fw d.k0 (noteLatch d [va] d')

/-- REDMAXF and REDMINF (R268, R42): a group of NaNs yields the default NaN, an inactive lane of it its infinity (R64). -/
def reduceF (fw : Fw) (n : Bool) (vd va : Nat) (mx : Bool) (d : Dev) : Dev :=
  reduceOp fw n vd va (if mx then 0xFF800000 else 0x7F800000) (fpMinMax 24 mx) d

/-- A shuffle (R267): the source lane of lane l from its operand; the lane keeps its own where there is none. -/
def shuffleOp (fw : Fw) (n : Bool) (vd va vb : Nat) (src : Nat → Nat → Nat → Nat) (d : Dev) : Dev :=
  let w := d.cur.decl.group
  let rs := d.act.map fun l =>
    let x := vread d 2 vb l
    let y := vread d 1 va (src w l x.val.toNat)
    (l, y.val, d.cur.org y.lbl ||| d.cur.org x.lbl)
  putLanes fw d 4 vd (!n) true rs fun d' => finishV fw d.k0 (noteLatch d [va, vb] d')

/-- CNFL's result for lane l (R269). -/
def cnflVal (d : Dev) (va l : Nat) : Nat :=
  let w := d.cur.decl.group
  let x := (vread d 1 va l).val
  let same := (groupLanes w l).filter fun i => d.k0.getLsbD i && (vread d 1 va i).val == x
  (match same with | [] => 0 | f :: _ => f % w) * 65536 + same.length * 256 + (same.filter fun i => decide (i < l)).length

/-- SHFL: lane g + (d mod W) (R267). -/
def execShfl (n : Bool) (d : BitVec 7) (a : BitVec 7) (b : BitVec 7) (σ : State) : Host.Outcome State Fault Refusal :=
  word (.shfl n d a b) σ fun fw D => shuffleOp fw n d.toNat a.toNat b.toNat (fun w l x => w * (l / w) + x % w) D

/-- SHFLX: lane g + (i XOR (d mod W)) (R267). -/
def execShflx (n : Bool) (d : BitVec 7) (a : BitVec 7) (b : BitVec 7) (σ : State) : Host.Outcome State Fault Refusal :=
  word (.shflx n d a b) σ fun fw D => shuffleOp fw n d.toNat a.toNat b.toNat (fun w l x => w * (l / w) + ((l % w) ^^^ (x % w))) D

/-- SHFLU: lane l - d, or its own (R267). -/
def execShflu (n : Bool) (d : BitVec 7) (a : BitVec 7) (b : BitVec 7) (σ : State) : Host.Outcome State Fault Refusal :=
  word (.shflu n d a b) σ fun fw D => shuffleOp fw n d.toNat a.toNat b.toNat (fun w l x => if l % w < x then l else l - x) D

/-- SHFLD: lane l + d, or its own (R267). -/
def execShfld (n : Bool) (d : BitVec 7) (a : BitVec 7) (b : BitVec 7) (σ : State) : Host.Outcome State Fault Refusal :=
  word (.shfld n d a b) σ fun fw D => shuffleOp fw n d.toNat a.toNat b.toNat (fun w l x => if w ≤ l % w + x then l else l + x) D

/-- SCANI: inclusive integer prefix (R268). -/
def execScani (n : Bool) (d : BitVec 7) (a : BitVec 7) (σ : State) : Host.Outcome State Fault Refusal :=
  word (.scani n d a) σ fun fw D => scanOp fw n d.toNat a.toNat 0 (ksScan fun x y => (x + y) % 4294967296) D

/-- SCANF: inclusive FP32 prefix (R268). -/
def execScanf (n : Bool) (d : BitVec 7) (a : BitVec 7) (σ : State) : Host.Outcome State Fault Refusal :=
  word (.scanf n d a) σ fun fw D => scanOp fw n d.toNat a.toNat 0x80000000 (scanF (fpAdd 24 D.rnd)) D

/-- REDI: integer sum of the group (R268). -/
def execRedi (n : Bool) (d : BitVec 7) (a : BitVec 7) (σ : State) : Host.Outcome State Fault Refusal :=
  word (.redi n d a) σ fun fw D => reduceOp fw n d.toNat a.toNat 0 (fun x y => (x + y) % 4294967296) D

/-- REDF: FP32 sum of the group (R268). -/
def execRedf (n : Bool) (d : BitVec 7) (a : BitVec 7) (σ : State) : Host.Outcome State Fault Refusal :=
  word (.redf n d a) σ fun fw D => reduceOp fw n d.toNat a.toNat 0x80000000 (fpAdd 24 D.rnd) D

/-- REDMAXF: largest of the group (R268). -/
def execRedmaxf (n : Bool) (d : BitVec 7) (a : BitVec 7) (σ : State) : Host.Outcome State Fault Refusal :=
  word (.redmaxf n d a) σ fun fw D => reduceF fw n d.toNat a.toNat true D

/-- REDMINF: smallest of the group (R268). -/
def execRedminf (n : Bool) (d : BitVec 7) (a : BitVec 7) (σ : State) : Host.Outcome State Fault Refusal :=
  word (.redminf n d a) σ fun fw D => reduceF fw n d.toNat a.toNat false D

/-- CNFL: leader, count and rank of equal lanes (R269). -/
def execCnfl (n : Bool) (d : BitVec 7) (a : BitVec 7) (σ : State) : Host.Outcome State Fault Refusal :=
  word (.cnfl n d a) σ fun fw D => let rs := D.act.map fun l => (l, BitVec.ofNat 32 (cnflVal D a.toNat l), groupLabel D 1 a.toNat l fun _ => true); putLanes fw D 6 d.toNat (!n) true rs fun D1 => finishV fw D.k0 (noteLatch D [a.toNat] D1)

end Sys2Proof.Machine
end

