-- ==== Sys2Proof/Machine/Select.lean ====
section
/-! DEFINITION. Selection: SAMPLE, TOPK, MERGEK, RNGU (R312-R316). -/
namespace Sys2Proof.Machine

/-! ### The selection group (R312) -/

/-- -0 in FP32. -/
def negZero : Nat := 0x80000000
/-- FP32 addition rounded RNE. -/
def addRne (a b : Nat) : Nat := fpAdd 24 .rne a b
/-- The R63 sum of a group. -/
def ksSum (xs : List Nat) : Nat := nthD negZero (ksScan addRne xs) (xs.length - 1)
/-- A weight counts as +0 when it is NaN or negative (R313). -/
def badWeight (x : Nat) : Bool := fpIsNan 24 x || fpLt 24 x 0

/-- The latency of SAMPLE, and of TOPK, by group width (R241). -/
def selLat (base w : Nat) : Nat := if w = 64 then base + 4 else base

/-- SAMPLE's lane (R313): index in the group, none when the total is zero. `fr` stands for the lane of an infinite total that no infinite
weight gives, which the manual does not state (entry 11). -/
def sampleIndex (xs : List Nat) (u fr : Nat) : Option Nat :=
  let ps := ksScan addRne xs
  let t := nthD 0 ps (xs.length - 1)
  let ix := upFrom 0 xs.length
  if t % 2 ^ 31 = 0 then none
  else if t = fpInf 24 false then some ((ix.find? fun i => nthD 0 xs i == fpInf 24 false).getD fr)
  else
    let c := fpMul 24 .rne u t
    match ix.find? fun i => fpLt 24 c (nthD 0 ps i) with
    | some i => some i
    | none => (ix.reverse.find? fun i => fpLt 24 0 (nthD 0 xs i))

/-- The uniform operand clamped (R313). -/
def sampleU (u : Nat) : Nat := if badWeight u then 0 else if fpLt 24 0x3F7FFFFF u then 0x3F7FFFFF else u

/-- Set a sticky bit of TSTAT (R79). -/
def noteStat (d : Dev) (on : Bool) (bit : Nat) : Dev := if on then d.updS fun s => { s with tstat := s.tstat ||| BitVec.ofNat 19 (2 ^ bit) } else d

/-- SAMPLE: draws one lane by weight (R313). -/
def execSample (d : BitVec 6) (a : BitVec 7) (b : BitVec 6) (σ : State) : Host.Outcome State Fault Refusal :=
  word (.sample d a b) σ fun fw D => pairHold D
    (let w := D.cur.decl.group
     let lat := selLat 16 w
     let put := fun (v : Dword) (s : OSet) (z neg : Bool) =>
       putScalar fw D d.toNat v s lat fun D1 =>
         finish fw (noteStat (noteLatch D [a.toNat] (D1.upd fun t => t.ccset { z, n := z, c := false, v := neg } lat)) neg 17)
     match selGroup D with
     | none => put 0xFFFFFFFFFFFFFFFF (sorg D 2 b.toNat) true false
     | some g =>
       let raw := groupVals D 1 a.toNat g negZero
       let neg := raw.any badWeight
       let xs := raw.map fun x => if badWeight x then 0 else x
       let set := groupLabel D 1 a.toNat g (fun _ => true) ||| sorg D 2 b.toNat
       let fr := Config.free D.free (slotKey 7 (.s d.toNat))
       match sampleIndex xs (sampleU ((sval D 2 b.toNat).toNat % 2 ^ 32)) fr with
       | none => put 0xFFFFFFFFFFFFFFFF set true neg
       | some i => put (BitVec.ofNat 64 (g + i)) set false neg)

/-- TOPK: the k largest values of the selection group, with sums (R314). -/
def execTopk (d : BitVec 7) (a : BitVec 7) (s : BitVec 6) (σ : State) : Host.Outcome State Fault Refusal :=
  word (.topk d a s) σ fun fw D => pairHold D
    (let w := D.cur.decl.group
     let lat := selLat 20 w
     let sl := sorg D 3 s.toNat
     let put := fun (set : OSet) (vec : List (Nat × Nat × Nat)) (sel rest v : Nat) =>
       match allocLabel D.cur.regs.labels set with
       | none => trapIssue fw D 0x0C (allLanes D.cur.lanes) set.toNat 0
       | some (i, labels) =>
         let sc := fun (t : Team) (r x : Nat) => t.sset (s.toNat + r) { val := BitVec.ofNat 64 x, lbl := i } lat
         let D1 := (D.updR fun r => { r with labels }).upd fun t =>
           let t1 := vec.foldl (fun t p => (t.vset d.toNat p.1 { val := BitVec.ofNat 32 p.2.1, lbl := i } lat).vset (d.toNat + 1) p.1 { val := BitVec.ofNat 32 p.2.2, lbl := i } lat) t
           (sc (sc (sc t1 0 sel) 1 rest) 2 v).ccset { z := v == 0 } lat
         finish fw (noteLatch D [a.toNat] D1)
     match selGroup D with
     | none => put sl [] negZero negZero 0
     | some g =>
       let k := min ((sval D 3 s.toNat).toNat % 2 ^ 32) w
       let act := (groupLanes w g).filter fun l => D.k0.getLsbD l
       let vals := act.map fun l => (l, (vread D 1 a.toNat l).val.toNat)
       let order := sortBy (fun (x y : Nat × Nat) => decide (topKey y.2 ≤ topKey x.2)) vals
       let top := order.take k
       let v := top.length
       let set := groupLabel D 1 a.toNat g (fun _ => true) ||| sl
       let vec := (upFrom 0 k).map fun i => match (top.drop i).head? with
         | some p => (g + i, p.1, canonNan p.2)
         | none => (g + i, 0xFFFFFFFF, 0xFF800000)
       let sel := ksSum ((upFrom 0 w).map fun i => match (top.drop i).head? with | some p => p.2 | none => negZero)
       let rest := ksSum ((groupLanes w g).map fun l => match vals.find? fun p => p.1 == l && !(top.any fun q => q.1 == l) with
         | some p => p.2
         | none => negZero)
       put set vec (canonNan sel) (canonNan rest) v)

/-- RNGU's number (R316). -/
def rngu (seed : Dword) (a b : Word) : Nat :=
  let x0 := seed ^^^ (a.setWidth 64 <<< 32) ^^^ b.setWidth 64
  let x1 := (x0 ^^^ (x0 >>> 31)) * 0x8F3D6B27C41A95E3
  let x2 := (x1 ^^^ (x1 >>> 29)) * 0x5C71E09B2AD34F6D
  let x3 := x2 ^^^ (x2 >>> 32)
  fpOfInt 24 .rne (x3.toNat / 2 ^ 40 : Nat) (-24) false

/-- RNGU: one uniform for each active lane (R316). -/
def execRngu (d : BitVec 7) (a : BitVec 7) (b : BitVec 6) (σ : State) : Host.Outcome State Fault Refusal :=
  word (.rngu d a b) σ fun fw D =>
    let seed := sval D 3 b.toNat
    putRegs fw D 8 (D.act.map fun l =>
      let x := vread D 1 a.toNat l
      let y := vread D 2 (a.toNat + 1) l
      (l, D.cur.org x.lbl ||| D.cur.org y.lbl ||| sorg D 3 b.toNat, [(d.toNat, BitVec.ofNat 32 (rngu seed x.val y.val))])) (finishV fw D.k0)

/-! ### MERGEK (R315) -/

/-- List count and k of MERGEK's sb, none outside their limits. -/
def mergeSizes (sb : Dword) : Option (Nat × Nat) :=
  let l := sb.toNat % 65536
  let k := sb.toNat / 2 ^ 32 % 65536
  if l = 0 || decide (1024 < l) || k = 0 || decide (4096 < k) || sb.toNat / 65536 % 65536 != 0 || sb.toNat / 2 ^ 48 != 0 then none else some (l, k)

/-- The accesses of a range of a kind: one for each page, or the scratchpad range. -/
def rangeWants (va : Dword) (len align : Nat) (n : Need) (lbl : OSet) : List Want :=
  if inScratch va || inRegWin va then [{ lane := scalarLane, va, len, albl := lbl, align, need := some n }]
  else (pagesOf va len).map fun p =>
    { lane := scalarLane, va := p, len := min (va.toNat + len) ((p.toNat / 65536 + 1) * 65536) - p.toNat, albl := lbl, align, need := some n }

/-- MERGEK: merges lists in memory (R315). -/
def execMergek (q : BitVec 4) (a : BitVec 6) (b : BitVec 6) (c : BitVec 6) (σ : State) : Host.Outcome State Fault Refusal :=
  word (.mergek q a b c) σ fun fw D => posting fw q.toNat D fun D =>
    let sb := sval D 2 b.toNat
    let (l, k) := (mergeSizes sb).getD (1, 1)
    let tab := rangeWants (sval D 1 a.toNat) (16 * l) 16 { r := true, e := true } 0
    let out := rangeWants (sval D 3 c.toNat) (16 + 8 * k) 8 { w := true, e := true } 0
    accesses fw { r := true, w := true, e := true } true true (tab ++ out) 8 D fun as D1 =>
      let pins := accEnts as
      if !(canPin D1 pins) then stall D1 9
      else finish fw (postOp D1 q.toNat (.mergek sb (sorg D 1 a.toNat ||| sorg D 2 b.toNat ||| sorg D 3 c.toNat)
        (as.take tab.length) (as.drop tab.length)) pins false)

/-- How reading the lists ends: entries in list order with what was read, an error, a trap, a wait for Limamon at a page of a list, an earlier
write of the team still to be performed. -/
inductive MergeRead where
  | entries (es : List (Nat × Nat))
  | err (unc : List Piece)
  | trap (c : DoneCause)
  | wait (page : Dword) (reason list : Nat)
  | later
deriving DecidableEq, Repr

/-- The entries of a list's bytes: index and value. -/
def listEntries (bs : List Byte) (n : Nat) : List (Nat × Nat) := (upFrom 0 n).map fun i => (fieldAt bs (8 * i) 4, fieldAt bs (8 * i + 4) 4)

/-- Read the lists a table names for operation o, in turn, each translated when it is first reached: how it ends, and the pieces reached. -/
def readLists (fw : Fw) (o : Op) (d : Dev) : List (Nat × Nat × Nat) → MergeRead × List Piece × Dev
  | [] => (.entries [], [], d)
  | (va, cnt, pad) :: r =>
    let all := allLanes d.cur.lanes
    if pad ≠ 0 || decide (4096 < cnt) then (.err [], [], d)
    else if va % 8 ≠ 0 then (.trap { code := 6, k14 := all, ti0 := va }, [], d)
    else match engineRange fw { r := true, e := true } true (BitVec.ofNat 64 va) (8 * cnt) d with
      | (.error .bound, d1) => (.trap { code := 7, k14 := all, ti0 := va }, [], d1)
      | (.error (.refused _ _ _), d1) => (.trap { code := 5, k14 := all, ti0 := va }, [], d1)
      | (.error (.missing p x), d1) => (.wait p x va, [], d1)
      | (.ok ps, d1) =>
        if !(ps.all fun p => d1.cur.writesDone o.id p.tgt p.len) then (.later, ps, d1)
        else if ps.any (badPiece d1) then (.err ps, ps, d1)
        else
          let (x, rd, d2) := readLists fw o d1 r
          (match x with | .entries es => .entries (listEntries ((readPieces d1 o ps).map (·.1)) cnt ++ es) | y => y, ps ++ rd, d2)

/-- Keep the first entry of each index; whether another differs in its bits, all NaNs being equal (R315). -/
def dedupe (es : List (Nat × Nat)) : List (Nat × Nat) × Bool :=
  es.foldl (fun a e =>
    if e.1 = 0xFFFFFFFF then a
    else match a.1.find? fun x => x.1 == e.1 with
      | none => (a.1 ++ [e], a.2)
      | some x => (a.1, a.2 || (canonNan x.2 != canonNan e.2))) ([], false)

/-- The output's bytes (R315); the sum of no value is not stated and is free. -/
def mergeOut (es : List (Nat × Nat)) (k fr : Nat) : List Byte :=
  let byIdx := sortBy (fun (x y : Nat × Nat) => decide (x.1 ≤ y.1)) es
  let order := sortBy (fun (x y : Nat × Nat) => decide (topKey y.2 ≤ topKey x.2)) byIdx
  let top := (order.take k).map fun p => (p.1, canonNan p.2)
  let sum := match top with
    | [] => fr % 2 ^ 32
    | p :: r => r.foldl (fun s q => addRne s q.2) p.2
  leBytes 4 top.length ++ leBytes 4 0 ++ leBytes 4 sum ++ leBytes 4 0 ++
    (top.flatMap fun p => leBytes 4 p.1 ++ leBytes 4 p.2) ++
    ((upFrom 0 (k - top.length)).flatMap fun _ => leBytes 4 0xFFFFFFFF ++ leBytes 4 0xFF800000)

/-- Write MERGEK's output: every ceiling first, then the Lodge, then the bytes (R315, R356). -/
def mergeWriteOut (fw : Fw) (o : Op) (k : Nat) (out : List Acc) (es : List (Nat × Nat)) (s : OSet) (d : Dev) : Dev :=
  let ps := accPieces d out
  let (kept, incons) := dedupe es
  let d := noteStat d incons 18
  match ps.find? fun p => !(p.admits s) with
  | some p => finishOp (ceilingRecord fw d d.cur.unit p s) o.id true
  | none =>
    match lodgePieces fw d ps s with
    | none => finishOp (egressRefused fw d (match out with | a :: _ => a.va.toNat | [] => 0) (16 + 8 * k) s) o.id true
    | some _ =>
      let bs := (mergeOut kept k (Config.free d.free (2 ^ 41))).map fun b => (b, s)
      let (w, _) := writePieces fw d.cur.unit o bs ps { dev := d }
      endOp fw w.dev o w.err (match w.full with | some e => [{ code := 0x0C, k14 := allLanes d.cur.lanes, ti0 := e.toNat }] | none => [])

/-- The table's entries: list address, count, reserved field. -/
def mergeTable (bs : List Byte) (l : Nat) : List (Nat × Nat × Nat) :=
  (upFrom 0 l).map fun j => (fieldAt bs (16 * j) 8, fieldAt bs (16 * j + 8) 4, fieldAt bs (16 * j + 12) 4)

/-- The join of the current sets of what was read. -/
def piecesSet (d : Dev) (o : Op) (ps : List Piece) : OSet :=
  ps.foldl (fun s p => match p.tgt with | .mem _ e _ => s ||| (d.frame e).cur | _ => s ||| joinOf (readPiece d o p)) 0

/-- The lists of a merge as they stand: none while an earlier write to the table is pending, the table's own error, or what reading them comes
to. -/
def mergeLists (fw : Fw) (o : Op) (l : Nat) (tab : List Acc) (d : Dev) : Option (MergeRead × List Piece × Dev) :=
  let tp := accPieces d tab
  if !(tab.all fun a => d.cur.writesDone o.id a.tgt a.len) then none
  else if tp.any (badPiece d) then some (.err tp, [], d)
  else
    let table := mergeTable ((readPieces d o tp).map (·.1)) l
    if 65536 < (table.map fun e => e.2.1).sum then some (.err [], [], d) else some (readLists fw o d table)

/-- A merge reaches lists whose pages it has not pinned yet, and pins them (R131, R315). -/
def mergeReach (o : Op) (ps : List Piece) (d : Dev) : Option Dev :=
  if (pieceEnts ps).all o.pins.contains then none else pinOp d o.id (pieceEnts ps)

/-- MERGEK_COMPLETE: the merge reaches its lists, or has read every list and writes its output (R315); it waits while a list's page has no
translation. -/
def execMergekComplete (σ : State) : Host.Outcome State Fault Refusal :=
  opEvent σ fun fw _ o d =>
    match o.kind with
    | .mergek sb lbl tab out =>
      match mergeSizes sb with
      | none => some (finishOp d o.id true)
      | some (l, k) =>
        match mergeLists fw o l tab d with
        | none => none
        | some (.later, ps, d1) => mergeReach o ps d1
        | some (.wait _ _ _, ps, d1) => mergeReach o ps d1
        | some (.err ps, _, d1) => some (finishOp (uncRecord fw d1 d.cur.unit ps) o.id true)
        | some (.trap c, _, d1) => some (endOp fw d1 o false [c])
        | some (.entries es, ps, d1) =>
          let tp := accPieces d tab
          (pinOp d1 o.id (pieceEnts ps)).map fun d2 =>
            mergeWriteOut fw o k out es (lbl ||| piecesSet d o tp ||| piecesSet d o ps) (notePieces d2 (tp ++ ps))
    | _ => none

end Sys2Proof.Machine
end

