-- ==== Sys2Proof/Machine/System.lean ====
section
/-! DEFINITION. System instructions: SRD, SWR, GPRD, GPWR, INVL, ICINV, CALLG, and the events that end them (R77-R82, R136, R226,
R318-R325). -/
namespace Sys2Proof.Machine

/-! ### Special registers (R77-R82) -/

/-- ENGSTAT (R80). -/
def engstat (d : Dev) : Dword :=
  let k := d.core d.cur.core
  BitVec.ofNat 64 (d.queued d.cur.core inWindow * 2 ^ 32 + d.queued d.cur.core inBelvedere * 2 ^ 24 + d.queued d.cur.core inKudu * 2 ^ 16 + d.queued d.cur.core inMatrix * 2 ^ 8 +
    (if k.slow then 16 else 0) + k.fence.toNat)

/-- LBLBASE (R82). -/
def lblbase (fw : Fw) (t : Team) : Dword :=
  BitVec.ofNat 64 ((fw.part t.part).origins.toNat * 2 ^ 32 +
    (upFrom 1 15).foldl (fun a i => if mget 0 t.regs.labels i = 0 then a else a + 2 ^ i) 1)

/-- A special register that SRD reads without a label (R77); none for a number not in the table. -/
def specialValue (fw : Fw) (d : Dev) (n : Nat) : Option (Dword × Dev) :=
  let t := d.cur
  let v := fun (x : Dword) => some (x, d)
  let hz := fun (x : Nat) => some (BitVec.ofNat 64 (specRead d n x), d)
  match n with
  | 0x00 => v (t.teamId.setWidth 64)
  | 0x01 => v (t.launchId.setWidth 64)
  | 0x02 => v (BitVec.ofNat 64 t.core)
  | 0x03 => v (BitVec.ofNat 64 t.slot)
  | 0x04 => v (BitVec.ofNat 64 t.decl.lanes)
  | 0x05 => v (BitVec.ofNat 64 t.decl.group)
  | 0x08 => v ((d.dieTime (t.core / 128)).setWidth 64)
  | 0x09 => some (newSeq d t.unit)
  | 0x10 => v (t.sp.tcause.setWidth 64)
  | 0x11 => hz t.sp.tpc.toNat
  | 0x12 => v t.sp.tinfo0
  | 0x13 => v t.sp.tinfo1
  | 0x18 => hz t.sp.tstat.toNat
  | 0x19 => v (engstat d)
  | 0x20 => hz t.sp.dbgctl.toNat
  | 0x21 => hz t.sp.watcha.toNat
  | 0x22 => hz t.sp.watchb.toNat
  | 0x23 => v (fw.part t.part).mbox
  | 0x28 => v (lblbase fw t)
  | _ => none

/-- A handle word's number: handle and word (R73). -/
def handleWord (n : Nat) : Option (Nat × Nat) := if decide (0x40 ≤ n) && decide (n < 0x80) then some ((n - 0x40) / 8, n % 8) else none

/-- SRD: reads a special register (R318). -/
def execSrd (d : BitVec 6) (n : BitVec 8) (σ : State) : Host.Outcome State Fault Refusal :=
  word (.srd d n) σ fun fw D =>
    match handleWord n.toNat with
    | some (h, j) => putScalar fw D d.toNat (BitVec.ofNat 64 ((handleAt D h).w j)) (handleAt D h).lbl 2 (finish fw)
    | none =>
      match specialValue fw D n.toNat with
      | some (v, D1) => finish fw (D1.upd fun t => t.sset d.toNat { val := v, lbl := 0 } 2)
      | none => trapIllegal fw D (wordOf (.srd d n)) 0

/-- What SWR writes (R318, R77-R81): none where a read-only field is not 0 or the register is not writable. `old` is the value seen. -/
def specialWrite (n : Nat) (old v : Dword) : Option Dword :=
  match n with
  | 0x11 => some (v &&& ~~~3)
  | 0x18 => if v.toNat / 2 ^ 19 = 0 then some (old &&& ~~~v) else none
  | 0x20 => if v.toNat / 2 ^ 8 = 0 && v.toNat / 4 % 4 = 0 then some v else none
  | 0x21 => if v.toNat / 2 ^ 22 = 0 && v.toNat % 8 = 0 then some v else none
  | 0x22 => if v.toNat / 2 ^ 22 = 0 && v.toNat % 8 = 0 then some v else none
  | _ => none

/-- The current value of a writable special register. -/
def Special.value (s : Special) (n : Nat) : Dword :=
  match n with
  | 0x11 => s.tpc
  | 0x18 => s.tstat.setWidth 64
  | 0x20 => s.dbgctl.setWidth 64
  | 0x21 => s.watcha.setWidth 64
  | 0x22 => s.watchb.setWidth 64
  | _ => 0

/-- Put a value into it. -/
def Special.put (s : Special) (n : Nat) (v : Dword) : Special :=
  match n with
  | 0x11 => { s with tpc := v }
  | 0x18 => { s with tstat := v.setWidth 19 }
  | 0x20 => { s with dbgctl := v.setWidth 8 }
  | 0x21 => { s with watcha := v.setWidth 22 }
  | 0x22 => { s with watchb := v.setWidth 22 }
  | _ => s

/-- Write a word of a handle and join its label (R73). -/
def setHandle (d : Dev) (h j : Nat) (v : Dword) (s : OSet) : Dev :=
  d.updR fun r => { r with hnd := mupd {} r.hnd h fun x => { words := mset 0 x.words j v, lbl := x.lbl ||| s } }

/-- SWR: writes a special register (R318); its effect reaches instructions two positions later (R241). -/
def execSwr (a : BitVec 6) (n : BitVec 8) (σ : State) : Host.Outcome State Fault Refusal :=
  word (.swr a n) σ fun fw D =>
    let v := sval D 1 a.toNat
    match handleWord n.toNat with
    | some (h, j) =>
      let old := handleCode (mget {} D.cur.regs.hnd h) j
      finish fw (setHandle (D.upd fun t => t.pushHaz (.spec n.toNat) old 0 2) h j v (sorg D 1 a.toNat))
    | none =>
      let old := D.cur.sp.value n.toNat
      match specialWrite n.toNat old v with
      | some w => finish fw ((D.upd fun t => t.pushHaz (.spec n.toNat) old.toNat 0 2).updS fun s => s.put n.toNat w)
      | none => trapIllegal fw D (wordOf (.swr a n)) 0

/-! ### Graph parameters (R74, R319) -/

/-- GPRD: the current replay's value (R319). -/
def execGprd (d : BitVec 6) (n : BitVec 6) (σ : State) : Host.Outcome State Fault Refusal :=
  word (.gprd d n) σ fun fw D =>
    match D.cur.gp with
    | some (vs, os) => putScalar fw D d.toNat (mget 0 vs n.toNat) (mget 0 os n.toNat) 2 (finish fw)
    | none => trapIllegal fw D (wordOf (.gprd d n)) 0

/-- The graph whose replay a team's launch belongs to. -/
def Dev.graphOf (d : Dev) : Option Nat := (mget {} d.launches d.cur.launch).graph

/-- GPWR: stages a value for the next replay (R319). -/
def execGpwr (a : BitVec 6) (n : BitVec 6) (σ : State) : Host.Outcome State Fault Refusal :=
  word (.gpwr a n) σ fun fw D =>
    match D.cur.gp, D.graphOf with
    | some _, some g =>
      let (seq, D1) := newSeq D D.cur.unit
      let x : Staged := { n := n.toNat, val := sval D 1 a.toNat, org := sorg D 1 a.toNat, seq }
      finish fw { D1 with graphs := mupd {} D1.graphs g fun y => { y with staged := y.staged ++ [x] } }
    | _, _ => trapIllegal fw D (wordOf (.gpwr a n)) 0

/-! ### Invalidation (R136, R321, R322) -/

/-- Addresses of accesses that an operation has translated and not performed. -/
def OpKind.open_ (k : OpKind) : List Dword :=
  match k with
  | .acc (.st as) _ _ _ _ => as.map (·.va)
  | .acc (.ld as) _ _ _ _ => as.map (·.va)
  | .ami _ _ va _ _ _ => [va]
  | .amrg _ _ va _ _ _ => [va]
  | .wwr w => w.src.map (·.va)
  | .mergek _ _ t o => (t ++ o).map (·.va)
  | .kudu c => if c.stale then [c.desc] else []
  | k => (k.accs.filter fun a => !a.fin).map (·.va)

/-- Whether an invalidation names a page. -/
def InvlReq.names (r : InvlReq) (asid vpn : Nat) : Bool :=
  match r.kind with
  | .page => r.asid == asid && r.vpn == vpn
  | .asid => r.asid == asid
  | .part => true

/-- The teams of the package. -/
def Dev.teams (d : Dev) : List Team := (d.cur :: d.rest).filter (·.live)

/-- No access of a partition's teams is open under a translation that the invalidation names (R136). -/
def invlIdle (d : Dev) (part : Nat) (r : InvlReq) : Bool :=
  d.teams.all fun t => t.part != part || t.ops.all fun o => o.done || o.kind.open_.all fun va => !(isTranslated va && r.names 0 (vpnOf va))

/-- A monitor's location as the tables have it now (R136, R147): a page without a translation is watched again once it has one. -/
def Monitor.reseat (fw : Fw) (d : Dev) (part : Nat) (m : Monitor) : Monitor :=
  if !(isTranslated m.va) then m
  else { m with tgt := match fwXl fw d part { r := true } m.va with | .ok t => some (.mem (t.pa m.va) t.ent (!t.mi)) | _ => none }

/-- Armed monitors on pages of a partition follow their translations. -/
def reseatMonitors (fw : Fw) (part : Nat) (names : Nat → Bool) (d : Dev) : Dev :=
  let f := fun (t : Team) => match t.wait with
    | .monitor m => if t.part == part && names (vpnOf m.va) then { t with wait := .monitor (m.reseat fw d part) } else t
    | _ => t
  { d with cur := f d.cur, rest := d.rest.map f }

/-- Every core drops the matching entries, and what watches under them is translated again. -/
def invlDrop (fw : Fw) (part : Nat) (r : InvlReq) (d : Dev) : Dev :=
  reseatMonitors fw part (r.names 0) { d with cores := d.cores.map fun p => (p.1, { p.2 with tlb := p.2.tlb.filter fun t => !(t.part == part && r.names t.asid t.vpn) }) }

/-- INVL: invalidates first-stage translations of the team's partition (R321); held until every access translated with them is over. -/
def execInvl (k : InvlKind) (a : BitVec 6) (b : BitVec 6) (σ : State) : Host.Outcome State Fault Refusal :=
  word (.invl k a b) σ fun fw D =>
    let r : InvlReq := { kind := k, asid := (sval D 2 b.toNat).toNat % 65536, vpn := vpnOf (sval D 1 a.toNat) }
    if invlIdle D D.cur.part r then finish fw (invlDrop fw D.cur.part r (D.upd Team.endRun)) else waitAt (.invl r) (invlDrop fw D.cur.part r D)

/-- INVL_COMPLETE: the invalidation is complete and the team goes on (R136). -/
def execInvlComplete (σ : State) : Host.Outcome State Fault Refusal :=
  releaseEvent σ fun fw _ D =>
    match D.cur.wait with
    | .invl r => if invlIdle D D.cur.part r then some (release fw (D.cur.pc + 4) (invlDrop fw D.cur.part r D)) else none
    | _ => none

/-- Cores of a partition (R174): core pair p holds cores 2p and 2p+1. -/
def Fw.hasCore (fw : Fw) (part c : Nat) : Bool := (fw.part part).pairs.getLsbD (c / 2)

/-- The partition's instruction caches drop lines (R322). -/
def icDrop (fw : Fw) (part : Nat) (line : Option Nat) (d : Dev) : Dev :=
  { d with cores := d.cores.map fun p => (p.1, if fw.hasCore part p.1 then dropIc line p.2 else p.2) }

/-- The line that ICINV names: physical line of sa, no line (2^64) when sa has no translation. -/
def icLine (fw : Fw) (d : Dev) (all : Bool) (va : Dword) : Option Nat :=
  if all then none else match fwXl fw d d.cur.part (Need.own { x := true }) va with
    | .ok t => some (t.pa va / 128)
    | _ => some (2 ^ 64)

/-- ICINV: a package-scope release, then the partition's instruction caches drop a line or all (R322). -/
def execIcinv (a : BitVec 6) (l : Bool) (σ : State) : Host.Outcome State Fault Refusal :=
  word (.icinv a l) σ fun fw D =>
    let line := icLine fw D l (sval D 1 a.toNat)
    if D.cur.released then finish fw (icDrop fw D.cur.part line (D.upd Team.endRun)) else waitAt (.icinv line) D

/-- ICINV_COMPLETE: the release is done and the lines are gone (R322). -/
def execIcinvComplete (σ : State) : Host.Outcome State Fault Refusal :=
  releaseEvent σ fun fw _ D =>
    match D.cur.wait with
    | .icinv line => if D.cur.released then some (release fw (D.cur.pc + 4) (icDrop fw D.cur.part line D)) else none
    | _ => none

/-! ### Gathered calls (R226, R325) -/

/-- The lanes of a call, with their requests and labels. -/
def callLanes (d : Dev) (v : Nat) (m : Mask) : List (Nat × Nat × OSet) :=
  (maskLanes d.cur.lanes m).map fun l =>
    let lo := vread d 1 v l
    let hi := vread d 1 (v + 1) l
    (l, lo.val.toNat + hi.val.toNat * 2 ^ 32, d.cur.org lo.lbl ||| d.cur.org hi.lbl)

/-- Write the requests and the lane mask into the save area (R226). -/
def callRequests (fw : Fw) (d : Dev) (m : Mask) (rs : List (Nat × Nat × OSet)) : Dev :=
  let area := d.cur.saveArea
  let put := fun (d : Dev) (va : Dword) (bs : List Byte) (s : OSet) => (fwWriteBy (d.engine d.cur.self) fw d d.cur.part va bs s).getD d
  rs.foldl (fun d r => put d (area + BitVec.ofNat 64 (8192 + 8 * r.1)) (leBytes 8 r.2.1) r.2.2)
    (put d (area + 5128) (leBytes 128 m.toNat) 0)

/-- The call record of R226: posted when the call queue has space. -/
def callPost (fw : Fw) (d : Dev) (serv : BitVec 16) (m : Mask) (s : OSet) : Option Dev :=
  let (seq, d1) := newSeq d d.cur.unit
  let area := d.cur.saveArea.toNat
  ringPost (d.engine d.cur.self) fw d1 d.cur.part (fw.part d.cur.part).cq
    (packBytes 64 [(0, 8, seq.toNat), (8, 1, 0x20), (9, 1, d.cur.part), (10, 2, serv.toNat), (12, 4, d.cur.launchId.toNat),
      (16, 4, d.cur.teamId.toNat), (20, 4, (maskLanes d.cur.lanes m).length), (24, 8, area + 8192), (32, 8, area + 5120), (40, 8, area + 5128),
      (48, 4, s.toNat)]) 0

/-- CALLG: posts one call record for the lanes of k0 and yields until the reply (R325). -/
def execCallg (q : BitVec 4) (v : BitVec 7) (s : BitVec 6) (σ : State) : Host.Outcome State Fault Refusal :=
  word (.callg q v s) σ fun fw D => posting fw q.toNat D fun D =>
    let serv : BitVec 16 := (sval D 2 s.toNat).setWidth 16
    let m := D.k0 &&& allLanes D.cur.lanes
    let id := D.cur.nextOp
    if m = 0 then finish fw ((postOp (D.upd Team.endRun) q.toNat .instant [] true).upd endRegion)
    else
      let rs := callLanes D v.toNat m
      let lab := rs.foldl (fun s r => s ||| r.2.2) 0
      let D1 := callRequests fw D m rs
      let (D2, posted) := match callPost fw D1 serv m lab with | some x => (x, true) | none => (D1, false)
      let D3 := (postOp (D2.upd Team.endRun) q.toNat (.callg v.toNat serv m posted (BitVec.ofNat 64 lab.toNat)) [] false).upd endRegion
      (finish fw D3).upd fun t => match t.wait with | .ready => { t with wait := .call id, active := false } | _ => t

/-- CALL_RECORD_POST: space has appeared in the call queue (R161). -/
def execCallRecordPost (σ : State) : Host.Outcome State Fault Refusal :=
  opEvent σ fun fw _ o d =>
    match o.kind with
    | .callg v serv m false lab => (callPost fw d serv m (lab.setWidth 32)).map fun d1 => d1.setKind o.id (.callg v serv m true lab)
    | _ => none

/-- The address of lane l's reply. -/
def replyVa (d : Dev) (l : Nat) : Dword := d.cur.saveArea + BitVec.ofNat 64 (8192 + 8 * l)

/-- The replies of a call: lane, its page. -/
def callReplies (fw : Fw) (d : Dev) (m : Mask) : List (Nat × List (Dword × TlbEnt)) :=
  (maskLanes d.cur.lanes m).filterMap fun l =>
    match fwRange fw d d.cur.part fwR (replyVa d l) 8 with
    | .ok ps => some (l, ps)
    | .error _ => none

/-- The replies land but for those in uncorrectable units, whose lanes take the uncorrectable-data trap (R105, R226); errors are counted (R368). -/
def landReplies (fw : Fw) (d : Dev) (o : Op) (v : Nat) (m : Mask) : Dev × List DoneCause :=
  let all := callReplies fw d m
  let va := fun (l : Nat) => (replyVa d l).toNat
  let (bad, good) := all.partition fun r => rangeBad d r.2 (va r.1) 8
  let d1 := good.foldl (fun d r => noteRange d r.2 (va r.1) 8) d
  let d2 := bad.foldl (fun d r => countErr d false (r.2.any fun p => p.2.mi) (rangePa r.2 (va r.1) / 8)) d1
  let (d3, cs) := landLanes d2 o (good.map fun r =>
    let x := leNat (rangeHome d r.2 (va r.1) 8)
    (r.1, rangeCur d r.2, [(v, BitVec.ofNat 32 x), (v + 1, BitVec.ofNat 32 (x / 2 ^ 32))]))
  (d3, cs ++ match bad with | [] => [] | r :: _ => [{ code := 0x0D, k14 := d.cur.laneMask (bad.map (·.1)), ti0 := va r.1 }])

/-- CALLG_REPLY: DONE has become 1; replies land, DONE is 0 again, the token completes after an acquire (R226, R145). -/
def execCallgReply (σ : State) : Host.Outcome State Fault Refusal :=
  opEvent σ fun fw _ o d =>
    match o.kind with
    | .callg v _ m true _ =>
      let done := d.cur.saveArea + 5120
      match fwHome fw d d.cur.part done 8 with
      | some bs =>
        if leNat bs ≠ 1 then none
        else
          let (d1, cs) := landReplies fw d o v m
          let d2 := (fwWriteBy (d.engine o) fw d1 d.cur.part done (leBytes 8 0) 0).getD d1
          some (endOp fw (acquire d2 .pkg) o false cs)
      | none => none
    | _ => none

end Sys2Proof.Machine
end

