-- ==== Sys2Proof/Machine/Lifecycle.lean ====
section
/-! DEFINITION. The life of a team: placing, creation, exit, page walks and faults, migration, compaction, the active set, swapping out
(R8-R11, R34, R36, R127-R139, R153-R159, R213, R222). -/
namespace Sys2Proof.Machine

/-! ### Places (R2, R9, R154) -/

/-- Where a team lies on core c. -/
def Team.runsOn (t : Team) (c : Nat) : Option Runs :=
  if !t.live then none else if t.core = c then t.runs.head? else if t.paired && t.core + 1 == c then (t.runs.drop 1).head? else none

/-- The granules and tiles a team occupies on a core, as (first, count). -/
def usedGranules (ts : List Team) (c : Nat) : List (Nat × Nat) :=
  ts.flatMap fun t => match t.runsOn c with | some r => [(r.reg, t.decl.regGranules), (r.scr, t.decl.scrGranules)] | none => []
def usedTiles (ts : List Team) (c : Nat) : List (Nat × Nat) :=
  ts.filterMap fun t => match t.runsOn c with | some r => some (r.acc, t.decl.acc) | none => none

/-- The places of n consecutive free positions in lo..hi-1 that follow what is used, ascending: where a run fits at all, one of them holds it. -/
def fits (used : List (Nat × Nat)) (lo hi n : Nat) : List Nat :=
  let busy := used.filter fun u => u.2 != 0
  (sortBy (fun a b => decide (a ≤ b)) (lo :: busy.map fun u => u.1 + u.2)).filter fun p =>
    decide (lo ≤ p) && decide (p + n ≤ hi) && busy.all fun u => decide (p + n ≤ u.1) || decide (u.1 + u.2 ≤ p)

/-- Runs for declarations k on core c beside the teams ts: granules 160 to 1,023, tiles 0 to 47 (R2). The register run takes the lowest place
that leaves one for the scratchpad run (R154). -/
def placeHalf (ts : List Team) (c : Nat) (k : Decl) : Option Runs :=
  let used := usedGranules ts c
  ((fits used 160 1024 k.regGranules).findSome? fun reg => ((fits ((reg, k.regGranules) :: used) 160 1024 k.scrGranules).head?).map fun scr => (reg, scr)).bind
    fun p => ((fits (usedTiles ts c) 0 48 k.acc).head?).map fun acc => { reg := p.1, scr := p.2, acc }

/-- Resident teams of a slot. -/
def slotTeams (ts : List Team) (c slot : Nat) : List Team := ts.filter fun t => t.slot == slot && t.cores.contains c

/-- Places for a team on core c and slot (R154): both cores of a pair for a paired team (R11). -/
def placeTeam (ts : List Team) (c slot : Nat) (k : Decl) : Option (List Runs) :=
  let room := fun c => decide ((slotTeams ts c slot).length < 16)
  if decide (256 ≤ c) || decide (4 ≤ slot) then none
  else if k.lanes ≤ 512 then (if room c then (placeHalf ts c k).map fun r => [r] else none)
  else if c % 2 = 0 && room c && room (c + 1) then
    (placeHalf ts c k).bind fun a => (placeHalf ts (c + 1) k).map fun b => [a, b]
  else none

/-- The declarations of a list item's team: a launch's, or those of the saved team. -/
def ListItem.decl (d : Dev) : ListItem → Decl
  | .launch k => (mget {} d.launches k).decl
  | .restore x => x.decl

/-- The head of a partition's launch list. -/
def listHead (d : Dev) (part : Nat) : Option ListItem := d.list.find? fun x => x.part d == part

/-- Free granules and tiles of a core in total. -/
def freeTotal (ts : List Team) (c : Nat) : Nat × Nat :=
  (864 - (usedGranules ts c).foldl (fun a u => a + u.2) 0, 48 - (usedTiles ts c).foldl (fun a u => a + u.2) 0)

/-- Core c has enough granules and tiles in total for a half of the head team (R155). -/
def enough (ts : List Team) (k : Decl) (c : Nat) : Bool :=
  let f := freeTotal ts c
  decide (k.regGranules + k.scrGranules ≤ f.1) && decide (k.acc ≤ f.2)

/-- The cores on which a team of core c would lie. -/
def Decl.coresAt (k : Decl) (c : Nat) : List Nat := if 512 < k.lanes then [c / 2 * 2, c / 2 * 2 + 1] else [c]

/-- The head team fits on core c, or its pair, as it is. -/
def fitsOn (ts : List Team) (k : Decl) (c : Nat) : Bool :=
  (upFrom 0 4).any fun slot => (placeTeam ts (if 512 < k.lanes then c / 2 * 2 else c) slot k).isSome

/-! ### Partitions -/

/-- Whether a partition's teams and queues go on (R139, R174). -/
def Fw.goes (fw : Fw) (p : Nat) : Bool := (fw.part p).state != 2 && (fw.part p).state != 3

/-- The cores of a partition. -/
def Fw.coresOf (fw : Fw) (p : Nat) : List Nat := (upFrom 0 256).filter (fw.hasCore p)

/-- The head team of a partition fits on none of its cores, though core c has enough in total (R155). -/
def wouldFit (fw : Fw) (ts : List Team) (p c : Nat) (k : Decl) : Bool :=
  fw.hasCore p c && (k.coresAt c).all (enough ts k) && !((fw.coresOf p).any (fitsOn ts k))

/-- Every queue of a partition, those it owns and those whose record names it, reads HALTED (R352). -/
def haltQueues (fw : Fw) (p : Nat) : SMap Queue :=
  let x := fw.part p
  (upFrom x.qbase.toNat (min x.qcount.toNat 32768)).foldl (fun m n => mupd {} m n fun q => { q with state := 3, part := BitVec.ofNat 5 p })
    (fw.queues.map fun q => (q.1, if q.2.part.toNat == p then { q.2 with state := 3 } else q.2))

/-- A partition halts (R139, R152, R352): its commands in flight end ABORTED, its queues read HALTED, vector 0 of its function. -/
def haltPartition (fw : Fw) (d : Dev) (p : Nat) (cause : Byte) : Fw × Dev :=
  let d1 := (d.cmds.filter fun c => c.part == p).foldl (fun d c => endCmd fw d c 5) d
  ({ fw with parts := mupd {} fw.parts p fun x => { x with state := 2, hcause := cause },
             queues := haltQueues fw p },
   raiseMsi d1 (p + 1) 0)

/-! ### Creation and exit -/

/-- Bytes of the save area Limamon pins for a team (R139, R228, R229): header, a full save's registers, scratchpad and tiles, 32 streams
and a session. -/
def saveBytes (k : Decl) : Nat :=
  let h := if 512 < k.lanes then 2 else 1
  16384 + k.vregs * (k.lanes * 4 + k.lanes / 2) + h * (k.scratch + k.scratch / 4) + h * k.acc * 4240 + 32 * 64 + 66048

/-- The frames of the save area's pages that have a translation, once each (R139). -/
def areaEnts (fw : Fw) (d : Dev) (part : Nat) (area : Dword) (n : Nat) : List Nat :=
  ((pagesOf area n).filterMap fun p => match fwXl fw d part (Need.own { r := true, w := true, e := true }) p with
    | .ok t => some t.ent
    | _ => none).eraseDups

/-- The registers of a new team (R34). -/
def startRegs (l : Launch) : Regs :=
  { s := mset {} (mset {} (mset {} (mset {} [] 0 { val := BitVec.ofNat 64 l.made }) 1 { val := l.arg })
           2 { val := BitVec.ofNat 64 l.count }) 3 { val := BitVec.ofNat 64 l.decl.lanes },
    k := mset 0 [] 0 (allLanes l.decl.lanes) }

/-- The parameters a launch's teams read (R74). -/
def launchParams (d : Dev) (l : Launch) : Option (SMap Dword × SMap OSet) := l.graph.map fun g => ((d.graph g).gp, (d.graph g).org)

/-- A system-scope acquire of a team that starts (R149): its cores drop their lines, and every write performed so far bounds its reads. -/
def startAcquire (d : Dev) (t : Team) : Dev :=
  { t.cores.foldl dropL1 d with rest := d.rest ++ [{ t with bound := t.bound.raise .sys d.wn }] }

/-- A team's number in its partition (R77), which 2^32 - 1 is not. -/
def nextTeamId (fw : Fw) (part : Nat) : Nat := mget 0 fw.nextTeam part % 0xFFFFFFFF

/-- TEAM_CREATE: Limamon creates the head team of a partition's launch list on a core and slot that offer what it declares (R34, R154,
R139, R149). part, core, slot. -/
def execTeamCreate (σ : State) : Host.Outcome State Fault Refusal :=
  eventFw σ fun fw e d =>
    match listHead d e.part with
    | some (.launch k) =>
      let l := mget {} d.launches k
      if !(fw.goes e.part) || !(fw.hasCore e.part e.core) then none
      else (placeTeam d.teams e.core e.slot l.decl).bind fun runs =>
        let key := d.nextKey
        let area := Config.saveAreaOf key
        let pins := areaEnts fw d e.part area (saveBytes l.decl)
        if !(canPin d pins) then none
        else
          let t : Team :=
            { key, live := true, part := e.part, teamId := BitVec.ofNat 32 (nextTeamId fw e.part), launch := k, launchId := l.launchId,
              index := l.made, core := e.core, slot := e.slot, decl := l.decl, regs := startRegs l, pc := l.decl.entry,
              restart := l.decl.entry, prio := l.prio, start := d.time, lastIssue := d.time.toNat, lastReady := d.time.toNat, gp := launchParams d l,
              saveArea := area, runs, pins }
          let l1 := { l with made := l.made + 1 }
          let d1 := { pinFrames d pins with
            launches := mins d.launches k l1, nextKey := key + 1, waitSince := mdel d.waitSince e.part,
            list := if l1.made < l.count then d.list else dropFirst (fun x => x == .launch k) d.list }
          some ({ fw with nextTeam := mset 0 fw.nextTeam e.part (nextTeamId fw e.part + 1) }, startAcquire d1 t)
    | _ => none

/-- The exit record (R213). -/
def exitRecord (t : Team) (status : Nat) (seq : Dword) : List Byte :=
  packBytes 256 ([(0, 8, seq.toNat), (8, 4, t.teamId.toNat), (12, 4, t.index), (16, 1, t.core), (17, 1, t.slot), (18, 1, status),
    (24, 8, t.start.toNat), (32, 8, t.resident.toNat), (40, 8, t.issued.toNat)] ++
    (upFrom 0 16).map fun j => (64 + 8 * j, 8, (mget 0 t.stall j).toNat))

/-- Append a team's exit record to the launch's array (R213): index by an indivisible add, DROPPED past the capacity. -/
def appendExit (fw : Fw) (d : Dev) (t : Team) (base : Dword) (status : Nat) : Dev :=
  if base = 0 then d
  else match fwHome fw d t.part base 24 with
    | none => d
    | some h =>
      let k := fieldAt h 0 8
      let put := fun (d : Dev) (va : Dword) (bs : List Byte) => (firmWrite fw d t.part va bs 0).getD d
      let d1 := put d base (leBytes 8 (k + 1))
      if k < fieldAt h 16 8 then
        let (seq, d2) := newSeq d1 t.unit
        put d2 (base + BitVec.ofNat 64 (64 + 256 * k)) (exitRecord t status seq)
      else put d1 (base + 8) (leBytes 8 (fieldAt h 8 8 + 1))

/-- A team of a launch has ended: with the last one the launch is complete (R36, R149), and its command or graph node with it. -/
def launchLess (fw : Fw) (d : Dev) (key : Nat) : Dev :=
  let l := mget {} d.launches key
  if 1 < l.left then { d with launches := mins d.launches key { l with left := l.left - 1 } }
  else
    let d1 := { d with launches := mdel d.launches key }
    match l.cmd.bind d1.cmd, l.graph with
    | some c, _ => endCmd fw d1 c 0
    | none, some g => if (d1.graph g).running.isSome then nextNode fw d1 g else d1
    | none, none => d1

/-- TEAM_EXIT_COMPLETE: every token is zero; the exit record is appended and the team's runs and tiles return (R36, R149, R213). -/
def execTeamExitComplete (σ : State) : Host.Outcome State Fault Refusal :=
  teamEvent σ fun fw _ d =>
    let t := d.cur
    match t.wait with
    | .exit status _ =>
      if !t.ops.isEmpty then none
      else
        let d1 := appendExit fw d t (mget {} d.launches t.launch).exits status
        some (launchLess fw { unpinFrames d1 t.pins with cur := {} } t.launch)
    | _ => none

/-- TRAP_ENTRY: the drain is over and the trap is entered (R222). -/
def execTrapEntry (σ : State) : Host.Outcome State Fault Refusal :=
  teamEvent σ fun fw _ d =>
    match d.cur.wait with
    | .trap i => if d.cur.drained then some (enterTrap fw d i) else none
    | _ => none

/-! ### Walks and faults (R127-R134) -/

/-- PAGE_WALK: a walk for a page of the team on one of its cores (n: the half) ends, and a translation found fills the TLB (R127, R129). -/
def execPageWalk (σ : State) : Host.Outcome State Fault Refusal :=
  teamEvent σ fun fw e d =>
    if !(isTranslated e.addr) then none
    else
      let c := if e.n = 1 && d.cur.paired then d.cur.core + 1 else d.cur.core
      match freshXl fw d d.cur.part 0 (vpnOf e.addr) with
      | .ok t => some (tlbFill d c t)
      | .error _ => none

/-- A fault of an operation is resolved or given up (R128, R134, R179, R180, R315). -/
def resolveOp (fw : Fw) (ok : Bool) (o : Op) (d : Dev) : Option Dev :=
  match o.kind with
  | .kudu c =>
    match c.fault with
    | some (va, r) =>
      if !(mayResolve (repairOf fw d d.cur.part va) ok) then none
      else if !ok then
        some ((setKudu (streamRecord fw d c va r) o.id { c with fault := none, perf := [], spec := c.committed, dead := [c.committed] }).setErr o.id)
      else if c.isStream then some (setKudu d o.id { c with resumable := true })
      else some (setKudu d o.id { c with fault := none })
    | none => none
  | .arbor k h hw v sd ls => if ok then none else arborGiveUp fw o k h hw v sd ls d
  | .fsel sid t f rows lbl =>
    match d.cur.sessions.find? fun s => s.id == sid with
    | some s =>
      if ok || !(d.belTurn o && d.cur.tileTurn o.id o.kind) || (fselPerform fw false o s t f rows lbl d).isSome then none
      else fselPerform fw true o s t f rows lbl d
    | none => none
  | .tapr sid kd rows sd evid lbl =>
    match d.cur.sessions.find? fun s => s.id == sid with
    | some s =>
      if ok || !(d.belTurn o && d.cur.releasedBefore o.id) || (taprPerform fw false o s kd rows sd evid lbl d).isSome then none
      else taprPerform fw true o s kd rows sd evid lbl d
    | none => none
  | .tape x sa row evid lbl =>
    if ok || !(d.belTurn o && d.cur.releasedBefore o.id) || (tapePerform fw false o x sa row evid lbl d).isSome then none
    else tapePerform fw true o x sa row evid lbl d
  | .mergek sb _ tab _ =>
    match (mergeSizes sb).bind fun p => mergeLists fw o p.1 tab d with
    | some (.wait page _ list, _, _) =>
      if !ok && mayResolve (repairOf fw d d.cur.part page) false then some (endOp fw d o false [{ code := 5, k14 := allLanes d.cur.lanes, ti0 := list }]) else none
    | _ => none
  | _ => none

/-- TRANSLATION_FAULT_RESOLVE: Limamon has resolved a fault (ok) or cannot. op = 0: of the team itself, which is requeued at its restart
point, or takes the trap of R134 (R133); otherwise of operation op. -/
def execTranslationFaultResolve (σ : State) : Host.Outcome State Fault Refusal :=
  teamEvent σ fun fw e d =>
    if e.op = 0 then
      match d.cur.wait with
      | .tfault f =>
        if !(mayResolve (repairOf fw d d.cur.part f.va) e.ok) then none
        else if e.ok then some (d.upd fun t => ({ t with wait := .ready } : Team).goto t.restart 1)
        else some (raiseTrap fw (d.upd fun t => { t with wait := .ready }) f.trap)
      | _ => none
    else match d.cur.op e.op with
      | some o => if o.done then none else resolveOp fw e.ok o d
      | none => none

/-! ### Migration (R131, R132) -/

/-- A Kudu command that has been accepted reaches a page of entry e, which it holds from then on although the model adds its pins only as the command
begins (R131; entry 29). -/
def kuduHolds (fw : Fw) (d : Dev) (e : Nat) : Bool :=
  (d.teams.filter (·.live)).any fun t => t.ops.any fun o => !o.done && (match o.kind with
    | .kudu c => (kuduEnts fw { d with cur := t } o c).contains e
    | _ => false)

/-- MIGRATION_START: Limamon picks entry q, whose page nothing pins, and it is COPYING (R131, R132). -/
def execMigrationStart (σ : State) : Host.Outcome State Fault Refusal :=
  event σ fun fw e d =>
    let f := d.frame e.q
    if f.v && f.pin = 0 && f.mig = 0 && !(kuduHolds fw d e.q) then some { d with frames := mupd {} d.frames e.q fun f => { f with mig := 1 } } else none

/-- The accesses of an operation that were translated when it was accepted. -/
def OpKind.reaches (k : OpKind) : List Acc :=
  match k with
  | .acc (.st as) _ _ _ _ => as
  | .acc (.ld as) _ _ _ _ => as
  | .wwr w => w.src
  | .mergek _ _ t o => t ++ o
  | k => k.accs

/-- Whether an operation still holds an access to a page of entry e. -/
def OpKind.onEntry (k : OpKind) (e : Nat) : Bool :=
  match k with
  | .ami _ x _ _ _ _ => x == e
  | .amrg _ x _ _ _ _ => x == e
  | k => k.reaches.any fun a => !a.fin && (match a.tgt with | .mem _ x _ => x == e | _ => false)

/-- A page's bytes, and its units' errors, lie in frame dst from now on (R105, R132). -/
def copyPage (d : Dev) (src dst : Nat) : Dev :=
  let cells := d.mem.filter fun c => c.1 / 65536 == src
  let free := d.mem.filter fun c => c.1 / 65536 == dst
  let mem := cells.foldl (fun m c => memSet m (dst * 65536 + c.1 % 65536) c.2) (free.foldl (fun m c => memSet m c.1 memDefault) d.mem)
  let moved := fun (us : List Nat) => (us.filter fun u => u / 8192 != dst) ++ ((us.filter fun u => u / 8192 == src).map fun u => dst * 8192 + u % 8192)
  forgetFrame (forgetFrame { d with mem, badU := moved d.badU, badCorr := moved d.badCorr, hbmU := moved d.hbmU } src) dst

/-- Links and anchors of a partition's table that named entry a name entry b (R126). -/
def relink (fw : Fw) (d : Dev) (part a b : Nat) : Fw × Dev :=
  ({ fw with anchors := fw.anchors.map fun p => (p.1, if p.1 / 2 ^ 23 = part && linkEnt p.2 = some (guestOf a) then entLink (guestOf b) else p.2) },
   { d with frames := d.frames.map fun p => (p.1, if p.1 / 2 ^ 26 = part && linkEnt p.2.link = some (guestOf a) then { p.2 with link := entLink (guestOf b) } else p.2) })

/-- Every core of a partition drops its translations (R132). -/
def dropTlb (part : Nat) (d : Dev) : Dev :=
  { d with cores := d.cores.map fun p => (p.1, { p.2 with tlb := p.2.tlb.filter fun t => t.part != part }) }

/-- Teams held for a page of a move go on at their restart points (R132, R133). -/
def unholdTeam (part vpn : Nat) (t : Team) : Team :=
  match t.wait with
  | .tfault f => if t.part = part && vpnOf f.va = vpn then ({ t with wait := .ready } : Team).goto t.restart 1 else t
  | _ => t

/-- Kudu commands stopped at the page go on: streams by STREAM_RESUME (R134). -/
def unholdOps (part vpn : Nat) (t : Team) : Team :=
  if t.part ≠ part then t
  else { t with ops := t.ops.map fun o => match o.kind with
    | .kudu c => match c.fault with
      | some (va, _) => if vpnOf va = vpn then { o with kind := .kudu (if c.isStream then { c with resumable := true } else { c with fault := none }) } else o
      | none => o
    | _ => o }

/-- The page of entry a lies in entry b: bytes, entry, links, cached translations and armed monitors follow it (R126, R132, R147). -/
def movePage (fw : Fw) (d : Dev) (a b src dst : Nat) : Fw × Dev :=
  let f := d.frame a
  let p := a / 2 ^ 26
  let (fw1, d1) := relink fw { copyPage d src dst with frames := mset {} (mset {} d.frames b { f with mig := 0 }) a {} } p a b
  let un := fun t => unholdOps p f.vpn.toNat (unholdTeam p f.vpn.toNat t)
  let d2 := dropTlb p d1
  (fw1, reseatMonitors fw1 p (· == f.vpn.toNat) { d2 with cur := un d2.cur, rest := d2.rest.map un })

/-- MIGRATION_END: the move of entry q's page goes on: from COPYING to MOVED once its bytes are copied, then to entry m of the same partition,
whose frame was free; its entry is written with MIG 0, the old one freed, the partition's cores are invalidated and held teams go on (R126,
R132). Either step waits for accesses to the old frame that are still open. -/
def execMigrationEnd (σ : State) : Host.Outcome State Fault Refusal :=
  eventFw σ fun fw e d =>
    let f := d.frame e.q
    let p := e.q / 2 ^ 26
    if d.teams.any fun t => t.ops.any fun o => !o.done && o.kind.onEntry e.q then none
    else if f.mig = 1 then some (fw, { d with frames := mupd {} d.frames e.q fun f => { f with mig := 2 } })
    else match extentOf fw p e.q, extentOf fw p e.m with
      | some x, some y =>
        if f.mig ≠ 2 || (d.frame e.m).v || e.q = e.m || e.m / 2 ^ 26 ≠ p then none else some (movePage fw d e.q e.m (stage2 x.2 e.q) (stage2 y.2 e.m))
      | _, _ => none

/-! ### Compaction, the active set, swapping out (R155, R158, R159) -/

/-- Whether a team stands inside its run. -/
def Team.inRun (t : Team) : Bool := t.runOpen && decide (t.pos ≤ t.runEnd)

/-- Whether a team may be moved now (R155): at a LIVE point, or yielded. -/
def movable (fw : Fw) (d : Dev) (t : Team) : Bool :=
  (match t.wait with | .yield _ _ _ => true | _ => false) || atLive fw { d with cur := t }

/-- Move a team to the lowest places on core c, beside the others; compaction has moved it there. -/
def moveTeam (others : List Team) (c : Nat) (t : Team) : Team :=
  let u := { (if t.wait = .ready then t.atFirst else t) with slide := t.slide.filter (· != c) }
  match placeHalf others c t.decl with
  | none => u
  | some r => { u with active := false, runs := if t.core = c then r :: t.runs.drop 1 else t.runs.take 1 ++ [r] }

/-- The teams of core c that compaction may move now, lowest register run first. -/
def sliding (fw : Fw) (d : Dev) (c : Nat) : List Team :=
  let reg := fun (t : Team) => match t.runsOn c with | some r => r.reg | none => 0
  sortBy (fun (a b : Team) => decide (reg a ≤ reg b)) (d.teams.filter fun t => t.live && t.slide.contains c && movable fw d t)

/-- Change the team with t's key. -/
def Dev.put (d : Dev) (f : Dev → Team → Team) (t : Team) : Dev :=
  let g := fun (u : Team) => if u.live && u.key == t.key then f d u else u
  { d with cur := g d.cur, rest := d.rest.map g }

/-- A number that tells the entries of the launch list apart: the next team of a launch, or a saved team. -/
def ListItem.mark (d : Dev) : ListItem → Nat
  | .launch k => 2 * (k * 2 ^ 32 + (mget {} d.launches k).made)
  | .restore x => 2 * x.key + 1

/-- The head team of a partition has waited COMPACT_WAIT cycles for a core that has enough in total (R155). -/
def compactable (fw : Fw) (d : Dev) (c : Nat) : Bool :=
  fw.parts.any fun p => match mfind d.waitSince p.1, listHead d p.1 with
    | some w, some x => w.1 == x.mark d && longAgo d w.2 p.2.cwait.toNat && wouldFit fw d.teams p.1 c (x.decl d)
    | _, _ => false

/-- COMPACTION: the scheduler decides to compact a core, whose resident teams are all to be moved; or those that have come to a LIVE point or
YIELD slide to the lowest free granules and tiles (R155). core. -/
def execCompaction (σ : State) : Host.Outcome State Fault Refusal :=
  event σ fun fw e d =>
    match sliding fw d e.core with
    | [] =>
      let here := d.teams.filter fun t => (t.runsOn e.core).isSome && !(t.slide.contains e.core)
      if here.isEmpty || !(compactable fw d e.core) then none
      else some (here.foldl (fun d t => d.put (fun _ u => { u with slide := e.core :: u.slide }) t) d)
    | ts => some (ts.foldl (fun d t => d.put (fun d u => moveTeam (d.teams.filter fun v => v.key != u.key) e.core u) t) d)

/-- Whether a partition or a request keeps a team from issuing (R139, R155, R156, R194, R227, R364): a debug halt holds outside runs, a requested
save at its LIVE point or, once full, between positions outside a run, a compaction at its LIVE point. -/
def Team.stopped (fw : Fw) (d : Dev) (t : Team) : Bool :=
  !(fw.goes t.part) || t.reopen.isSome || (t.halted && !t.inRun) ||
  (match t.save with
    | none => !t.slide.isEmpty && atLive fw { d with cur := t }
    | some .full => t.between
    | some .atPoint => true
    | some .live => atLive fw { d with cur := t })

/-- A ready team (R156). -/
def Team.isReady (fw : Fw) (d : Dev) (t : Team) : Bool := t.live && t.wait == .ready && !(t.stopped fw d)

/-- Teams of a slot in its active set. -/
def activeSet (ts : List Team) (c slot : Nat) : List Team := (slotTeams ts c slot).filter (·.active)

/-- ACTIVE_SET_EVICTION: a team that has not been ready for 64 cycles leaves the active set for a ready team of its slot (R158), never inside a run nor
between a hint and its instruction (R240), which has issued where it holds the team. -/
def execActiveSetEviction (σ : State) : Host.Outcome State Fault Refusal :=
  teamEvent σ fun fw _ d =>
    let t := d.cur
    if t.active && !(t.isReady fw d) && !t.inRun && (t.hints.isEmpty || t.wait != .ready) && longAgo d t.lastReady 64 &&
        t.cores.any (fun c => (slotTeams d.teams c t.slot).any fun u => !u.active && u.isReady fw d)
    then some (d.upd fun t => { t with active := false }) else none

/-- The team of a core that has been longest without issue, by TEAMID among equals (R159). -/
def longestIdle (ts : List Team) : Option Team :=
  (sortBy (fun (a b : Team) => decide (a.lastIssue < b.lastIssue) || (a.lastIssue == b.lastIssue && decide (a.teamId.toNat ≤ b.teamId.toNat))) ts).head?

/-- PROGRESS_SWAP: no team of a core has issued for PROGRESS_WINDOW cycles while a launch of its partition waits for space there, since its head team fits
on no core; the longest idle team is to be saved (R159, R227). part, core. -/
def execProgressSwap (σ : State) : Host.Outcome State Fault Refusal :=
  event σ fun fw e d =>
    let here := d.teams.filter fun t => t.live && t.cores.contains e.core
    let window := (fw.part e.part).pwin.toNat
    match listHead d e.part, longestIdle here with
    | some x, some v =>
      if fw.hasCore e.part e.core && !((fw.coresOf e.part).any (fitsOn d.teams (x.decl d))) && here.all (fun t => longAgo d t.lastIssue window) && v.save.isNone then
        (d.focus v.key).map fun d => d.upd fun t => { t with save := some .live, saveAt := d.time.toNat }
      else none
    | _, _ => none

end Sys2Proof.Machine
end

