-- ==== Sys2Proof/Machine/Saves.lean ====
section
/-! DEFINITION. Save areas, saves and restores (R139, R194, R205, R206, R227-R230, R285). -/
namespace Sys2Proof.Machine

/-! ### What a LIVE point names (R229, R238) -/

/-- Set bits of a 16-bit bitmap. -/
def bits16 (b : BitVec 16) : List Nat := (upFrom 0 16).filter fun i => b.getLsbD i

/-- Vector registers, ascending. -/
def liveVs (hs : List Instr) : List Nat :=
  sortBy (fun a b => decide (a ≤ b)) ((hs.flatMap fun i => match i with | .livev g b => (bits16 b).map fun j => 16 * g.toNat + j | _ => []).eraseDups)
/-- Scalars. -/
def liveSs (hs : List Instr) : List Nat :=
  hs.flatMap fun i => match i with | .lives c b => if c.toNat < 4 then (bits16 b).map fun j => 16 * c.toNat + j else [] | _ => []
/-- Masks. -/
def liveKs (hs : List Instr) : List Nat := hs.flatMap fun i => match i with | .lives c b => if c.toNat = 4 then bits16 b else [] | _ => []
/-- Scratchpad ranges, ascending, as (first word, words). -/
def livePs (hs : List Instr) : List (Nat × Nat) :=
  sortBy (fun a b => decide (a.1 ≤ b.1)) (hs.filterMap fun i => match i with | .livep s c => some (64 * s.toNat, 64 * (c.toNat + 1)) | _ => none)

/-- What a save keeps: everything for a full save, or what the LIVE words name. -/
structure Kept where
  vs : List Nat
  ranges : List (Nat × Nat)
  words : List Instr
  full : Bool
deriving DecidableEq, Repr

def keptFull (k : Decl) : Kept := { vs := upFrom 0 k.vregs, ranges := if k.scratch = 0 then [] else [(0, k.scratch / 4)], words := [], full := true }
def keptLive (hs : List Instr) : Kept := { vs := liveVs hs, ranges := livePs hs, words := hs, full := false }

/-- Halves of declarations. -/
def Decl.halves (k : Decl) : List Nat := if 512 < k.lanes then [0, 1] else [0]

/-! ### The image (R228) -/

/-- Nibbles packed two to a byte, the even one low. -/
def nibbles (f : Nat → Nat) (n : Nat) : List Byte := (upFrom 0 (n / 2)).map fun i => BitVec.ofNat 8 (f (2 * i) % 16 + f (2 * i + 1) % 16 * 16)
/-- Nibble i of packed bytes. -/
def nibbleAt (bs : List Byte) (i : Nat) : Nat := (nthD 0 bs (i / 2)).toNat / (if i % 2 = 0 then 1 else 16) % 16

def vectorImage (t : Team) (v : Nat) : List Byte :=
  ((upFrom 0 t.lanes).flatMap fun l => leBytes 4 (t.regs.lane v l).val.toNat) ++ nibbles (fun l => (t.regs.lane v l).lbl.toNat) t.lanes

def rangeImage (t : Team) (half : Nat) (r : Nat × Nat) : List Byte :=
  let w := fun i => mget {} t.regs.scr (half * 2 ^ 20 + r.1 + i)
  ((upFrom 0 r.2).flatMap fun i => leBytes 4 (w i).val.toNat) ++
    (upFrom 0 r.2).map fun i => BitVec.ofNat 8 ((w i).lbl.toNat + if (w i).armed then 16 else 0)

/-- The image of R72 and the row labels. -/
def tileSave (x : Tile) : List Byte := tileImage x ++ nibbles (fun r => (mget 0 x.lbl r).toNat) 32

/-- A suspended stream (R285). -/
def streamImage (o : Op) (c : Kudu) : List Byte :=
  packBytes 64 [(0, 8, c.desc.toNat), (8, 8, c.committed), (16, 8, c.spec), (24, 1, o.q.getD 0),
    (25, 1, (if c.fault.isSome then 1 else 0) + if c.stopping then 2 else 0), (32, 4, c.lbl.toNat)]

/-- The suspended streams of a team. -/
def Team.streams (t : Team) : List (Op × Kudu) := t.ops.filterMap fun o => match o.kind with | .kudu c => if c.suspended && !o.done then some (o, c) else none | _ => none

/-- A session block (R194). -/
def sessionImage (s : Session) : List Byte :=
  let x := s.desc
  packBytes 128 [(0, 8, x.addr.toNat), (8, 8, s.hrow.toNat), (16, 8, s.sc.toNat), (24, 8, x.theta.toNat), (32, 8, x.ftens.toNat),
    (40, 8, x.rules.toNat), (48, 8, x.rowmap.toNat), (56, 8, x.hold.toNat), (64, 4, x.nf), (68, 2, x.kk), (70, 1, x.tapid)] ++
  ((upFrom 0 32).flatMap fun i => leBytes 4 (mget {} s.rows i).lbl.toNat) ++
  (upFrom 0 32).flatMap fun i =>
    let l := (mget {} s.rows i).list
    leBytes 8 l.length ++ ((upFrom 0 x.kk).flatMap fun j => match l.drop j with | p :: _ => leBytes 4 p.1 ++ leBytes 4 p.2.toNat | [] => leBytes 8 0)

/-- The session that a save writes: the open one, or one that a restore has still to reopen. -/
def Team.sessionKept (t : Team) : Option Session := match t.session with | some s => some s | none => t.reopen

/-- The data part. -/
def dataImage (t : Team) (k : Kept) : List Byte :=
  (k.vs.flatMap (vectorImage t)) ++
  (t.decl.halves.flatMap fun h => k.ranges.flatMap (rangeImage t h)) ++
  (t.decl.halves.flatMap fun h => (upFrom 0 t.decl.acc).flatMap fun i => tileSave (t.regs.tile h i)) ++
  (t.streams.flatMap fun p => streamImage p.1 p.2) ++
  (match t.sessionKept with | some s => sessionImage s | none => [])

/-- The header up to offset 5,120. -/
def headImage (t : Team) (k : Kept) (seq : Dword) (len : Nat) : List Byte :=
  let mon := match t.wait with | .monitor m => some m | _ => none
  let format := 1 + (if k.full then 512 else 256) + (if t.sp.handling then 1024 else 0) + (if t.sessionKept.isSome then 2048 else 0) +
    (if mon.isSome then 4096 else 0) + if t.paired then 8192 else 0
  packBytes 64 [(0, 4, format), (4, 2, t.lanes), (6, 1, t.decl.group), (7, 1, t.decl.vregs), (8, 8, t.pc.toNat), (16, 8, t.restart.toNat),
    (24, 4, t.teamId.toNat), (28, 4, t.launchId.toNat), (32, 4, t.index), (36, 4, t.decl.scratch / 256), (40, 1, t.decl.acc),
    (41, 1, t.streams.length), (48, 8, seq.toNat), (56, 8, len)] ++
  ((upFrom 0 16).flatMap fun i => leBytes 4 (t.org (BitVec.ofNat 4 i)).toNat) ++
  ((upFrom 0 16).map fun q => BitVec.ofNat 8 (t.count q)) ++ leBytes 48 0 ++
  ([t.sp.tstat.toNat, t.sp.tcause.toNat, t.sp.tpc.toNat, t.sp.tinfo0.toNat, t.sp.tinfo1.toNat, t.sp.dbgctl.toNat, t.sp.watcha.toNat,
    t.sp.watchb.toNat].flatMap (leBytes 8)) ++
  ((upFrom 0 63).flatMap fun s => leBytes 8 (mget {} t.regs.s s).val.toNat) ++ leBytes 8 t.regs.cc.toN ++
  nibbles (fun s => if s = 63 then 0 else (mget {} t.regs.s s).lbl.toNat) 64 ++
  ((upFrom 0 8).flatMap fun h => (upFrom 0 8).flatMap fun j => leBytes 8 (mget 0 (mget {} t.regs.hnd h).words j).toNat) ++
  ((upFrom 0 16).flatMap fun i => leBytes 128 (mget 0 t.regs.k i).toNat ++ leBytes 4 (maskSum (mget 0 t.regs.k i)).toNat) ++
  (match t.gp with
    | some (vs, os) => ((upFrom 0 64).flatMap fun i => leBytes 8 (mget 0 vs i).toNat) ++ (upFrom 0 64).flatMap fun i => leBytes 4 (mget 0 os i).toNat
    | none => leBytes 768 0) ++
  ((upFrom 0 16).flatMap fun j => leBytes 8 (mget 0 t.stall j).toNat) ++ leBytes 8 t.resident.toNat ++ leBytes 8 t.issued.toNat ++
  (match mon with | some m => leBytes 8 (m.va.toNat + if m.dbl then 1 else 0) ++ leBytes 8 m.want.toNat | none => leBytes 16 0) ++
  ((upFrom 0 64).flatMap fun i => match k.words.drop i with | w :: _ => leBytes 4 (wordOf w) | [] => leBytes 4 0) ++ leBytes 512 0

/-! ### Saves (R227) -/

/-- A team stands at a position that can be saved: it executes that position again after the restore. A monitor that a write has met wakes it
first (R147). -/
def Team.savable (t : Team) : Bool :=
  match t.wait with
  | .exit _ _ => false
  | .trap _ => false
  | .tfault _ => false
  | .call _ => false
  | .held _ => false
  | .monitor _ => !t.met
  | _ => true

/-- Streams suspend for a save (R227 step 1). -/
def suspendAll (t : Team) : Team := { t with ops := t.ops.map suspendOp }

/-- The addresses a team's save area names (R206): where it goes on and restarts, its trapped position, its streams' descriptors, its monitor, its
handles' bases, its session's fields. -/
def namedVas (t : Team) : List Dword :=
  [t.first, t.restart] ++ (if t.sp.tcause = 0 then [] else [t.sp.tpc]) ++ (t.streams.map fun p => p.2.desc) ++
  (match t.wait with | .monitor m => [m.va] | _ => []) ++
  ((upFrom 0 8).filterMap fun h => let x := mget {} t.regs.hnd h; if x.words.isEmpty then none else some (BitVec.ofNat 64 x.base)) ++
  (match t.sessionKept with | some s => [s.desc.addr, s.hrow, s.desc.theta, s.desc.ftens, s.desc.rules, s.desc.rowmap, s.desc.hold] | none => [])

/-- Their pages, with the classes they have. -/
def namedPages (fw : Fw) (d : Dev) (t : Team) : List (Nat × Option Nat) :=
  ((namedVas t).filterMap fun va => if !(isTranslated va) then none else some (vpnOf va, match freshXl fw d t.part 0 (vpnOf va) with
    | .ok x => some x.cls.toNat
    | .error _ => none)).eraseDups

/-- The origins registered in a partition: number and public key. -/
def originKeys (fw : Fw) (part : Nat) : List (Nat × List Byte) :=
  (upFrom 0 32).filterMap fun i => if (fw.part part).origins.getLsbD i then some (i, (mget {} fw.origins (32 * part + i)).key) else none

/-- What Limamon remembers of a save. -/
def saveNote (fw : Fw) (d : Dev) (t : Team) (seq : Dword) : SaveNote :=
  { seq, keys := originKeys fw t.part, pages := namedPages fw d t, part := t.part, launch := t.launch, decl := t.decl, gp := t.gp.isSome,
    handles := (upFrom 0 8).map fun h => (mget {} t.regs.hnd h).lbl, start := t.start, streams := t.streams.map (·.1), nextOp := t.nextOp }

/-- The origins of all that a team's image holds (R355): its label table, handles, parameters, streams and session. -/
def imageSet (t : Team) : OSet :=
  let join := fun (l : List OSet) => l.foldl (· ||| ·) 0
  join (t.regs.labels.map (·.2)) ||| join (t.regs.hnd.map (·.2.lbl)) ||| (match t.gp with | some p => join (p.2.map (·.2)) | none => 0) |||
  join (t.streams.map (·.2.lbl)) ||| join (t.sessionKept.toList.flatMap fun s => s.rows.map (·.2.lbl))

/-- The save of the acting team, drained: the area is written but for its call fields, its pages' sets taking the image's origins (entry 48), runs,
tiles and session store are freed, and the team returns to the head of its priority on the launch list (R159, R227). Its sequence number is one of
Limamon's, so that the area names no core or slot (R205, R209; entry 31). A page that does not translate halts the partition (R139). -/
def takeSave (fw : Fw) (k : Kept) (d : Dev) : Fw × Dev :=
  let t := d.cur.atFirst
  let (seq, d1) := newSeq d (limamon 0)
  let data := dataImage t k
  let s := imageSet t
  match (fwWrite fw d1 t.part t.saveArea (headImage t k seq data.length) s).bind fun d2 =>
      (fwWrite fw d2 t.part (t.saveArea + 5256) (leBytes 2936 0) s).bind fun d3 => fwWrite fw d3 t.part (t.saveArea + 16384) data s with
  | none => haltPartition fw d t.part 1
  | some d2 =>
    let d3 := unpinFrames d2 (t.ops.flatMap (·.pins))
    let x : Swapped := { part := t.part, prio := t.prio, launch := t.launch, area := t.saveArea, pins := t.pins, decl := t.decl, key := t.key,
                         teamId := t.teamId, halted := t.halted, under := (t.streams.flatMap (·.2.under)).eraseDups }
    (fw, enlistFirst { d3 with cur := {}, saves := saveNote fw d t seq :: d3.saves } (.restore x) t.prio)

/-- A save goes on, as d1 has it: it drains, its streams suspended, and is then taken; none while it has nothing to do but wait. d0: before. -/
def saveStep (fw : Fw) (d0 d : Dev) (k : Kept) : Option (Fw × Dev) :=
  let d1 := d.upd suspendAll
  if d1.cur.drained then some (takeSave fw k (d1.upd Team.leaveDone)) else if d1.cur = d0.cur then none else some (fw, d1)

/-- The save requested of a team has waited PREEMPT_LIMIT cycles without a LIVE point, or has become a full one (R227). -/
def saveDue (fw : Fw) (d : Dev) (t : Team) : Bool :=
  match t.save with
  | some .full => true
  | some .live => longAgo d t.saveAt (fw.part t.part).plim.toNat
  | some .atPoint => false
  | none => false

/-- SAVE: Limamon requests a save of a team, for pre-emption or a migration of it; or the save requested is taken at a LIVE point that the team reaches
within PREEMPT_LIMIT cycles, and at which it stays while it drains (R159, R227, R229, R240, R279). -/
def execSave (σ : State) : Host.Outcome State Fault Refusal :=
  eventFw σ fun fw e d => (d.focus e.tid).bind fun d =>
    let t := d.cur
    match t.save with
    | none => match t.wait with
      | .exit _ _ => none
      | _ => some (fw, d.upd fun t => { t with save := some .live, saveAt := d.time.toNat })
    | some _ =>
      if !(saveDue fw d t) && fw.goes t.part && t.savable && atLive fw d then
        saveStep fw d (d.upd fun t => { t with save := some .atPoint }) (keptLive ((d.whole fw).filter isLive))
      else none

/-- FULL_SAVE: PREEMPT_LIMIT cycles have passed without a LIVE point; the save is a full one at a position outside a run (R227). -/
def execFullSave (σ : State) : Host.Outcome State Fault Refusal :=
  eventFw σ fun fw e d => (d.focus e.tid).bind fun d =>
    let t := d.cur
    if saveDue fw d t && fw.goes t.part && t.between && t.savable then saveStep fw d (d.upd fun t => { t with save := some .full }) (keptFull t.decl)
    else none

/-! ### Restores (R227) -/

/-- Declarations as the header has them. -/
def headDecl (h : List Byte) (l : Decl) : Decl :=
  { l with lanes := fieldAt h 4 2, group := fieldAt h 6 1, vregs := fieldAt h 7 1, scratch := 256 * fieldAt h 36 4, acc := fieldAt h 40 1 }

/-- The LIVE words of a header. -/
def headLive (h : List Byte) : List Instr :=
  (upFrom 0 64).filterMap fun i => if fieldAt h (4352 + 4 * i) 4 = 0 then none else decodeWord (fieldAt h (4352 + 4 * i) 4)

/-- What a header says was kept. -/
def headKept (h : List Byte) (k : Decl) : Kept := if fieldAt h 1 1 % 4 = 2 then keptFull k else keptLive (headLive h)

/-- Registers of the header; a LIVE save keeps the scalars and masks that its point names (R229). -/
def headRegs (h : List Byte) (k : Kept) (n : SaveNote) : Regs :=
  let ss := if k.full then upFrom 0 63 else liveSs k.words
  let ks := if k.full then upFrom 0 16 else liveKs k.words
  { s := ss.foldl (fun m s => mset {} m s { val := BitVec.ofNat 64 (fieldAt h (256 + 8 * s) 8), lbl := BitVec.ofNat 4 (nibbleAt (h.drop 768) s) }) [],
    cc := CC.ofN (fieldAt h 760 1),
    k := ks.foldl (fun m i => mset 0 m i (BitVec.ofNat 1024 (fieldAt h (1312 + 132 * i) 128))) [],
    labels := numbered 0 (fun i => if i = 0 then 0 else BitVec.ofNat 32 (fieldAt h (64 + 4 * i) 4)) 16,
    hnd := numbered {} (fun i => { words := numbered 0 (fun j => BitVec.ofNat 64 (fieldAt h (800 + 64 * i + 8 * j) 8)) 8, lbl := nthD 0 n.handles i }) 8 }

/-- Vector registers of the data part, and where it goes on. -/
def dataVs (lanes : Nat) : List Nat → List Byte → SMap LVal → SMap LVal × List Byte
  | [], bs, m => (m, bs)
  | v :: r, bs, m =>
    let lab := bs.drop (4 * lanes)
    let m1 := (upFrom 0 lanes).foldl (fun m l => mset {} m (1024 * v + l) { val := BitVec.ofNat 32 (fieldAt bs (4 * l) 4), lbl := BitVec.ofNat 4 (nibbleAt lab l) }) m
    dataVs lanes r (bs.drop (4 * lanes + lanes / 2)) m1

/-- Scratchpad ranges, as (half, first word, words). -/
def dataScr : List (Nat × Nat × Nat) → List Byte → SMap ScrWord → SMap ScrWord × List Byte
  | [], bs, m => (m, bs)
  | (h, w, n) :: r, bs, m =>
    let m1 := (upFrom 0 n).foldl (fun m i =>
      let t := fieldAt bs (4 * n + i) 1
      mset {} m (h * 2 ^ 20 + w + i) { val := BitVec.ofNat 32 (fieldAt bs (4 * i) 4), lbl := BitVec.ofNat 4 t, armed := t / 16 % 2 == 1 }) m
    dataScr r (bs.drop (5 * n)) m1

/-- The tile of 4,240 bytes. -/
def tileRestore (bs : List Byte) : Tile :=
  { (imageTile (bs.take 4224)).getD {} with lbl := numbered 0 (fun r => BitVec.ofNat 4 (nibbleAt (bs.drop 4224) r)) 32 }

/-- Tiles, as 64 half + tile. -/
def dataTiles : List Nat → List Byte → SMap Tile → SMap Tile × List Byte
  | [], bs, m => (m, bs)
  | i :: r, bs, m => dataTiles r (bs.drop 4240) (mset {} m i (tileRestore bs))

/-- Where an engine's address lies when a stream resumes. -/
def restoreTgt (fw : Fw) (d : Dev) (part : Nat) (va : Dword) : Option Target :=
  if inScratch va then some (.scr 0 (va.toNat - 0xFFFFF00000000000))
  else match fwXl fw d part fwR va with | .ok t => some (.mem (t.pa va) t.ent (!t.mi)) | _ => none

/-- What a stream's operation keeps from before the save: number, instruction, what bounds its reads, the Lodge's test of it (R142, R172, R173). -/
def streamWas (was : List Op) (n : Nat) : Op × Bool × List Nat :=
  match (was.drop n).head? with
  | some o => (o, match o.kind with | .kudu c => (c.tested, c.under) | _ => (false, []))
  | none => ({ id := n + 1, q := none, pc := 0, first := 0, kind := .instant }, false, [])

/-- Suspended streams as operations that resume at their committed positions; `was`: those of the save. -/
def dataStreams (fw : Fw) (d : Dev) (part : Nat) (was : List Op) (bs : List Byte) : Nat → Option (List Op)
  | 0 => some []
  | n + 1 =>
    match dataStreams fw d part was bs n with
    | none => none
    | some os =>
      let b := bs.drop (64 * n)
      let desc := BitVec.ofNat 64 (fieldAt b 0 8)
      (restoreTgt fw d part desc).map fun tgt =>
        let (o, tested, under) := streamWas was n
        let c : Kudu := { kind := .copy, desc, tgt, h := 0, hw := {}, lbl := BitVec.ofNat 32 (fieldAt b 32 4), committed := fieldAt b 8 8,
                          spec := fieldAt b 16 8, stopping := fieldAt b 25 1 / 2 % 2 == 1, tested, under }
        os ++ [{ id := o.id, q := some (fieldAt b 24 1 % 16), pc := o.pc, first := o.pc, bound := o.bound, kind := .kudu { c with spec := c.again } }]

/-- The session of a block (R194). -/
def sessionRestore (bs : List Byte) : Session :=
  let f := fieldAt bs
  let kk := f 68 2
  { desc := { addr := BitVec.ofNat 64 (f 0 8), theta := BitVec.ofNat 64 (f 24 8), ftens := BitVec.ofNat 64 (f 32 8), rules := BitVec.ofNat 64 (f 40 8),
              rowmap := BitVec.ofNat 64 (f 48 8), hold := BitVec.ofNat 64 (f 56 8), nf := f 64 4, kk, tapid := f 70 1 },
    hrow := BitVec.ofNat 64 (f 8 8), sc := BitVec.ofNat 64 (f 16 8),
    rows := numbered {} (fun i =>
      let b := bs.drop (256 + (8 + 8 * kk) * i)
      { lbl := BitVec.ofNat 32 (f (128 + 4 * i) 4),
        list := (upFrom 0 (fieldAt b 0 2)).map fun j => (fieldAt b (8 + 8 * j) 4, BitVec.ofNat 32 (fieldAt b (12 + 8 * j) 4)) }) 32 }

/-- A restored team whose monitor was armed stands in its MWAIT again, behind the group's hint words; MWAIT_WAKE rechecks the location (R147). -/
def rearm (fw : Fw) (d : Dev) (h : List Byte) (t : Team) : Team :=
  if fieldAt h 1 1 / 16 % 2 = 0 then t
  else
    let a := fieldAt h 4336 8
    let va := BitVec.ofNat 64 (a / 2 * 2)
    let g := Dev.group fw { d with cur := t }
    { t with wait := .monitor { va, tgt := restoreTgt fw d t.part va, dbl := a % 2 == 1, want := BitVec.ofNat 64 (fieldAt h 4344 8) },
             hgrp := t.pc, hints := g, pc := t.pc + BitVec.ofNat 64 (4 * g.length) }

/-- The team that header h and data bs describe, but for its place: of the declarations k, as save note n and launch l know it. -/
def restoreTeam (fw : Fw) (d : Dev) (x : Swapped) (l : Launch) (n : SaveNote) (h bs : List Byte) : Option Team :=
  let decl := x.decl
  let k := headKept h decl
  let (vs, b1) := dataVs decl.lanes k.vs bs []
  let (scr, b2) := dataScr (decl.halves.flatMap fun y => k.ranges.map fun r => (y, r.1, r.2)) b1 []
  let (tiles, b3) := dataTiles (decl.halves.flatMap fun y => (upFrom 0 decl.acc).map fun i => 64 * y + i) b2 []
  let ns := fieldAt h 41 1
  (dataStreams fw d x.part n.streams b3 ns).map fun ops =>
    let gp : SMap Dword × SMap OSet := (numbered 0 (fun i => BitVec.ofNat 64 (fieldAt h (3424 + 8 * i) 8)) 64, numbered 0 (fun i => BitVec.ofNat 32 (fieldAt h (3936 + 4 * i) 4)) 64)
    let sp := fun i => fieldAt h (192 + 8 * i) 8
    rearm fw d h
      { live := true, part := x.part, teamId := BitVec.ofNat 32 (fieldAt h 24 4), launch := l.key, launchId := BitVec.ofNat 32 (fieldAt h 28 4),
        index := fieldAt h 32 4, decl, regs := { headRegs h k n with v := vs, scr, tiles },
        sp := { tstat := BitVec.ofNat 19 (sp 0), tcause := BitVec.ofNat 8 (sp 1), tpc := BitVec.ofNat 64 (sp 2), tinfo0 := BitVec.ofNat 64 (sp 3),
                tinfo1 := BitVec.ofNat 64 (sp 4), dbgctl := BitVec.ofNat 8 (sp 5), watcha := BitVec.ofNat 22 (sp 6), watchb := BitVec.ofNat 22 (sp 7),
                handling := fieldAt h 1 1 / 4 % 2 == 1 },
        pc := BitVec.ofNat 64 (fieldAt h 8 8), restart := BitVec.ofNat 64 (fieldAt h 16 8), restartOp := max n.nextOp (ns + 1), nextOp := max n.nextOp (ns + 1), ops,
        reopen := if fieldAt h 1 1 / 8 % 2 = 1 then some (sessionRestore (b3.drop (64 * ns))) else none,
        start := n.start, lastIssue := d.time.toNat, lastReady := d.time.toNat,
        stall := numbered 0 (fun j => BitVec.ofNat 48 (fieldAt h (4192 + 8 * j) 8)) 16, resident := BitVec.ofNat 48 (fieldAt h 4320 8),
        issued := BitVec.ofNat 48 (fieldAt h 4328 8), gp := if l.graph.isSome || n.gp then some gp else none }

/-- A restored session reopens in a free store of its core (R194): none while there is none, or nothing to reopen. -/
def reopenSession (d : Dev) : Option Dev :=
  match d.cur.reopen with
  | some s => if decide (4 ≤ d.stores) then none else some (d.upd fun t => { t with sessions := [s], reopen := none })
  | none => none

/-- The header and the data part of a save area; none when a page does not translate. -/
def savedParts (fw : Fw) (d : Dev) (x : Swapped) : Option (List Byte × List Byte) :=
  (fwRead fw d x.part x.area 16384).bind fun h => (fwRead fw d x.part (x.area + 16384) (fieldAt h 56 8)).map fun bs => (h, bs)

/-- What Limamon knows of the save that a header describes (R206). -/
def noteOf (d : Dev) (h : List Byte) : SaveNote :=
  (d.saves.find? fun n => n.seq.toNat == fieldAt h 48 8).getD { seq := 0, keys := [], pages := [] }

/-- The saved team x comes back in the place `runs` on a core and slot, from its save area (R206, R227). -/
def bringBack (fw : Fw) (x : Swapped) (core slot : Nat) (runs : List Runs) (d0 : Dev) : Option (Fw × Dev) :=
  let d := fwNote fw (firmAcquire d0) x.part x.area 16384
  match savedParts fw d x with
  | none => some (haltPartition fw d0 x.part 1)
  | some (h, bs) =>
    let more := if x.pins.isEmpty then areaEnts fw d x.part x.area (saveBytes x.decl) else []
    if !(canPin d more) then none
    else (restoreTeam fw d x (mget {} d.launches x.launch) (noteOf d h) h bs).map fun t0 =>
      let t : Team := { t0 with key := x.key, core, slot, runs, prio := x.prio, saveArea := x.area, pins := x.pins ++ more, halted := x.halted }
      let d1 := { pinFrames d more with waitSince := mdel d.waitSince x.part, list := dropFirst (fun y => y == .restore x) d.list }
      let d2 := startAcquire d1 t
      let d3 := match d2.focus t.key with | some f => (reopenSession f).getD d2 | none => d2
      (fw, match d3.cmds.find? fun c => c.part == x.part && c.wait == .restore x.area with | some c => endCmd fw d3 c 0 | none => d3)

/-- TEAM_RESTORE: the saved team at the head of a partition's launch list fits, and is rebuilt from its save area (R206, R227): part, core, slot; or
the session of a restored team tid reopens, once a store is free (R194). -/
def execTeamRestore (σ : State) : Host.Outcome State Fault Refusal :=
  eventFw σ fun fw e d =>
    if e.tid ≠ 0 then (d.focus e.tid).bind fun d => (reopenSession d).map fun d1 => (fw, d1)
    else match listHead d e.part with
      | some (.restore x) =>
        if !(fw.goes x.part) || !(fw.hasCore x.part e.core) then none
        else (placeTeam d.teams e.core e.slot x.decl).bind fun runs => bringBack fw x e.core e.slot runs d
      | _ => none

end Sys2Proof.Machine
end

