-- ==== Sys2Proof/Machine/Command.lean ====
section
/-! DEFINITION. Host work queues and the ordinary commands (R107, R150-R153, R353). -/
namespace Sys2Proof.Machine

/-! ### Taking an entry (R150-R153) -/

/-- Physical address of a ring entry: BASE is a physical address divided by 64, bit 43 host memory (entry 30). -/
def Queue.entryAt (q : Queue) (i : Nat) : Nat :=
  (if q.base.getLsbD 43 then 2 ^ 40 else 0) + (q.base.toNat % 2 ^ 43 * 64 + 64 * (i % q.entries)) % 2 ^ 40

/-- The 128 bits of a queue's record (R150). -/
def Queue.record (q : Queue) : Nat :=
  q.head.toNat * 2 ^ 96 + q.tail.toNat * 2 ^ 64 + q.state.toNat * 2 ^ 56 + q.log2.toNat * 2 ^ 52 + q.prio.toNat * 2 ^ 49 + q.part.toNat * 2 ^ 44 + q.base.toNat

/-- A queue's next entry, if Limamon may take it: ACTIVE, posted, its partition running (R139), its FENCE satisfied (R153), no move to end (R132). -/
def nextEntry (fw : Fw) (d : Dev) (q : Nat) : Option (List Byte) :=
  let x := mget {} fw.queues q
  if x.state ≠ 1 || x.head == x.tail || !(fw.goes x.part.toNat) || d.moved then none
  else
    let bs := memBytes d.mem (x.entryAt x.head.toNat) 64
    if fieldAt bs 1 1 % 2 = 1 && d.cmds.any (fun c => c.q == q) then none else some bs

/-- The turn among queues (R153): the highest priority that has an entry, and among equals the next in ascending number. -/
def queueTurn (fw : Fw) (d : Dev) (q : Nat) : Bool :=
  let p := (mget {} fw.queues q).prio.toNat
  let others := fw.queues.filter fun x => x.1 != q && (nextEntry fw d x.1).isSome
  let last := mget 0 fw.lastQ p
  let dist := fun n => (n + 32768 - last - 1) % 32768
  others.all fun x => decide (x.2.prio.toNat < p) || (x.2.prio.toNat == p && decide (dist q < dist x.1))

/-- The command of an entry: its code, and the operand that tells one row of the table from another. -/
def entryInstr (bs : List Byte) : Option Instr :=
  let code := fieldAt bs 0 1
  decodeCommand code (match code with
    | 0x41 => fieldAt bs 17 1
    | 0x48 => fieldAt bs 20 1
    | 0x4A => fieldAt bs 24 4
    | _ => fieldAt bs 16 1)

/-- Who may issue a command (R354, R364). -/
inductive Right where
  | anyone | own | debug | physical
deriving DecidableEq, Repr

/-- A physical function's queue. -/
def Fw.physical (fw : Fw) (q : Nat) : Bool := (fw.owner q).isNone

/-- A partition's own queue with privilege. -/
def Fw.privileged (fw : Fw) (q : Nat) : Bool := (mget {} fw.queues q).priv && fw.owner q == some (mget {} fw.queues q).part.toNat

def Right.ok (fw : Fw) (q : Nat) : Right → Bool
  | .anyone => true
  | .own => fw.privileged q || fw.physical q
  | .debug => fw.privileged q
  | .physical => fw.physical q

/-- An accepted entry: queue, partition, command number, operands. -/
structure Entry where
  q : Nat
  part : Nat
  id : Nat
  ops : List Byte
deriving DecidableEq, Repr

/-- An operand by its offset in the entry. -/
def Entry.f (e : Entry) (off n : Nat) : Nat := operand e.ops off n
def Entry.va (e : Entry) (off : Nat) : Dword := BitVec.ofNat 64 (operand e.ops off 8)

/-- How performing a command ends: with a status, or waiting. -/
inductive Done where
  | status (n : Nat)
  | wait (w : CmdWait)
deriving DecidableEq, Repr

/-- What a command does: none while Limamon cannot start it yet. -/
abbrev Perform := Fw → Dev → Entry → Option (Fw × Dev × Done)

/-- Take the entry bs of queue q (R151, R152): HEAD advances; then the completion address, the reserved bits, the privilege and the
unnamed operand bytes are checked, and the command is performed. -/
def runEntry (fw : Fw) (d : Dev) (q : Nat) (bs : List Byte) (r : Right) (named : List (Nat × Nat)) (perform : Perform) : Option (Fw × Dev) :=
  let x := mget {} fw.queues q
  let part := x.part.toNat
  let flags := fieldAt bs 1 1
  let fw1 := { fw with queues := mupd {} fw.queues q fun y => { y with head := y.head + 1 }, nextCmd := fw.nextCmd + 1,
                       lastQ := mset 0 fw.lastQ x.prio.toNat q }
  let c : Cmd := { id := fw.nextCmd, q, part, tag := BitVec.ofNat 32 (fieldAt bs 4 4), comp := BitVec.ofNat 64 (fieldAt bs 8 8),
                   notify := flags / 2 % 2 == 1, wait := .peer 0 }
  let e : Entry := { q, part, id := fw.nextCmd, ops := bs.drop 16 }
  let stop := fun (st : Nat) => some (fw1, completion fw1 d c st)
  if !(compOk fw d part c.comp) then
    let d1 := rejected fw1 d part q c.tag.toNat 1 c.comp
    some (fw1, if c.notify then raiseMsi d1 (fw.function q) x.vec else d1)
  else if decide (4 ≤ flags) || fieldAt bs 2 2 != 0 then stop 1
  else if !(r.ok fw q) then stop 3
  else if !(namedOnly e.ops named) then stop 1
  else match perform fw1 d e with
    | none => none
    | some (fw2, d2, .status st) => some (fw2, completion fw2 d2 c st)
    | some (fw2, d2, .wait w) => some (fw2, { d2 with cmds := d2.cmds ++ [{ c with wait := w }] })

/-- A host command. op = 0: Limamon takes the entry at HEAD of queue q, in its turn; otherwise command op, accepted before, goes on. -/
def command (σ : State) (i : Instr) (r : Right) (named : List (Nat × Nat)) (perform : Perform)
    (resume : Fw → Dev → Cmd → Option (Fw × Dev)) : Host.Outcome State Fault Refusal :=
  eventFw σ fun fw a d =>
    if a.op ≠ 0 then (if d.moved then none else (d.cmd a.op).bind (resume fw d))
    else match nextEntry fw d a.q with
      | none => none
      | some bs => if entryInstr bs = some i && queueTurn fw d a.q then runEntry fw d a.q bs r named perform else none

/-- A command that never waits. -/
def simple (σ : State) (i : Instr) (r : Right) (named : List (Nat × Nat)) (perform : Fw → Dev → Entry → Fw × Dev × Nat) :
    Host.Outcome State Fault Refusal :=
  command σ i r named (fun fw d e => let (fw1, d1, st) := perform fw d e; some (fw1, d1, .status st)) fun _ _ _ => none

/-- An entry of no known code completes BAD_COMMAND (R152, R354, R364). -/
def refuseEntry (q : Nat) (σ : State) : Host.Outcome State Fault Refusal :=
  eventFw { σ with args := { q } } fun fw a d =>
    match nextEntry fw d a.q with
    | none => none
    | some bs => if (entryInstr bs).isSome || !(queueTurn fw d a.q) then none else runEntry fw d a.q bs .anyone [(16, 48)] fun fw d _ => some (fw, d, .status 1)

/-! ### Memory of a command -/

/-- Read for a command, with the machine after it, or the machine after the fault that ends it (R105, R152). -/
def commandRead (fw : Fw) (d : Dev) (part : Nat) (va : Dword) (len : Nat) : Except Dev (List Byte × Dev) :=
  match fwRange fw d part fwR va len with
  | .error (p, r) => .error (commandFault fw d part p r)
  | .ok l => if rangeBad d l va.toNat len then .error (commandUnc fw d part l va.toNat len) else .ok (rangeBytes d l va.toNat len, noteRange d l va.toNat len)

/-- Write for a command with label ∅, or the machine after the fault. -/
def commandWrite (fw : Fw) (d : Dev) (part : Nat) (va : Dword) (bs : List Byte) : Dev × Nat :=
  match fwRange fw d part fwW va bs.length with
  | .error (p, r) => (commandFault fw d part p r, 4)
  | .ok l => (commandNarrow fw (rangeWrite .limamon d l va.toNat bs) part l va.toNat bs.length, 0)

/-- The origins of what a command has written are raised on its pages (R101). -/
def commandRaise (fw : Fw) (d : Dev) (part : Nat) (va : Dword) (n : Nat) (s : OSet) : Dev :=
  match fwRange fw d part fwW va n with
  | .error _ => d
  | .ok l => rangeRaise d l s

/-! ### Ordinary commands (R353) -/

/-- LAUNCH: the launch is checked and its teams placed on the launch list (R8, R154). -/
def execLaunch (σ : State) : Host.Outcome State Fault Refusal :=
  command σ .launch .anyone [(16, 8), (24, 8), (32, 4), (40, 8)] (fun fw d e =>
    match checkLaunch fw d e.part e.ops with
    | .error st => some (fw, d, .status st)
    | .ok (k, o) =>
      let (fw1, d1) := startLaunch fw d e.part (mget {} fw.queues e.q).prio.toNat k o (some e.id) none
      some (fw1, d1, .wait (.launch d.nextKey))) fun _ _ _ => none

/-- REPLAY: a replay of an instance is to start (R198). -/
def execReplay (σ : State) : Host.Outcome State Fault Refusal :=
  command σ .replay .anyone [(16, 4)] (fun fw d e =>
    let g := graphKey e.part (e.f 16 4)
    if decide (e.f 16 4 ≤ 1023) && ((d.graph g).made || (graphWaiting d g).isSome) then some (fw, d, .wait (.replay g)) else some (fw, d, .status 1))
    fun _ _ _ => none

/-- PATCH: a parameter value is staged for the next replay (R199). -/
def execPatch (σ : State) : Host.Outcome State Fault Refusal :=
  simple σ .patch .anyone [(16, 4), (20, 2), (24, 8), (32, 4)] fun fw d e =>
    let g := graphKey e.part (e.f 16 4)
    let org : OSet := BitVec.ofNat 32 (e.f 32 4)
    if decide (1023 < e.f 16 4) || !(d.graph g).made || decide (63 < e.f 20 2) || org &&& ~~~(fw.part e.part).origins ≠ 0 then (fw, d, 1)
    else
      let (seq, d1) := newSeq d (limamon 0)
      (fw, d1.setGraph g fun x => { x with staged := x.staged ++ [{ n := e.f 20 2, val := e.va 24, org, seq }] }, 0)

/-- Pages of a translated range that len bytes at va touch. -/
def pagesIn (l : List (Dword × TlbEnt)) (va len : Nat) : List (Dword × TlbEnt) :=
  l.filter fun p => decide (va / 65536 ≤ p.1.toNat / 65536) && decide (p.1.toNat / 65536 ≤ (va + len - 1) / 65536)

/-- The set that each page of a destination takes from the source's pages (R101, R353). -/
def copySets (d : Dev) (src dst : List (Dword × TlbEnt)) (s t len : Nat) : List (Dword × TlbEnt × OSet) :=
  dst.map fun p =>
    let off := p.1.toNat - t
    (p.1, p.2, rangeCur d (pagesIn src (s + off) (min len ((p.1.toNat / 65536 + 1) * 65536 - t) - off)))

/-- COPY: bytes of the partition go to its own memory or another partition's (R353, R356). -/
def execCopy (σ : State) : Host.Outcome State Fault Refusal :=
  simple σ .copy .anyone [(16, 8), (24, 8), (32, 8), (40, 1)] fun fw d e =>
    let s := e.va 16
    let t := e.va 24
    let len := e.f 32 8
    let to_ := if e.f 40 1 = 0xFF then e.part else e.f 40 1
    if len = 0 || decide (2 ^ 40 < len) || decide (23 < to_) then (fw, d, 1)
    else if to_ ≠ e.part && !(Right.own.ok fw e.q) then (fw, d, 3)
    else match fwRange fw d e.part fwR s len, fwRange fw d to_ fwW t len with
      | .error (p, r), _ => (fw, commandFault fw d e.part p r, 4)
      | .ok _, .error (p, r) => (fw, commandFault fw d e.part p r, 4)
      | .ok src, .ok dst =>
        if rangeBad d src s.toNat len then (fw, commandUnc fw d e.part src s.toNat len, 4)
        else
          let set := rangeCur d src
          let admitted := if to_ ≠ e.part then (lodge fw e.part set 3 to_ len).isSome
            else !(dst.any fun p => p.2.isHost) || (lodge fw e.part set 1 t.toNat len).isSome
          if !admitted then (fw, postFault fw d e.part 0xA02 0x16 0 nobody nobody t.toNat len 0 set, 6)
          else
            let sets := copySets d src dst s.toNat t.toNat len
            match sets.find? fun p => p.2.2 &&& ~~~p.2.1.ceil ≠ 0 with
            | some (p, x, l) => (fw, firmRecord fw d e.part 0x12 p.toNat x.ceil.toNat l.toNat l, 4)
            | none =>
              let d1 := commandNarrow fw (rangeWrite .limamon (noteRange d src s.toNat len) dst t.toNat (rangeBytes d src s.toNat len)) to_ dst t.toNat len
              (fw, sets.foldl (fun d p => raiseCur d p.2.1.ent p.2.2) d1, 0)

/-- FILL: a pattern is repeated over a range, with label ∅ (R353). -/
def execFill (σ : State) : Host.Outcome State Fault Refusal :=
  simple σ .fill .anyone [(16, 8), (24, 8), (32, 8)] fun fw d e =>
    if e.f 16 8 % 8 ≠ 0 || e.f 24 8 % 8 ≠ 0 then (fw, d, 1)
    else let (d1, st) := commandWrite fw d e.part (e.va 16) ((upFrom 0 (e.f 24 8 / 8)).flatMap fun _ => leBytes 8 (e.f 32 8)); (fw, d1, st)

/-- SIGNAL: a doubleword is written after what the queue's earlier completed commands wrote (R353). -/
def execSignal (σ : State) : Host.Outcome State Fault Refusal :=
  simple σ .signal .anyone [(16, 8), (24, 8)] fun fw d e =>
    if e.f 16 8 % 8 ≠ 0 then (fw, d, 1)
    else let (d1, st) := commandWrite fw d e.part (e.va 16) (leBytes 8 (e.f 24 8)); (fw, d1, st)

/-- WAITV: waits for a doubleword at home (R353). -/
def execWaitv (σ : State) : Host.Outcome State Fault Refusal :=
  command σ .waitv .anyone [(16, 8), (24, 8), (32, 1)] (fun fw d e =>
    if decide (1 < e.f 32 1) then some (fw, d, .status 1)
    else match commandRead fw d e.part (e.va 16) 8 with
      | .error d1 => some (fw, d1, .status 4)
      | .ok (_, d1) => some (fw, d1, .wait (.waitv (e.va 16) (e.va 24) (e.f 32 1 == 1)))) fun _ _ _ => none

/-- Whether the value a WAITV waits for is there; none when it cannot be read. -/
def waitvHolds (fw : Fw) (d : Dev) (c : Cmd) : Option Bool :=
  match c.wait with
  | .waitv va want ge => (fwHome fw d c.part va 8).map fun bs => if ge then decide (want.toNat ≤ leNat bs) else leNat bs == want.toNat
  | _ => none

/-- WAITV_MATCH: a value performed at home has met the condition of command op, which completes (R353); Limamon's reads after it are bounded by
what was performed before by any agent (R142). -/
def execWaitvMatch (σ : State) : Host.Outcome State Fault Refusal :=
  event σ fun fw a d => (d.cmd a.op).bind fun c =>
    match c.wait with
    | .waitv va _ _ =>
      if d.moved then none
      else if c.met then some (endCmd fw (firmAcquireSys d) c 0)
      else match waitvHolds fw d c with
        | some true => some (endCmd fw (firmAcquireSys d) c 0)
        | some false => none
        | none => some (endCmd fw (match commandRead fw d c.part va 8 with | .error d1 => d1 | .ok _ => d) c 4)
    | _ => none

/-- An invalidation by command (R136, R353): complete once no access under it is open. -/
def invlCommand (i : Instr) (k : InvlKind) (σ : State) : Host.Outcome State Fault Refusal :=
  command σ i .anyone [(16, 1), (24, 8), (32, 2)] (fun fw d e =>
    let r : InvlReq := { kind := k, asid := e.f 32 2, vpn := vpnOf (e.va 24) }
    let d1 := invlDrop fw e.part r d
    some (fw, d1, if invlIdle d1 e.part r then .status 0 else .wait (.invl r)))
    fun fw d c => match c.wait with
      | .invl r => if r.kind = k && invlIdle d c.part r then some (fw, endCmd fw (invlDrop fw c.part r d) c 0) else none
      | _ => none

/-- INVL with kind 0: one page of one ASID (R136). -/
def execInvlPageCommand (σ : State) : Host.Outcome State Fault Refusal := invlCommand .invlPageCommand .page σ
/-- INVL with kind 1: one ASID (R136). -/
def execInvlAsidCommand (σ : State) : Host.Outcome State Fault Refusal := invlCommand .invlAsidCommand .asid σ
/-- INVL with kind 2: the partition (R136). -/
def execInvlPartitionCommand (σ : State) : Host.Outcome State Fault Refusal := invlCommand .invlPartitionCommand .part σ

end Sys2Proof.Machine
end

