-- ==== Sys2Proof/Machine/Privileged.lean ====
section
/-! DEFINITION. The privileged commands (R107, R135-R137, R150, R170-R174, R206, R216, R354, R359-R361). -/
namespace Sys2Proof.Machine

/-! ### Measurements (R359-R361) -/

/-- Exactly n bytes. -/
def fitBytes (n : Nat) (bs : List Byte) : List Byte := (bs ++ leBytes n 0).take n

/-- Extend a measurement register (R360). -/
def measure (fw : Fw) (n : Nat) (data : List Byte) : Fw :=
  { fw with mr := mins fw.mr n (fitBytes 64 (Config.shake256 (fitBytes 64 (mget [] fw.mr n) ++ Config.shake256 data 64) 64)) }

/-- The public key of the identity key, derived from the fused seed (R359). -/
def identityKey : List Byte := fitBytes 64 (Config.identityOf (fitBytes 96 Config.fuseSeed))

/-- The identity digest (R359). -/
def identityDigest : List Byte := fitBytes 64 (Config.shake256 identityKey 64)

/-- What a package reset derives its attestation key from: the seed and the reset count (R359). -/
def attestSeed (resets : Nat) : List Byte := Config.shake256 (fitBytes 96 Config.fuseSeed ++ leBytes 8 resets) 64

/-- At a package reset Limamon derives the attestation key, and signs its public key with the identity key (R359). -/
def attest (fw : Fw) : Fw :=
  let k := fitBytes 48 (Config.attestOf (attestSeed fw.resets))
  { fw with attestKey := k, attestCert := fitBytes 29792 (Config.identitySign (fitBytes 96 Config.fuseSeed) k) }

/-! ### Queues and partitions -/

/-- A limit of a partition (R155, R159, R227): 1,024 to 2^24. -/
def limitOk (n : Nat) : Bool := n == 0 || (decide (1024 ≤ n) && decide (n ≤ 2 ^ 24))

/-- The new value of a limit: 0 leaves it. -/
def limitOf (old : Word) (n : Nat) : Word := if n = 0 then old else BitVec.ofNat 32 n

/-- QSET: a queue's record, vector and privilege, and limits of its partition (R150, R354). A queue in ERROR starts empty (entry 32), and one of a
partition that is HALTED or RESETTING reads HALTED (R352). -/
def execQset (σ : State) : Host.Outcome State Fault Refusal :=
  simple σ .qset .physical [(16, 4), (20, 1), (21, 1), (22, 1), (23, 1), (24, 8), (32, 2), (34, 1), (36, 4), (40, 4), (44, 4)] fun fw d e =>
    let ring := e.f 24 8
    let q := e.f 16 4
    let p := e.f 22 1
    if decide (32767 < q) || e.f 20 1 = 0 || decide (16 < e.f 20 1) || decide (7 < e.f 21 1) || decide (23 < p) || decide (1 < e.f 23 1) || ring % 64 ≠ 0 ||
        decide (2 ^ 49 ≤ ring % 2 ^ 63) || e.f 32 2 = 0 || decide (2047 < e.f 32 2) || decide (1 < e.f 34 1) ||
        !(limitOk (e.f 36 4) && limitOk (e.f 40 4) && limitOk (e.f 44 4)) then (fw, d, 1)
    else
      let put := fun (x : Queue) =>
        { x with state := if 2 ≤ (fw.part p).state then 3 else BitVec.ofNat 4 (e.f 23 1), log2 := BitVec.ofNat 4 (e.f 20 1 % 16), prio := BitVec.ofNat 3 (e.f 21 1),
                 part := BitVec.ofNat 5 p, base := BitVec.ofNat 44 (ring % 2 ^ 63 / 64 + if 2 ^ 63 ≤ ring then 2 ^ 43 else 0), vec := e.f 32 2,
                 priv := e.f 34 1 == 1, head := if x.state = 2 then x.tail else x.head }
      let lim := fun (x : Part) => { x with cwait := limitOf x.cwait (e.f 36 4), pwin := limitOf x.pwin (e.f 40 4), plim := limitOf x.plim (e.f 44 4) }
      ({ fw with queues := mupd {} fw.queues q put, parts := mupd {} fw.parts p lim }, d, 0)

/-- A partition entry of a PART image (R174): its RW fields, when everything else is 0 and the limits hold; a limit of 0 is the default. -/
def partOf (bs : List Byte) : Option Part :=
  let f := fieldAt bs
  let dflt := fun (n v : Nat) => BitVec.ofNat 32 (if n = 0 then v else n)
  if f 0 4 != 0 || f 12 4 != 0 || f 32 8 != 0 || f 76 12 != 0 || f 96 32 != 0 || !(limitOk (f 64 4) && limitOk (f 68 4) && limitOk (f 72 4)) then none
  else some { state := 1, qbase := BitVec.ofNat 32 (f 4 4), qcount := BitVec.ofNat 32 (f 8 4), pairs := BitVec.ofNat 128 (f 16 16), wq := BitVec.ofNat 64 (f 40 8),
              fq := BitVec.ofNat 64 (f 48 8), cq := BitVec.ofNat 64 (f 56 8), cwait := dflt (f 64 4) 32768, pwin := dflt (f 68 4) 65536,
              plim := dflt (f 72 4) 131072, mbox := BitVec.ofNat 64 (f 88 8) }

/-- The bytes of a partition entry (R174). -/
def Part.bytes (x : Part) : List Byte :=
  packBytes 128 [(0, 1, x.state.toNat), (1, 1, x.hcause.toNat), (4, 4, x.qbase.toNat), (8, 4, x.qcount.toNat), (16, 16, x.pairs.toNat), (32, 8, x.fmap.toNat),
    (40, 8, x.wq.toNat), (48, 8, x.fq.toNat), (56, 8, x.cq.toNat), (64, 4, x.cwait.toNat), (68, 4, x.pwin.toNat), (72, 4, x.plim.toNat),
    (76, 4, x.origins.toNat), (80, 8, x.lctr.toNat), (88, 8, x.mbox.toNat)]

/-- Core pairs and queues that no other partition owns (R135). -/
def partFree (fw : Fw) (p : Nat) (x : Part) : Bool :=
  decide (x.qbase.toNat + x.qcount.toNat ≤ 32768) && fw.parts.all fun y =>
    y.1 == p || y.2.state == 0 || (x.pairs &&& y.2.pairs == 0 &&
      (x.qcount == 0 || y.2.qcount == 0 || decide (x.qbase.toNat + x.qcount.toNat ≤ y.2.qbase.toNat) || decide (y.2.qbase.toNat + y.2.qcount.toNat ≤ x.qbase.toNat)))

/-- The extents of a partition's frame map, by 64 part + entry, become f. -/
def setExtents (fw : Fw) (p : Nat) (f : Nat → Extent) : SMap Extent := (upFrom 0 64).foldl (fun m i => mset {} m (64 * p + i) (f i)) fw.fmaps

/-- The identity map of a partition that runs no guest (R135): the stacks, then all of host memory, whose frames take two extents (entry 25). -/
def identityExtent (i : Nat) : Extent :=
  match i with
  | 0 => { perm := 15, count := 0x800000, hbase := 0, gbase := 0 }
  | 1 => { perm := 15, count := 0x400000, hbase := 0x1000000, gbase := 0x800000 }
  | 2 => { perm := 15, count := 0xC00000, hbase := 0x1400000, gbase := 0xC00000 }
  | _ => {}

/-- PART create: a partition takes the RW fields of an image (R174, R354). -/
def execPartCreate (σ : State) : Host.Outcome State Fault Refusal :=
  simple σ .partCreate .physical [(16, 1), (17, 1), (24, 8)] fun fw d e =>
    let p := e.f 16 1
    if decide (23 < p) then (fw, d, 1)
    else match commandRead fw d e.part (e.va 24) 128 with
      | .error d1 => (fw, d1, 4)
      | .ok (bs, d) =>
        match partOf bs with
        | none => (fw, d, 1)
        | some x =>
          if (fw.part p).state ≠ 0 || !(partFree fw p x) then (fw, d, 1)
          else (measure { fw with parts := mins fw.parts p { x with fmap := Config.frameMapAddress p }, fmaps := setExtents fw p identityExtent } 2 bs, d, 0)

/-- PART halt: a host request halts a partition (R174, R354). -/
def execPartHalt (σ : State) : Host.Outcome State Fault Refusal :=
  simple σ .partHalt .physical [(16, 1), (17, 1)] fun fw d e =>
    let p := e.f 16 1
    if decide (23 < p) || (fw.part p).state ≠ 1 then (fw, d, 1) else let (fw1, d1) := haltPartition fw d p 2; (fw1, d1, 0)

/-- PART reset: the partition is RESETTING until PARTITION_RESET_COMPLETE; its commands in flight end ABORTED (R152, R354). -/
def execPartReset (σ : State) : Host.Outcome State Fault Refusal :=
  command σ .partReset .physical [(16, 1), (17, 1)] (fun fw d e =>
    let p := e.f 16 1
    if decide (23 < p) || (fw.part p).state = 0 || (fw.part p).state = 3 then some (fw, d, .status 1)
    else
      let d1 := (d.cmds.filter fun c => c.part == p).foldl (fun d c => endCmd fw d c 5) d
      some ({ fw with parts := mupd {} fw.parts p fun x => { x with state := 3 }, queues := haltQueues fw p }, d1, .wait (.reset p)))
    fun _ _ _ => none

/-- Release every pin that a partition's teams and windows hold. -/
def partPins (d : Dev) (p : Nat) : List Nat :=
  (d.teams.filter fun t => t.part == p).flatMap (fun t => t.pins ++ t.ops.flatMap (·.pins)) ++
  ((d.windows.filter fun w => w.2.part == p).flatMap fun w => w.2.pins) ++
  d.list.flatMap fun x => match x with | .restore y => if y.part = p then y.pins else [] | _ => []

/-- The 96 bytes of a policy entry (R172). -/
def Policy.bytes (x : Policy) : List Byte :=
  packBytes 16 [(0, 4, x.set.toNat), (4, 1, x.part), (5, 1, if x.valid then 1 else 0), (8, 8, x.ctr.toNat)] ++ fitBytes 64 x.dest ++ leBytes 16 0

/-- The policy entries that keep does not hold of are cleared, each measured into MR4, in the table's order (R172, R360). -/
def clearPolicies (fw : Fw) (keep : Policy → Bool) : Fw :=
  let gone := fw.policy.filter fun x => x.2.valid && !(keep x.2)
  { gone.foldl (fun fw x => measure fw 4 x.2.bytes) fw with policy := fw.policy.filter fun x => keep x.2 }

/-- PARTITION_RESET_COMPLETE: nothing of the partition is left: teams, launches, graphs, windows, its frame table and anchors, frame map, origins and policy
entries (R126, R170, R172, R174), and vector 0 is raised (R352). LCTR is 0 again with the partition's other fields, as R174 gives it, so that an entry signed
before could be installed once more when its origins are registered anew (entry 32). -/
def execPartitionResetComplete (σ : State) : Host.Outcome State Fault Refusal :=
  eventFw σ fun fw e d =>
    let p := e.part
    if (fw.part p).state ≠ 3 then none
    else
      let d0 := unpinFrames d (partPins d p)
      let keep := fun (t : Team) => t.part != p
      let fw1 := { clearPolicies fw fun x => x.part != p with
        parts := mset {} fw.parts p { hcause := (fw.part p).hcause }, fmaps := setExtents fw p fun _ => {},
        origins := fw.origins.filter fun x => x.1 / 32 != p,
        apertures := fw.apertures.filter fun x => x.1 % 25 != p, peers := fw.peers.filter fun x => x.2.part != p, nextLaunch := mdel fw.nextLaunch p, nextTeam := mdel fw.nextTeam p,
        anchors := fw.anchors.filter fun a => a.1 / 2 ^ 23 != p }
      let d1 := { dropTlb p d0 with
        cur := if keep d0.cur then d0.cur else {}, rest := d0.rest.filter keep, launches := d0.launches.filter fun l => l.2.part != p,
        list := d0.list.filter fun x => x.part d0 != p, waitSince := mdel d0.waitSince p, graphs := d0.graphs.filter fun g => g.1 / 1024 != p,
        windows := d0.windows.filter fun w => w.2.part != p,
        frames := d0.frames.filter fun f => f.1 / 2 ^ 26 != p }
      let d2 := raiseMsi d1 (p + 1) 0
      some (fw1, match d2.cmds.find? fun c => c.wait == .reset p with | some c => endCmd fw1 d2 c 0 | none => d2)

/-! ### Frame maps and frame tables (R126, R127, R135-R137) -/

/-- An extent of a 16-byte image; none when a reserved bit is set. -/
def extentOfImage (v : Nat) : Option Extent :=
  if v / 2 ^ 113 % 2 ^ 11 ≠ 0 || v / 2 ^ 24 % 2 ^ 40 ≠ 0 || (v / 2 ^ 88 % 2 = 0 && v / 2 ^ 87 % 2 = 1) then none
  else some { perm := BitVec.ofNat 4 (v / 2 ^ 124), count := BitVec.ofNat 24 (v / 2 ^ 89), hbase := BitVec.ofNat 25 (v / 2 ^ 64), gbase := BitVec.ofNat 24 v }

/-- Two extents of one frame map overlap (R135). -/
def Extent.overlaps (a b : Extent) : Bool :=
  decide (0 < a.count.toNat) && decide (0 < b.count.toNat) && decide (a.gbase.toNat < b.gbase.toNat + b.count.toNat) && decide (b.gbase.toNat < a.gbase.toNat + a.count.toNat)

/-- No access of a partition's teams is open (R136). -/
def partIdle (d : Dev) (p : Nat) : Bool := invlIdle d p { kind := .part, asid := 0, vpn := 0 }

/-- Cached translations that used a changed extent take the new second stage, or go (R136, R137); armed monitors follow theirs (R147). -/
def restage (fw : Fw) (i : Nat) (d : Dev) : Dev :=
  let x := mget {} fw.fmaps i
  reseatMonitors fw (i / 64) (fun _ => true) { d with cores := d.cores.map fun c => (c.1, { c.2 with
    tlb := (c.2.tlb.filter fun t => t.ext != i || x.holds (guestOf t.ent)).map fun t => if t.ext = i then { t with pf := stage2 x t.ent, sperm := x.perm } else t }) }

/-- The physical frame of an entry under a partition's frame map. -/
def physOf (fw : Fw) (e : Nat) : Option Nat := (extentOf fw (e / 2 ^ 26) e).map fun x => stage2 x.2 e

/-- Another partition than p has a page in physical frame f (R135: frame ranges have one owner; entry 37). -/
def takenBy (fw : Fw) (d : Dev) (p f : Nat) : Bool := d.frames.any fun y => y.1 / 2 ^ 26 != p && y.2.v && physOf fw y.1 == some f

/-- An extent would bring pages of partition p into frames of another partition. -/
def intrudes (fw : Fw) (d : Dev) (p : Nat) (x : Extent) : Bool :=
  d.frames.any fun y => y.1 / 2 ^ 26 == p && y.2.v && x.holds (guestOf y.1) && takenBy fw d p (stage2 x y.1)

/-- FMAP: an extent of a frame map is written; the command completes once no access uses the old second stage (R135-R137). -/
def execFmap (σ : State) : Host.Outcome State Fault Refusal :=
  command σ .fmap .physical [(16, 1), (17, 1), (24, 16)] (fun fw d e =>
    let p := e.f 16 1
    let n := e.f 17 1
    match extentOfImage (e.f 24 16) with
    | none => some (fw, d, .status 1)
    | some x =>
      if decide (23 < p) || decide (63 < n) || (upFrom 0 64).any (fun j => j != n && x.overlaps (mget {} fw.fmaps (64 * p + j))) || intrudes fw d p x then
        some (fw, d, .status 1)
      else
        let i := 64 * p + n
        let old := mget {} fw.fmaps i
        let fw1 := measure { fw with fmaps := mset {} fw.fmaps i x } 2 (leBytes 16 (e.f 24 16))
        if old.count = 0 || partIdle d p then some (fw1, restage fw1 i d, .status 0) else some (fw1, d, .wait (.fmap i old)))
    fun fw d c => match c.wait with
      | .fmap i _ => if partIdle d (i / 64) then some (fw, endCmd fw (restage fw i d) c 0) else none
      | _ => none

/-- A frame-table entry of its 32-byte image (R126); none for reserved bits or codes. -/
def frameOf (v : Nat) : Option Frame :=
  if v / 2 ^ 105 % 2 ^ 7 ≠ 0 || v / 2 ^ 116 % 4 = 3 || decide (24 ≤ v / 2 ^ 123 % 32) || decide (3 ≤ v / 2 ^ 120 % 8) then none
  else some { link := BitVec.ofNat 32 (v / 2 ^ 224), pin := BitVec.ofNat 16 (v / 2 ^ 208), ceil := BitVec.ofNat 32 (v / 2 ^ 176), cur := BitVec.ofNat 32 (v / 2 ^ 144),
              asid := BitVec.ofNat 16 (v / 2 ^ 128), part := BitVec.ofNat 5 (v / 2 ^ 123), mig := BitVec.ofNat 3 (v / 2 ^ 120), v := v / 2 ^ 119 % 2 == 1,
              mi := v / 2 ^ 118 % 2 == 1, cls := BitVec.ofNat 2 (v / 2 ^ 116), perm := BitVec.ofNat 4 (v / 2 ^ 112), vpn := BitVec.ofNat 41 (v / 2 ^ 64), fw := BitVec.ofNat 64 v }

/-- The image of an entry. -/
def Frame.image (f : Frame) : Nat :=
  f.link.toNat * 2 ^ 224 + f.pin.toNat * 2 ^ 208 + f.ceil.toNat * 2 ^ 176 + f.cur.toNat * 2 ^ 144 + f.asid.toNat * 2 ^ 128 + f.part.toNat * 2 ^ 123 + f.mig.toNat * 2 ^ 120 +
  (if f.v then 2 ^ 119 else 0) + (if f.mi then 2 ^ 118 else 0) + f.cls.toNat * 2 ^ 116 + f.perm.toNat * 2 ^ 112 + f.vpn.toNat * 2 ^ 64 + f.fw.toNat

/-- Take entry n out of its chain: what named it names its successor. -/
def unlink (fw : Fw) (d : Dev) (n : Nat) : Fw × Dev :=
  let next := (d.frame n).link
  let p := n / 2 ^ 26
  ({ fw with anchors := fw.anchors.map fun a => (a.1, if a.1 / 2 ^ 23 = p && linkEnt a.2 = some (guestOf n) then next else a.2) },
   { d with frames := d.frames.map fun f => (f.1, if f.1 / 2 ^ 26 = p && linkEnt f.2.link = some (guestOf n) then { f.2 with link := next } else f.2) })

/-- Put entry n at the head of its key's chain (R127). -/
def linkIn (fw : Fw) (d : Dev) (n : Nat) (f : Frame) : Fw × Dev :=
  let h := anchorOf (n / 2 ^ 26) (walkHash f.part.toNat f.asid.toNat f.vpn.toNat)
  ({ fw with anchors := mins fw.anchors h (entLink (guestOf n)) },
   { d with frames := mset {} d.frames n { f with link := mget anchorDefault fw.anchors h, pin := 0, mig := 0 } })

/-- The address of a page (R85). -/
def pageVa (vpn : Nat) : Nat := vpn * 65536 + if vpn < 2 ^ 40 then 0 else 2 ^ 64 - 2 ^ 57

/-- The page allocation of a merge page clears each tile's FLAGS; the reserved bytes behind it read 0 (R99). FLAGS share a unit with what stands before
them: one in error stays as it is, with its record (R106). -/
def clearFlags (fw : Fw) (t : TlbEnt) (d : Dev) : Dev :=
  let l := [(BitVec.ofNat 64 (pageVa t.vpn), t)]
  (upFrom 0 8).foldl (fun d i =>
    let a := pageVa t.vpn + 8192 * i + 6210
    commandNarrow fw (rangeWrite .limamon d l a (leBytes 1982 0)) t.part l a 1982) d

/-- A frame takes a page that it did not hold: what was written there before is of another location, and a merge page is allocated (R99, R126). -/
def allocate (fw : Fw) (n : Nat) (f : Frame) (d : Dev) : Dev :=
  match extentOf fw (n / 2 ^ 26) n with
  | some x =>
    let t := combine d f.part.toNat f.asid.toNat f.vpn.toNat n x
    let d1 := forgetFrame d t.pf
    if f.mi then clearFlags fw t d1 else d1
  | none => d

/-- MAP: an entry of the frame table of the image's partition is written and linked into its anchor's chain; an image that is not valid frees the
page (R126, R127, R354). The same page mapped again keeps its current set, which only a free lowers (R101). A page that is pinned or moving is not
written, nor one in a frame of another partition (R135). -/
def execMap (σ : State) : Host.Outcome State Fault Refusal :=
  simple σ .map .physical [(16, 1), (20, 4), (24, 32)] fun fw d e =>
    let t := e.f 16 1
    let fr := e.f 20 4
    match frameOf (e.f 24 32) with
    | none => (fw, d, 1)
    | some f =>
      let p := f.part.toNat
      let n := entOf p (if t = 8 then 2 ^ 23 + fr else t * 2 ^ 20 + fr)
      let old := d.frame n
      let intruder := f.v && (match physOf fw n with | some pf => takenBy fw d p pf | none => false)
      if decide (8 < t) || decide ((if t = 8 then 2 ^ 24 else 2 ^ 20) ≤ fr) || old.pin ≠ 0 || old.mig ≠ 0 || f.pin ≠ 0 || f.mig ≠ 0 || intruder then (fw, d, 1)
      else
        let (fw1, d1) := if old.v then unlink fw d n else (fw, d)
        let d2 := { d1 with frames := mset {} d1.frames n {} }
        if !f.v then (fw1, d2, 0)
        else
          let same := f.isFor p old.asid.toNat old.vpn.toNat && old.v
          let (fw3, d3) := linkIn fw1 d2 n (if same then { f with cur := f.cur ||| old.cur } else f)
          (fw3, if same && (old.mi || !f.mi) then d3 else allocate fw3 n f d3, 0)

/-! ### Origins and the Lodge (R170-R173) -/

/-- Destination descriptors with their reserved bytes 0 and a KIND of R171 wherever LEN is not 0. -/
def destOk (bs : List Byte) : Bool :=
  (upFrom 0 4).all fun i => fieldAt bs (16 * i + 13) 3 == 0 && (fieldAt bs (16 * i + 8) 4 == 0 || (decide (1 ≤ fieldAt bs (16 * i + 12) 1) && decide (fieldAt bs (16 * i + 12) 1 ≤ 3)))

/-- ORIGIN: an origin is registered, once until the partition's reset (R170). -/
def execOrigin (σ : State) : Host.Outcome State Fault Refusal :=
  simple σ .origin .physical [(16, 1), (17, 1), (24, 8)] fun fw d e =>
    let p := e.f 16 1
    let n := e.f 17 1
    if decide (23 < p) || decide (31 < n) || (fw.part p).state = 0 || (fw.part p).origins.getLsbD n then (fw, d, 1)
    else match commandRead fw d e.part (e.va 24) 128 with
      | .error d1 => (fw, d1, 4)
      | .ok (bs, d) =>
        if !(destOk (bs.drop 64)) then (fw, d, 1)
        else (measure { fw with origins := mins fw.origins (32 * p + n) { key := bs.take 64, dest := bs.drop 64, reg := true },
                                parts := mupd {} fw.parts p fun x => { x with origins := x.origins ||| BitVec.ofNat 32 (2 ^ n) } } 3 bs, d, 0)

/-- The ASCII string GLTM-LODGE (R172). -/
def lodgeTag : List Byte := [0x47, 0x4C, 0x54, 0x4D, 0x2D, 0x4C, 0x4F, 0x44, 0x47, 0x45]

/-- What each origin's signature of a policy entry is over (R172). -/
def lodgeMessage (x : Policy) : List Byte :=
  fitBytes 64 (Config.shake256 (lodgeTag ++ identityDigest ++ leBytes 1 x.part ++ leBytes 8 x.ctr.toNat ++ leBytes 4 x.set.toNat ++ fitBytes 64 x.dest) 64)

/-- The origins of a set, ascending. -/
def originsOf (s : OSet) : List Nat := (upFrom 0 32).filter fun i => s.getLsbD i

/-- POLICY: a Lodge entry is installed when every origin of its set has signed it (R172). CTR, and the next counter value that is signed, are the install
counter's value after this install (entry 32). -/
def execPolicy (σ : State) : Host.Outcome State Fault Refusal :=
  simple σ .policy .own [(16, 1), (24, 8), (32, 4)] fun fw d e =>
    let n := e.f 16 1
    let len := e.f 32 4
    if (mget {} fw.policy n).valid || e.f 24 8 % 64 ≠ 0 || decide (len < 128) then (fw, d, 1)
    else match commandRead fw d e.part (e.va 24) len with
      | .error d1 => (fw, d1, 4)
      | .ok (bs, d) =>
        let set : OSet := BitVec.ofNat 32 (fieldAt bs 0 4)
        let os := originsOf set
        let x : Policy := { set, part := e.part, valid := true, ctr := (fw.part e.part).lctr + 1, dest := (bs.drop 4).take 64 }
        let signed := (os.zip (upFrom 0 os.length)).all fun o =>
          Config.slhVerify (mget {} fw.origins (32 * e.part + o.1)).key (lodgeMessage x) ((bs.drop (128 + 29792 * o.2)).take 29792)
        if decide (os.length < 2) || set &&& ~~~(fw.part e.part).origins ≠ 0 || len ≠ 128 + 29792 * os.length || fieldAt bs 68 60 ≠ 0 || !(destOk x.dest) || !signed then
          (fw, d, 1)
        else (measure { fw with policy := mins fw.policy n x, parts := mupd {} fw.parts e.part fun y => { y with lctr := y.lctr + 1 } } 4 x.bytes, d, 0)

/-- CLEAR: a policy entry admits nothing more, and is cleared when what it admitted has finished (R172). -/
def execClear (σ : State) : Host.Outcome State Fault Refusal :=
  command σ .clear .own [(16, 1)] (fun fw d e =>
    let x := mget {} fw.policy (e.f 16 1)
    if !x.valid || x.clearing || x.part ≠ e.part then some (fw, d, .status 1)
    else some ({ fw with policy := mins fw.policy (e.f 16 1) { x with clearing := true } }, d, .wait (.clear (e.f 16 1)))) fun _ _ _ => none

/-- The policy entries a team's stream was admitted under (R172). -/
def Op.admitted (o : Op) : List Nat := match o.kind with | .kudu c => c.under | _ => []

/-- A transfer admitted under a policy entry has not finished: one in flight, or a team's stream, also one that a save has suspended (R172, R285). -/
def admittedUnder (d : Dev) (n : Nat) : Bool :=
  d.outs.any (fun m => m.under.contains n) ||
  d.list.any (fun x => match x with | .restore y => y.under.contains n | .launch _ => false) ||
  d.teams.any fun t => t.ops.any fun o => !o.done && o.admitted.contains n

/-- CLEAR_COMPLETE: every transfer admitted under the entry has finished (R172). q: the entry. -/
def execClearComplete (σ : State) : Host.Outcome State Fault Refusal :=
  eventFw σ fun fw e d =>
    let x := mget {} fw.policy e.q
    if !x.clearing || admittedUnder d e.q then none
    else
      let fw1 := measure { fw with policy := mdel fw.policy e.q } 4 x.bytes
      some (fw1, match d.cmds.find? fun c => c.wait == .clear e.q with | some c => endCmd fw1 d c 0 | none => d)

/-! ### Sparse tensors (R107-R112) -/

/-- Parameters of SPNEW: the handle its descriptor will be, root table, pool, nodes. -/
structure SparseNew where
  h : Handle
  root : Nat
  pool : Nat
  n : Nat
deriving DecidableEq, Repr

/-- The limits of R107 that do not concern pages. -/
def SparseNew.ok (x : SparseNew) : Bool :=
  x.h.ok && x.pool % 65536 == 0 && x.root % 65536 == 0 && decide (x.n ≤ 2 ^ (24 + x.h.shards))

/-- The share of shard j: first node of the pool, and nodes. -/
def SparseNew.share (x : SparseNew) (j : Nat) : Nat × Nat :=
  let k := 2 ^ x.h.shards
  (j * (x.n / k) + min j (x.n % k), x.n / k + if j < x.n % k then 1 else 0)

/-- The shard record of an empty tree (R110). -/
def newShard (n : Nat) : List Byte :=
  packBytes 64 [(0, 4, nilNode), (5, 1, if n = 0 then 0 else 1), (8, 4, n), (12, 4, if n = 0 then nilNode else 0)]

/-- The root table (R109). -/
def SparseNew.table (x : SparseNew) : List Byte :=
  let k := 2 ^ x.h.shards
  leBytes 8 (x.h.w 0) ++ ((upFrom 2 4).flatMap fun j => leBytes 8 (x.h.w j)) ++ leBytes (2048 - 40) 0 ++
  ((upFrom 0 k).flatMap fun j => newShard (x.share j).2 ++ leBytes (2048 - 64) 0) ++
  (upFrom 0 k).flatMap fun j =>
    let s := x.share j
    (if s.2 = 0 then leBytes 16 0 else leBytes 8 (x.pool + 256 * s.1) ++ leBytes 8 s.2) ++ leBytes 4080 0

/-- The node pool: each shard's free nodes in a list (R110, R112). -/
def SparseNew.nodes (x : SparseNew) : List Byte :=
  (upFrom 0 (2 ^ x.h.shards)).flatMap fun j =>
    let n := (x.share j).2
    (upFrom 0 n).flatMap fun i => freeBytes j (if i + 1 < n then i + 1 else nilNode)

/-- Pages of the sparse class that all have one ceiling. -/
def oneCeiling (l : List (Dword × TlbEnt)) : Bool := match l with | [] => true | p :: r => r.all fun q => q.2.ceil == p.2.ceil

/-- SPNEW: a sparse tensor is created: root table, node pool, descriptor (R107). -/
def execSpnew (σ : State) : Host.Outcome State Fault Refusal :=
  simple σ .spnew .own [(16, 8), (24, 8), (32, 8), (40, 4)] fun fw d e =>
    if e.f 16 8 % 64 ≠ 0 then (fw, d, 1)
    else match fwRange fw d e.part { r := true, w := true, e := true, cls := .plain, firm := true } (e.va 16) 64 with
      | .error (p, r) => if r = 0 || r = 5 then (fw, d, 1) else (fw, commandFault fw d e.part p r, 4)
      | .ok dl =>
        let bs := rangeBytes d dl (e.f 16 8) 64
        let w := fun j => fieldAt bs (8 * j) 8
        let h : Handle := { words := numbered 0 (fun j => BitVec.ofNat 64 (match j with | 0 => w 0 / 256 * 256 + 3 | 1 => e.f 24 8 | 6 => 0 | 7 => 0 | j => w j)) 8 }
        let x : SparseNew := { h, root := e.f 24 8, pool := e.f 32 8, n := e.f 40 4 }
        if rangeBad d dl (e.f 16 8) 64 then (fw, commandUnc fw d e.part dl (e.f 16 8) 64, 4)
        else if !x.ok then (fw, d, 1)
        else
          let need : Need := { r := true, w := true, e := true, cls := .node, firm := true }
          match fwRange fw d e.part need (e.va 24) x.table.length, fwRange fw d e.part need (e.va 32) (256 * x.n) with
          | .error (p, r), _ => if r = 0 then (fw, d, 1) else (fw, commandFault fw d e.part p r, 4)
          | .ok _, .error (p, r) => if r = 0 then (fw, d, 1) else (fw, commandFault fw d e.part p r, 4)
          | .ok rl, .ok pl =>
            if !(oneCeiling (rl ++ pl)) then (fw, d, 1)
            else
              let put := fun (l : List (Dword × TlbEnt)) (va : Nat) (bs : List Byte) (d : Dev) =>
                commandNarrow fw (rangeWrite .limamon d l va bs) e.part l va bs.length
              (fw, put dl (e.f 16 8) ((upFrom 0 8).flatMap fun j => leBytes 8 (h.w j))
                (put pl x.pool x.nodes (put rl x.root x.table (noteRange d dl (e.f 16 8) 64))), 0)

/-! ### Graphs, windows, peers, samplers -/

/-- GRAPH: an instance is recorded, after the replay of it that is running (R197, R354). -/
def execGraph (σ : State) : Host.Outcome State Fault Refusal :=
  command σ .graph .own [(16, 4), (20, 4), (24, 8), (32, 8)] (fun fw d e =>
    let g := graphKey e.part (e.f 16 4)
    if decide (1023 < e.f 16 4) || e.f 20 4 = 0 || decide (64 < e.f 20 4) then some (fw, d, .status 1)
    else if (d.graph g).running.isSome || (graphWaiting d g).isSome then some (fw, d, .wait (.graph g e.ops))
    else let (st, d1) := makeGraph fw e.part e.ops d; some (fw, d1, .status st)) fun _ _ _ => none

/-- WINDOW register: a window of the partition is registered, its pages are pinned and its counters are 0 (R131, R215, R354). -/
def execWindowRegister (σ : State) : Host.Outcome State Fault Refusal :=
  command σ .windowRegister .own [(16, 4), (20, 1), (24, 8), (32, 4)] (fun fw d e =>
    let n := e.f 16 4
    let len := 65536 * e.f 32 4
    if decide (65535 < n) || e.f 24 8 % 65536 ≠ 0 || len = 0 || decide (2 ^ 32 < len) || (d.window n).reg then some (fw, d, .status 1)
    else match fwRange fw d e.part { e := true, firm := true } (e.va 24) len with
      | .error (p, r) => some (fw, commandFault fw d e.part p r, .status 4)
      | .ok l =>
        let pins := l.foldl (fun es p => if es.contains p.2.ent then es else p.2.ent :: es) []
        if !(canPin d pins) then none
        else some (fw, { pinFrames d pins with windows := mins d.windows n { part := e.part, base := e.va 24, len, reg := true, pins } }, .status 0))
    fun _ _ _ => none

/-- WINDOW deregister: its pages are unpinned (R131, R354). -/
def execWindowDeregister (σ : State) : Host.Outcome State Fault Refusal :=
  simple σ .windowDeregister .own [(16, 4), (20, 1), (24, 8), (32, 4)] fun fw d e =>
    let w := d.window (e.f 16 4)
    if !w.reg || w.part ≠ e.part then (fw, d, 1) else (fw, { unpinFrames d w.pins with windows := mdel d.windows (e.f 16 4) }, 0)

/-- PEER: a peer is bound once the remote partition has bound back (R354). -/
def execPeer (σ : State) : Host.Outcome State Fault Refusal :=
  command σ .peer .physical [(16, 2), (18, 1), (24, 8), (32, 1)] (fun fw d e =>
    if e.f 16 2 = 0 || decide (23 < e.f 18 1) || decide (23 < e.f 32 1) then some (fw, d, .status 1)
    else some ({ fw with peers := mins fw.peers (e.f 16 2) { part := e.f 18 1, digest := e.va 24, rpart := e.f 32 1 } }, d, .wait (.peer (e.f 16 2))))
    fun _ _ _ => none

/-- PEER_BIND_COMPLETE: the remote partition has bound back (R354). q: the peer. -/
def execPeerBindComplete (σ : State) : Host.Outcome State Fault Refusal :=
  eventFw σ fun fw e d =>
    match d.cmds.find? fun c => c.wait == .peer e.q with
    | some c => let fw1 := { fw with peers := mupd {} fw.peers e.q fun p => { p with bound := true } }; some (fw1, endCmd fw1 d c 0)
    | none => none

/-- One step of the sampler's register, and the next tick (R216). -/
def lfsr (l : BitVec 16) : BitVec 16 :=
  let fb := (l.getLsbD 15).xor ((l.getLsbD 13).xor ((l.getLsbD 12).xor (l.getLsbD 10)))
  (l <<< 1) ||| (if fb then 1 else 0)

/-- The sampler after a step at a time of the 48-bit time base, which wraps (R208). -/
def Sampler.step (s : Sampler) (now : Nat) : Sampler :=
  let l := lfsr s.l
  { s with l, tick := (now + s.b - 128 + l.toNat % 256) % 2 ^ 48 }

/-- SAMPLER with B not 0: a core's sampler is enabled (R216). The manual numbers neither the first tick nor the team that `Blocked` goes on from then: the
ticks count from 0, so that the first samples slot 0, and it goes on from the lowest TEAMID (entry 4). -/
def execSamplerEnable (σ : State) : Host.Outcome State Fault Refusal :=
  simple σ .samplerEnable .own [(16, 1), (24, 4), (28, 2), (32, 8)] fun fw d e =>
    let b := e.f 24 4
    if !(fw.hasCore e.part (e.f 16 1)) || decide (b < 256) || decide (2 ^ 24 < b) || e.f 28 2 = 0 then (fw, d, 1)
    else
      let s : Sampler := { on := true, b, l := BitVec.ofNat 16 (e.f 28 2), ring := e.va 32, last := 0xFFFFFFFF }
      (fw, d.updCore (e.f 16 1) fun c => { c with sampler := s.step d.time.toNat }, 0)

/-- SAMPLER with B = 0: it is disabled (R216, R354). -/
def execSamplerDisable (σ : State) : Host.Outcome State Fault Refusal :=
  simple σ .samplerDisable .own [(16, 1), (24, 4), (28, 2), (32, 8)] fun fw d e =>
    if !(fw.hasCore e.part (e.f 16 1)) || e.f 28 2 = 0 then (fw, d, 1) else (fw, d.updCore (e.f 16 1) fun c => { c with sampler := { c.sampler with on := false } }, 0)

/-! ### Queries, restore, firmware -/

/-- QUERY 0: the partition entry is written out (R174, R354). -/
def execQueryPartition (σ : State) : Host.Outcome State Fault Refusal :=
  simple σ .queryPartition .own [(16, 1), (24, 8), (32, 32)] fun fw d e =>
    let (d1, st) := commandWrite fw d e.part (e.va 24) (fw.part e.part).bytes
    (fw, d1, st)

/-- The 192 bytes of an origin entry (R170). -/
def Origin.bytes (x : Origin) : List Byte := fitBytes 64 x.key ++ fitBytes 64 x.dest ++ leBytes 64 (if x.reg then 1 else 0)

/-- The partition's origin and policy entries as a quote binds them (R361): ascending, each by its bytes. -/
def quoteEntries (fw : Fw) (p : Nat) : List Byte :=
  ((upFrom 0 32).flatMap fun i => (mget {} fw.origins (32 * p + i)).bytes) ++ (fw.policy.filter fun x => x.2.valid && x.2.part == p).flatMap fun x => x.2.bytes

/-- The first 640 bytes of a quote (R361). -/
def quoteBytes (fw : Fw) (p : Nat) (nonce : List Byte) (seq : Dword) : List Byte :=
  fitBytes 32 nonce ++ ((upFrom 0 8).flatMap fun i => fitBytes 64 (mget [] fw.mr i)) ++ leBytes 8 p ++ leBytes 8 seq.toNat ++
  fitBytes 64 (Config.shake256 (quoteEntries fw p) 64) ++ leBytes 16 0

/-- QUERY 1: a quote, its signature and the identity digest are written out (R359, R361). -/
def execQueryQuote (σ : State) : Host.Outcome State Fault Refusal :=
  simple σ .queryQuote .own [(16, 1), (24, 8), (32, 32)] fun fw d e =>
    let (seq, d1) := newSeq d (limamon 0)
    let q := quoteBytes fw e.part ((e.ops.drop 16).take 32) seq
    let sig := fitBytes 35664 (Config.attestSign (attestSeed fw.resets) q)
    let (d2, st) := commandWrite fw d1 e.part (e.va 24) (q ++ sig ++ identityDigest)
    (fw, d2, st)

/-- A restore is possible here (R206): every page maps, with the class it had, and the origins are those of the save. -/
def SaveNote.fits (n : SaveNote) (fw : Fw) (d : Dev) (part : Nat) : Bool :=
  n.keys == originKeys fw part && n.pages.all fun p => match freshXl fw d part 0 p.1 with
    | .ok t => (match p.2 with | some c => t.cls.toNat == c | none => true)
    | .error _ => false

/-- The launch a restored team belongs to: its own, while its partition has it, else one of its own (entry 31). -/
def restoreLaunch (d : Dev) (part prio : Nat) (n : SaveNote) (h : List Byte) : Nat × Launch :=
  match if n.part = part then mfind d.launches n.launch else none with
  | some l => (n.launch, { l with left := l.left + 1 })
  | none => (d.nextKey, { key := d.nextKey, part, launchId := BitVec.ofNat 32 (fieldAt h 28 4), prio, decl := headDecl h n.decl, count := 1, made := 1, left := 1 })

/-- RESTORE: a saved team is placed on the launch list; it completes when the team is restored (R206). -/
def execRestore (σ : State) : Host.Outcome State Fault Refusal :=
  command σ .restore .own [(16, 8)] (fun fw d e =>
    match commandRead fw d e.part (e.va 16) 5120 with
    | .error d1 => some (fw, d1, .status 4)
    | .ok (h, d) =>
      match d.saves.find? fun n => n.seq.toNat == fieldAt h 48 8 with
      | none => some (fw, d, .status 1)
      | some n =>
        if fieldAt h 0 1 ≠ 1 || !(n.fits fw d e.part) then some (fw, d, .status 1)
        else
          let prio := (mget {} fw.queues e.q).prio.toNat
          let (key, l) := restoreLaunch d e.part prio n h
          let d1 := { d with launches := mins d.launches key l, nextKey := d.nextKey + 2 }
          let x : Swapped := { part := e.part, prio, launch := key, area := e.va 16, pins := [], decl := headDecl h n.decl, key := d.nextKey + 1, teamId := BitVec.ofNat 32 (fieldAt h 24 4),
                                  under := (n.streams.flatMap Op.admitted).eraseDups }
          some (fw, enlist d1 (.restore x) prio, .wait (.restore (e.va 16)))) fun _ _ _ => none

/-- FWLOAD: an image is verified against the ROM key and the fused counter, measured and loaded (R360). -/
def execFwload (σ : State) : Host.Outcome State Fault Refusal :=
  simple σ .fwload .physical [(16, 8), (24, 8)] fun fw d e =>
    match commandRead fw d e.part (e.va 16) (e.f 24 8) with
    | .error d1 => (fw, d1, 4)
    | .ok (bs, d) =>
      if Config.slhVerify Config.romKey (Config.fwBodyOf bs) (Config.fwSignatureOf bs) && decide (fw.fuse ≤ Config.fwVersionOf bs) then
        (measure { fw with fwVersion := Config.fwVersionOf bs } 1 bs, d, 0)
      else (fw, d, 1)

end Sys2Proof.Machine
end

