-- ==== Sys2Proof/Machine/Debug.lean ====
section
/-! DEFINITION. Debug commands (R364-R366, R368, R370) and the stall reasons of a team (R211, R212). -/
namespace Sys2Proof.Machine

/-! ### Living teams (R364) -/

/-- The resident team of a partition that a TEAMID names. -/
def teamById (d : Dev) (part : Nat) (id : Nat) : Option Team := d.teams.find? fun t => t.part == part && t.teamId.toNat == id

/-- The team of a partition that a TEAMID names and that lies in its save area: it lives, and is to be restored (R159, R364). -/
def swappedById (d : Dev) (part : Nat) (id : Nat) : Option Swapped :=
  d.list.findSome? fun x => match x with
    | .restore y => if y.part = part ∧ y.teamId.toNat = id then some y else none
    | .launch _ => none

/-- Change the team with a key, acting or not. -/
def Dev.updTeam (d : Dev) (key : Nat) (f : Team → Team) : Dev :=
  let g := fun (t : Team) => if t.live && t.key == key then f t else t
  { d with cur := g d.cur, rest := d.rest.map g }

/-- Change the saved team with a key. -/
def Dev.updSwapped (d : Dev) (key : Nat) (f : Swapped → Swapped) : Dev :=
  { d with list := d.list.map fun x => match x with | .restore y => if y.key = key then .restore (f y) else x | .launch _ => x }

/-- A team's debug halt is set or cleared, wherever the team lies (R364). -/
def setHalt (on : Bool) (d : Dev) (key : Nat) : Dev :=
  (d.updTeam key fun t => { t with halted := on }).updSwapped key fun x => { x with halted := on }

/-- A command on one living team: `here` for a resident one, `away` for one in its save area. -/
def teamCommand (σ : State) (i : Instr) (named : List (Nat × Nat)) (here : Dev → Entry → Team → Dev × Nat)
    (away : Fw → Dev → Entry → Swapped → Fw × Dev × Nat) : Host.Outcome State Fault Refusal :=
  simple σ i .debug named fun fw d e =>
    match teamById d e.part (e.f 16 4), swappedById d e.part (e.f 16 4) with
    | some t, _ => let (d1, st) := here d e t; (fw, d1, st)
    | none, some x => away fw d e x
    | none, none => (fw, d, 1)

/-- HALT: the team is suspended at its next position outside a run (R364). -/
def execHalt (σ : State) : Host.Outcome State Fault Refusal :=
  teamCommand σ .halt [(16, 4)] (fun d _ t => (setHalt true d t.key, 0)) fun fw d _ x => (fw, setHalt true d x.key, 0)

/-- RESUME: a halted team becomes ready again (R364). -/
def execResume (σ : State) : Host.Outcome State Fault Refusal :=
  teamCommand σ .resume [(16, 4)] (fun d _ t => (setHalt false d t.key, 0)) fun fw d _ x => (fw, setHalt false d x.key, 0)

/-- The three registers of a DBGSET, if none of their reserved fields is set (R318, R366). -/
def dbgRegs (e : Entry) : Option (Dword × Dword × Dword) :=
  match specialWrite 0x20 0 (e.va 24), specialWrite 0x21 0 (e.va 32), specialWrite 0x22 0 (e.va 40) with
  | some a, some b, some c => some (a, b, c)
  | _, _, _ => none

/-- DBGSET: DBGCTL, WATCHA and WATCHB are written between two positions, all or none (R366, R318); those of a saved team lie in its save area
(R228), whose fault halts the partition (R139). -/
def execDbgset (σ : State) : Host.Outcome State Fault Refusal :=
  teamCommand σ .dbgset [(16, 4), (24, 8), (32, 8), (40, 8)]
    (fun d e t => match dbgRegs e with
      | some (a, b, c) => (d.updTeam t.key fun t => { t with sp := ((t.sp.put 0x20 a).put 0x21 b).put 0x22 c }, 0)
      | none => (d, 1))
    fun fw d e x => match dbgRegs e with
      | some (a, b, c) => match firmWrite fw d x.part (x.area + 232) ([a, b, c].flatMap fun v => leBytes 8 v.toNat) 0 with
        | some d1 => (fw, d1, 0)
        | none => let (fw1, d1) := haltPartition fw d x.part 1; (fw1, d1, 4)
      | none => (fw, d, 1)

/-! ### Live dumps (R365) -/

/-- The whole image of a team as a full save has it; of its save area it keeps the call fields and what lies above them (R228). -/
def dumpImage (fw : Fw) (d : Dev) (t : Team) (seq : Dword) : List Byte :=
  let k := keptFull t.decl
  let u := t.atFirst
  let data := dataImage u k
  let kept := (fwRead fw d t.part (t.saveArea + 5120) 11264).getD (leBytes 11264 0)
  headImage u k seq data.length ++ kept.take 136 ++ leBytes 2936 0 ++ kept.drop 3072 ++ data

/-- The origins of a team's image: of all that it holds, and of the pages from which the rest is kept (R355). -/
def dumpSet (fw : Fw) (d : Dev) (t : Team) : OSet :=
  imageSet t ||| match fwRange fw d t.part fwR (t.saveArea + 5120) 11264 with
    | .ok l => rangeCur d l
    | .error _ => 0

/-- A team that still lies in its save area, as a restore would rebuild it (entry 49): none while a stream's descriptor has no translation. -/
def savedTeam (fw : Fw) (d : Dev) (x : Swapped) (h bs : List Byte) : Option Team :=
  (restoreTeam fw d x (mget {} d.launches x.launch) (noteOf d h) h bs).map fun t => { t with key := x.key, saveArea := x.area }

/-- A team that has trapped since the dump began (R222, R365). -/
def trapped (x : Dump) (t : Team) : Bool :=
  (match t.wait with | .trap _ => true | _ => false) || (t.sp.handling && x.calm.contains t.key)

def exiting (t : Team) : Bool := match t.wait with | .exit _ _ => true | _ => false

/-- The dump takes up the team with a key: it is halted as by HALT, if it is not already. -/
def Dump.take (x : Dump) (key : Nat) (halted handling : Bool) : Dump :=
  { x with keys := key :: x.keys, fresh := if halted then x.fresh else key :: x.fresh, calm := if handling then x.calm else key :: x.calm }

/-- The teams of a partition that a dump of all of them takes up: those it has not taken up yet. -/
def dumpTake (part : Nat) (want : Nat → Bool) (d : Dev) (x : Dump) : Dev × Dump :=
  let here := d.teams.filter fun t => t.part == part && want t.teamId.toNat && !(x.seen.contains t.key)
  let away := d.list.filterMap fun i => match i with
    | .restore y => if y.part = part ∧ want y.teamId.toNat ∧ !(x.seen.contains y.key) then some y else none
    | .launch _ => none
  let x1 := here.foldl (fun x t => x.take t.key t.halted t.sp.handling) x
  let x2 := away.foldl (fun x y => x.take y.key y.halted true) x1
  let new := here.map (·.key) ++ away.map (·.key)
  (new.foldl (setHalt true) d, { x2 with seen := new ++ x.seen })

/-- What has become of the dump's resident teams: those halted outside a run are caught; one that exits, or that has trapped before it was halted, is
not copied (R365). -/
def Dump.follow (d : Dev) (x : Dump) : Dump :=
  let of := fun (f : Team → Bool) => (d.teams.filter f).map (·.key)
  let lost := of fun t => exiting t || (!(x.caught.contains t.key) && trapped x t)
  let keys := x.keys.filter fun k => !(lost.contains k)
  { x with keys, caught := (of fun t => keys.contains t.key && !(x.caught.contains t.key) && t.between) ++ x.caught }

/-- The dump suspends the streams of its teams (R227 step 1), and notes which. -/
def dumpSuspend (d : Dev) (x : Dump) : Dev × Dump :=
  let ts := d.teams.filter fun t => x.keys.contains t.key
  let running := ts.flatMap fun t => (t.ops.filter fun o => !o.parked && (suspendOp o).parked).map fun o => (t.key, o.id)
  (ts.foldl (fun d t => d.updTeam t.key suspendAll) d, { x with parked := running ++ x.parked })

/-- After a dump every team resumes in place: its own halt ends and the streams it suspended go on, but for those of a team that has trapped
meanwhile, which wait for RETH (R223, R365). -/
def dumpEnd (x : Dump) (d : Dev) : Dev :=
  let g := fun (t : Team) =>
    if trapped x t then t else { t with ops := t.ops.map fun o => if x.parked.contains (t.key, o.id) then resumeOp o else o }
  x.fresh.foldl (setHalt false) { d with cur := g d.cur, rest := d.rest.map g }

/-- The image of one of the dump's teams: resident, numbered as a save is (R205, entry 31), or rebuilt from its save area, whose sequence number it
keeps. none while it cannot be rebuilt. -/
def imageOf (fw : Fw) (d : Dev) (key : Nat) : Option (List Byte × OSet × Nat × Dev) :=
  match d.teams.find? fun t => t.key == key with
  | some t => let (seq, d1) := newSeq d (limamon 0); some (dumpImage fw d1 t seq, dumpSet fw d t, t.teamId.toNat, d1)
  | none =>
    match d.list.findSome? fun i => match i with | .restore y => if y.key = key then some y else none | .launch _ => none with
    | none => some ([], 0, 0, d)
    | some y => match savedParts fw d y with
      | none => none
      | some (h, bs) => (savedTeam fw d y h bs).map fun t => (dumpImage fw d t (BitVec.ofNat 64 (fieldAt h 48 8)), dumpSet fw d t, t.teamId.toNat, d)

/-- Images one after another, in ascending TEAMID, and the origins of all they hold. -/
def dumpAll (fw : Fw) : List Nat → Dev → Option (List Byte × OSet × Dev)
  | [], d => some ([], 0, d)
  | k :: r, d => (imageOf fw d k).bind fun p => (dumpAll fw r p.2.2.2).map fun q => (p.1 ++ q.1, p.2.1 ||| q.2.1, q.2.2)

/-- TEAMID of a living team. -/
def Dev.idOf (d : Dev) (key : Nat) : Nat :=
  match d.teams.find? fun t => t.key == key with
  | some t => t.teamId.toNat
  | none => (d.list.findSome? fun i => match i with | .restore y => if y.key = key then some y.teamId.toNat else none | .launch _ => none).getD 0

/-- A command whose wait is a dump still. -/
def Dev.keep (d : Dev) (c : Cmd) (x : Dump) : Dev :=
  { d with cmds := d.cmds.map fun y => if y.id = c.id then { c with wait := .dump x } else y }

/-- The copies of a dump are made and written out, and its teams go on (R365). Their origins are raised on the output's pages (entry 48). -/
def dumpCopy (fw : Fw) (d : Dev) (c : Cmd) (x : Dump) : Option (Fw × Dev) :=
  let d1 := x.keys.foldl (fun d k => d.updTeam k Team.leaveDone) d
  (dumpAll fw (sortBy (fun a b => decide (d.idOf a ≤ d.idOf b)) x.keys) d1).map fun p =>
    let d2 := dumpEnd x p.2.2
    if decide (x.len < p.1.length) then (fw, endCmd fw d2 c 4)
    else let (d3, st) := commandWrite fw d2 c.part x.out p.1
         (fw, endCmd fw (if st = 0 then commandRaise fw d3 c.part x.out p.1.length p.2.1 else d3) c st)

/-- A dump goes on: its teams stand, drain, are copied and resume. -/
def dumpStep (fw : Fw) (d : Dev) (c : Cmd) : Option (Fw × Dev) :=
  match c.wait with
  | .dump x0 =>
    let (d1, x1) := if x0.every then dumpTake c.part (fun _ => true) d x0 else (d, x0)
    let x2 := x1.follow d1
    let ts := d1.teams.filter fun t => x2.keys.contains t.key
    let (d2, x3) := if ts.all fun t => t.between && t.savable then dumpSuspend d1 x2 else (d1, x2)
    let still := d2.teams.filter fun t => x3.keys.contains t.key
    if still.all fun t => t.between && t.savable && t.drained then dumpCopy fw d2 c x3
    else if d2 = d ∧ x3 = x0 then none else some (fw, d2.keep c x3)
  | _ => none

/-- A dump starts: the teams it names are halted as by HALT. -/
def dumpStart (every : Bool) (want : Nat → Bool) (d : Dev) (e : Entry) : Dev × Done :=
  let (d1, x) := dumpTake e.part want d { every, keys := [], fresh := [], out := e.va 24, len := e.f 32 8 }
  (d1, .wait (.dump (x.follow d1)))

/-- DUMP of one team (R365). -/
def execDumpOneTeam (σ : State) : Host.Outcome State Fault Refusal :=
  command σ .dumpOneTeam .debug [(16, 1), (20, 4), (24, 8), (32, 8)] (fun fw d e =>
    if (teamById d e.part (e.f 20 4)).isNone && (swappedById d e.part (e.f 20 4)).isNone then some (fw, d, .status 1)
    else let (d1, w) := dumpStart false (· == e.f 20 4) d e; some (fw, d1, w)) dumpStep

/-- DUMP of every team of the partition (R365). -/
def execDumpEveryTeam (σ : State) : Host.Outcome State Fault Refusal :=
  command σ .dumpEveryTeam .debug [(16, 1), (20, 4), (24, 8), (32, 8)] (fun fw d e =>
    let (d1, w) := dumpStart true (fun _ => true) d e
    some (fw, d1, w)) dumpStep

/-! ### Counters of errors and power (R368, R370) -/

/-- The pairs of ERRLOG: 256 slices, 8 stacks, 256 cores. -/
def errlogBytes (d : Dev) : List Byte :=
  let pair := fun (p : Word × Word) => leBytes 4 p.1.toNat ++ leBytes 4 p.2.toNat
  ((upFrom 0 256).flatMap fun i => pair (mget (0, 0) d.sliceErr i)) ++ ((upFrom 0 8).flatMap fun i => pair (mget (0, 0) d.stackErr i)) ++
  (upFrom 0 256).flatMap fun i => pair ((d.core i).corrected, (d.core i).uncorr)

/-- ERRLOG: the soft-error counters are written out (R368). -/
def execErrlog (σ : State) : Host.Outcome State Fault Refusal :=
  simple σ .errlog .debug [(24, 8)] fun fw d e =>
    if e.f 24 8 % 64 ≠ 0 then (fw, d, 1) else let (d1, st) := commandWrite fw d e.part (e.va 24) (errlogBytes d); (fw, d1, st)

/-- The core clock of a die in MHz (R208, R369). -/
def Fw.mhz (fw : Fw) (die : Nat) : Nat := mget 1600 fw.rate die

/-- THROTTLE: the rates of the two dies and the nominal cycles spent below 1.6 GHz are written out (R370). -/
def execThrottle (σ : State) : Host.Outcome State Fault Refusal :=
  simple σ .throttle .debug [(24, 8)] fun fw d e =>
    let (d1, st) := commandWrite fw d e.part (e.va 24) ((upFrom 0 2).flatMap fun i => leBytes 2 (fw.mhz i) ++ leBytes 6 (mget 0 fw.below i).toNat)
    (fw, d1, st)

/-! ### Stall reasons (R211, R212) -/

/-- A dump holds the team at its halt (R365). -/
def dumped (d : Dev) (t : Team) : Bool := t.between && d.cmds.any fun c => match c.wait with | .dump x => x.keys.contains t.key | _ => false

/-- A save requested of the team is being taken: it stands where that is done and drains, or waits for the reply of its CALLG first (R227, R230). -/
def saving (fw : Fw) (d : Dev) (t : Team) : Bool :=
  match t.save with
  | none => false
  | some .atPoint => true
  | some _ => match t.wait with
    | .call _ => true
    | _ => t.savable && (if saveDue fw d t then t.between else atLive fw { d with cur := t })

/-- Another active team of the slot is inside a run (R157). `who`: the team that issues in the step, which stood inside a run when its word began, or did
not. -/
def heldByRun (d : Dev) (who : Option Nat) (t : Team) : Bool :=
  t.cores.any fun c => (activeSet d.teams c t.slot).any fun u => u.key != t.key && (if who = some u.key then d.stepRun else u.inRun)

/-- Why a ready team's cycle passes without its issue, in the order of R212: the exchange of its halves is just over (R20); a structural stall holds its
position; another team's run holds the slot; another team was chosen; or it is outside the active set, halted by a debugger, or of a partition that
stands. -/
def readyReason (fw : Fw) (d : Dev) (who : Option Nat) (t : Team) (tried : Option Nat) : Nat :=
  let out := t.stopped fw d
  if t.met && !out then 12
  else match if out then none else tried.orElse fun _ => if t.active then t.stuck else none with
    | some r => r
    | none => if heldByRun d who t then 4 else if t.active && !out then 3 else 15

/-- The reason a resident team's cycle without issue is counted under, the first of R212's order. `who`: the team that issues in the step; `tried`: the
reason that this team's own attempt in it met. -/
def reasonOf (fw : Fw) (d : Dev) (who : Option Nat) (t : Team) (tried : Option Nat) : Nat :=
  if t.reopen.isSome || saving fw d t || dumped d t || (!t.slide.isEmpty && movable fw d t) then 14
  else match t.wait with
    | .trap _ => 13
    | .pair => 12
    | .token _ _ => 0
    | .tokens _ => 0
    | .exit _ _ => 0
    | .yield _ _ _ => 1
    | .call _ => 1
    | .barrier _ _ => 10
    | .window _ _ _ => 10
    | .monitor _ => 11
    | .dly _ _ => 2
    | .phase _ => 9
    | .held _ => 9
    | .invl _ => 9
    | .icinv _ => 9
    | .tfault _ => 9
    | .ready => readyReason fw d who t tried

end Sys2Proof.Machine
end

