-- ==== Sys2Proof/Machine/Hint.lean ====
section
/-! DEFINITION. Hint words (R238, R239). -/
namespace Sys2Proof.Machine

/-- A hint word joins the group of the next instruction (R239); the 65th consecutive one is illegal. -/
def hintWord (i : Instr) (s : State) (f : Team → Team) : Host.Outcome State Fault Refusal :=
  let t := s.dev.cur
  .next { s with dev :=
    if t.hints.length = 64 then trapIllegal s.fw s.dev (wordOf i) 0
    else s.dev.upd fun t => f { t with hgrp := t.first, hints := t.hints ++ [i], pc := t.pc + 4, pos := t.pos + 1 } }

/-- IMM: widens the instruction's immediate (R235, R238). -/
def execImm (v : BitVec 22) (σ : State) : Host.Outcome State Fault Refusal :=
  hintWord (.imm v) σ fun t => t

/-- LIVEV: vector registers a save must keep (R227, R238). -/
def execLivev (g : BitVec 6) (b : BitVec 16) (σ : State) : Host.Outcome State Fault Refusal :=
  hintWord (.livev g b) σ fun t => t

/-- LIVES: scalars, masks and tokens a save must keep (R227, R238). -/
def execLives (c : BitVec 3) (b : BitVec 16) (σ : State) : Host.Outcome State Fault Refusal :=
  hintWord (.lives c b) σ fun t => t

/-- LIVEP: a scratchpad range a save must keep (R227, R238). -/
def execLivep (s : BitVec 14) (c : BitVec 8) (σ : State) : Host.Outcome State Fault Refusal :=
  hintWord (.livep s c) σ fun t => t

/-- OFF: adds to the lanes' addresses (R235, R238). -/
def execOff (n : BitVec 22) (σ : State) : Host.Outcome State Fault Refusal :=
  hintWord (.off n) σ fun t => t

/-- MOD: rounding, saturation and cache policy (R38, R93, R238). -/
def execMod (p : CachePol) (t : Bool) (r : Rounding) (σ : State) : Host.Outcome State Fault Refusal :=
  hintWord (.mod p t r) σ fun t => t

/-- PRIO: the priority class of the instruction (R156, R238). -/
def execPrio (c : BitVec 3) (σ : State) : Host.Outcome State Fault Refusal :=
  hintWord (.prio c) σ fun t => t

/-- RUN: opens a run of the n positions after the hint (R27, R238). -/
def execRun (n : BitVec 4) (σ : State) : Host.Outcome State Fault Refusal :=
  hintWord (.run n) σ fun t => { t with runId := t.runId + 1, runOpen := true, runEnd := t.pos + n.toNat }

/-- REGION: the restart point is this group (R133, R238). -/
def execRegion (σ : State) : Host.Outcome State Fault Refusal :=
  hintWord (.region) σ fun t => { t with restart := t.hgrp, restartOp := t.nextOp }

end Sys2Proof.Machine
end

