-- ==== Sys2Proof/Machine/Window.lean ====
section
/-! DEFINITION. Window transfers: WWR, WSIG, WCNT, WWT, and what arrives over the fabric (R146, R288-R290, R215, R357). -/
namespace Sys2Proof.Machine

/-- The Springbok's unit number (R209). -/
def springbok (core : Nat) : Nat := 0x600 + core

/-- Whether a partition names a bound peer and a registered window (R288, R290). -/
def winKnown (fw : Fw) (d : Dev) (part : Nat) (w : Dword) : Bool :=
  let p := mget {} fw.peers (winPeer w)
  let x := d.window (winNum w)
  p.bound && p.part == part && x.reg && x.part == part

/-- A range of n bytes from the operand's offset lies within the window, whose length at both ends is that of its registration
(entry 28). -/
def winHolds (d : Dev) (w : Dword) (n : Nat) : Bool := decide (winOff w + n ≤ (d.window (winNum w)).len)

/-- Change window w. -/
def Dev.updWin (d : Dev) (w : Nat) (f : Window → Window) : Dev := { d with windows := mupd {} d.windows w f }

/-- At least t, modulo 2^32 (R215). -/
def winReached (c t : Word) : Bool := decide ((c - t).toNat < 2 ^ 31)

/-! ### Instructions -/

/-- The source pieces of a WWR as accesses: one for each page, or the scratchpad range. -/
def wwrWants (va : Dword) (len : Nat) (lbl : OSet) : List Want :=
  if inScratch va || inRegWin va then [{ lane := scalarLane, va, len, albl := lbl }]
  else (pagesOf va len).map fun p =>
    { lane := scalarLane, va := p, len := min (va.toNat + len) ((p.toNat / 65536 + 1) * 65536) - p.toNat, albl := lbl }

/-- WWR: sends sc[31:0] bytes from sb to the window sa names (R288); a length outside its limits completes in error; it ends a region. -/
def execWwr (q : BitVec 4) (a : BitVec 6) (b : BitVec 6) (c : BitVec 6) (σ : State) : Host.Outcome State Fault Refusal :=
  word (.wwr q a b c) σ fun fw D =>
    let win := sval D 1 a.toNat
    let va := sval D 2 b.toNat
    let len := (sval D 3 c.toNat).toNat % 2 ^ 32
    let lbl := sorg D 1 a.toNat ||| sorg D 2 b.toNat ||| sorg D 3 c.toNat
    posting fw q.toNat D fun D =>
      if len = 0 || decide (65536 < len) then
        let id := D.cur.nextOp
        finish fw (finishOp ((postOp D q.toNat .instant [] false).upd endRegion) id true)
      else accesses fw { r := true, e := true, dev := true } true false (wwrWants va len lbl) 1 D fun as D1 =>
        queueRoom D1 D1.cur.core inWindow 64 9
          (let pins := accEnts as
           if !(canPin D1 pins) then stall D1 9
           else finish fw ((postOp D1 q.toNat (.wwr { win, len, src := as, lbl, pins }) pins false).upd endRegion))

/-- WSIG: adds sb[31:0] to the receiver counter of the window sa names (R289); it ends a region. -/
def execWsig (q : BitVec 4) (a : BitVec 6) (b : BitVec 6) (σ : State) : Host.Outcome State Fault Refusal :=
  word (.wsig q a b) σ fun fw D =>
    posting fw q.toNat D fun D => queueRoom D D.cur.core inWindow 64 9
      (finish fw ((postOp D q.toNat (.wsig (sval D 1 a.toNat) ((sval D 2 b.toNat).setWidth 32) (sorg D 1 a.toNat ||| sorg D 2 b.toNat)) [] false).upd endRegion))

/-- The unrecoverable translation fault of an unregistered peer or window (R290). -/
def winTrap (fw : Fw) (d : Dev) (win : Dword) : Dev := trapIssue fw d 5 (allLanes d.cur.lanes) win.toNat 16

/-- WCNT: reads a local counter (R290). -/
def execWcnt (q : BitVec 4) (d : BitVec 6) (a : BitVec 6) (r : Bool) (σ : State) : Host.Outcome State Fault Refusal :=
  word (.wcnt q d a r) σ fun fw D =>
    let win := sval D 1 a.toNat
    posting fw q.toNat D fun D =>
      if !(winKnown fw D D.cur.part win) then winTrap fw D win
      else finish fw (postOp D q.toNat (.wcnt d.toNat win r) [] false)

/-- WWT: holds until a local counter is at least sb[31:0], then acquires at system scope (R290, R146). -/
def execWwt (a : BitVec 6) (b : BitVec 6) (r : Bool) (σ : State) : Host.Outcome State Fault Refusal :=
  word (.wwt a b r) σ fun fw D =>
    let win := sval D 1 a.toNat
    let t := (sval D 2 b.toNat).setWidth 32
    if !(winKnown fw D D.cur.part win) then winTrap fw D win
    else if winReached (winCounter D win r) t then finish fw (acquire (D.upd Team.endRun) .sys)
    else waitAt (.window win r t) D

/-- WWT_RELEASE: the counter has reached the threshold (R290). -/
def execWwtRelease (σ : State) : Host.Outcome State Fault Refusal :=
  releaseEvent σ fun fw _ D =>
    match D.cur.wait with
    | .window win rcv t => if winReached (winCounter D win rcv) t then some (release fw (D.cur.pc + 4) (acquire D .sys)) else none
    | _ => none

/-! ### The Springbok -/

/-- The pieces of a WWR's source. -/
def wwrPieces (w : Wwr) : List Piece := w.src.map fun a => { off := 0, va := a.va, tgt := a.tgt, len := a.len }

/-- The data label of a WWR (R288). -/
def wwrLabel (d : Dev) (w : Wwr) : OSet :=
  w.src.foldl (fun s a => match a.tgt with
    | .mem _ e _ => s ||| (d.frame e).cur
    | .scr h off => s ||| scrLabel d.cur h off a.len
    | .reg _ _ _ => s) w.lbl

/-- SENDER_COUNTER_ADVANCE: a WWR passes the Lodge, reads its source and sends it; the source may be reused, the sender counter
advances and the token completes (R146, R288, R356). -/
def execSenderCounterAdvance (σ : State) : Host.Outcome State Fault Refusal :=
  opEvent σ fun fw _ o d =>
    match o.kind with
    | .wwr w =>
      let ps := wwrPieces w
      if !(w.src.all fun a => d.cur.writesDone o.id a.tgt a.len) then none
      else if !(winKnown fw d d.cur.part w.win) || !(winHolds d w.win w.len) then some (finishOp d o.id true)
      else if ps.any (badPiece d) then some (finishOp (uncRecord fw d (springbok d.cur.core) ps) o.id true)
      else
        let lbl := wwrLabel d w
        match lodge fw d.cur.part lbl 2 w.win.toNat w.len with
        | none => some (finishOp (egressRefused fw d w.win.toNat w.len lbl) o.id true)
        | some under =>
          let d1 := (notePieces d ps).updWin (winNum w.win) fun x => { x with snd := mupd 0 x.snd (winPeer w.win) (· + 1) }
          let t := d.cur
          let m : OutMsg := { team := t.key, op := o.id, win := w.win, under, part := t.part, launchId := t.launchId, teamId := t.teamId, core := t.core, seq := o.seq }
          some (finishOp { d1 with outs := d1.outs ++ [m] } o.id false)
    | _ => none

/-- A peer and its window take what arrives for them. -/
def winOpen (fw : Fw) (d : Dev) (peer win : Nat) : Bool :=
  let p := mget {} fw.peers peer
  let x := d.window win
  p.bound && x.reg && p.part == x.part

/-- Write an arriving transfer page by page at its home slices (R146, R102, R106): the machine, and whether every byte was written. -/
def arrivalWrite (fw : Fw) (core : Nat) (part : Nat) (bs : List Byte) (s : OSet) (base : Nat) : List Dword → Dev → Dev × Bool
  | [], d => (d, true)
  | p :: r, d =>
    match fwXl fw d part fwW p with
    | .ok t =>
      let n := min (base + bs.length) ((p.toNat / 65536 + 1) * 65536) - p.toNat
      if s &&& ~~~t.ceil ≠ 0 then
        (postFault fw d part (springbok core) 0x12 0 0xFFFFFFFF 0xFFFFFFFF p.toNat t.ceil.toNat s.toNat s, false)
      else
        let bad := narrowUnits d (t.pa p) n
        let d1 := bad.foldl (fun d u => postFault fw (countErr d false t.mi u) part (errUnit t.mi (8 * u)) 0x13 0 0xFFFFFFFF 0xFFFFFFFF (p.toNat + (max (8 * u) (t.pa p) - t.pa p)) 1 0 0) d
        let (d2, ok) := arrivalWrite fw core part bs s base r (raiseCur (rangeWrite .peer d1 [(p, t)] p.toNat ((bs.drop (p.toNat - base)).take n)) t.ent s)
        (d2, ok && bad.isEmpty)
    | _ => (d, false)

/-- A transfer of a peer is performed at this package, its receiver; `whole`: all of it (R146, R358). -/
def arrive_ (fw : Fw) (core : Nat) (d : Dev) (whole : Bool) (peer win off : Nat) (bs : List Byte) (s : OSet) : Option Dev :=
  let x := d.window win
  if !(winOpen fw d peer win) || decide (x.len < off + bs.length) || bs.isEmpty || decide (65536 < bs.length) then none
  else
    let base := x.base.toNat + off
    let (d1, ok) := arrivalWrite fw core x.part bs s base (pagesOf (BitVec.ofNat 64 base) bs.length) d
    some (if ok && whole then d1.updWin win fun x => { x with rcv := mupd 0 x.rcv peer (· + 1) } else d1)

/-- WINDOW_WRITE_ARRIVAL: a transfer of a local team has been performed at its receiver, or one of a peer, or its part that came before
its port failed, is performed here (R146, R288, R358). -/
def execWindowWriteArrival (σ : State) : Host.Outcome State Fault Refusal :=
  event σ fun fw e d =>
    match e.arrival with
    | .outgoing tid op =>
      if d.outs.any fun m => m.team == tid && m.op == op then some { d with outs := d.outs.filter fun m => !(m.team == tid && m.op == op) } else none
    | .write peer win off bytes lbl => arrive_ fw e.core d true peer.toNat win.toNat off.toNat bytes lbl
    | .torn peer win off bytes lbl => arrive_ fw e.core d false peer.toNat win.toNat off.toNat bytes lbl
    | .signal _ _ _ _ => none

/-- Earlier transfers of a team to a window have been performed at the receiver (R146). -/
def earlierSent (d : Dev) (n : Nat) (win : Dword) : Bool :=
  (d.outs.all fun m => m.team != d.cur.key || decide (n ≤ m.op) || m.win.toNat / 2 ^ 32 != win.toNat / 2 ^ 32) &&
  d.cur.ops.all fun o => decide (n ≤ o.id) || o.done || (match o.kind with | .wwr w => w.win.toNat / 2 ^ 32 != win.toNat / 2 ^ 32 | _ => true)

/-- WSIG_ARRIVAL: the receiver applies a signal: a local team's at its peer, whose token completes, or a peer's here (R146, R289). -/
def execWsigArrival (σ : State) : Host.Outcome State Fault Refusal :=
  .next { σ with dev := (match σ.args.arrival with
    | .outgoing tid n => (σ.dev.focus tid).bind fun d => (d.cur.op n).bind fun o =>
        match o.kind, o.done with
        | .wsig win _ lbl, false =>
          if !(winKnown σ.fw d d.cur.part win) || !(winHolds d win 4) then some (finishOp d o.id true)
          else match lodge σ.fw d.cur.part lbl 2 win.toNat 4 with
            | none => some (finishOp (egressRefused σ.fw d win.toNat 4 lbl) o.id true)
            | some _ => if earlierSent d o.id win then some (finishOp d o.id false) else none
        | _, _ => none
    | .signal peer win value _ =>
      if winOpen σ.fw σ.dev peer.toNat win.toNat then
        some (σ.dev.updWin win.toNat fun x => { x with rcv := mupd 0 x.rcv peer.toNat (· + value) }) else none
    | .write _ _ _ _ _ => none
    | .torn _ _ _ _ _ => none : Option Dev).getD σ.dev }

end Sys2Proof.Machine
end

