-- ==== Sys2Proof/Machine/HostPort.lean ====
section
/-! DEFINITION. What hosts, fabric, power and faults do to the package: PCI Express, link failure, the matrix self-test, power, soft errors,
the samplers (R97, R105, R150, R208, R216-R218, R350-R352, R356, R358, R367-R369). -/
namespace Sys2Proof.Machine

/-! ### PCI Express (R150, R351, R356) -/

/-- A host's access by a function of one of the two links: virtual function n + 1 belongs to partition n, the physical one is `part` 24 (R350). None
answers before the BARs are enabled (R371). -/
def functionOpen (fw : Fw) (link part : Nat) : Bool := fw.bars && decide (link < 2) && decide (part ≤ 24)

/-- The queue whose doorbell page is number n of a function's BAR2 (R351): the physical function sees all queues, a virtual one its partition's. -/
def doorbellQueue (fw : Fw) (link part n : Nat) : Option Nat :=
  if !(functionOpen fw link part) then none
  else if part = 24 then (if n < 32768 then some n else none)
  else if n < (fw.part part).qcount.toNat ∧ (fw.part part).qbase.toNat + n < 32768 then some ((fw.part part).qbase.toNat + n)
  else none

/-- DOORBELL_TAIL_WRITE: a host writes TAIL (m: the value) at offset 8 of doorbell page q of function part of a link; a TAIL too far ahead is an ERROR
(R150, R351). -/
def execDoorbellTailWrite (σ : State) : Host.Outcome State Fault Refusal :=
  eventFw σ fun fw e d =>
    (doorbellQueue fw e.link e.part e.q).map fun q => ({ fw with queues := mupd {} fw.queues q fun x =>
      let tail : Word := BitVec.ofNat 32 e.m
      { x with tail, state := if x.entries < (tail - x.head).toNat then 2 else x.state } }, d)

/-- The aperture base of a function (R351). -/
def Fw.aperture (fw : Fw) (link part : Nat) : Dword := mget 0 fw.apertures (25 * link + part)

/-- A function's aperture base takes a value. -/
def Fw.setAperture (fw : Fw) (link part : Nat) (v : Dword) : Fw := { fw with apertures := mset 0 fw.apertures (25 * link + part) v }

/-- REGISTER_WRITE: a host writes BAR0 of function part of a link at offset n; the aperture base at 0x100 takes addr, every other write is ignored
(R351). -/
def execRegisterWrite (σ : State) : Host.Outcome State Fault Refusal :=
  eventFw σ fun fw e d =>
    if !(functionOpen fw e.link e.part) then none
    else if e.n ≠ 0x100 then some (fw, d)
    else some (fw.setAperture e.link e.part e.addr, d)

/-- BAR0 of a function (R351): the partition table entry, the aperture base at 0x100, zeros; the physical function has no partition's entry. -/
def bar0 (fw : Fw) (link part off n : Nat) : List Byte :=
  let entry := if part = 24 then leBytes 128 0 else fitBytes 128 (fw.part part).bytes
  (upFrom off n).map fun i => if i < 128 then nthD 0 entry i else if 0x100 ≤ i ∧ i < 0x108 then nthD 0 (leBytes 8 (fw.aperture link part).toNat) (i - 0x100) else 0

/-- A doorbell page: the record of R150 in bytes 0-15 (R351); its other bytes read 0. -/
def doorbellPage (fw : Fw) (q off n : Nat) : List Byte :=
  (upFrom off n).map fun i => if i < 16 then nthD 0 (leBytes 16 (mget {} fw.queues q).record) i else 0

/-- Whether a label may leave by a host read (R356): no origin, or one whose DEST holds a host destination. -/
def hostMayRead (fw : Fw) (part : Nat) (s : OSet) : Bool :=
  if s = 0 then true
  else if s &&& (s - 1) = 0 then
    match (upFrom 0 32).find? fun i => s.getLsbD i with
    | some o => (destsOf (mget {} fw.origins (32 * part + o)).dest).any fun x => x.1 == 1 && x.2.2 != 0
    | none => false
  else false

/-- The address of n bytes at an offset of a virtual function's aperture of 64 GiB (R351). The physical function has no partition. -/
def apertureVa (fw : Fw) (link part : Nat) (off : Dword) (n : Nat) : Option Dword :=
  if decide (off.toNat + n ≤ 2 ^ 36) && n != 0 && decide (part < 24) && functionOpen fw link part then some (fw.aperture link part + off) else none

/-- A move of a page of a range holds a host's access up (R132). -/
def hostHeld (fw : Fw) (d : Dev) (part : Nat) (w : Bool) (va : Dword) (n : Nat) : Bool :=
  (pagesOf va n).any fun p => match fwXl fw d part (Need.own { r := !w, w }) p with
    | .ok t => Need.held { w } (d.frame t.ent).mig
    | _ => false

/-- A read that no unit of the package completes: the host has no data. -/
def noAnswer (d : Dev) : Dev := { d with hostData := [], aborted := true }

/-- A host reads m bytes at an offset of the aperture (R351, R356), at home: data, or a Completer Abort. -/
def readAperture (fw : Fw) (part : Nat) (va : Dword) (m : Nat) (d : Dev) : Dev :=
  match fwRange fw d part { r := true } va m with
  | .error _ => noAnswer d
  | .ok l =>
    let s := rangeCur d l
    if !(hostMayRead fw part s) then noAnswer (postFault fw d part 0xA02 0x16 0 nobody nobody va.toNat m 0 s)
    else if rangeBad d l va.toNat m then noAnswer (commandUnc fw d part l va.toNat m)
    else { noteRange d l va.toNat m with hostData := rangeHome d l va.toNat m, aborted := false }

/-- HOST_READ_BAR4: a host reads m bytes at offset addr of a BAR of function part of a link: n = 0 its aperture, 1 BAR0, 2 doorbell page q of BAR2
(R351, R356). A move of its page holds it up (R132). -/
def execHostReadBar4 (σ : State) : Host.Outcome State Fault Refusal :=
  event σ fun fw e d =>
    let answer := fun (bs : List Byte) => { d with hostData := bs, aborted := false }
    match e.n with
    | 0 => if !(functionOpen fw e.link e.part) then some (noAnswer d)
           else if e.part = 24 then some (noAnswer d)
           else (apertureVa fw e.link e.part e.addr e.m).bind fun va =>
             if hostHeld fw d e.part false va e.m then none else some (readAperture fw e.part va e.m d)
    | 1 => if !(functionOpen fw e.link e.part) then some (noAnswer d)
           else if e.addr.toNat + e.m ≤ 65536 then some (answer (bar0 fw e.link e.part e.addr.toNat e.m)) else none
    | 2 => match doorbellQueue fw e.link e.part e.q with
      | some q => if e.addr.toNat + e.m ≤ 4096 then some (answer (doorbellPage fw q e.addr.toNat e.m)) else none
      | none => some (noAnswer d)
    | _ => none

/-- HOST_WRITE_BAR4: a host writes bytes at offset addr of the aperture of function part of a link, at their home slices, with label ∅ (R351). A move of
its page holds it up (R132). -/
def execHostWriteBar4 (σ : State) : Host.Outcome State Fault Refusal :=
  event σ fun fw e d =>
    (apertureVa fw e.link e.part e.addr e.bytes.length).bind fun va =>
      if hostHeld fw d e.part true va e.bytes.length then none
      else some (match fwRange fw d e.part { w := true } va e.bytes.length with
        | .error _ => d
        | .ok l => commandNarrow fw (rangeWrite .host d l va.toNat e.bytes) e.part l va.toNat e.bytes.length)

/-- A host write meets an atomic that has read and not written: the atomic keeps the value it read, for as long as no agent of the package writes there
before it does (R97). -/
def raceAtomic (d : Dev) (pa n : Nat) (t : Team) : Team :=
  { t with ops := t.ops.map fun o => match o.kind with
    | .atomic k dst acq as => { o with kind := .atomic k dst acq (as.map fun a => match a.tgt with
        | .mem x _ _ => if !a.fin && decide (x < pa + n) && decide (pa < x + a.len) &&
            !(a.seen.any fun s => hostOnly d s.1 x a.len) then { a with seen := some (d.wn, memNat d.mem x a.len) } else a
        | _ => a) }
    | _ => o }

/-- HOST_MEMORY_WRITE: a host writes its own memory, bytes at host address addr; with ok = false the write falls between the read and the
write of the device atomics pending there (R97). -/
def execHostMemoryWrite (σ : State) : Host.Outcome State Fault Refusal :=
  event σ fun _ e d =>
    if 2 ^ 40 < e.addr.toNat + e.bytes.length then none
    else
      let pa := 2 ^ 40 + e.addr.toNat
      let race := fun (t : Team) => if e.ok then t else raceAtomic d pa e.bytes.length t
      some (clearUnits (devSetBytes .host { d with cur := race d.cur, rest := d.rest.map race } pa e.bytes) pa e.bytes.length)

/-! ### The fabric (R358) -/

/-- An operation pending on a peer. -/
def onPeer (peer : Nat) (o : Op) : Bool :=
  !o.done && (match o.kind with | .wwr w => winPeer w.win == peer | .wsig w _ _ => winPeer w == peer | _ => false)

/-- The window operand of a transfer. -/
def opWindow (o : Op) : Dword := match o.kind with | .wwr w => w.win | .wsig w _ _ => w | _ => 0

/-- Whether a transfer, by its acceptance number, lies on port p of the ports that its peer is bound to (R357): free, unless no other port is left
(entry 50). -/
def onPort (d : Dev) (p seq : Nat) : Bool := decide (24 ≤ (p :: d.ports).eraseDups.length) || Config.free seq (2 ^ 83 + p) % 2 == 1

/-- The transfers of the acting team pending on port p to peer q end in error, each with a LINK-DOWN record, and advance no counter (R358). -/
def linkFail (fw : Fw) (d0 : Dev) (q p : Nat) (d : Dev) : Dev :=
  (d.cur.ops.filter fun o => onPeer q o && onPort d0 p o.seq).foldl (fun d o =>
    finishOp (teamFault fw d (springbok d.cur.core) 0x1C 0 (opWindow o).toNat 0 0 0) o.id true) d

/-- A transfer sent and not yet performed is lost with its port (R358). -/
def lostSent (fw : Fw) (d : Dev) (m : OutMsg) : Dev :=
  postFault fw d m.part (springbok m.core) 0x1C 0 m.launchId.toNat m.teamId.toNat m.win.toNat 0 0 0

/-- LINK_DOWN: port m fails its retries and is taken down, with the transfers to peer q that lie on it (R357, R358). -/
def execLinkDown (σ : State) : Host.Outcome State Fault Refusal :=
  event σ fun fw e d =>
    if 24 ≤ e.m then none
    else
      let lost := d.outs.filter fun x => winPeer x.win == e.q && onPort d e.m x.seq
      let d1 := (d.teams.map (·.key)).foldl (fun d1 k => match d1.focus k with | some d2 => linkFail fw d e.q e.m d2 | none => d1) d
      some { lost.foldl (lostSent fw) d1 with outs := d.outs.filter fun x => !(lost.contains x), ports := (e.m :: d.ports).eraseDups }

/-! ### Matrix self-test (R367) -/

/-- The partition that owns a core. -/
def Fw.partOfCore (fw : Fw) (c : Nat) : Option Nat := (fw.parts.find? fun p => p.2.state != 0 && p.2.pairs.getLsbD (c / 2)).map (·.1)

/-- The record of a failed test, when there is a partition to tell. -/
def fenceReport (fw : Fw) (c : Nat) (d : Dev) : Dev := match fw.partOfCore c with | some p => fenceRecord fw d p c | none => d

/-- MATRIX_SELF_TEST: the self-test of quarter-array n of a core: ok, or it fails: the first failure fences it and slows the engine, that of a second
quarter disables the engine; operations completed since the quarter's last passing test are reported (R367). core, n, ok. -/
def execMatrixSelfTest (σ : State) : Host.Outcome State Fault Refusal :=
  event σ fun fw e d =>
    if decide (256 ≤ e.core) || decide (4 ≤ e.n) then none
    else
      let (seq, d1) := newSeq d (limamon (e.core / 128))
      let bit := BitVec.ofNat 4 (2 ^ e.n)
      let k := d1.core e.core
      if k.fence.getLsbD e.n then some d1
      else if e.ok then some (d1.updCore e.core fun c => { c with lastPass := mset 0 c.lastPass e.n seq, ran := c.ran &&& ~~~bit })
      else
        let d2 := d1.updCore e.core fun c => { c with fence := c.fence ||| bit, slow := true, off := c.fence != 0, lastFail := seq, failQ := e.n }
        some (if k.ran.getLsbD e.n then fenceReport fw e.core d2 else d2)

/-! ### Power and soft errors (R105, R208, R368, R369) -/

/-- POWER_CONTROL: Limamon steps the clock of die q to m MHz (R369). -/
def execPowerControl (σ : State) : Host.Outcome State Fault Refusal :=
  eventFw σ fun fw e d =>
    if decide (2 ≤ e.q) || decide (e.m < 800) || decide (1600 < e.m) || e.m % 100 ≠ 0 then none
    else some ({ fw with rate := mset 1600 fw.rate e.q e.m }, d)

/-- The partition to which a physical frame belongs, through its frame map, and the frame-table entry of its page. -/
def Fw.partOfFrame (fw : Fw) (pf : Nat) : Option (Nat × Nat) :=
  (fw.fmaps.find? fun x => decide (x.2.hbase.toNat ≤ pf) && decide (pf < x.2.hbase.toNat + x.2.count.toNat)).map fun x =>
    (x.1 / 64, x.1 / 64 * 2 ^ 26 + x.2.gbase.toNat + (pf - x.2.hbase.toNat))

/-- The physical addresses of the eight stacks end here (R1). -/
def hbmEnd : Nat := 2 ^ 39

/-- PATROL_SCRUB: the scrub rewrites the HBM unit that holds physical address addr; one it cannot correct stays and is recorded (R368). -/
def execPatrolScrub (σ : State) : Host.Outcome State Fault Refusal :=
  event σ fun fw e d =>
    let pa := e.addr.toNat / 8 * 8
    let home := fw.partOfFrame (pa / 65536)
    let mi := match home with | some p => d.merge p.2 | none => false
    if hbmEnd ≤ pa then none
    else if badAt d pa 8 then
      let d1 := countErr d false mi (pa / 8)
      some (match home with
        | some p => postFault fw d1 p.1 (errUnit mi pa) 0x13 0 nobody nobody pa 2 0 0
        | none => d1)
    else some (noteCorr d mi pa 8)

/-- One more error of a core's Orangery or accumulator store (R368). -/
def countCore (d : Dev) (core : Nat) (corrected : Bool) : Dev :=
  d.updCore core fun c => if corrected then { c with corrected := satInc c.corrected } else { c with uncorr := satInc c.uncorr }

/-- A strike in a team's registers, scratchpad or accumulator store: `mark` when it cannot be corrected. -/
def strike (d : Dev) (tid half : Nat) (ok : Bool) (mark : Team → Team) : Option Dev :=
  (d.focus tid).map fun d => countCore (if ok then d else d.upd mark) (d.cur.core + half) ok

/-- A strike in memory (R105). -/
def strikeMem (d : Dev) (pa : Nat) (hbm ok : Bool) : Dev :=
  let u := pa / 8
  let d1 := if hbm then (if d.hbmU.contains u then d else { d with hbmU := u :: d.hbmU }) else { d with hbmU := d.hbmU.filter (· != u) }
  if ok then (if d1.badU.contains u || d1.badCorr.contains u then d1 else { d1 with badCorr := u :: d1.badCorr })
  else { d1 with badU := if d1.badU.contains u then d1.badU else u :: d1.badU, badCorr := d1.badCorr.filter (· != u) }

/-- SOFT_ERROR: a soft error strikes; ok: the code corrects it (R105, R368). HBM and L2 hold device memory only (R1, R95, R96). -/
def execSoftError (σ : State) : Host.Outcome State Fault Refusal :=
  event σ fun _ e d =>
    match e.site with
    | .hbm a => if hbmEnd ≤ a then none else some (strikeMem d a true e.ok)
    | .l2 a => if hbmEnd ≤ a then none else some (strikeMem d a false e.ok)
    | .register t r l => if decide (124 ≤ r) || decide (1024 ≤ l) then none else strike d t (if 512 ≤ l then 1 else 0) e.ok fun x => { x with badV := (1024 * r + l) :: x.badV.filter (· != 1024 * r + l) }
    | .scratch t h w => if decide (2 ≤ h) || decide (2 ^ 20 ≤ w) then none else strike d t h e.ok fun x => { x with badS := (h * 2 ^ 20 + w) :: x.badS.filter (· != h * 2 ^ 20 + w) }
    | .tile t h a i => if decide (2 ≤ h) || decide (48 ≤ a) || decide (1024 ≤ i) then none else
        strike d t h e.ok fun x => { x with badT := (1024 * (64 * h + a) + i) :: x.badT.filter (· != 1024 * (64 * h + a) + i) }

/-! ### The sampler (R216-R218) -/

/-- The blocked team a tick selects, by TEAMID, address, slot and reason: in ascending TEAMID after the one last recorded (R217). -/
def blockedTeam (ts : List (Nat × Nat × Nat × Nat)) (last : Nat) : Option (Nat × Nat × Nat × Nat) :=
  let l := sortBy (fun a b => decide (a.1 ≤ b.1)) ts
  match l.find? fun t => decide (last < t.1) with
  | some t => some t
  | none => l.head?

/-- The sequence number of a sampler's tick, at the tick's own cycle (R209, R218). -/
def tickSeq (core : Nat) (f : Found) : Dword := BitVec.ofNat 64 (f.time * 65536 + (0x900 + core) * 16)

/-- The record of a tick (R218); b: the blocked team it selects. -/
def tickRecord (core : Nat) (f : Found) (b : Option (Nat × Nat × Nat × Nat)) : List Byte :=
  let i := f.issued.getD (nobody, 0)
  let u := b.getD (nobody, 0, 0, 0)
  packBytes 64 [(0, 8, (tickSeq core f).toNat), (8, 8, i.2), (16, 8, u.2.1), (24, 4, i.1), (28, 4, u.1),
    (32, 1, if f.issued.isSome then f.num % 4 else 0), (33, 1, u.2.2.1), (34, 1, u.2.2.2), (35, 1, (if f.issued.isSome then 1 else 0) + if b.isSome then 2 else 0)]

/-- SAMPLER_TICK: the cycle of a core's tick is over; what the sampler has found in it is written to its ring as a record, or DROP rises (R216-R218).
core. -/
def execSamplerTick (σ : State) : Host.Outcome State Fault Refusal :=
  event σ fun fw e d =>
    let s := (d.core e.core).sampler
    match s.found, fw.partOfCore e.core with
    | f :: r, some p =>
      let b := blockedTeam f.blocked s.last.toNat
      let s1 := { s with found := r, last := match b with | some t => BitVec.ofNat 32 t.1 | none => s.last }
      match ringPost .limamon fw d p s.ring (tickRecord e.core f b) 0 with
      | some d1 => some (d1.updCore e.core fun c => { c with sampler := s1 })
      | none => some (d.updCore e.core fun c => { c with sampler := { s1 with drop := satInc s.drop } })
    | _, _ => none

end Sys2Proof.Machine
end

