-- ==== Sys2Proof/Machine/Label.lean ====
section
/-! DEFINITION. Instructions that read labels (R317). -/
namespace Sys2Proof.Machine

/-- LBLGET: the origin set of va in lane sb[31:0], 0 at or beyond the team width; empty label (R317). -/
def execLblget (d : BitVec 6) (a : BitVec 7) (b : BitVec 6) (σ : State) : Host.Outcome State Fault Refusal :=
  word (.lblget d a b) σ fun fw D => pairHold D
    (let l := (sval D 2 b.toNat).toNat % 2 ^ 32
     if D.cur.lanes ≤ l then finish fw (D.upd fun t => t.sset d.toNat { val := 0, lbl := 0 } 2)
     else
       let s := D.cur.org (vread D 1 a.toNat l).lbl
       let D1 := if badLatch D.cur a.toNat then D.updS fun x => { x with tstat := x.tstat ||| 0x10000#19 } else D
       finish fw (D1.upd fun t => t.sset d.toNat { val := s.setWidth 64, lbl := 0 } 2))

/-- LBLS: the origin set of sa; empty label (R317). -/
def execLbls (d : BitVec 6) (a : BitVec 6) (σ : State) : Host.Outcome State Fault Refusal :=
  word (.lbls d a) σ fun fw D => finish fw (D.upd fun t => t.sset d.toNat { val := (sorg D 1 a.toNat).setWidth 64, lbl := 0 } 2)

/-- LBLT: the active lanes whose origin set lies within sb[31:0] (R317). -/
def execLblt (k : BitVec 4) (a : BitVec 7) (b : BitVec 6) (σ : State) : Host.Outcome State Fault Refusal :=
  word (.lblt k a b) σ fun fw D =>
    let s : OSet := (sval D 2 b.toNat).setWidth 32
    let ls := D.act.filter fun l => D.cur.org (vread D 1 a.toNat l).lbl &&& ~~~s == 0
    finishV fw D.k0 (noteLatch D [a.toNat] (D.upd fun t => t.kset k.toNat (lanesMask ls) 2))

end Sys2Proof.Machine
end

