-- ==== Sys2Proof/Machine/LoadStore.lean ====
section
/-! DEFINITION. Vector and scalar loads and stores (R270-R274). -/
namespace Sys2Proof.Machine

/-- Bytes of an LDN or STN access (R270). -/
def nBytes : NSize → Nat
  | .i8 => 1 | .n8 => 1 | .i16 => 2 | .n16 => 2
/-- Whether it is signed. -/
def nSigned : NSize → Bool
  | .i8 => true | .n8 => false | .i16 => true | .n16 => false

/-- Bytes of an LD or ST access (R270). -/
def mBytes (z : MSize) : Nat := 4 * z.regs

/-- Narrowing of STN (R272). -/
def narrow (z : NSize) (v : Word) : Nat :=
  match z with
  | .i8 => (BitVec.ofInt 8 (clampInt (-128) 127 v.toInt)).toNat
  | .n8 => min v.toNat 255
  | .i16 => (BitVec.ofInt 16 (clampInt (-32768) 32767 v.toInt)).toNat
  | .n16 => min v.toNat 65535

/-- Address of lane l of an M-format word (R270). -/
def memAddr (d : Dev) (b i z l : Nat) : Dword :=
  let idx : Int := if i = 127 then (l : Int) else (vread d 2 i l).val.toInt
  sval d 1 b + BitVec.ofInt 64 (idx * (z : Int) + offOf d.cur.hints)

/-- Label of that address. -/
def memAddrLabel (d : Dev) (b i l : Nat) : OSet := sorg d 1 b ||| (if i = 127 then 0 else d.cur.org (vread d 2 i l).lbl)

/-- The accesses of a vector load. -/
def loadWants (d : Dev) (b i z : Nat) : List Want :=
  d.act.map fun l => { lane := l, va := memAddr d b i z l, len := z, albl := memAddrLabel d b i l }

/-- A vector load (R270, R271). -/
def vectorLoad (fw : Fw) (q b i z : Nat) (dst : LoadDst) (d : Dev) : Dev :=
  posting fw q d fun d => (accesses fw { r := true } true true (loadWants d b i z) z d fun as d' =>
    finishV fw d.k0 (postOp d' q (.load dst d.pol as) [] as.isEmpty))

/-- Data of lane l: registers v, v+1, …, lowest first. -/
def storeData (d : Dev) (v n l : Nat) : Nat := (upFrom 0 n).foldl (fun a j => a + (vread d 3 (v + j) l).val.toNat * 2 ^ (32 * j)) 0
/-- Join of their labels. -/
def storeLabel (d : Dev) (v n l : Nat) : OSet := (upFrom 0 n).foldl (fun s j => s ||| d.cur.org (vread d 3 (v + j) l).lbl) 0

/-- A vector store (R270, R272). -/
def vectorStore (fw : Fw) (q v b i z : Nat) (n : Nat) (data : Nat → Nat) (d : Dev) : Dev :=
  let ws := (loadWants d b i z).map fun w => { w with data := data w.lane, lbl := storeLabel d v n w.lane }
  posting fw q d fun d => (accesses fw { w := true } true true ws z d fun as d' =>
    finishV fw d.k0 (noteLatch d [v] (postOp d' q (.store (shadow as)) [] as.isEmpty)))

/-- LD: loads z bytes a lane into registers v, v+1, … (R270, R271). -/
def execLd (q : BitVec 4) (v : BitVec 7) (b : BitVec 6) (i : BitVec 7) (z : MSize) (σ : State) : Host.Outcome State Fault Refusal :=
  word (.ld q v b i z) σ fun fw D => vectorLoad fw q.toNat b.toNat i.toNat (mBytes z) (.regs v.toNat z.regs) D

/-- LDN: loads a byte or half a lane, extended to 32 bits (R270, R271). -/
def execLdn (q : BitVec 4) (v : BitVec 7) (b : BitVec 6) (i : BitVec 7) (z : NSize) (σ : State) : Host.Outcome State Fault Refusal :=
  word (.ldn q v b i z) σ fun fw D => vectorLoad fw q.toNat b.toNat i.toNat (nBytes z) (.ext v.toNat (nSigned z)) D

/-- ST: stores z bytes a lane (R270, R272). -/
def execSt (q : BitVec 4) (v : BitVec 7) (b : BitVec 6) (i : BitVec 7) (z : MSize) (σ : State) : Host.Outcome State Fault Refusal :=
  word (.st q v b i z) σ fun fw D =>
    vectorStore fw q.toNat v.toNat b.toNat i.toNat (mBytes z) z.regs (storeData D v.toNat z.regs) D

/-- STN: stores a narrowed byte or half a lane (R270, R272). -/
def execStn (q : BitVec 4) (v : BitVec 7) (b : BitVec 6) (i : BitVec 7) (z : NSize) (σ : State) : Host.Outcome State Fault Refusal :=
  word (.stn q v b i z) σ fun fw D =>
    vectorStore fw q.toNat v.toNat b.toNat i.toNat (nBytes z) 1 (fun l => narrow z (vread D 3 v.toNat l).val) D

/-! ### Scalar loads and stores (R274) -/

/-- The address of an SMEM word. -/
def smemAddr (d : Dev) (b o z : Nat) : Dword :=
  sval d 1 b + immZ d o 7 * BitVec.ofNat 64 z + BitVec.ofInt 64 (offOf d.cur.hints)

/-- A scalar load of z bytes. -/
def scalarLoad (fw : Fw) (q sd b o z : Nat) (d : Dev) : Dev :=
  let w : Want := { lane := scalarLane, va := smemAddr d b o z, len := z, albl := sorg d 1 b }
  posting fw q d fun d => (accesses fw { r := true } true true [w] z d fun as d' =>
    finish fw (postOp d' q (.load (.scal sd) d.pol as) [] false))

/-- A scalar store of z bytes. -/
def scalarStore (fw : Fw) (q sd b o z : Nat) (d : Dev) : Dev :=
  let w : Want := { lane := scalarLane, va := smemAddr d b o z, len := z, data := (sval d 3 sd).toNat % 2 ^ (8 * z), lbl := sorg d 3 sd, albl := sorg d 1 b }
  posting fw q d fun d => (accesses fw { w := true } true true [w] z d fun as d' =>
    finish fw (postOp d' q (.store as) [] false))

/-- LDS.w: loads a word (R274). -/
def execLdsW (q : BitVec 4) (d : BitVec 6) (b : BitVec 6) (o : BitVec 7) (σ : State) : Host.Outcome State Fault Refusal :=
  word (.ldsW q d b o) σ fun fw D => scalarLoad fw q.toNat d.toNat b.toNat o.toNat 4 D

/-- LDS.d: loads a doubleword (R274). -/
def execLdsD (q : BitVec 4) (d : BitVec 6) (b : BitVec 6) (o : BitVec 7) (σ : State) : Host.Outcome State Fault Refusal :=
  word (.ldsD q d b o) σ fun fw D => scalarLoad fw q.toNat d.toNat b.toNat o.toNat 8 D

/-- STS.w: stores sd[31:0] (R274). -/
def execStsW (q : BitVec 4) (d : BitVec 6) (b : BitVec 6) (o : BitVec 7) (σ : State) : Host.Outcome State Fault Refusal :=
  word (.stsW q d b o) σ fun fw D => scalarStore fw q.toNat d.toNat b.toNat o.toNat 4 D

/-- STS.d: stores sd (R274). -/
def execStsD (q : BitVec 4) (d : BitVec 6) (b : BitVec 6) (o : BitVec 7) (σ : State) : Host.Outcome State Fault Refusal :=
  word (.stsD q d b o) σ fun fw D => scalarStore fw q.toNat d.toNat b.toNat o.toNat 8 D

/-- LDS.n8: loads a byte, zero-extended (R274). -/
def execLdsN8 (q : BitVec 4) (d : BitVec 6) (b : BitVec 6) (o : BitVec 7) (σ : State) : Host.Outcome State Fault Refusal :=
  word (.ldsN8 q d b o) σ fun fw D => scalarLoad fw q.toNat d.toNat b.toNat o.toNat 1 D

/-- LDS.n16: loads a half, zero-extended (R274). -/
def execLdsN16 (q : BitVec 4) (d : BitVec 6) (b : BitVec 6) (o : BitVec 7) (σ : State) : Host.Outcome State Fault Refusal :=
  word (.ldsN16 q d b o) σ fun fw D => scalarLoad fw q.toNat d.toNat b.toNat o.toNat 2 D

/-- STS.b8: stores sd[7:0] (R274). -/
def execStsB8 (q : BitVec 4) (d : BitVec 6) (b : BitVec 6) (o : BitVec 7) (σ : State) : Host.Outcome State Fault Refusal :=
  word (.stsB8 q d b o) σ fun fw D => scalarStore fw q.toNat d.toNat b.toNat o.toNat 1 D

/-- STS.h16: stores sd[15:0] (R274). -/
def execStsH16 (q : BitVec 4) (d : BitVec 6) (b : BitVec 6) (o : BitVec 7) (σ : State) : Host.Outcome State Fault Refusal :=
  word (.stsH16 q d b o) σ fun fw D => scalarStore fw q.toNat d.toNat b.toNat o.toNat 2 D

end Sys2Proof.Machine
end

