-- ==== Sys2Proof/Machine/Masks.lean ====
section
/-! DEFINITION. Mask operations (R264, R265). -/
namespace Sys2Proof.Machine

/-- A mask operation (R264): whole masks, latency 1. -/
def maskOp (fw : Fw) (kd : Nat) (m : Mask) (d : Dev) : Dev := finish fw (d.upd fun t => t.kset kd m 1)

/-- The lowest set lane alone. -/
def lowestLane (n : Nat) (k : Mask) : Mask := match maskLanes n k with | [] => 0 | l :: _ => lanesMask [l]

/-- KAND: (R264). -/
def execKand (d : BitVec 4) (a : BitVec 4) (b : BitVec 4) (σ : State) : Host.Outcome State Fault Refusal :=
  word (.kand d a b) σ fun fw D => maskOp fw d.toNat (kread D 1 a.toNat &&& kread D 2 b.toNat) D

/-- KOR: (R264). -/
def execKor (d : BitVec 4) (a : BitVec 4) (b : BitVec 4) (σ : State) : Host.Outcome State Fault Refusal :=
  word (.kor d a b) σ fun fw D => maskOp fw d.toNat (kread D 1 a.toNat ||| kread D 2 b.toNat) D

/-- KXOR: (R264). -/
def execKxor (d : BitVec 4) (a : BitVec 4) (b : BitVec 4) (σ : State) : Host.Outcome State Fault Refusal :=
  word (.kxor d a b) σ fun fw D => maskOp fw d.toNat (kread D 1 a.toNat ^^^ kread D 2 b.toNat) D

/-- KANDN: (R264). -/
def execKandn (d : BitVec 4) (a : BitVec 4) (b : BitVec 4) (σ : State) : Host.Outcome State Fault Refusal :=
  word (.kandn d a b) σ fun fw D => maskOp fw d.toNat (kread D 1 a.toNat &&& ~~~(kread D 2 b.toNat)) D

/-- KNOT: (R264). -/
def execKnot (d : BitVec 4) (a : BitVec 4) (σ : State) : Host.Outcome State Fault Refusal :=
  word (.knot d a) σ fun fw D => maskOp fw d.toNat (~~~(kread D 1 a.toNat)) D

/-- KMOV: (R264). -/
def execKmov (d : BitVec 4) (a : BitVec 4) (σ : State) : Host.Outcome State Fault Refusal :=
  word (.kmov d a) σ fun fw D => maskOp fw d.toNat (kread D 1 a.toNat) D

/-- KALL: (R264). -/
def execKall (d : BitVec 4) (σ : State) : Host.Outcome State Fault Refusal :=
  word (.kall d) σ fun fw D => maskOp fw d.toNat (allLanes D.cur.lanes) D

/-- KFIRST: the lowest set lane alone (R264). -/
def execKfirst (d : BitVec 4) (a : BitVec 4) (σ : State) : Host.Outcome State Fault Refusal :=
  word (.kfirst d a) σ fun fw D => pairHold D (maskOp fw d.toNat (lowestLane D.cur.lanes (kread D 1 a.toNat)) D)

/-- KGANY: every lane when any is set (R264). -/
def execKgany (d : BitVec 4) (a : BitVec 4) (σ : State) : Host.Outcome State Fault Refusal :=
  word (.kgany d a) σ fun fw D => pairHold D (maskOp fw d.toNat (if kread D 1 a.toNat = 0 then 0 else allLanes D.cur.lanes) D)

/-- KZERO: empty (R264). -/
def execKzero (d : BitVec 4) (σ : State) : Host.Outcome State Fault Refusal :=
  word (.kzero d) σ fun fw D => pairHold D (maskOp fw d.toNat 0 D)

/-- KCNT: sd := set lanes; empty label (R264). -/
def execKcnt (a : BitVec 4) (s : BitVec 6) (σ : State) : Host.Outcome State Fault Refusal :=
  word (.kcnt a s) σ fun fw D => pairHold D (finish fw (D.upd fun t => t.sset s.toNat { val := BitVec.ofNat 64 (maskLanes t.lanes (kread D 1 a.toNat)).length, lbl := 0 } 2))

/-- KTOS: s := word of k, zero-extended; empty label (R265). -/
def execKtos (k : BitVec 4) (s : BitVec 6) (w : BitVec 5) (σ : State) : Host.Outcome State Fault Refusal :=
  word (.ktos k s w) σ fun fw D => pairHold D (finish fw (D.upd fun t => t.sset s.toNat { val := (maskWord (kread D 1 k.toNat) w.toNat).zeroExtend 64, lbl := 0 } 2))

/-- STOK: word of k := s[31:0] (R265). -/
def execStok (k : BitVec 4) (s : BitVec 6) (w : BitVec 5) (σ : State) : Host.Outcome State Fault Refusal :=
  word (.stok k s w) σ fun fw D => finish fw (D.upd fun t => t.kwset k.toNat w.toNat ((sval D 1 s.toNat).truncate 32) 2)

end Sys2Proof.Machine
end

