-- ==== Sys2Proof/Machine/Package.lean ====
section
/-! DEFINITION. Freeze, thaw, the debug port, package reset (R362, R363, R371). -/
namespace Sys2Proof.Machine

/-- FRZ_N: the pin stops every clock (R362). -/
def execFrzN (σ : State) : Host.Outcome State Fault Refusal := .next { σ with dev := { σ.dev with frozen := true } }
/-- FREEZE: the debug-port instruction does the same (R362). -/
def execFreeze (σ : State) : Host.Outcome State Fault Refusal := .next { σ with dev := { σ.dev with frozen := true } }
/-- Accesses to host memory that an operation has still to perform. -/
def hostPending (o : Op) : List Acc :=
  if o.done then [] else o.kind.reaches.filter fun a => !a.fin && (match a.tgt with | .mem pa _ _ => paIsHost pa | .scr _ _ => false | .reg _ _ _ => false)

/-- Which of them end in error at the thaw, of team `key`: R363 leaves it open (entry 36). -/
def thawLost (fr key : Nat) (o : Op) : List Acc :=
  (hostPending o).filter fun a => Config.free fr ((key * 2 ^ 40 + o.id) * 4096 + a.lane) % 2 == 1

/-- The lost accesses of an operation of the acting team end in error (R363): they are not performed and their registers stay; the others
go on. An engine's operation that loses one ends in error as a whole. -/
def thawOp (fw : Fw) (fr : Nat) (d : Dev) (o : Op) : Dev :=
  let lost := thawLost fr d.cur.key o
  if lost.isEmpty then d
  else
    let left := fun (as : List Acc) => as.map fun a => if lost.contains a then { a with fin := true, note := 4 } else a
    let put := fun (k : OpKind) => (d.setKind o.id k).setErr o.id
    match o.kind with
    | .load dst pol as => put (.load dst pol (as.filter fun a => !(lost.contains a)))
    | .store as => if (left as).all (·.fin) then endOp fw (put (.store (left as))) o false (storeCauses (put (.store (left as))) (left as)) else put (.store (left as))
    | .code as => if (left as).all (·.fin) then endOp fw (put (.code (left as))) o false (storeCauses (put (.code (left as))) (left as)) else put (.code (left as))
    | .atomic k dst acq as =>
      if (left as).all (·.fin) then completeAtomic fw o k dst acq (left as) (put (.atomic k dst acq (left as))) else put (.atomic k dst acq (left as))
    | _ => finishOp d o.id true

/-- The pending accesses of team `key` at a thaw. -/
def thawTeam (fw : Fw) (fr : Nat) (d : Dev) (key : Nat) : Dev :=
  match d.focus key with
  | some d1 => d1.cur.ops.foldl (thawOp fw fr) d1
  | none => d

/-- Teams that lose an access to host memory at a thaw. -/
def thawTeams (d : Dev) : List Nat :=
  (d.teams.filter fun t => t.live && t.ops.any fun o => !(thawLost d.free t.key o).isEmpty).map (·.key)

/-- THAW: every clock resumes from the same cycle; a device access to host memory that was pending resumes or ends in error (R362, R363). -/
def execThaw (σ : State) : Host.Outcome State Fault Refusal :=
  if !σ.dev.frozen then .next σ
  else .next { σ with dev := { (thawTeams σ.dev).foldl (thawTeam σ.fw σ.dev.free) σ.dev with frozen := false, free := σ.dev.free + 1 } }

/-- PACKAGE_RESET: the package starts anew and is brought up in the order of R371: MR0 measures ROM Limamon, the BARs are enabled, the attestation key
is derived and certified (R359), the physical function's queues are active. Memory, the fused counter and the reset count outlive it (entry 33). -/
def execPackageReset (σ : State) : Host.Outcome State Fault Refusal :=
  let qs := Config.pfQueues.foldl (fun m q => mins m q.1 { state := 1, log2 := q.2.2, base := q.2.1 }) ([] : SMap Queue)
  let fw : Fw := { attest { measure { resets := σ.fw.resets + 1, fuse := σ.fw.fuse } 0 Config.romImage with bars := true } with queues := qs }
  .next { fw, dev := { mem := σ.dev.mem, badU := σ.dev.badU, badCorr := σ.dev.badCorr, hbmU := σ.dev.hbmU }, sched := σ.sched, args := σ.args }

/-! ### The debug port (R362) -/

/-- A value as n bytes of debug output. -/
def outNat (n v : Nat) : List Byte := leBytes n v

/-- The team a debug access names. -/
def teamByKey (d : Dev) (key : Nat) : Option Team := d.teams.find? fun t => t.key == key

/-- Read or write an item of a team. -/
def teamItem (s : State) (key : Nat) (get : Team → List Byte) (put : Option (Team → Team)) : Option State :=
  (teamByKey s.dev key).map fun t => match put with
    | none => { s with dev := { s.dev with hostData := get t } }
    | some f => { s with dev := s.dev.updTeam key f }

/-- Read or write an item of the package. -/
def packageItem (s : State) (get : List Byte) (put : Option State) : State :=
  match put with | none => { s with dev := { s.dev with hostData := get } } | some t => t

/-- A special register's value for the debug port, the identity registers of R77 among them; 256 is HANDLING (R222). -/
def Team.debugSpecial (t : Team) (n : Nat) : Dword :=
  match n with
  | 0x00 => t.teamId.setWidth 64
  | 0x01 => t.launchId.setWidth 64
  | 0x02 => BitVec.ofNat 64 t.core
  | 0x03 => BitVec.ofNat 64 t.slot
  | 0x04 => BitVec.ofNat 64 t.decl.lanes
  | 0x05 => BitVec.ofNat 64 t.decl.group
  | 0x10 => t.sp.tcause.setWidth 64
  | 0x12 => t.sp.tinfo0
  | 0x13 => t.sp.tinfo1
  | 256 => if t.sp.handling then 1 else 0
  | n => t.sp.value n

/-- Write it. -/
def Team.setDebugSpecial (n : Nat) (v : Dword) (t : Team) : Team :=
  match n with
  | 0x00 => { t with teamId := v.setWidth 32 }
  | 0x01 => { t with launchId := v.setWidth 32 }
  | 0x02 => { t with core := v.toNat % 256 }
  | 0x03 => { t with slot := v.toNat % 4 }
  | 0x04 => { t with decl := { t.decl with lanes := v.toNat % 2 ^ 16 } }
  | 0x05 => { t with decl := { t.decl with group := v.toNat % 2 ^ 8 } }
  | 0x10 => { t with sp := { t.sp with tcause := v.setWidth 8 } }
  | 0x12 => { t with sp := { t.sp with tinfo0 := v } }
  | 0x13 => { t with sp := { t.sp with tinfo1 := v } }
  | 256 => { t with sp := { t.sp with handling := v.getLsbD 0 } }
  | n => { t with sp := t.sp.put n v }

/-- Counter n of a team: 0-15 stall reasons, 16 ISSUED, 17 RESIDENT. -/
def Team.counter (t : Team) (n : Nat) : BitVec 48 := if n = 16 then t.issued else if n = 17 then t.resident else mget 0 t.stall n
def Team.setCounter (n : Nat) (v : BitVec 48) (t : Team) : Team :=
  if n = 16 then { t with issued := v } else if n = 17 then { t with resident := v } else { t with stall := mset 0 t.stall n v }

/-- A queue's record of its 128 bits (R150). -/
def Queue.ofRecord (q : Queue) (v : Nat) : Queue :=
  { q with head := BitVec.ofNat 32 (v / 2 ^ 96), tail := BitVec.ofNat 32 (v / 2 ^ 64), state := BitVec.ofNat 4 (v / 2 ^ 56), log2 := BitVec.ofNat 4 (v / 2 ^ 52),
           prio := BitVec.ofNat 3 (v / 2 ^ 49), part := BitVec.ofNat 5 (v / 2 ^ 44), base := BitVec.ofNat 44 v }

/-- A partition entry of its 128 bytes (R174). -/
def Part.ofBytes (bs : List Byte) : Part :=
  let f := fieldAt bs
  { state := BitVec.ofNat 8 (f 0 1), hcause := BitVec.ofNat 8 (f 1 1), qbase := BitVec.ofNat 32 (f 4 4), qcount := BitVec.ofNat 32 (f 8 4), pairs := BitVec.ofNat 128 (f 16 16),
    fmap := BitVec.ofNat 64 (f 32 8), wq := BitVec.ofNat 64 (f 40 8), fq := BitVec.ofNat 64 (f 48 8), cq := BitVec.ofNat 64 (f 56 8), cwait := BitVec.ofNat 32 (f 64 4),
    pwin := BitVec.ofNat 32 (f 68 4), plim := BitVec.ofNat 32 (f 72 4), origins := BitVec.ofNat 32 (f 76 4), lctr := BitVec.ofNat 64 (f 80 8), mbox := BitVec.ofNat 64 (f 88 8) }

/-- A policy entry of its 96 bytes (R172). -/
def Policy.ofBytes (x : Policy) (bs : List Byte) : Policy :=
  { set := BitVec.ofNat 32 (fieldAt bs 0 4), part := fieldAt bs 4 1, valid := fieldAt bs 5 1 == 1, ctr := BitVec.ofNat 64 (fieldAt bs 8 8), dest := (bs.drop 16).take 64,
    clearing := x.clearing }

/-- The image of an extent (R135). -/
def Extent.image (x : Extent) : Nat := x.perm.toNat * 2 ^ 124 + x.count.toNat * 2 ^ 89 + x.hbase.toNat * 2 ^ 64 + x.gbase.toNat

/-- Change the firmware's tables. -/
def State.onFw (s : State) (f : Fw → Fw) : State := { s with fw := f s.fw }
/-- Change the device. -/
def State.onDev (s : State) (f : Dev → Dev) : State := { s with dev := f s.dev }

/-- The outstanding count of a token becomes n (R69): operations beyond it no longer count there; a count without an operation behind it never
completes. -/
def Team.setCount (q n : Nat) (t : Team) : Team :=
  let keep := ((t.ops.filter fun o => o.q == some q).map (·.id)).take n
  let ops := t.ops.map fun o => if o.q == some q && !(keep.contains o.id) then { o with q := none } else o
  let new := (upFrom t.nextOp (n - keep.length)).map fun i => ({ id := i, q := some q, pc := t.pc, first := t.pc, kind := .instant } : Op)
  { t with ops := ops ++ new, nextOp := t.nextOp + (n - keep.length) }

/-- An item of a core. -/
def coreItem (s : State) (c : Nat) (get : Core → List Byte) (put : Option (Core → Core)) : Option State :=
  if 256 ≤ c then none else some (packageItem s (get (s.dev.core c)) (put.map fun f => s.onDev fun d => d.updCore c f))

/-- A sampler's registers (R216-R218): on, B, L, ring, next tick's time and number, DROP, the team last recorded. -/
def Sampler.image (x : Sampler) : List Byte :=
  packBytes 48 [(0, 1, if x.on then 1 else 0), (4, 4, x.b), (8, 2, x.l.toNat), (16, 8, x.ring.toNat), (24, 8, x.tick), (32, 8, x.next), (40, 4, x.drop.toNat),
    (44, 4, x.last.toNat)]
def Sampler.ofImage (bs : List Byte) : Sampler :=
  let f := fieldAt bs
  { on := f 0 1 % 2 == 1, b := f 4 4, l := BitVec.ofNat 16 (f 8 2), ring := BitVec.ofNat 64 (f 16 8), tick := f 24 8, next := f 32 8, drop := BitVec.ofNat 32 (f 40 4),
    last := BitVec.ofNat 32 (f 44 4) }

/-- The soft-error counters of R368 in the order of ERRLOG: 256 slices, 8 stacks, 256 cores; corrected in the low half. -/
def Dev.errors (d : Dev) (n : Nat) : Word × Word :=
  if n < 256 then mget (0, 0) d.sliceErr n else if n < 264 then mget (0, 0) d.stackErr (n - 256) else ((d.core (n - 264)).corrected, (d.core (n - 264)).uncorr)
def Dev.setErrors (n : Nat) (p : Word × Word) (d : Dev) : Dev :=
  if n < 256 then { d with sliceErr := mset (0, 0) d.sliceErr n p }
  else if n < 264 then { d with stackErr := mset (0, 0) d.stackErr (n - 256) p }
  else d.updCore (n - 264) fun c => { c with corrected := p.1, uncorr := p.2 }

/-- Lane l of the n-th latched result: its value, and its label index above it. A write to a latch that nothing has been pushed into yet fills those
before it with empty ones. -/
def Regs.latchAt (r : Regs) (n l : Nat) : Nat := match r.latches.drop n with | x :: _ => (mget {} x.lanes l).val.toNat + (mget {} x.lanes l).lbl.toNat * 2 ^ 32 | [] => 0
def Regs.setLatch (n l v : Nat) (r : Regs) : Regs :=
  let put := fun (x : Latch) => { x with lanes := mset {} x.lanes l { val := BitVec.ofNat 32 v, lbl := BitVec.ofNat 4 (v / 2 ^ 32) } }
  { r with latches := (r.latches ++ List.replicate (n - r.latches.length) ({} : Latch)).take n ++ (match r.latches.drop n with | x :: rest => put x :: rest | [] => [put {}]) }

/-- A window's registration (R354). -/
def Window.image (x : Window) : List Byte := packBytes 24 [(0, 1, if x.reg then 1 else 0), (1, 1, x.part), (8, 8, x.base.toNat), (16, 8, x.len)]
def Window.ofImage (x : Window) (bs : List Byte) : Window :=
  { x with reg := fieldAt bs 0 1 % 2 == 1, part := fieldAt bs 1 1, base := BitVec.ofNat 64 (fieldAt bs 8 8), len := fieldAt bs 16 8 }

/-- A peer's binding (R354). -/
def Peer.image (x : Peer) : List Byte := packBytes 16 [(0, 1, if x.bound then 1 else 0), (1, 1, x.part), (2, 1, x.rpart), (8, 8, x.digest.toNat)]
def Peer.ofImage (bs : List Byte) : Peer :=
  { bound := fieldAt bs 0 1 % 2 == 1, part := fieldAt bs 1 1, rpart := fieldAt bs 2 1, digest := BitVec.ofNat 64 (fieldAt bs 8 8) }

/-- A graph node of 64 bytes (R354). -/
def Node.image (x : Node) : List Byte := packBytes 16 [(0, 1, if x.kernel then 1 else 2), (1, 1, if x.retry then 1 else 0)] ++ fitBytes 48 x.ops

/-- A debug-port access in the frozen state (R362): a read puts the item on the port, a write replaces it. None when it names no team. -/
def debugAccess (s : State) : DebugAccess → Option State
  | .mem a new => some (packageItem s [memGet s.dev.mem a] (new.map fun b => s.onDev fun d => clearUnits (devSetBytes .host d a [b]) a 1))
  | .scalar t r new => if 63 ≤ r then none else
      teamItem s t (fun x => outNat 8 (mget {} x.regs.s r).val.toNat) (new.map fun v x =>
        { x with regs := { x.regs with s := mupd {} x.regs.s r fun y => { y with val := v } } })
  | .vector t r l new => if decide (124 ≤ r) || decide (1024 ≤ l) then none else
      teamItem s t (fun x => outNat 4 (x.regs.lane r l).val.toNat) (new.map fun v x =>
        { x with regs := { x.regs with v := mupd {} x.regs.v (1024 * r + l) fun y => { y with val := v } } })
  | .mask t r new => if 16 ≤ r then none else
      teamItem s t (fun x => outNat 128 (mget 0 x.regs.k r).toNat) (new.map fun v x => { x with regs := { x.regs with k := mset 0 x.regs.k r (v &&& allLanes x.lanes) } })
  | .codes t new => teamItem s t (fun x => outNat 1 x.regs.cc.toN) (new.map fun v x => { x with regs := { x.regs with cc := CC.ofN v.toNat } })
  | .label t i new => if i = 0 || decide (16 ≤ i) then none else
      teamItem s t (fun x => outNat 4 (mget 0 x.regs.labels i).toNat) (new.map fun v x => { x with regs := { x.regs with labels := mset 0 x.regs.labels i v } })
  | .special t n new => teamItem s t (fun x => outNat 8 (x.debugSpecial n).toNat) (new.map fun v => Team.setDebugSpecial n v)
  | .pc t new => teamItem s t (fun x => outNat 8 x.pc.toNat) (new.map fun v x => { x with pc := v, hints := [] })
  | .scratch t h w new => if decide (2 ≤ h) || decide (2 ^ 20 ≤ w) then none else
      teamItem s t (fun x => outNat 4 (mget {} x.regs.scr (h * 2 ^ 20 + w)).val.toNat) (new.map fun v x =>
        { x with regs := { x.regs with scr := mupd {} x.regs.scr (h * 2 ^ 20 + w) fun y => { y with val := v } } })
  | .handle t h j new => if decide (8 ≤ h) || decide (8 ≤ j) then none else
      teamItem s t (fun x => outNat 8 (mget 0 (mget {} x.regs.hnd h).words j).toNat) (new.map fun v x =>
        { x with regs := { x.regs with hnd := mupd {} x.regs.hnd h fun y => { y with words := mset 0 y.words j v } } })
  | .tile t h a new => if decide (2 ≤ h) || decide (48 ≤ a) then none else
      teamItem s t (fun x => tileSave (x.regs.tile h a)) (new.map fun bs x =>
        { x with regs := { x.regs with tiles := mset {} x.regs.tiles (64 * h + a) (tileRestore (fitBytes 4240 bs)) } })
  | .counter t n new => if 18 ≤ n then none else teamItem s t (fun x => outNat 6 (x.counter n).toNat) (new.map fun v => Team.setCounter n v)
  | .token t q new => if 16 ≤ q then none else teamItem s t (fun x => outNat 1 (x.count q)) (new.map fun v => Team.setCount q v.toNat)
  | .scalarLabel t r new => if 63 ≤ r then none else
      teamItem s t (fun x => outNat 1 (mget {} x.regs.s r).lbl.toNat) (new.map fun v x =>
        { x with regs := { x.regs with s := mupd {} x.regs.s r fun y => { y with lbl := v } } })
  | .vectorLabel t r l new => if decide (124 ≤ r) || decide (1024 ≤ l) then none else
      teamItem s t (fun x => outNat 1 (x.regs.lane r l).lbl.toNat) (new.map fun v x =>
        { x with regs := { x.regs with v := mupd {} x.regs.v (1024 * r + l) fun y => { y with lbl := v } } })
  | .scratchTag t h w new => if decide (2 ≤ h) || decide (2 ^ 20 ≤ w) then none else
      let tag := fun (y : ScrWord) => y.lbl.toNat + if y.armed then 16 else 0
      teamItem s t (fun x => outNat 1 (tag (mget {} x.regs.scr (h * 2 ^ 20 + w)))) (new.map fun v x =>
        { x with regs := { x.regs with scr := mupd {} x.regs.scr (h * 2 ^ 20 + w) fun y => { y with lbl := v.setWidth 4, armed := v.getLsbD 4 } } })
  | .handleLabel t h new => if 8 ≤ h then none else
      teamItem s t (fun x => outNat 4 (mget {} x.regs.hnd h).lbl.toNat) (new.map fun v x =>
        { x with regs := { x.regs with hnd := mupd {} x.regs.hnd h fun y => { y with lbl := v } } })
  | .latch t n l new => if decide (3 ≤ n) || decide (1024 ≤ l) then none else
      teamItem s t (fun x => outNat 5 (x.regs.latchAt n l)) (new.map fun v x => { x with regs := x.regs.setLatch n l v.toNat })
  | .session t new => teamItem s t (fun x => (x.sessionKept.map sessionImage).getD []) (new.map fun bs x =>
      { x with sessions := x.closed ++ if bs.isEmpty then [] else [sessionRestore bs] })
  | .teamParam t n new => if 64 ≤ n then none else
      teamItem s t (fun x => match x.gp with | some g => outNat 8 (mget 0 g.1 n).toNat ++ outNat 4 (mget 0 g.2 n).toNat | none => []) (new.map fun p x =>
        { x with gp := x.gp.map fun g => (mset 0 g.1 n p.1, mset 0 g.2 n p.2) })
  | .graphOrigin p i n new => if decide (1024 ≤ i) || decide (64 ≤ n) then none else
      some (packageItem s (outNat 4 (mget 0 (s.dev.graph (graphKey p i)).org n).toNat) (new.map fun v =>
        s.onDev fun d => d.setGraph (graphKey p i) fun g => { g with org := mset 0 g.org n v }))
  | .errors n new => if 520 ≤ n then none else
      some (packageItem s (outNat 4 (s.dev.errors n).1.toNat ++ outNat 4 (s.dev.errors n).2.toNat) (new.map fun p => s.onDev (Dev.setErrors n p)))
  | .sampler c new => coreItem s c (fun k => k.sampler.image) (new.map fun bs k => { k with sampler := { Sampler.ofImage bs with found := k.sampler.found } })
  | .queueControl q new => if 32768 ≤ q then none else
      let x := mget {} s.fw.queues q
      some (packageItem s (outNat 2 (x.vec + if x.priv then 2 ^ 15 else 0)) (new.map fun v => s.onFw fun w =>
        { w with queues := mupd {} w.queues q fun x => { x with vec := v.toNat % 2 ^ 11, priv := v.getLsbD 15 } }))
  | .aperture l p new => if decide (2 ≤ l) || decide (25 ≤ p) then none else
      some (packageItem s (outNat 8 (s.fw.aperture l p).toNat) (new.map fun v => s.onFw fun w => w.setAperture l p v))
  | .clock die new => if 2 ≤ die then none else
      some (packageItem s (outNat 2 (s.fw.mhz die) ++ outNat 6 (mget 0 s.fw.below die).toNat) (new.map fun p => s.onFw fun w =>
        { w with rate := mset 1600 w.rate die p.1.toNat, below := mset 0 w.below die p.2 }))
  | .frame n new => some (packageItem s (outNat 32 (s.dev.frame n).image) (new.bind fun v => (frameOf v.toNat).map fun f =>
      s.onDev fun d => { d with frames := mset {} d.frames n f }))
  | .anchor n new => if 24 * 2 ^ 23 ≤ n then none else
      some (packageItem s (outNat 4 (mget anchorDefault s.fw.anchors n).toNat) (new.map fun v => s.onFw fun w => { w with anchors := mset anchorDefault w.anchors n v }))
  | .extent p n new => if decide (24 ≤ p) || decide (64 ≤ n) then none else
      some (packageItem s (outNat 16 (mget {} s.fw.fmaps (64 * p + n)).image) (new.bind fun v => (extentOfImage v.toNat).map fun x =>
        s.onFw fun w => { w with fmaps := mset {} w.fmaps (64 * p + n) x }))
  | .graphParam p i n new => if decide (1024 ≤ i) || decide (64 ≤ n) then none else
      some (packageItem s (outNat 8 (mget 0 (s.dev.graph (graphKey p i)).gp n).toNat) (new.map fun v =>
        s.onDev fun d => d.setGraph (graphKey p i) fun g => { g with gp := mset 0 g.gp n v }))
  | .queue q new => if 32768 ≤ q then none else
      some (packageItem s (outNat 16 (mget {} s.fw.queues q).record) (new.map fun v => s.onFw fun w => { w with queues := mupd {} w.queues q fun x => x.ofRecord v.toNat }))
  | .partition p new => if 24 ≤ p then none else
      some (packageItem s (s.fw.part p).bytes (new.map fun bs => s.onFw fun w => { w with parts := mupd {} w.parts p fun _ => Part.ofBytes (fitBytes 128 bs) }))
  | .origin p n new => if decide (24 ≤ p) || decide (32 ≤ n) then none else
      some (packageItem s (mget {} s.fw.origins (32 * p + n)).bytes (new.map fun bs => s.onFw fun w =>
        { w with origins := mset {} w.origins (32 * p + n) { key := bs.take 64, dest := (bs.drop 64).take 64, reg := fieldAt bs 128 1 == 1 } }))
  | .policy n new => if 256 ≤ n then none else
      some (packageItem s (mget {} s.fw.policy n).bytes (new.map fun bs => s.onFw fun w => { w with policy := mupd {} w.policy n fun x => x.ofBytes bs }))
  | .window n p rcv new =>
      let x := s.dev.window n
      some (packageItem s (outNat 4 (mget 0 (if rcv then x.rcv else x.snd) p).toNat) (new.map fun v => s.onDev fun d =>
        d.updWin n fun y => if rcv then { y with rcv := mset 0 y.rcv p v } else { y with snd := mset 0 y.snd p v }))
  | .fence c new => if 256 ≤ c then none else
      some (packageItem s (outNat 1 ((s.dev.core c).fence.toNat + if (s.dev.core c).slow then 16 else 0)) (new.map fun v => s.onDev fun d =>
        d.updCore c fun k => { k with fence := v.setWidth 4, slow := v.getLsbD 4 }))
  | .engineOff c new => coreItem s c (fun k => outNat 1 (if k.off then 1 else 0)) (new.map fun v k => { k with off := v })
  | .restart t new => teamItem s t (fun x => outNat 8 x.restart.toNat) (new.map fun v x => { x with restart := v })
  | .start t new => teamItem s t (fun x => outNat 6 x.start.toNat) (new.map fun v x => { x with start := v })
  | .registration n new => some (packageItem s (s.dev.window n).image (new.map fun bs => s.onDev fun d => d.updWin n fun x => x.ofImage bs))
  | .peer n new => some (packageItem s (mget {} s.fw.peers n).image (new.map fun bs => s.onFw fun w => { w with peers := mset {} w.peers n (Peer.ofImage bs) }))
  | .graphNodes p i new => if 1024 ≤ i then none else
      some (packageItem s ((s.dev.graph (graphKey p i)).nodes.flatMap Node.image) (new.map fun bs => s.onDev fun d =>
        d.setGraph (graphKey p i) fun g => { g with made := !bs.isEmpty, nodes := (upFrom 0 (bs.length / 64)).filterMap fun j => nodeOf (bs.drop (64 * j)) }))
  | .measurement n new => if 8 ≤ n then none else
      some (packageItem s (fitBytes 64 (mget [] s.fw.mr n)) (new.map fun v => s.onFw fun w => { w with mr := mins w.mr n (leBytes 64 v.toNat) }))
  | .time new => some (packageItem s (outNat 6 s.dev.time.toNat) (new.map fun v => s.onDev fun d => { d with time := v }))

/-- DEBUG_PORT_ACCESS: the debug port reads or writes a state item (R362). The manual gives it only in the frozen state. -/
def execDebugPortAccess (σ : State) : Host.Outcome State Fault Refusal :=
  if σ.dev.frozen then .next ((debugAccess σ σ.args.debug).getD σ) else .fault .debugPortNotFrozen

end Sys2Proof.Machine
end

