-- ==== Sys2Proof/Machine/Scalar.lean ====
section
/-! DEFINITION. Scalar register operations and immediates (R250, R251). -/
namespace Sys2Proof.Machine

/-- The frame of a scalar operation (R250, R251): the result with the joined labels, then the flags when F is set. -/
def scalarOp (fw : Fw) (d : Dev) (f : Bool) (sd : Nat) (s : OSet) (r : Dword) (cc : CC) : Dev :=
  putScalar fw d sd r s 1 fun d1 => finish fw (if f then d1.upd fun t => t.ccset cc 1 else d1)

/-- A two-source scalar operation. -/
def salu2 (fw : Fw) (d : Dev) (f : Bool) (sd sa sb : Nat) (r : Dword → Dword → Dword) (cc : Dword → Dword → CC) : Dev :=
  scalarOp fw d f sd (sorg d 1 sa ||| sorg d 2 sb) (r (sval d 1 sa) (sval d 2 sb)) (cc (sval d 1 sa) (sval d 2 sb))

/-- A two-source scalar operation whose C and V are clear. -/
def salu2L (fw : Fw) (d : Dev) (f : Bool) (sd sa sb : Nat) (r : Dword → Dword → Dword) : Dev :=
  salu2 fw d f sd sa sb r fun a b => ccLogic (r a b)

/-- A one-source scalar operation. -/
def salu1 (fw : Fw) (d : Dev) (f : Bool) (sd sa : Nat) (r : Dword → Dword) : Dev :=
  scalarOp fw d f sd (sorg d 1 sa) (r (sval d 1 sa)) (ccLogic (r (sval d 1 sa)))

/-- An operation with an immediate (R251). -/
def saluI (fw : Fw) (d : Dev) (sd sa : Nat) (r : Dword → Dword) : Dev := scalarOp fw d false sd (sorg d 1 sa) (r (sval d 1 sa)) {}

/-- Leading zeros of an n-bit x. -/
def clzN (n x : Nat) : Nat := if x = 0 then n else n - 1 - Nat.log2 x
/-- Set bits of an n-bit x. -/
def popN (n x : Nat) : Nat := (upFrom 0 n).foldl (fun a i => a + x / 2 ^ i % 2) 0
/-- Trailing zeros of an n-bit x. -/
def ctzN (n x : Nat) : Nat := ((upFrom 0 n).find? fun i => x / 2 ^ i % 2 == 1).getD n
/-- Bits [127:64] of a signed product. -/
def mulhS (a b : Dword) : Dword := BitVec.ofInt 64 (a.toInt * b.toInt / 2 ^ 64)
/-- Bits [127:64] of an unsigned product. -/
def mulhU (a b : Dword) : Dword := BitVec.ofNat 64 (a.toNat * b.toNat / 2 ^ 64)
/-- The amount of a scalar shift: bits [5:0]. -/
def amount6 (b : Dword) : Nat := b.toNat % 64

/-- SADD: lo64(a + b) (R250). -/
def execSadd (f : Bool) (d : BitVec 6) (a : BitVec 6) (b : BitVec 6) (σ : State) : Host.Outcome State Fault Refusal :=
  word (.sadd f d a b) σ fun fw D => salu2 fw D f d.toNat a.toNat b.toNat (fun a b => a + b) ccAdd

/-- SSUB: lo64(a - b) (R250). -/
def execSsub (f : Bool) (d : BitVec 6) (a : BitVec 6) (b : BitVec 6) (σ : State) : Host.Outcome State Fault Refusal :=
  word (.ssub f d a b) σ fun fw D => salu2 fw D f d.toNat a.toNat b.toNat (fun a b => a - b) ccSub

/-- SMUL: lo64(a b) (R250). -/
def execSmul (f : Bool) (d : BitVec 6) (a : BitVec 6) (b : BitVec 6) (σ : State) : Host.Outcome State Fault Refusal :=
  word (.smul f d a b) σ fun fw D => salu2 fw D f d.toNat a.toNat b.toNat (fun a b => a * b) ccMul

/-- SMULH: high half of the signed product (R250). -/
def execSmulh (f : Bool) (d : BitVec 6) (a : BitVec 6) (b : BitVec 6) (σ : State) : Host.Outcome State Fault Refusal :=
  word (.smulh f d a b) σ fun fw D => salu2L fw D f d.toNat a.toNat b.toNat mulhS

/-- SMULHN: high half of the unsigned product (R250). -/
def execSmulhn (f : Bool) (d : BitVec 6) (a : BitVec 6) (b : BitVec 6) (σ : State) : Host.Outcome State Fault Refusal :=
  word (.smulhn f d a b) σ fun fw D => salu2L fw D f d.toNat a.toNat b.toNat mulhU

/-- SAND: bitwise (R250). -/
def execSand (f : Bool) (d : BitVec 6) (a : BitVec 6) (b : BitVec 6) (σ : State) : Host.Outcome State Fault Refusal :=
  word (.sand f d a b) σ fun fw D => salu2L fw D f d.toNat a.toNat b.toNat (fun a b => a &&& b)

/-- SOR: bitwise (R250). -/
def execSor (f : Bool) (d : BitVec 6) (a : BitVec 6) (b : BitVec 6) (σ : State) : Host.Outcome State Fault Refusal :=
  word (.sor f d a b) σ fun fw D => salu2L fw D f d.toNat a.toNat b.toNat (fun a b => a ||| b)

/-- SXOR: bitwise (R250). -/
def execSxor (f : Bool) (d : BitVec 6) (a : BitVec 6) (b : BitVec 6) (σ : State) : Host.Outcome State Fault Refusal :=
  word (.sxor f d a b) σ fun fw D => salu2L fw D f d.toNat a.toNat b.toNat (fun a b => a ^^^ b)

/-- SANDN: bitwise (R250). -/
def execSandn (f : Bool) (d : BitVec 6) (a : BitVec 6) (b : BitVec 6) (σ : State) : Host.Outcome State Fault Refusal :=
  word (.sandn f d a b) σ fun fw D => salu2L fw D f d.toNat a.toNat b.toNat (fun a b => a &&& ~~~b)

/-- SSHL: shift left by b[5:0] (R250). -/
def execSshl (f : Bool) (d : BitVec 6) (a : BitVec 6) (b : BitVec 6) (σ : State) : Host.Outcome State Fault Refusal :=
  word (.sshl f d a b) σ fun fw D => salu2L fw D f d.toNat a.toNat b.toNat (fun a b => a <<< amount6 b)

/-- SSHR: shift right, zero fill (R250). -/
def execSshr (f : Bool) (d : BitVec 6) (a : BitVec 6) (b : BitVec 6) (σ : State) : Host.Outcome State Fault Refusal :=
  word (.sshr f d a b) σ fun fw D => salu2L fw D f d.toNat a.toNat b.toNat (fun a b => a >>> amount6 b)

/-- SSRA: shift right, sign fill (R250). -/
def execSsra (f : Bool) (d : BitVec 6) (a : BitVec 6) (b : BitVec 6) (σ : State) : Host.Outcome State Fault Refusal :=
  word (.ssra f d a b) σ fun fw D => salu2L fw D f d.toNat a.toNat b.toNat (fun a b => a.sshiftRight (amount6 b))

/-- SMIN: the smaller, signed (R250). -/
def execSmin (f : Bool) (d : BitVec 6) (a : BitVec 6) (b : BitVec 6) (σ : State) : Host.Outcome State Fault Refusal :=
  word (.smin f d a b) σ fun fw D => salu2L fw D f d.toNat a.toNat b.toNat (fun a b => if b.slt a then b else a)

/-- SMAX: the larger, signed (R250). -/
def execSmax (f : Bool) (d : BitVec 6) (a : BitVec 6) (b : BitVec 6) (σ : State) : Host.Outcome State Fault Refusal :=
  word (.smax f d a b) σ fun fw D => salu2L fw D f d.toNat a.toNat b.toNat (fun a b => if a.slt b then b else a)

/-- SMINN: the smaller, unsigned (R250). -/
def execSminn (f : Bool) (d : BitVec 6) (a : BitVec 6) (b : BitVec 6) (σ : State) : Host.Outcome State Fault Refusal :=
  word (.sminn f d a b) σ fun fw D => salu2L fw D f d.toNat a.toNat b.toNat (fun a b => if b < a then b else a)

/-- SMAXN: the larger, unsigned (R250). -/
def execSmaxn (f : Bool) (d : BitVec 6) (a : BitVec 6) (b : BitVec 6) (σ : State) : Host.Outcome State Fault Refusal :=
  word (.smaxn f d a b) σ fun fw D => salu2L fw D f d.toNat a.toNat b.toNat (fun a b => if a < b then b else a)

/-- SCMP: flags of a - b only (R250). -/
def execScmp (a : BitVec 6) (b : BitVec 6) (σ : State) : Host.Outcome State Fault Refusal :=
  word (.scmp a b) σ fun fw D => finish fw (D.upd fun t => t.ccset (ccSub (sval D 1 a.toNat) (sval D 2 b.toNat)) 1)

/-- SPOPC: set bits (R250). -/
def execSpopc (f : Bool) (d : BitVec 6) (a : BitVec 6) (σ : State) : Host.Outcome State Fault Refusal :=
  word (.spopc f d a) σ fun fw D => salu1 fw D f d.toNat a.toNat fun x => BitVec.ofNat 64 (popN 64 x.toNat)

/-- SCLZ: leading zeros, 64 for 0 (R250). -/
def execSclz (f : Bool) (d : BitVec 6) (a : BitVec 6) (σ : State) : Host.Outcome State Fault Refusal :=
  word (.sclz f d a) σ fun fw D => salu1 fw D f d.toNat a.toNat fun x => BitVec.ofNat 64 (clzN 64 x.toNat)

/-- SCTZ: trailing zeros, 64 for 0 (R250). -/
def execSctz (f : Bool) (d : BitVec 6) (a : BitVec 6) (σ : State) : Host.Outcome State Fault Refusal :=
  word (.sctz f d a) σ fun fw D => salu1 fw D f d.toNat a.toNat fun x => BitVec.ofNat 64 (ctzN 64 x.toNat)

/-- SADDI: with the sign-extended immediate (R251). -/
def execSaddi (d : BitVec 6) (a : BitVec 6) (i : BitVec 14) (σ : State) : Host.Outcome State Fault Refusal :=
  word (.saddi d a i) σ fun fw D => saluI fw D d.toNat a.toNat fun x => x + immS D i.toNat 14

/-- SANDI: with the sign-extended immediate (R251). -/
def execSandi (d : BitVec 6) (a : BitVec 6) (i : BitVec 14) (σ : State) : Host.Outcome State Fault Refusal :=
  word (.sandi d a i) σ fun fw D => saluI fw D d.toNat a.toNat fun x => x &&& immS D i.toNat 14

/-- SORI: with the sign-extended immediate (R251). -/
def execSori (d : BitVec 6) (a : BitVec 6) (i : BitVec 14) (σ : State) : Host.Outcome State Fault Refusal :=
  word (.sori d a i) σ fun fw D => saluI fw D d.toNat a.toNat fun x => x ||| immS D i.toNat 14

/-- SXORI: with the sign-extended immediate (R251). -/
def execSxori (d : BitVec 6) (a : BitVec 6) (i : BitVec 14) (σ : State) : Host.Outcome State Fault Refusal :=
  word (.sxori d a i) σ fun fw D => saluI fw D d.toNat a.toNat fun x => x ^^^ immS D i.toNat 14

/-- SMULI: with the sign-extended immediate (R251). -/
def execSmuli (d : BitVec 6) (a : BitVec 6) (i : BitVec 14) (σ : State) : Host.Outcome State Fault Refusal :=
  word (.smuli d a i) σ fun fw D => saluI fw D d.toNat a.toNat fun x => x * immS D i.toNat 14

/-- SSHI: shift by the amount of the word (R251). -/
def execSshi (d : BitVec 6) (a : BitVec 6) (k : ShKind) (n : BitVec 6) (σ : State) : Host.Outcome State Fault Refusal :=
  word (.sshi d a k n) σ fun fw D => saluI fw D d.toNat a.toNat fun x => match k with | .shl => x <<< n.toNat | .shr => x >>> n.toNat | .sra => x.sshiftRight n.toNat

/-- SCMPI: flags of sa - imm (R251). -/
def execScmpi (a : BitVec 6) (i : BitVec 14) (σ : State) : Host.Outcome State Fault Refusal :=
  word (.scmpi a i) σ fun fw D => finish fw (D.upd fun t => t.ccset (ccSub (sval D 1 a.toNat) (immS D i.toNat 14)) 1)

/-- SLUI: the widened immediate, zero-extended; empty label (R251). -/
def execSlui (d : BitVec 6) (i : BitVec 20) (σ : State) : Host.Outcome State Fault Refusal :=
  word (.slui d i) σ fun fw D => scalarOp fw D false d.toNat 0 (immZ D i.toNat 20) {}

end Sys2Proof.Machine
end

