-- ==== Sys2Proof/Machine/VectorInt.lean ====
section
/-! DEFINITION. Vector integer arithmetic, selects, immediate and vector-scalar forms (R252, R259-R261). -/
namespace Sys2Proof.Machine

/-- A 32-bit value as a signed integer. -/
def s32 (x : Nat) : Int := (BitVec.ofNat 32 x).toInt
/-- An exact integer modulo 2^32. -/
def lo32 (x : Int) : Nat := (BitVec.ofInt 32 x).toNat
/-- The complement of a 32-bit value. -/
def not32 (x : Nat) : Nat := 4294967295 - x % 4294967296
/-- Shift right with sign fill. -/
def sra32 (x n : Nat) : Nat := ((BitVec.ofNat 32 x).sshiftRight n).toNat
/-- Bit i moved to bit 31 - i. -/
def rev32 (x : Nat) : Nat := (upFrom 0 32).foldl (fun a i => a + x / 2 ^ i % 2 * 2 ^ (31 - i)) 0
/-- Clamped to the signed 32-bit range. -/
def sat32 (x : Int) : Nat := lo32 (if x < -2147483648 then -2147483648 else if 2147483647 < x then 2147483647 else x)
/-- The immediate of a VI form (R260). -/
def viImm (d : Dev) (i : Nat) : Nat := (immS d i 7).toNat % 4294967296
/-- The zero-extended immediate of a VI form. -/
def viImmZ (d : Dev) (i : Nat) : Nat := (immZ d i 7).toNat % 4294967296
/-- A VS form (R261): fn of va and t = s[31:0], with s's label. -/
def vectorS (fw : Fw) (n : Bool) (vd lat a s : Nat) (fn : Nat → Nat → Nat) (d : Dev) : Dev :=
  vectorOp fw n vd lat [a] (sorg d 1 s) (fun _ xs => fn (nthD 0 xs 0) ((sval d 1 s).toNat % 4294967296)) d

/-- VADD: lo32(a + b) (R252). -/
def execVadd (n : Bool) (d : BitVec 7) (a : BitVec 7) (b : BitVec 7) (σ : State) : Host.Outcome State Fault Refusal :=
  word (.vadd n d a b) σ fun fw D => vector2 fw n d.toNat 2 a.toNat b.toNat (fun x y => x + y) D

/-- VSUB: lo32(a - b) (R252). -/
def execVsub (n : Bool) (d : BitVec 7) (a : BitVec 7) (b : BitVec 7) (σ : State) : Host.Outcome State Fault Refusal :=
  word (.vsub n d a b) σ fun fw D => vector2 fw n d.toNat 2 a.toNat b.toNat (fun x y => lo32 ((x : Int) - y)) D

/-- VMUL: lo32(a b) (R252). -/
def execVmul (n : Bool) (d : BitVec 7) (a : BitVec 7) (b : BitVec 7) (σ : State) : Host.Outcome State Fault Refusal :=
  word (.vmul n d a b) σ fun fw D => vector2 fw n d.toNat 3 a.toNat b.toNat (fun x y => x * y) D

/-- VMULH: bits [63:32] of the signed product (R252). -/
def execVmulh (n : Bool) (d : BitVec 7) (a : BitVec 7) (b : BitVec 7) (σ : State) : Host.Outcome State Fault Refusal :=
  word (.vmulh n d a b) σ fun fw D => vector2 fw n d.toNat 3 a.toNat b.toNat (fun x y => lo32 (s32 x * s32 y / 4294967296)) D

/-- VMULHN: bits [63:32] of the unsigned product (R252). -/
def execVmulhn (n : Bool) (d : BitVec 7) (a : BitVec 7) (b : BitVec 7) (σ : State) : Host.Outcome State Fault Refusal :=
  word (.vmulhn n d a b) σ fun fw D => vector2 fw n d.toNat 3 a.toNat b.toNat (fun x y => x * y / 4294967296) D

/-- VMAD: lo32(a b + c) (R252). -/
def execVmad (n : Bool) (d : BitVec 7) (a : BitVec 7) (b : BitVec 7) (σ : State) : Host.Outcome State Fault Refusal :=
  word (.vmad n d a b) σ fun fw D => vector3 fw n d.toNat 3 a.toNat b.toNat (fun x y z => x * y + z) D

/-- VAND: bitwise (R252). -/
def execVand (n : Bool) (d : BitVec 7) (a : BitVec 7) (b : BitVec 7) (σ : State) : Host.Outcome State Fault Refusal :=
  word (.vand n d a b) σ fun fw D => vector2 fw n d.toNat 2 a.toNat b.toNat (fun x y => x &&& y) D

/-- VOR: bitwise (R252). -/
def execVor (n : Bool) (d : BitVec 7) (a : BitVec 7) (b : BitVec 7) (σ : State) : Host.Outcome State Fault Refusal :=
  word (.vor n d a b) σ fun fw D => vector2 fw n d.toNat 2 a.toNat b.toNat (fun x y => x ||| y) D

/-- VXOR: bitwise (R252). -/
def execVxor (n : Bool) (d : BitVec 7) (a : BitVec 7) (b : BitVec 7) (σ : State) : Host.Outcome State Fault Refusal :=
  word (.vxor n d a b) σ fun fw D => vector2 fw n d.toNat 2 a.toNat b.toNat (fun x y => x ^^^ y) D

/-- VANDN: bitwise (R252). -/
def execVandn (n : Bool) (d : BitVec 7) (a : BitVec 7) (b : BitVec 7) (σ : State) : Host.Outcome State Fault Refusal :=
  word (.vandn n d a b) σ fun fw D => vector2 fw n d.toNat 2 a.toNat b.toNat (fun x y => x &&& not32 y) D

/-- VSHL: shift left by b[4:0] (R252). -/
def execVshl (n : Bool) (d : BitVec 7) (a : BitVec 7) (b : BitVec 7) (σ : State) : Host.Outcome State Fault Refusal :=
  word (.vshl n d a b) σ fun fw D => vector2 fw n d.toNat 2 a.toNat b.toNat (fun x y => x * 2 ^ (y % 32)) D

/-- VSHR: shift right, zero fill (R252). -/
def execVshr (n : Bool) (d : BitVec 7) (a : BitVec 7) (b : BitVec 7) (σ : State) : Host.Outcome State Fault Refusal :=
  word (.vshr n d a b) σ fun fw D => vector2 fw n d.toNat 2 a.toNat b.toNat (fun x y => x / 2 ^ (y % 32)) D

/-- VSRA: shift right, sign fill (R252). -/
def execVsra (n : Bool) (d : BitVec 7) (a : BitVec 7) (b : BitVec 7) (σ : State) : Host.Outcome State Fault Refusal :=
  word (.vsra n d a b) σ fun fw D => vector2 fw n d.toNat 2 a.toNat b.toNat (fun x y => sra32 x (y % 32)) D

/-- VMIN: the smaller, signed (R252). -/
def execVmin (n : Bool) (d : BitVec 7) (a : BitVec 7) (b : BitVec 7) (σ : State) : Host.Outcome State Fault Refusal :=
  word (.vmin n d a b) σ fun fw D => vector2 fw n d.toNat 2 a.toNat b.toNat (fun x y => if s32 y < s32 x then y else x) D

/-- VMAX: the larger, signed (R252). -/
def execVmax (n : Bool) (d : BitVec 7) (a : BitVec 7) (b : BitVec 7) (σ : State) : Host.Outcome State Fault Refusal :=
  word (.vmax n d a b) σ fun fw D => vector2 fw n d.toNat 2 a.toNat b.toNat (fun x y => if s32 x < s32 y then y else x) D

/-- VABS: lo32(|a|) (R252). -/
def execVabs (n : Bool) (d : BitVec 7) (a : BitVec 7) (σ : State) : Host.Outcome State Fault Refusal :=
  word (.vabs n d a) σ fun fw D => vector1 fw n d.toNat 2 a.toNat (fun x => (s32 x).natAbs) D

/-- VMINN: the smaller, unsigned (R252). -/
def execVminn (n : Bool) (d : BitVec 7) (a : BitVec 7) (b : BitVec 7) (σ : State) : Host.Outcome State Fault Refusal :=
  word (.vminn n d a b) σ fun fw D => vector2 fw n d.toNat 2 a.toNat b.toNat (fun x y => min x y) D

/-- VMAXN: the larger, unsigned (R252). -/
def execVmaxn (n : Bool) (d : BitVec 7) (a : BitVec 7) (b : BitVec 7) (σ : State) : Host.Outcome State Fault Refusal :=
  word (.vmaxn n d a b) σ fun fw D => vector2 fw n d.toNat 2 a.toNat b.toNat (fun x y => max x y) D

/-- VADDSAT: a + b, clamped (R252). -/
def execVaddsat (n : Bool) (d : BitVec 7) (a : BitVec 7) (b : BitVec 7) (σ : State) : Host.Outcome State Fault Refusal :=
  word (.vaddsat n d a b) σ fun fw D => vector2 fw n d.toNat 2 a.toNat b.toNat (fun x y => sat32 (s32 x + s32 y)) D

/-- VSUBSAT: a - b, clamped (R252). -/
def execVsubsat (n : Bool) (d : BitVec 7) (a : BitVec 7) (b : BitVec 7) (σ : State) : Host.Outcome State Fault Refusal :=
  word (.vsubsat n d a b) σ fun fw D => vector2 fw n d.toNat 2 a.toNat b.toNat (fun x y => sat32 (s32 x - s32 y)) D

/-- VPOPC: set bits (R252). -/
def execVpopc (n : Bool) (d : BitVec 7) (a : BitVec 7) (σ : State) : Host.Outcome State Fault Refusal :=
  word (.vpopc n d a) σ fun fw D => vector1 fw n d.toNat 2 a.toNat (fun x => popN 32 x) D

/-- VCLZ: leading zeros, 32 for 0 (R252). -/
def execVclz (n : Bool) (d : BitVec 7) (a : BitVec 7) (σ : State) : Host.Outcome State Fault Refusal :=
  word (.vclz n d a) σ fun fw D => vector1 fw n d.toNat 2 a.toNat (fun x => clzN 32 x) D

/-- VBREV: bits reversed (R252). -/
def execVbrev (n : Bool) (d : BitVec 7) (a : BitVec 7) (σ : State) : Host.Outcome State Fault Refusal :=
  word (.vbrev n d a) σ fun fw D => vector1 fw n d.toNat 2 a.toNat (fun x => rev32 x) D

/-- VLANE: the lane number; empty label (R252). -/
def execVlane (n : Bool) (d : BitVec 7) (σ : State) : Host.Outcome State Fault Refusal :=
  word (.vlane n d) σ fun fw D => vectorOp fw n d.toNat 2 [] 0 (fun l _ => l) D

/-- VSEL: va where ks is set, else vb; the label joins both (R259). -/
def execVsel (k : BitVec 4) (n : Bool) (d : BitVec 7) (a : BitVec 7) (b : BitVec 7) (σ : State) : Host.Outcome State Fault Refusal :=
  word (.vsel k n d a b) σ fun fw D => vectorOp fw n d.toNat 2 [a.toNat, b.toNat] 0 (fun l xs => if (kread D 1 k.toNat).getLsbD l then nthD 0 xs 0 else nthD 0 xs 1) D

/-- VADDI: (R260). -/
def execVaddi (n : Bool) (d : BitVec 7) (a : BitVec 7) (i : BitVec 7) (σ : State) : Host.Outcome State Fault Refusal :=
  word (.vaddi n d a i) σ fun fw D => vector1 fw n d.toNat 2 a.toNat (fun x => x + viImm D i.toNat) D

/-- VMULI: (R260). -/
def execVmuli (n : Bool) (d : BitVec 7) (a : BitVec 7) (i : BitVec 7) (σ : State) : Host.Outcome State Fault Refusal :=
  word (.vmuli n d a i) σ fun fw D => vector1 fw n d.toNat 3 a.toNat (fun x => x * viImm D i.toNat) D

/-- VANDI: (R260). -/
def execVandi (n : Bool) (d : BitVec 7) (a : BitVec 7) (i : BitVec 7) (σ : State) : Host.Outcome State Fault Refusal :=
  word (.vandi n d a i) σ fun fw D => vector1 fw n d.toNat 2 a.toNat (fun x => x &&& viImmZ D i.toNat) D

/-- VORI: (R260). -/
def execVori (n : Bool) (d : BitVec 7) (a : BitVec 7) (i : BitVec 7) (σ : State) : Host.Outcome State Fault Refusal :=
  word (.vori n d a i) σ fun fw D => vector1 fw n d.toNat 2 a.toNat (fun x => x ||| viImmZ D i.toNat) D

/-- VXORI: (R260). -/
def execVxori (n : Bool) (d : BitVec 7) (a : BitVec 7) (i : BitVec 7) (σ : State) : Host.Outcome State Fault Refusal :=
  word (.vxori n d a i) σ fun fw D => vector1 fw n d.toNat 2 a.toNat (fun x => x ^^^ viImmZ D i.toNat) D

/-- VSHLI: shift left by the amount of the word (R260). -/
def execVshli (n : Bool) (d : BitVec 7) (a : BitVec 7) (s : BitVec 5) (σ : State) : Host.Outcome State Fault Refusal :=
  word (.vshli n d a s) σ fun fw D => vector1 fw n d.toNat 2 a.toNat (fun x => x * 2 ^ s.toNat) D

/-- VSHRI: shift right, zero fill (R260). -/
def execVshri (n : Bool) (d : BitVec 7) (a : BitVec 7) (s : BitVec 5) (σ : State) : Host.Outcome State Fault Refusal :=
  word (.vshri n d a s) σ fun fw D => vector1 fw n d.toNat 2 a.toNat (fun x => x / 2 ^ s.toNat) D

/-- VSRAI: shift right, sign fill (R260). -/
def execVsrai (n : Bool) (d : BitVec 7) (a : BitVec 7) (s : BitVec 5) (σ : State) : Host.Outcome State Fault Refusal :=
  word (.vsrai n d a s) σ fun fw D => vector1 fw n d.toNat 2 a.toNat (fun x => sra32 x s.toNat) D

/-- VMOVI: the immediate; empty label (R260). -/
def execVmovi (n : Bool) (d : BitVec 7) (i : BitVec 7) (σ : State) : Host.Outcome State Fault Refusal :=
  word (.vmovi n d i) σ fun fw D => vectorOp fw n d.toNat 2 [] 0 (fun _ _ => viImm D i.toNat) D

/-- VMINI: (R260). -/
def execVmini (n : Bool) (d : BitVec 7) (a : BitVec 7) (i : BitVec 7) (σ : State) : Host.Outcome State Fault Refusal :=
  word (.vmini n d a i) σ fun fw D => vector1 fw n d.toNat 2 a.toNat (fun x => if s32 (viImm D i.toNat) < s32 x then viImm D i.toNat else x) D

/-- VMAXI: (R260). -/
def execVmaxi (n : Bool) (d : BitVec 7) (a : BitVec 7) (i : BitVec 7) (σ : State) : Host.Outcome State Fault Refusal :=
  word (.vmaxi n d a i) σ fun fw D => vector1 fw n d.toNat 2 a.toNat (fun x => if s32 x < s32 (viImm D i.toNat) then viImm D i.toNat else x) D

/-- VADDS: (R261). -/
def execVadds (n : Bool) (d : BitVec 7) (a : BitVec 7) (s : BitVec 6) (σ : State) : Host.Outcome State Fault Refusal :=
  word (.vadds n d a s) σ fun fw D => vectorS fw n d.toNat 2 a.toNat s.toNat (fun x t => x + t) D

/-- VSUBS: (R261). -/
def execVsubs (n : Bool) (d : BitVec 7) (a : BitVec 7) (s : BitVec 6) (σ : State) : Host.Outcome State Fault Refusal :=
  word (.vsubs n d a s) σ fun fw D => vectorS fw n d.toNat 2 a.toNat s.toNat (fun x t => lo32 ((x : Int) - t)) D

/-- VMULS: (R261). -/
def execVmuls (n : Bool) (d : BitVec 7) (a : BitVec 7) (s : BitVec 6) (σ : State) : Host.Outcome State Fault Refusal :=
  word (.vmuls n d a s) σ fun fw D => vectorS fw n d.toNat 3 a.toNat s.toNat (fun x t => x * t) D

/-- VSHLS: (R261). -/
def execVshls (n : Bool) (d : BitVec 7) (a : BitVec 7) (s : BitVec 6) (σ : State) : Host.Outcome State Fault Refusal :=
  word (.vshls n d a s) σ fun fw D => vectorS fw n d.toNat 2 a.toNat s.toNat (fun x t => x * 2 ^ (t % 32)) D

/-- VMOVS: t in every active lane (R261). -/
def execVmovs (n : Bool) (d : BitVec 7) (s : BitVec 6) (σ : State) : Host.Outcome State Fault Refusal :=
  word (.vmovs n d s) σ fun fw D => vectorOp fw n d.toNat 2 [] (sorg D 1 s.toNat) (fun _ _ => (sval D 1 s.toNat).toNat % 4294967296) D

end Sys2Proof.Machine
end

