-- ==== Sys2Proof/Machine/VectorFp.lean ====
section
/-! DEFINITION. Vector floating point, BF16 pairs, conversions and compares (R253-R258, R261). -/
namespace Sys2Proof.Machine

/-- A result of precision p after the saturate bit in force (R255). -/
def satIf (d : Dev) (p x : Nat) : Nat := if d.sat then fpSat p x else x
/-- Both BF16 halves of a pair (R43). -/
def halves (f : Nat → Nat) : Nat := f 0 % 65536 + f 1 % 65536 * 65536
/-- Half h of a pair. -/
def halfN (x h : Nat) : Nat := x / 65536 ^ h % 65536

/-- FADD: rounded once (R253). -/
def execFadd (n : Bool) (d : BitVec 7) (a : BitVec 7) (b : BitVec 7) (σ : State) : Host.Outcome State Fault Refusal :=
  word (.fadd n d a b) σ fun fw D => vector2 fw n d.toNat 4 a.toNat b.toNat (fun x y => satIf D 24 (fpAdd 24 D.rnd x y)) D

/-- FSUB: rounded once (R253). -/
def execFsub (n : Bool) (d : BitVec 7) (a : BitVec 7) (b : BitVec 7) (σ : State) : Host.Outcome State Fault Refusal :=
  word (.fsub n d a b) σ fun fw D => vector2 fw n d.toNat 4 a.toNat b.toNat (fun x y => satIf D 24 (fpSub 24 D.rnd x y)) D

/-- FMUL: rounded once (R253). -/
def execFmul (n : Bool) (d : BitVec 7) (a : BitVec 7) (b : BitVec 7) (σ : State) : Host.Outcome State Fault Refusal :=
  word (.fmul n d a b) σ fun fw D => vector2 fw n d.toNat 4 a.toNat b.toNat (fun x y => satIf D 24 (fpMul 24 D.rnd x y)) D

/-- FFMA: a b + c, one rounding (R253). -/
def execFfma (n : Bool) (d : BitVec 7) (a : BitVec 7) (b : BitVec 7) (σ : State) : Host.Outcome State Fault Refusal :=
  word (.ffma n d a b) σ fun fw D => vector3 fw n d.toNat 4 a.toNat b.toNat (fun x y z => satIf D 24 (fpFma 24 D.rnd x y z)) D

/-- FMIN: rounded once (R253). -/
def execFmin (n : Bool) (d : BitVec 7) (a : BitVec 7) (b : BitVec 7) (σ : State) : Host.Outcome State Fault Refusal :=
  word (.fmin n d a b) σ fun fw D => vector2 fw n d.toNat 4 a.toNat b.toNat (fun x y => satIf D 24 (fpMinMax 24 false x y)) D

/-- FMAX: rounded once (R253). -/
def execFmax (n : Bool) (d : BitVec 7) (a : BitVec 7) (b : BitVec 7) (σ : State) : Host.Outcome State Fault Refusal :=
  word (.fmax n d a b) σ fun fw D => vector2 fw n d.toNat 4 a.toNat b.toNat (fun x y => satIf D 24 (fpMinMax 24 true x y)) D

/-- FABS: (R253, R254). -/
def execFabs (n : Bool) (d : BitVec 7) (a : BitVec 7) (σ : State) : Host.Outcome State Fault Refusal :=
  word (.fabs n d a) σ fun fw D => vector1 fw n d.toNat 4 a.toNat (fun x => satIf D 24 (fpAbs 24 x)) D

/-- FNEG: (R253, R254). -/
def execFneg (n : Bool) (d : BitVec 7) (a : BitVec 7) (σ : State) : Host.Outcome State Fault Refusal :=
  word (.fneg n d a) σ fun fw D => vector1 fw n d.toNat 4 a.toNat (fun x => satIf D 24 (fpNegate 24 x)) D

/-- FRCP: (R253, R254). -/
def execFrcp (n : Bool) (d : BitVec 7) (a : BitVec 7) (σ : State) : Host.Outcome State Fault Refusal :=
  word (.frcp n d a) σ fun fw D => vector1 fw n d.toNat 8 a.toNat (fun x => satIf D 24 (fpRcp D.rnd x)) D

/-- FRSQ: (R253, R254). -/
def execFrsq (n : Bool) (d : BitVec 7) (a : BitVec 7) (σ : State) : Host.Outcome State Fault Refusal :=
  word (.frsq n d a) σ fun fw D => vector1 fw n d.toNat 8 a.toNat (fun x => satIf D 24 (fpRsq D.rnd x)) D

/-- FEXP2: (R253, R254). -/
def execFexp2 (n : Bool) (d : BitVec 7) (a : BitVec 7) (σ : State) : Host.Outcome State Fault Refusal :=
  word (.fexp2 n d a) σ fun fw D => vector1 fw n d.toNat 8 a.toNat (fun x => satIf D 24 (fpExp2 D.rnd x)) D

/-- FLOG2: (R253, R254). -/
def execFlog2 (n : Bool) (d : BitVec 7) (a : BitVec 7) (σ : State) : Host.Outcome State Fault Refusal :=
  word (.flog2 n d a) σ fun fw D => vector1 fw n d.toNat 8 a.toNat (fun x => satIf D 24 (fpLog2 D.rnd x)) D

/-- FFLOOR: (R253, R254). -/
def execFfloor (n : Bool) (d : BitVec 7) (a : BitVec 7) (σ : State) : Host.Outcome State Fault Refusal :=
  word (.ffloor n d a) σ fun fw D => vector1 fw n d.toNat 4 a.toNat (fun x => satIf D 24 (fpFloor x)) D

/-- FFRAC: (R253, R254). -/
def execFfrac (n : Bool) (d : BitVec 7) (a : BitVec 7) (σ : State) : Host.Outcome State Fault Refusal :=
  word (.ffrac n d a) σ fun fw D => vector1 fw n d.toNat 4 a.toNat (fun x => satIf D 24 (fpFrac D.rnd x)) D

/-- BADD2: each BF16 half, rounded once (R256). -/
def execBadd2 (n : Bool) (d : BitVec 7) (a : BitVec 7) (b : BitVec 7) (σ : State) : Host.Outcome State Fault Refusal :=
  word (.badd2 n d a b) σ fun fw D => vector2 fw n d.toNat 4 a.toNat b.toNat (fun x y => halves fun h => satIf D 8 (fpAdd 8 D.rnd (halfN x h) (halfN y h))) D

/-- BMUL2: each BF16 half, rounded once (R256). -/
def execBmul2 (n : Bool) (d : BitVec 7) (a : BitVec 7) (b : BitVec 7) (σ : State) : Host.Outcome State Fault Refusal :=
  word (.bmul2 n d a b) σ fun fw D => vector2 fw n d.toNat 4 a.toNat b.toNat (fun x y => halves fun h => satIf D 8 (fpMul 8 D.rnd (halfN x h) (halfN y h))) D

/-- BFMA2: each BF16 half, a b + c, one rounding (R256). -/
def execBfma2 (n : Bool) (d : BitVec 7) (a : BitVec 7) (b : BitVec 7) (σ : State) : Host.Outcome State Fault Refusal :=
  word (.bfma2 n d a b) σ fun fw D => vector3 fw n d.toNat 4 a.toNat b.toNat (fun x y z => halves fun h => satIf D 8 (fpFma 8 D.rnd (halfN x h) (halfN y h) (halfN z h))) D

/-- BMAX2: each BF16 half, rounded once (R256). -/
def execBmax2 (n : Bool) (d : BitVec 7) (a : BitVec 7) (b : BitVec 7) (σ : State) : Host.Outcome State Fault Refusal :=
  word (.bmax2 n d a b) σ fun fw D => vector2 fw n d.toNat 4 a.toNat b.toNat (fun x y => halves fun h => satIf D 8 (fpMinMax 8 true (halfN x h) (halfN y h))) D

/-- CVT_F32_I32: (R257, R44). -/
def execCvtF32I32 (n : Bool) (d : BitVec 7) (a : BitVec 7) (σ : State) : Host.Outcome State Fault Refusal :=
  word (.cvtF32I32 n d a) σ fun fw D => vector1 fw n d.toNat 4 a.toNat (fun x => fpOfNum D.rnd (s32 x)) D

/-- CVT_F32_N32: (R257, R44). -/
def execCvtF32N32 (n : Bool) (d : BitVec 7) (a : BitVec 7) (σ : State) : Host.Outcome State Fault Refusal :=
  word (.cvtF32N32 n d a) σ fun fw D => vector1 fw n d.toNat 4 a.toNat (fun x => fpOfNum D.rnd x) D

/-- CVT_I32_F32: (R257, R44). -/
def execCvtI32F32 (n : Bool) (d : BitVec 7) (a : BitVec 7) (σ : State) : Host.Outcome State Fault Refusal :=
  word (.cvtI32F32 n d a) σ fun fw D => vector1 fw n d.toNat 4 a.toNat (fun x => lo32 (fpToInt D.rnd (-2147483648) 2147483647 x)) D

/-- CVT_N32_F32: (R257, R44). -/
def execCvtN32F32 (n : Bool) (d : BitVec 7) (a : BitVec 7) (σ : State) : Host.Outcome State Fault Refusal :=
  word (.cvtN32F32 n d a) σ fun fw D => vector1 fw n d.toNat 4 a.toNat (fun x => lo32 (fpToInt D.rnd 0 4294967295 x)) D

/-- CVT_BF2_F32: va to [15:0], vb to [31:16] (R257). -/
def execCvtBf2F32 (n : Bool) (d : BitVec 7) (a : BitVec 7) (b : BitVec 7) (σ : State) : Host.Outcome State Fault Refusal :=
  word (.cvtBf2F32 n d a b) σ fun fw D => vector2 fw n d.toNat 4 a.toNat b.toNat (fun x y => fpToBf D.rnd x + fpToBf D.rnd y * 65536) D

/-- CVT_F32_BFL: (R257, R44). -/
def execCvtF32Bfl (n : Bool) (d : BitVec 7) (a : BitVec 7) (σ : State) : Host.Outcome State Fault Refusal :=
  word (.cvtF32Bfl n d a) σ fun fw D => vector1 fw n d.toNat 4 a.toNat (fun x => fpOfBf (x % 65536)) D

/-- CVT_F32_BFH: (R257, R44). -/
def execCvtF32Bfh (n : Bool) (d : BitVec 7) (a : BitVec 7) (σ : State) : Host.Outcome State Fault Refusal :=
  word (.cvtF32Bfh n d a) σ fun fw D => vector1 fw n d.toNat 4 a.toNat (fun x => fpOfBf (x / 65536)) D

/-- FADDS: (R261). -/
def execFadds (n : Bool) (d : BitVec 7) (a : BitVec 7) (s : BitVec 6) (σ : State) : Host.Outcome State Fault Refusal :=
  word (.fadds n d a s) σ fun fw D => vectorS fw n d.toNat 4 a.toNat s.toNat (fun x t => satIf D 24 (fpAdd 24 D.rnd x t)) D

/-- FMULS: (R261). -/
def execFmuls (n : Bool) (d : BitVec 7) (a : BitVec 7) (s : BitVec 6) (σ : State) : Host.Outcome State Fault Refusal :=
  word (.fmuls n d a s) σ fun fw D => vectorS fw n d.toNat 4 a.toNat s.toNat (fun x t => satIf D 24 (fpMul 24 D.rnd x t)) D

/-- FFMAS: a t + c, one rounding (R261). -/
def execFfmas (n : Bool) (d : BitVec 7) (a : BitVec 7) (s : BitVec 6) (σ : State) : Host.Outcome State Fault Refusal :=
  word (.ffmas n d a s) σ fun fw D => vectorOp fw n d.toNat 4 [a.toNat, d.toNat] (sorg D 1 s.toNat) (fun _ xs => satIf D 24 (fpFma 24 D.rnd (nthD 0 xs 0) ((sval D 1 s.toNat).toNat % 4294967296) (nthD 0 xs 1))) D

/-- VCMP's test (R258). -/
def vcmpTest (c : VCond) (t : CmpType) (x y : Nat) : Bool :=
  match t with
  | .i32 => match c with
    | .eq => x == y
    | .ne => x != y
    | .lt => decide (s32 x < s32 y)
    | .ge => decide (s32 y ≤ s32 x)
    | .le => decide (s32 x ≤ s32 y)
    | .gt => decide (s32 y < s32 x)
    | .lo => decide (x < y)
    | .hs => decide (y ≤ x)
    | .ls => decide (x ≤ y)
    | .hi => decide (y < x)
    | .un => false
    | .or => false
  | .f32 => match c with
    | .eq => fpEq 24 x y
    | .ne => !fpEq 24 x y
    | .lt => fpLt 24 x y
    | .ge => fpLt 24 y x || fpEq 24 x y
    | .le => fpLt 24 x y || fpEq 24 x y
    | .gt => fpLt 24 y x
    | .un => fpIsNan 24 x || fpIsNan 24 y
    | .or => !(fpIsNan 24 x || fpIsNan 24 y)
    | .lo => false
    | .hs => false
    | .ls => false
    | .hi => false

/-- VCMP: kd := the active lanes that pass the test (R258). -/
def execVcmp (c : VCond) (k : BitVec 4) (t : CmpType) (a : BitVec 7) (b : BitVec 7) (σ : State) : Host.Outcome State Fault Refusal :=
  word (.vcmp c k t a b) σ fun fw D => let m := lanesMask (D.act.filter fun l => vcmpTest c t (vread D 1 a.toNat l).val.toNat (vread D 2 b.toNat l).val.toNat); let k0 := D.k0; finishV fw k0 ((noteLatch D [a.toNat, b.toNat] D).upd fun t => t.kset k.toNat m 2)

end Sys2Proof.Machine
end

