-- ==== Sys2Proof/Machine/Dispatch.lean ====
section
/-! DEFINITION. Which meaning each instruction and event has: one arm per constructor, one call per arm. -/
namespace Sys2Proof.Machine

/-- The effect of an instruction, or of an operation without a word. -/
def exec (i : Instr) (s : State) : Host.Outcome State Fault Refusal :=
  match i with
  | .nop => Sys2Proof.Machine.execNop s
  | .dly n => Sys2Proof.Machine.execDly n s
  | .dlyEnd => Sys2Proof.Machine.execDlyEnd s
  | .br o => Sys2Proof.Machine.execBr o s
  | .bcc c o => Sys2Proof.Machine.execBcc c o s
  | .bkz k o => Sys2Proof.Machine.execBkz k o s
  | .bknz k o => Sys2Proof.Machine.execBknz k o s
  | .call o => Sys2Proof.Machine.execCall o s
  | .ret => Sys2Proof.Machine.execRet s
  | .jmpr a => Sys2Proof.Machine.execJmpr a s
  | .callr a => Sys2Proof.Machine.execCallr a s
  | .exit => Sys2Proof.Machine.execExit s
  | .teamExitComplete => Sys2Proof.Machine.execTeamExitComplete s
  | .trap c => Sys2Proof.Machine.execTrap c s
  | .brk => Sys2Proof.Machine.execBrk s
  | .reth => Sys2Proof.Machine.execReth s
  | .callg q v sv => Sys2Proof.Machine.execCallg q v sv s
  | .callRecordPost => Sys2Proof.Machine.execCallRecordPost s
  | .callgReply => Sys2Proof.Machine.execCallgReply s
  | .sadd f d a b => Sys2Proof.Machine.execSadd f d a b s
  | .ssub f d a b => Sys2Proof.Machine.execSsub f d a b s
  | .smul f d a b => Sys2Proof.Machine.execSmul f d a b s
  | .smulh f d a b => Sys2Proof.Machine.execSmulh f d a b s
  | .smulhn f d a b => Sys2Proof.Machine.execSmulhn f d a b s
  | .sand f d a b => Sys2Proof.Machine.execSand f d a b s
  | .sor f d a b => Sys2Proof.Machine.execSor f d a b s
  | .sxor f d a b => Sys2Proof.Machine.execSxor f d a b s
  | .sandn f d a b => Sys2Proof.Machine.execSandn f d a b s
  | .sshl f d a b => Sys2Proof.Machine.execSshl f d a b s
  | .sshr f d a b => Sys2Proof.Machine.execSshr f d a b s
  | .ssra f d a b => Sys2Proof.Machine.execSsra f d a b s
  | .smin f d a b => Sys2Proof.Machine.execSmin f d a b s
  | .smax f d a b => Sys2Proof.Machine.execSmax f d a b s
  | .sminn f d a b => Sys2Proof.Machine.execSminn f d a b s
  | .smaxn f d a b => Sys2Proof.Machine.execSmaxn f d a b s
  | .scmp a b => Sys2Proof.Machine.execScmp a b s
  | .spopc f d a => Sys2Proof.Machine.execSpopc f d a s
  | .sclz f d a => Sys2Proof.Machine.execSclz f d a s
  | .sctz f d a => Sys2Proof.Machine.execSctz f d a s
  | .saddi d a iv => Sys2Proof.Machine.execSaddi d a iv s
  | .sandi d a iv => Sys2Proof.Machine.execSandi d a iv s
  | .sori d a iv => Sys2Proof.Machine.execSori d a iv s
  | .sxori d a iv => Sys2Proof.Machine.execSxori d a iv s
  | .sshi d a k n => Sys2Proof.Machine.execSshi d a k n s
  | .scmpi a iv => Sys2Proof.Machine.execScmpi a iv s
  | .slui d iv => Sys2Proof.Machine.execSlui d iv s
  | .smuli d a iv => Sys2Proof.Machine.execSmuli d a iv s
  | .vadd n d a b => Sys2Proof.Machine.execVadd n d a b s
  | .vsub n d a b => Sys2Proof.Machine.execVsub n d a b s
  | .vmul n d a b => Sys2Proof.Machine.execVmul n d a b s
  | .vmulh n d a b => Sys2Proof.Machine.execVmulh n d a b s
  | .vmulhn n d a b => Sys2Proof.Machine.execVmulhn n d a b s
  | .vmad n d a b => Sys2Proof.Machine.execVmad n d a b s
  | .vand n d a b => Sys2Proof.Machine.execVand n d a b s
  | .vor n d a b => Sys2Proof.Machine.execVor n d a b s
  | .vxor n d a b => Sys2Proof.Machine.execVxor n d a b s
  | .vandn n d a b => Sys2Proof.Machine.execVandn n d a b s
  | .vshl n d a b => Sys2Proof.Machine.execVshl n d a b s
  | .vshr n d a b => Sys2Proof.Machine.execVshr n d a b s
  | .vsra n d a b => Sys2Proof.Machine.execVsra n d a b s
  | .vmin n d a b => Sys2Proof.Machine.execVmin n d a b s
  | .vmax n d a b => Sys2Proof.Machine.execVmax n d a b s
  | .vabs n d a => Sys2Proof.Machine.execVabs n d a s
  | .vminn n d a b => Sys2Proof.Machine.execVminn n d a b s
  | .vmaxn n d a b => Sys2Proof.Machine.execVmaxn n d a b s
  | .vaddsat n d a b => Sys2Proof.Machine.execVaddsat n d a b s
  | .vsubsat n d a b => Sys2Proof.Machine.execVsubsat n d a b s
  | .vpopc n d a => Sys2Proof.Machine.execVpopc n d a s
  | .vclz n d a => Sys2Proof.Machine.execVclz n d a s
  | .vlane n d => Sys2Proof.Machine.execVlane n d s
  | .vbrev n d a => Sys2Proof.Machine.execVbrev n d a s
  | .fadd n d a b => Sys2Proof.Machine.execFadd n d a b s
  | .fsub n d a b => Sys2Proof.Machine.execFsub n d a b s
  | .fmul n d a b => Sys2Proof.Machine.execFmul n d a b s
  | .ffma n d a b => Sys2Proof.Machine.execFfma n d a b s
  | .fmin n d a b => Sys2Proof.Machine.execFmin n d a b s
  | .fmax n d a b => Sys2Proof.Machine.execFmax n d a b s
  | .fabs n d a => Sys2Proof.Machine.execFabs n d a s
  | .fneg n d a => Sys2Proof.Machine.execFneg n d a s
  | .frcp n d a => Sys2Proof.Machine.execFrcp n d a s
  | .frsq n d a => Sys2Proof.Machine.execFrsq n d a s
  | .fexp2 n d a => Sys2Proof.Machine.execFexp2 n d a s
  | .flog2 n d a => Sys2Proof.Machine.execFlog2 n d a s
  | .ffloor n d a => Sys2Proof.Machine.execFfloor n d a s
  | .ffrac n d a => Sys2Proof.Machine.execFfrac n d a s
  | .badd2 n d a b => Sys2Proof.Machine.execBadd2 n d a b s
  | .bmul2 n d a b => Sys2Proof.Machine.execBmul2 n d a b s
  | .bfma2 n d a b => Sys2Proof.Machine.execBfma2 n d a b s
  | .bmax2 n d a b => Sys2Proof.Machine.execBmax2 n d a b s
  | .cvtF32I32 n d a => Sys2Proof.Machine.execCvtF32I32 n d a s
  | .cvtF32N32 n d a => Sys2Proof.Machine.execCvtF32N32 n d a s
  | .cvtI32F32 n d a => Sys2Proof.Machine.execCvtI32F32 n d a s
  | .cvtN32F32 n d a => Sys2Proof.Machine.execCvtN32F32 n d a s
  | .cvtBf2F32 n d a b => Sys2Proof.Machine.execCvtBf2F32 n d a b s
  | .cvtF32Bfl n d a => Sys2Proof.Machine.execCvtF32Bfl n d a s
  | .cvtF32Bfh n d a => Sys2Proof.Machine.execCvtF32Bfh n d a s
  | .vcmp c k t a b => Sys2Proof.Machine.execVcmp c k t a b s
  | .vsel k n d a b => Sys2Proof.Machine.execVsel k n d a b s
  | .vaddi n d a iv => Sys2Proof.Machine.execVaddi n d a iv s
  | .vmuli n d a iv => Sys2Proof.Machine.execVmuli n d a iv s
  | .vandi n d a iv => Sys2Proof.Machine.execVandi n d a iv s
  | .vori n d a iv => Sys2Proof.Machine.execVori n d a iv s
  | .vxori n d a iv => Sys2Proof.Machine.execVxori n d a iv s
  | .vshli n d a sv => Sys2Proof.Machine.execVshli n d a sv s
  | .vshri n d a sv => Sys2Proof.Machine.execVshri n d a sv s
  | .vsrai n d a sv => Sys2Proof.Machine.execVsrai n d a sv s
  | .vmovi n d iv => Sys2Proof.Machine.execVmovi n d iv s
  | .vmini n d a iv => Sys2Proof.Machine.execVmini n d a iv s
  | .vmaxi n d a iv => Sys2Proof.Machine.execVmaxi n d a iv s
  | .vadds n d a sv => Sys2Proof.Machine.execVadds n d a sv s
  | .vsubs n d a sv => Sys2Proof.Machine.execVsubs n d a sv s
  | .vmuls n d a sv => Sys2Proof.Machine.execVmuls n d a sv s
  | .fadds n d a sv => Sys2Proof.Machine.execFadds n d a sv s
  | .fmuls n d a sv => Sys2Proof.Machine.execFmuls n d a sv s
  | .ffmas n d a sv => Sys2Proof.Machine.execFfmas n d a sv s
  | .vmovs n d sv => Sys2Proof.Machine.execVmovs n d sv s
  | .vshls n d a sv => Sys2Proof.Machine.execVshls n d a sv s
  | .shfl n d a b => Sys2Proof.Machine.execShfl n d a b s
  | .shflx n d a b => Sys2Proof.Machine.execShflx n d a b s
  | .shflu n d a b => Sys2Proof.Machine.execShflu n d a b s
  | .shfld n d a b => Sys2Proof.Machine.execShfld n d a b s
  | .scani n d a => Sys2Proof.Machine.execScani n d a s
  | .scanf n d a => Sys2Proof.Machine.execScanf n d a s
  | .redi n d a => Sys2Proof.Machine.execRedi n d a s
  | .redf n d a => Sys2Proof.Machine.execRedf n d a s
  | .redmaxf n d a => Sys2Proof.Machine.execRedmaxf n d a s
  | .redminf n d a => Sys2Proof.Machine.execRedminf n d a s
  | .cnfl n d a => Sys2Proof.Machine.execCnfl n d a s
  | .kand d a b => Sys2Proof.Machine.execKand d a b s
  | .kor d a b => Sys2Proof.Machine.execKor d a b s
  | .kxor d a b => Sys2Proof.Machine.execKxor d a b s
  | .kandn d a b => Sys2Proof.Machine.execKandn d a b s
  | .knot d a => Sys2Proof.Machine.execKnot d a s
  | .kmov d a => Sys2Proof.Machine.execKmov d a s
  | .kall d => Sys2Proof.Machine.execKall d s
  | .kfirst d a => Sys2Proof.Machine.execKfirst d a s
  | .kgany d a => Sys2Proof.Machine.execKgany d a s
  | .kzero d => Sys2Proof.Machine.execKzero d s
  | .kcnt a sv => Sys2Proof.Machine.execKcnt a sv s
  | .ktos k sv w => Sys2Proof.Machine.execKtos k sv w s
  | .stok k sv w => Sys2Proof.Machine.execStok k sv w s
  | .ld q v b iv z => Sys2Proof.Machine.execLd q v b iv z s
  | .ldn q v b iv z => Sys2Proof.Machine.execLdn q v b iv z s
  | .st q v b iv z => Sys2Proof.Machine.execSt q v b iv z s
  | .stn q v b iv z => Sys2Proof.Machine.execStn q v b iv z s
  | .ldsW q d b o => Sys2Proof.Machine.execLdsW q d b o s
  | .ldsD q d b o => Sys2Proof.Machine.execLdsD q d b o s
  | .stsW q d b o => Sys2Proof.Machine.execStsW q d b o s
  | .stsD q d b o => Sys2Proof.Machine.execStsD q d b o s
  | .ldsN8 q d b o => Sys2Proof.Machine.execLdsN8 q d b o s
  | .ldsN16 q d b o => Sys2Proof.Machine.execLdsN16 q d b o s
  | .stsB8 q d b o => Sys2Proof.Machine.execStsB8 q d b o s
  | .stsH16 q d b o => Sys2Proof.Machine.execStsH16 q d b o s
  | .ldh q v h c => Sys2Proof.Machine.execLdh q v h c s
  | .sth q v h c => Sys2Proof.Machine.execSth q v h c s
  | .spadd q v h c => Sys2Proof.Machine.execSpadd q v h c s
  | .spiter q v h sv => Sys2Proof.Machine.execSpiter q v h sv s
  | .sphas q v h c => Sys2Proof.Machine.execSphas q v h c s
  | .atom q d a o e c => Sys2Proof.Machine.execAtom q d a o e c s
  | .satom q d z a o e c => Sys2Proof.Machine.execSatom q d z a o e c s
  | .wait q t => Sys2Proof.Machine.execWait q t s
  | .waita b => Sys2Proof.Machine.execWaita b s
  | .waitSatisfied => Sys2Proof.Machine.execWaitSatisfied s
  | .yield q t o => Sys2Proof.Machine.execYield q t o s
  | .yieldReactivate => Sys2Proof.Machine.execYieldReactivate s
  | .phase sv => Sys2Proof.Machine.execPhase sv s
  | .phaseReleaseDone => Sys2Proof.Machine.execPhaseReleaseDone s
  | .mwait a b z => Sys2Proof.Machine.execMwait a b z s
  | .mwaitWake => Sys2Proof.Machine.execMwaitWake s
  | .bari a b => Sys2Proof.Machine.execBari a b s
  | .bara a => Sys2Proof.Machine.execBara a s
  | .barw a => Sys2Proof.Machine.execBarw a s
  | .barwRelease => Sys2Proof.Machine.execBarwRelease s
  | .kcopy q sv h => Sys2Proof.Machine.execKcopy q sv h s
  | .kgath q sv v => Sys2Proof.Machine.execKgath q sv v s
  | .kscat q sv v => Sys2Proof.Machine.execKscat q sv v s
  | .kpos q d a => Sys2Proof.Machine.execKpos q d a s
  | .kstop q a => Sys2Proof.Machine.execKstop q a s
  | .kuduIteration => Sys2Proof.Machine.execKuduIteration s
  | .kuduCommandComplete => Sys2Proof.Machine.execKuduCommandComplete s
  | .streamResume => Sys2Proof.Machine.execStreamResume s
  | .wwr q a b c => Sys2Proof.Machine.execWwr q a b c s
  | .wsig q a b => Sys2Proof.Machine.execWsig q a b s
  | .wcnt q d a r => Sys2Proof.Machine.execWcnt q d a r s
  | .wwt a b r => Sys2Proof.Machine.execWwt a b r s
  | .wwtRelease => Sys2Proof.Machine.execWwtRelease s
  | .senderCounterAdvance => Sys2Proof.Machine.execSenderCounterAdvance s
  | .windowWriteArrival => Sys2Proof.Machine.execWindowWriteArrival s
  | .wsigArrival => Sys2Proof.Machine.execWsigArrival s
  | .mma q t a b => Sys2Proof.Machine.execMma q t a b s
  | .mmaz q t a b => Sys2Proof.Machine.execMmaz q t a b s
  | .mman q t a b => Sys2Proof.Machine.execMman q t a b s
  | .matrixOperation => Sys2Proof.Machine.execMatrixOperation s
  | .aclr q t => Sys2Proof.Machine.execAclr q t s
  | .acvt q t d f => Sys2Proof.Machine.execAcvt q t d f s
  | .abq q t d f => Sys2Proof.Machine.execAbq q t d f s
  | .ast q t a => Sys2Proof.Machine.execAst q t a s
  | .ald q t a => Sys2Proof.Machine.execAld q t a s
  | .amrg q t a => Sys2Proof.Machine.execAmrg q t a s
  | .ami q a b => Sys2Proof.Machine.execAmi q a b s
  | .aexp q t d => Sys2Proof.Machine.execAexp q t d s
  | .mergeTileApply => Sys2Proof.Machine.execMergeTileApply s
  | .bqnt d a f => Sys2Proof.Machine.execBqnt d a f s
  | .bdeq d a => Sys2Proof.Machine.execBdeq d a s
  | .bhdr d a => Sys2Proof.Machine.execBhdr d a s
  | .tapb a b c q => Sys2Proof.Machine.execTapb a b c q s
  | .fsel t a q => Sys2Proof.Machine.execFsel t a q s
  | .tapr d r sv q => Sys2Proof.Machine.execTapr d r sv q s
  | .tape a b c q => Sys2Proof.Machine.execTape a b c q s
  | .tapl a b => Sys2Proof.Machine.execTapl a b s
  | .taph d a b => Sys2Proof.Machine.execTaph d a b s
  | .fselFeed => Sys2Proof.Machine.execFselFeed s
  | .taprEvaluation => Sys2Proof.Machine.execTaprEvaluation s
  | .tapeEvaluation => Sys2Proof.Machine.execTapeEvaluation s
  | .sample d a b => Sys2Proof.Machine.execSample d a b s
  | .topk d a sv => Sys2Proof.Machine.execTopk d a sv s
  | .mergek q a b c => Sys2Proof.Machine.execMergek q a b c s
  | .mergekComplete => Sys2Proof.Machine.execMergekComplete s
  | .rngu d a b => Sys2Proof.Machine.execRngu d a b s
  | .lblget d a b => Sys2Proof.Machine.execLblget d a b s
  | .lbls d a => Sys2Proof.Machine.execLbls d a s
  | .lblt k a b => Sys2Proof.Machine.execLblt k a b s
  | .srd d n => Sys2Proof.Machine.execSrd d n s
  | .swr a n => Sys2Proof.Machine.execSwr a n s
  | .gprd d n => Sys2Proof.Machine.execGprd d n s
  | .gpwr a n => Sys2Proof.Machine.execGpwr a n s
  | .spext h a b => Sys2Proof.Machine.execSpext h a b s
  | .invl k a b => Sys2Proof.Machine.execInvl k a b s
  | .invlComplete => Sys2Proof.Machine.execInvlComplete s
  | .icinv a l => Sys2Proof.Machine.execIcinv a l s
  | .icinvComplete => Sys2Proof.Machine.execIcinvComplete s
  | .imm v => Sys2Proof.Machine.execImm v s
  | .run n => Sys2Proof.Machine.execRun n s
  | .livev g b => Sys2Proof.Machine.execLivev g b s
  | .lives c b => Sys2Proof.Machine.execLives c b s
  | .livep sv c => Sys2Proof.Machine.execLivep sv c s
  | .region => Sys2Proof.Machine.execRegion s
  | .off n => Sys2Proof.Machine.execOff n s
  | .mod p t r => Sys2Proof.Machine.execMod p t r s
  | .prio c => Sys2Proof.Machine.execPrio c s
  | .pairLinkExchange => Sys2Proof.Machine.execPairLinkExchange s
  | .loadCompletion => Sys2Proof.Machine.execLoadCompletion s
  | .storePerformed => Sys2Proof.Machine.execStorePerformed s
  | .atomicPerformed => Sys2Proof.Machine.execAtomicPerformed s
  | .arborOperation => Sys2Proof.Machine.execArborOperation s
  | .pageWalk => Sys2Proof.Machine.execPageWalk s
  | .translationFaultResolve => Sys2Proof.Machine.execTranslationFaultResolve s
  | .migrationStart => Sys2Proof.Machine.execMigrationStart s
  | .migrationEnd => Sys2Proof.Machine.execMigrationEnd s
  | .teamCreate => Sys2Proof.Machine.execTeamCreate s
  | .compaction => Sys2Proof.Machine.execCompaction s
  | .activeSetEviction => Sys2Proof.Machine.execActiveSetEviction s
  | .progressSwap => Sys2Proof.Machine.execProgressSwap s
  | .save => Sys2Proof.Machine.execSave s
  | .fullSave => Sys2Proof.Machine.execFullSave s
  | .teamRestore => Sys2Proof.Machine.execTeamRestore s
  | .trapEntry => Sys2Proof.Machine.execTrapEntry s
  | .graphReplayStart => Sys2Proof.Machine.execGraphReplayStart s
  | .kernelNodeStart => Sys2Proof.Machine.execKernelNodeStart s
  | .commitNode => Sys2Proof.Machine.execCommitNode s
  | .doorbellTailWrite => Sys2Proof.Machine.execDoorbellTailWrite s
  | .registerWrite => Sys2Proof.Machine.execRegisterWrite s
  | .hostReadBar4 => Sys2Proof.Machine.execHostReadBar4 s
  | .hostWriteBar4 => Sys2Proof.Machine.execHostWriteBar4 s
  | .launch => Sys2Proof.Machine.execLaunch s
  | .replay => Sys2Proof.Machine.execReplay s
  | .patch => Sys2Proof.Machine.execPatch s
  | .copy => Sys2Proof.Machine.execCopy s
  | .fill => Sys2Proof.Machine.execFill s
  | .signal => Sys2Proof.Machine.execSignal s
  | .waitv => Sys2Proof.Machine.execWaitv s
  | .waitvMatch => Sys2Proof.Machine.execWaitvMatch s
  | .invlPageCommand => Sys2Proof.Machine.execInvlPageCommand s
  | .invlAsidCommand => Sys2Proof.Machine.execInvlAsidCommand s
  | .invlPartitionCommand => Sys2Proof.Machine.execInvlPartitionCommand s
  | .qset => Sys2Proof.Machine.execQset s
  | .partCreate => Sys2Proof.Machine.execPartCreate s
  | .partHalt => Sys2Proof.Machine.execPartHalt s
  | .partReset => Sys2Proof.Machine.execPartReset s
  | .fmap => Sys2Proof.Machine.execFmap s
  | .origin => Sys2Proof.Machine.execOrigin s
  | .policy => Sys2Proof.Machine.execPolicy s
  | .clear => Sys2Proof.Machine.execClear s
  | .clearComplete => Sys2Proof.Machine.execClearComplete s
  | .spnew => Sys2Proof.Machine.execSpnew s
  | .graph => Sys2Proof.Machine.execGraph s
  | .windowRegister => Sys2Proof.Machine.execWindowRegister s
  | .windowDeregister => Sys2Proof.Machine.execWindowDeregister s
  | .peer => Sys2Proof.Machine.execPeer s
  | .peerBindComplete => Sys2Proof.Machine.execPeerBindComplete s
  | .samplerEnable => Sys2Proof.Machine.execSamplerEnable s
  | .samplerDisable => Sys2Proof.Machine.execSamplerDisable s
  | .samplerTick => Sys2Proof.Machine.execSamplerTick s
  | .queryPartition => Sys2Proof.Machine.execQueryPartition s
  | .queryQuote => Sys2Proof.Machine.execQueryQuote s
  | .restore => Sys2Proof.Machine.execRestore s
  | .map => Sys2Proof.Machine.execMap s
  | .fwload => Sys2Proof.Machine.execFwload s
  | .halt => Sys2Proof.Machine.execHalt s
  | .resume => Sys2Proof.Machine.execResume s
  | .dumpOneTeam => Sys2Proof.Machine.execDumpOneTeam s
  | .dumpEveryTeam => Sys2Proof.Machine.execDumpEveryTeam s
  | .dbgset => Sys2Proof.Machine.execDbgset s
  | .errlog => Sys2Proof.Machine.execErrlog s
  | .throttle => Sys2Proof.Machine.execThrottle s
  | .frzN => Sys2Proof.Machine.execFrzN s
  | .freeze => Sys2Proof.Machine.execFreeze s
  | .thaw => Sys2Proof.Machine.execThaw s
  | .debugPortAccess => Sys2Proof.Machine.execDebugPortAccess s
  | .packageReset => Sys2Proof.Machine.execPackageReset s
  | .linkDown => Sys2Proof.Machine.execLinkDown s
  | .matrixSelfTest => Sys2Proof.Machine.execMatrixSelfTest s
  | .powerControl => Sys2Proof.Machine.execPowerControl s
  | .patrolScrub => Sys2Proof.Machine.execPatrolScrub s
  | .softError => Sys2Proof.Machine.execSoftError s
  | .hostMemoryWrite => Sys2Proof.Machine.execHostMemoryWrite s
  | .partitionResetComplete => Sys2Proof.Machine.execPartitionResetComplete s

end Sys2Proof.Machine
end

