-- ==== Sys2Proof/Machine/Issue.lean ====
section
/-! DEFINITION. What a step is made of: choosing a team, fetching and running its next word, events, the passing of a cycle, and what happens
when the schedule names nothing (R13, R16, R18, R21, R147, R155-R158, R208-R211, R231, R362). -/
namespace Sys2Proof.Machine

/-- An operation without a word: an event, which only the schedule can name. -/
def Instr.isEvent (i : Instr) : Bool := (encode i).isNone

/-! ### Which teams may issue (R156-R158) -/

/-- The class of a PRIO hint. -/
def prioOf : Instr → Option Nat
  | .prio c => some c.toNat
  | _ => none

/-- The priority of a team's next position: the class of its group's PRIO hint, at the position of the group's instruction, clamped to the queue's
priority (R156). -/
def nextPrio (fw : Fw) (d : Dev) (t : Team) : Nat :=
  match t.hints.findSome? prioOf with
  | some c => if (({ d with cur := t } : Dev).group fw).isEmpty then min c t.prio else t.prio
  | none => t.prio

/-- A team's entry of the active set on core c. -/
def Team.entryOn (t : Team) (c : Nat) : Nat := (if t.core = c then t.entries.head? else (t.entries.drop 1).head?).getD 0

/-- How far a team's entry lies behind the one last chosen on its slot (R157); slot and core of its low half. -/
def turnOf (d : Dev) (t : Team) : Nat := (t.entryOn t.core + 3 - mget 3 (d.core t.core).lastEntry t.slot) % 4

/-- Order of choice among ready teams (R157): priority, then the longest wait since the last issue, then the entry that follows the last one chosen;
the model's number last, for teams outside the active set (entry 4). -/
def before (fw : Fw) (d : Dev) (a b : Team) : Bool :=
  let key := fun (t : Team) => (7 - nextPrio fw d t, 2 ^ 48 - elapsed d t.lastIssue, if t.active then turnOf d t else 0, t.key)
  let x := key a
  let y := key b
  decide (x.1 < y.1) || (x.1 == y.1 && (decide (x.2.1 < y.2.1) || (x.2.1 == y.2.1 &&
    (decide (x.2.2.1 < y.2.2.1) || (x.2.2.1 == y.2.2.1 && decide (x.2.2.2 ≤ y.2.2.2))))))

/-- A structural stall holds the team's position, as far as it knows (R19). -/
def Team.stalled (t : Team) : Bool := t.stuck.isSome && !t.retry

/-- Team u keeps t from being chosen on a slot they share (R157): it stands inside a run, or it is ready and comes first; one that a structural stall
holds keeps no other from issuing (entry 4). -/
def blocks (fw : Fw) (d : Dev) (t u : Team) : Bool :=
  u.key != t.key && (u.inRun || (!t.inRun && u.isReady fw d && !u.stalled && !(before fw d t u)))

/-- A team may issue: ready, in the active set, and its slot's choice, on both cores of a paired team (R157). -/
def mayIssue (fw : Fw) (d : Dev) (t : Team) : Bool :=
  t.isReady fw d && t.active && t.cores.all fun c => (activeSet d.teams c t.slot).all fun u => !(blocks fw d t u)

/-- The active set of a core's slot is full with four teams (R16). -/
def setFull (ts : List Team) (c slot : Nat) : Bool := decide (4 ≤ (activeSet ts c slot).length)

/-- The lowest free entry of a core's slot. -/
def freeEntry (ts : List Team) (c slot : Nat) : Nat :=
  ((upFrom 0 4).find? fun n => (activeSet ts c slot).all fun u => u.entryOn c != n).getD 0

/-- A team enters the active set, with every fixed-latency result complete (R24). -/
def activate (ts : List Team) (t : Team) : Team :=
  { t with active := true, entries := t.cores.map fun c => freeEntry ts c t.slot, haz := t.haz.filter fun h => h.op != 0 }

/-- A team that exits leaves the active set (R158). -/
def leaveOnExit (t : Team) : Team := match t.wait with | .exit _ _ => { t with active := false } | _ => t

/-- Free entries of the active sets are filled at once (R158). -/
def fillActive (fw : Fw) (d : Dev) : Dev :=
  let d0 := { d with cur := leaveOnExit d.cur, rest := d.rest.map leaveOnExit }
  let waiting := sortBy (before fw d0) (d0.teams.filter fun t => !t.active && t.isReady fw d0)
  waiting.foldl (fun d t => if t.cores.any fun c => setFull d.teams c t.slot then d else d.updTeam t.key (activate d.teams)) d0

/-! ### Co-issue (R18) -/

/-- The pipeline class of a major opcode. -/
def majorClass (m : Nat) : Nat :=
  if m ≤ 0x05 ∨ m = 0x3E then 0
  else if m ≤ 0x0F ∨ m = 0x1B then 1
  else if m ≤ 0x11 ∨ m = 0x16 ∨ m = 0x17 ∨ m = 0x18 then 2
  else if m ≤ 0x15 then 3
  else if m = 0x1A then 5
  else if m = 0x19 then 6
  else 7

/-- The pipeline class of an instruction: 0 control, 1 scalar, 2 vector integer, 3 vector FP, 4 transcendental, 5 mask, 6 cross-lane, 7 memory and
engine. -/
def pipeClass (i : Instr) : Nat :=
  match i with
  | .frcp _ _ _ => 4
  | .frsq _ _ _ => 4
  | .fexp2 _ _ _ => 4
  | .flog2 _ _ _ => 4
  | .rngu _ _ _ => 4
  | .fadds _ _ _ _ => 3
  | .fmuls _ _ _ _ => 3
  | .ffmas _ _ _ _ => 3
  | .sample _ _ _ => 6
  | .topk _ _ _ => 6
  | i => majorClass (wordOf i / 2 ^ 26)

/-- A team narrow enough to share a cycle. -/
def Team.narrow (t : Team) : Bool := decide (t.lanes ≤ 16)

/-- What a cycle in which a narrow team issues offers the others of its slot: those that might have been chosen, ready, active and narrow, in the order of
choice; a team inside a run issues alone (R157). d: before the issue. -/
def jointOf (fw : Fw) (d : Dev) (i : Instr) : Option Joint :=
  let t := d.cur
  if !t.narrow || t.inRun then none
  else some { core := t.core, slot := t.slot, cls := pipeClass i, lanes := t.lanes, time := d.time,
              keys := (sortBy (before fw d) ((activeSet d.teams t.core t.slot).filter fun u => u.key != t.key && u.narrow && u.isReady fw d && u.stuck.isNone)).map (·.key) }

/-- The acting team may join the cycle just issued, for instruction i (R18). -/
def mayJoin (fw : Fw) (d : Dev) (j : Joint) (i : Instr) : Bool :=
  let t := d.cur
  j.keys.contains t.key && t.isReady fw d && t.active && pipeClass i == j.cls && decide (t.lanes + j.lanes ≤ 32)

/-- Team key could join the cycle just issued with the word at its position. -/
def couldJoin (fw : Fw) (d : Dev) (j : Joint) (key : Nat) : Bool :=
  match d.focus key with
  | none => false
  | some d1 => match fetch fw d1 with
    | .raised _ => false
    | .word w d2 => match decodeWord w with
      | some i => mayJoin fw d2 j i
      | none => false

/-- No team that comes before it in the order of choice could still join (R157). -/
def joinsNext (fw : Fw) (d : Dev) (j : Joint) (key : Nat) : Bool := (j.keys.takeWhile (· != key)).all fun k => !(couldJoin fw d j k)

/-! ### The passing of cycles (R208, R211) -/

/-- What a word may make its team stall for, beside what its fetch meets and the refill of a taken branch (R19): the memory side, with its TLB and the
banks of the Orangery; the matrix engine. -/
def wordCauses (i : Instr) : List Nat :=
  let m := wordOf i / 2 ^ 26
  if 0x20 ≤ m ∧ m ≤ 0x27 ∨ m = 0x29 ∨ m = 0x2A ∨ m = 0x33 then [9]
  else if m = 0x30 then [7]
  else if m = 0x31 then [7, 9]
  else match i with
    | .mwait _ _ _ => [9]
    | .bari _ _ => [9]
    | .bara _ => [9]
    | .barw _ => [9]
    | .mergek _ _ _ _ => [9]
    | .spext _ _ _ => [9]
    | _ => []

/-- Passes of a step: those of its word, or as many cycles as a unit's events need (R13, R209). -/
def stepPasses (d : Dev) : Nat := d.evn.foldl (fun n p => max n (p.2 / 16 + 1)) (max 1 d.cyc)

/-- Cycles of a step: its passes and a free stall, which a word that issues has only where one of R19's causes may hold it up (entry 4). -/
def stepCycles (who : Option Nat) (d : Dev) : Nat := stepPasses d + if who.isSome && d.causes.isEmpty then 0 else Config.stall d.free

/-- Nominal cycles (R208) in which the cores of a die, which are p/1600 of a cycle ahead of the time base, run n cycles of their clock, and by how much
they are ahead then. -/
def nominalOf (fw : Fw) (d : Dev) (die n : Nat) : Nat × Nat :=
  let p := mget 0 d.phase die + 1600 * n
  (p / fw.mhz die, p % fw.mhz die)

/-- Cycles that the cores of a die run in n nominal cycles (R369), and by how much they are ahead then. -/
def coreCycles (fw : Fw) (d : Dev) (die n : Nat) : Nat × Nat :=
  let p := mget 0 d.phase die
  let m := (n * fw.mhz die + 1599 - p) / 1600
  (m, p + 1600 * m - n * fw.mhz die)

/-- Add to a counter, saturating at 48 bits (R207). -/
def satAdd (c : BitVec 48) (n : Nat) : BitVec 48 := BitVec.ofNat 48 (min (c.toNat + n) (2 ^ 48 - 1))

/-- One team's cycles: RESIDENT and exactly one of ISSUED and the stall reasons (R211). -/
def countTeam (issued : Bool) (reason n : Nat) (t : Team) : Team :=
  if issued then { t with resident := satAdd t.resident n, issued := satAdd t.issued n }
  else { t with resident := satAdd t.resident n, stall := mset 0 t.stall reason (satAdd (mget 0 t.stall reason) n) }

/-- Cycles of n that a team's delay still has (R247). -/
def delayLeft (d : Dev) (t : Team) (n : Nat) : Nat := match t.wait with | .dly since k => min n (k - elapsed d since) | _ => n

/-- A waiting team latches that its monitored location has differed (R147); one without a translation is looked for again. -/
def latchMonitor (fw : Fw) (d : Dev) (t : Team) : Team :=
  match t.wait with
  | .monitor m =>
    let x := if m.tgt.isNone then m.reseat fw d t.part else m
    let t1 := if m.tgt.isNone then { t with wait := .monitor x } else t
    if !t.met && x.differs d t.regs then { t1 with met := true } else t1
  | _ => t

/-- A WAITV latches that its condition has been met (R353). -/
def latchCmd (fw : Fw) (d : Dev) (c : Cmd) : Cmd :=
  match c.wait with
  | .waitv _ _ _ => if c.met then c else { c with met := waitvHolds fw d c == some true }
  | _ => c

/-- Partitions whose head team waits for compaction: which, and since when (R155). -/
def latchWaits (fw : Fw) (d : Dev) : SMap (Nat × Nat) :=
  match d.list with
  | [] => []
  | _ => fw.parts.filterMap fun p => match listHead d p.1 with
    | some x =>
      if !((fw.coresOf p.1).any fun c => wouldFit fw d.teams p.1 c (x.decl d)) then none
      else match mfind d.waitSince p.1 with
        | some w => some (p.1, if w.1 = x.mark d then w else (x.mark d, d.time.toNat))
        | none => some (p.1, x.mark d, d.time.toNat)
    | none => none

/-- A stretch of a team's cycles: issued (none), or the stall reason they are counted under. -/
abbrev Span : Type := Option Nat × Nat

/-- n stalled cycles, free among the causes of R19 that may hold the word up (entry 4). -/
def spread (d : Dev) : List Nat → Nat → List Span
  | [], n => if n = 0 then [] else [(some 9, n)]
  | [c], n => [(some c, n)]
  | c :: r, n => let m := Config.free d.free (2 ^ 84 + r.length) % (n + 1); (some c, m) :: spread d r (n - m)

/-- A team's n cycles of a step in which it does not issue (R211, R212). `who`: the team that does. -/
def idleSpans (fw : Fw) (d : Dev) (who : Option Nat) (n : Nat) (t : Team) : List Span :=
  let m := delayLeft d t n
  let r := reasonOf fw d who t (if t.key = d.cur.key then d.stallR else none)
  if m = n then [(some r, n)] else [(some r, m), (some (reasonOf fw d who { t with wait := .ready } none), n - m)]

/-- A team's n cycles of a step that it issues in: its passes, then the stall of its next position, for what its word or its fetch has met (R19), or, of a
team that waits from then on, for that. -/
def issueSpans (fw : Fw) (d : Dev) (n : Nat) (t : Team) : List Span :=
  let p := min n (max 1 d.cyc)
  if p = n then [(none, p)]
  else if t.wait = .ready then (none, p) :: spread d d.causes (n - p)
  else
    let early := d.causes.filter (· != 6)
    let m := if early.isEmpty then 0 else Config.free d.free (2 ^ 84 + 16) % (n - p + 1)
    (none, p) :: spread d early m ++ idleSpans fw { d with time := d.time + BitVec.ofNat 48 (p + m), stallR := none } none (n - p - m) t

/-- A team's cycles of a step: n of its die. -/
def spansOf (fw : Fw) (d : Dev) (who : Option Nat) (n : Nat) (t : Team) : List Span :=
  if who = some t.key then issueSpans fw d n t else idleSpans fw d who n t

/-- The stretch that cycle k lies in. -/
def spanAt : List Span → Nat → Option Nat
  | [], _ => none
  | [s], _ => s.1
  | s :: r, k => if k < s.2 then s.1 else spanAt r (k - s.2)

/-- A team's counters take its cycles (R211). -/
def countSpans (l : List Span) (t : Team) : Team :=
  l.foldl (fun t s => match s.1 with | none => countTeam true 0 s.2 t | some r => countTeam false r s.2 t) { t with why := (spanAt l 0).getD 3 }

/-- What a core's sampler finds in nominal cycle k of a step (R217). `spans`: the cycles of its teams, `pace` the cycles of their clock in nominal ones. -/
def foundIn (d : Dev) (who : Option Nat) (spans : Team → List Span) (pace : Nat → Nat) (c k : Nat) (s : Sampler) : Found :=
  let here := d.teams.filter fun t => t.live && t.cores.contains c
  let why := fun (t : Team) => spanAt (spans t) (pace k)
  { time := s.tick, num := s.next,
    issued := here.findSome? fun t => if who = some t.key ∧ t.slot = s.next % 4 ∧ why t = none then some (t.teamId.toNat, t.ipc.toNat) else none,
    blocked := here.filterMap fun t => (why t).map fun r => (t.teamId.toNat, t.pc.toNat, t.slot, r) }

/-- The ticks of a sampler that fall in n nominal cycles from now (R216, R217). -/
def latchTicks (find : Nat → Sampler → Found) (now n : Nat) : Nat → Sampler → Sampler
  | 0, s => s
  | f + 1, s =>
    let k := (s.tick + 2 ^ 48 - now) % 2 ^ 48
    if k < n then latchTicks find now n f { s.step s.tick with next := s.next + 1, found := s.found ++ [find k s] } else s

/-- The cycles of a step pass. `who`: the team that issued in it. -/
def passCycles (fw : Fw) (who : Option Nat) (d : Dev) : Dev :=
  let n := stepCycles who d
  let die := d.cur.core / 128
  let nominal := if who.isSome then (nominalOf fw d die n).1 else n
  let run := fun (x : Nat) => if who.isSome && x == die then (n, (nominalOf fw d die n).2) else coreCycles fw d x nominal
  let now := d.time + BitVec.ofNat 48 nominal
  let spans := fun (t : Team) => spansOf fw d who (run (t.core / 128)).1 t
  let one := fun (t : Team) =>
    if !t.live then t
    else
      let t1 := countSpans (spans t) t
      latchMonitor fw d (if t.isReady fw d then { t1 with lastReady := now.toNat } else t1)
  let sampled := fun (c : Nat × Core) =>
    if !c.2.sampler.on then c
    else
      let find := fun k s => foundIn d who spans (fun k => k * fw.mhz (c.1 / 128) / 1600) c.1 k s
      (c.1, { c.2 with sampler := latchTicks find d.time.toNat nominal (nominal / 128 + 1) c.2.sampler })
  { d with
    cur := one d.cur, rest := d.rest.map one, cores := d.cores.map sampled, cmds := d.cmds.map (latchCmd fw d), waitSince := latchWaits fw d,
    time := now, phase := mset 0 (mset 0 d.phase 0 (run 0).2) 1 (run 1).2,
    evn := [], cyc := 0, stallR := none, causes := [], stepRun := false, joint := none, free := d.free + 1 }

/-- Nominal cycles below 1.6 GHz (R370). -/
def noteBelow (n : Nat) (fw : Fw) : Fw :=
  if fw.rate.isEmpty then fw
  else { fw with below := fw.rate.foldl (fun m p => if p.2 < 1600 then mset 0 m p.1 (BitVec.ofNat 48 ((mget 0 m p.1).toNat + n)) else m) fw.below }

/-- The end of every step in which the clocks run. -/
def tick (who : Option Nat) (s : State) : State :=
  let d := passCycles s.fw who s.dev
  { s with fw := noteBelow ((d.time.toNat + 2 ^ 48 - s.dev.time.toNat) % 2 ^ 48) s.fw, dev := fillActive s.fw d }

/-- The same for an outcome. -/
def tickOutcome (who : Option Nat) : Host.Outcome State Fault Refusal → Host.Outcome State Fault Refusal
  | .next s => .next (tick who s)
  | .fault f => .fault f
  | .refused r => .refused r

/-! ### Issue (R21, R156, R231) -/

/-- The team's issue is noted: when, from where, and on its slot (R157, R218); or the structural stall that it met (R19). -/
def noteIssue (pc : Dword) (s : State) : State :=
  let d := s.dev
  match d.stallR with
  | some r => { s with dev := d.upd fun t => { t with stuck := some r, retry := false } }
  | none =>
    let last := (d.time.toNat + max 1 d.cyc - 1) % 2 ^ 48
    let t := d.cur
    let on := fun (d : Dev) (c : Nat) => { d with cores := mupd {} d.cores c fun k =>
      { k with lastEntry := mins k.lastEntry t.slot (t.entryOn c) } }
    { s with dev := t.cores.foldl on { d with cur := { t with lastIssue := last, ipc := pc, stuck := none, retry := false } } }

/-- A word that has run; j: what its cycle offers narrow teams. -/
def issued (key : Nat) (pc : Dword) (j : Option Joint) : Host.Outcome State Fault Refusal → Host.Outcome State Fault Refusal
  | .next s =>
    if s.dev.stallR.isSome then .next (tick none (noteIssue pc s))
    else let s1 := tick (some key) (noteIssue pc s)
         .next { s1 with dev := { s1.dev with joint := j.map fun x => { x with evn := s.dev.evn } } }
  | .fault f => .fault f
  | .refused r => .refused r

/-- A word begins: what it may make its team stall for is noted, and whether the team stands inside a run (R19, R157). -/
def begins (i : Instr) (d : Dev) : Dev := { d with causes := d.causes ++ wordCauses i, stepRun := d.cur.inRun }

/-- The acting team issues its next position: the word at its pc runs; a word of no instruction is illegal (R243). -/
def issueWord (s : State) : Host.Outcome State Fault Refusal :=
  match fetch s.fw s.dev with
  | .raised d => .next (tick none { s with dev := d })
  | .word w d =>
    match decodeWord w with
    | some i => issued d.cur.key d.cur.pc (jointOf s.fw d i) (exec i { s with dev := begins i d })
    | none => issued d.cur.key d.cur.pc none (.next { s with dev := trapIllegal s.fw { d with stepRun := d.cur.inRun } w 0 })

/-- Team key issues, if it may. -/
def issue (key : Nat) (s : State) : Host.Outcome State Fault Refusal :=
  match s.dev.focus key with
  | none => .next (tick none s)
  | some d => if mayIssue s.fw d d.cur then issueWord { s with dev := d } else .next (tick none { s with dev := d })

/-- The machine in the cycle that narrow teams may still join: its time, and its units' events with the place of the next team among those of its slot
(R78). -/
def inJoint (j : Joint) (d : Dev) : Dev :=
  let u := d.cur.unit
  { d with time := j.time, evn := mins j.evn u (max (mget 0 j.evn u) j.place) }

/-- The machine goes on from that cycle to time now: events beyond the cycles that have passed are those of the next ones (R209). -/
def leaveJoint (j : Joint) (now : BitVec 48) (d : Dev) : Dev :=
  let over16 := d.evn.filterMap fun p => let n := p.2 - 16 * elapsed { d with time := now } j.time.toNat; if n = 0 then none else some (p.1, n)
  { d with time := now, evn := over16, cyc := 0, stallR := none, causes := [], free := d.free + 1 }

/-- What the samplers found in a cycle holds no longer for a team that has issued in it (R217). -/
def unblock (j : Joint) (t : Team) (c : Core) : Core :=
  { c with sampler := { c.sampler with found := c.sampler.found.map fun f =>
      if f.time = j.time.toNat then { f with blocked := f.blocked.filter fun b => b.1 != t.teamId.toNat } else f } }

/-- A word that has run in a cycle another team was chosen for: the team's cycle of it, counted under another reason, counts as issued (R18, R211). -/
def joined (pc : Dword) (now : BitVec 48) (j : Joint) : Host.Outcome State Fault Refusal → Host.Outcome State Fault Refusal
  | .next s =>
    let d := s.dev
    let t := d.cur
    let back := fun (t : Team) => { t with issued := satAdd t.issued 1, stall := mset 0 t.stall t.why (mget 0 t.stall t.why - 1), ipc := pc,
                                           lastIssue := j.time.toNat, stuck := none, retry := false }
    let j1 := { j with evn := d.evn, keys := j.keys.filter (· != t.key) }
    let d1 := if d.stallR.isSome then { d with joint := some j1 }
      else { d.upd back with joint := some { j1 with lanes := j.lanes + t.lanes, place := j.place + 1 },
                             cores := mupd {} d.cores t.core (unblock j t) }
    .next { s with dev := fillActive s.fw (leaveJoint j now d1) }
  | .fault f => .fault f
  | .refused r => .refused r

/-- Team key joins the cycle just issued, if it may and comes next; a word of no instruction joins none. -/
def joinIssue (key : Nat) (s : State) : Host.Outcome State Fault Refusal :=
  match s.dev.joint, s.dev.focus key with
  | some j, some d =>
    match fetch s.fw (inJoint j d) with
    | .raised _ => .next s
    | .word w d1 => match decodeWord w with
      | some i => if mayJoin s.fw d1 j i && joinsNext s.fw d j key then joined d1.cur.pc s.dev.time j (exec i { s with dev := begins i d1 }) else .next s
      | none => .next s
  | _, _ => .next s

/-! ### Agents -/

/-- The head command of a queue, by its code. -/
def headCommand (fw : Fw) (d : Dev) (q : Nat) : Option Instr := (nextEntry fw d q).bind entryInstr

/-- What may happen while the package is frozen: a thaw, a debug access, a reset (R362). -/
def Instr.whileFrozen : Instr → Bool
  | .thaw => true
  | .debugPortAccess => true
  | .packageReset => true
  | .frzN => true
  | .freeze => true
  | _ => false

/-- Limamon takes the head entry of a queue. -/
def takeEntry (q : Nat) (s : State) : Host.Outcome State Fault Refusal :=
  match headCommand s.fw s.dev q with
  | some i => exec i { s with args := { q } }
  | none => refuseEntry q s

/-- Something has happened that may end a structural stall: the teams that met one try again. -/
def wake (s : State) : State :=
  let g := fun (t : Team) => if t.stuck.isSome then { t with retry := true } else t
  { s with dev := { s.dev with cur := g s.dev.cur, rest := s.dev.rest.map g } }

/-- The same for an outcome. -/
def wakeOutcome : Host.Outcome State Fault Refusal → Host.Outcome State Fault Refusal
  | .next s => .next (wake s)
  | .fault f => .fault f
  | .refused r => .refused r

/-- An access of a host that reaches the frozen package ends in a completion timeout (R363): no data, and nothing is written; a write of its own memory
does not reach it. -/
def frozenEvent (i : Instr) (x : EventArgs) (s : State) : Host.Outcome State Fault Refusal :=
  if Instr.whileFrozen i ∨ i = .hostMemoryWrite then exec i { s with args := x }
  else if i = .hostReadBar4 ∨ i = .hostWriteBar4 ∨ i = .registerWrite ∨ i = .doorbellTailWrite
    then .next { s with dev := { s.dev with hostData := [], aborted := true } }
  else .next s

/-- One agent moves. -/
def act (a : Act) (s : State) : Host.Outcome State Fault Refusal :=
  match a with
  | .issue key => if s.dev.frozen then .next s else issue key s
  | .join key => if s.dev.frozen then .next s else joinIssue key s
  | .event i x =>
    if s.dev.frozen then frozenEvent i x s
    else if Instr.isEvent i then wakeOutcome (tickOutcome none (exec i { s with args := x }))
    else .next (tick none s)
  | .host q =>
    if s.dev.frozen then .next s
    else wakeOutcome (tickOutcome none (takeEntry q s))

/-! ### Without a schedule (entry 2) -/

/-- Events that a team's wait may end by. -/
def waitActs (t : Team) : List Act :=
  let e := fun (i : Instr) => Act.event i { tid := t.key }
  match t.wait with
  | .ready => []
  | .token _ _ => [e .waitSatisfied]
  | .tokens _ => [e .waitSatisfied]
  | .yield _ _ _ => [e .yieldReactivate]
  | .dly _ _ => [e .dlyEnd]
  | .phase _ => [e .phaseReleaseDone]
  | .monitor _ => [e .mwaitWake]
  | .barrier _ _ => [e .barwRelease]
  | .window _ _ _ => [e .wwtRelease]
  | .invl _ => [e .invlComplete]
  | .icinv _ => [e .icinvComplete]
  | .exit _ _ => [e .teamExitComplete]
  | .trap _ => [e .trapEntry]
  | .tfault _ => [e .translationFaultResolve, .event .translationFaultResolve { tid := t.key, ok := false }]
  | .call _ => []
  | .held _ => []
  | .pair => [e .pairLinkExchange]

/-- Events by which an operation goes on. -/
def opActs (k : Nat) (o : Op) : List Act :=
  let e := fun (i : Instr) => Act.event i { tid := k, op := o.id }
  let lane := fun (i : Instr) (n : Nat) => Act.event i { tid := k, op := o.id, n }
  if o.done then []
  else match o.kind with
    | .load _ _ _ => [e .loadCompletion]
    | .store as => (as.filter fun a => !a.fin).map fun a => lane .storePerformed a.lane
    | .code as => (as.filter fun a => !a.fin).map fun a => lane .storePerformed a.lane
    | .atomic _ _ _ as => (as.filter fun a => !a.fin).map fun a => lane .atomicPerformed a.lane
    | .tapb => [e .fselFeed]
    | .arbor _ _ _ _ _ ls => e .arborOperation :: .event .translationFaultResolve { tid := k, op := o.id, ok := false } :: (ls.filter fun l => !l.done).flatMap fun l =>
        lane .arborOperation l.lane :: l.todo.map fun q => .event .arborOperation { tid := k, op := o.id, n := l.lane, q }
    | .kudu c => [e .kuduCommandComplete, e .streamResume, lane .kuduIteration c.committed, lane .kuduIteration c.spec,
        e .translationFaultResolve, .event .translationFaultResolve { tid := k, op := o.id, ok := false }]
    | .kpos _ _ => [e .kuduCommandComplete]
    | .kstop _ _ => [e .kuduCommandComplete]
    | .wwr _ => [e .senderCounterAdvance]
    | .wsig _ _ _ => [.event .wsigArrival { arrival := .outgoing k o.id }]
    | .wcnt _ _ _ => [e .loadCompletion]
    | .mma _ _ _ _ _ _ _ _ => [e .matrixOperation]
    | .acc _ _ _ _ _ => [e .matrixOperation]
    | .ami _ _ _ _ _ _ => [e .mergeTileApply]
    | .amrg _ _ _ _ _ _ => [e .mergeTileApply]
    | .fsel _ _ _ _ _ => [e .fselFeed, .event .translationFaultResolve { tid := k, op := o.id, ok := false }]
    | .tapr _ _ _ _ _ _ => [e .taprEvaluation, .event .translationFaultResolve { tid := k, op := o.id, ok := false }]
    | .tape _ _ _ _ _ => [e .tapeEvaluation, .event .translationFaultResolve { tid := k, op := o.id, ok := false }]
    | .mergek _ _ _ _ => [e .mergekComplete, .event .translationFaultResolve { tid := k, op := o.id, ok := false }]
    | .callg _ _ _ _ _ => [e .callRecordPost, e .callgReply]
    | .instant => []

/-- What Limamon and the scheduler do with a team of their own accord: a save requested of it, its compaction, the session it has still to reopen, its
eviction (R155, R158, R194, R227). -/
def teamActs (t : Team) : List Act :=
  let e := fun (i : Instr) => Act.event i { tid := t.key }
  (if t.save.isSome then [e .save, e .fullSave] else []) ++ (t.slide.map fun core => .event .compaction { core }) ++
  (if t.reopen.isSome then [e .teamRestore] else []) ++ (if t.active then [e .activeSetEviction] else [])

/-- Entries of a partition's frame table that hold no page, the first of each extent (R135). -/
def freeEntryOf (fw : Fw) (d : Dev) (p : Nat) : List Nat :=
  (fw.fmaps.filter fun x => x.1 / 64 == p).filterMap fun x =>
    (upFrom (p * 2 ^ 26 + x.2.gbase.toNat) (min x.2.count.toNat (d.frames.length + 1))).find? fun m => !(d.frame m).v

/-- Events of Limamon. -/
def firmActs (fw : Fw) (d : Dev) : List Act :=
  let places := fun (i : Instr) (p : Nat) => ((upFrom 0 256).filter fun c => fw.hasCore p c).flatMap fun core => (upFrom 0 4).map fun slot => Act.event i { part := p, core, slot }
  (d.graphs.flatMap fun g => [.event .kernelNodeStart { q := g.1 }, .event .commitNode { q := g.1 }, .event .graphReplayStart { q := g.1 }]) ++
  (d.cmds.flatMap fun c => match c.wait with
    | .waitv _ _ _ => [.event .waitvMatch { op := c.id }]
    | .invl _ => [.event .invlPageCommand { op := c.id }, .event .invlAsidCommand { op := c.id }, .event .invlPartitionCommand { op := c.id }]
    | .fmap _ _ => [.event .fmap { op := c.id }]
    | .clear n => [.event .clearComplete { q := n }]
    | .reset p => [.event .partitionResetComplete { part := p }]
    | .dump _ => [.event .dumpEveryTeam { op := c.id }]
    | .launch _ => []
    | .replay _ => []
    | .graph _ _ => []
    | .peer _ => []
    | .restore _ => []) ++
  (d.list.flatMap fun x => match x with
    | .launch _ => places .teamCreate (x.part d)
    | .restore _ => places .teamRestore (x.part d)) ++
  (d.frames.flatMap fun f => if f.2.mig = 1 then [.event .migrationEnd { q := f.1 }]
    else if f.2.mig = 2 then (freeEntryOf fw d (f.1 / 2 ^ 26)).map fun m => .event .migrationEnd { q := f.1, m } else []) ++
  ((fw.queues.filter fun q => (nextEntry fw d q.1).isSome).map fun q => .host q.1)

/-- The team that issues next when nothing is scheduled (R157): `stalled`, one that a structural stall holds. -/
def chooseTeam (fw : Fw) (d : Dev) (stalled : Bool) : Option Team :=
  (sortBy (before fw d) (d.teams.filter fun t => t.stalled == stalled && mayIssue fw d t)).head?

/-- Whether an outcome differs from the machine it came from. -/
def moved (s : State) : Host.Outcome State Fault Refusal → Bool
  | .next t => t.dev != s.dev || t.fw != s.fw
  | .fault _ => true
  | .refused _ => true

/-- Whether an act would change anything but the passing of time. -/
def effective (s : State) (a : Act) : Bool :=
  match a with
  | .issue _ => true
  | .join _ => true
  | .host q => moved s (takeEntry q s)
  | .event i x => moved s (exec i { s with args := x })

/-- Events that may happen of themselves. -/
def freeActs (fw : Fw) (d : Dev) : List Act :=
  d.teams.flatMap waitActs ++ (d.teams.flatMap fun t => t.ops.flatMap fun o => opActs t.key o) ++ d.teams.flatMap teamActs ++
  (d.outs.map fun m => Act.event .windowWriteArrival { arrival := .outgoing m.team m.op }) ++ firmActs fw d ++
  d.cores.filterMap fun c => if c.2.sampler.found.isEmpty then none else some (.event .samplerTick { core := c.1 })

/-- A list from its n-th element round. -/
def rotate {α : Type} (n : Nat) (l : List α) : List α := l.drop (n % max 1 l.length) ++ l.take (n % max 1 l.length)

/-- The agent that moves when the schedule names none: in every other step a team that may issue comes first, else an event that can happen, where the
search begins at another one each time; else a team that a structural stall held, else nobody. -/
def autopilot (s : State) : Option Act :=
  let team := (chooseTeam s.fw s.dev false).map fun t => Act.issue t.key
  let event := fun (_ : Unit) => (rotate (s.dev.free / 2) (freeActs s.fw s.dev)).find? fun a => effective s a
  match (if s.dev.free % 2 = 0 then team.orElse event else (event ()).orElse fun _ => team) with
  | some a => some a
  | none => (chooseTeam s.fw s.dev true).map fun t => .issue t.key

/-- One step of the package. -/
def stepOf (s : State) : Host.Outcome State Fault Refusal :=
  match s.sched with
  | a :: r => act a { s with sched := r }
  | [] =>
    if s.dev.frozen then .next s
    else match autopilot s with
      | some a => act a s
      | none => .next (tick none s)

end Sys2Proof.Machine
end

