-- ==== Sys2Proof/Machine/Place.lean ====
section
/-! DEFINITION. Placing an instruction where the next step fetches it (entry 7). -/
namespace Sys2Proof.Machine

/-- The team that the next step lets issue. -/
def nextIssuer (s : State) : Option Dev :=
  if s.dev.frozen then none
  else match s.sched with
    | .issue key :: _ => (s.dev.focus key).bind fun d => if mayIssue s.fw d d.cur then some d else none
    | .join _ :: _ => none
    | .event _ _ :: _ => none
    | .host _ :: _ => none
    | [] => match autopilot s with
      | some (.issue key) => s.dev.focus key
      | _ => none

/-- Where that team fetches. -/
def fetchPlace (s : State) : Option Nat :=
  (nextIssuer s).bind fun d =>
    let t := d.cur
    if inScratch t.pc || inRegWin t.pc then none
    else match (translate s.fw d t.core t.part { x := true } t.pc).1 with
      | .ok e => some (e.pa t.pc)
      | _ => none

/-- Bytes placed at a physical address: written at their home, held in no instruction cache, without errors. -/
def placeBytes (pa : Nat) (bs : List Byte) (d : Dev) : Dev :=
  let d1 := clearUnits (devSetBytes .limamon d pa bs) (pa / 8 * 8) 16
  { d1 with cores := d1.cores.map fun p => (p.1, dropIc (some ((pa + 4) / 128)) (dropIc (some (pa / 128)) p.2)) }

/-- Where the placed kernel stands: virtual page 1 of partition 0. -/
def placedEntry : Dword := 0x10000

/-- What the placed kernel declares: the widest single group, every register and tile, scratchpad, all lanes active (R8, R175). -/
def placedDecl : Decl := { entry := placedEntry, handler := placedEntry, lanes := 64, group := 32, acc := 48, vregs := 124, scratch := 4096 }

/-- The first core and slot that have the places the kernel declares, beside the resident teams (R2, R154); core 0 beyond them where none has. -/
def placedAt (ts : List Team) : Nat × Nat × List Runs :=
  ((upFrom 0 256).findSome? fun c => (upFrom 0 4).findSome? fun slot => (placeTeam ts c slot placedDecl).map fun r => (c, slot, r)).getD (0, 0, [{}])

/-- The team of the placed kernel, in its place. -/
def placedTeam (key : Nat) (at_ : Nat × Nat × List Runs) : Team :=
  { key, live := true, teamId := 0, core := at_.1, slot := at_.2.1, runs := at_.2.2, decl := placedDecl, regs := { k := [(0, allLanes 64)] },
    pc := placedEntry, restart := placedEntry, active := true, entries := [0] }

/-- A kernel of one team, launched in partition 0, with its code page mapped to the first frame of device memory. -/
def placeKernel (s : State) : State :=
  let fw := s.fw
  let d := s.dev
  let at_ := placedAt d.teams
  let others := d.teams.map fun t => if t.cores.contains at_.1 && t.slot == at_.2.1 then { t with active := false } else t
  { s with
    fw := { fw with
      parts := mupd {} fw.parts 0 fun p => { p with state := 1, pairs := p.pairs ||| BitVec.ofNat 128 (2 ^ (at_.1 / 2)) },
      fmaps := mset {} fw.fmaps 0 { perm := 15, count := 1, hbase := 0, gbase := 0 },
      anchors := mset anchorDefault fw.anchors (walkHash 0 0 1) (entLink 0) },
    dev := { d with
      frozen := false,
      frames := mset {} d.frames 0 { v := true, vpn := 1, perm := 15, ceil := BitVec.allOnes 32 },
      cores := d.cores.map fun p => (p.1, { p.2 with tlb := p.2.tlb.filter fun t => !(t.part == 0 && t.vpn == 1) }),
      cmds := d.cmds.filter fun c => (match c.wait with | .fmap e _ => decide (64 ≤ e) | _ => true),
      cur := placedTeam d.nextKey at_, rest := others, nextKey := d.nextKey + 1 },
    sched := [.issue d.nextKey] }

/-- The machine with a program's bytes where its next step fetches. -/
def placeProgram (s : State) (bs : List Byte) : State :=
  match fetchPlace s with
  | some pa => { s with dev := placeBytes pa bs s.dev }
  | none => let t := placeKernel s; { t with dev := placeBytes 0 bs t.dev }

end Sys2Proof.Machine
end

