-- ==== Sys2Proof/Machine/Step.lean ====
section
/-! DEFINITION. One step of the package, and the placing of a program for the host (entries 2 and 7). -/
namespace Sys2Proof.Machine

/-- One step: the agent that the schedule names moves (entry 2). -/
def step (s : State) : Host.Outcome State Fault Refusal := stepOf s

/-- The machine with an instruction where its next step fetches (entry 7): at the pc of the team that issues next, or, where no team is
about to issue, at the entry of a kernel of one team, launched as R175 launches it. -/
def State.withFetchWord (s : State) (nbits w : Nat) : State := placeProgram s (tableBytes nbits w)

end Sys2Proof.Machine
end

