-- ==== Sys2Proof/Safety.lean ====
section
/-! DEFINITION. What the claims are stated in: when a word runs plainly, what an instruction leaves as it was, what the rules of the manual
make of each instruction, and the invariants of the machine. -/
namespace Sys2Proof.Safety
open Sys2Proof.Machine

/-! ### Memory and registers as a claim reads them -/

/-- Memory is in its canonical form. -/
def MemoryCanonical (s : State) : Prop := Memory.wf s.dev.mem = true

/-- One byte of physical memory at its home. -/
def byteAt (s : State) (a : Nat) : Byte := memGet s.dev.mem a
/-- A scalar register of the acting team. -/
def scalar (s : State) (r : Nat) : SVal := mget {} s.dev.cur.regs.s r
/-- A lane of a vector register of the acting team. -/
def lane (s : State) (r l : Nat) : LVal := s.dev.cur.regs.lane r l
/-- A mask register of the acting team. -/
def mask (s : State) (r : Nat) : Mask := mget 0 s.dev.cur.regs.k r

/-- A pending operation without the model's own marks: of R32, and of the order in which a core's queues took it (R160). -/
def opCore (o : Op) : Op := { o with clob := [], dirty := false, seq := 0 }
/-- The same operations are pending, with what they still have to do. -/
def sameOps (a b : List Op) : Prop := a.map opCore = b.map opCore

/-! ### When a word runs plainly -/

/-- The acting team stands at a word that is legal there (its hint group and the declaration admit it, R233-R243), reads no register lane
in error (R105), single stepping is off (R221), and the team waits for nothing (R156): the word has its own effect and nothing else. -/
structure Plain (i : Instr) (s : State) : Prop where
  hints : hintsOk s.dev.cur i = true
  decl : declOk s.dev.cur i = true
  sound : s.dev.cur.badV = []
  running : stepping s.dev = false
  ready : s.dev.cur.wait = .ready

/-- A paired team has met at the exchange of this position, or the team is not paired (R20). -/
def Met (s : State) : Prop := (s.dev.cur.paired && !s.dev.cur.met) = false

/-! ### The firmware's invariant -/

/-- What holds of the firmware's tables in every run: a Lodge policy entry names at least two origins (R172), and the measurement registers
that the manual does not name read as empty (R360). -/
structure FirmwareInv (w : Fw) : Prop where
  policies : ∀ x ∈ w.policy, x.2.valid = true → 2 ≤ (originsOf x.2.set).length
  measured : ∀ n, 5 ≤ n → mget [] w.mr n = []

/-! ### Frames -/

/-- What an instruction of the acting team leaves: every scalar register but those of S, every lane of every vector register but those of
V, every mask but those of K, accumulator tiles, scratchpad, handles, graph parameters, the trap registers, every byte of memory, the
frame table but for the pins of P, the other teams, and everything of Limamon and the hosts. -/
structure Kept (s t : State) (S V K P : List Nat) : Prop where
  scalars : ∀ r, r ∉ S → scalar t r = scalar s r
  lanes : ∀ r l, l < 1024 → r ∉ V → lane t r l = lane s r l
  masks : ∀ r, r ∉ K → mask t r = mask s r
  tiles : t.dev.cur.regs.tiles = s.dev.cur.regs.tiles
  scratch : t.dev.cur.regs.scr = s.dev.cur.regs.scr
  handles : t.dev.cur.regs.hnd = s.dev.cur.regs.hnd
  params : t.dev.cur.gp = s.dev.cur.gp
  declared : t.dev.cur.decl = s.dev.cur.decl
  traps : { t.dev.cur.sp with tstat := 0 } = { s.dev.cur.sp with tstat := 0 }
  memory : ∀ a, byteAt t a = byteAt s a
  frames : t.dev.frames = (pinFrames s.dev P).frames
  others : t.dev.rest = s.dev.rest
  host : t.fw = s.fw ∧ t.dev.launches = s.dev.launches ∧ t.dev.graphs = s.dev.graphs ∧ t.dev.windows = s.dev.windows ∧ t.dev.cmds = s.dev.cmds

/-- The team stands at `pc` and waits as `w` says; no hint group stands open. -/
structure At (t : State) (pc : Dword) (w : Wait) : Prop where
  pc : t.dev.cur.pc = pc
  wait : t.dev.cur.wait = w
  hints : t.dev.cur.hints = []

/-- What a word that posts nothing leaves beside: the condition codes, TSTAT with the bits it sets, the pending operations, the sessions. -/
structure Quiet (s t : State) (cc : CC) (stat : BitVec 19) : Prop where
  codes : t.dev.cur.regs.cc = cc
  stat : t.dev.cur.sp.tstat = s.dev.cur.sp.tstat ||| stat
  pending : sameOps t.dev.cur.ops s.dev.cur.ops
  sessions : t.dev.cur.sessions = s.dev.cur.sessions

/-- LATCHLOST, when an active lane reads a latch outside a valid run (R28). -/
def lost (s : State) (srcs : List Nat) : BitVec 19 := if srcs.any (badLatch s.dev.cur) && !s.dev.act.isEmpty then 0x10000 else 0

/-- Scalar registers, vector lanes, codes, tiles, scratchpad, handles, memory and the frame table are as before. -/
structure Untouched (s t : State) : Prop where
  scalars : ∀ r, scalar t r = scalar s r
  lanes : ∀ r l, lane t r l = lane s r l
  codes : t.dev.cur.regs.cc = s.dev.cur.regs.cc
  tiles : t.dev.cur.regs.tiles = s.dev.cur.regs.tiles
  scratch : t.dev.cur.regs.scr = s.dev.cur.regs.scr
  handles : t.dev.cur.regs.hnd = s.dev.cur.regs.hnd
  memory : ∀ a, byteAt t a = byteAt s a
  frames : t.dev.frames = s.dev.frames
  others : t.dev.rest = s.dev.rest

/-- A trap has been entered (R222): the saved registers, the masks, and the pc at the handler's vector. -/
structure Trapped (s t : State) (x : TrapInfo) : Prop where
  cause : t.dev.cur.sp.tcause = x.cause
  tpc : t.dev.cur.sp.tpc = x.tpc &&& ~~~3
  info0 : t.dev.cur.sp.tinfo0 = x.ti0
  info1 : t.dev.cur.sp.tinfo1 = x.ti1
  handling : t.dev.cur.sp.handling = true
  k0 : mask t 0 = allLanes s.dev.cur.lanes
  k14 : mask t 14 = x.k14 &&& allLanes s.dev.cur.lanes
  k15 : mask t 15 = mask s 0
  masks : ∀ r, r ≠ 0 → r ≠ 14 → r ≠ 15 → mask t r = mask s r
  at_ : At t s.dev.cur.decl.handler .ready

/-- The team drains before it enters the trap (R222): it stands where it stood, its streams suspended. -/
structure Draining (s t : State) (x : TrapInfo) : Prop where
  wait : t.dev.cur.wait = .trap x
  pc : t.dev.cur.pc = s.dev.cur.pc
  special : t.dev.cur.sp = s.dev.cur.sp
  masks : ∀ r, mask t r = mask s r
  pending : t.dev.cur.ops = s.dev.cur.ops.map suspendOp

/-- Nothing of the team has to drain: every operation is finished or a stream that can be suspended. -/
def nothingToDrain (s : State) : Bool := (s.dev.cur.ops.map suspendOp).all fun o => o.done || o.parked

/-- A trap ends a team that has no handler (R175): its saved registers are written and it exits with status 1. -/
structure Ended (s t : State) (x : TrapInfo) : Prop where
  wait : t.dev.cur.wait = .exit 1 (some x)
  cause : t.dev.cur.sp.tcause = x.cause
  tpc : t.dev.cur.sp.tpc = x.tpc &&& ~~~3
  info0 : t.dev.cur.sp.tinfo0 = x.ti0
  info1 : t.dev.cur.sp.tinfo1 = x.ti1
  scalars : ∀ r, scalar t r = scalar s r
  lanes : ∀ r l, lane t r l = lane s r l
  codes : t.dev.cur.regs.cc = s.dev.cur.regs.cc
  tiles : t.dev.cur.regs.tiles = s.dev.cur.regs.tiles
  scratch : t.dev.cur.regs.scr = s.dev.cur.regs.scr
  others : t.dev.rest = s.dev.rest

/-- The team takes a trap (R222): entered at once when nothing has to drain, else after the drain. No register but the trap's own, and no byte
of memory, changes; the record of a team without a handler apart. -/
def TakesTrap (s t : State) (x : TrapInfo) : Prop :=
  if nothingToDrain s then (if s.dev.cur.decl.handler = 0 then Ended s t x else Untouched s t ∧ Trapped s t x) else Untouched s t ∧ Draining s t x

/-- The instruction raises a trap. -/
def Raises (i : Instr) (s : State) (x : TrapInfo) : Prop := ∃ t, exec i s = .next t ∧ TakesTrap s t x

/-- A trap at issue (R220): TPC is the first word of the hint group. -/
def atIssue (s : State) (cause : Byte) (k14 : Mask) (ti0 ti1 : Dword) : TrapInfo := { cause, tpc := s.dev.cur.first, k14, ti0, ti1 }

/-! ### Transfers -/

/-- A transfer: where the team goes on, whether that is a taken transfer, whether it links, whether its target comes from a register, and
whether a paired team exchanges over its link first. -/
structure TransferSpec where
  target : Dword
  taken : Bool := true
  link : Bool := false
  reg : Bool := false
  exch : Bool := false

/-- The transfers of R247-R249: relative targets count words from the instruction that holds the offset (R231). -/
def transferSpec (i : Instr) (s : State) : Option TransferSpec :=
  let pc := s.dev.cur.pc
  let rel := fun (o bits : Nat) => pc + 4 * immS s.dev o bits
  match i with
  | .nop => some { target := pc + 4, taken := false }
  | .br o => some { target := rel o.toNat 26 }
  | .bcc c o => let y := condHolds c (ccread s.dev); some { target := if y then rel o.toNat 22 else pc + 4, taken := y }
  | .bkz k o => let y := kempty s.dev 1 k.toNat; some { target := if y then rel o.toNat 21 else pc + 4, taken := y, exch := true }
  | .bknz k o => let y := !kempty s.dev 1 k.toNat; some { target := if y then rel o.toNat 21 else pc + 4, taken := y, exch := true }
  | .call o => some { target := rel o.toNat 26, link := true }
  | .ret => some { target := sval s.dev 1 62, reg := true }
  | .jmpr a => some { target := sval s.dev 1 a.toNat, reg := true }
  | .callr a => some { target := sval s.dev 1 a.toNat, reg := true, link := true }
  | _ => none

/-! ### Scalar results -/

/-- A scalar register takes a value with a label index, once the table holds the index's set; register 63 discards both (R66, R246). -/
structure PutScalar (s t : State) (d : Nat) (v : Dword) (set : OSet) : Prop where
  value : d ≠ 63 → ∃ i ls, allocLabel s.dev.cur.regs.labels set = some (i, ls) ∧ scalar t d = { val := v, lbl := i } ∧ t.dev.cur.regs.labels = ls
  discard : d = 63 → scalar t 63 = scalar s 63 ∧ t.dev.cur.regs.labels = s.dev.cur.regs.labels

/-- A scalar result: destination, value, origin set, the codes when it writes them, the bits of TSTAT it sets, and whether a paired team
exchanges over its link first (R20). -/
structure ScalarSpec where
  d : Nat
  val : Dword
  set : OSet
  codes : Option CC := none
  stat : BitVec 19 := 0
  link : Bool := false

/-- Z and N of a result, C and V as given (R67). -/
def codesOf (r : Dword) (c v : Bool) : CC := { z := decide (r = 0), n := r.getLsbD 63, c, v }

/-- What the scalar operations compute (R250, R251), from the values that their source fields read. -/
def scalarSpec (i : Instr) (s : State) : Option ScalarSpec :=
  let x := fun (a : BitVec 6) => sval s.dev 1 a.toNat
  let y := fun (b : BitVec 6) => sval s.dev 2 b.toNat
  let one := fun (f : Bool) (d a : BitVec 6) (r : Dword) =>
    some ({ d := d.toNat, val := r, set := sorg s.dev 1 a.toNat, codes := if f then some (codesOf r false false) else none } : ScalarSpec)
  let two := fun (f : Bool) (d a b : BitVec 6) (r : Dword) (c v : Bool) =>
    some ({ d := d.toNat, val := r, set := sorg s.dev 1 a.toNat ||| sorg s.dev 2 b.toNat, codes := if f then some (codesOf r c v) else none } : ScalarSpec)
  let imm := fun (d a : BitVec 6) (r : Dword) => some ({ d := d.toNat, val := r, set := sorg s.dev 1 a.toNat } : ScalarSpec)
  match i with
  | .sadd f d a b => two f d a b (x a + y b) (decide (2 ^ 64 ≤ (x a).toNat + (y b).toNat)) (decide ((x a + y b).toInt ≠ (x a).toInt + (y b).toInt))
  | .ssub f d a b => two f d a b (x a - y b) (decide ((y b).toNat ≤ (x a).toNat)) (decide ((x a - y b).toInt ≠ (x a).toInt - (y b).toInt))
  | .smul f d a b => two f d a b (x a * y b) false (decide ((x a * y b).toInt ≠ (x a).toInt * (y b).toInt))
  | .smulh f d a b => two f d a b (BitVec.ofInt 64 ((x a).toInt * (y b).toInt / 2 ^ 64)) false false
  | .smulhn f d a b => two f d a b (BitVec.ofNat 64 ((x a).toNat * (y b).toNat / 2 ^ 64)) false false
  | .sand f d a b => two f d a b (x a &&& y b) false false
  | .sor f d a b => two f d a b (x a ||| y b) false false
  | .sxor f d a b => two f d a b (x a ^^^ y b) false false
  | .sandn f d a b => two f d a b (x a &&& ~~~y b) false false
  | .sshl f d a b => two f d a b (BitVec.ofNat 64 ((x a).toNat * 2 ^ ((y b).toNat % 64))) false false
  | .sshr f d a b => two f d a b (BitVec.ofNat 64 ((x a).toNat / 2 ^ ((y b).toNat % 64))) false false
  | .ssra f d a b => two f d a b (BitVec.ofInt 64 ((x a).toInt / 2 ^ ((y b).toNat % 64))) false false
  | .smin f d a b => two f d a b (BitVec.ofInt 64 (min (x a).toInt (y b).toInt)) false false
  | .smax f d a b => two f d a b (BitVec.ofInt 64 (max (x a).toInt (y b).toInt)) false false
  | .sminn f d a b => two f d a b (BitVec.ofNat 64 (min (x a).toNat (y b).toNat)) false false
  | .smaxn f d a b => two f d a b (BitVec.ofNat 64 (max (x a).toNat (y b).toNat)) false false
  | .spopc f d a => one f d a (BitVec.ofNat 64 ((List.range 64).filter fun k => (x a).getLsbD k).length)
  | .sclz f d a => one f d a (BitVec.ofNat 64 ((List.range 64).takeWhile fun k => !(x a).getLsbD (63 - k)).length)
  | .sctz f d a => one f d a (BitVec.ofNat 64 ((List.range 64).takeWhile fun k => !(x a).getLsbD k).length)
  | .saddi d a n => imm d a (x a + immS s.dev n.toNat 14)
  | .sandi d a n => imm d a (x a &&& immS s.dev n.toNat 14)
  | .sori d a n => imm d a (x a ||| immS s.dev n.toNat 14)
  | .sxori d a n => imm d a (x a ^^^ immS s.dev n.toNat 14)
  | .smuli d a n => imm d a (x a * immS s.dev n.toNat 14)
  | .sshi d a .shl n => imm d a (BitVec.ofNat 64 ((x a).toNat * 2 ^ n.toNat))
  | .sshi d a .shr n => imm d a (BitVec.ofNat 64 ((x a).toNat / 2 ^ n.toNat))
  | .sshi d a .sra n => imm d a (BitVec.ofInt 64 ((x a).toInt / 2 ^ n.toNat))
  | .slui d n => some { d := d.toNat, val := immZ s.dev n.toNat 20, set := 0 }
  | _ => none

/-- The flags of a compare (R250, R251): those of the subtraction. -/
def compareSpec (i : Instr) (s : State) : Option CC :=
  let flags := fun (x y : Dword) => codesOf (x - y) (decide (y.toNat ≤ x.toNat)) (decide ((x - y).toInt ≠ x.toInt - y.toInt))
  match i with
  | .scmp a b => some (flags (sval s.dev 1 a.toNat) (sval s.dev 2 b.toNat))
  | .scmpi a n => some (flags (sval s.dev 1 a.toNat) (immS s.dev n.toNat 14))
  | _ => none

/-- Scalars read out of masks, labels, special registers and graph parameters (R264, R265, R317-R319, R77). A special register that
the numbers of R77 do not name, or a parameter outside a replay, gives nothing here. -/
def readSpec (i : Instr) (s : State) : Option ScalarSpec :=
  let t := s.dev.cur
  match i with
  | .kcnt a d => some { d := d.toNat, val := BitVec.ofNat 64 ((List.range t.lanes).filter fun l => (kread s.dev 1 a.toNat).getLsbD l).length, set := 0, link := true }
  | .ktos k d w => some { d := d.toNat, val := ((kread s.dev 1 k.toNat).extractLsb' (32 * w.toNat) 32).setWidth 64, set := 0, link := true }
  | .lblget d a b =>
    let l := (sval s.dev 2 b.toNat).toNat % 2 ^ 32
    some { d := d.toNat, val := if l < t.lanes then (t.org (vread s.dev 1 a.toNat l).lbl).setWidth 64 else 0, set := 0, link := true,
           stat := if l < t.lanes && badLatch t a.toNat then 0x10000 else 0 }
  | .lbls d a => some { d := d.toNat, val := (sorg s.dev 1 a.toNat).setWidth 64, set := 0 }
  | .srd d n =>
    if 0x40 ≤ n.toNat ∧ n.toNat < 0x80 then
      let h := handleAt s.dev ((n.toNat - 0x40) / 8)
      some { d := d.toNat, val := mget 0 h.words (n.toNat % 8), set := h.lbl }
    else (specialValue s.fw s.dev n.toNat).map fun x => { d := d.toNat, val := x.1, set := 0 }
  | .gprd d n => t.gp.map fun g => { d := d.toNat, val := mget 0 g.1 n.toNat, set := mget 0 g.2 n.toNat }
  | _ => none

/-! ### Vector results -/

/-- A vector result (R245): destination, the N bit, latency, the fields read in their order, and for each lane its value and origin set. -/
structure VectorSpec where
  d : Nat
  n : Bool
  lat : Nat
  srcs : List Nat
  val : Nat → Word
  set : Nat → OSet

/-- The active lanes with the origin sets their results need. -/
def VectorSpec.needs (x : VectorSpec) (s : State) : List (Nat × OSet) := s.dev.act.map fun l => (l, x.set l)

/-- The lanes' label indexes, allocated in ascending lane order (R75); the labels then in the table; the lanes that found no entry. -/
def VectorSpec.indexes (x : VectorSpec) (s : State) : List (Nat × Lbl) := (allocLanes s.dev.cur.regs.labels (x.needs s)).1
def VectorSpec.labels (x : VectorSpec) (s : State) : SMap OSet := (allocLanes s.dev.cur.regs.labels (x.needs s)).2.1
def VectorSpec.full (x : VectorSpec) (s : State) : List Nat := (allocLanes s.dev.cur.regs.labels (x.needs s)).2.2.1
def VectorSpec.fullSet (x : VectorSpec) (s : State) : OSet := (allocLanes s.dev.cur.regs.labels (x.needs s)).2.2.2

/-- Every active lane takes its value with a label index, allocated in ascending lane order (R75, R245); with the N bit, or for vz, no
register changes; the result enters the latches (R26). -/
structure PutVector (s t : State) (x : VectorSpec) (ix : List (Nat × Lbl)) : Prop where
  value : x.n = false → x.d ≠ 127 → ∀ l i, (l, i) ∈ ix → lane t x.d l = { val := x.val l, lbl := i }
  idle : ∀ l, l ∉ s.dev.act → lane t x.d l = lane s x.d l
  dropped : x.n = true ∨ x.d = 127 → ∀ l, lane t x.d l = lane s x.d l
  lanes : ix.map (·.1) = s.dev.act
  latch : ∃ b, t.dev.cur.regs.latches = b :: s.dev.cur.regs.latches ∧ b.ready = s.dev.cur.pos + x.lat ∧
    b.run = (if s.dev.cur.runOpen && decide (s.dev.cur.pos ≤ s.dev.cur.runEnd) then s.dev.cur.runId else 0) ∧
    ∀ l i, (l, i) ∈ ix → mget {} b.lanes l = { val := x.val l, lbl := i }

/-- A vector instruction completes with its result: the registers, the latches, the labels, and nothing else (R245). -/
def GivesVector (i : Instr) (s : State) (x : VectorSpec) : Prop :=
  i.wf = true → Plain i s → x.full s = [] →
    ∃ t, exec i s = .next t ∧ PutVector s t x (x.indexes s) ∧ t.dev.cur.regs.labels = x.labels s ∧ At t (s.dev.cur.pc + 4) .ready ∧
      Kept s t [] [x.d] [] [] ∧ Quiet s t s.dev.cur.regs.cc (lost s x.srcs)

/-- The integer operations on vector registers (R252, R259). -/
def vectorSpec (i : Instr) (s : State) : Option VectorSpec :=
  let x := fun (a : BitVec 7) (l : Nat) => (vread s.dev 1 a.toNat l).val
  let y := fun (b : BitVec 7) (l : Nat) => (vread s.dev 2 b.toNat l).val
  let z := fun (c : BitVec 7) (l : Nat) => (vread s.dev 3 c.toNat l).val
  let one := fun (n : Bool) (d a : BitVec 7) (f : Word → Word) =>
    some ({ d := d.toNat, n, lat := 2, srcs := [a.toNat], val := fun l => f (x a l), set := fun l => srcLabel s.dev [a.toNat] l } : VectorSpec)
  let two := fun (n : Bool) (d a b : BitVec 7) (lat : Nat) (f : Word → Word → Word) =>
    some ({ d := d.toNat, n, lat, srcs := [a.toNat, b.toNat], val := fun l => f (x a l) (y b l), set := fun l => srcLabel s.dev [a.toNat, b.toNat] l } : VectorSpec)
  match i with
  | .vadd n d a b => two n d a b 2 fun p q => p + q
  | .vsub n d a b => two n d a b 2 fun p q => p - q
  | .vmul n d a b => two n d a b 3 fun p q => p * q
  | .vmulh n d a b => two n d a b 3 fun p q => BitVec.ofInt 32 (p.toInt * q.toInt / 2 ^ 32)
  | .vmulhn n d a b => two n d a b 3 fun p q => BitVec.ofNat 32 (p.toNat * q.toNat / 2 ^ 32)
  | .vmad n d a b => some { d := d.toNat, n, lat := 3, srcs := [a.toNat, b.toNat, d.toNat], val := fun l => x a l * y b l + z d l,
                            set := fun l => srcLabel s.dev [a.toNat, b.toNat, d.toNat] l }
  | .vand n d a b => two n d a b 2 fun p q => p &&& q
  | .vor n d a b => two n d a b 2 fun p q => p ||| q
  | .vxor n d a b => two n d a b 2 fun p q => p ^^^ q
  | .vandn n d a b => two n d a b 2 fun p q => p &&& ~~~q
  | .vshl n d a b => two n d a b 2 fun p q => p <<< (q.toNat % 32)
  | .vshr n d a b => two n d a b 2 fun p q => p >>> (q.toNat % 32)
  | .vsra n d a b => two n d a b 2 fun p q => BitVec.ofInt 32 (p.toInt / 2 ^ (q.toNat % 32))
  | .vmin n d a b => two n d a b 2 fun p q => BitVec.ofInt 32 (min p.toInt q.toInt)
  | .vmax n d a b => two n d a b 2 fun p q => BitVec.ofInt 32 (max p.toInt q.toInt)
  | .vminn n d a b => two n d a b 2 fun p q => BitVec.ofNat 32 (min p.toNat q.toNat)
  | .vmaxn n d a b => two n d a b 2 fun p q => BitVec.ofNat 32 (max p.toNat q.toNat)
  | .vaddsat n d a b => two n d a b 2 fun p q => BitVec.ofInt 32 (max (-2 ^ 31) (min (2 ^ 31 - 1) (p.toInt + q.toInt)))
  | .vsubsat n d a b => two n d a b 2 fun p q => BitVec.ofInt 32 (max (-2 ^ 31) (min (2 ^ 31 - 1) (p.toInt - q.toInt)))
  | .vabs n d a => one n d a fun p => if p.toInt < 0 then -p else p
  | .vpopc n d a => one n d a fun p => BitVec.ofNat 32 ((List.range 32).filter fun k => p.getLsbD k).length
  | .vclz n d a => one n d a fun p => BitVec.ofNat 32 ((List.range 32).takeWhile fun k => !p.getLsbD (31 - k)).length
  | .vbrev n d a => one n d a fun p => p.reverse
  | .vlane n d => some { d := d.toNat, n, lat := 2, srcs := [], val := fun l => BitVec.ofNat 32 l, set := fun _ => 0 }
  | .vsel k n d a b => some { d := d.toNat, n, lat := 2, srcs := [a.toNat, b.toNat], val := fun l => if (kread s.dev 1 k.toNat).getLsbD l then x a l else y b l,
                              set := fun l => srcLabel s.dev [a.toNat, b.toNat] l }
  | _ => none

/-- The forms with an immediate and with a scalar (R260, R261). -/
def vectorImmSpec (i : Instr) (s : State) : Option VectorSpec :=
  let x := fun (a : BitVec 7) (l : Nat) => (vread s.dev 1 a.toNat l).val
  let sx := fun (m : BitVec 7) => (immS s.dev m.toNat 7).setWidth 32
  let zx := fun (m : BitVec 7) => (immZ s.dev m.toNat 7).setWidth 32
  let one := fun (n : Bool) (d a : BitVec 7) (lat : Nat) (f : Word → Word) =>
    some ({ d := d.toNat, n, lat, srcs := [a.toNat], val := fun l => f (x a l), set := fun l => srcLabel s.dev [a.toNat] l } : VectorSpec)
  let t := fun (r : BitVec 6) => (sval s.dev 1 r.toNat).setWidth 32
  let vs := fun (n : Bool) (d a : BitVec 7) (r : BitVec 6) (lat : Nat) (f : Word → Word → Word) =>
    some ({ d := d.toNat, n, lat, srcs := [a.toNat], val := fun l => f (x a l) (t r), set := fun l => srcLabel s.dev [a.toNat] l ||| sorg s.dev 1 r.toNat } : VectorSpec)
  let fp := fun (v : Nat) => BitVec.ofNat 32 (satIf s.dev 24 v)
  match i with
  | .vaddi n d a m => one n d a 2 fun p => p + sx m
  | .vmuli n d a m => one n d a 3 fun p => p * sx m
  | .vandi n d a m => one n d a 2 fun p => p &&& zx m
  | .vori n d a m => one n d a 2 fun p => p ||| zx m
  | .vxori n d a m => one n d a 2 fun p => p ^^^ zx m
  | .vshli n d a k => one n d a 2 fun p => p <<< k.toNat
  | .vshri n d a k => one n d a 2 fun p => p >>> k.toNat
  | .vsrai n d a k => one n d a 2 fun p => BitVec.ofInt 32 (p.toInt / 2 ^ k.toNat)
  | .vmini n d a m => one n d a 2 fun p => BitVec.ofInt 32 (min p.toInt (sx m).toInt)
  | .vmaxi n d a m => one n d a 2 fun p => BitVec.ofInt 32 (max p.toInt (sx m).toInt)
  | .vmovi n d m => some { d := d.toNat, n, lat := 2, srcs := [], val := fun _ => sx m, set := fun _ => 0 }
  | .vadds n d a r => vs n d a r 2 fun p q => p + q
  | .vsubs n d a r => vs n d a r 2 fun p q => p - q
  | .vmuls n d a r => vs n d a r 3 fun p q => p * q
  | .vshls n d a r => vs n d a r 2 fun p q => p <<< (q.toNat % 32)
  | .vmovs n d r => some { d := d.toNat, n, lat := 2, srcs := [], val := fun _ => t r, set := fun _ => sorg s.dev 1 r.toNat }
  | .fadds n d a r => vs n d a r 4 fun p q => fp (fpAdd 24 s.dev.rnd p.toNat q.toNat)
  | .fmuls n d a r => vs n d a r 4 fun p q => fp (fpMul 24 s.dev.rnd p.toNat q.toNat)
  | .ffmas n d a r => some { d := d.toNat, n, lat := 4, srcs := [a.toNat, d.toNat],
                             val := fun l => fp (fpFma 24 s.dev.rnd (x a l).toNat (t r).toNat (vread s.dev 2 d.toNat l).val.toNat),
                             set := fun l => srcLabel s.dev [a.toNat, d.toNat] l ||| sorg s.dev 1 r.toNat }
  | _ => none

/-- A BF16 half. -/
def half (w : Word) (h : Nat) : Nat := (w.extractLsb' (16 * h) 16).toNat

/-- Floating point on vector registers, BF16 pairs and conversions (R253-R257): each result is rounded once, then saturated where the
hint group says so (R255). -/
def vectorFpSpec (i : Instr) (s : State) : Option VectorSpec :=
  let x := fun (a : BitVec 7) (l : Nat) => (vread s.dev 1 a.toNat l).val
  let y := fun (b : BitVec 7) (l : Nat) => (vread s.dev 2 b.toNat l).val
  let r := s.dev.rnd
  let w := fun (v : Nat) => BitVec.ofNat 32 v
  let fp := fun (v : Nat) => w (satIf s.dev 24 v)
  let bf := fun (f : Nat → Nat) => BitVec.ofNat 16 (satIf s.dev 8 (f 1)) ++ BitVec.ofNat 16 (satIf s.dev 8 (f 0))
  let one := fun (n : Bool) (d a : BitVec 7) (lat : Nat) (f : Nat → Word) =>
    some ({ d := d.toNat, n, lat, srcs := [a.toNat], val := fun l => f (x a l).toNat, set := fun l => srcLabel s.dev [a.toNat] l } : VectorSpec)
  let two := fun (n : Bool) (d a b : BitVec 7) (f : Word → Word → Word) =>
    some ({ d := d.toNat, n, lat := 4, srcs := [a.toNat, b.toNat], val := fun l => f (x a l) (y b l), set := fun l => srcLabel s.dev [a.toNat, b.toNat] l } : VectorSpec)
  let three := fun (n : Bool) (d a b : BitVec 7) (f : Word → Word → Word → Word) =>
    some ({ d := d.toNat, n, lat := 4, srcs := [a.toNat, b.toNat, d.toNat], val := fun l => f (x a l) (y b l) (vread s.dev 3 d.toNat l).val,
            set := fun l => srcLabel s.dev [a.toNat, b.toNat, d.toNat] l } : VectorSpec)
  match i with
  | .fadd n d a b => two n d a b fun p q => fp (fpAdd 24 r p.toNat q.toNat)
  | .fsub n d a b => two n d a b fun p q => fp (fpSub 24 r p.toNat q.toNat)
  | .fmul n d a b => two n d a b fun p q => fp (fpMul 24 r p.toNat q.toNat)
  | .ffma n d a b => three n d a b fun p q c => fp (fpFma 24 r p.toNat q.toNat c.toNat)
  | .fmin n d a b => two n d a b fun p q => fp (fpMinMax 24 false p.toNat q.toNat)
  | .fmax n d a b => two n d a b fun p q => fp (fpMinMax 24 true p.toNat q.toNat)
  | .fabs n d a => one n d a 4 fun p => fp (fpAbs 24 p)
  | .fneg n d a => one n d a 4 fun p => fp (fpNegate 24 p)
  | .frcp n d a => one n d a 8 fun p => fp (fpRcp r p)
  | .frsq n d a => one n d a 8 fun p => fp (fpRsq r p)
  | .fexp2 n d a => one n d a 8 fun p => fp (fpExp2 r p)
  | .flog2 n d a => one n d a 8 fun p => fp (fpLog2 r p)
  | .ffloor n d a => one n d a 4 fun p => fp (fpFloor p)
  | .ffrac n d a => one n d a 4 fun p => fp (fpFrac r p)
  | .badd2 n d a b => two n d a b fun p q => bf fun h => fpAdd 8 r (half p h) (half q h)
  | .bmul2 n d a b => two n d a b fun p q => bf fun h => fpMul 8 r (half p h) (half q h)
  | .bfma2 n d a b => three n d a b fun p q c => bf fun h => fpFma 8 r (half p h) (half q h) (half c h)
  | .bmax2 n d a b => two n d a b fun p q => bf fun h => fpMinMax 8 true (half p h) (half q h)
  | .cvtF32I32 n d a => one n d a 4 fun p => w (fpOfNum r (BitVec.ofNat 32 p).toInt)
  | .cvtF32N32 n d a => one n d a 4 fun p => w (fpOfNum r p)
  | .cvtI32F32 n d a => one n d a 4 fun p => BitVec.ofInt 32 (fpToInt r (-2 ^ 31) (2 ^ 31 - 1) p)
  | .cvtN32F32 n d a => one n d a 4 fun p => BitVec.ofInt 32 (fpToInt r 0 (2 ^ 32 - 1) p)
  | .cvtBf2F32 n d a b => two n d a b fun p q => BitVec.ofNat 16 (fpToBf r q.toNat) ++ BitVec.ofNat 16 (fpToBf r p.toNat)
  | .cvtF32Bfl n d a => one n d a 4 fun p => w (fpOfBf (half (w p) 0))
  | .cvtF32Bfh n d a => one n d a 4 fun p => w (fpOfBf (half (w p) 1))
  | _ => none

/-- Cross-lane operations within groups of W lanes (R266-R269, R63). -/
def crossSpec (i : Instr) (s : State) : Option VectorSpec :=
  let g := s.dev.cur.decl.group
  let on := fun (l : Nat) => s.dev.k0.getLsbD l
  let shuf := fun (n : Bool) (d a b : BitVec 7) (src : Nat → Nat → Nat) =>
    some ({ d := d.toNat, n, lat := 4, srcs := [a.toNat, b.toNat], val := fun l => (vread s.dev 1 a.toNat (src l (vread s.dev 2 b.toNat l).val.toNat)).val,
            set := fun l => s.dev.cur.org (vread s.dev 1 a.toNat (src l (vread s.dev 2 b.toNat l).val.toNat)).lbl |||
              s.dev.cur.org (vread s.dev 2 b.toNat l).lbl } : VectorSpec)
  let prefixes := fun (a : BitVec 7) (ident : Nat) (op : Nat → Nat → Nat) (l : Nat) =>
    ksScan op ((groupLanes g l).map fun k => if on k then (vread s.dev 1 a.toNat k).val.toNat else ident)
  let scan := fun (n : Bool) (d a : BitVec 7) (ident : Nat) (op : Nat → Nat → Nat) (out : Nat → Nat) =>
    some ({ d := d.toNat, n, lat := scanLat g, srcs := [a.toNat], val := fun l => BitVec.ofNat 32 (nthD 0 ((prefixes a ident op l).map out) (l % g)),
            set := fun l => groupLabel s.dev 1 a.toNat l fun k => decide (k ≤ l) } : VectorSpec)
  let reduce := fun (n : Bool) (d a : BitVec 7) (ident : Nat) (op : Nat → Nat → Nat) =>
    some ({ d := d.toNat, n, lat := scanLat g, srcs := [a.toNat], val := fun l => BitVec.ofNat 32 (nthD 0 (prefixes a ident op l) (g - 1)),
            set := fun l => groupLabel s.dev 1 a.toNat l fun _ => true } : VectorSpec)
  match i with
  | .shfl n d a b => shuf n d a b fun l v => g * (l / g) + v % g
  | .shflx n d a b => shuf n d a b fun l v => g * (l / g) + ((l % g) ^^^ (v % g))
  | .shflu n d a b => shuf n d a b fun l v => if v ≤ l % g then l - v else l
  | .shfld n d a b => shuf n d a b fun l v => if l % g + v < g then l + v else l
  | .scani n d a => scan n d a 0 (fun p q => (p + q) % 2 ^ 32) id
  | .scanf n d a => scan n d a 0x80000000 (fpAdd 24 s.dev.rnd) fun x => if fpIsNan 24 x then fpNan 24 else x
  | .redi n d a => reduce n d a 0 fun p q => (p + q) % 2 ^ 32
  | .redf n d a => reduce n d a 0x80000000 (fpAdd 24 s.dev.rnd)
  | .redmaxf n d a => reduce n d a 0xFF800000 (fpMinMax 24 true)
  | .redminf n d a => reduce n d a 0x7F800000 (fpMinMax 24 false)
  | .cnfl n d a =>
    let same := fun (l : Nat) => (groupLanes g l).filter fun k => on k && (vread s.dev 1 a.toNat k).val == (vread s.dev 1 a.toNat l).val
    let val := fun (l : Nat) => BitVec.ofNat 32 ((match same l with | [] => 0 | k :: _ => k % g) * 2 ^ 16 + (same l).length * 2 ^ 8 +
      ((same l).filter fun k => decide (k < l)).length)
    some { d := d.toNat, n, lat := 6, srcs := [a.toNat], val, set := fun l => groupLabel s.dev 1 a.toNat l fun _ => true }
  | _ => none

/-! ### Mask results -/

/-- A mask result: destination, value by lane, the vector fields read, and whether a paired team exchanges first. -/
structure MaskSpec where
  d : Nat
  val : Nat → Bool
  srcs : List Nat := []
  link : Bool := false

/-- Whether a pair of lanes passes a VCMP condition (R258). -/
def passes (c : VCond) (t : CmpType) (p q : Word) : Bool :=
  let nan := fpIsNan 24 p.toNat || fpIsNan 24 q.toNat
  match t, c with
  | .i32, .eq => p == q
  | .i32, .ne => p != q
  | .i32, .lt => p.slt q
  | .i32, .ge => q.sle p
  | .i32, .le => p.sle q
  | .i32, .gt => q.slt p
  | .i32, .lo => p.ult q
  | .i32, .hs => q.ule p
  | .i32, .ls => p.ule q
  | .i32, .hi => q.ult p
  | .f32, .eq => fpEq 24 p.toNat q.toNat
  | .f32, .ne => !fpEq 24 p.toNat q.toNat
  | .f32, .lt => fpLt 24 p.toNat q.toNat
  | .f32, .ge => fpLt 24 q.toNat p.toNat || fpEq 24 p.toNat q.toNat
  | .f32, .le => fpLt 24 p.toNat q.toNat || fpEq 24 p.toNat q.toNat
  | .f32, .gt => fpLt 24 q.toNat p.toNat
  | .f32, .un => nan
  | .f32, .or => !nan
  | _, _ => false

/-- The results in masks: VCMP, LBLT, the mask operations, STOK (R258, R264, R265, R317). -/
def maskSpec (i : Instr) (s : State) : Option MaskSpec :=
  let t := s.dev.cur
  let a1 := fun (a : BitVec 4) (l : Nat) => (kread s.dev 1 a.toNat).getLsbD l
  let b2 := fun (b : BitVec 4) (l : Nat) => (kread s.dev 2 b.toNat).getLsbD l
  let on := fun (l : Nat) => s.dev.k0.getLsbD l
  match i with
  | .vcmp c k ty a b =>
    let val := fun (l : Nat) => on l && passes c ty (vread s.dev 1 a.toNat l).val (vread s.dev 2 b.toNat l).val
    some { d := k.toNat, val, srcs := [a.toNat, b.toNat] }
  | .lblt k a b =>
    let val := fun (l : Nat) => on l && (t.org (vread s.dev 1 a.toNat l).lbl &&& ~~~((sval s.dev 2 b.toNat).setWidth 32) == 0)
    some { d := k.toNat, val, srcs := [a.toNat] }
  | .kand d a b => some { d := d.toNat, val := fun l => a1 a l && b2 b l }
  | .kor d a b => some { d := d.toNat, val := fun l => a1 a l || b2 b l }
  | .kxor d a b => some { d := d.toNat, val := fun l => a1 a l != b2 b l }
  | .kandn d a b => some { d := d.toNat, val := fun l => a1 a l && !b2 b l }
  | .knot d a => some { d := d.toNat, val := fun l => !a1 a l }
  | .kmov d a => some { d := d.toNat, val := a1 a }
  | .kall d => some { d := d.toNat, val := fun _ => true }
  | .kfirst d a => some { d := d.toNat, link := true, val := fun l => a1 a l && (List.range l).all fun j => !a1 a j }
  | .kgany d a => some { d := d.toNat, link := true, val := fun _ => kread s.dev 1 a.toNat != 0 }
  | .kzero d => some { d := d.toNat, link := true, val := fun _ => false }
  | .stok k r w => some { d := k.toNat, val := fun l => if l / 32 = w.toNat then (sval s.dev 1 r.toNat).getLsbD (l % 32) else (mask s k.toNat).getLsbD l }
  | _ => none

/-! ### Accesses -/

/-- One resolved access passes the checks of R273: it is reached, aligned, and, where the instruction writes it itself, touches no armed
barrier word and stays within the ceiling. -/
def passesChecks (s : State) (n : Need) (align : Nat) (x : Want × Res) : Bool :=
  let own := n.w && !(n.e && n.cls != .merge)
  match x.2 with
  | .ok (.scr h o) _ => x.1.va.toNat % (if x.1.align = 0 then align else x.1.align) == 0 && (!own || (armedAt s.dev.cur.regs h o x.1.len).isNone)
  | .ok _ (some e) => x.1.va.toNat % (if x.1.align = 0 then align else x.1.align) == 0 && (!own || (x.1.lbl ||| x.1.albl) &&& ~~~e.ceil == 0)
  | .ok _ none => x.1.va.toNat % (if x.1.align = 0 then align else x.1.align) == 0
  | _ => false

/-- What each access reaches, in turn. -/
def outcomes (s : State) (n : Need) (win regs : Bool) (ws : List Want) : List (Want × Res) := (resolveAll s.fw n win regs ws s.dev).1

/-- The accesses of an instruction, when every one of them passes the checks. -/
def reached (s : State) (n : Need) (win regs : Bool) (align : Nat) (ws : List Want) : Option (List Acc) :=
  let rs := outcomes s n win regs ws
  if rs.all (passesChecks s n align) then
    some (rs.filterMap fun x => match x.2 with
      | .ok t _ => some { lane := x.1.lane, va := x.1.va, tgt := t, len := x.1.len, data := x.1.data, lbl := x.1.lbl, albl := x.1.albl, aux := x.1.aux }
      | _ => none)
  else none

/-! ### Posts -/

/-- An operation that an instruction posts: its token, what it is to do, the frames it pins, whether it has error status already, whether it
has nothing to do and completes at once, whether it holds the team until it is performed, and the bits of TSTAT that posting sets. -/
structure Post where
  q : Option Nat
  kind : OpKind
  pins : List Nat := []
  err : Bool := false
  gone : Bool := false
  hold : Bool := false
  stat : BitVec 19 := 0

/-- An operation as it is posted at the team's position. -/
def newOp (s : State) (q : Option Nat) (kind : OpKind) : Op :=
  { id := s.dev.cur.nextOp, q, pc := s.dev.cur.pc, first := s.dev.cur.first, kind, bound := s.dev.cur.bound }

/-- The instruction posts its operation and the team goes on at the next word (R29, R30): the operation joins the pending ones, its frames
are pinned, and every register, byte and table is as before. -/
def Posts (i : Instr) (s : State) (p : Post) : Prop :=
  ∃ t, exec i s = .next t ∧ At t (s.dev.cur.pc + 4) (if p.hold && !p.gone then .held s.dev.cur.nextOp else .ready) ∧ Kept s t [] [] [] p.pins ∧
    sameOps t.dev.cur.ops (if p.gone then [] else s.dev.cur.ops ++ [{ newOp s p.q p.kind with err := p.err, pins := p.pins }]) ∧
    t.dev.cur.regs.cc = s.dev.cur.regs.cc ∧ t.dev.cur.regs.labels = s.dev.cur.regs.labels ∧ t.dev.cur.sp.tstat = s.dev.cur.sp.tstat ||| p.stat

/-- A memory word before its checks (R270-R276): token, wants, alignment, rights, what it posts, the register fields it reads for data, the
scope of an acquire and whether it releases. -/
structure MemSpec where
  q : Nat
  wants : List Want
  align : Nat
  need : Need
  regs : Bool := true
  kind : List Acc → OpKind
  srcs : List Nat := []
  acq : Bool := false
  rel : Bool := false

/-- The lanes' addresses (R270): base plus the index, the lane number for vz, scaled by the access's bytes, plus OFF. -/
def laneAddr (s : State) (b : BitVec 6) (ix : BitVec 7) (z l : Nat) : Dword :=
  let x : Int := if ix = 127 then l else (vread s.dev 2 ix.toNat l).val.toInt
  sval s.dev 1 b.toNat + BitVec.ofInt 64 (x * z + offOf s.dev.cur.hints)

/-- A scalar access's address (R274): base plus the offset, widened and scaled, plus OFF. -/
def scalarAddr (s : State) (b : BitVec 6) (o : BitVec 7) (z : Nat) : Dword :=
  sval s.dev 1 b.toNat + immZ s.dev o.toNat 7 * BitVec.ofNat 64 z + BitVec.ofInt 64 (offOf s.dev.cur.hints)

/-- Loads, stores and atomics (R270-R276). -/
def memSpec (i : Instr) (s : State) : Option MemSpec :=
  let org := s.dev.cur.org
  let albl := fun (b : BitVec 6) (ix : BitVec 7) (l : Nat) => sorg s.dev 1 b.toNat ||| (if ix = 127 then 0 else org (vread s.dev 2 ix.toNat l).lbl)
  let load := fun (q : BitVec 4) (b : BitVec 6) (ix : BitVec 7) (z : Nat) (dst : LoadDst) =>
    some ({ q := q.toNat, align := z, need := { r := true }, kind := .load dst s.dev.pol,
            wants := s.dev.act.map fun l => { lane := l, va := laneAddr s b ix z l, len := z, albl := albl b ix l } } : MemSpec)
  let store := fun (q : BitVec 4) (v : BitVec 7) (b : BitVec 6) (ix : BitVec 7) (z n : Nat) (data : Nat → Nat) =>
    let set := fun (l : Nat) => (upFrom v.toNat n).foldl (fun u r => u ||| org (vread s.dev 3 r l).lbl) 0
    some ({ q := q.toNat, align := z, need := { w := true }, kind := fun as => .store (shadow as), srcs := [v.toNat],
            wants := s.dev.act.map fun l => { lane := l, va := laneAddr s b ix z l, len := z, data := data l, lbl := set l, albl := albl b ix l } } : MemSpec)
  let lds := fun (q : BitVec 4) (d b : BitVec 6) (o : BitVec 7) (z : Nat) =>
    some ({ q := q.toNat, align := z, need := { r := true }, kind := .load (.scal d.toNat) s.dev.pol,
            wants := [{ lane := scalarLane, va := scalarAddr s b o z, len := z, albl := sorg s.dev 1 b.toNat }] } : MemSpec)
  let sts := fun (q : BitVec 4) (d b : BitVec 6) (o : BitVec 7) (z : Nat) =>
    let data := (sval s.dev 3 d.toNat).toNat % 256 ^ z
    some ({ q := q.toNat, align := z, need := { w := true }, kind := .store,
            wants := [{ lane := scalarLane, va := scalarAddr s b o z, len := z, data, lbl := sorg s.dev 3 d.toNat, albl := sorg s.dev 1 b.toNat }] } : MemSpec)
  let words := fun (v : BitVec 7) (l n : Nat) => (List.range n).foldr (fun j a => (vread s.dev 3 (v.toNat + j) l).val.toNat + 2 ^ 32 * a) 0
  let clip := fun (lo hi : Int) (bits : Nat) (v : BitVec 7) (l : Nat) => (BitVec.ofInt bits (max lo (min hi (vread s.dev 3 v.toNat l).val.toInt))).toNat
  match i with
  | .ld q v b ix z => load q b ix (4 * z.regs) (.regs v.toNat z.regs)
  | .ldn q v b ix z => load q b ix (nBytes z) (.ext v.toNat (nSigned z))
  | .st q v b ix z => store q v b ix (4 * z.regs) z.regs fun l => words v l z.regs
  | .stn q v b ix .i8 => store q v b ix 1 1 (clip (-128) 127 8 v)
  | .stn q v b ix .i16 => store q v b ix 2 1 (clip (-32768) 32767 16 v)
  | .stn q v b ix .n8 => store q v b ix 1 1 fun l => min 255 (vread s.dev 3 v.toNat l).val.toNat
  | .stn q v b ix .n16 => store q v b ix 2 1 fun l => min 65535 (vread s.dev 3 v.toNat l).val.toNat
  | .ldsW q d b o => lds q d b o 4
  | .ldsD q d b o => lds q d b o 8
  | .ldsN8 q d b o => lds q d b o 1
  | .ldsN16 q d b o => lds q d b o 2
  | .stsW q d b o => sts q d b o 4
  | .stsD q d b o => sts q d b o 8
  | .stsB8 q d b o => sts q d b o 1
  | .stsH16 q d b o => sts q d b o 2
  | .atom q d a o e c =>
    let va := fun (l : Nat) => (vread s.dev 1 (a.toNat + 1) l).val ++ (vread s.dev 1 a.toNat l).val + BitVec.ofInt 64 (offOf s.dev.cur.hints)
    let aux := fun (l : Nat) => if o = .cas then (vread s.dev 3 (d.toNat + 1) l).val.toNat else 0
    let lbl := fun (l : Nat) => org (vread s.dev 2 d.toNat l).lbl ||| (if o = .cas then org (vread s.dev 3 (d.toNat + 1) l).lbl else 0)
    let al := fun (l : Nat) => org (vread s.dev 1 a.toNat l).lbl ||| org (vread s.dev 1 (a.toNat + 1) l).lbl
    let want := fun (l : Nat) =>
      ({ lane := l, va := va l, len := 4, data := (vread s.dev 2 d.toNat l).val.toNat, lbl := lbl l, albl := al l, aux := aux l } : Want)
    some { q := q.toNat, align := 4, need := { r := true, w := true }, regs := false, kind := .atomic (.op o false) (.regs d.toNat 1) (semAcq e c),
           acq := (semAcq e c).isSome, rel := semRel e, wants := s.dev.act.map want }
  | .satom q d z a o e c =>
    let n := if z then 8 else 4
    let va := sval s.dev 1 a.toNat + BitVec.ofInt 64 (offOf s.dev.cur.hints)
    let data := (sval s.dev 2 d.toNat).toNat % 256 ^ n
    let aux := if o = .cas then (sval s.dev 3 (d.toNat + 1)).toNat % 256 ^ n else 0
    let lbl := sorg s.dev 2 d.toNat ||| (if o = .cas then sorg s.dev 3 (d.toNat + 1) else 0)
    some { q := q.toNat, align := n, need := { r := true, w := true }, regs := false, kind := .atomic (.op o z) (.scal d.toNat) (semAcq e c),
           acq := (semAcq e c).isSome, rel := semRel e, wants := [{ lane := scalarLane, va, len := n, data, lbl, albl := sorg s.dev 1 a.toNat, aux }] }
  | _ => none

/-- The post of a memory word whose checks all pass; a word without active lanes has nothing to do. -/
def memPost (i : Instr) (s : State) : Option Post :=
  (memSpec i s).bind fun x => (reached s x.need true x.regs x.align x.wants).bind fun as =>
    if 255 ≤ s.dev.cur.count x.q || (as.isEmpty && !s.dev.cur.ops.isEmpty) || (x.rel && !s.dev.cur.released) then none
    else some { q := some x.q, kind := x.kind as, gone := as.isEmpty, hold := x.acq, stat := lost s x.srcs }

/-! ### Posts through handles (R117-R119, R125) -/

/-- A sparse operation reaches its root table, and no lane of a writing one is above the table's ceiling (R125, R130). -/
def rootOk (s : State) (h : Handle) (w : Bool) (sets : List OSet) : Bool :=
  match (translate s.fw s.dev s.dev.cur.core s.dev.cur.part { r := true, w, e := true, cls := .node } (BitVec.ofNat 64 h.base)).1 with
  | .ok t => !w || sets.all fun u => u &&& ~~~t.ceil == 0
  | _ => false

/-- The error bit of a token that completes at once in error. -/
def errBit (q : Nat) (on : Bool) : BitVec 19 := if on then BitVec.ofNat 19 (2 ^ q) else 0

/-- A coordinate operation on a sparse tree: the lanes within bounds, each with its key and shard (R108); the others give error status. -/
def sparsePost (s : State) (q hn : Nat) (o : ArborOp) (v c : Nat) : Option Post :=
  let h := handleAt s.dev hn
  let w := o == .store || o == .add
  let set := fun (l : Nat) => coordLabel s.dev h c h.rank l ||| (if w then s.dev.cur.org (vread s.dev 3 v l).lbl else 0)
  let inside := s.dev.act.filter fun l => h.inBounds (coords s.dev c h.rank l)
  let lane := fun (l : Nat) =>
    let k := h.pack (coords s.dev c h.rank l)
    ({ lane := l, key := k, shard := shardOf h.shards k, data := (vread s.dev 3 v l).val, lbl := set l } : ArborLane)
  let err := decide (inside.length < s.dev.act.length)
  if !h.ok || h.type ≠ 3 || decide (s.dev.cur.decl.vregs < c + h.rank) || s.dev.pol != .normal || decide (255 ≤ s.dev.cur.count q) ||
      arborFull s.fw s.dev h.base ((inside.map lane).map (·.shard)) || !(rootOk s h w (s.dev.act.map set)) || (inside.isEmpty && !s.dev.cur.ops.isEmpty) then none
  else some { q := some q, kind := .arbor o hn h v 63 (inside.map lane), err, gone := inside.isEmpty, hold := w,
              stat := errBit q (err && inside.isEmpty) }

/-- A form through a dense or described handle: the lanes within bounds, each with its element's address (R117). -/
def densePost (s : State) (q hn v c : Nat) (r w : Bool) (kind : Handle → List Acc → OpKind) : Option Post :=
  let h := handleAt s.dev hn
  let inside := s.dev.act.filter fun l => h.inBounds (coords s.dev c h.rank l)
  let n := if h.type = 2 then h.rank - 1 else h.rank
  let want := fun (l : Nat) =>
    let cs := coords s.dev c h.rank l
    let x := vread s.dev 3 v l
    ({ lane := l, va := h.dense (cs.take n), len := h.size, albl := coordLabel s.dev h c h.rank l, aux := if h.type = 2 then nthD 0 cs (h.rank - 1) else 0,
       data := if w then x.val.toNat % (if h.vtype = 1 then 2 ^ 16 else 2 ^ 32) else 0, lbl := if w then s.dev.cur.org x.lbl else 0 } : Want)
  let err := decide (inside.length < s.dev.act.length)
  if !h.ok || h.type = 3 || decide (s.dev.cur.decl.vregs < c + h.rank) || decide (255 ≤ s.dev.cur.count q) ||
      (inside.isEmpty && !s.dev.cur.ops.isEmpty) then none
  else (reached s { r, w, cls := if h.type = 2 then .described else .bytes } (h.type != 2) true h.size (inside.map want)).map fun as =>
    { q := some q, kind := kind h as, err, gone := as.isEmpty, stat := errBit q (err && as.isEmpty) }

/-- The words that go through a tensor handle. -/
def handlePost (i : Instr) (s : State) : Option Post :=
  let type := fun (hn : BitVec 3) => (handleAt s.dev hn.toNat).type
  match i with
  | .ldh q v hn c =>
    if type hn = 3 then sparsePost s q.toNat hn.toNat .read v.toNat c.toNat
    else densePost s q.toNat hn.toNat v.toNat c.toNat true false fun h =>
      .load (if h.type = 2 then .elem v.toNat false else if h.vtype = 1 then .ext v.toNat false else .regs v.toNat 1) s.dev.pol
  | .sphas q v hn c =>
    if type hn = 3 then sparsePost s q.toNat hn.toNat .test v.toNat c.toNat
    else densePost s q.toNat hn.toNat v.toNat c.toNat true false fun h => .load (if h.type = 2 then .elem v.toNat true else .test v.toNat h.vtype) s.dev.pol
  | .sth q v hn c =>
    if type hn = 3 then sparsePost s q.toNat hn.toNat .store v.toNat c.toNat
    else densePost s q.toNat hn.toNat v.toNat c.toNat false true fun h as => if h.type = 2 then .code as else .store (shadow as)
  | .spadd q v hn c =>
    if type hn = 3 then sparsePost s q.toNat hn.toNat .add v.toNat c.toNat
    else if type hn = 2 then none
    else densePost s q.toNat hn.toNat v.toNat c.toNat true true fun h => .atomic (.spadd h.vtype) (.regs v.toNat 1) none
  | .spiter q v hn sd =>
    let h := handleAt s.dev hn.toNat
    let r := fun (n l : Nat) => vread s.dev 3 (v.toNat + n) l
    let set := fun (l : Nat) => h.lbl ||| s.dev.cur.org (r 0 l).lbl ||| s.dev.cur.org (r 1 l).lbl ||| s.dev.cur.org (r 2 l).lbl
    let lane := fun (l : Nat) =>
      let e := (r 2 l).val.getLsbD 1
      ({ lane := l, key := (r 0 l).val.toNat + (r 1 l).val.toNat * 2 ^ 32, shard := 0, data := (r 2 l).val, start := (r 2 l).val.getLsbD 0,
         atEnd := e, lbl := set l, todo := if e then [] else upFrom 0 (2 ^ h.shards), done := e, rlbl := set l } : ArborLane)
    if !h.ok || h.type ≠ 3 || decide (255 ≤ s.dev.cur.count q.toNat) || arborFull s.fw s.dev h.base ((s.dev.act.map lane).flatMap (·.todo)) ||
        !(rootOk s h false []) then none
    else some { q := some q.toNat, kind := .arbor .iter hn.toNat h v.toNat sd.toNat (s.dev.act.map lane) }
  | .spext hn a b =>
    let h := handleAt s.dev hn.toNat
    let va := sval s.dev 1 a.toNat
    let sb := (sval s.dev 2 b.toNat).toNat
    let set := h.lbl ||| sorg s.dev 1 a.toNat ||| sorg s.dev 2 b.toNat
    let root := fun (d : Dev) (w : Bool) => translate s.fw d d.cur.core d.cur.part { r := true, w, e := true, cls := .node } (BitVec.ofNat 64 h.base)
    match (root (root s.dev true).2 false).1 with
    | .ok t =>
      if !h.ok || h.type ≠ 3 || arborFull s.fw s.dev h.base [sb % 256] || !(rootOk s h true [0]) || va.toNat % 65536 ≠ 0 || set &&& ~~~t.ceil != 0 || sb / 2 ^ 32 = 0 ||
          decide (2 ^ 24 < sb / 2 ^ 32) || sb / 256 % 2 ^ 24 ≠ 0 || decide (2 ^ h.shards ≤ sb % 256) then none
      else if !((extentPages s.fw s.dev s.dev.cur.part va (256 * (sb / 2 ^ 32))).all fun p => match p.2 with | .ok e => e.ceil == t.ceil | _ => false) then none
      else some { q := none, hold := true, kind := .arbor .extend hn.toNat h 0 63
                    [{ lane := scalarLane, key := va.toNat, shard := sb % 256, data := BitVec.ofNat 32 (sb / 2 ^ 32), lbl := set }] }
    | _ => none
  | _ => none

/-! ### Posts to the engines (R160, R281-R307) -/

/-- There is room in the queue of core c's engine, and on the token. -/
def room (s : State) (q c : Nat) (f : Op → Bool) (cap : Nat) : Bool := decide (s.dev.cur.count q < 255) && decide (s.dev.queued c f < cap)

/-- The Kudu's and the windows' words. -/
def transferPost (i : Instr) (s : State) : Option Post :=
  let kudu := fun (q : BitVec 4) (a : BitVec 6) (kind : KuduKind) (hn : Nat) (rows : List (Nat × Int × OSet)) =>
    if room s q.toNat s.dev.cur.core inKudu 32 then
      match reached s { r := true, e := true, cls := .readout } true false 128
          [{ lane := scalarLane, va := sval s.dev 1 a.toNat, len := 128, albl := sorg s.dev 1 a.toNat }] with
      | some [x] => some ({ q := some q.toNat, kind := .kudu { kind, desc := x.va, tgt := x.tgt, h := hn, hw := handleAt s.dev hn, lbl := x.albl, rows },
                            pins := if canPin s.dev (accEnts [x]) then accEnts [x] else [] } : Post)
      | _ => none
    else none
  let index := fun (v : BitVec 7) => s.dev.act.map fun l => (l, (vread s.dev 2 v.toNat l).val.toInt, s.dev.cur.org (vread s.dev 2 v.toNat l).lbl)
  match i with
  | .kcopy q a hn => kudu q a .copy hn.toNat []
  | .kgath q a v => kudu q a .gath 0 (index v)
  | .kscat q a v => kudu q a .scat 0 (index v)
  | .kpos q d a => if room s q.toNat s.dev.cur.core inKudu 32 then some { q := some q.toNat, kind := .kpos d.toNat (sval s.dev 1 a.toNat) } else none
  | .kstop q _ => if s.dev.cur.ops.isEmpty && room s q.toNat s.dev.cur.core inKudu 32 then some { q := some q.toNat, kind := .instant, gone := true } else none
  | .wwr q a b c =>
    let len := (sval s.dev 3 c.toNat).toNat % 2 ^ 32
    let set := sorg s.dev 1 a.toNat ||| sorg s.dev 2 b.toNat ||| sorg s.dev 3 c.toNat
    if len = 0 ∨ 65536 < len then
      if s.dev.cur.ops.isEmpty then some { q := some q.toNat, kind := .instant, gone := true, stat := errBit q.toNat true } else none
    else if room s q.toNat s.dev.cur.core inWindow 64 then
      match reached s { r := true, e := true, dev := true } true false 1 (wwrWants (sval s.dev 2 b.toNat) len set) with
      | some as => if canPin s.dev (accEnts as) then
          some { q := some q.toNat, kind := .wwr { win := sval s.dev 1 a.toNat, len, src := as, lbl := set, pins := accEnts as }, pins := accEnts as } else none
      | none => none
    else none
  | .wsig q a b =>
    if room s q.toNat s.dev.cur.core inWindow 64 then
      some { q := some q.toNat, kind := .wsig (sval s.dev 1 a.toNat) ((sval s.dev 2 b.toNat).setWidth 32) (sorg s.dev 1 a.toNat ||| sorg s.dev 2 b.toNat) }
    else none
  | .wcnt q d a r =>
    if s.dev.cur.count q.toNat < 255 ∧ winKnown s.fw s.dev s.dev.cur.part (sval s.dev 1 a.toNat) = true then
      some { q := some q.toNat, kind := .wcnt d.toNat (sval s.dev 1 a.toNat) r }
    else none
  | _ => none

/-- The one word of k0 that holds active lanes, with its rows (R291): an empty mask has none, and two words are illegal. -/
def rowsOf (s : State) : Option (Nat × BitVec 32) :=
  match (List.range ((s.dev.cur.lanes + 31) / 32)).filter fun w => s.dev.k0.extractLsb' (32 * w) 32 != 0 with
  | [] => some (0, 0)
  | [w] => some (w, s.dev.k0.extractLsb' (32 * w) 32)
  | _ => none

/-- The half that k0's first active word lies in (R292). -/
def halfOf (s : State) : Nat :=
  match (List.range ((s.dev.cur.lanes + 31) / 32)).filter fun w => s.dev.k0.extractLsb' (32 * w) 32 != 0 with
  | w :: _ => if s.dev.cur.paired ∧ 16 ≤ w then 1 else 0
  | [] => 0

/-- The matrix engine's words. -/
def matrixPost (i : Instr) (s : State) : Option Post :=
  let put := fun (q : BitVec 4) (k : OpKind) (pins : List Nat) =>
    if room s q.toNat (s.dev.cur.core + halfOf s) inMatrix 16 && canPin s.dev pins then some ({ q := some q.toNat, kind := k, pins } : Post) else none
  let mma := fun (q : BitVec 4) (var : Nat) (t : BitVec 6) (a b : BitVec 7) => (rowsOf s).bind fun r =>
    let k := OpKind.mma var t.toNat a.toNat b.toNat (halfOf s) r.1 r.2 []
    put q (.mma var t.toNat a.toNat b.toNat (halfOf s) r.1 r.2
      (s.dev.cur.haz.filter fun h => k.reads h.loc && (h.op != 0 || decide (s.dev.cur.pos < h.upto)))) []
  let image := fun (q : BitVec 4) (t a : BitVec 6) (n : Need) (o : List Acc → AccOp) =>
    (reached s n true false 64 (imageWants (sval s.dev 1 a.toNat) (sorg s.dev 1 a.toNat))).bind fun as =>
      put q (.acc (o as) t.toNat (halfOf s) 0 0) (accEnts as)
  let merge := fun (q : BitVec 4) (a : BitVec 6) (n : Need) (set : OSet) (k : Nat → Nat → Dword → OpKind) =>
    let va := sval s.dev 1 a.toNat
    if inScratch va || inRegWin va then none
    else match reached s n true false 8192 [{ lane := scalarLane, va, len := 8192, lbl := set }] with
      | some [x] => (match x.tgt with | .mem pa e _ => put q (k pa e va) [e] | _ => none)
      | _ => none
  match i with
  | .mma q t a b => mma q 0 t a b
  | .mmaz q t a b => mma q 1 t a b
  | .mman q t a b => mma q 2 t a b
  | .aclr q t => put q (.acc .clr t.toNat (halfOf s) 0 0) []
  | .acvt q t d f => (rowsOf s).bind fun r => put q (.acc (.cvt d.toNat f) t.toNat (halfOf s) r.1 r.2) []
  | .abq q t d f => (rowsOf s).bind fun r => put q (.acc (.blk d.toNat f) t.toNat (halfOf s) r.1 r.2) []
  | .ast q t a => image q t a { w := true, e := true } .st
  | .ald q t a => image q t a { r := true, e := true } .ld
  | .aexp q t d => put q (.acc (.exp d.toNat) t.toNat (halfOf s) 0 0) []
  | .ami q a b =>
    merge q a { w := true, e := true, cls := .merge } (sorg s.dev 1 a.toNat ||| sorg s.dev 2 b.toNat) fun pa e va =>
      .ami pa e va (sval s.dev 2 b.toNat).toInt (sorg s.dev 1 a.toNat ||| sorg s.dev 2 b.toNat) (halfOf s)
  | .amrg q t a =>
    merge q a { r := true, w := true, e := true, cls := .merge } (tileSetAfter s.dev (halfOf s) t.toNat ||| sorg s.dev 1 a.toNat) fun pa e va =>
      .amrg pa e va t.toNat (halfOf s) (sorg s.dev 1 a.toNat)
  | _ => none

/-- The tap descriptor at an address with the pages read, when its checks pass (R163, R196). -/
def tapAt (s : State) (va : Dword) (ftens : Bool) : Option (TapDesc × List Piece) :=
  match tapPages s.fw [(va, 128, { belR with cls := .plain })] s.dev with
  | (.ok ps, d1) =>
    let v := leNat ((readPieces d1 s.dev.cur.self ps).map (·.1))
    let x := tapFields va v
    match (if ftens then tapPages s.fw [(x.ftens, 64, belR)] d1 else (.ok [], d1)) with
    | (.ok fs, d2) => if tapOk x v && (!ftens || tensorOk (tensorAt d2 s.dev.cur.self fs x.ftens.toNat)) then some (x, ps ++ fs) else none
    | _ => none
  | _ => none

/-- The Belvedere's words that only post, and MERGEK (R179, R188, R315). -/
def belvederePost (i : Instr) (s : State) : Option Post :=
  match i with
  | .fsel t a q =>
    let f := (sval s.dev 1 a.toNat).toNat
    s.dev.cur.session.bind fun u =>
      if s.dev.cur.paired = false ∧ f % 16 = 0 ∧ room s q.toNat s.dev.cur.core inBelvedere 16 = true then
        some { q := some q.toNat, kind := .fsel u.id t.toNat f (s.dev.k0.extractLsb' (32 * scWord u.sc) 32) (sorg s.dev 1 a.toNat) }
      else none
  | .tape a b c q =>
    let sa := sval s.dev 1 a.toNat
    let row := (sval s.dev 3 c.toNat).toNat
    (tapAt s (sval s.dev 2 b.toNat) true).bind fun x =>
      if row ≤ 4095 ∧ inScratch sa = true ∧ sa.toNat - 0xFFFFF00000000000 + 2064 + 8 + 8 * 320 ≤ s.dev.cur.decl.scratch ∧ s.dev.badU = [] ∧
          (x.2.all fun p => s.dev.cur.writesDone s.dev.cur.nextOp p.tgt p.len) = true ∧ room s q.toNat s.dev.cur.core inBelvedere 16 = true then
        some { q := some q.toNat, kind := .tape x.1 sa row (newSeq s.dev s.dev.cur.belUnit).1
                 (sorg s.dev 1 a.toNat ||| sorg s.dev 2 b.toNat ||| sorg s.dev 3 c.toNat) }
      else none
  | .mergek q a b c =>
    let n := (mergeSizes (sval s.dev 2 b.toNat)).getD (1, 1)
    let tab := rangeWants (sval s.dev 1 a.toNat) (16 * n.1) 16 { r := true, e := true } 0
    let out := rangeWants (sval s.dev 3 c.toNat) (16 + 8 * n.2) 8 { w := true, e := true } 0
    (reached s { r := true, w := true, e := true } true true 8 (tab ++ out)).bind fun as =>
      if s.dev.cur.count q.toNat < 255 ∧ canPin s.dev (accEnts as) = true then
        some { q := some q.toNat, pins := accEnts as, kind := .mergek (sval s.dev 2 b.toNat)
                 (sorg s.dev 1 a.toNat ||| sorg s.dev 2 b.toNat ||| sorg s.dev 3 c.toNat) (as.take tab.length) (as.drop tab.length) }
      else none
  | _ => none

/-! ### Blocks and selection (R308-R316) -/

/-- What a word gives each active lane: its origin set and the registers it writes, with their values. -/
structure LanesSpec where
  set : Nat → OSet
  out : Nat → List (Nat × Word)

/-- The lanes' label indexes and the lanes that found no entry. -/
def LanesSpec.alloc (x : LanesSpec) (s : State) : List (Nat × Lbl) × SMap OSet × List Nat × OSet :=
  allocLanes s.dev.cur.regs.labels (s.dev.act.map fun l => (l, x.set l))

/-- Registers v to v+n-1 of lane l: values, and the join of their labels. -/
def regsOf (s : State) (v n l : Nat) : List Word := (List.range n).map fun j => (vread s.dev 1 (v + j) l).val
def regsSet (s : State) (v n l : Nat) : OSet := (List.range n).foldl (fun u j => u ||| s.dev.cur.org (vread s.dev 1 (v + j) l).lbl) 0

/-- The block instructions (R309-R311), with the check that every active lane's input must pass (R308, R50), and RNGU (R316). -/
def lanesSpec (i : Instr) (s : State) : Option LanesSpec :=
  let block := fun (a : BitVec 7) (n : Nat) (ok : List Word → Bool) (out : List Word → List (Nat × Word)) =>
    if s.dev.act.all fun l => ok (regsOf s a.toNat n l) then some ({ set := regsSet s a.toNat n, out := fun l => out (regsOf s a.toNat n l) } : LanesSpec) else none
  match i with
  | .bqnt d a f =>
    block a (blkCount f.code / 2) (fun ws => (halfWords ws).all fun h => h / 128 % 256 != 255)
      fun ws => blockRegs d.toNat (quant ((halfWords ws).map bfGrid) (-133) f.code)
  | .bdeq d a =>
    block a 16 (fun ws => blkCheck (wordsBytes ws) == 0) fun ws =>
      let b := wordsBytes ws
      let vs := (blkElems b).map (elemBf b)
      pairRegs d.toNat (vs ++ List.replicate (96 - vs.length) 0)
  | .bhdr d a =>
    block a 16 (fun ws => blkCheck (wordsBytes ws) == 0) fun ws =>
      let b := wordsBytes ws
      let f := blkByte b 0
      [(d.toNat, if f = 0 then 0 else BitVec.ofNat 32 (f + blkByte b 1 * 2 ^ 8 + blkCount f * 2 ^ 16 + blkEscs b * 2 ^ 24))]
  | .rngu d a b =>
    let x := fun (r l : Nat) => vread s.dev (1 + r) (a.toNat + r) l
    let set := fun (l : Nat) => s.dev.cur.org (x 0 l).lbl ||| s.dev.cur.org (x 1 l).lbl ||| sorg s.dev 3 b.toNat
    some { set, out := fun l => [(d.toNat, BitVec.ofNat 32 (rngu (sval s.dev 3 b.toNat) (x 0 l).val (x 1 l).val))] }
  | _ => none

/-- The lanes of the selection group, the first active lane's (R312): none when no lane is active. -/
def selected (s : State) : Option (List Nat) := s.dev.act.head?.map (groupLanes s.dev.cur.decl.group)

/-- What SAMPLE gives (R313): the lane drawn or 2^64 - 1, the set, whether nothing was drawn, whether a weight was negative or NaN. -/
def sampleSpec (s : State) (d : BitVec 6) (a : BitVec 7) (b : BitVec 6) : Dword × OSet × Bool × Bool :=
  match selected s with
  | none => (-1, sorg s.dev 2 b.toNat, true, false)
  | some ls =>
    let on := ls.filter fun l => s.dev.k0.getLsbD l
    let raw := ls.map fun l => if s.dev.k0.getLsbD l then (vread s.dev 1 a.toNat l).val.toNat else negZero
    let set := on.foldl (fun u l => u ||| s.dev.cur.org (vread s.dev 1 a.toNat l).lbl) 0 ||| sorg s.dev 2 b.toNat
    match sampleIndex (raw.map fun x => if badWeight x then 0 else x) (sampleU ((sval s.dev 2 b.toNat).toNat % 2 ^ 32))
        (Config.free s.dev.free (slotKey 7 (.s d.toNat))) with
    | some i => (BitVec.ofNat 64 (ls.headD 0 + i), set, false, raw.any badWeight)
    | none => (-1, set, true, raw.any badWeight)

/-- What TOPK gives (R314): for lane g+j of the selection group, j below k, the lane and the value of rank j; the sums of the values chosen
and of the others; their count; the set. -/
structure TopSpec where
  rows : List (Nat × Word × Word)
  sel : Nat
  rest : Nat
  count : Nat
  set : OSet

def topSpec (s : State) (a : BitVec 7) (r : BitVec 6) : TopSpec :=
  let w := s.dev.cur.decl.group
  match selected s with
  | none => { rows := [], sel := negZero, rest := negZero, count := 0, set := sorg s.dev 3 r.toNat }
  | some ls =>
    let on := ls.filter fun l => s.dev.k0.getLsbD l
    let val := fun (l : Nat) => (vread s.dev 1 a.toNat l).val.toNat
    let k := min ((sval s.dev 3 r.toNat).toNat % 2 ^ 32) w
    let top := (sortBy (fun x y => decide (topKey (val y) ≤ topKey (val x))) on).take k
    let row := fun (j : Nat) => match top[j]? with
      | some l => (ls.headD 0 + j, BitVec.ofNat 32 l, BitVec.ofNat 32 (canonNan (val l)))
      | none => (ls.headD 0 + j, 0xFFFFFFFF#32, 0xFF800000#32)
    { rows := (List.range k).map row, count := top.length,
      sel := canonNan (ksSum ((List.range w).map fun j => match top[j]? with | some l => val l | none => negZero)),
      rest := canonNan (ksSum (ls.map fun l => if s.dev.k0.getLsbD l && !top.contains l then val l else negZero)),
      set := on.foldl (fun u l => u ||| s.dev.cur.org (vread s.dev 1 a.toNat l).lbl) 0 ||| sorg s.dev 3 r.toNat }

/-! ### Special registers written (R318, R77-R82) -/

/-- What SWR makes of the special registers: none where a read-only field is not 0 or the number names none that is writable. -/
def swrSpec (n : Nat) (x : Special) (v : Dword) : Option Special :=
  match n with
  | 0x11 => some { x with tpc := v &&& ~~~3 }
  | 0x18 => if v.toNat < 2 ^ 19 then some { x with tstat := x.tstat &&& ~~~v.setWidth 19 } else none
  | 0x20 => if v.toNat < 2 ^ 8 ∧ v.getLsbD 2 = false ∧ v.getLsbD 3 = false then some { x with dbgctl := v.setWidth 8 } else none
  | 0x21 => if v.toNat < 2 ^ 22 ∧ v.toNat % 8 = 0 then some { x with watcha := v.setWidth 22 } else none
  | 0x22 => if v.toNat < 2 ^ 22 ∧ v.toNat % 8 = 0 then some { x with watchb := v.setWidth 22 } else none
  | _ => none

/-- The machine with the acting team's special registers, scratchpad, handles, tiles or sessions of another: for a frame of what changes one
of them. -/
def withSpecial (s t : State) : State := { t with dev := t.dev.updS fun _ => s.dev.cur.sp }
def withScratch (s t : State) : State := { t with dev := t.dev.updR fun r => { r with scr := s.dev.cur.regs.scr } }
def withHandles (s t : State) : State := { t with dev := t.dev.updR fun r => { r with hnd := s.dev.cur.regs.hnd } }
def withTiles (s t : State) : State := { t with dev := t.dev.updR fun r => { r with tiles := s.dev.cur.regs.tiles } }

/-! ### Waits (R31, R143, R147, R148, R277-R280, R290, R321, R322) -/

/-- A word that may wait: whether it goes on at once, what it waits for otherwise, where it goes on, the scope it acquires at, and whether it
leaves the active set while it waits. -/
structure WaitSpec where
  now : Bool
  wait : Wait
  target : Dword
  acq : Option Scope := none
  leaves : Bool := false

/-- The barrier word that a scalar addresses: 8-byte aligned, within the scratchpad window, sound (R280, R105). -/
def barrierOff (s : State) (a : BitVec 6) : Option Nat :=
  let va := sval s.dev 1 a.toNat
  let off := va.toNat - 0xFFFFF00000000000
  if va.toNat % 8 = 0 ∧ inScratch va = true ∧ off + 8 ≤ s.dev.cur.decl.scratch then some off else none

/-- A barrier word can be read (R105). -/
def barrierSound (s : State) (off : Nat) : Bool := (wordsOf off 8).all fun w => !s.dev.cur.badS.contains w

/-- The words that may wait; a YIELD at which a compaction has still to move the team holds it until then (R155). -/
def waitSpec (i : Instr) (s : State) : Option WaitSpec :=
  let t := s.dev.cur
  let next := t.pc + 4
  match i with
  | .wait q n => some { now := decide (t.count q.toNat ≤ n.toNat), wait := .token q.toNat n.toNat, target := next }
  | .waita b => some { now := (List.range 16).all fun q => !b.getLsbD q || t.count q == 0, wait := .tokens b, target := next }
  | .yield q n o =>
    let target := t.pc + 4 * immS s.dev o.toNat 10
    some { now := decide (t.count q.toNat ≤ n.toNat) && t.slide.isEmpty, wait := .yield q.toNat n.toNat target, target, leaves := true }
  | .phase sc => some { now := t.released, wait := .phase sc, target := next, acq := some sc }
  | .mwait a b z =>
    let n := if z then 8 else 4
    match reached s { r := true, dev := true } true false n [{ lane := scalarLane, va := sval s.dev 1 a.toNat, len := n }] with
    | some [x] =>
      let m : Monitor := { va := x.va, tgt := x.tgt, dbl := z, want := BitVec.ofNat 64 ((sval s.dev 2 b.toNat).toNat % 256 ^ n) }
      if m.isBad s.dev then none else some { now := m.differs s.dev t.regs, wait := .monitor m, target := next, acq := some .pkg }
    | _ => none
  | .barw a => (barrierOff s a).bind fun off =>
      if barrierSound s off then some { now := !armed t.regs 0 off, wait := .barrier 0 off, target := next, acq := some .die } else none
  | .wwt a b r =>
    let win := sval s.dev 1 a.toNat
    let n := (sval s.dev 2 b.toNat).setWidth 32
    if winKnown s.fw s.dev t.part win then
      some { now := winReached (winCounter s.dev win r) n, wait := .window win r n, target := next, acq := some .sys }
    else none
  | .invl k a b =>
    let r : InvlReq := { kind := k, asid := (sval s.dev 2 b.toNat).toNat % 65536, vpn := vpnOf (sval s.dev 1 a.toNat) }
    some { now := invlIdle s.dev t.part r, wait := .invl r, target := next }
  | .icinv a l => some { now := t.released, wait := .icinv (icLine s.fw s.dev l (sval s.dev 1 a.toNat)), target := next }
  | _ => none

/-- After an acquire at a scope (R140, R142, R143): the writes performed so far by the agents in the scope bound the team's later reads; at die scope
and wider, and for a paired team at any, its cores hold no L1 line. -/
def Acquired (t : State) : Option Scope → Prop
  | none => True
  | some sc => t.dev.cur.bound.core = t.dev.wn ∧ (sc = .sys → t.dev.cur.bound.sys = t.dev.wn) ∧
      (sc ≠ .core ∨ t.dev.cur.paired = true → t.dev.cur.bound.pkg = t.dev.wn ∧ ∀ c ∈ t.dev.cur.cores, (t.dev.core c).l1 = [])

/-- What an invalidation leaves (R136, R321, R322): no TLB entry of the partition that it names; no instruction-cache line that ICINV names in
a core of the partition. -/
def Invalidated (t : State) : Wait → Prop
  | .invl r => ∀ c, ∀ e ∈ (t.dev.core c).tlb, e.part = t.dev.cur.part → r.names e.asid e.vpn = false
  | .icinv none => ∀ c, t.fw.hasCore t.dev.cur.part c = true → (t.dev.core c).ic = []
  | .icinv (some a) => ∀ c, t.fw.hasCore t.dev.cur.part c = true → mfind (t.dev.core c).ic a = none
  | _ => True

/-- A team without the physical place that its monitor watches, which follows the translation of its address (R136, R147). -/
def still (t : Team) : Team :=
  match t.wait with
  | .monitor m => { t with wait := .monitor { m with tgt := none } }
  | _ => t

/-- The machine with the other teams of another: for a frame of what moves their monitors. -/
def withRest (s t : State) : State := { t with dev := { t.dev with rest := s.dev.rest } }

/-- The other teams are as before, but that an invalidation moves their monitors (R136). -/
def RestKept (s t : State) (moves : Bool) : Prop :=
  t.dev.rest.map still = s.dev.rest.map still ∧ (moves = false → t.dev.rest = s.dev.rest)

/-- The events that end a wait: where the team goes on, and the scope of an acquire. A team whose save drains at its LIVE point stays there (R227),
but that a monitor's wake is kept. -/
def endSpec (i : Instr) (s : State) : Option (Dword × Option Scope) :=
  let t := s.dev.cur
  if t.save = some .atPoint then none
  else match i, t.wait with
  | .waitSatisfied, .token q n => if t.count q ≤ n then some (t.pc + 4, none) else none
  | .waitSatisfied, .tokens b => if (List.range 16).all fun q => !b.getLsbD q || t.count q == 0 then some (t.pc + 4, none) else none
  | .yieldReactivate, .yield q n target => if t.count q ≤ n ∧ t.slide = [] then some (target, none) else none
  | .phaseReleaseDone, .phase sc => if t.released then some (t.pc + 4, some sc) else none
  | .mwaitWake, .monitor m => if t.met || m.differs s.dev t.regs then some (t.pc + 4, some .pkg) else none
  | .barwRelease, .barrier h off => if armed t.regs h off then none else some (t.pc + 4, some .die)
  | .wwtRelease, .window win r n => if winReached (winCounter s.dev win r) n then some (t.pc + 4, some .sys) else none
  | .invlComplete, .invl r => if invlIdle s.dev t.part r then some (t.pc + 4, none) else none
  | .icinvComplete, .icinv _ => if t.released then some (t.pc + 4, none) else none
  | _, _ => none

/-- The words of a pair-link exchange (R20). -/
def exchanges : Instr → Bool
  | .bkz _ _ => true | .bknz _ _ => true | .kfirst _ _ => true | .kgany _ _ => true | .kzero _ => true | .kcnt _ _ => true
  | .ktos _ _ _ => true | .lblget _ _ _ => true | .sample _ _ _ => true | .topk _ _ _ => true
  | _ => false

/-- The machine with the team that an event names as the acting one. -/
def acting (s : State) : Option State := (s.dev.focus s.args.tid).map fun d => { s with dev := d }

/-! ### Pending operations performed -/

/-- The machine with the frame table or the memory of another: for a frame of what changes one of them. -/
def withFrames (s t : State) : State := { t with dev := { t.dev with frames := s.dev.frames } }
def withMemory (s t : State) : State := { t with dev := { t.dev with mem := s.dev.mem } }
def withWindows (s t : State) : State := { t with dev := { t.dev with windows := s.dev.windows } }

/-- The event that the schedule names is about this pending operation of the team it names (entry 2): u is the machine with that team acting,
the operation's destinations were not written since it was posted (R32), and single stepping is off (R221). -/
structure Pending (s u : State) (o : Op) : Prop where
  team : acting s = some u
  op : u.dev.cur.op s.args.op = some o
  pending : o.done = false
  token : ∀ q, o.q = some q → q < 16
  untouched : o.clob = []
  calm : u.dev.cur.olds (.spec 0x20) = [] ∧ u.dev.cur.sp.dbgctl.getLsbD 0 = false ∨ u.dev.cur.sp.handling = true

/-- The operation has completed (R30): it is finished or has retired, with its error status or in its token's bit of TSTAT; the others are as
they were. -/
structure Completed (u t : State) (o : Op) (err : Bool) : Prop where
  done : ∀ p ∈ t.dev.cur.ops, p.id = o.id → p.done = true
  kept : ∀ p ∈ t.dev.cur.ops, p.id ≠ o.id → p ∈ u.dev.cur.ops
  left : ∀ p ∈ u.dev.cur.ops, p.id ≠ o.id → p.done = false → p ∈ t.dev.cur.ops
  error : err = true → ∀ q, o.q = some q → (∃ p ∈ t.dev.cur.ops, p.id = o.id ∧ p.err = true) ∨ t.dev.cur.sp.tstat.getLsbD q = true

/-- Rows of results: lane, origin set, registers with values. They fit when every lane comes once, every register once in it, and the label
table has or takes an index for every set (R75, R246). -/
structure Fits (u : State) (rows : List (Nat × OSet × List (Nat × Word))) : Prop where
  lanes : (rows.map (·.1)).Nodup ∧ ∀ x ∈ rows, x.1 < 1024
  regs : ∀ x ∈ rows, x.2.2 ≠ [] ∧ (x.2.2.map (·.1)).Nodup ∧ ∀ y ∈ x.2.2, y.1 < 124
  labels : (allocLanes u.dev.cur.regs.labels (rows.map fun x => (x.1, x.2.1))).2.2.1 = []

/-- The results have landed in their lanes with their sets, and no other lane of a register has changed. -/
structure Lands (u t : State) (rows : List (Nat × OSet × List (Nat × Word))) : Prop where
  value : ∀ x ∈ rows, ∀ y ∈ x.2.2, (lane t y.1 x.1).val = y.2 ∧ t.dev.cur.org (lane t y.1 x.1).lbl = x.2.1
  rest : ∀ r l, l < 1024 → (∀ x ∈ rows, x.1 = l → ∀ y ∈ x.2.2, y.1 ≠ r) → lane t r l = lane u r l

/-- No watchpoint is on (R81). -/
def noWatch (u : State) : Prop := u.dev.cur.sp.dbgctl.toNat / 16 = 0

/-- What an access reads, with its set: from its home, from the scratchpad run, through the register window (R271, R91, R83). -/
def valueOf (u : State) (o : Op) (pol : CachePol) (a : Acc) : Nat × OSet :=
  match a.tgt with
  | .mem pa e _ => (memNat u.dev.mem pa a.len, (u.dev.frame e).cur ||| a.albl)
  | .scr h off => (scrNat u.dev.cur.regs h off a.len, scrLabel u.dev.cur h off a.len ||| a.albl)
  | .reg _ _ _ => ((readAcc u.dev o pol a).1, (readAcc u.dev o pol a).2.1)

/-- Every write of a byte is one that the operation's reads may not go behind (R142): they read what memory holds. -/
def settled (u : State) (o : Op) (a : Nat) : Prop :=
  ∀ x ∈ mget [] u.dev.hist a, x.1 ≤ u.dev.wn ∧ u.dev.covers o (paIsHost a) x.1 x.2.1 = true

/-- The same of every byte: the team's engines read what memory holds for the operation. -/
def acquiredAll (u : State) (o : Op) : Prop := ∀ a, settled u o a

/-- The same of Limamon's own reads. -/
def limAcquired (s : State) : Prop := ∀ a, ∀ x ∈ mget [] s.dev.hist a, s.dev.limCovers (paIsHost a) x.1 x.2.1 = true

/-- The access reads no unit, word or lane in error (R105), and where an L1 may hold its line no write of its bytes is open to it (R92, R142). -/
def sound (u : State) (o : Op) (pol : CachePol) (a : Acc) : Prop :=
  u.dev.cur.badV = [] ∧ u.dev.cur.badS = [] ∧
  match a.tgt with
  | .mem pa _ cached => badAt u.dev pa a.len = false ∧ (cached = false ∨ pol = .noL1 ∨ ∀ b, pa ≤ b → b < pa + a.len → settled u o b)
  | _ => True

/-- What a load gives its lanes (R271, R117): of a described block, the lanes whose element the block has. -/
def loadRows (u : State) (o : Op) (pol : CachePol) (dst : LoadDst) (as : List Acc) : List (Nat × OSet × List (Nat × Word)) :=
  (as.filter fun a => match dst with | .elem _ _ => decide (a.aux < blockLen (valueOf u o pol a).1) | _ => true).map fun a =>
    (a.lane, (valueOf u o pol a).2, loadRegs dst a (valueOf u o pol a).1)

/-- The registers of rows. -/
def rowRegs (rows : List (Nat × OSet × List (Nat × Word))) : List Nat := rows.flatMap fun x => x.2.2.map (·.1)

/-- The next lane of an operation's accesses that the event performs, and whether it is the last. -/
structure NextLane (s u : State) (o : Op) (as : List Acc) (a : Acc) : Prop where
  next : as.find? (fun b => b.lane == s.args.n && !b.fin) = some a
  turn : u.dev.cur.inTurn o.id a = true

/-- A lane of a store as it is sent (R272): where higher lanes write the same place, it waits for them, and writes only if none of them was
performed. -/
def Sends (as : List Acc) (a y : Acc) : Prop :=
  let higher := as.filter fun b => decide (a.lane < b.lane) && b.tgt == a.tgt
  a.note ≠ 1 ∧ y = a ∨
  a.note = 1 ∧ higher.all (·.fin) = true ∧ y = if higher.all fun b => b.note == 2 || b.note == 4 then { a with note := 0 } else a

/-- The accesses with that lane performed. -/
def performed (as : List Acc) (a : Acc) : List Acc := as.map fun b => if b.lane = a.lane then a else b

/-- The operation goes on with its other lanes, or completes with the last one. -/
def Proceeds (u t : State) (o : Op) (as : List Acc) (k : List Acc → OpKind) : Prop :=
  if as.all (·.fin) then Completed u t o false else ∃ p ∈ t.dev.cur.ops, p.id = o.id ∧ p.kind = k as ∧ p.done = false

/-- A transfer to host memory passes the Lodge (R356, R170-R173). -/
def admitted (u : State) (pa : Nat) (va : Dword) (n : Nat) (set : OSet) : Prop :=
  paIsHost pa = true → (lodge u.fw u.dev.cur.part set 1 va.toNat n).isSome

/-- One write of n bytes at its home, its page's set raised by its label (R101): these bytes and this set change in memory and no other. -/
structure Written (u t : State) (pa e n data : Nat) (set : OSet) : Prop where
  bytes : memNat t.dev.mem pa n = data % 256 ^ n
  others : ∀ c, c < pa ∨ pa + n ≤ c → byteAt t c = byteAt u c
  frame : t.dev.frame e = { u.dev.frame e with cur := (u.dev.frame e).cur ||| set }
  frames : ∀ f, f ≠ e → t.dev.frame f = u.dev.frame f

/-- The same in a half's scratchpad: the bytes, and the set of every word that is written whole (R91). -/
structure ScrWritten (u t : State) (h off n data : Nat) (set : OSet) : Prop where
  bytes : scrNat t.dev.cur.regs h off n = data % 256 ^ n
  others : ∀ c, c < off ∨ off + n ≤ c → scrByte t.dev.cur.regs h c = scrByte u.dev.cur.regs h c
  labels : ∀ w, off ≤ 4 * w → 4 * w + 4 ≤ off + n → t.dev.cur.org (mget {} t.dev.cur.regs.scr (h * 2 ^ 20 + w)).lbl = set

/-- The results of an atomic's accesses, once all of them are performed (R276): in the lanes' registers or in a scalar. -/
def atomRows (dst : LoadDst) (as : List Acc) : List (Nat × OSet × List (Nat × Word)) := as.map fun b => (b.lane, b.lbl, loadRegs dst b b.aux)

/-- The results have the room they need, and have landed. -/
def ResultsFit (v : State) (dst : LoadDst) (as : List Acc) : Prop :=
  match dst with
  | .scal sd => ∃ b, as = [b] ∧ (sd = 63 ∨ (allocLabel v.dev.cur.regs.labels b.lbl).isSome)
  | _ => Fits v (atomRows dst as)
def Results (v t : State) (dst : LoadDst) (as : List Acc) : Prop :=
  match dst with
  | .scal sd => ∀ b, as = [b] → PutScalar v t sd (BitVec.ofNat 64 b.aux) b.lbl
  | _ => Lands v t (atomRows dst as)
def scalarsOf : LoadDst → List Nat
  | .scal sd => [sd]
  | _ => []

/-! ### Gathered calls (R226, R325) -/

/-- The lanes of a call, their requests with their sets, and the join of the sets. -/
def callRows (s : State) (v : BitVec 7) : List (Nat × Nat × OSet) :=
  ((List.range s.dev.cur.lanes).filter fun l => s.dev.k0.getLsbD l).map fun l =>
    let lo := vread s.dev 1 v.toNat l
    let hi := vread s.dev 1 (v.toNat + 1) l
    (l, lo.val.toNat + hi.val.toNat * 2 ^ 32, s.dev.cur.org lo.lbl ||| s.dev.cur.org hi.lbl)

/-! ### The Arbor's operations (R113-R121) -/

/-- What a shard's Arbor makes of one lane's operation, when its reads and writes pass their checks (R372): the lane, with its result under the
tensor's set, and the machine. -/
def arborStep (u : State) (o : ArborOp) (hw : Handle) (l : ArborLane) (shard : Nat) : Option (ArborLane × Dev) :=
  let tr := hw.tree u.dev.cur.part shard
  let set := tensorLabel u.fw u.dev u.dev.cur.part hw.base ||| l.lbl
  match o with
  | .read => (arborGet u.fw u.dev tr l.key).toOption.map fun x => ({ l with done := true, res := BitVec.ofNat 32 (x.getD 0), rlbl := set }, u.dev)
  | .test => (arborGet u.fw u.dev tr l.key).toOption.map fun x => ({ l with done := true, res := if x.isSome then 1 else 0, rlbl := set }, u.dev)
  | .store =>
    let val := if hw.vtype = 1 then l.data.toNat % 2 ^ 16 else l.data.toNat
    (arborPut u.fw u.dev tr l.key (fun _ => val) l.lbl).toOption.map fun x => ({ l with done := true }, x.2)
  | .add =>
    (arborPut u.fw u.dev tr l.key (fun y => addV hw.vtype y l.data.toNat) l.lbl).toOption.map fun x =>
      ({ l with done := true, res := BitVec.ofNat 32 x.1, rlbl := set }, x.2)
  | .iter =>
    (arborFrom u.fw u.dev tr (if l.start then 0 else l.key + 1)).toOption.map fun p =>
      let best := match p with
        | none => l.best
        | some (k, x) => if (match l.best with | some b => decide (b.1 ≤ k) | none => false) then l.best else some (k, BitVec.ofNat 32 x)
      let todo := l.todo.filter fun n => n != shard
      ({ l with best, todo, rlbl := l.rlbl ||| set, done := todo.isEmpty }, u.dev)
  | .extend => (arborExtend u.fw u.dev tr l.key l.data.toNat l.lbl).toOption.map fun d => ({ l with done := true }, d)

/-- What an Arbor operation gives its lanes once all are performed. -/
def arborRows (o : ArborOp) (v : Nat) (ls : List ArborLane) : List (Nat × OSet × List (Nat × Word)) :=
  match o with
  | .store => []
  | .extend => []
  | .iter => (ls.filter fun l => !l.atEnd).map fun l =>
      let flags := l.data &&& ~~~3#32
      (l.lane, l.rlbl, match l.best with
        | some (k, x) => [(v, BitVec.ofNat 32 k), (v + 1, BitVec.ofNat 32 (k / 2 ^ 32)), (v + 2, flags), (v + 3, x)]
        | none => [(v + 2, flags ||| 2), (v + 3, 0)])
  | _ => ls.map fun l => (l.lane, l.rlbl, [(v, l.res)])

/-- How many lanes of a traversal found a key, and the join of their sets; a lane that stood at its END brings the tensor's label (R123). -/
def iterCount (ls : List ArborLane) : Nat := (ls.filter fun l => !l.atEnd && l.best.isSome).length
def iterSet (u : State) (hw : Handle) (ls : List ArborLane) : OSet :=
  ls.foldl (fun s l => s ||| l.rlbl) (if ls.any (·.atEnd) then tensorLabel u.fw u.dev u.dev.cur.part hw.base else 0)

/-! ### Kudu rows (R281-R287) -/

/-- What one row reads and where it goes: bytes with their sets, the source's pieces, one destination piece that takes them all; every check of
R281, R130, R102, R105, R141 passes, the pages can be pinned (R131), and no row of a higher lane has written there (R284). -/
structure RowOk (u : State) (o : Op) (c : Kudu) (x : KuduDesc) (n : Nat) (bs : List (Byte × OSet)) (src : List Piece) (p : Piece) : Prop where
  command : c.rd = some x ∧ c.stale = false ∧ c.suspended = false ∧ c.fault = none
  open_ : rowOpen c x n = true
  free : rowFree c x n = true
  read : ∃ d d', rowRead u.fw u.dev o c x n = (.bytes bs src, d) ∧ rowReady d o src = true ∧
    engineRange u.fw (kuduDstNeed x) true (rowAddrs c x n).2 x.len d = (.ok [p], d') ∧ (pinOp d' o.id (pieceEnts (src ++ [p]))).isSome = true
  whole : p.off = 0 ∧ p.len = bs.length ∧ p.host = false ∧ p.admits (joinOf bs) = true
  first : c.kind = .copy ∨ c.perf = []
  clean : u.dev.badU = [] ∧ u.dev.badCorr = [] ∧ u.dev.cur.badS = [] ∧ u.dev.cur.badV = []

/-- The command after row n: the committed position passes every row performed, and the later ones are remembered (R282, R285). -/
def afterRow (c : Kudu) (n : Nat) : Nat := advance (n :: c.perf) (c.perf.length + 1) c.committed

/-! ### Physical ranges -/

/-- Bytes at physical addresses a.. are bs, every other byte is as before. -/
structure Bytes (u t : State) (a : Nat) (bs : List Byte) : Prop where
  value : memBytes t.dev.mem a bs.length = bs
  others : ∀ c, c < a ∨ a + bs.length ≤ c → byteAt t c = byteAt u c

/-- n bytes at va lie in one page of partition p, which firmware may reach as it needs: its translation (R353). -/
def onPage (s : State) (p : Nat) (need : Need) (va : Dword) (n : Nat) : Option TlbEnt :=
  match fwXl s.fw s.dev p need va with
  | .ok e => if n ≠ 0 ∧ va.toNat % 65536 + n ≤ 65536 then some e else none
  | _ => none

/-! ### The matrix engine (R51-R62, R291-R307) -/

/-- A register lane as the matrix engine reads it: lanes beyond the team read 0 (R294). -/
def tileLane (u : State) (v l : Nat) : LVal := if l < u.dev.cur.lanes then lane u v l else {}
/-- n registers of a lane: their bytes, and the join of their sets. -/
def laneBytes (u : State) (v n l : Nat) : List Nat := wordsBytes ((List.range n).map fun j => (tileLane u (v + j) l).val)
def laneSet (u : State) (v n l : Nat) : OSet := (List.range n).foldl (fun s j => s ||| u.dev.cur.org (tileLane u (v + j) l).lbl) 0

/-- The block of row r and the block of column c (R295): a row is one lane's sixteen registers, a column eight registers of two lanes. -/
def mmaA (u : State) (va w r : Nat) : List Nat := laneBytes u va 16 (32 * w + r)
def mmaB (u : State) (vb w c : Nat) : List Nat := laneBytes u vb 8 (32 * w + 2 * c) ++ laneBytes u vb 8 (32 * w + 2 * c + 1)
def mmaBSet (u : State) (vb w : Nat) : OSet := (List.range 32).foldl (fun s l => s ||| laneSet u vb 8 (32 * w + l)) 0

/-- The active rows of a row word. -/
def activeRows (rows : BitVec 32) : List Nat := (List.range 32).filter fun r => rows.getLsbD r

/-- Whether cell (r, c) has a partial: an active row, and neither block zero (R53). -/
def hasPartial (rows : BitVec 32) (A B : Nat → List Nat) (r c : Nat) : Bool :=
  decide (r < 32) && decide (c < 16) && rows.getLsbD r && blkByte (A r) 0 != 0 && blkByte (B c) 0 != 0

/-- The exponent of the tile after an MMA (R56): the largest of the partials' and its own; its own when there is no partial. -/
def mmaTop (x : Tile) (rows : BitVec 32) (A B : Nat → List Nat) : Option Int :=
  ((List.range 32).flatMap fun r => (List.range 16).filterMap fun c => if hasPartial rows A B r c then some (blkExp (A r) + blkExp (B c)) else none).foldl
    (fun m e => match m with | none => some e | some y => some (max y e)) x.xmax

/-- One entry after an MMA (R56): aligned to the new grid, then the partial's value rounded to it added or subtracted, saturating; a saturated
entry keeps its value. -/
def mmaEntry (x : Tile) (op : Int) (rows : BitVec 32) (A B : Nat → List Nat) (r c : Nat) : Int × Bool :=
  match mmaTop x rows A B with
  | none => (x.e r c, x.isSat r c)
  | some top =>
    if x.isSat r c then (x.e r c, true)
    else
      let e := match x.xmax with | some m => if m < top then rneShift (x.e r c) (top - m).toNat else x.e r c | none => x.e r c
      if hasPartial rows A B r c then satInt (e + op * rneGrid (blkDot (A r) (B c)) (-400) (top - 28)) 64 else (e, false)

/-- The engine that an operation of a half runs on works (R367), its turn in the queue and on its tiles has come (R160, R57), and no accumulator word is in error. -/
structure EngineOk (u : State) (o : Op) (half : Nat) : Prop where
  works : (u.dev.core (u.dev.cur.core + half)).off = false
  turn : matrixTurn u.dev o = true
  sound : u.dev.cur.badT = []

/-- Tile t of a half after is x, and every other tile is as before. -/
structure TileIs (u t : State) (half n : Nat) (x : Tile) : Prop where
  tile : t.dev.cur.regs.tile half n = x
  others : ∀ k, k ≠ 64 * half + n → mget {} t.dev.cur.regs.tiles k = mget {} u.dev.cur.regs.tiles k

/-! ### The Belvedere's evaluations (R179-R188) -/

/-- The pages that TAPR reaches, when it can reach them all and none is being moved (R180, R132): rows, hold array and tensor descriptor; with these the
chain heads and rules of the rows that are not held; those rows. -/
def taprReach (u : State) (o : Op) (v : Session) (rows : List Nat) : Option (List Piece × List Piece × List TapRow × Dev) :=
  match tapPages u.fw (taprRanges v rows) u.dev with
  | (.ok ps, d1) =>
    let run := runningRows d1 o ps v rows
    match tapPages u.fw (run.map fun r => headRange v.desc (rmSlot r.m)) d1 with
    | (.ok hs, d2) =>
      let run := run.map fun r => { r with head := tapRead d2 o hs (v.desc.rules.toNat + 4 * rmSlot r.m) 4 }
      match tapPages u.fw (run.flatMap fun r => chainRange v.desc r.head) d2 with
      | (.ok cs, d3) => if tapHeld u.dev (ps ++ hs ++ cs) then none else some (ps, ps ++ hs ++ cs, run, d3)
      | _ => none
    | _ => none
  | _ => none

/-- The page of TAPE's row, and its first eight bytes (R188). -/
def tapeRow (u : State) (o : Op) (x : TapDesc) (row : Nat) : Option (List Piece × Nat × Dev) :=
  match tapPages u.fw [(BitVec.ofNat 64 (rowAt x row), 128, belR)] u.dev with
  | (.ok rs, d1) => if tapHeld u.dev rs then none else some (rs, tapRead d1 o rs (rowAt x row) 8, d1)
  | _ => none

/-- The pages that TAPE reaches once its row is seen to be held and its list to keep its rules, the row's first eight bytes and the head word of its
chain. -/
def tapeReach (u : State) (o : Op) (x : TapDesc) (row : Nat) : Option (List Piece × Nat × Nat × Dev) :=
  (tapeRow u o x row).bind fun r =>
    match tapPages u.fw [(BitVec.ofNat 64 (holdAt x row), 4, belR), (x.ftens, 64, belR), headRange x (rmSlot r.2.1)] r.2.2 with
    | (.ok hs, d2) =>
      let head := tapRead d2 o hs (x.rules.toNat + 4 * rmSlot r.2.1) 4
      match tapPages u.fw (chainRange x head) d2 with
      | (.ok cs, d3) => if tapHeld u.dev (r.1 ++ hs ++ cs) then none else some (r.1 ++ hs ++ cs, r.2.1, head, d3)
      | _ => none
    | _ => none

/-- TAPE's list in the scratchpad at byte off, when the row is held out under this tap and the list keeps its rules (R188). -/
def tapeFeatures (u : State) (x : TapDesc) (off m : Nat) : Option (SMap Word) :=
  let word := fun (j : Nat) => scrNat u.dev.cur.regs 0 (off + 4 * j) 4
  let es := (List.range (word 0)).map fun j => (word (4 + 2 * j), word (5 + 2 * j))
  if rmState m = 1 ∧ rmTap m = x.tapid ∧ word 0 ≤ 256 ∧ word 0 ≤ x.kk ∧ word 1 = 0 ∧ (∀ e ∈ es, e.1 < 2 ^ 17) then tapeList x.nf es none else none

/-- Nothing the operation reads is in error (R105). -/
def soundTeam (u : State) : Prop :=
  u.dev.badU = [] ∧ u.dev.badCorr = [] ∧ u.dev.cur.badS = [] ∧ u.dev.cur.badV = [] ∧ u.dev.cur.badT = []

/-! ### Host commands (R150-R153, R353, R354, R364) -/

/-- The command that queue q's entry becomes: its number, queue, partition, tag, completion address, NOTIFY. -/
def cmdOf (s : State) (bs : List Byte) : Cmd :=
  { id := s.fw.nextCmd, q := s.args.q, part := (mget {} s.fw.queues s.args.q).part.toNat, tag := BitVec.ofNat 32 (fieldAt bs 4 4),
    comp := BitVec.ofNat 64 (fieldAt bs 8 8), notify := decide (fieldAt bs 1 1 / 2 % 2 = 1), wait := .peer 0 }

/-- The partition of an entry's queue, and an operand of the entry by its offset (R152). -/
def queuePart (s : State) : Nat := (mget {} s.fw.queues s.args.q).part.toNat
def oper (bs : List Byte) (off n : Nat) : Nat := fieldAt bs off n
def operVa (bs : List Byte) (off : Nat) : Dword := BitVec.ofNat 64 (fieldAt bs off 8)

/-- Limamon takes the entry bs of queue q as command i: it is the next, and its queue has the turn (R150, R151, R153); its completion address
can be written (R152). -/
structure Takes (i : Instr) (s : State) (bs : List Byte) : Prop where
  fresh : s.args.op = 0
  entry : nextEntry s.fw s.dev s.args.q = some bs
  code : entryInstr bs = some i
  turn : queueTurn s.fw s.dev s.args.q = true
  comp : compOk s.fw s.dev (queuePart s) (cmdOf s bs).comp = true

/-- Who may issue each command, and the operand bytes it names, by offset and length (R353, R354, R364). -/
def commandForm : Instr → Option (Right × List (Nat × Nat))
  | .launch => some (.anyone, [(16, 8), (24, 8), (32, 4), (40, 8)])
  | .replay => some (.anyone, [(16, 4)])
  | .patch => some (.anyone, [(16, 4), (20, 2), (24, 8), (32, 4)])
  | .copy => some (.anyone, [(16, 8), (24, 8), (32, 8), (40, 1)])
  | .fill => some (.anyone, [(16, 8), (24, 8), (32, 8)])
  | .signal => some (.anyone, [(16, 8), (24, 8)])
  | .waitv => some (.anyone, [(16, 8), (24, 8), (32, 1)])
  | .invlPageCommand => some (.anyone, [(16, 1), (24, 8), (32, 2)])
  | .invlAsidCommand => some (.anyone, [(16, 1), (24, 8), (32, 2)])
  | .invlPartitionCommand => some (.anyone, [(16, 1), (24, 8), (32, 2)])
  | .qset => some (.physical, [(16, 4), (20, 1), (21, 1), (22, 1), (23, 1), (24, 8), (32, 2), (34, 1), (36, 4), (40, 4), (44, 4)])
  | .partCreate => some (.physical, [(16, 1), (17, 1), (24, 8)])
  | .partHalt => some (.physical, [(16, 1), (17, 1)])
  | .partReset => some (.physical, [(16, 1), (17, 1)])
  | .fmap => some (.physical, [(16, 1), (17, 1), (24, 16)])
  | .map => some (.physical, [(16, 1), (20, 4), (24, 32)])
  | .origin => some (.physical, [(16, 1), (17, 1), (24, 8)])
  | .peer => some (.physical, [(16, 2), (18, 1), (24, 8), (32, 1)])
  | .fwload => some (.physical, [(16, 8), (24, 8)])
  | .policy => some (.own, [(16, 1), (24, 8), (32, 4)])
  | .clear => some (.own, [(16, 1)])
  | .spnew => some (.own, [(16, 8), (24, 8), (32, 8), (40, 4)])
  | .graph => some (.own, [(16, 4), (20, 4), (24, 8), (32, 8)])
  | .windowRegister => some (.own, [(16, 4), (20, 1), (24, 8), (32, 4)])
  | .windowDeregister => some (.own, [(16, 4), (20, 1), (24, 8), (32, 4)])
  | .samplerEnable => some (.own, [(16, 1), (24, 4), (28, 2), (32, 8)])
  | .samplerDisable => some (.own, [(16, 1), (24, 4), (28, 2), (32, 8)])
  | .queryPartition => some (.own, [(16, 1), (24, 8), (32, 32)])
  | .queryQuote => some (.own, [(16, 1), (24, 8), (32, 32)])
  | .restore => some (.own, [(16, 8)])
  | .halt => some (.debug, [(16, 4)])
  | .resume => some (.debug, [(16, 4)])
  | .dbgset => some (.debug, [(16, 4), (24, 8), (32, 8), (40, 8)])
  | .dumpOneTeam => some (.debug, [(16, 1), (20, 4), (24, 8), (32, 8)])
  | .dumpEveryTeam => some (.debug, [(16, 1), (20, 4), (24, 8), (32, 8)])
  | .errlog => some (.debug, [(24, 8)])
  | .throttle => some (.debug, [(24, 8)])
  | _ => none

/-- It is also well formed and allowed: no reserved bit set (R151), privileged as the command asks (R354, R364), every byte that it does not
name 0; no page is being moved. -/
structure Taken (i : Instr) (s : State) (bs : List Byte) : Prop extends Takes i s bs where
  bits : fieldAt bs 1 1 < 4 ∧ fieldAt bs 2 2 = 0
  right : ∀ x, commandForm i = some x → x.1.ok s.fw s.args.q = true
  named : ∀ x, commandForm i = some x → namedOnly (bs.drop 16) x.2 = true
  still : (s.dev.frames.any fun p => p.2.mig != 0) = false

/-- The firmware's tables with the entry taken: HEAD has passed it. -/
def takenFw (s : State) : Fw :=
  { s.fw with queues := mupd {} s.fw.queues s.args.q fun y => { y with head := y.head + 1 }, nextCmd := s.fw.nextCmd + 1,
              lastQ := mset 0 s.fw.lastQ (mget {} s.fw.queues s.args.q).prio.toNat s.args.q }

/-- Command i has its effect, the tables w and the machine d, and completes with a status (R152). -/
def Ends (i : Instr) (s : State) (bs : List Byte) (st : Nat) (w : Fw) (d : Dev) : Prop :=
  exec i s = .next { s with fw := w, dev := completion w d (cmdOf s bs) st }

/-- Command i has its effect and is in flight, waiting (R152). -/
def Waits (i : Instr) (s : State) (bs : List Byte) (x : CmdWait) (w : Fw) (d : Dev) : Prop :=
  exec i s = .next { s with fw := w, dev := { d with cmds := d.cmds ++ [{ cmdOf s bs with wait := x }] } }

/-- A command in flight goes on and completes with a status. -/
def Finishes (i : Instr) (s : State) (c : Cmd) (st : Nat) (w : Fw) (d : Dev) : Prop :=
  exec i s = .next { s with fw := w, dev := completion w { d with cmds := d.cmds.filter fun x => x.id != c.id } c st }

/-- The device d after a change of translations: only what the cores cache, and the places that armed monitors watch, differ (R136, R137, R147). -/
def Retranslated (s d : Dev) : Prop :=
  { d with cores := s.cores, cur := s.cur, rest := s.rest } = s ∧ still d.cur = still s.cur ∧ d.rest.map still = s.rest.map still

/-- The machine with another device, for what is said of one that a command leaves. -/
def onDev (s : State) (d : Dev) : State := { s with dev := d }

/-- The limits of R8, and instruction addresses (R231). -/
structure DeclLimits (k : Decl) : Prop where
  group : k.group = 8 ∨ k.group = 16 ∨ k.group = 32 ∨ k.group = 64
  lanes : 8 ≤ k.lanes ∧ k.lanes ≤ 1024 ∧ k.lanes % k.group = 0
  vregs : 1 ≤ k.vregs ∧ k.vregs ≤ 124
  scratch : k.scratch ≤ 3538944 ∧ k.scratch % 256 = 0
  acc : k.acc ≤ 48
  code : k.entry.toNat % 4 = 0 ∧ k.handler.toNat % 4 = 0

/-- A launch that Limamon accepts: partition, number, priority, declarations, argument, teams, exit array, and what it belongs to (R153, R154). -/
def newLaunch (s : State) (part prio : Nat) (k : Decl) (arg : Dword) (count : Nat) (exits : Dword) (cmd graph : Option Nat) : Launch :=
  { key := s.dev.nextKey, part, launchId := BitVec.ofNat 32 (mget 0 s.fw.nextLaunch part), prio, decl := k, arg, count, exits, left := count, cmd, graph }

/-- The list with an item behind those of its priority (R154), or before them (R159). -/
def listedBehind (d : Dev) (x : ListItem) (p : Nat) : List ListItem :=
  d.list.filter (fun y => decide (p ≤ y.prio d)) ++ [x] ++ d.list.filter fun y => decide (y.prio d < p)
def listedBefore (d : Dev) (x : ListItem) (p : Nat) : List ListItem :=
  d.list.filter (fun y => decide (p < y.prio d)) ++ [x] ++ d.list.filter fun y => decide (y.prio d ≤ p)

/-- A measurement register extended by data, by its step of R360. -/
def extended (fw : Fw) (n : Nat) (data : List Byte) : List Byte :=
  fitBytes 64 (Config.shake256 (fitBytes 64 (mget [] fw.mr n) ++ Config.shake256 data 64) 64)

/-- Team t as a change f of team m, and every other team as it was. -/
structure OneTeam (s t : State) (m : Team) (f : Team → Team) : Prop where
  teams : t.dev.teams = s.dev.teams.map fun x => if x.key = m.key then f x else x
  rest : { t.dev with cur := s.dev.cur, rest := s.dev.rest } = s.dev

/-- The teams that lie in their save areas (R159). -/
def swapped (d : Dev) : List Swapped := d.list.filterMap fun i => match i with
  | .restore x => some x
  | .launch _ => none

/-- A team at its group's first word, without its places, what it is still to be moved on, and its turn in the active set. -/
def unplaced (t : Team) : Team := { t.atFirst with active := false, runs := [], slide := [] }

/-! ### Saves (R227-R229) -/

/-- What a save that may be taken now keeps: at a LIVE point what its words name, when the team has reached it before PREEMPT_LIMIT has passed; as a full
save everything, from then on. -/
def saveKept (i : Instr) (u : State) : Option Machine.Kept :=
  let t := u.dev.cur
  match i with
  | .save =>
    if (t.save = some .atPoint ∨ t.save = some .live ∧ elapsed u.dev t.saveAt < (u.fw.part t.part).plim.toNat) ∧ u.fw.goes t.part = true ∧ t.savable = true ∧
        atLive u.fw u.dev = true then some (keptLive ((u.dev.whole u.fw).filter isLive)) else none
  | .fullSave =>
    if (t.save = some .full ∨ t.save = some .live ∧ (u.fw.part t.part).plim.toNat ≤ elapsed u.dev t.saveAt) ∧ u.fw.goes t.part = true ∧
        t.between = true ∧ t.savable = true then some (keptFull t.decl) else none
  | _ => none

/-- What a save that drains is from then on (R227): one that stays at its LIVE point, or a full one. -/
def drainsAs (i : Instr) : SaveWant := if i = .fullSave then .full else .atPoint

/-- The team that a save writes: its streams suspended, what has finished retired, at its group's first word (R240). -/
def writtenTeam (i : Instr) (u : State) : Team :=
  (suspendAll { u.dev.cur with save := some (drainsAs i) }).leaveDone.atFirst

end Sys2Proof.Safety
end

