-- ==== Sys2Proof/Certificates/Slice0/Obligations.lean ====
section
/-! DEFINITION. The statements for the provers: encoding, the step, reset and invariants; then each family of words; then the operations and
events that no word encodes. -/
open Sys2Proof Sys2Proof.Machine Sys2Proof.Safety

/-! ### Encoding -/

/-- Words written out from the formats of R233-R237 decode to the instructions they stand for, and words of no instruction to none. -/
def Obligations.decode_words : Prop :=
  decodeWord 0b00000000000000000000000000000000 = some .nop ∧
  decodeWord 0b111111_11111111111111111111111111 = none ∧
  decodeWord 0b000000_0000_0000000000000000000001 = none ∧
  decodeWord 0b000010_0001_1111111111111111111101 = some (.bcc .ne (-3)) ∧
  decodeWord 0b000101_0001_000111_0000000000000000 = some (.jmpr 7) ∧
  decodeWord 0b001000_000011_000100_11111111111111 = some (.saddi 3 4 (-1)) ∧
  decodeWord 0b101000_0000_0101_00000011_0000000000 = some (.wait 5 3) ∧
  decodeWord 0b110101_0000_000010_0000011_000100_000 = some (.lblget 2 3 4)

/-- R234-R239: no bit of an encoding is dropped. -/
def Obligations.decode_encode : Prop := ∀ i w, i.wf = true → encode i = some w → w < 2 ^ 32 ∧ decodeWord w = some i

/-- R243: a word that decodes has every reserved bit, code and register number as R233-R242 have it: it is the encoding of a well-formed
instruction, and of no other. -/
def Obligations.encode_decode : Prop := ∀ w i, w < 2 ^ 32 → decodeWord w = some i → i.wf = true ∧ encode i = some w

/-! ### The step -/

/-- R231, R232, R18, R157, R19: the team that the schedule names fetches the word at its pc; where it decodes, the step is exec of that instruction on the
machine that the fetch leaves, which knows what the word may stall for, and the cycles of the position pass. A team that joins the cycle of another,
as the next in the order of choice that can, runs its word in the same way, in that cycle. The word is the one that memory holds at the pc's
translation, unless the core's instruction cache has its line; the fetch fills that line, and the TLB of the translation, and notes the errors it
corrects and the misses. -/
def Obligations.step_runs_decoded : Prop :=
  (∀ (s : State) (key : Nat) (r : List Act) (d d1 : Dev) (w : Nat) (i : Instr),
    s.sched = .issue key :: r → s.dev.frozen = false → s.dev.focus key = some d → mayIssue s.fw d d.cur = true →
    fetch s.fw d = .word w d1 → decodeWord w = some i →
    Machine.step s = issued d1.cur.key d1.cur.pc (jointOf s.fw d1 i) (exec i { s with sched := r, dev := begins i d1 })) ∧
  (∀ (s : State) (key : Nat) (r : List Act) (d d1 : Dev) (j : Joint) (w : Nat) (i : Instr),
    s.sched = .join key :: r → s.dev.frozen = false → s.dev.joint = some j → s.dev.focus key = some d →
    fetch s.fw (inJoint j d) = .word w d1 → decodeWord w = some i → mayJoin s.fw d1 j i = true → joinsNext s.fw d j key = true →
    Machine.step s = joined d1.cur.pc s.dev.time j (exec i { s with sched := r, dev := begins i d1 })) ∧
  (∀ (w : Fw) (d d1 : Dev) (e : TlbEnt), let t := d.cur
    let pa := e.pa t.pc
    inScratch t.pc = false → inRegWin t.pc = false → translate w d t.core t.part { x := true } t.pc = (.ok e, d1) → badAt d1 pa 4 = false →
    mfind (d1.core t.core).ic (pa / 128) = none →
    ∃ cs ks, fetch w d = .word (memNat d1.mem pa 4) { noteCorr d1 e.mi pa 4 with cores := cs, causes := ks } ∧
      (∀ k, k ∈ ks ↔ k ∈ d1.causes ∨ k = 5 ∨ k = 9 ∧ tlbFind d t.core t.part 0 (vpnOf t.pc) = none) ∧
      ∀ c, (mget {} cs c).tlb = (d1.core c).tlb ∧ (mget {} cs c).l1 = (d1.core c).l1 ∧ (c ≠ t.core → (mget {} cs c).ic = (d1.core c).ic))

/-- R243, R219: a word that is no instruction takes the illegal-instruction trap with the word in TINFO0. -/
def Obligations.illegal_word_traps : Prop :=
  ∀ (s : State) (key : Nat) (r : List Act) (d : Dev) (w : Nat) (d1 : Dev),
    s.sched = .issue key :: r → s.dev.frozen = false → s.dev.focus key = some d → mayIssue s.fw d d.cur = true →
    fetch s.fw d = .word w d1 → decodeWord w = none → d1.cur.decl.handler ≠ 0 → d1.cur.wait = .ready → d1.cur.ops = [] →
    ∃ t, Machine.step s = issued d1.cur.key d1.cur.pc none (.next { s with sched := r, dev := t }) ∧ t.cur.sp.tcause = 1 ∧ t.cur.sp.tinfo0 = BitVec.ofNat 64 w ∧
      t.cur.sp.tpc = d1.cur.first &&& ~~~3 ∧ t.cur.pc = d1.cur.decl.handler ∧ t.mem = d1.mem

/-! ### Reset and invariants -/

/-- R371: what reset leaves. The registers that the manual gives no reset value are at the values of entries 3, 5 and 24.
Reset meets the firmware's invariant. -/
def Obligations.reset_state : Prop :=
  (let s := State.reset
  s.dev.time = 0 ∧ s.dev.frozen = false ∧ s.dev.cur.live = false ∧ s.dev.rest = [] ∧ s.dev.list = [] ∧ s.dev.cmds = [] ∧
  (∀ q, (mget {} s.fw.queues q).state = 0) ∧ (∀ p, (s.fw.part p).state = 0) ∧ (∀ n, (mget {} s.fw.policy n).valid = false) ∧
  (∀ f, (s.dev.frame f).v = false) ∧ (∀ a, byteAt s a = 0)) ∧
  (FirmwareInv State.reset.fw)

/-- R172, R360: every step keeps the firmware's invariant, the debug port's accesses to a frozen package (R362) apart. -/
def Obligations.step_keeps_firmware : Prop :=
  ∀ s t, FirmwareInv s.fw → (s.dev.frozen = false ∨ ∀ x r, s.sched ≠ .event .debugPortAccess x :: r) → Machine.step s = .next t → FirmwareInv t.fw

/-- No instruction word changes a table of the firmware or the hosts: partitions, origins, Lodge policies, frame maps, queues, measurements. -/
def Obligations.words_leave_firmware : Prop := ∀ i s t, (encode i).isSome = true → exec i s = .next t → t.fw = s.fw

/-! ### Scalar, vector and mask words -/

/-- R75: the index of a set is the one whose entry holds it, else the lowest empty one, which takes it; index 0 is the empty set. No index is found only when the set is not empty and all
fifteen entries hold other sets. -/
def Obligations.label_table : Prop :=
  (∀ (t : Team) (set : OSet) (i : Lbl) (ls : SMap OSet), allocLabel t.regs.labels set = some (i, ls) →
    ({ t with regs := { t.regs with labels := ls } } : Team).org i = set ∧ (set = 0 ↔ i = 0) ∧
    (∀ n, 1 ≤ n → n ≤ 15 → n ≠ i.toNat → mget 0 ls n = mget 0 t.regs.labels n) ∧
    (∀ n, 1 ≤ n → n < i.toNat → mget 0 t.regs.labels i.toNat = 0 → mget 0 t.regs.labels n ≠ 0 ∧ mget 0 t.regs.labels n ≠ set) ∧
    (set ≠ 0 → mget 0 t.regs.labels i.toNat = set ∨ mget 0 t.regs.labels i.toNat = 0)) ∧
  (∀ (ls : SMap OSet) (set : OSet), allocLabel ls set = none ↔ set ≠ 0 ∧ ∀ n, 1 ≤ n → n ≤ 15 → mget 0 ls n ≠ 0 ∧ mget 0 ls n ≠ set)

/-- R250, R251, R66, R67: the scalar operations, their flags with the S bit, and the label of the result. R250, R251: the compares write the codes and nothing else. -/
def Obligations.scalar_results : Prop :=
  (∀ (i : Instr) (s : State) (x : ScalarSpec), scalarSpec i s = some x → Plain i s →
    (x.d = 63 ∨ (allocLabel s.dev.cur.regs.labels x.set).isSome) →
    ∃ t, exec i s = .next t ∧ PutScalar s t x.d x.val x.set ∧ At t (s.dev.cur.pc + 4) .ready ∧ Kept s t [x.d] [] [] [] ∧
      Quiet s t (x.codes.getD s.dev.cur.regs.cc) 0) ∧
  (∀ (i : Instr) (s : State) (c : CC), compareSpec i s = some c → Plain i s →
    ∃ t, exec i s = .next t ∧ At t (s.dev.cur.pc + 4) .ready ∧ Kept s t [] [] [] [] ∧ Quiet s t c 0 ∧
      t.dev.cur.regs.labels = s.dev.cur.regs.labels)

/-- R264, R265, R317-R319, R77: scalars read out of masks, labels, special registers and graph parameters. -/
def Obligations.scalar_reads : Prop :=
  ∀ (i : Instr) (s : State) (x : ScalarSpec), readSpec i s = some x → Plain i s → (x.link = true → Met s) →
    (x.d = 63 ∨ (allocLabel s.dev.cur.regs.labels x.set).isSome) →
    ∃ t, exec i s = .next t ∧ PutScalar s t x.d x.val x.set ∧ At t (s.dev.cur.pc + 4) .ready ∧ Kept s t [x.d] [] [] [] ∧
      Quiet s t s.dev.cur.regs.cc x.stat

/-- R246, R219: a scalar result whose set finds no entry raises the label-table-full trap, with the set in TINFO0.
R245, R246: a vector result with a lane that finds no entry raises the label-table-full trap before any register or flag changes; k14 holds
the lanes that needed a new set. -/
def Obligations.label_full_traps : Prop :=
  (∀ (i : Instr) (s : State) (x : ScalarSpec), scalarSpec i s = some x ∨ readSpec i s = some x → Plain i s → (x.link = true → Met s) →
    x.d ≠ 63 → allocLabel s.dev.cur.regs.labels x.set = none →
    Raises i s (atIssue s 0x0C (allLanes s.dev.cur.lanes) (x.set.setWidth 64) 0)) ∧
  (∀ (i : Instr) (s : State) (x : VectorSpec), vectorSpec i s = some x ∨ vectorImmSpec i s = some x ∨ vectorFpSpec i s = some x ∨ crossSpec i s = some x →
    Plain i s → x.full s ≠ [] →
    Raises i s (atIssue s 0x0C (lanesMask (needLanes s.dev.cur.regs.labels (x.needs s))) ((x.fullSet s).setWidth 64) 0))

/-- R252, R245, R75: the integer operations on vector registers, lane by lane. R260, R261: the forms with an immediate and with a scalar. -/
def Obligations.vector_results : Prop :=
  (∀ i s x, vectorSpec i s = some x → GivesVector i s x) ∧
  (∀ i s x, vectorImmSpec i s = some x → GivesVector i s x)

/-- R253-R257, R38: floating point, BF16 pairs and conversions. R266-R269: shuffles, scans, reductions and conflict detection within groups. -/
def Obligations.vector_float_results : Prop :=
  (∀ i s x, vectorFpSpec i s = some x → GivesVector i s x) ∧
  (∀ i s x, crossSpec i s = some x → GivesVector i s x)

/-- R258, R264, R265, R317, R12: results in masks, whose lanes at or beyond the team width read 0. -/
def Obligations.mask_results : Prop :=
  ∀ (i : Instr) (s : State) (x : MaskSpec), maskSpec i s = some x → Plain i s → (x.link = true → Met s) →
    ∃ t, exec i s = .next t ∧ (∀ l, l < 1024 → (mask t x.d).getLsbD l = (decide (l < s.dev.cur.lanes) && x.val l)) ∧
      At t (s.dev.cur.pc + 4) .ready ∧ Kept s t [] [] [x.d] [] ∧ Quiet s t s.dev.cur.regs.cc (lost s x.srcs)

/-! ### Control -/

/-- R247-R249, R231, R236: where each transfer goes, when it is taken, and the link; a taken transfer ends a run (R27).
R231, R249, R222: a register target that is no multiple of 4 raises the alignment trap at the jumping position, with the target in
TINFO0 and no link written. -/
def Obligations.transfers : Prop :=
  (∀ (i : Instr) (s : State) (x : TransferSpec), transferSpec i s = some x → Plain i s → (x.exch = true → Met s) →
    (x.reg = true → x.target.toNat % 4 = 0) →
    ∃ t, exec i s = .next t ∧ At t x.target .ready ∧ Kept s t (if x.link then [62] else []) [] [] [] ∧ Quiet s t s.dev.cur.regs.cc 0 ∧
      (x.link = true → scalar t 62 = { val := s.dev.cur.pc + 4, lbl := 0 }) ∧
      t.dev.cur.runOpen = (s.dev.cur.runOpen && !x.taken) ∧ t.dev.cur.regs.labels = s.dev.cur.regs.labels) ∧
  (∀ (i : Instr) (s : State) (x : TransferSpec), transferSpec i s = some x → Plain i s → x.reg = true → x.target.toNat % 4 ≠ 0 →
    Raises i s (atIssue s 6 s.dev.k0 x.target 0))

/-- R239, R27, R133: a hint word joins the group of the next instruction, one position on; RUN opens a run of its count plus one positions after it, REGION sets the restart point.
R240, R219: the 65th consecutive hint word is illegal. -/
def Obligations.hint_words : Prop :=
  (∀ (i : Instr) (s : State), Instr.isHint i = true → s.dev.cur.hints.length < 64 →
    ∃ t, exec i s = .next t ∧ t.dev.cur.hints = s.dev.cur.hints ++ [i] ∧ t.dev.cur.hgrp = s.dev.cur.first ∧ t.dev.cur.pc = s.dev.cur.pc + 4 ∧
      t.dev.cur.pos = s.dev.cur.pos + 1 ∧ t.dev.cur.wait = s.dev.cur.wait ∧ Kept s t [] [] [] [] ∧ Quiet s t s.dev.cur.regs.cc 0 ∧
      (∀ n, i = .run n → t.dev.cur.runOpen = true ∧ t.dev.cur.runEnd = s.dev.cur.pos + 1 + n.toNat) ∧
      (i = .region → t.dev.cur.restart = s.dev.cur.first)) ∧
  (∀ (i : Instr) (s : State) (w : Nat), Instr.isHint i = true → s.dev.cur.hints.length = 64 → encode i = some w →
    s.dev.cur.wait = .ready → Raises i s (atIssue s 1 s.dev.k0 (BitVec.ofNat 64 w) 0))

/-- R36, R247: DLY passes n positions and keeps the team from issuing; EXIT ends issue and waits for the tokens. -/
def Obligations.delay_and_exit : Prop :=
  (∀ (n : BitVec 8) (s : State), Plain (.dly n) s →
    ∃ t, exec (.dly n) s = .next t ∧ At t (s.dev.cur.pc + 4) (if n.toNat ≤ 1 then .ready else .dly s.dev.time.toNat n.toNat) ∧
      t.dev.cur.pos = s.dev.cur.pos + n.toNat ∧ Kept s t [] [] [] [] ∧ Quiet s t s.dev.cur.regs.cc 0) ∧
  (∀ s : State, Plain .exit s →
    ∃ t, exec .exit s = .next t ∧ t.dev.cur.wait = .exit 0 none ∧ t.dev.cur.pc = s.dev.cur.pc ∧ Kept s t [] [] [] [] ∧
      t.dev.cur.ops = s.dev.cur.ops.map resumeOp)

/-- R222, R219, R323, R220: the words TRAP and BRK. TRAP raises the trap of cause 3 with TPC at the next position, BRK the trap of cause 2 where BPEN is set. Entry
follows the drain, and writes the saved registers, k15, k14 and k0. -/
def Obligations.trap_words : Prop :=
  (∀ (c : BitVec 16) (s : State), Plain (.trap c) s →
    Raises (.trap c) s { cause := 3, tpc := s.dev.cur.pc + 4, k14 := s.dev.k0, ti0 := immZ s.dev c.toNat 16, ti1 := 0 }) ∧
  (∀ s : State, Plain .brk s → s.dev.cur.olds (.spec 0x20) = [] → s.dev.cur.sp.dbgctl.getLsbD 1 = true →
    Raises .brk s (atIssue s 2 s.dev.k0 0 0)) ∧
  (∀ s : State, Plain .brk s → s.dev.cur.olds (.spec 0x20) = [] → s.dev.cur.sp.dbgctl.getLsbD 1 = false →
    ∃ t, exec .brk s = .next t ∧ At t (s.dev.cur.pc + 4) .ready ∧ Kept s t [] [] [] [] ∧ Quiet s t s.dev.cur.regs.cc 0) ∧
  (∀ c : BitVec 16, encode (.trap c) = some (5 * 2 ^ 26 + 4 * 2 ^ 22 + c.toNat) ∧ encode .brk = some (5 * 2 ^ 26 + 5 * 2 ^ 22))

/-- R223: RETH with HANDLING set restores k0 from k15, clears HANDLING, resumes the streams that trap entry suspended, ends a run, and goes
on at TPC. R324, R219: its word; with HANDLING clear it is an illegal instruction. -/
def Obligations.trap_returns : Prop :=
  (∀ s : State, Plain .reth s → s.dev.cur.sp.handling = true → s.dev.cur.olds (.spec 0x11) = [] → s.dev.cur.olds (.k 15) = [] →
    ∃ t, exec .reth s = .next t ∧ At t s.dev.cur.sp.tpc .ready ∧ mask t 0 = mask s 15 ∧ (∀ r, r ≠ 0 → mask t r = mask s r) ∧
      t.dev.cur.sp = { s.dev.cur.sp with handling := false } ∧ t.dev.cur.ops = s.dev.cur.ops.map resumeOp ∧
      t.dev.cur.runOpen = false ∧ Untouched s t) ∧
  (∀ (s : State) (w : Nat), Plain .reth s → s.dev.cur.sp.handling = false → encode .reth = some w →
    w = 5 * 2 ^ 26 + 6 * 2 ^ 22 ∧ Raises .reth s (atIssue s 1 s.dev.k0 (BitVec.ofNat 64 w) 0))

/-! ### Memory words -/

/-- R270-R276, R29, R30, R273: a memory word whose accesses all pass the checks posts its operation, with each lane's address, data and labels.
R117-R119, R121, R125, R108, R320: the words through a tensor handle post the operation of the lanes within bounds, each with its element's
address or key; a lane outside gives error status. STH, SPADD and SPEXT on a sparse tree hold the team until they are performed. -/
def Obligations.memory_posts : Prop :=
  (∀ i s p, memPost i s = some p → Plain i s → Posts i s p) ∧
  (∀ i s p, handlePost i s = some p → Plain i s → Posts i s p)

/-- R219, R273: of the causes of a memory word the lowest is raised. Where every page is reached, a lane's misaligned address raises the
alignment trap with the first such address in TINFO0 and those lanes in k14; where every access is aligned too, an address beyond the
scratchpad window raises the bound trap; else a label beyond a page's ceiling raises the ceiling trap and nothing is stored. -/
def Obligations.memory_checks : Prop :=
  ∀ (i : Instr) (s : State) (x : MemSpec), memSpec i s = some x → Plain i s → s.dev.cur.count x.q < 255 →
    let rs := outcomes s x.need true x.regs x.wants
    let mis := x.wants.filter fun w => w.va.toNat % x.align ≠ 0
    let out := rs.filter fun r => match r.2 with | .bound _ => true | _ => false
    let above := rs.filter fun r => match r.2 with | .ok _ (some e) => decide ((r.1.lbl ||| r.1.albl) &&& ~~~e.ceil ≠ 0) | _ => false
    (∀ r ∈ rs, (∀ a b, r.2 ≠ .refused a b) ∧ ∀ a, r.2 ≠ .missing a) →
    (∀ w l, mis = w :: l → Raises i s (atIssue s 6 (s.dev.cur.laneMask (mis.map (·.lane))) w.va 0)) ∧
    (∀ r l n, mis = [] → out = r :: l → r.2 = .bound n →
      Raises i s (atIssue s 7 (s.dev.cur.laneMask (out.map (·.1.lane))) r.1.va (BitVec.ofNat 64 n))) ∧
    (∀ r l p e, mis = [] → out = [] → x.need.w = true → (∀ r ∈ rs, clobbers s.dev.cur.regs r = none) → above = r :: l → r.2 = .ok p (some e) →
      Raises i s (atIssue s 9 (s.dev.cur.laneMask (above.map (·.1.lane))) r.1.va (e.ceil.setWidth 64)))

/-- R29: an instruction that would give its token a 256th operation raises the token-overflow trap before any other effect. -/
def Obligations.token_overflow : Prop :=
  ∀ (i : Instr) (s : State) (x : MemSpec), memSpec i s = some x → Plain i s → 255 ≤ s.dev.cur.count x.q →
    Raises i s (atIssue s 4 s.dev.k0 (BitVec.ofNat 64 x.q) 0)

/-- R281-R290, R160: the Kudu's and the windows' words post their commands; a KSTOP without streams completes at once, and a WWR of a length outside its limits completes at once in error.
R291-R307, R160: the matrix engine's words post their operations on the tiles of the half that holds the row word, pinning the pages
they reach.
R179, R188, R315: FSEL, TAPE and MERGEK post. -/
def Obligations.engine_posts : Prop :=
  (∀ i s p, transferPost i s = some p → Plain i s → Posts i s p) ∧
  (∀ i s p, matrixPost i s = some p → Plain i s → Posts i s p) ∧
  (∀ i s p, belvederePost i s = some p → Plain i s → Posts i s p)

/-- R286: KSTOP marks every live stream of its descriptor as stopping, and posts. -/
def Obligations.stream_stop : Prop :=
  ∀ (q : BitVec 4) (a : BitVec 6) (s : State), Plain (.kstop q a) s → room s q.toNat s.dev.cur.core inKudu 32 = true →
    let hit := (s.dev.cur.ops.filter (stopsFor (sval s.dev 1 a.toNat))).map (·.id)
    hit ≠ [] →
    ∃ t os, exec (.kstop q a) s = .next t ∧ At t (s.dev.cur.pc + 4) .ready ∧ Kept s t [] [] [] [] ∧
      sameOps t.dev.cur.ops (os ++ [newOp s (some q.toNat) (.kstop (sval s.dev 1 a.toNat) hit)]) ∧
      os.length = s.dev.cur.ops.length ∧
      ∀ n, (h : n < os.length) → (h' : n < s.dev.cur.ops.length) →
        (∀ c, s.dev.cur.ops[n].kind = .kudu c → s.dev.cur.ops[n].id ∈ hit → os[n] = { s.dev.cur.ops[n] with kind := .kudu { c with stopping := true } }) ∧
        (s.dev.cur.ops[n].id ∉ hit → os[n] = s.dev.cur.ops[n])

/-! ### Tap sessions (R177, R178, R180, R189, R190) -/

/-- R178, R160: TAPB opens the session: the descriptor's fields, the held rows and SC; an open session of the team is replaced. It holds the team until
the Belvedere has performed the commands that its queue accepted before. R180: TAPR posts the evaluation of the rows of kr and closes the session. -/
def Obligations.tap_sessions : Prop :=
  (∀ (a b c : BitVec 6) (q : BitVec 4) (s : State) (x : TapDesc × List Piece), Plain (.tapb a b c q) s → tapAt s (sval s.dev 1 a.toNat) true = some x →
    let sc := sval s.dev 3 c.toNat
    s.dev.cur.paired = false → scRow sc ≤ 4064 → 32 * scWord sc < s.dev.cur.lanes → sc.toNat / 4096 % 16 = 0 → sc.toNat / 2 ^ 20 % 4096 = 0 →
    (x.2.all fun p => s.dev.cur.writesDone s.dev.cur.nextOp p.tgt p.len) = true → s.dev.badU = [] → s.dev.badCorr = [] → s.dev.stores < 4 →
    room s q.toNat s.dev.cur.core inBelvedere 16 = true →
    let turn := s.dev.belTurn { s.dev.cur.self with seq := s.dev.free }
    (turn = true → s.dev.cur.ops = []) →
    ∃ t, exec (.tapb a b c q) s = .next t ∧ At t (s.dev.cur.pc + 4) (if turn then .ready else .held s.dev.cur.nextOp) ∧ Kept s t [] [] [] [] ∧
      sameOps t.dev.cur.ops (if turn then [] else s.dev.cur.ops ++ [newOp s (some q.toNat) .tapb]) ∧
      t.dev.cur.sessions = { id := s.dev.cur.nextOp, desc := x.1, hrow := sval s.dev 2 b.toNat, sc } :: s.dev.cur.sessions.filter fun u => !u.isOpen) ∧
  (∀ (d r : BitVec 4) (a : BitVec 6) (q : BitVec 4) (s : State) (u : Session), Plain (.tapr d r a q) s → s.dev.cur.session = some u →
    let sd := sval s.dev 1 a.toNat
    s.dev.cur.paired = false → room s q.toNat s.dev.cur.core inBelvedere 16 = true → inScratch sd = true →
    sd.toNat - 0xFFFFF00000000000 + 8 + 256 * (u.desc.kk + 64) ≤ s.dev.cur.decl.scratch →
    ∃ t, exec (.tapr d r a q) s = .next t ∧ At t (s.dev.cur.pc + 4) .ready ∧ Kept s t [] [] [] [] ∧
      sameOps t.dev.cur.ops (s.dev.cur.ops ++ [newOp s (some q.toNat) (.tapr u.id d.toNat ((kread s.dev 2 r.toNat).extractLsb' (32 * scWord u.sc) 32) sd
        (newSeq s.dev s.dev.cur.belUnit).1 (sorg s.dev 1 a.toNat))]) ∧
      ∀ v ∈ t.dev.cur.sessions, v.id = u.id → v.isOpen = false)

/-- R189, R168, R169: TAPL takes a row that is held out of the hold: its state becomes 2 under the descriptor's tap, its hold bit stays set, and no
other byte of memory changes. R190: TAPH gives the first eight bytes of a row map entry, with its page's set, after a package-scope acquire. -/
def Obligations.tap_rows : Prop :=
  (∀ (a b : BitVec 6) (s : State) (x : TapDesc) (ps rs : List Piece) (d : Dev), Plain (.tapl a b) s → tapAt s (sval s.dev 1 a.toNat) false = some (x, ps) →
    let row := (sval s.dev 2 b.toNat).toNat
    let pa := (placeOf rs (rowAt x row)).1
    let ha := (placeOf rs (holdAt x row)).1
    let m := memNat s.dev.mem pa 8
    row ≤ 4095 → tapPages s.fw [(BitVec.ofNat 64 (rowAt x row), 8, belRW), (BitVec.ofNat 64 (holdAt x row), 4, belRW)]
      (tapPages s.fw [(sval s.dev 1 a.toNat, 128, { belR with cls := .plain })] s.dev).2 = (.ok rs, d) →
    (ps.all fun p => s.dev.cur.writesDone s.dev.cur.nextOp p.tgt p.len) = true → s.dev.cur.released = true → s.dev.badU = [] → s.dev.badCorr = [] →
    rmState m = 1 → pa + 8 ≤ ha ∨ ha + 4 ≤ pa →
    ∃ t, exec (.tapl a b) s = .next t ∧ At t (s.dev.cur.pc + 4) .ready ∧ memNat t.dev.mem pa 8 = rmWith m 2 x.tapid (rmDepth m) ∧
      memNat t.dev.mem ha 4 = (memNat s.dev.mem ha 4 ||| 2 ^ (row % 32)) ∧
      (∀ c, (c < pa ∨ pa + 8 ≤ c) → (c < ha ∨ ha + 4 ≤ c) → byteAt t c = byteAt s c) ∧ (∀ r, scalar t r = scalar s r) ∧ ∀ r l, lane t r l = lane s r l) ∧
  (∀ (e a b : BitVec 6) (s : State) (x : TapDesc) (ps rs : List Piece) (d : Dev), Plain (.taph e a b) s → tapAt s (sval s.dev 1 a.toNat) false = some (x, ps) →
    let row := (sval s.dev 2 b.toNat).toNat
    let set := (s.dev.frame (placeOf rs (rowAt x row)).2).cur ||| sorg s.dev 1 a.toNat ||| sorg s.dev 2 b.toNat
    row ≤ 4095 → tapPages s.fw [(BitVec.ofNat 64 (rowAt x row), 8, belR)]
      (tapPages s.fw [(sval s.dev 1 a.toNat, 128, { belR with cls := .plain })] s.dev).2 = (.ok rs, d) →
    ((ps ++ rs).all fun p => s.dev.cur.writesDone s.dev.cur.nextOp p.tgt p.len) = true → s.dev.badU = [] → s.dev.badCorr = [] →
    (e.toNat = 63 ∨ (allocLabel s.dev.cur.regs.labels set).isSome) →
    ∃ t, exec (.taph e a b) s = .next t ∧ PutScalar s t e.toNat (BitVec.ofNat 64 (memNat s.dev.mem (placeOf rs (rowAt x row)).1 8)) set ∧
      At t (s.dev.cur.pc + 4) .ready ∧ Kept s t [e.toNat] [] [] [] ∧ Quiet s t s.dev.cur.regs.cc 0 ∧ Acquired t (some .pkg))

/-! ### Blocks, selection, special registers -/

/-- R308-R311, R316: every active lane takes its block, its 96 values, its header or its uniform number, with the join of its operands'
labels. -/
def Obligations.block_results : Prop :=
  ∀ (i : Instr) (s : State) (x : LanesSpec), lanesSpec i s = some x → Plain i s → i.wf = true → (x.alloc s).2.2.1 = [] →
    ∃ t, exec i s = .next t ∧ At t (s.dev.cur.pc + 4) .ready ∧ Kept s t [] ((List.range 128).filter fun r => s.dev.act.any fun l => (x.out l).any (·.1 == r)) [] [] ∧
      Quiet s t s.dev.cur.regs.cc 0 ∧
      (∀ l n, (l, n) ∈ (x.alloc s).1 → ∀ r v, (r, v) ∈ x.out l → r < 124 → lane t r l = { val := v, lbl := n }) ∧
      (∀ r l, l < 1024 → l ∉ s.dev.act → lane t r l = lane s r l) ∧ t.dev.cur.regs.labels = (x.alloc s).2.1

/-- R312, R313: SAMPLE draws a lane of the selection group, and its flags say whether it drew one and whether a weight was negative or NaN. The
lane that an infinite total draws is the model's free value (entry 11), which no rule states.
R312, R314: TOPK's ranked lanes and values, its sums and its count, under one label. -/
def Obligations.selection : Prop :=
  (∀ (d : BitVec 6) (a : BitVec 7) (b : BitVec 6) (s : State), Plain (.sample d a b) s → Met s →
    let x := sampleSpec s d a b
    (d.toNat = 63 ∨ (allocLabel s.dev.cur.regs.labels x.2.1).isSome) →
    ∃ t, exec (.sample d a b) s = .next t ∧ PutScalar s t d.toNat x.1 x.2.1 ∧ At t (s.dev.cur.pc + 4) .ready ∧ Kept s t [d.toNat] [] [] [] ∧
      Quiet s t { z := x.2.2.1, n := x.2.2.1, c := false, v := x.2.2.2 } (lost s [a.toNat] ||| if x.2.2.2 then 0x20000 else 0)) ∧
  (∀ (d a : BitVec 7) (r : BitVec 6) (s : State) (n : Lbl) (ls : SMap OSet), Plain (.topk d a r) s → (Instr.topk d a r).wf = true → Met s →
    let x := topSpec s a r
    allocLabel s.dev.cur.regs.labels x.set = some (n, ls) →
    ∃ t, exec (.topk d a r) s = .next t ∧ At t (s.dev.cur.pc + 4) .ready ∧ Kept s t [r.toNat, r.toNat + 1, r.toNat + 2] [d.toNat, d.toNat + 1] [] [] ∧
      Quiet s t { z := decide (x.count = 0) } (lost s [a.toNat]) ∧
      (∀ l p v, (l, p, v) ∈ x.rows → d.toNat + 1 < 124 → lane t d.toNat l = { val := p, lbl := n } ∧ lane t (d.toNat + 1) l = { val := v, lbl := n }) ∧
      (∀ l, l < 1024 → (∀ y ∈ x.rows, y.1 ≠ l) → lane t d.toNat l = lane s d.toNat l ∧ lane t (d.toNat + 1) l = lane s (d.toNat + 1) l) ∧
      scalar t r.toNat = { val := BitVec.ofNat 64 x.sel, lbl := n } ∧ scalar t (r.toNat + 1) = { val := BitVec.ofNat 64 x.rest, lbl := n } ∧
      scalar t (r.toNat + 2) = { val := BitVec.ofNat 64 x.count, lbl := n })

/-- R318, R73, R77-R81, R74, R319: SWR writes the special register that its number names, by its field rules, or a word of a handle, whose
label it joins; GPWR stages a graph parameter for the next replay. -/
def Obligations.special_writes : Prop :=
  (∀ (a : BitVec 6) (n : BitVec 8) (s : State) (x : Special), Plain (.swr a n) s → swrSpec n.toNat s.dev.cur.sp (sval s.dev 1 a.toNat) = some x →
    (n.toNat = 0x20 → s.dev.cur.sp.handling = true ∨ (s.dev.cur.olds (.spec 0x20) = [] ∧ (sval s.dev 1 a.toNat).getLsbD 0 = false)) →
    ∃ t, exec (.swr a n) s = .next t ∧ t.dev.cur.sp = x ∧ At t (s.dev.cur.pc + 4) .ready ∧ Kept s (withSpecial s t) [] [] [] [] ∧
      Quiet s (withSpecial s t) s.dev.cur.regs.cc 0) ∧
  (∀ (a : BitVec 6) (n : BitVec 8) (s : State), Plain (.swr a n) s → 0x40 ≤ n.toNat → n.toNat < 0x80 →
    let h := (n.toNat - 0x40) / 8
    ∃ t, exec (.swr a n) s = .next t ∧ At t (s.dev.cur.pc + 4) .ready ∧ Kept s (withHandles s t) [] [] [] [] ∧ Quiet s t s.dev.cur.regs.cc 0 ∧
      (∀ g, g ≠ h → mget {} t.dev.cur.regs.hnd g = mget {} s.dev.cur.regs.hnd g) ∧
      (∀ j, mget 0 (mget {} t.dev.cur.regs.hnd h).words j =
        if j = n.toNat % 8 then sval s.dev 1 a.toNat else mget 0 (mget {} s.dev.cur.regs.hnd h).words j) ∧
      (mget {} t.dev.cur.regs.hnd h).lbl = (mget {} s.dev.cur.regs.hnd h).lbl ||| sorg s.dev 1 a.toNat) ∧
  (∀ (a n : BitVec 6) (s : State) (g : Nat), Plain (.gpwr a n) s → s.dev.cur.gp ≠ none → s.dev.graphOf = some g →
    ∃ t y, exec (.gpwr a n) s = .next t ∧ At t (s.dev.cur.pc + 4) .ready ∧ (∀ r, scalar t r = scalar s r) ∧ (∀ b, byteAt t b = byteAt s b) ∧
      (mget {} t.dev.graphs g).staged = (mget {} s.dev.graphs g).staged ++ [y] ∧ y.n = n.toNat ∧ y.val = sval s.dev 1 a.toNat ∧
      y.org = sorg s.dev 1 a.toNat ∧ y.seq = (newSeq s.dev s.dev.cur.unit).1 ∧ (mget {} t.dev.graphs g).gp = (mget {} s.dev.graphs g).gp ∧
      ∀ h, h ≠ g → mget {} t.dev.graphs h = mget {} s.dev.graphs h)

/-! ### Waiting -/

/-- R31, R143, R147, R148, R277-R280, R290, R321, R322: a word that may wait goes on at once when its condition holds, with its acquire or
invalidation done; otherwise the team stands at its position and waits for exactly that condition. No register or byte changes either way; INVL moves what other teams
monitor with its translation. -/
def Obligations.waits : Prop :=
  ∀ (i : Instr) (s : State) (x : WaitSpec), waitSpec i s = some x → Plain i s →
    ∃ t, exec i s = .next t ∧ Kept s (withRest s t) [] [] [] [] ∧ RestKept s t (match x.wait with | .invl _ => true | _ => false) ∧
      Quiet s t s.dev.cur.regs.cc 0 ∧ t.dev.cur.runOpen = false ∧
      if x.now then At t x.target .ready ∧ Acquired t x.acq ∧ Invalidated t x.wait
      else t.dev.cur.wait = x.wait ∧ t.dev.cur.pc = s.dev.cur.pc ∧ t.dev.cur.hints = s.dev.cur.hints ∧
        t.dev.cur.active = (s.dev.cur.active && !x.leaves)

/-- R31, R143, R147, R148, R158, R247, R290, R321, R322: the events that end a wait let the team go on once its condition holds. -/
def Obligations.wait_ends : Prop :=
  (∀ (i : Instr) (s u : State) (x : Dword × Option Scope), acting s = some u → endSpec i u = some x → stepping u.dev = false →
    ∃ t, exec i s = .next t ∧ At t x.1 .ready ∧ Kept u (withRest u t) [] [] [] [] ∧ RestKept u t (decide (i = .invlComplete)) ∧
      Quiet u t u.dev.cur.regs.cc 0 ∧ Acquired t x.2 ∧ Invalidated t u.dev.cur.wait) ∧
  (∀ (s u : State) (since n : Nat), acting s = some u → u.dev.cur.wait = .dly since n → n ≤ elapsed u.dev since →
    exec .dlyEnd s = .next { u with dev := u.dev.upd fun c => { c with wait := .ready } })

/-- R20: a word of a pair-link exchange holds a paired team at its position, and nothing changes, until both halves have met there, which counts under
reason 12; the event lets it issue again. -/
def Obligations.pair_exchange : Prop :=
  (∀ (i : Instr) (s : State), exchanges i = true → Plain i s → s.dev.cur.paired = true → s.dev.cur.met = false →
    exec i s = .next { s with dev := (stall s.dev 12).upd fun t => { t with wait := .pair } }) ∧
  (∀ (s u : State), acting s = some u → u.dev.cur.wait = .pair →
    exec .pairLinkExchange s = .next { u with dev := u.dev.upd fun t => { t with wait := .ready, met := true } })

/-- R103, R280, R148: BARI writes TARGET, clears COUNT and arms the barrier unless TARGET is 0; BARA, after its release, adds one arrival,
and the arrival that reaches TARGET clears ARMED. Nothing else changes. -/
def Obligations.barriers : Prop :=
  (∀ (a b : BitVec 6) (s : State) (off : Nat) (n : Lbl) (ls : SMap OSet), Plain (.bari a b) s → barrierOff s a = some off →
    s.dev.cur.writesDone s.dev.cur.nextOp (.scr 0 off) 8 = true → allocLabel s.dev.cur.regs.labels (sorg s.dev 1 a.toNat ||| sorg s.dev 2 b.toNat) = some (n, ls) →
    let target := (sval s.dev 2 b.toNat).setWidth 32 &&& 0x7FFFFFFF
    ∃ t, exec (.bari a b) s = .next t ∧ At t (s.dev.cur.pc + 4) .ready ∧ Kept s (withScratch s t) [] [] [] [] ∧ Quiet s t s.dev.cur.regs.cc 0 ∧
      ∀ w, mget {} t.dev.cur.regs.scr w = if w = off / 4 then { val := 0, lbl := n, armed := decide (target ≠ 0) }
        else if w = off / 4 + 1 then { val := target, lbl := n } else mget {} s.dev.cur.regs.scr w) ∧
  (∀ (a : BitVec 6) (s : State) (off : Nat), Plain (.bara a) s → barrierOff s a = some off → s.dev.cur.released = true → barrierSound s off = true →
    let lo := mget {} s.dev.cur.regs.scr (off / 4)
    let hi := mget {} s.dev.cur.regs.scr (off / 4 + 1)
    ∃ t, exec (.bara a) s = .next t ∧ At t (s.dev.cur.pc + 4) .ready ∧ Kept s (withScratch s t) [] [] [] [] ∧ Quiet s t s.dev.cur.regs.cc 0 ∧
      ∀ w, mget {} t.dev.cur.regs.scr w =
        if w = off / 4 ∧ lo.armed = true then { lo with val := lo.val + 1, armed := decide (lo.val + 1 ≠ hi.val &&& 0x7FFFFFFF) }
        else mget {} s.dev.cur.regs.scr w)

/-! ### Calls and memory operations performed -/

/-- R226, R325, R161: CALLG writes the lanes' requests and the lane mask into the save area and posts its call record, or keeps it until the
queue has space; the team leaves the active set until the reply. With no lane it completes at once. The event that posts a kept record; the
reply lands in the lanes, clears DONE, acquires, and lets the team go on. -/
def Obligations.gathered_calls : Prop :=
  (∀ (q : BitVec 4) (v : BitVec 7) (a : BitVec 6) (s : State), Plain (.callg q v a) s → callRows s v = [] → s.dev.cur.ops = [] →
    Posts (.callg q v a) s { q := some q.toNat, kind := .instant, gone := true }) ∧
  (∀ (q : BitVec 4) (v : BitVec 7) (a : BitVec 6) (s : State), Plain (.callg q v a) s → callRows s v ≠ [] → s.dev.cur.count q.toNat < 255 →
    let m := s.dev.k0 &&& allLanes s.dev.cur.lanes
    let serv := (sval s.dev 2 a.toNat).setWidth 16
    let set := (callRows s v).foldl (fun u r => u ||| r.2.2) 0
    let d := callRequests s.fw s.dev m (callRows s v)
    ∃ t, exec (.callg q v a) s = .next t ∧ At t (s.dev.cur.pc + 4) (.call s.dev.cur.nextOp) ∧ t.dev.cur.active = false ∧
      (∀ r, scalar t r = scalar s r) ∧ (∀ r l, lane t r l = lane s r l) ∧ (∀ r, mask t r = mask s r) ∧
      sameOps t.dev.cur.ops (s.dev.cur.ops ++ [newOp s (some q.toNat) (.callg v.toNat serv m (callPost s.fw d serv m set).isSome (set.setWidth 64))]) ∧
      t.dev.mem = ((callPost s.fw d serv m set).getD d).mem) ∧
  (∀ (s u : State) (o : Op) (v : Nat) (serv : BitVec 16) (m : Mask) (w : Dword) (d : Dev), Pending s u o → o.kind = .callg v serv m false w →
    callPost u.fw u.dev serv m (w.setWidth 32) = some d →
    ∃ t, exec .callRecordPost s = .next t ∧ t.dev.mem = d.mem ∧ (∃ p ∈ t.dev.cur.ops, p.id = o.id ∧ p.kind = .callg v serv m true w) ∧
      t.dev.cur.regs = u.dev.cur.regs ∧ t.dev.cur.wait = u.dev.cur.wait ∧ t.dev.cur.pc = u.dev.cur.pc) ∧
  (∀ (s u : State) (o : Op) (v : Nat) (serv : BitVec 16) (m : Mask) (w : Dword), Pending s u o → o.kind = .callg v serv m true w → o.pins = [] →
    u.dev.cur.ops = [o] → u.dev.cur.wait = .call o.id → u.dev.cur.saveArea.toNat % 8 = 0 →
    let done := u.dev.cur.saveArea + 5120
    fwHome u.fw u.dev u.dev.cur.part done 8 = some (leBytes 8 1) →
    (fwWriteBy (u.dev.engine o) u.fw u.dev u.dev.cur.part done (leBytes 8 0) 0).isSome = true → u.dev.badU = [] →
    let rows := (callReplies u.fw u.dev m).map fun r => let x := leNat (rangeHome u.dev r.2 (replyVa u.dev r.1).toNat 8)
      (r.1, rangeCur u.dev r.2, [(v, BitVec.ofNat 32 x), (v + 1, BitVec.ofNat 32 (x / 2 ^ 32))])
    Fits u rows →
    ∃ t, exec .callgReply s = .next t ∧ Lands u t rows ∧ Kept u (withMemory u t) [] (rowRegs rows) [] [] ∧ t.dev.cur.ops = [] ∧
      t.dev.cur.wait = .ready ∧ t.dev.cur.pc = u.dev.cur.pc ∧ fwHome t.fw t.dev t.dev.cur.part done 8 = some (leBytes 8 0) ∧ Acquired t (some .pkg))

/-- R271, R142, R117, R290: a load completes with what its accesses read, when its turn has come; its results land with the join of the sets
read and of the address. A lane outside a described block gives error status. WCNT's counter returns the same way. -/
def Obligations.loads_complete : Prop :=
  (∀ (s u : State) (o : Op) (dst : LoadDst) (pol : CachePol) (as : List Acc), Pending s u o → o.kind = .load dst pol as → o.pins = [] →
    as.all (u.dev.cur.inTurn o.id) = true → (∀ a ∈ as, sound u o pol a) → noWatch u → (∀ sd, dst ≠ .scal sd) →
    (∀ v z, dst = .elem v z → mmaCheck (as.map fun a => blockOf (valueOf u o pol a).1) = none) →
    let rows := loadRows u o pol dst as
    Fits u rows →
    ∃ t, exec .loadCompletion s = .next t ∧ Lands u t rows ∧ Kept u t [] (rowRegs rows) [] [] ∧ Completed u t o (decide (rows.length < as.length))) ∧
  (∀ (s u : State) (o : Op) (sd : Nat) (pol : CachePol) (a : Acc), Pending s u o → o.kind = .load (.scal sd) pol [a] → o.pins = [] →
    u.dev.cur.inTurn o.id a = true → sound u o pol a → noWatch u →
    let x := valueOf u o pol a
    (sd = 63 ∨ (allocLabel u.dev.cur.regs.labels x.2).isSome) →
    ∃ t, exec .loadCompletion s = .next t ∧ PutScalar u t sd (BitVec.ofNat 64 x.1) x.2 ∧ Kept u t [sd] [] [] [] ∧ Completed u t o false) ∧
  (∀ (s u : State) (o : Op) (sd : Nat) (win : Dword) (rcv : Bool), Pending s u o → o.kind = .wcnt sd win rcv → o.pins = [] →
    ∃ t, exec .loadCompletion s = .next t ∧ PutScalar u t sd ((winCounter u.dev win rcv).setWidth 64) 0 ∧ Kept u t [sd] [] [] [] ∧ Completed u t o false)

/-- R272, R141, R101, R91, R117: one lane of a store is performed: its bytes at their home, unless a higher lane that is performed writes the same
bytes, and its page's set; the same in the scratchpad; an element's code in a described block. The last lane completes the operation. -/
def Obligations.stores_performed : Prop :=
  (∀ (s u : State) (o : Op) (as : List Acc) (a y : Acc) (pa e : Nat) (c : Bool), Pending s u o → o.kind = .store as → o.pins = [] →
    NextLane s u o as a → Sends as a y → (∀ b ∈ as, b.note ≠ 2) → noWatch u → a.tgt = .mem pa e c → admitted u pa a.va a.len (a.lbl ||| a.albl) →
    badNarrow u.dev pa a.len = false →
    ∃ t, exec .storePerformed s = .next t ∧
      Written u t pa e a.len (if y.note = 1 then memNat u.dev.mem pa a.len else a.data) (a.lbl ||| a.albl) ∧
      Kept u (withFrames u (withMemory u t)) [] [] [] [] ∧ Proceeds u t o (performed as { y with fin := true }) .store) ∧
  (∀ (s u : State) (o : Op) (as : List Acc) (a y : Acc) (h off : Nat) (w : Team), Pending s u o → o.kind = .store as → o.pins = [] →
    NextLane s u o as a → Sends as a y → (∀ b ∈ as, b.note ≠ 2) → noWatch u → a.tgt = .scr h off → y.note ≠ 1 →
    scrNarrow u.dev.cur h off a.len = [] → scrWrite u.dev.cur h off a.len a.data (a.lbl ||| a.albl) = .ok w →
    ∃ t, exec .storePerformed s = .next t ∧ ScrWritten u t h off a.len a.data (a.lbl ||| a.albl) ∧ Kept u (withScratch u t) [] [] [] [] ∧
      Proceeds u t o (performed as { y with fin := true }) .store) ∧
  (∀ (s u : State) (o : Op) (as : List Acc) (a : Acc) (pa e : Nat) (c : Bool), Pending s u o → o.kind = .code as → o.pins = [] →
    NextLane s u o as a → (∀ b ∈ as, b.note ≠ 2) → a.note = 0 → noWatch u → a.tgt = .mem pa e c → u.dev.badU = [] →
    let f := (byteAt u pa).toNat
    f ≠ 0 → blkKnown f = true → a.aux < blkCount f →
    let at_ := pa + 2 + (if blkNarrow f then a.aux / 2 else a.aux)
    paIsHost at_ = false →
    let old := (byteAt u at_).toNat
    let new := if blkNarrow f then (if a.aux % 2 = 0 then old / 16 * 16 + a.data % 16 else old % 16 + a.data % 16 * 16) else a.data % 256
    ∃ t, exec .storePerformed s = .next t ∧ Written u t at_ e 1 new (a.lbl ||| a.albl) ∧ Kept u (withFrames u (withMemory u t)) [] [] [] [] ∧
      Proceeds u t o (performed as { a with fin := true }) .code)

/-- R276, R144, R101, R91, R114: one lane of an atomic is performed, its value read and written as one, in memory or in the scratchpad; the
old values land with the last lane, and the acquire of its semantics follows. -/
def Obligations.atomics_performed : Prop :=
  ∀ (s u : State) (o : Op) (k : AtomKind) (dst : LoadDst) (acq : Option Scope) (as : List Acc) (a : Acc),
    Pending s u o → o.kind = .atomic k dst acq as → o.pins = [] → NextLane s u o as a → (∀ b ∈ as, b.note = 0) → noWatch u →
    (as.any fun b => !b.fin && decide (b.lane < a.lane) && b.tgt.meets u.dev.cur.lanes b.len a.tgt a.len) = false →
    u.dev.badU = [] → u.dev.badCorr = [] → u.dev.cur.badS = [] → a.seen = none →
    let x := valueOf u o .normal a
    let as' := performed as { a with fin := true, aux := x.1, lbl := x.2 }
    let out := if as'.all (·.fin) then as' else []
    let set := a.lbl ||| a.albl
    (∀ (pa e : Nat) (c : Bool), a.tgt = .mem pa e c → admitted u pa a.va a.len set → (out = [] ∨ ResultsFit u dst out) →
      ∃ t, exec .atomicPerformed s = .next t ∧ (out ≠ [] → Results u t dst out) ∧
        Kept u (withFrames u (withMemory u t)) (scalarsOf dst) (rowRegs (atomRows dst out)) [] [] ∧
        (match k.new x.1 a with
          | some y => Written u t pa e a.len y set
          | none => t.dev.mem = u.dev.mem ∧ t.dev.frames = u.dev.frames) ∧
        Proceeds u t o as' (.atomic k dst acq) ∧ (out ≠ [] → Acquired t acq)) ∧
    (∀ (h off : Nat) (w : Team), a.tgt = .scr h off →
      (match k.new x.1 a with | some y => scrWrite u.dev.cur h off a.len y set = .ok w | none => w = u.dev.cur) →
      let v : State := { u with dev := { u.dev with cur := w } }
      (out = [] ∨ ResultsFit v dst out) →
      ∃ t, exec .atomicPerformed s = .next t ∧ (out ≠ [] → Results v t dst out) ∧
        Kept u (withScratch u t) (scalarsOf dst) (rowRegs (atomRows dst out)) [] [] ∧
        (match k.new x.1 a with
          | some y => ScrWritten u t h off a.len y set
          | none => t.dev.cur.regs.scr = u.dev.cur.regs.scr) ∧
        Proceeds u t o as' (.atomic k dst acq) ∧ (out ≠ [] → Acquired t acq))

/-- R113-R116, R119, R121, R123: a shard's Arbor performs one lane's operation, in its turn, as one; with the last lane the results land with the
tensor's set, SPITER gives its count and Z, and a held team goes on. A SPITER whose lanes all stood at END completes with the tensor's label. -/
def Obligations.arbor_operations : Prop :=
  (∀ (s u : State) (op : Op) (o : ArborOp) (h : Nat) (hw : Handle) (v sd : Nat) (ls : List ArborLane) (l l' : ArborLane) (d : Dev),
    Pending s u op → op.kind = .arbor o h hw v sd ls → op.pins = [] → ls.find? (fun x => x.lane == s.args.n && !x.done) = some l →
    let shard := if o = .iter then s.args.q else l.shard
    l.pending o shard = true → arborTurn u.dev.cur op.id l.lane hw.base shard = true → arborReady u.fw u.dev o hw ls = true → arborStep u o hw l shard = some (l', d) → u.dev.badCorr = [] →
    let ls' := ls.map fun x => if x.lane = l.lane then l' else x
    (∀ x ∈ ls', x.bad = false ∧ x.refused = false) →
    let rows := if ls'.all (·.done) then arborRows o v ls' else []
    Fits u rows →
    (o = .iter → sd = 63 ∨ (allocLabel (allocLanes u.dev.cur.regs.labels (rows.map fun x => (x.1, x.2.1))).2.1 (iterSet u hw ls')).isSome = true) →
    ∃ t, exec .arborOperation s = .next t ∧ t.dev.mem = d.mem ∧ t.dev.frames = d.frames ∧ Lands u t rows ∧
      Kept u (withFrames u (withMemory u t)) (if o = .iter then [sd] else []) (rowRegs rows) [] [] ∧
      (ls'.all (·.done) = false → ∃ p ∈ t.dev.cur.ops, p.id = op.id ∧ p.kind = .arbor o h hw v sd ls') ∧
      (ls'.all (·.done) = true → Completed u t op false ∧ (u.dev.cur.wait = .held op.id → t.dev.cur.wait = .ready) ∧
        (o = .iter → t.dev.cur.regs.cc = { z := decide (iterCount ls' = 0) } ∧
          (sd ≠ 63 → (scalar t sd).val = BitVec.ofNat 64 (iterCount ls') ∧ t.dev.cur.org (scalar t sd).lbl = iterSet u hw ls')))) ∧
  (∀ (s u : State) (op : Op) (h : Nat) (hw : Handle) (v sd : Nat) (ls : List ArborLane), Pending s u op → op.kind = .arbor .iter h hw v sd ls → op.pins = [] →
    (∀ l ∈ ls, l.atEnd = true ∧ l.done = true ∧ l.bad = false ∧ l.refused = false) → (sd = 63 ∨ (allocLabel u.dev.cur.regs.labels (iterSet u hw ls)).isSome = true) →
    ∃ t, exec .arborOperation s = .next t ∧ PutScalar u t sd 0 (iterSet u hw ls) ∧ Kept u t [sd] [] [] [] ∧ t.dev.cur.regs.cc = { z := true } ∧ Completed u t op false)

/-! ### Engines -/

/-- R281-R287, R148, R101: a Kudu command reads its descriptor and pins the pages it reaches; a row's bytes reach their destination with the
join of their sets, the committed position advances, and each newly committed row arrives at the descriptor's barrier. -/
def Obligations.kudu_rows : Prop :=
  (∀ (s u : State) (o : Op) (c : Kudu) (x : KuduDesc) (desc : List Piece) (d1 d : Dev), Pending s u o → o.kind = .kudu c → c.stale = true →
    c.suspended = false → c.fault = none → c.dead = [] → c.tested = false →
    engineRange u.fw { r := true, e := true, cls := .readout } false c.desc 128 u.dev = (.ok desc, d1) →
    (desc.all fun p => u.dev.cur.writesDone o.id p.tgt p.len) = true → u.dev.badU = [] → u.dev.badCorr = [] → u.dev.cur.badS = [] → u.dev.cur.badV = [] →
    let bs := readPieces d1 (c.reader d1.cur o) desc
    kuduDesc (bs.map (·.1)) (joinOf bs) = some x → kuduValid u.dev.cur.decl.scratch c x = true →
    let r := kuduReach u.fw d1 o c x
    (r.dst.any Piece.host) = false → r.noDst = none → pinOp d1 o.id (pieceEnts (desc ++ r.src ++ r.dst)) = some d →
    (∀ w, u.dev.cur.wait ≠ .trap w) → u.dev.cur.save = none →
    ∃ t, exec .kuduIteration s = .next t ∧ Kept u (withFrames u t) [] [] [] [] ∧ t.dev.frames = d.frames ∧
      ∃ p ∈ t.dev.cur.ops, p.id = o.id ∧ p.kind = .kudu { c with
        rd := some x, stale := false, tested := true, under := [], resumable := false, stopping := c.stopping && !x.srch, suspended := false }) ∧
  (∀ (s u : State) (o : Op) (c : Kudu) (x : KuduDesc) (bs : List (Byte × OSet)) (src : List Piece) (p : Piece), Pending s u o → o.kind = .kudu c →
    RowOk u o c x s.args.n bs src p →
    let com := afterRow c s.args.n
    (∀ (pa e : Nat) (k : Bool), p.tgt = .mem pa e k →
      ∃ t, exec .kuduIteration s = .next t ∧ Kept u (withScratch u (withFrames u (withMemory u t))) [] [] [] [] ∧
        memBytes t.dev.mem pa bs.length = bs.map (·.1) ∧ (∀ a, a < pa ∨ pa + bs.length ≤ a → byteAt t a = byteAt u a) ∧
        (t.dev.frame e).cur = (u.dev.frame e).cur ||| joinOf bs ∧ (∀ f, f ≠ e → (t.dev.frame f).cur = (u.dev.frame f).cur) ∧
        (acquiredAll u o → x.srch = false → ∀ q pq eq kq, src = [q] → q.tgt = .mem pq eq kq → bs.map (·.1) = memBytes u.dev.mem pq q.len) ∧
        t.dev.cur.regs.scr = (if x.rowarr then
          ((List.range (com - c.committed)).foldl (fun r _ => arrive r 0 (x.bar.toNat - 0xFFFFF00000000000)) u.dev.cur.regs).scr else u.dev.cur.regs.scr) ∧
        ∃ y ∈ t.dev.cur.ops, y.id = o.id ∧ ∃ k, y.kind = .kudu k ∧ k.committed = com ∧ k.rd = some x ∧ k.full = c.full) ∧
    (∀ (h off : Nat), p.tgt = .scr h off → x.rowarr = false → (writeScr u.fw u.dev.cur.kuduUnit u.dev h off p.va bs).full = none →
      (∀ w, off / 8 ≤ w → w ≤ (off + bs.length) / 8 → (mget {} u.dev.cur.regs.scr (h * 2 ^ 20 + 2 * w)).armed = false) →
      ∃ t, exec .kuduIteration s = .next t ∧ Kept u (withScratch u (withFrames u t)) [] [] [] [] ∧
        (∀ j, (hj : j < bs.length) → scrByte t.dev.cur.regs h (off + j) = (bs[j].1).toNat) ∧
        (∀ a, a < off ∨ off + bs.length ≤ a → scrByte t.dev.cur.regs h a = scrByte u.dev.cur.regs h a) ∧
        ∃ y ∈ t.dev.cur.ops, y.id = o.id ∧ ∃ k, y.kind = .kudu k ∧ k.committed = com ∧ k.rd = some x) ∧
    (∀ (r l : Nat), p.tgt = .reg r l 0 → x.rowarr = false → c.perf = [] → bs.length % 4 = 0 → (∀ b ∈ bs, b.2 = joinOf bs) →
      (allocLabel u.dev.cur.regs.labels (joinOf bs)).isSome = true →
      let w := u.dev.cur.lanes
      let k := r * w + l
      0 < w → w ≤ 1024 → k + bs.length / 4 ≤ 124 * w →
      ∃ t, exec .kuduIteration s = .next t ∧ Kept u (withFrames u t) [] (List.range 124) [] [] ∧
        (∀ i, i < bs.length / 4 → let y := lane t ((k + i) / w) ((k + i) % w)
          y.val = BitVec.ofNat 32 (leNat (((bs.map (·.1)).drop (4 * i)).take 4)) ∧ t.dev.cur.org y.lbl = joinOf bs) ∧
        (∀ g j, j < w → (g * w + j < k ∨ k + bs.length / 4 ≤ g * w + j) → lane t g j = lane u g j) ∧
        ∃ y ∈ t.dev.cur.ops, y.id = o.id ∧ ∃ z, y.kind = .kudu z ∧ z.committed = com ∧ z.rd = some x))

/-- R282, R285, R286, R134: a command completes once its rows are performed, it has stopped in error, or KSTOP has ended it, and its pins go;
KPOS gives the committed position of the oldest live stream of its descriptor, or all ones; KSTOP completes when its streams have ended; a
resolved fault lets a stream go on behind its committed position. -/
def Obligations.kudu_completions : Prop :=
  (∀ (s u : State) (o : Op) (c : Kudu), Pending s u o → o.kind = .kudu c → c.finished = true → c.full = none →
    ∃ t, exec .kuduCommandComplete s = .next t ∧ Kept u (withFrames u t) [] [] [] [] ∧ t.dev.frames = (unpinFrames u.dev o.pins).frames ∧
      Completed u t o (!c.dead.isEmpty)) ∧
  (∀ (s u : State) (o : Op) (sd : Nat) (va v : Dword), Pending s u o → o.kind = .kpos sd va → o.pins = [] → posOf u.dev.cur o.id va = some v →
    ∃ t, exec .kuduCommandComplete s = .next t ∧ PutScalar u t sd v 0 ∧ Kept u t [sd] [] [] [] ∧ Completed u t o false) ∧
  (∀ (s u : State) (o : Op) (va : Dword) (ids : List Nat), Pending s u o → o.kind = .kstop va ids → o.pins = [] → stopDone u.dev.cur ids = true →
    ∃ t, exec .kuduCommandComplete s = .next t ∧ Kept u t [] [] [] [] ∧ Completed u t o false) ∧
  (∀ (s u : State) (o : Op) (c : Kudu), Pending s u o → o.kind = .kudu c → c.fault ≠ none → c.resumable = true →
    ∃ t, exec .streamResume s = .next t ∧ Kept u t [] [] [] [] ∧ ∃ p ∈ t.dev.cur.ops, p.id = o.id ∧
      p.kind = .kudu { c with fault := none, resumable := false, stale := true, perf := [], spec := c.again })

/-- R146, R288, R289, R358: a transfer whose source has been read advances its sender counter, completes, and is on its way until it has been
performed; what a peer sends is written with its label and advances the receiver counter, the part of it that came before its port failed does not; a
signal adds its value; a failed port ends the pending transfers to a peer that lie on it (which these are is free until the last port is down, entry 50). -/
def Obligations.window_transfers : Prop :=
  (∀ (s u : State) (o : Op) (w : Wwr) (un : List Nat), Pending s u o → o.kind = .wwr w → (w.src.all fun a => u.dev.cur.writesDone o.id a.tgt a.len) = true →
    winKnown u.fw u.dev u.dev.cur.part w.win = true → winHolds u.dev w.win w.len = true → (wwrPieces w).any (badPiece u.dev) = false →
    u.dev.badCorr = [] → lodge u.fw u.dev.cur.part (wwrLabel u.dev w) 2 w.win.toNat w.len = some un →
    let x := u.dev.window (winNum w.win)
    ∃ t, exec .senderCounterAdvance s = .next t ∧ Completed u t o false ∧ Kept u (withWindows u (withFrames u t)) [] [] [] [] ∧
      t.dev.frames = (unpinFrames u.dev o.pins).frames ∧ t.dev.outs = u.dev.outs ++ [{ team := u.dev.cur.key, op := o.id, win := w.win, under := un, part := u.dev.cur.part, launchId := u.dev.cur.launchId, teamId := u.dev.cur.teamId, core := u.dev.cur.core, seq := o.seq }] ∧
      mget 0 (t.dev.window (winNum w.win)).snd (winPeer w.win) = mget 0 x.snd (winPeer w.win) + 1 ∧
      (∀ p, p ≠ winPeer w.win → mget 0 (t.dev.window (winNum w.win)).snd p = mget 0 x.snd p) ∧ (t.dev.window (winNum w.win)).rcv = x.rcv ∧
      ∀ n, n ≠ winNum w.win → t.dev.window n = u.dev.window n) ∧
  (∀ (s : State) (tid op : Nat), s.args.arrival = .outgoing tid op → (∃ m ∈ s.dev.outs, m.team = tid ∧ m.op = op) →
    exec .windowWriteArrival s = .next { s with dev := { s.dev with outs := s.dev.outs.filter fun m => !(m.team == tid && m.op == op) } }) ∧
  (∀ (s : State) (whole : Bool) (peer win : BitVec 16) (off : BitVec 32) (bs : List Byte) (set : OSet) (e : TlbEnt),
    s.args.arrival = (if whole then .write peer win off bs set else .torn peer win off bs set) → s.dev.badU = [] →
    winOpen s.fw s.dev peer.toNat win.toNat = true →
    let x := s.dev.window win.toNat
    off.toNat + bs.length ≤ x.len → bs ≠ [] → bs.length ≤ 65536 → x.base.toNat + off.toNat < 2 ^ 64 →
    let va := x.base + off.setWidth 64
    onPage s x.part fwW va bs.length = some e → set &&& ~~~e.ceil = 0 →
    ∃ t, exec .windowWriteArrival s = .next t ∧ Bytes s t (e.pa va) bs ∧ t.dev.cur = s.dev.cur ∧ t.dev.rest = s.dev.rest ∧
      t.dev.frame e.ent = { s.dev.frame e.ent with cur := (s.dev.frame e.ent).cur ||| set } ∧
      mget 0 (t.dev.window win.toNat).rcv peer.toNat = mget 0 x.rcv peer.toNat + (if whole then 1 else 0) ∧ (t.dev.window win.toNat).snd = x.snd ∧
      ∀ n, n ≠ win.toNat → t.dev.window n = s.dev.window n) ∧
  (∀ (s : State) (peer win : BitVec 16) (v : BitVec 32) (set : OSet), s.args.arrival = .signal peer win v set →
    winOpen s.fw s.dev peer.toNat win.toNat = true →
    ∃ t, exec .wsigArrival s = .next t ∧ t = { s with dev := { s.dev with windows := t.dev.windows } } ∧
      mget 0 (t.dev.window win.toNat).rcv peer.toNat = mget 0 (s.dev.window win.toNat).rcv peer.toNat + v ∧
      (t.dev.window win.toNat).snd = (s.dev.window win.toNat).snd ∧ ∀ n, n ≠ win.toNat → t.dev.window n = s.dev.window n) ∧
  (∀ (s u : State) (o : Op) (win : Dword) (v : Word) (set : OSet), s.args.arrival = .outgoing s.args.tid s.args.op → Pending s u o →
    o.kind = .wsig win v set → o.pins = [] → winKnown u.fw u.dev u.dev.cur.part win = true → winHolds u.dev win 4 = true →
    (lodge u.fw u.dev.cur.part set 2 win.toNat 4).isSome = true → earlierSent u.dev o.id win = true →
    ∃ t, exec .wsigArrival s = .next t ∧ Completed u t o false ∧ Kept u t [] [] [] []) ∧
  (∀ s : State, s.args.m < 24 → (s.dev.teams.map (·.key)).Nodup →
    ∃ t, exec .linkDown s = .next t ∧ (∀ p, p ∈ t.dev.ports ↔ p = s.args.m ∨ p ∈ s.dev.ports) ∧
      (∀ x, x ∈ t.dev.outs ↔ x ∈ s.dev.outs ∧ ¬(winPeer x.win = s.args.q ∧ onPort s.dev s.args.m x.seq = true)) ∧
      ∀ m ∈ t.dev.teams, ∀ o ∈ m.ops, onPeer s.args.q o = true → onPort s.dev s.args.m o.seq = false)

/-- R296, R53-R57, R292, R295, R71, R246: an MMA on its tile: every entry, its saturation, the tile's exponent, its flag, which is the OR of the saturation
map once there is a partial, and the labels of the active rows; MMAZ starts from a cleared tile, MMAN subtracts. No other tile, register or byte changes. -/
def Obligations.mma_performed : Prop :=
  ∀ (s u : State) (o : Op) (var n va vb half w : Nat) (rows : BitVec 32), Pending s u o → o.kind = .mma var n va vb half w rows [] → o.dirty = false →
    o.pins = [] → EngineOk u o half → u.dev.cur.badV = [] →
    let base := if var = 1 then {} else u.dev.cur.regs.tile half n
    let A := mmaA u va w
    let B := mmaB u vb w
    let set := fun (r : Nat) => u.dev.cur.rowSet base r ||| laneSet u va 16 (32 * w + r) ||| mmaBSet u vb w
    mwf 0 base.ent = true → mwf false base.sat = true → (∀ p ∈ base.sat, p.1 < 512) →
    mmaCheck ((activeRows rows).map A ++ (List.range 16).map B) = none →
    (allocLanes u.dev.cur.regs.labels ((activeRows rows).map fun r => (r, set r))).2.2.1 = [] →
    let y := fun (r c : Nat) => mmaEntry base (if var = 2 then -1 else 1) rows A B r c
    ∃ t x, exec .matrixOperation s = .next t ∧ TileIs u t half n x ∧ Kept u (withTiles u t) [] [] [] [] ∧ Completed u t o false ∧
      (∀ r c, r < 32 → c < 16 → (x.e r c, x.isSat r c) = y r c) ∧ x.xmax = mmaTop base rows A B ∧
      (∀ r c, hasPartial rows A B r c = true → (x.flag = true ↔ ∃ p q, p < 32 ∧ q < 16 ∧ (y p q).2 = true)) ∧
      ((∀ r c, hasPartial rows A B r c = false) → x.flag = base.flag) ∧
      (∀ r, r ∈ activeRows rows → t.dev.cur.org (mget 0 x.lbl r) = set r) ∧ ∀ r, r ∉ activeRows rows → mget 0 x.lbl r = mget 0 base.lbl r

/-- R301, R302: ACLR clears the selected copy of a tile, all 32 rows of it; ACVT gives the active rows' lanes the values of the entries, with the
rows' labels, and does not change the tile. -/
def Obligations.tiles_cleared_and_converted : Prop :=
  ∀ (s u : State) (o : Op) (k : AccOp) (n half w : Nat) (rows : BitVec 32), Pending s u o → o.kind = .acc k n half w rows → EngineOk u o half →
    let x := u.dev.cur.regs.tile half n
    (k = .clr → o.pins = [] →
      ∃ t, exec .matrixOperation s = .next t ∧ TileIs u t half n {} ∧ Kept u (withTiles u t) [] [] [] [] ∧ Completed u t o false) ∧
    (∀ (v : Nat) (bf : Bool), k = .cvt v bf → o.pins = [] →
      let out := fun (r : Nat) => if bf then (List.range 8).map fun j => (v + j, BitVec.ofNat 32 (x.cvt 8 r (2 * j) + 2 ^ 16 * x.cvt 8 r (2 * j + 1)))
        else (List.range 16).map fun c => (v + c, BitVec.ofNat 32 (x.cvt 24 r c))
      let ys := (activeRows rows).map fun r => (32 * w + r, u.dev.cur.rowSet x r, out r)
      Fits u ys → ∃ t, exec .matrixOperation s = .next t ∧ Lands u t ys ∧ Kept u t [] (rowRegs ys) [] [] ∧ Completed u t o false)

/-- R303, R304, R307, R59, R72: ABQ gives the active rows' lanes a block with the join of the rows' labels; AEXP gives exponent, EMPTY and SAT; AST
writes the image; ALD replaces the tile by its image (its SAT flag from the image: entry 29). -/
def Obligations.accumulators_performed : Prop :=
  ∀ (s u : State) (o : Op) (k : AccOp) (n half w : Nat) (rows : BitVec 32), Pending s u o → o.kind = .acc k n half w rows → EngineOk u o half →
    let x := u.dev.cur.regs.tile half n
    (∀ (v : Nat) (f : Fmt), k = .blk v f → o.pins = [] →
      let ts := (List.range f.tiles).map fun i => u.dev.cur.regs.tile half (n + i)
      let ys := (activeRows rows).map fun r => (32 * w + r, ts.foldl (fun a y => a ||| u.dev.cur.rowSet y r) 0, blockRegs v (abqBlock ts f.code r))
      Fits u ys → ∃ t, exec .matrixOperation s = .next t ∧ Lands u t ys ∧ Kept u t [] (rowRegs ys) [] [] ∧ Completed u t o false) ∧
    (∀ d, k = .exp d → o.pins = [] → (d = 63 ∨ (allocLabel u.dev.cur.regs.labels (u.dev.cur.tileSet x)).isSome) →
      ∃ t, exec .matrixOperation s = .next t ∧ Kept u t [d] [] [] [] ∧ Completed u t o false ∧
        PutScalar u t d (BitVec.ofNat 64 ((match x.xmax with | some e => (BitVec.ofInt 16 e).toNat | none => 2 ^ 16) + if x.flag then 2 ^ 17 else 0))
          (u.dev.cur.tileSet x)) ∧
    (∀ (a : Acc) (pa e : Nat) (c : Bool), k = .st [a] → a.tgt = .mem pa e c → a.len = 4224 → u.dev.cur.writesDone o.id a.tgt a.len = true →
      paIsHost pa = false → u.dev.badU = [] →
      let set := u.dev.cur.tileSet x ||| a.albl
      set &&& ~~~(u.dev.frame e).ceil = 0 →
      ∃ t, exec .matrixOperation s = .next t ∧ Bytes u t pa (tileImage x) ∧ Kept u (withFrames u (withMemory u t)) [] [] [] [] ∧ Completed u t o false ∧
        (t.dev.frame e).cur = (u.dev.frame e).cur ||| set) ∧
    (∀ (as : List Acc) (y : Tile), k = .ld as → (as.all fun a => u.dev.cur.writesDone o.id a.tgt a.len) = true → u.dev.badU = [] → u.dev.badCorr = [] →
      u.dev.cur.badS = [] → u.dev.cur.badV = [] →
      let bs := readPieces u.dev o (accPieces u.dev as)
      let set := joinOf bs ||| accLabel as
      imageTile (bs.map (·.1)) = some y → (allocLabel u.dev.cur.regs.labels set).isSome = true →
      ∃ t m, exec .matrixOperation s = .next t ∧ TileIs u t half n { y with lbl := m } ∧ Kept u (withTiles u (withFrames u t)) [] [] [] [] ∧
        Completed u t o false ∧ t.dev.frames = (unpinFrames u.dev o.pins).frames ∧ ∀ r, r < 32 → t.dev.cur.org (mget 0 m r) = set)

/-- R99, R61, R305, R306, R101: AMI clears a merge tile and sets its exponent and INIT, or completes in error outside the exponents' range; AMRG adds
a tile into one that is initialised, in error into one that is not. -/
def Obligations.merge_tiles : Prop :=
  (∀ (s u : State) (o : Op) (pa e : Nat) (va : Dword) (x : Int) (set : OSet) (half : Nat), Pending s u o → o.kind = .ami pa e va x set half →
    (u.dev.core (u.dev.cur.core + half)).off = false → matrixTurn u.dev o = true →
    ∃ t, exec .mergeTileApply s = .next t ∧ Kept u (withFrames u (withMemory u t)) [] [] [] [] ∧
      if x < -1024 ∨ 1023 < x then (∀ a, byteAt t a = byteAt u a) ∧ Completed u t o true
      else Bytes u t pa (List.replicate 6208 0#8 ++ leBytes 2 (BitVec.ofInt 16 x).toNat ++ [1] ++ List.replicate 5 0#8) ∧ Completed u t o false ∧
        (t.dev.frame e).cur = (u.dev.frame e).cur ||| set) ∧
  (∀ (s u : State) (o : Op) (pa e : Nat) (va : Dword) (n half : Nat) (set : OSet), Pending s u o → o.kind = .amrg pa e va n half set → (u.dev.core (u.dev.cur.core + half)).off = false →
    matrixTurn u.dev o = true → u.dev.cur.badT = [] → u.dev.badU = [] → u.dev.badCorr = [] →
    let x := u.dev.cur.regs.tile half n
    ∃ t, exec .mergeTileApply s = .next t ∧ Kept u (withFrames u (withMemory u t)) [] [] [] [] ∧
      if (byteAt u (pa + 6210)).toNat % 2 = 0 then (∀ a, byteAt t a = byteAt u a) ∧ Completed u t o true
      else Bytes u t pa (amrgBytes u.dev pa x) ∧ Completed u t o false ∧
        (t.dev.frame e).cur = (u.dev.frame e).cur ||| u.dev.cur.tileSet x ||| set)

/-- R179, R180-R185, R188, R315: the Belvedere feeds a tile's columns above their thresholds to the rows of a session; TAPR evaluates the session's
rows in turn, gives kd their hold bits, writes its delta list and frees its store; TAPE updates the tensor, evaluates its chain and ends in a delta
list, a held row with its records, a dead row, or in error; MERGEK writes its ranked output. The label of a delta list's header is entry 51's; the sum
of an empty output is free (entry 11). -/
def Obligations.belvedere_performs : Prop :=
  (∀ (s u : State) (o : Op), Pending s u o → o.kind = .tapb → o.pins = [] → u.dev.belTurn o = true → noWatch u →
    ∃ t, exec .fselFeed s = .next t ∧ Kept u t [] [] [] [] ∧ Completed u t o false ∧ t.dev.cur.sessions = u.dev.cur.sessions ∧
      (u.dev.cur.wait = .held o.id → t.dev.cur.wait = .ready)) ∧
  (∀ (s u : State) (o : Op) (sid n f : Nat) (rows : BitVec 32) (set : OSet) (v : Session) (e : TlbEnt), Pending s u o → o.kind = .fsel sid n f rows set →
    o.pins = [] → u.dev.cur.sessions.find? (fun y => y.id == sid) = some v → u.dev.belTurn o = true → u.dev.cur.tileTurn o.id o.kind = true →
    soundTeam u → acquiredAll u o →
    let lo := v.desc.theta + BitVec.ofNat 64 (4 * f)
    lo.toNat % 65536 + 64 ≤ 65536 → (translate u.fw u.dev u.dev.cur.core u.dev.cur.part belR lo).1 = .ok e →
    u.dev.cur.writesDone o.id (.mem (e.pa lo) e.ent (!e.mi)) 64 = true →
    let x := u.dev.cur.regs.tile 0 n
    let th := (List.range 16).map fun c => some (memNat u.dev.mem (e.pa lo + 4 * c) 4)
    ∃ t, exec .fselFeed s = .next t ∧ Kept u t [] [] [] [] ∧ Completed u t o false ∧
      (∀ w ∈ t.dev.cur.sessions, w.id = sid → ∀ r, mget {} w.rows r =
        if r ∈ activeRows rows then
          { lbl := (mget {} v.rows r).lbl ||| u.dev.cur.rowSet x r ||| (u.dev.frame e.ent).cur ||| set,
            list := feedRow x r f v.desc.nf v.desc.kk th (mget {} v.rows r).list }
        else mget {} v.rows r) ∧
      ∀ w ∈ t.dev.cur.sessions, w.id ≠ sid → w ∈ u.dev.cur.sessions) ∧
  (∀ (s u : State) (o : Op) (sid kd : Nat) (rows : BitVec 32) (sd evid : Dword) (set : OSet) (v : Session) (ps all : List Piece) (run : List TapRow)
    (d : Dev) (a : TapSum), Pending s u o → o.kind = .tapr sid kd rows sd evid set → o.pins = [] →
    u.dev.cur.sessions.find? (fun y => y.id == sid) = some v → u.dev.belTurn o = true → u.dev.cur.releasedBefore o.id = true → soundTeam u →
    taprReach u o v (activeRows rows) = some (ps, all, run, d) →
    run.foldl (fun a r => a.bind fun a => taprRow u.fw false o v (tensorAt d o ps v.desc.ftens.toNat) all evid set a r) (some { dev := d }) = some a →
    let w := writeScr u.fw u.dev.cur.belUnit a.dev 0 (sd.toNat - 0xFFFFF00000000000) sd (deltaBytes set a.es)
    w.full = none →
    ∃ t, exec .taprEvaluation s = .next t ∧ Kept u (withScratch u (withFrames u (withMemory u t))) [] [] [kd] [] ∧ Completed u t o (a.err || w.err) ∧
      t.dev.mem = w.dev.mem ∧ t.dev.frames = w.dev.frames ∧ t.dev.cur.regs.scr = w.dev.cur.regs.scr ∧
      mask t kd = BitVec.ofNat 1024 (holdBits a.dev o all v * 2 ^ (32 * scWord v.sc)) &&& allLanes u.dev.cur.lanes ∧
      t.dev.cur.sessions = u.dev.cur.sessions.filter fun y => y.id != v.id) ∧
  (∀ (s u : State) (o : Op) (x : TapDesc) (sa : Dword) (row m : Nat) (evid : Dword) (set : OSet) (rs : List Piece) (d : Dev), Pending s u o →
    o.kind = .tape x sa row evid set → o.pins = [] → u.dev.belTurn o = true → u.dev.cur.releasedBefore o.id = true → soundTeam u →
    tapeRow u o x row = some (rs, m, d) → tapeFeatures u x (sa.toNat - 0xFFFFF00000000000) m = none →
    ∃ t, exec .tapeEvaluation s = .next t ∧ Kept u t [] [] [] [] ∧ Completed u t o true) ∧
  (∀ (s u : State) (o : Op) (x : TapDesc) (sa : Dword) (row m head : Nat) (evid : Dword) (set : OSet) (all : List Piece) (d : Dev), Pending s u o →
    o.kind = .tape x sa row evid set → o.pins = [] → u.dev.belTurn o = true → u.dev.cur.releasedBefore o.id = true → soundTeam u →
    tapeReach u o x row = some (all, m, head, d) →
    let off := sa.toNat - 0xFFFFF00000000000
    ∀ (fv : SMap Word) (d' : Dev) (err : Bool), tapeFeatures u x off m = some fv →
      let h := tensorAt d o all x.ftens.toNat
      let dl := scrLabel u.dev.cur 0 off (16 + 8 * scrNat u.dev.cur.regs 0 off 4) ||| set
      let rset := tapSet d all (rowAt x row)
      (prune u.fw false x h m row (dl ||| rset ||| h.lbl) dl fv (d, false)).bind (tapStoreList u.fw false x h m row (dl ||| rset ||| h.lbl) dl fv) = some (d', err) →
      let c := evalChain u.fw false o x h all m head fv d'
      let dset := dl ||| rset ||| c.set
      let oset := if c.edge then dset ||| tensorLabel u.fw c.dev u.dev.cur.part h.base else dset
      c.wait = false →
      let w := writeScr u.fw u.dev.cur.belUnit c.dev 0 ((sa + 2064).toNat - 0xFFFFF00000000000) (sa + 2064)
        (deltaBytes dl ((deltasOf fv c.w).map fun p => (0, p.1, p.2, dset)))
      let dead := decide (rmDepth m = 3)
      let held := casRow o x all row m (if dead then rmWith m 4 (rmTap m) 3 else rmWith m 1 x.tapid (rmDepth m + 1)) c.dev
      (c.hit = [] → tapHome c.dev all (rowAt x row) 8 = m → w.full = none →
        ∃ t, exec .tapeEvaluation s = .next t ∧ Kept u (withScratch u (withFrames u (withMemory u t))) [] [] [] [] ∧ t.dev.mem = w.dev.mem ∧
          t.dev.cur.regs.scr = w.dev.cur.regs.scr ∧ Completed u t o (err || c.err || w.err)) ∧
      (c.hit = [] ∧ tapHome c.dev all (rowAt x row) 8 ≠ m ∨ c.hit ≠ [] ∧ holdMay x all row = true ∧ held = none →
        ∃ t, exec .tapeEvaluation s = .next t ∧ Kept u (withFrames u (withMemory u t)) [] [] [] [] ∧ t.dev.mem = c.dev.mem ∧ Completed u t o true) ∧
      (c.hit ≠ [] → holdMay x all row = false →
        ∃ t, exec .tapeEvaluation s = .next t ∧ Kept u (withFrames u (withMemory u t)) [] [] [] [] ∧ Completed u t o true ∧
          t.dev.mem = (tapRecord u.fw c.dev x (BitVec.ofNat 64 (rowAt x row)) 2).mem) ∧
      ∀ d2, c.hit ≠ [] → holdMay x all row = true → held = some d2 →
        ∃ t, exec .tapeEvaluation s = .next t ∧ Kept u (withFrames u (withMemory u t)) [] [] [] [] ∧ Completed u t o (err || c.err) ∧
          t.dev.mem = (if dead then teamFault u.fw d2 u.dev.cur.belUnit 0x18 0 (rowAt x row) row x.tapid 0
            else watchRecords u.fw o x all row m fv c.hit oset evid (scrNat u.dev.cur.regs 0 (off + 8) 8) 1 d2).mem) ∧
  (∀ (s u : State) (o : Op) (sb : Dword) (set : OSet) (tab : List Acc) (a : Acc) (l k pa e : Nat) (c : Bool) (es : List (Nat × Nat)) (ps : List Piece) (d : Dev),
    Pending s u o → o.kind = .mergek sb set tab [a] → a.tgt = .mem pa e c → paIsHost pa = false → mergeSizes sb = some (l, k) → a.len = 16 + 8 * k →
    (tab.all fun b => u.dev.cur.writesDone o.id b.tgt b.len) = true → soundTeam u →
    let tp := accPieces u.dev tab
    let table := mergeTable ((readPieces u.dev o tp).map (·.1)) l
    (table.map fun y => y.2.1).sum ≤ 65536 → readLists u.fw o u.dev table = (.entries es, ps, d) → (pinOp d o.id (pieceEnts ps)).isSome = true →
    let all := set ||| piecesSet u.dev o tp ||| piecesSet u.dev o ps
    all &&& ~~~(u.dev.frame e).ceil = 0 →
    ∃ t, exec .mergekComplete s = .next t ∧ Kept u (withFrames u (withMemory u t)) [] [] [] [] ∧ Completed u t o false ∧
      Bytes u t pa (mergeOut (dedupe es).1 k (Config.free u.dev.free (2 ^ 41))) ∧ (t.dev.frame e).cur = (u.dev.frame e).cur ||| all ∧
      ((dedupe es).2 = true → t.dev.cur.sp.tstat.getLsbD 18 = true))

/-! ### Hosts, power and errors -/

/-- R150, R351, R356, R97, R371: what hosts do over PCI Express once the BARs are enabled: TAIL through a doorbell page, with ERROR when it runs too
far ahead; the aperture's base; reads of a BAR, through the aperture at home and tested by the Lodge; writes through it, which raise no set; host
memory itself. Before, and where the Lodge refuses, a read has no data. -/
def Obligations.host_accesses : Prop :=
  (∀ s : State, let p := s.fw.part s.args.part
    let n := if s.args.part = 24 then s.args.q else p.qbase.toNat + s.args.q
    s.fw.bars = true → s.args.link < 2 → s.args.part = 24 ∨ s.args.part < 24 ∧ s.args.q < p.qcount.toNat → n < 32768 →
    let x := mget {} s.fw.queues n
    let tail := BitVec.ofNat 32 s.args.m
    (∃ t, exec .doorbellTailWrite s = .next t ∧ t.dev = s.dev ∧
      mget {} t.fw.queues n = { x with tail, state := if x.entries < (tail - x.head).toNat then 2 else x.state } ∧
      ∀ q, q ≠ n → mget {} t.fw.queues q = mget {} s.fw.queues q) ∧
    (s.args.n = 2 → s.args.addr.toNat + s.args.m ≤ 4096 → exec .hostReadBar4 s = .next { s with dev := { s.dev with
      hostData := ((leBytes 16 x.record).drop s.args.addr.toNat ++ List.replicate s.args.m 0#8).take s.args.m, aborted := false } })) ∧
  (∀ s : State, s.fw.bars = true → s.args.link < 2 → s.args.part ≤ 24 →
    (∃ t, exec .registerWrite s = .next t ∧ t.dev = s.dev ∧ { t.fw with apertures := s.fw.apertures } = s.fw ∧
      ∀ l p, l < 2 → p ≤ 24 → t.fw.aperture l p =
        if l = s.args.link ∧ p = s.args.part ∧ s.args.n = 0x100 then s.args.addr else s.fw.aperture l p) ∧
    (s.args.n = 1 → s.args.addr.toNat + s.args.m ≤ 65536 →
      let entry := if s.args.part = 24 then List.replicate 128 0#8 else fitBytes 128 (s.fw.part s.args.part).bytes
      let page := entry ++ List.replicate 128 0#8 ++ leBytes 8 (s.fw.aperture s.args.link s.args.part).toNat
      exec .hostReadBar4 s = .next { s with dev := { s.dev with
        hostData := (page.drop s.args.addr.toNat ++ List.replicate s.args.m 0#8).take s.args.m, aborted := false } })) ∧
  (∀ (s : State) (va : Dword) (e : TlbEnt), s.args.n = 0 → apertureVa s.fw s.args.link s.args.part s.args.addr s.args.m = some va →
    onPage s s.args.part { r := true } va s.args.m = some e →
    (hostMayRead s.fw s.args.part (s.dev.frame e.ent).cur = true → s.dev.badU = [] → s.dev.badCorr = [] →
      exec .hostReadBar4 s = .next { s with dev := { s.dev with hostData := memBytes s.dev.mem (e.pa va) s.args.m, aborted := false } }) ∧
    (hostMayRead s.fw s.args.part (s.dev.frame e.ent).cur = false →
      ∃ t, exec .hostReadBar4 s = .next t ∧ t.dev.hostData = [] ∧ t.dev.aborted = true ∧ t.dev.cur = s.dev.cur)) ∧
  (∀ s : State, s.fw.bars = false → s.args.n ≤ 2 → exec .hostReadBar4 s = .next { s with dev := { s.dev with hostData := [], aborted := true } }) ∧
  (∀ (s : State) (va : Dword) (e : TlbEnt), apertureVa s.fw s.args.link s.args.part s.args.addr s.args.bytes.length = some va →
    onPage s s.args.part { w := true } va s.args.bytes.length = some e → s.dev.badU = [] →
    ∃ t, exec .hostWriteBar4 s = .next t ∧ Bytes s t (e.pa va) s.args.bytes ∧ t.dev.frames = s.dev.frames ∧ t.dev.cur = s.dev.cur ∧
      t.dev.rest = s.dev.rest ∧ t.fw = s.fw) ∧
  (∀ s : State, s.args.addr.toNat + s.args.bytes.length ≤ 2 ^ 40 →
    ∃ t, exec .hostMemoryWrite s = .next t ∧ Bytes s t (2 ^ 40 + s.args.addr.toNat) s.args.bytes ∧ t.dev.frames = s.dev.frames ∧ t.fw = s.fw ∧
      (s.args.ok = true → t.dev.cur = s.dev.cur ∧ t.dev.rest = s.dev.rest))

/-- R367, R369, R368, R105, R207, R216, R217: the self-test of a quarter, the clock, the patrol scrub, soft errors, which count when they strike
(entry 18), and a core's sampler: a tick that falls in a step finds the teams of its own cycle and steps the register, and its record is written then. -/
def Obligations.device_events : Prop :=
  (∀ s : State, s.args.core < 256 → s.args.n < 4 →
    let c := s.dev.core s.args.core
    let bit := BitVec.ofNat 4 (2 ^ s.args.n)
    let seq := (newSeq s.dev (limamon (s.args.core / 128))).1
    ∃ t, exec .matrixSelfTest s = .next t ∧ t.dev.cur = s.dev.cur ∧ t.dev.rest = s.dev.rest ∧
      t.dev.core s.args.core =
        if c.fence.getLsbD s.args.n then c
        else if s.args.ok then { c with lastPass := mset 0 c.lastPass s.args.n seq, ran := c.ran &&& ~~~bit }
        else { c with fence := c.fence ||| bit, slow := true, off := decide (c.fence ≠ 0), lastFail := seq, failQ := s.args.n }) ∧
  (∀ s : State, s.args.q < 2 → 800 ≤ s.args.m → s.args.m ≤ 1600 → s.args.m % 100 = 0 →
    ∃ t, exec .powerControl s = .next t ∧ t.dev = s.dev ∧ mget 1600 t.fw.rate s.args.q = s.args.m ∧
      ∀ d, d ≠ s.args.q → mget 1600 t.fw.rate d = mget 1600 s.fw.rate d) ∧
  (∀ s : State, let u := s.args.addr.toNat / 8
    8 * u < 2 ^ 39 →
    ∃ t, exec .patrolScrub s = .next t ∧ t.dev.cur = s.dev.cur ∧ t.dev.rest = s.dev.rest ∧ t.dev.frames = s.dev.frames ∧
      (u ∉ s.dev.badU → t.dev.badU = s.dev.badU ∧ (∀ a, byteAt t a = byteAt s a) ∧ u ∉ t.dev.badCorr) ∧
      let mi := match s.fw.partOfFrame (8 * u / 65536) with | some p => s.dev.merge p.2 | none => false
      (u ∈ s.dev.badU → (t.dev.stackErr, t.dev.sliceErr) = ((countErr s.dev false mi u).stackErr, (countErr s.dev false mi u).sliceErr))) ∧
  (∀ (s : State) (a : Nat) (hbm : Bool), s.args.site = (if hbm then .hbm a else .l2 a) → a < 2 ^ 39 →
    ∃ t, exec .softError s = .next t ∧ t.dev.cur = s.dev.cur ∧ (∀ b, byteAt t b = byteAt s b) ∧
      if s.args.ok then t.dev.badU = s.dev.badU ∧ (a / 8 ∈ t.dev.badU ∨ a / 8 ∈ t.dev.badCorr)
      else a / 8 ∈ t.dev.badU ∧ a / 8 ∉ t.dev.badCorr) ∧
  (∀ (s u : State) (tid r l : Nat), s.args.site = .register tid r l → r < 124 → l < 1024 → (s.dev.focus tid).map (fun d => { s with dev := d }) = some u →
    ∃ t, exec .softError s = .next t ∧ Kept u t [] [] [] [] ∧
      if s.args.ok then t.dev.cur.badV = u.dev.cur.badV else ∀ x, x ∈ t.dev.cur.badV ↔ x = 1024 * r + l ∨ x ∈ u.dev.cur.badV) ∧
  (∀ (s u : State) (tid h w : Nat), s.args.site = .scratch tid h w → h < 2 → w < 2 ^ 20 → (s.dev.focus tid).map (fun d => { s with dev := d }) = some u →
    ∃ t, exec .softError s = .next t ∧ Kept u t [] [] [] [] ∧
      if s.args.ok then t.dev.cur.badS = u.dev.cur.badS else ∀ x, x ∈ t.dev.cur.badS ↔ x = h * 2 ^ 20 + w ∨ x ∈ u.dev.cur.badS) ∧
  (∀ (s u : State) (tid h a i : Nat), s.args.site = .tile tid h a i → h < 2 → a < 48 → i < 1024 → (s.dev.focus tid).map (fun d => { s with dev := d }) = some u →
    ∃ t, exec .softError s = .next t ∧ Kept u t [] [] [] [] ∧
      if s.args.ok then t.dev.cur.badT = u.dev.cur.badT else ∀ x, x ∈ t.dev.cur.badT ↔ x = 1024 * (64 * h + a) + i ∨ x ∈ u.dev.cur.badT) ∧
  (∀ (s : State) (who : Option Nat) (c : Nat), let x := (s.dev.core c).sampler
    let n := stepCycles who s.dev
    let k := (x.tick + 2 ^ 48 - s.dev.time.toNat) % 2 ^ 48
    let y := ((tick who s).dev.core c).sampler
    x.on = true → 256 ≤ x.b → s.fw.rate = [] → s.dev.phase = [] → n ≤ 128 →
    (n ≤ k → y = x) ∧
    (k < n → (y.l, y.next, y.tick, y.last, y.drop) =
        (lfsr x.l, x.next + 1, (x.tick + x.b - 128 + (lfsr x.l).toNat % 256) % 2 ^ 48, x.last, x.drop) ∧
      ∃ f, y.found = x.found ++ [f] ∧ f.time = x.tick ∧ f.num = x.next ∧
        (∀ i, f.issued = some i → ∃ m ∈ s.dev.teams, who = some m.key ∧ m.slot = x.next % 4 ∧ c ∈ m.cores ∧ i = (m.teamId.toNat, m.ipc.toNat)) ∧
        ∀ b ∈ f.blocked, ∃ m ∈ s.dev.teams, c ∈ m.cores ∧ (b.1, b.2.1, b.2.2.1) = (m.teamId.toNat, m.pc.toNat, m.slot))) ∧
  (∀ (s : State) (p : Nat) (f : Found) (r : List Found), let x := (s.dev.core s.args.core).sampler
    let picked := fun (u : Nat × Nat × Nat × Nat) => u ∈ f.blocked ∧
      (x.last.toNat < u.1 ∧ (∀ v ∈ f.blocked, x.last.toNat < v.1 → u.1 ≤ v.1) ∨ (∀ v ∈ f.blocked, v.1 ≤ x.last.toNat ∧ u.1 ≤ v.1))
    x.found = f :: r → s.fw.partOfCore s.args.core = some p → (f.blocked.map (·.1)).Nodup →
    ∃ t bs, exec .samplerTick s = .next t ∧ t.dev.cur = s.dev.cur ∧ t.dev.rest = s.dev.rest ∧ bs.length = 64 ∧
      fieldAt bs 0 8 = (f.time * 2 ^ 16 + (0x900 + s.args.core) * 16) % 2 ^ 64 ∧ fieldAt bs 36 28 = 0 ∧
      fieldAt bs 35 1 = (if f.issued.isSome then 1 else 0) + (if f.blocked = [] then 0 else 2) ∧
      (∀ i, f.issued = some i → (fieldAt bs 24 4, fieldAt bs 8 8, fieldAt bs 32 1) = (i.1 % 2 ^ 32, i.2 % 2 ^ 64, f.num % 4)) ∧
      (f.issued = none → fieldAt bs 24 4 = 0xFFFFFFFF) ∧ (f.blocked = [] → fieldAt bs 28 4 = 0xFFFFFFFF) ∧
      let y := (t.dev.core s.args.core).sampler
      (∀ u, picked u → (fieldAt bs 28 4, fieldAt bs 16 8, fieldAt bs 33 1, fieldAt bs 34 1) = (u.1 % 2 ^ 32, u.2.1 % 2 ^ 64, u.2.2.1 % 256, u.2.2.2 % 256) ∧
        y.last = BitVec.ofNat 32 u.1) ∧
      (f.blocked = [] → y.last = x.last) ∧ (y.found, y.l, y.next, y.tick) = (r, x.l, x.next, x.tick) ∧
      match ringPost .limamon s.fw s.dev p x.ring bs 0 with
      | some d => t.dev.mem = d.mem ∧ y.drop = x.drop
      | none => t.dev.mem = s.dev.mem ∧ y.drop = satInc x.drop)

/-! ### Limamon: translations, teams, saves -/

/-- R127-R134, R126: a walk that finds a translation fills the TLB of the core; a team held by a fault restarts at its restart point once its page
translates, and takes the trap of R134 where it never will; a page that nothing pins, nor an accepted Kudu command will, may be moved: it is
COPYING, then MOVED, and has its bytes in its new frame afterwards, described by an entry of its own. -/
def Obligations.translations : Prop :=
  (∀ (s u : State) (e : TlbEnt), acting s = some u → isTranslated s.args.addr = true →
    freshXl u.fw u.dev u.dev.cur.part 0 (vpnOf s.args.addr) = .ok e →
    let c := if s.args.n = 1 ∧ u.dev.cur.paired = true then u.dev.cur.core + 1 else u.dev.cur.core
    ∃ t, exec .pageWalk s = .next t ∧ Kept u t [] [] [] [] ∧ Quiet u t u.dev.cur.regs.cc 0 ∧
      tlbFind t.dev c u.dev.cur.part 0 (vpnOf s.args.addr) = some e) ∧
  (∀ (s u : State) (f : TFault), acting s = some u → s.args.op = 0 → s.args.ok = true → u.dev.cur.wait = .tfault f →
    repairOf u.fw u.dev u.dev.cur.part f.va = .there →
    ∃ t, exec .translationFaultResolve s = .next t ∧ At t u.dev.cur.restart .ready ∧ Kept u t [] [] [] [] ∧ Quiet u t u.dev.cur.regs.cc 0) ∧
  (∀ (s u : State) (f : TFault), acting s = some u → s.args.op = 0 → s.args.ok = false → u.dev.cur.wait = .tfault f →
    repairOf u.fw u.dev u.dev.cur.part f.va = .missing → ∃ t, exec .translationFaultResolve s = .next t ∧ TakesTrap u t f.trap) ∧
  (∀ s : State, let f := s.dev.frame s.args.q
    f.v = true → f.pin = 0 → f.mig = 0 → kuduHolds s.fw s.dev s.args.q = false →
    ∃ t, exec .migrationStart s = .next t ∧ { t with dev := { t.dev with frames := s.dev.frames } } = s ∧ t.dev.frame s.args.q = { f with mig := 1 } ∧
      ∀ n, n ≠ s.args.q → t.dev.frame n = s.dev.frame n) ∧
  (∀ s : State, let f := s.dev.frame s.args.q
    f.mig = 1 → (s.dev.teams.all fun t => t.ops.all fun o => o.done || !(o.kind.onEntry s.args.q)) = true →
    ∃ t, exec .migrationEnd s = .next t ∧ { t with dev := { t.dev with frames := s.dev.frames } } = s ∧ t.dev.frame s.args.q = { f with mig := 2 } ∧
      ∀ n, n ≠ s.args.q → t.dev.frame n = s.dev.frame n) ∧
  (∀ (s : State) (i j : Nat) (x y : Extent), let q := s.args.q
    let m := s.args.m
    let p := q / 2 ^ 26
    let f := s.dev.frame q
    let src := stage2 x q * 65536
    let dst := stage2 y m * 65536
    MemoryCanonical s → m / 2 ^ 26 = p → extentOf s.fw p q = some (i, x) → extentOf s.fw p m = some (j, y) → f.mig = 2 →
    (s.dev.frame m).v = false → q ≠ m → src ≠ dst → (s.dev.teams.all fun t => t.ops.all fun o => o.done || !(o.kind.onEntry q)) = true →
    ∃ t, exec .migrationEnd s = .next t ∧ (∀ a, a < 65536 → byteAt t (dst + a) = byteAt s (src + a)) ∧
      (∀ c, c < dst ∨ dst + 65536 ≤ c → byteAt t c = byteAt s c) ∧ t.dev.frame m = { f with mig := 0, link := (t.dev.frame m).link } ∧
      (t.dev.frame q).v = false ∧ (∀ n, n ≠ q → n ≠ m → { t.dev.frame n with link := 0 } = { s.dev.frame n with link := 0 }) ∧
      (∀ c, ∀ e ∈ (t.dev.core c).tlb, e.part ≠ p) ∧ t.dev.cur.regs = s.dev.cur.regs ∧ t.dev.cur.sp = s.dev.cur.sp ∧
      ∀ g, s.dev.cur.wait = .tfault g → s.dev.cur.part = p → vpnOf g.va = f.vpn.toNat → At t s.dev.cur.restart .ready)

/-- R34, R154, R139, R149, R8: what Limamon creates of a launch's next team: its registers, its place, its pins; the launch has one team more.
R36, R149, R213, R139, R175: a team whose tokens are zero ends: its exit record is written at the next index of its launch's array, its pins
and places are free, and the launch has one team less; with the last one it is gone, and its command completes. -/
def Obligations.teams_start_and_end : Prop :=
  (∀ (s : State) (k : Nat) (runs : List Runs), let a := s.args
    let l := mget {} s.dev.launches k
    let pins := areaEnts s.fw s.dev a.part (Config.saveAreaOf s.dev.nextKey) (saveBytes l.decl)
    listHead s.dev a.part = some (.launch k) → s.fw.goes a.part = true → s.fw.hasCore a.part a.core = true →
    placeTeam s.dev.teams a.core a.slot l.decl = some runs → canPin s.dev pins = true →
    ∃ t m, exec .teamCreate s = .next t ∧ t.dev.cur = s.dev.cur ∧ t.dev.rest = s.dev.rest ++ [m] ∧ t.dev.mem = s.dev.mem ∧
      t.dev.frames = (pinFrames s.dev pins).frames ∧ m.pins = pins ∧
      (m.live, m.part, m.launchId, m.index, m.core, m.slot, m.decl, m.runs) = (true, a.part, l.launchId, l.made, a.core, a.slot, l.decl, runs) ∧
      (m.pc, m.restart, m.wait, m.hints, m.ops, m.sessions, m.sp) = (l.decl.entry, l.decl.entry, .ready, [], [], [], ({} : Special)) ∧
      (∀ r, mget ({} : SVal) m.regs.s r = { val := (if r = 0 then BitVec.ofNat 64 l.made else if r = 1 then l.arg else if r = 2 then BitVec.ofNat 64 l.count
        else if r = 3 then BitVec.ofNat 64 l.decl.lanes else 0) }) ∧
      (∀ r, mget 0 m.regs.k r = if r = 0 then allLanes l.decl.lanes else 0) ∧
      (m.regs.v, m.regs.cc, m.regs.labels, m.regs.tiles, m.regs.scr, m.regs.hnd) = ([], ({} : CC), [], [], [], []) ∧
      (mget {} t.dev.launches k) = { l with made := l.made + 1 } ∧
      t.dev.list = (if l.made + 1 < l.count then s.dev.list else dropFirst (fun x => x == .launch k) s.dev.list) ∧
      m.teamId.toNat = mget 0 s.fw.nextTeam a.part % 0xFFFFFFFF ∧ (m.bound.core, m.bound.pkg, m.bound.sys) = (s.dev.wn, s.dev.wn, s.dev.wn) ∧
      (∀ c ∈ m.cores, (t.dev.core c).l1 = [])) ∧
  (∀ (s u : State) (st : Nat) (tr : Option TrapInfo), acting s = some u → u.dev.cur.wait = .exit st tr → u.dev.cur.ops = [] →
    let l := mget {} u.dev.launches u.dev.cur.launch
    l.exits = 0 → 1 < l.left →
    ∃ t, exec .teamExitComplete s = .next t ∧ t.dev.cur.live = false ∧ t.dev.rest = u.dev.rest ∧ t.dev.mem = u.dev.mem ∧
      t.dev.frames = (unpinFrames u.dev u.dev.cur.pins).frames ∧ t.dev.launches = mins u.dev.launches u.dev.cur.launch { l with left := l.left - 1 }) ∧
  (∀ (s u : State) (st : Nat) (tr : Option TrapInfo), acting s = some u → u.dev.cur.wait = .exit st tr → u.dev.cur.ops = [] →
    let l := mget {} u.dev.launches u.dev.cur.launch
    l.left ≤ 1 → l.graph = none →
    ∃ t, exec .teamExitComplete s = .next t ∧ t.dev.cur.live = false ∧ t.dev.rest = u.dev.rest ∧ t.dev.launches = mdel u.dev.launches u.dev.cur.launch ∧
      ∀ n, l.cmd = some n → t.dev.cmd n = none) ∧
  (∀ (s u : State) (st : Nat) (tr : Option TrapInfo) (e : TlbEnt), acting s = some u → u.dev.cur.wait = .exit st tr → u.dev.cur.ops = [] →
    let m := u.dev.cur
    let l := mget {} u.dev.launches m.launch
    let a := e.pa l.exits
    let k := memNat u.dev.mem a 8
    let r := a + 64 + 256 * k
    l.exits ≠ 0 → 1 < l.left → onPage u m.part { r := true, w := true, e := true } l.exits (64 + 256 * (k + 1)) = some e → u.dev.badU = [] →
    k < memNat u.dev.mem (a + 16) 8 →
    ∃ t, exec .teamExitComplete s = .next t ∧ memNat t.dev.mem a 8 = k + 1 ∧ memNat t.dev.mem r 8 = (newSeq u.dev m.unit).1.toNat ∧
      memNat t.dev.mem (r + 8) 4 = m.teamId.toNat ∧ memNat t.dev.mem (r + 12) 4 = m.index % 2 ^ 32 ∧ memNat t.dev.mem (r + 16) 1 = m.core % 256 ∧
      memNat t.dev.mem (r + 17) 1 = m.slot % 256 ∧ memNat t.dev.mem (r + 18) 1 = st % 256 ∧ memNat t.dev.mem (r + 24) 8 = m.start.toNat ∧
      memNat t.dev.mem (r + 32) 8 = m.resident.toNat ∧ memNat t.dev.mem (r + 40) 8 = m.issued.toNat ∧
      (∀ j, j < 16 → memNat t.dev.mem (r + 64 + 8 * j) 8 = (mget 0 m.stall j).toNat) ∧
      ∀ c, (c < a ∨ a + 8 ≤ c) → (c < r ∨ r + 256 ≤ c) → byteAt t c = byteAt u c)

/-- R222, R155, R158, R159: a drained trap is entered, or ends a team without a handler; compaction marks the teams of its core, moves each at a
LIVE point or YIELD and changes nothing else of them, and one that moves alone takes the lowest places; a team leaves the active set; the longest idle team is to be saved. -/
def Obligations.team_life : Prop :=
  (∀ (s u : State) (i : TrapInfo), acting s = some u → u.dev.cur.wait = .trap i → u.dev.cur.drained = true → u.dev.cur.decl.handler ≠ 0 →
    ∃ t, exec .trapEntry s = .next t ∧ Untouched u t ∧ Trapped u t i) ∧
  (∀ (s u : State) (i : TrapInfo), acting s = some u → u.dev.cur.wait = .trap i → u.dev.cur.drained = true → u.dev.cur.decl.handler = 0 →
    ∃ t, exec .trapEntry s = .next t ∧ Ended u t i) ∧
  (∀ (s : State) (p : Nat × Part) (since : Nat) (x : ListItem), p ∈ s.fw.parts →
    mfind s.dev.waitSince p.1 = some (x.mark s.dev, since) → listHead s.dev p.1 = some x → p.2.cwait.toNat ≤ elapsed s.dev since →
    wouldFit s.fw s.dev.teams p.1 s.args.core (x.decl s.dev) = true → (∀ m ∈ s.dev.teams, m.slide = []) →
    (∃ m ∈ s.dev.teams, (m.runsOn s.args.core).isSome = true) → (s.dev.teams.map (·.key)).Nodup →
    ∃ t, exec .compaction s = .next t ∧ { t with dev := { t.dev with cur := s.dev.cur, rest := s.dev.rest } } = s ∧
      t.dev.teams = s.dev.teams.map fun m => if (m.runsOn s.args.core).isSome then { m with slide := [s.args.core] } else m) ∧
  (∀ s : State, let slides := fun (m : Team) => m.slide.contains s.args.core && movable s.fw s.dev m
    (∃ m ∈ s.dev.teams, slides m = true) →
    ∃ t, exec .compaction s = .next t ∧ { t with dev := { t.dev with cur := s.dev.cur, rest := s.dev.rest } } = s ∧
      unplaced t.dev.cur = unplaced s.dev.cur ∧ t.dev.rest.map unplaced = s.dev.rest.map unplaced ∧
      ((s.dev.teams.map (·.key)).Nodup → (∀ m ∈ s.dev.teams, slides m = false → m ∈ t.dev.teams) ∧
        ∀ (m : Team) (r : Runs), s.dev.teams.filter slides = [m] → (m.runsOn s.args.core).isSome = true →
          placeHalf (s.dev.teams.filter fun y => y.key != m.key) s.args.core m.decl = some r →
          ∃ n ∈ t.dev.teams, n.key = m.key ∧ n.runsOn s.args.core = some r ∧ n.active = false ∧ n.slide.contains s.args.core = false)) ∧
  (∀ (s u : State), acting s = some u → let t := u.dev.cur
    t.active = true → t.isReady u.fw u.dev = false → t.inRun = false → t.hints = [] ∨ t.wait ≠ .ready → 64 ≤ elapsed u.dev t.lastReady →
    (∃ m ∈ u.dev.teams, m.slot = t.slot ∧ (∃ c ∈ t.cores, c ∈ m.cores) ∧ m.active = false ∧ m.isReady u.fw u.dev = true) →
    exec .activeSetEviction s = .next { u with dev := u.dev.upd fun t => { t with active := false } }) ∧
  (∀ (s : State) (x : ListItem) (v : Team) (d : Dev), listHead s.dev s.args.part = some x → s.fw.hasCore s.args.part s.args.core = true →
    let here := s.dev.teams.filter fun t => t.cores.contains s.args.core
    v ∈ here → (∀ m ∈ here, v.lastIssue < m.lastIssue ∨ v.lastIssue = m.lastIssue ∧ v.teamId.toNat < m.teamId.toNat ∨ m = v) →
    (∀ c, s.fw.hasCore s.args.part c = true → fitsOn s.dev.teams (x.decl s.dev) c = false) → (∀ m ∈ here, (s.fw.part s.args.part).pwin.toNat ≤ elapsed s.dev m.lastIssue) →
    v.save = none → s.dev.focus v.key = some d →
    exec .progressSwap s = .next { s with dev := d.upd fun t => { t with save := some .live, saveAt := s.dev.time.toNat } })

/-- R227-R229, R159, R355: Limamon requests a save; it waits for the team's operations with the streams suspended; then header and data are in the save
area, whose page takes the origins of all they hold (entry 48), the team is gone, and its restore stands before the launches of its priority. R206,
R227, R194: a restore rebuilds the team from its area; its session reopens in a free store. -/
def Obligations.saves : Prop :=
  (∀ s u : State, acting s = some u → u.dev.cur.save = none → (∀ st tr, u.dev.cur.wait ≠ .exit st tr) →
    exec .save s = .next { u with dev := u.dev.upd fun t => { t with save := some .live, saveAt := u.dev.time.toNat } }) ∧
  (∀ (i : Instr) (s u : State) (k : Machine.Kept) (e : TlbEnt), acting s = some u → saveKept i u = some k → nothingToDrain u = true →
    let m := writtenTeam i u
    let data := dataImage m k
    let head := headImage m k (newSeq u.dev (limamon 0)).1 data.length
    onPage u m.part fwW m.saveArea (16384 + data.length) = some e → u.dev.badU = [] →
    let a := e.pa m.saveArea
    ∃ t, exec i s = .next t ∧ t.dev.cur.live = false ∧ t.dev.rest = u.dev.rest ∧ t.fw = u.fw ∧ head.length = 5120 ∧
      memBytes t.dev.mem a 5120 = head ∧ memBytes t.dev.mem (a + 5256) 2936 = List.replicate 2936 0 ∧ memBytes t.dev.mem (a + 16384) data.length = data ∧
      (∀ c, (c < a ∨ a + 5120 ≤ c) → (c < a + 5256 ∨ a + 8192 ≤ c) → (c < a + 16384 ∨ a + 16384 + data.length ≤ c) → byteAt t c = byteAt u c) ∧
      (let x : Swapped := ⟨m.part, m.prio, m.launch, m.saveArea, m.pins, m.decl, m.key, m.teamId, m.halted, (m.streams.flatMap (·.2.under)).eraseDups⟩
       t.dev.list = listedBefore u.dev (.restore x) m.prio) ∧
      ∀ n, t.dev.frame n = let f := (unpinFrames u.dev (m.ops.flatMap (·.pins))).frame n
        if n = e.ent then { f with cur := f.cur ||| imageSet m } else f) ∧
  (∀ (i : Instr) (s u : State) (k : Machine.Kept), acting s = some u → saveKept i u = some k → nothingToDrain u = false →
    u.dev.cur.ops.map suspendOp ≠ u.dev.cur.ops ∨ u.dev.cur.save ≠ some (drainsAs i) →
    ∃ t, exec i s = .next t ∧ Kept u t [] [] [] [] ∧ t.dev.cur.ops = u.dev.cur.ops.map suspendOp ∧ t.dev.cur.save = some (drainsAs i) ∧
      (t.dev.cur.pc, t.dev.cur.wait, t.dev.cur.hints) = (u.dev.cur.pc, u.dev.cur.wait, u.dev.cur.hints)) ∧
  (∀ (s u : State) (x : Session), acting s = some u → s.args.tid ≠ 0 → u.dev.cur.reopen = some x → u.dev.stores < 4 →
    exec .teamRestore s = .next { u with dev := u.dev.upd fun t => { t with sessions := [x], reopen := none } }) ∧
  (∀ (s : State) (x : Swapped) (h bs : List Byte) (runs : List Runs), let l := mget {} s.dev.launches x.launch
    let k := x.decl
    s.args.tid = 0 → listHead s.dev s.args.part = some (.restore x) → x.pins ≠ [] → s.fw.goes x.part = true → s.fw.hasCore x.part s.args.core = true →
    placeTeam s.dev.teams s.args.core s.args.slot k = some runs → s.dev.cur.key ≠ x.key → (∀ m ∈ s.dev.rest, m.key ≠ x.key) → s.dev.badCorr = [] →
    savedParts s.fw (firmAcquire s.dev) x = some (h, bs) → fieldAt h 1 1 = 2 → fieldAt h 41 1 = 0 → k.lanes % 2 = 0 → k.lanes ≤ 512 →
    (fieldAt h 4 2, fieldAt h 6 1, fieldAt h 7 1, 256 * fieldAt h 36 4, fieldAt h 40 1) = (k.lanes, k.group, k.vregs, k.scratch, k.acc) →
    let w := k.lanes
    let n := k.vregs
    ∃ t m, exec .teamRestore s = .next t ∧ t.dev.cur = s.dev.cur ∧ t.dev.rest = s.dev.rest ++ [m] ∧
      (m.live, m.key, m.part, m.launch, m.core, m.slot, m.runs) = (true, x.key, x.part, l.key, s.args.core, s.args.slot, runs) ∧
      (m.prio, m.saveArea, m.pins, m.decl, m.halted) = (x.prio, x.area, x.pins, k, x.halted) ∧
      (m.bound.core, m.bound.pkg, m.bound.sys) = (s.dev.wn, s.dev.wn, s.dev.wn) ∧
      (m.pc.toNat, m.restart.toNat, m.teamId.toNat, m.launchId.toNat, m.index) = (fieldAt h 8 8, fieldAt h 16 8, fieldAt h 24 4, fieldAt h 28 4, fieldAt h 32 4) ∧
      (m.wait, m.ops, m.sessions, m.reopen) = (.ready, [], [], none) ∧
      (∀ i, 1 ≤ i → i < 16 → (mget 0 m.regs.labels i).toNat = fieldAt h (64 + 4 * i) 4) ∧
      (∀ r, r < 63 → (mget {} m.regs.s r).val.toNat = fieldAt h (256 + 8 * r) 8 ∧ (mget {} m.regs.s r).lbl.toNat = nibbleAt (h.drop 768) r) ∧
      (∀ r, r < 16 → (mget 0 m.regs.k r).toNat = fieldAt h (1312 + 132 * r) 128) ∧
      (∀ r l, r < n → l < w → m.regs.lane r l =
        { val := BitVec.ofNat 32 (fieldAt bs (r * (4 * w + w / 2) + 4 * l) 4), lbl := BitVec.ofNat 4 (nibbleAt (bs.drop (r * (4 * w + w / 2) + 4 * w)) l) }) ∧
      (∀ i, i < 64 * fieldAt h 36 4 → (mget {} m.regs.scr i).val.toNat = fieldAt bs (n * (4 * w + w / 2) + 4 * i) 4) ∧
      (s.dev.cmds = [] → t.dev.list = dropFirst (fun y => y == .restore x) s.dev.list ∧ t.dev.mem = s.dev.mem ∧
        t.dev.frames = s.dev.frames))

/-! ### Graphs (R74, R197-R202) -/

/-- R198, R199, R154, R201, R168: a replay starts with the newest staged values; its KERNEL node is launched as LAUNCH launches, or ends the replay
with a status; a COMMIT node delivers a row's tokens into its ring and takes the row on, or parks the row when the ring has no space; the next node
follows the last team of a KERNEL node. -/
def Obligations.graph_replays : Prop :=
  (∀ (s : State) (c : Cmd) (h : Nat), let x := s.dev.graph s.args.q
    x.running = none → graphWaiting s.dev s.args.q = some c → c.wait = .replay h → x.made = true →
    ∃ t, exec .graphReplayStart s = .next t ∧ { t with dev := { t.dev with graphs := s.dev.graphs } } = s ∧
      (∀ g, g ≠ s.args.q → t.dev.graph g = s.dev.graph g) ∧
      let y := t.dev.graph s.args.q
      (y.made, y.nodes, y.running, y.busy, y.cmd, y.staged) = (true, x.nodes, some 0, false, some c.id, []) ∧
      (∀ n, n < 64 → (mget 0 y.gp n, mget 0 y.org n) = match newest x.staged n with | some v => (v.val, v.org) | none => (mget 0 x.gp n, mget 0 x.org n)) ∧
      ∀ n, n < 64 → (newest x.staged n = none ↔ ∀ v ∈ x.staged, v.n ≠ n) ∧ ∀ v, newest x.staged n = some v → v ∈ x.staged ∧ v.n = n ∧
        ((∀ w ∈ x.staged, w.seq.toNat < 2 ^ 62) → ∀ w ∈ x.staged, w.n = n → w.seq.toNat ≤ v.seq.toNat)) ∧
  (∀ (s : State) (n : Node) (rb : List Byte), let g := s.args.q
    let bs := List.replicate 16 0#8 ++ n.ops
    let k := declOf rb
    let p := g / 1024
    (s.dev.graph g).node = some n → n.kernel = true → s.dev.moved = false → namedOnly n.ops [(16, 8), (24, 8), (32, 4), (40, 8)] = true → (operVa bs 16).toNat % 64 = 0 →
    1 ≤ oper bs 32 4 → oper bs 32 4 ≤ 2 ^ 24 → fwRead s.fw s.dev p (operVa bs 16) 64 = some rb → recordOk rb = true →
    (DeclLimits k →
      let l := newLaunch s p (replayPrio s.fw s.dev g) k (operVa bs 24) (oper bs 32 4) (operVa bs 40) none (some g)
      let d := { s.dev with launches := mins s.dev.launches s.dev.nextKey l, nextKey := s.dev.nextKey + 1 }
      exec .kernelNodeStart s = .next { s with
        fw := { s.fw with nextLaunch := mset 0 s.fw.nextLaunch p ((mget 0 s.fw.nextLaunch p + 1) % 2 ^ 32) }
        dev := { d with graphs := mupd {} d.graphs g (fun y => { y with busy := true }), list := listedBehind d (.launch s.dev.nextKey) (replayPrio s.fw s.dev g) } }) ∧
    (¬DeclLimits k → ∃ t, exec .kernelNodeStart s = .next t ∧ (t.dev.graph g).running = none ∧ t.dev.launches = s.dev.launches ∧ t.dev.list = s.dev.list)) ∧
  (∀ (s u : State) (st : Nat) (tr : Option TrapInfo) (g i : Nat), acting s = some u → u.dev.cur.wait = .exit st tr → u.dev.cur.ops = [] →
    let l := mget {} u.dev.launches u.dev.cur.launch
    l.left ≤ 1 → l.exits = 0 → l.cmd = none → l.graph = some g → (u.dev.graph g).running = some i → i + 1 < (u.dev.graph g).nodes.length →
    ∃ t, exec .teamExitComplete s = .next t ∧ t.dev.graph g = { u.dev.graph g with running := some (i + 1), busy := false }) ∧
  (∀ (s : State) (n : Node) (i : Nat) (e : Nat → TlbEnt), let g := s.args.q
    let x := commitOf g (s.dev.graph g)
    let at_ := fun (j va : Nat) => (e j).pa (BitVec.ofNat 64 va)
    (s.dev.graph g).node = some n → n.kernel = false → n.retry = false → s.dev.moved = false → (s.dev.graph g).running = some i → i + 1 < (s.dev.graph g).nodes.length →
    x.ok s.fw s.dev = true → x.rows = 1 → s.dev.badU = [] → s.dev.badCorr = [] → limAcquired (onDev s (firmAcquire s.dev)) →
    let raw := memBytes s.dev.mem (at_ 0 (x.commit + 64)) 64
    let m := memNat s.dev.mem (at_ 1 x.rowmap) 8
    let desc := x.rings + 32 * rmSlot m
    let ring := memBytes s.dev.mem (at_ 2 desc) 32
    let base := fieldAt ring 0 8
    let lg := fieldAt ring 24 1
    let head := memNat s.dev.mem (at_ 3 (fieldAt ring 8 8)) 4
    let tail := memNat s.dev.mem (at_ 4 (fieldAt ring 16 8)) 4
    let k := fieldAt raw 0 1
    let tok := fun (j : Nat) => fieldAt raw (8 + 4 * j) 4
    let areas := [(at_ 0 x.commit, 128), (at_ 1 x.rowmap, 24), (at_ 2 desc, 32), (at_ 3 (fieldAt ring 8 8), 4), (at_ 4 (fieldAt ring 16 8), 4), (at_ 5 x.hold, 4), (at_ 6 base, 16 * 2 ^ lg)]
    (∀ j va len, (j, va, len) ∈ [(0, x.commit, 128), (1, x.rowmap, 24), (2, desc, 32), (3, fieldAt ring 8 8, 4), (4, fieldAt ring 16 8, 4), (5, x.hold, 4), (6, base, 16 * 2 ^ lg)] →
      va < 2 ^ 64 ∧ onPage s x.part { r := true, w := true, e := true } (BitVec.ofNat 64 va) len = some (e j) ∧ (e j).isHost = false) →
    areas.Pairwise (fun a b => a.1 + a.2 ≤ b.1 ∨ b.1 + b.2 ≤ a.1) →
    badRecord raw = false → ringDesc ring ≠ none → rmState m = 0 → 1 ≤ k → (∀ j, j < k → tok j < x.vocab) →
    let set := (s.dev.frame (e 0).ent).cur
    set &&& ~~~(e 6).ceil = 0 → set &&& ~~~(e 1).ceil = 0 →
    ∃ t, exec .commitNode s = .next t ∧ t.dev.graph g = { s.dev.graph g with running := some (i + 1), busy := false } ∧ t.dev.cur = s.dev.cur ∧
      t.dev.rest = s.dev.rest ∧ (∀ c, (∀ a ∈ areas, c < a.1 ∨ a.1 + a.2 ≤ c) → byteAt t c = byteAt s c) ∧
      if 2 ^ lg < (tail + 2 ^ 32 - head) % 2 ^ 32 + k then
        memNat t.dev.mem (at_ 1 x.rowmap) 8 = rmWith m 3 (rmTap m) (rmDepth m) ∧ memNat t.dev.mem (at_ 1 x.rowmap + 16) 4 = tok 0 ∧
        memNat t.dev.mem (at_ 5 x.hold) 4 % 2 = 1 ∧ memNat t.dev.mem (at_ 4 (fieldAt ring 16 8)) 4 = tail ∧
        (t.dev.frame (e 1).ent).cur = (s.dev.frame (e 1).ent).cur ||| set
      else
        (∀ j, j < k → memNat t.dev.mem (at_ 6 base + 16 * ((tail + j) % 2 ^ lg)) 4 = tok j ∧
          memNat t.dev.mem (at_ 6 base + 16 * ((tail + j) % 2 ^ lg) + 4) 4 = (rmTok m + j) % 2 ^ 32) ∧
        memNat t.dev.mem (at_ 4 (fieldAt ring 16 8)) 4 = (tail + k) % 2 ^ 32 ∧ memNat t.dev.mem (at_ 5 x.hold) 4 % 2 = 0 ∧
        rmState (memNat t.dev.mem (at_ 1 x.rowmap) 8) = 0 ∧ rmTok (memNat t.dev.mem (at_ 1 x.rowmap) 8) = (rmTok m + k) % 2 ^ 24 ∧
        memNat t.dev.mem (at_ 0 (x.commit + 64)) 2 = 0 ∧ memNat t.dev.mem (at_ 0 (x.commit + 8)) 8 = (memNat s.dev.mem (at_ 0 (x.commit + 8)) 8 + k) % 2 ^ 64 ∧
        memNat t.dev.mem (at_ 0 (x.commit + 104)) 8 = memNat t.dev.mem (at_ 6 base + 16 * ((tail + k - 1) % 2 ^ lg) + 8) 8 ∧
        (t.dev.frame (e 6).ent).cur = (s.dev.frame (e 6).ent).cur ||| set)

/-! ### Host commands -/

/-- R152, R351, R354, R364, R225: what a completed command leaves at its completion address and which vector it raises; a command without privilege, with
reserved bits or unnamed operand bytes that are not 0, or with a bad completion address is not performed; an entry of no command neither. -/
def Obligations.command_completions : Prop :=
  (∀ (s : State) (w : Fw) (c : Cmd) (st : Nat), c.comp = 0 →
    completion w s.dev c st = { s.dev with msix := s.dev.msix ++ if c.notify then [(w.function c.q, (mget {} w.queues c.q).vec)] else [] }) ∧
  (∀ (s : State) (c : Cmd) (st : Nat) (e : TlbEnt), c.comp ≠ 0 → c.comp.toNat % 8 = 0 → st < 2 ^ 16 → onPage s c.part fwW c.comp 8 = some e → s.dev.badU = [] →
    let t := onDev s (completion s.fw s.dev c st)
    memNat t.dev.mem (e.pa c.comp) 2 = st ∧ memNat t.dev.mem (e.pa c.comp + 2) 2 = 0 ∧ memNat t.dev.mem (e.pa c.comp + 4) 4 = c.tag.toNat ∧
      (∀ a, a < e.pa c.comp ∨ e.pa c.comp + 8 ≤ a → byteAt t a = byteAt s a) ∧ t.dev.frames = s.dev.frames ∧ t.dev.cur = s.dev.cur ∧ t.dev.rest = s.dev.rest ∧
      t.dev.msix = s.dev.msix ++ if c.notify then [(s.fw.function c.q, (mget {} s.fw.queues c.q).vec)] else []) ∧
  (∀ (i : Instr) (s : State) (bs : List Byte) (x : Right × List (Nat × Nat)), commandForm i = some x → Takes i s bs →
    (4 ≤ fieldAt bs 1 1 ∨ fieldAt bs 2 2 ≠ 0 → Ends i s bs 1 (takenFw s) s.dev) ∧
    (fieldAt bs 1 1 < 4 ∧ fieldAt bs 2 2 = 0 ∧ x.1.ok s.fw s.args.q = false → Ends i s bs 3 (takenFw s) s.dev) ∧
    (fieldAt bs 1 1 < 4 ∧ fieldAt bs 2 2 = 0 ∧ x.1.ok s.fw s.args.q = true ∧ namedOnly (bs.drop 16) x.2 = false → Ends i s bs 1 (takenFw s) s.dev)) ∧
  (∀ (i : Instr) (s : State) (bs : List Byte), (commandForm i).isSome = true → s.args.op = 0 → nextEntry s.fw s.dev s.args.q = some bs → entryInstr bs = some i →
    queueTurn s.fw s.dev s.args.q = true → compOk s.fw s.dev (queuePart s) (cmdOf s bs).comp = false →
    let d := firmRecord (takenFw s) s.dev (queuePart s) 0x1E (cmdOf s bs).comp.toNat (fieldAt bs 4 4 + s.args.q * 2 ^ 32) 1 0
    exec i s = .next { s with fw := takenFw s, dev := if (cmdOf s bs).notify then raiseMsi d (s.fw.function s.args.q) (mget {} s.fw.queues s.args.q).vec else d }) ∧
  (∀ (s : State) (r : List Act) (bs : List Byte), let q := s.args.q
    s.sched = .host q :: r → s.dev.frozen = false → nextEntry s.fw s.dev q = some bs → entryInstr bs = none → queueTurn s.fw s.dev q = true →
    compOk s.fw s.dev (queuePart s) (cmdOf s bs).comp = true →
    ∃ a, Machine.step s = .next (wake (tick none { s with sched := r, fw := takenFw s, dev := completion (takenFw s) s.dev (cmdOf s bs) 1, args := a })))

/-- R353, R8, R154, R198, R199, R101, R356, R136: the ordinary commands. -/
def Obligations.ordinary_commands : Prop :=
  (∀ (s : State) (bs rb : List Byte), Taken .launch s bs → let p := queuePart s
    let k := declOf rb
    let prio := (mget {} s.fw.queues s.args.q).prio.toNat
    (operVa bs 16).toNat % 64 = 0 → 1 ≤ oper bs 32 4 → oper bs 32 4 ≤ 2 ^ 24 → fwRead s.fw s.dev p (operVa bs 16) 64 = some rb → recordOk rb = true →
    (DeclLimits k →
      let l := newLaunch s p prio k (operVa bs 24) (oper bs 32 4) (operVa bs 40) (some s.fw.nextCmd) none
      let d := { s.dev with launches := mins s.dev.launches s.dev.nextKey l, nextKey := s.dev.nextKey + 1 }
      Waits .launch s bs (.launch s.dev.nextKey) { takenFw s with nextLaunch := mset 0 s.fw.nextLaunch p ((mget 0 s.fw.nextLaunch p + 1) % 2 ^ 32) }
        { d with list := listedBehind d (.launch s.dev.nextKey) prio }) ∧
    (¬DeclLimits k → Ends .launch s bs 2 (takenFw s) s.dev)) ∧
  (∀ (s : State) (bs : List Byte), Taken .replay s bs → oper bs 16 4 ≤ 1023 → (s.dev.graph (graphKey (queuePart s) (oper bs 16 4))).made = true →
    Waits .replay s bs (.replay (graphKey (queuePart s) (oper bs 16 4))) (takenFw s) s.dev) ∧
  (∀ (s : State) (bs : List Byte), Taken .patch s bs → let g := graphKey (queuePart s) (oper bs 16 4)
    let org : OSet := BitVec.ofNat 32 (oper bs 32 4)
    oper bs 16 4 ≤ 1023 → (s.dev.graph g).made = true → oper bs 20 2 ≤ 63 → org &&& ~~~(s.fw.part (queuePart s)).origins = 0 →
    ∃ d, Ends .patch s bs 0 (takenFw s) d ∧ d.graph g = { s.dev.graph g with
        staged := (s.dev.graph g).staged ++ [{ n := oper bs 20 2, val := operVa bs 24, org, seq := (newSeq s.dev (limamon 0)).1 }] } ∧
      (∀ h, h ≠ g → d.graph h = s.dev.graph h) ∧ { d with graphs := s.dev.graphs, evn := s.dev.evn } = s.dev) ∧
  (∀ (s : State) (bs : List Byte) (e f : TlbEnt), Taken .copy s bs → let p := queuePart s
    let to_ := if oper bs 40 1 = 0xFF then p else oper bs 40 1
    let n := oper bs 32 8
    let set := (s.dev.frame e.ent).cur
    onPage s p fwR (operVa bs 16) n = some e → onPage s to_ fwW (operVa bs 24) n = some f → to_ ≤ 23 → s.dev.badU = [] → limAcquired s →
    (to_ = p ∧ (f.isHost = false ∨ (lodge s.fw p set 1 (operVa bs 24).toNat n).isSome = true) ∨
      to_ ≠ p ∧ Right.own.ok s.fw s.args.q = true ∧ (lodge s.fw p set 3 to_ n).isSome = true) →
    (set &&& ~~~f.ceil = 0 →
      ∃ d, Ends .copy s bs 0 (takenFw s) d ∧ Bytes s (onDev s d) (f.pa (operVa bs 24)) (memBytes s.dev.mem (e.pa (operVa bs 16)) n) ∧
        (d.frame f.ent).cur = (s.dev.frame f.ent).cur ||| set ∧ (∀ g, g ≠ f.ent → d.frame g = s.dev.frame g) ∧ d.cur = s.dev.cur ∧ d.rest = s.dev.rest) ∧
    (set &&& ~~~f.ceil ≠ 0 → Ends .copy s bs 4 (takenFw s) (firmRecord (takenFw s) s.dev p 0x12 (operVa bs 24).toNat f.ceil.toNat set.toNat set))) ∧
  (∀ (s : State) (bs : List Byte) (e f : TlbEnt), Taken .copy s bs → let p := queuePart s
    let to_ := if oper bs 40 1 = 0xFF then p else oper bs 40 1
    let n := oper bs 32 8
    let set := (s.dev.frame e.ent).cur
    onPage s p fwR (operVa bs 16) n = some e → onPage s to_ fwW (operVa bs 24) n = some f → to_ ≤ 23 → s.dev.badU = [] →
    (to_ = p ∧ f.isHost = true ∧ lodge s.fw p set 1 (operVa bs 24).toNat n = none ∨ to_ ≠ p ∧ Right.own.ok s.fw s.args.q = true ∧ lodge s.fw p set 3 to_ n = none) →
    Ends .copy s bs 6 (takenFw s) (postFault (takenFw s) s.dev p 0xA02 0x16 0 nobody nobody (operVa bs 24).toNat n 0 set)) ∧
  (∀ (s : State) (bs : List Byte) (e : TlbEnt), Taken .fill s bs → let n := oper bs 24 8
    (operVa bs 16).toNat % 8 = 0 → n % 8 = 0 → onPage s (queuePart s) fwW (operVa bs 16) n = some e →
    ∃ d, Ends .fill s bs 0 (takenFw s) d ∧ Bytes s (onDev s d) (e.pa (operVa bs 16)) ((List.range (n / 8)).flatMap fun _ => leBytes 8 (oper bs 32 8)) ∧
      d.frames = s.dev.frames ∧ d.cur = s.dev.cur ∧ d.rest = s.dev.rest) ∧
  (∀ (s : State) (bs : List Byte) (e : TlbEnt), Taken .signal s bs → (operVa bs 16).toNat % 8 = 0 → onPage s (queuePart s) fwW (operVa bs 16) 8 = some e →
    ∃ d, Ends .signal s bs 0 (takenFw s) d ∧ Bytes s (onDev s d) (e.pa (operVa bs 16)) (leBytes 8 (oper bs 24 8)) ∧
      d.frames = s.dev.frames ∧ d.cur = s.dev.cur ∧ d.rest = s.dev.rest) ∧
  (∀ (s : State) (bs : List Byte) (e : TlbEnt), Taken .waitv s bs → oper bs 32 1 ≤ 1 → onPage s (queuePart s) fwR (operVa bs 16) 8 = some e → s.dev.badU = [] → s.dev.badCorr = [] →
    Waits .waitv s bs (.waitv (operVa bs 16) (operVa bs 24) (decide (oper bs 32 1 = 1))) (takenFw s) s.dev) ∧
  (∀ (s : State) (c : Cmd) (va want : Dword) (ge : Bool) (e : TlbEnt), s.dev.moved = false → s.dev.cmd s.args.op = some c → c.wait = .waitv va want ge →
    onPage s c.part fwR va 8 = some e → s.dev.badU = [] →
    (c.met = true ∨ if ge then want.toNat ≤ memNat s.dev.mem (e.pa va) 8 else memNat s.dev.mem (e.pa va) 8 = want.toNat) →
    Finishes .waitvMatch s c 0 s.fw { s.dev with limAcq := s.dev.wn, limSys := s.dev.wn }) ∧
  (∀ (i : Instr) (k : InvlKind) (s : State) (bs : List Byte),
    (i, k) ∈ [(.invlPageCommand, .page), (.invlAsidCommand, .asid), (.invlPartitionCommand, InvlKind.part)] → Taken i s bs →
    let p := queuePart s
    let r : InvlReq := { kind := k, asid := oper bs 32 2, vpn := vpnOf (operVa bs 24) }
    ∃ d, Retranslated s.dev d ∧ (∀ c, ∀ e ∈ (d.core c).tlb, e.part = p → r.names e.asid e.vpn = false) ∧
      if invlIdle s.dev p r then Ends i s bs 0 (takenFw s) d else Waits i s bs (.invl r) (takenFw s) d) ∧
  (∀ (i : Instr) (s : State) (c : Cmd) (r : InvlReq),
    (i, r.kind) ∈ [(.invlPageCommand, .page), (.invlAsidCommand, .asid), (.invlPartitionCommand, InvlKind.part)] → s.args.op ≠ 0 → s.dev.moved = false →
    s.dev.cmd s.args.op = some c → c.wait = .invl r → invlIdle s.dev c.part r = true →
    ∃ d, Retranslated s.dev d ∧ (∀ x, ∀ e ∈ (d.core x).tlb, e.part = c.part → r.names e.asid e.vpn = false) ∧ Finishes i s c 0 s.fw d)

/-- R354, R150, R174, R135-R137, R126, R127, R170-R172, R352: the commands of the physical function on queues, partitions, frame maps and the frame table. -/
def Obligations.partition_commands : Prop :=
  (∀ (s : State) (bs : List Byte), Taken .qset s bs → let q := oper bs 16 4
    let p := oper bs 22 1
    let ring := oper bs 24 8
    let limit := fun (off : Nat) => oper bs off 4 = 0 ∨ (1024 ≤ oper bs off 4 ∧ oper bs off 4 ≤ 2 ^ 24)
    let kept := fun (old : Word) (off : Nat) => if oper bs off 4 = 0 then old else BitVec.ofNat 32 (oper bs off 4)
    q ≤ 32767 → 1 ≤ oper bs 20 1 → oper bs 20 1 ≤ 16 → oper bs 21 1 ≤ 7 → p ≤ 23 → oper bs 23 1 ≤ 1 → ring % 64 = 0 → ring % 2 ^ 63 < 2 ^ 49 →
    1 ≤ oper bs 32 2 → oper bs 32 2 ≤ 2047 → oper bs 34 1 ≤ 1 → limit 36 → limit 40 → limit 44 →
    ∃ w, Ends .qset s bs 0 w s.dev ∧ (∀ n, n ≠ q → mget {} w.queues n = mget {} (takenFw s).queues n) ∧ (∀ n, n ≠ p → w.part n = s.fw.part n) ∧
      w.part p = { s.fw.part p with cwait := kept (s.fw.part p).cwait 36, pwin := kept (s.fw.part p).pwin 40, plim := kept (s.fw.part p).plim 44 } ∧
      let x := mget ({} : Queue) (takenFw s).queues q
      let y := mget ({} : Queue) w.queues q
      (y.entries, y.prio.toNat, y.part.toNat, y.base.toNat, y.vec, y.priv, y.tail) =
        (2 ^ oper bs 20 1, oper bs 21 1, p, ring % 2 ^ 63 / 64 + (if 2 ^ 63 ≤ ring then 2 ^ 43 else 0), oper bs 32 2, decide (oper bs 34 1 = 1), x.tail) ∧
      y.state.toNat = (if 2 ≤ (s.fw.part p).state then 3 else oper bs 23 1) ∧ y.head = if x.state = 2 then x.tail else x.head) ∧
  (∀ (s : State) (bs : List Byte) (e : TlbEnt) (x : Part), Taken .partCreate s bs → let p := oper bs 16 1
    let b := memBytes s.dev.mem (e.pa (operVa bs 24)) 128
    let limit := fun (off dflt : Nat) => if fieldAt b off 4 = 0 then dflt else fieldAt b off 4
    p ≤ 23 → onPage s (queuePart s) fwR (operVa bs 24) 128 = some e → s.dev.badU = [] → s.dev.badCorr = [] → limAcquired s → Machine.partOf b = some x → (s.fw.part p).state = 0 →
    partFree s.fw p x = true →
    ∃ w, Ends .partCreate s bs 0 w s.dev ∧ (∀ n, n ≠ p → w.part n = s.fw.part n) ∧ (w.part p).state = 1 ∧
      ((w.part p).qbase.toNat, (w.part p).qcount.toNat, (w.part p).pairs.toNat) = (fieldAt b 4 4, fieldAt b 8 4, fieldAt b 16 16) ∧
      ((w.part p).wq.toNat, (w.part p).fq.toNat, (w.part p).cq.toNat, (w.part p).mbox.toNat) = (fieldAt b 40 8, fieldAt b 48 8, fieldAt b 56 8, fieldAt b 88 8) ∧
      ((w.part p).cwait.toNat, (w.part p).pwin.toNat, (w.part p).plim.toNat) = (limit 64 32768, limit 68 65536, limit 72 131072) ∧
      ((w.part p).origins, (w.part p).lctr, (w.part p).hcause) = (0, 0, 0) ∧ (∀ i, i < 64 → mget {} w.fmaps (64 * p + i) = identityExtent i) ∧
      mget [] w.mr 2 = extended s.fw 2 b ∧ ∀ n, n ≠ 2 → mget [] w.mr n = mget [] s.fw.mr n) ∧
  (∀ (s : State) (bs : List Byte), Taken .partHalt s bs → let p := oper bs 16 1
    p ≤ 23 → (s.fw.part p).state = 1 →
    ∃ w d, Ends .partHalt s bs 0 w d ∧ w.part p = { s.fw.part p with state := 2, hcause := 2 } ∧ (∀ n, n ≠ p → w.part n = s.fw.part n) ∧
      (∀ n, (s.fw.part p).qbase.toNat ≤ n → n < (s.fw.part p).qbase.toNat + (s.fw.part p).qcount.toNat → n < 32768 → (mget {} w.queues n).state = 3) ∧
      (∀ n, n < (s.fw.part p).qbase.toNat ∨ (s.fw.part p).qbase.toNat + (s.fw.part p).qcount.toNat ≤ n →
        (mget {} (takenFw s).queues n).part.toNat ≠ p → mget {} w.queues n = mget {} (takenFw s).queues n) ∧
      (∀ x ∈ w.queues, x.2.part.toNat = p → x.2.state = 3) ∧ (∀ c ∈ d.cmds, c.part ≠ p) ∧ (p + 1, 0) ∈ d.msix ∧ d.cur = s.dev.cur ∧ d.rest = s.dev.rest) ∧
  (∀ (s : State) (bs : List Byte), Taken .partReset s bs → let p := oper bs 16 1
    p ≤ 23 → (s.fw.part p).state ≠ 0 → (s.fw.part p).state ≠ 3 →
    ∃ w d, Waits .partReset s bs (.reset p) w d ∧ w.part p = { s.fw.part p with state := 3 } ∧ (∀ n, n ≠ p → w.part n = s.fw.part n) ∧
      (∀ n, (s.fw.part p).qbase.toNat ≤ n → n < (s.fw.part p).qbase.toNat + (s.fw.part p).qcount.toNat → n < 32768 → (mget {} w.queues n).state = 3) ∧
      (∀ n, n < (s.fw.part p).qbase.toNat ∨ (s.fw.part p).qbase.toNat + (s.fw.part p).qcount.toNat ≤ n →
        (mget {} (takenFw s).queues n).part.toNat ≠ p → mget {} w.queues n = mget {} (takenFw s).queues n) ∧
      (∀ x ∈ w.queues, x.2.part.toNat = p → x.2.state = 3) ∧ ∀ c ∈ d.cmds, c.part ≠ p) ∧
  (∀ s : State, let p := s.args.part
    (s.fw.part p).state = 3 →
    let extend := fun (r : List Byte) (x : Nat × Policy) => fitBytes 64 (Config.shake256 (fitBytes 64 r ++ Config.shake256 x.2.bytes 64) 64)
    ∃ t, exec .partitionResetComplete s = .next t ∧ ((t.fw.part p).state, (t.fw.part p).origins) = (0, 0) ∧ (∀ n, n ≠ p → t.fw.part n = s.fw.part n) ∧
      (∀ m ∈ t.dev.teams, m.part ≠ p) ∧ (∀ m ∈ s.dev.teams, m.part ≠ p → m ∈ t.dev.teams) ∧ (∀ l ∈ t.dev.launches, l.2.part ≠ p) ∧
      (∀ g ∈ t.dev.graphs, g.1 / 1024 ≠ p) ∧ (∀ w ∈ t.dev.windows, w.2.part ≠ p) ∧
      (∀ n, if n / 2 ^ 26 = p then t.dev.frame n = {} else { t.dev.frame n with pin := 0 } = { s.dev.frame n with pin := 0 }) ∧
      (∀ a, mget anchorDefault t.fw.anchors a = if a / 2 ^ 23 = p then anchorDefault else mget anchorDefault s.fw.anchors a) ∧
      (∀ c, ∀ e ∈ (t.dev.core c).tlb, e.part ≠ p) ∧ (∀ x ∈ t.fw.peers, x.2.part ≠ p) ∧ (∀ i, i < 64 → mget {} t.fw.fmaps (64 * p + i) = {}) ∧
      (∀ i, i < 32 → mget {} t.fw.origins (32 * p + i) = {}) ∧ (∀ x ∈ t.fw.policy, x.2.part ≠ p) ∧ (∀ x ∈ s.fw.policy, x.2.part ≠ p → x ∈ t.fw.policy) ∧
      mget [] t.fw.mr 4 = (s.fw.policy.filter fun x => x.2.valid && x.2.part == p).foldl extend (mget [] s.fw.mr 4) ∧
      (∀ n, n ≠ 4 → mget [] t.fw.mr n = mget [] s.fw.mr n) ∧
      (p ≤ 23 → ∀ l q, l < 2 → q ≤ 24 → t.fw.aperture l q = if q = p then 0 else s.fw.aperture l q) ∧ (p + 1, 0) ∈ t.dev.msix) ∧
  (∀ (s : State) (bs : List Byte) (x : Extent), Taken .fmap s bs → let p := oper bs 16 1
    let i := 64 * p + oper bs 17 1
    let old := mget {} s.fw.fmaps i
    p ≤ 23 → oper bs 17 1 ≤ 63 → oper bs 24 16 = x.image → (x.hbase.getLsbD 24 = true ∨ x.hbase.getLsbD 23 = false) →
    (∀ j, j < 64 → j ≠ oper bs 17 1 → x.overlaps (mget {} s.fw.fmaps (64 * p + j)) = false) → intrudes s.fw s.dev p x = false →
    ∃ w, mget {} w.fmaps i = x ∧ (∀ j, j ≠ i → mget {} w.fmaps j = mget {} s.fw.fmaps j) ∧ mget [] w.mr 2 = extended s.fw 2 (leBytes 16 x.image) ∧
      if old.count = 0 ∨ partIdle s.dev p = true then
        ∃ d, Ends .fmap s bs 0 w d ∧ Retranslated s.dev d ∧ ∀ c, ∀ e ∈ (d.core c).tlb, e.ext = i → e.pf = stage2 x e.ent
      else Waits .fmap s bs (.fmap i old) w s.dev) ∧
  (∀ (s : State) (c : Cmd) (i : Nat) (old : Extent), s.args.op ≠ 0 → s.dev.moved = false → s.dev.cmd s.args.op = some c → c.wait = .fmap i old → partIdle s.dev (i / 64) = true →
    ∃ d, Finishes .fmap s c 0 s.fw d ∧ Retranslated s.dev d ∧ ∀ x, ∀ e ∈ (d.core x).tlb, e.ext = i → e.pf = stage2 (mget {} s.fw.fmaps i) e.ent) ∧
  (∀ (s : State) (bs : List Byte) (f : Frame), Taken .map s bs → let t := oper bs 16 1
    let fr := oper bs 20 4
    let p := f.part.toNat
    let n := entOf p (if t = 8 then 2 ^ 23 + fr else t * 2 ^ 20 + fr)
    let h := anchorOf p (walkHash p f.asid.toNat f.vpn.toNat)
    let old := s.dev.frame n
    let same := old.v = true ∧ old.asid = f.asid ∧ old.vpn = f.vpn
    t ≤ 8 → fr < (if t = 8 then 2 ^ 24 else 2 ^ 20) → oper bs 24 32 = f.image → f.cls ≠ 3 → p < 24 → f.pin = 0 → f.mig = 0 → old.pin = 0 → old.mig = 0 →
    (∀ pf, f.v = true → physOf s.fw n = some pf → takenBy s.fw s.dev p pf = false) →
    ∃ w d, Ends .map s bs 0 w d ∧ (∀ m, m ≠ n → { d.frame m with link := 0 } = { s.dev.frame m with link := 0 }) ∧
      (f.v = true → d.frame n = { f with link := (d.frame n).link, cur := if same then f.cur ||| old.cur else f.cur } ∧ walk w d p f.asid.toNat f.vpn.toNat = .hit n ∧
        (old.v = false → (d.frame n).link = mget anchorDefault s.fw.anchors h ∧ (∀ m, m ≠ n → d.frame m = s.dev.frame m) ∧
          ∀ a, a ≠ h → mget anchorDefault w.anchors a = mget anchorDefault s.fw.anchors a)) ∧
      (f.v = false → d.frame n = {}) ∧ (f.v = false ∨ f.mi = false → d.mem = s.dev.mem) ∧
      ∀ pf tile, f.v = true → f.mi = true → (same → old.mi = false) → physOf s.fw n = some pf → tile < 8 →
        memBytes d.mem (pf * 65536 + 8192 * tile + 6210) 1982 = List.replicate 1982 0) ∧
  (∀ (s : State) (bs : List Byte) (e : TlbEnt), Taken .origin s bs → let p := oper bs 16 1
    let n := oper bs 17 1
    let b := memBytes s.dev.mem (e.pa (operVa bs 24)) 128
    p ≤ 23 → n ≤ 31 → (s.fw.part p).state ≠ 0 → (s.fw.part p).origins.getLsbD n = false → onPage s (queuePart s) fwR (operVa bs 24) 128 = some e →
    s.dev.badU = [] → s.dev.badCorr = [] → limAcquired s → destOk (b.drop 64) = true →
    ∃ w, Ends .origin s bs 0 w s.dev ∧ mget {} w.origins (32 * p + n) = { key := b.take 64, dest := b.drop 64, reg := true } ∧
      (∀ m, m ≠ 32 * p + n → mget {} w.origins m = mget {} s.fw.origins m) ∧ (∀ m, m ≠ p → w.part m = s.fw.part m) ∧
      w.part p = { s.fw.part p with origins := (s.fw.part p).origins ||| BitVec.ofNat 32 (2 ^ n) } ∧ mget [] w.mr 3 = extended s.fw 3 b) ∧
  (∀ (s : State) (bs : List Byte), Taken .peer s bs → let q := oper bs 16 2
    q ≠ 0 → oper bs 18 1 ≤ 23 → oper bs 32 1 ≤ 23 →
    Waits .peer s bs (.peer q) { takenFw s with peers := mins s.fw.peers q { part := oper bs 18 1, digest := operVa bs 24, rpart := oper bs 32 1 } } s.dev) ∧
  (∀ (s : State) (c : Cmd), s.dev.cmds.find? (fun x => x.wait == .peer s.args.q) = some c →
    Finishes .peerBindComplete s c 0 { s.fw with peers := mset {} s.fw.peers s.args.q { mget {} s.fw.peers s.args.q with bound := true } } s.dev) ∧
  (∀ (s : State) (bs b : List Byte), Taken .fwload s bs → fwRead s.fw s.dev (queuePart s) (operVa bs 16) (oper bs 24 8) = some b →
    s.dev.badCorr = [] → if Config.slhVerify Config.romKey (Config.fwBodyOf b) (Config.fwSignatureOf b) = true ∧ s.fw.fuse ≤ Config.fwVersionOf b then
      ∃ w, Ends .fwload s bs 0 w s.dev ∧ w.fwVersion = Config.fwVersionOf b ∧ mget [] w.mr 1 = extended s.fw 1 b ∧ ∀ n, n ≠ 1 → mget [] w.mr n = mget [] s.fw.mr n
    else Ends .fwload s bs 1 (takenFw s) s.dev)

/-- R354, R172, R107, R109, R110, R112, R197, R131, R215, R216: a partition's own commands: Lodge entries, sparse tensors, graphs, windows, samplers. -/
def Obligations.own_commands : Prop :=
  (∀ (s : State) (bs : List Byte) (e : TlbEnt), Taken .policy s bs → let p := queuePart s
    let n := oper bs 16 1
    let b := memBytes s.dev.mem (e.pa (operVa bs 24)) (oper bs 32 4)
    let set : OSet := BitVec.ofNat 32 (fieldAt b 0 4)
    let os := (List.range 32).filter fun i => set.getLsbD i
    let x : Policy := { set, part := p, valid := true, ctr := (s.fw.part p).lctr + 1, dest := (b.drop 4).take 64 }
    (mget {} s.fw.policy n).valid = false → (operVa bs 24).toNat % 64 = 0 → onPage s p fwR (operVa bs 24) (oper bs 32 4) = some e → s.dev.badU = [] → s.dev.badCorr = [] → limAcquired s →
    2 ≤ os.length → oper bs 32 4 = 128 + 29792 * os.length → set &&& ~~~(s.fw.part p).origins = 0 → fieldAt b 68 60 = 0 → destOk x.dest = true →
    let signed := fun (j o : Nat) => Config.slhVerify (mget {} s.fw.origins (32 * p + o)).key (lodgeMessage x) ((b.drop (128 + 29792 * j)).take 29792)
    ((∀ j o, os[j]? = some o → signed j o = true) →
      ∃ w, Ends .policy s bs 0 w s.dev ∧ mget {} w.policy n = x ∧ (∀ m, m ≠ n → mget {} w.policy m = mget {} s.fw.policy m) ∧
        w.part p = { s.fw.part p with lctr := (s.fw.part p).lctr + 1 } ∧ (∀ m, m ≠ p → w.part m = s.fw.part m) ∧ mget [] w.mr 4 = extended s.fw 4 x.bytes) ∧
    (∀ j o, os[j]? = some o → signed j o = false → Ends .policy s bs 1 (takenFw s) s.dev)) ∧
  (∀ (s : State) (bs : List Byte), Taken .clear s bs → let n := oper bs 16 1
    let x := mget {} s.fw.policy n
    x.valid = true → x.clearing = false → x.part = queuePart s →
    Waits .clear s bs (.clear n) { takenFw s with policy := mins s.fw.policy n { x with clearing := true } } s.dev) ∧
  (∀ s : State, let n := s.args.q
    let x := mget {} s.fw.policy n
    x.clearing = true → admittedUnder s.dev n = false →
    ∃ t, exec .clearComplete s = .next t ∧ (mget {} t.fw.policy n).valid = false ∧ (∀ m, m ≠ n → mget {} t.fw.policy m = mget {} s.fw.policy m) ∧
      mget [] t.fw.mr 4 = extended s.fw 4 x.bytes ∧ t.dev.cur = s.dev.cur ∧ t.dev.rest = s.dev.rest ∧
      match s.dev.cmds.find? fun c => c.wait == .clear n with
      | some c => t.dev = completion t.fw { s.dev with cmds := s.dev.cmds.filter fun y => y.id != c.id } c 0
      | none => t.dev = s.dev) ∧
  (∀ (s : State) (bs : List Byte) (ed er ep : TlbEnt), Taken .spnew s bs → let p := queuePart s
    let va := operVa bs 16
    let node : Need := { r := true, w := true, e := true, cls := .node }
    let word := fun (j : Nat) => memNat s.dev.mem (ed.pa va + 8 * j) 8
    let h : Handle := { words := numbered 0 (fun j => BitVec.ofNat 64 (if j = 0 then word 0 / 256 * 256 + 3 else if j = 1 then oper bs 24 8
      else if j = 6 then 0 else if j = 7 then 0 else word j)) 8 }
    let x : SparseNew := { h, root := oper bs 24 8, pool := oper bs 32 8, n := oper bs 40 4 }
    va.toNat % 64 = 0 → onPage s p { r := true, w := true, e := true, cls := .plain } va 64 = some ed → s.dev.badU = [] → limAcquired s → x.ok = true →
    onPage s p node (operVa bs 24) x.table.length = some er → onPage s p node (operVa bs 32) (256 * x.n) = some ep → er.ceil = ep.ceil →
    let areas := [(er.pa (operVa bs 24), x.table), (ep.pa (operVa bs 32), x.nodes), (ed.pa va, (List.range 8).flatMap fun j => leBytes 8 (mget 0 h.words j).toNat)]
    areas.Pairwise (fun a b => a.1 + a.2.length ≤ b.1 ∨ b.1 + b.2.length ≤ a.1) →
    ∃ d, Ends .spnew s bs 0 (takenFw s) d ∧ d.frames = s.dev.frames ∧ d.cur = s.dev.cur ∧ (∀ a ∈ areas, memBytes d.mem a.1 a.2.length = a.2) ∧
      (∀ c, (∀ a ∈ areas, c < a.1 ∨ a.1 + a.2.length ≤ c) → memGet d.mem c = byteAt s c) ∧
      ∀ key, arborGet s.fw d (h.tree p (shardOf h.shards key)) key = .ok none) ∧
  (∀ (s : State) (bs : List Byte), Taken .graph s bs → let g := graphKey (queuePart s) (oper bs 16 4)
    oper bs 16 4 ≤ 1023 → 1 ≤ oper bs 20 4 → oper bs 20 4 ≤ 64 → ((s.dev.graph g).running ≠ none ∨ graphWaiting s.dev g ≠ none) →
    Waits .graph s bs (.graph g (bs.drop 16)) (takenFw s) s.dev) ∧
  (∀ (s : State) (bs : List Byte) (e f : TlbEnt), Taken .graph s bs → let p := queuePart s
    let g := graphKey p (oper bs 16 4)
    let n := oper bs 20 4
    let a := e.pa (operVa bs 24)
    oper bs 16 4 ≤ 1023 → 1 ≤ n → n ≤ 64 → (s.dev.graph g).running = none → graphWaiting s.dev g = none →
    onPage s p fwR (operVa bs 24) (64 * n) = some e → onPage s p fwR (operVa bs 32) 768 = some f → s.dev.badU = [] → s.dev.badCorr = [] → limAcquired s →
    (∀ i, i < n → memNat s.dev.mem (a + 64 * i) 1 = 1 ∨ memNat s.dev.mem (a + 64 * i) 1 = 2) →
    ∃ d, Ends .graph s bs 0 (takenFw s) d ∧ { d with graphs := s.dev.graphs } = s.dev ∧ (∀ h, h ≠ g → d.graph h = s.dev.graph h) ∧
      let y := d.graph g
      (y.made, y.running, y.busy, y.staged, y.nodes.length) = (true, none, false, [], n) ∧
      (∀ i, i < n → let k := memNat s.dev.mem (a + 64 * i) 1
        y.nodes[i]? = some { kernel := decide (k = 1), retry := decide (memNat s.dev.mem (a + 64 * i + 1) 1 % 2 = 1),
                             ops := if k = 1 then memBytes s.dev.mem (a + 64 * i + 16) 48 else [] }) ∧
      ∀ i, i < 64 → (mget 0 y.gp i).toNat = memNat s.dev.mem (f.pa (operVa bs 32) + 8 * i) 8 ∧
        (mget 0 y.org i).toNat = memNat s.dev.mem (f.pa (operVa bs 32) + 512 + 4 * i) 4) ∧
  (∀ (s : State) (bs : List Byte) (l : List (Dword × TlbEnt)), Taken .windowRegister s bs → let n := oper bs 16 4
    let len := 65536 * oper bs 32 4
    n ≤ 65535 → oper bs 24 8 % 65536 = 0 → len ≠ 0 → len ≤ 2 ^ 32 → (s.dev.window n).reg = false →
    fwRange s.fw s.dev (queuePart s) { e := true } (operVa bs 24) len = .ok l →
    (∀ x ∈ l, (s.dev.frame x.2.ent).mig = 0 ∧ (s.dev.frame x.2.ent).pin.toNat < 65535) →
    ∃ pins, pins.Nodup ∧ (∀ f, f ∈ pins ↔ ∃ x ∈ l, x.2.ent = f) ∧
      Ends .windowRegister s bs 0 (takenFw s)
        { pinFrames s.dev pins with windows := mins s.dev.windows n { part := queuePart s, base := operVa bs 24, len, reg := true, pins } }) ∧
  (∀ (s : State) (bs : List Byte), Taken .windowDeregister s bs → let x := s.dev.window (oper bs 16 4)
    x.reg = true → x.part = queuePart s →
    ∃ d, Ends .windowDeregister s bs 0 (takenFw s) d ∧ d.frames = (unpinFrames s.dev x.pins).frames ∧ (d.window (oper bs 16 4)).reg = false ∧
      (∀ n, n ≠ oper bs 16 4 → d.window n = s.dev.window n) ∧ { d with frames := s.dev.frames, windows := s.dev.windows } = s.dev) ∧
  (∀ (s : State) (bs : List Byte), Taken .samplerEnable s bs → let c := oper bs 16 1
    let b := oper bs 24 4
    let l := lfsr (BitVec.ofNat 16 (oper bs 28 2))
    s.fw.hasCore (queuePart s) c = true → 256 ≤ b → b ≤ 2 ^ 24 → oper bs 28 2 ≠ 0 →
    ∃ d, Ends .samplerEnable s bs 0 (takenFw s) d ∧ { d with cores := s.dev.cores } = s.dev ∧ (∀ m, m ≠ c → d.core m = s.dev.core m) ∧
      d.core c = { s.dev.core c with sampler :=
        { on := true, b, l, ring := operVa bs 32, next := 0, tick := (s.dev.time.toNat + b - 128 + l.toNat % 256) % 2 ^ 48, drop := 0, last := 0xFFFFFFFF } }) ∧
  (∀ (s : State) (bs : List Byte), Taken .samplerDisable s bs → let c := oper bs 16 1
    s.fw.hasCore (queuePart s) c = true → oper bs 28 2 ≠ 0 →
    ∃ d, Ends .samplerDisable s bs 0 (takenFw s) d ∧ { d with cores := s.dev.cores } = s.dev ∧ (∀ m, m ≠ c → d.core m = s.dev.core m) ∧
      d.core c = { s.dev.core c with sampler := { (s.dev.core c).sampler with on := false } })

/-- R354, R364-R366, R368, R370, R206, R228, R361: what Limamon writes out for a host, restores, and the debug commands. -/
def Obligations.report_commands : Prop :=
  (∀ (s : State) (bs : List Byte) (e : TlbEnt), Taken .queryPartition s bs → onPage s (queuePart s) fwW (operVa bs 24) 128 = some e → s.dev.badU = [] →
    ∃ d, Ends .queryPartition s bs 0 (takenFw s) d ∧ Bytes s (onDev s d) (e.pa (operVa bs 24)) (s.fw.part (queuePart s)).bytes ∧ d.frames = s.dev.frames ∧ d.cur = s.dev.cur) ∧
  (∀ (s : State) (bs : List Byte) (e : TlbEnt), Taken .queryQuote s bs → onPage s (queuePart s) fwW (operVa bs 24) 36368 = some e → s.dev.badU = [] →
    let p := queuePart s
    let q := fitBytes 32 ((bs.drop 32).take 32) ++ ((List.range 8).flatMap fun i => fitBytes 64 (mget [] s.fw.mr i)) ++ leBytes 8 p ++
      leBytes 8 (newSeq s.dev (limamon 0)).1.toNat ++ fitBytes 64 (Config.shake256 (quoteEntries s.fw p) 64) ++ leBytes 16 0
    let key := Config.shake256 (fitBytes 96 Config.fuseSeed ++ leBytes 8 s.fw.resets) 64
    ∃ d, Ends .queryQuote s bs 0 (takenFw s) d ∧ q.length = 640 ∧ d.frames = s.dev.frames ∧ d.cur = s.dev.cur ∧
      Bytes s (onDev s d) (e.pa (operVa bs 24)) (q ++ fitBytes 35664 (Config.attestSign key q) ++ fitBytes 64 (Config.shake256 (fitBytes 64 (Config.identityOf (fitBytes 96 Config.fuseSeed))) 64))) ∧
  (∀ (s : State) (bs h : List Byte) (n : SaveNote), Taken .restore s bs → let p := queuePart s
    let prio := (mget {} s.fw.queues s.args.q).prio.toNat
    let d := { s.dev with nextKey := s.dev.nextKey + 2 }
    fwRead s.fw s.dev p (operVa bs 16) 5120 = some h → s.dev.badCorr = [] → s.dev.saves.find? (fun n => n.seq.toNat == fieldAt h 48 8) = some n → fieldAt h 0 1 = 1 →
    n.keys = originKeys s.fw p → (∀ x ∈ n.pages, ∃ e, freshXl s.fw s.dev p 0 x.1 = .ok e ∧ ∀ c, x.2 = some c → e.cls.toNat = c) →
    ∃ (key : Nat) (l : Launch), let k := headDecl h n.decl
      let x : Swapped := ⟨p, prio, key, operVa bs 16, [], k, s.dev.nextKey + 1, BitVec.ofNat 32 (fieldAt h 24 4), false, (n.streams.flatMap Op.admitted).eraseDups⟩
      (k.lanes, k.group, k.vregs, k.scratch, k.acc) = (fieldAt h 4 2, fieldAt h 6 1, fieldAt h 7 1, 256 * fieldAt h 36 4, fieldAt h 40 1) ∧
      (match (if n.part = p then mfind s.dev.launches n.launch else none) with
        | some m => key = n.launch ∧ l = { m with left := m.left + 1 }
        | none => key = s.dev.nextKey ∧ (l.key, l.part, l.launchId.toNat, l.prio, l.count, l.made, l.left, l.cmd, l.graph, l.exits) =
            (key, p, fieldAt h 28 4, prio, 1, 1, 1, none, none, 0)) ∧
      let d := { d with launches := mins s.dev.launches key l }
      Waits .restore s bs (.restore (operVa bs 16)) (takenFw s) { d with list := listedBehind d (.restore x) prio }) ∧
  (∀ (s : State) (bs : List Byte) (m : Team), teamById s.dev (queuePart s) (oper bs 16 4) = some m → (s.dev.teams.map (·.key)).Nodup →
    (∀ x ∈ swapped s.dev, x.key ≠ m.key) →
    (Taken .halt s bs → ∃ d, Ends .halt s bs 0 (takenFw s) d ∧ OneTeam s (onDev s d) m fun t => { t with halted := true }) ∧
    (Taken .resume s bs → ∃ d, Ends .resume s bs 0 (takenFw s) d ∧ OneTeam s (onDev s d) m fun t => { t with halted := false }) ∧
    (∀ x y z, Taken .dbgset s bs → swrSpec 0x20 m.sp (operVa bs 24) = some x → swrSpec 0x21 x (operVa bs 32) = some y → swrSpec 0x22 y (operVa bs 40) = some z →
      ∃ d, Ends .dbgset s bs 0 (takenFw s) d ∧ OneTeam s (onDev s d) m fun t => { t with sp := z })) ∧
  (∀ (s : State) (bs : List Byte) (x : Swapped), teamById s.dev (queuePart s) (oper bs 16 4) = none → x ∈ swapped s.dev → x.part = queuePart s →
    x.teamId.toNat = oper bs 16 4 → (s.dev.teams.map (·.key) ++ (swapped s.dev).map (·.key)).Nodup →
    (∀ y ∈ swapped s.dev, y.part = x.part → y.teamId = x.teamId → y = x) →
    (∀ (i : Instr) (on : Bool), (i, on) ∈ [(.halt, true), (.resume, false)] → Taken i s bs → ∃ d, Ends i s bs 0 (takenFw s) d ∧
      { d with list := s.dev.list } = s.dev ∧ d.list = s.dev.list.map fun y => if y = .restore x then .restore { x with halted := on } else y) ∧
    (∀ (a b c : Special) (e : TlbEnt), Taken .dbgset s bs → swrSpec 0x20 {} (operVa bs 24) = some a → swrSpec 0x21 {} (operVa bs 32) = some b →
      swrSpec 0x22 {} (operVa bs 40) = some c → onPage s x.part fwW (x.area + 232) 24 = some e → s.dev.badU = [] →
      ∃ d, Ends .dbgset s bs 0 (takenFw s) d ∧ d.frames = s.dev.frames ∧ d.list = s.dev.list ∧
        Bytes s (onDev s d) (e.pa (x.area + 232)) (leBytes 8 a.dbgctl.toNat ++ leBytes 8 b.watcha.toNat ++ leBytes 8 c.watchb.toNat))) ∧
  (∀ (i : Instr) (s : State) (bs : List Byte), (i = .dumpOneTeam ∨ i = .dumpEveryTeam) → Taken i s bs →
    (s.dev.teams.map (·.key) ++ (swapped s.dev).map (·.key)).Nodup →
    let hit := fun (part : Nat) (id : Word) => part = queuePart s ∧ (i = .dumpOneTeam → id.toNat = oper bs 20 4)
    (i = .dumpOneTeam → (∃ m ∈ s.dev.teams, hit m.part m.teamId) ∨ ∃ y ∈ swapped s.dev, hit y.part y.teamId) →
    ∃ x d, Waits i s bs (.dump x) (takenFw s) d ∧ (x.out, x.len, x.parked) = (operVa bs 24, oper bs 32 8, []) ∧ (x.every = true ↔ i = .dumpEveryTeam) ∧
      (∀ t ∈ s.dev.teams, (t.key ∈ x.keys ↔ hit t.part t.teamId ∧ exiting t = false ∧ ∀ c, t.wait ≠ .trap c) ∧
        (t.key ∈ x.fresh ↔ hit t.part t.teamId ∧ t.halted = false)) ∧
      (∀ y ∈ swapped s.dev, (y.key ∈ x.keys ↔ hit y.part y.teamId) ∧ (y.key ∈ x.fresh ↔ hit y.part y.teamId ∧ y.halted = false)) ∧
      d.teams = s.dev.teams.map (fun t => if hit t.part t.teamId then { t with halted := true } else t) ∧
      swapped d = (swapped s.dev).map (fun y => if hit y.part y.teamId then { y with halted := true } else y) ∧
      { d with cur := s.dev.cur, rest := s.dev.rest, list := s.dev.list } = s.dev) ∧
  (∀ (i : Instr) (s : State) (c : Cmd) (x : Dump) (m : Team) (e : TlbEnt), (i = .dumpOneTeam ∨ i = .dumpEveryTeam) → s.args.op ≠ 0 → s.dev.moved = false →
    s.dev.cmd s.args.op = some c → c.wait = .dump x → x.keys = [m.key] → x.parked = [] → m.key ∈ x.caught → m ∈ s.dev.teams →
    (s.dev.teams.map (·.key) ++ (swapped s.dev).map (·.key)).Nodup →
    (x.every = true → (∀ t ∈ s.dev.teams, t.part = c.part → t.key ∈ x.seen) ∧ ∀ y ∈ swapped s.dev, y.part = c.part → y.key ∈ x.seen) →
    m.between = true → m.savable = true → m.ops = [] →
    let u := m.atFirst
    let data := dataImage u (keptFull m.decl)
    let kept := (fwRead s.fw s.dev m.part (m.saveArea + 5120) 11264).getD (leBytes 11264 0)
    let image := headImage u (keptFull m.decl) (newSeq s.dev (limamon 0)).1 data.length ++ kept.take 136 ++ leBytes 2936 0 ++ kept.drop 3072 ++ data
    image.length ≤ x.len → onPage s c.part fwW x.out image.length = some e → s.dev.badU = [] →
    ∃ d, Finishes i s c 0 s.fw d ∧ Bytes s (onDev s d) (e.pa x.out) image ∧
      (∀ n, d.frame n = if n = e.ent then { s.dev.frame n with cur := (s.dev.frame n).cur ||| dumpSet s.fw s.dev m } else s.dev.frame n) ∧
      d.teams = s.dev.teams.map fun t => if t.key ∈ x.fresh then { t with halted := false } else t) ∧
  (∀ (s : State) (bs : List Byte) (e : TlbEnt), Taken .errlog s bs → (operVa bs 24).toNat % 64 = 0 → onPage s (queuePart s) fwW (operVa bs 24) 4160 = some e →
    let a := e.pa (operVa bs 24)
    let pair := fun (d : Dev) (i : Nat) => (memNat d.mem (a + 8 * i) 4, memNat d.mem (a + 8 * i + 4) 4)
    ∃ d, Ends .errlog s bs 0 (takenFw s) d ∧ (∀ c, c < a ∨ a + 4160 ≤ c → memGet d.mem c = byteAt s c) ∧ d.frames = s.dev.frames ∧ d.cur = s.dev.cur ∧
      (∀ i, i < 256 → pair d i = ((mget (0, 0) s.dev.sliceErr i).1.toNat, (mget (0, 0) s.dev.sliceErr i).2.toNat)) ∧
      (∀ i, i < 8 → pair d (256 + i) = ((mget (0, 0) s.dev.stackErr i).1.toNat, (mget (0, 0) s.dev.stackErr i).2.toNat)) ∧
      ∀ i, i < 256 → pair d (264 + i) = ((s.dev.core i).corrected.toNat, (s.dev.core i).uncorr.toNat)) ∧
  (∀ (s : State) (bs : List Byte) (e : TlbEnt), Taken .throttle s bs → onPage s (queuePart s) fwW (operVa bs 24) 16 = some e → s.dev.badU = [] →
    let a := e.pa (operVa bs 24)
    ∃ d, Ends .throttle s bs 0 (takenFw s) d ∧ (∀ c, c < a ∨ a + 16 ≤ c → memGet d.mem c = byteAt s c) ∧ d.frames = s.dev.frames ∧ d.cur = s.dev.cur ∧
      ∀ i, i < 2 → memNat d.mem (a + 8 * i) 2 = s.fw.mhz i % 2 ^ 16 ∧ memNat d.mem (a + 8 * i + 2) 6 = (mget 0 s.fw.below i).toNat)

/-! ### Freeze, the debug port, package reset -/

/-- R362, R363, R359, R360, R371: the pin and the debug port stop every clock and THAW lets them run; an access to host memory that was pending goes on
or ends in error; while they stand still nothing moves but the debug port, which reads and writes what the manual names, a host's access that reaches
it ends in a timeout, and its write of its own memory is performed; a package reset leaves reset values, with ROM Limamon measured, the BARs enabled and the attestation key derived and certified. -/
def Obligations.freezes : Prop :=
  (∀ (i : Instr) (s : State), (i = .frzN ∨ i = .freeze) → exec i s = .next { s with dev := { s.dev with frozen := true } }) ∧
  (∀ s : State, s.dev.frozen = true → (∀ m ∈ s.dev.teams, ∀ o ∈ m.ops, hostPending o = []) →
    exec .thaw s = .next { s with dev := { s.dev with frozen := false, free := s.dev.free + 1 } }) ∧
  (∀ s : State, ∃ t, exec .thaw s = .next t ∧ t.fw = s.fw ∧ t.sched = s.sched ∧ t.dev.frozen = false) ∧
  (∀ (s : State) (o : Op) (dst : LoadDst) (pol : CachePol) (a : Acc), s.dev.frozen = true → s.dev.cur.live = true → s.dev.rest = [] →
    s.dev.cur.ops = [o] → o.kind = .load dst pol [a] → hostPending o = [a] →
    let d := { s.dev with frozen := false, free := s.dev.free + 1 }
    exec .thaw s = .next { s with dev := d } ∨
    exec .thaw s = .next { s with dev := { d with cur := { d.cur with ops := [{ o with err := true, kind := .load dst pol [] }] } } }) ∧
  (∀ (s : State) (a : Act) (r : List Act), s.dev.frozen = true → s.sched = a :: r →
    (∀ x, a ≠ .event .thaw x ∧ a ≠ .event .freeze x ∧ a ≠ .event .frzN x ∧ a ≠ .event .debugPortAccess x ∧ a ≠ .event .packageReset x ∧
      a ≠ .event .hostReadBar4 x ∧ a ≠ .event .hostWriteBar4 x ∧ a ≠ .event .registerWrite x ∧ a ≠ .event .doorbellTailWrite x ∧ a ≠ .event .hostMemoryWrite x) →
    Machine.step s = .next { s with sched := r }) ∧
  (∀ (s : State) (x : EventArgs) (r : List Act), s.dev.frozen = true → s.sched = .event .hostMemoryWrite x :: r →
    Machine.step s = exec .hostMemoryWrite { s with sched := r, args := x }) ∧
  (∀ (i : Instr) (s : State) (x : EventArgs) (r : List Act), i ∈ [Instr.hostReadBar4, .hostWriteBar4, .registerWrite, .doorbellTailWrite] → s.dev.frozen = true →
    s.sched = .event i x :: r → Machine.step s = .next { s with sched := r, dev := { s.dev with hostData := [], aborted := true } }) ∧
  (∀ s : State, s.dev.frozen = false → exec .debugPortAccess s = .fault .debugPortNotFrozen) ∧
  (∀ (s : State) (a : Nat) (b : Byte), s.dev.frozen = true →
    (s.args.debug = .mem a none → exec .debugPortAccess s = .next { s with dev := { s.dev with hostData := [byteAt s a] } }) ∧
    (s.args.debug = .mem a (some b) → ∃ t, exec .debugPortAccess s = .next t ∧ Bytes s t a [b] ∧ t.dev.frames = s.dev.frames ∧ t.dev.cur = s.dev.cur ∧ t.fw = s.fw)) ∧
  (∀ (s : State) (k r : Nat) (m : Team) (v : Dword), s.dev.frozen = true → r < 63 → (s.dev.teams.map (·.key)).Nodup → m ∈ s.dev.teams → m.key = k →
    (s.args.debug = .scalar k r none → exec .debugPortAccess s = .next { s with dev := { s.dev with hostData := leBytes 8 (mget {} m.regs.s r).val.toNat } }) ∧
    (s.args.debug = .scalar k r (some v) → ∃ t, exec .debugPortAccess s = .next t ∧ t.fw = s.fw ∧
      OneTeam s t m fun x => { x with regs := { x.regs with s := mset {} x.regs.s r { mget {} x.regs.s r with val := v } } })) ∧
  (∀ (s : State) (k r l : Nat) (m : Team) (v : Word), s.dev.frozen = true → r < 124 → l < 1024 → (s.dev.teams.map (·.key)).Nodup → m ∈ s.dev.teams → m.key = k →
    (s.args.debug = .vector k r l none → exec .debugPortAccess s = .next { s with dev := { s.dev with hostData := leBytes 4 (m.regs.lane r l).val.toNat } }) ∧
    (s.args.debug = .vector k r l (some v) → ∃ t, exec .debugPortAccess s = .next t ∧ t.fw = s.fw ∧
      OneTeam s t m fun x => { x with regs := { x.regs with v := mset {} x.regs.v (1024 * r + l) { mget {} x.regs.v (1024 * r + l) with val := v } } })) ∧
  (∀ (s : State) (k : Nat) (m : Team) (v : Dword), s.dev.frozen = true → (s.dev.teams.map (·.key)).Nodup → m ∈ s.dev.teams → m.key = k →
    (s.args.debug = .restart k none → exec .debugPortAccess s = .next { s with dev := { s.dev with hostData := leBytes 8 m.restart.toNat } }) ∧
    (s.args.debug = .restart k (some v) → ∃ t, exec .debugPortAccess s = .next t ∧ t.fw = s.fw ∧ OneTeam s t m fun x => { x with restart := v }) ∧
    (s.args.debug = .special k 0 none → exec .debugPortAccess s = .next { s with dev := { s.dev with hostData := leBytes 8 m.teamId.toNat } })) ∧
  (∀ s : State, ∃ t, exec .packageReset s = .next t ∧ t.fw.resets = s.fw.resets + 1 ∧ t.fw.fuse = s.fw.fuse ∧ mget [] t.fw.mr 0 = extended {} 0 Config.romImage ∧
    (∀ n, n ≠ 0 → mget [] t.fw.mr n = []) ∧ t.fw.parts = [] ∧ t.fw.origins = [] ∧ t.fw.policy = [] ∧ t.fw.fmaps = [] ∧ t.fw.bars = true ∧
    (let seed := fitBytes 96 Config.fuseSeed
     t.fw.attestKey = fitBytes 48 (Config.attestOf (Config.shake256 (seed ++ leBytes 8 (s.fw.resets + 1)) 64)) ∧
      t.fw.attestCert = fitBytes 29792 (Config.identitySign seed t.fw.attestKey)) ∧
    (∀ q, (mget {} t.fw.queues q).state ≠ 0 → q ∈ Config.pfQueues.map (·.1)) ∧ t.dev.cur.live = false ∧ t.dev.rest = [] ∧
    t.dev.time = 0 ∧ t.dev.frozen = false ∧ t.dev.frames = [] ∧ t.dev.cmds = [] ∧ t.dev.mem = s.dev.mem)
end

