-- ==== Sys2Proof/Laws/Events.lean ====
section
/-! SUPPORT. The shells of the meanings: what a word, an event, an event of a team or an operation, and a host command answer, each said once. -/
namespace Sys2Proof.Machine

/-- A word answers a next state, and changes the chips only: no table of firmware, no schedule. -/
theorem word_next (i : Instr) (s : State) (f : Fw → Dev → Dev) : ∃ d, word i s f = .next { s with dev := d } := ⟨_, rfl⟩

/-- A word whose hints and operands are legal has its effect (R93, R238, R239); the mask of its position is noted for single stepping first. -/
theorem word_gives (i : Instr) (s : State) (f : Fw → Dev → Dev) (hh : hintsOk s.dev.cur i = true) (hd : declOk s.dev.cur i = true) :
    word i s f = .next { s with dev := guardRegs s.fw s.dev i (f s.fw (noteStep s.dev)) } := by simp only [word, hh, hd]; rfl

/-- An event that is enabled happens. -/
theorem event_gives {s : State} {f : Fw → EventArgs → Dev → Option Dev} {d : Dev} (h : f s.fw s.args s.dev = some d) :
    event s f = .next { s with dev := d } := by simp only [event, h]; rfl

/-- An event that is not enabled does not. -/
theorem event_idle {s : State} {f : Fw → EventArgs → Dev → Option Dev} (h : f s.fw s.args s.dev = none) : event s f = .next s := by
  simp only [event, h]; rfl

theorem teamEvent_gives {s : State} {f : Fw → EventArgs → Dev → Option Dev} {d d' : Dev} (hf : s.dev.focus s.args.tid = some d)
    (h : f s.fw s.args d = some d') : teamEvent s f = .next { s with dev := d' } :=
  event_gives (show (s.dev.focus s.args.tid).bind (f s.fw s.args) = some d' by rw [hf]; exact h)

/-- An event of an operation that is pending happens to that operation. -/
theorem opEvent_gives {s : State} {f : Fw → EventArgs → Op → Dev → Option Dev} {d d' : Dev} {o : Op} (hf : s.dev.focus s.args.tid = some d)
    (ho : d.cur.op s.args.op = some o) (hd : o.done = false) (h : f s.fw s.args o d = some d') : opEvent s f = .next { s with dev := d' } := by
  refine teamEvent_gives hf ?_
  simp only [ho, hd]
  exact h

theorem eventFw_gives {s : State} {f : Fw → EventArgs → Dev → Option (Fw × Dev)} {w : Fw} {d : Dev} (h : f s.fw s.args s.dev = some (w, d)) :
    eventFw s f = .next { s with fw := w, dev := d } := by simp only [eventFw, h]

/-- An event never changes the schedule, and answers a next state. -/
theorem eventFw_next (s : State) (f : Fw → EventArgs → Dev → Option (Fw × Dev)) : ∃ w d, eventFw s f = .next { s with fw := w, dev := d } := by
  unfold eventFw
  cases h : f s.fw s.args s.dev with
  | none => exact ⟨s.fw, s.dev, rfl⟩
  | some p => exact ⟨p.1, p.2, rfl⟩

/-- A command runs the entry at the head of its queue when the entry holds that command and its turn has come (R151, R152). -/
theorem command_gives {s : State} {i : Instr} {r : Right} {named : List (Nat × Nat)} {perform : Perform} {resume : Fw → Dev → Cmd → Option (Fw × Dev)}
    {bs : List Byte} {w : Fw} {d : Dev} (h0 : s.args.op = 0) (hn : nextEntry s.fw s.dev s.args.q = some bs) (hi : entryInstr bs = some i)
    (ht : queueTurn s.fw s.dev s.args.q = true) (h : runEntry s.fw s.dev s.args.q bs r named perform = some (w, d)) :
    command s i r named perform resume = .next { s with fw := w, dev := d } := by
  refine eventFw_gives ?_
  simp only [h0, hn, hi, ht]
  exact h

/-- A command that waits goes on when what it waits for has happened, and no page has been moved (R132). -/
theorem command_resumes {s : State} {i : Instr} {r : Right} {named : List (Nat × Nat)} {perform : Perform} {resume : Fw → Dev → Cmd → Option (Fw × Dev)}
    {c : Cmd} {w : Fw} {d : Dev} (h0 : s.args.op ≠ 0) (hm : s.dev.moved = false) (hc : s.dev.cmd s.args.op = some c) (h : resume s.fw s.dev c = some (w, d)) :
    command s i r named perform resume = .next { s with fw := w, dev := d } := by
  refine eventFw_gives ?_
  rw [if_pos h0, if_neg (by rw [hm]; exact Bool.false_ne_true), hc]
  exact h

end Sys2Proof.Machine
end

