-- ==== Sys2Proof/Laws/Store.lean ====
section
/-! SUPPORT. Laws of finite maps: read after write, other keys stay, the canonical form is kept. -/
namespace Sys2Proof.Machine

variable {α : Type}

@[simp] theorem mget_nil (d : α) (k : Nat) : mget d [] k = d := rfl

/-- A key just listed reads as its value, in any list. -/
@[simp] theorem mget_mins_same (d : α) (m : SMap α) (k : Nat) (v : α) : mget d (mins m k v) k = v := by
  induction m with
  | nil => simp [mins, mget]
  | cons p m ih =>
    obtain ⟨a, x⟩ := p
    simp only [mins]
    split
    · simp [mget]
    · split <;> rename_i h1 h2
      · simp [mget]
      · simp [mget, h1, h2, ih]

/-- Every other key reads as before, in any list. -/
theorem mget_mins_other (d : α) (m : SMap α) {k j : Nat} (v : α) (h : j ≠ k) : mget d (mins m k v) j = mget d m j := by
  induction m with
  | nil => simp [mins, mget, h]
  | cons p m ih =>
    obtain ⟨a, x⟩ := p
    simp only [mins]
    split
    · rename_i h1
      subst h1
      simp [mget, h]
    · rename_i h1
      split
      · rename_i h2
        simp only [mget]
        by_cases h3 : j < k
        · have : j ≠ a := by omega
          have : j < a := by omega
          simp [*]
        · simp [*]
      · simp only [mget]
        simp [ih]

/-- A canonical list starts at or above its bound. -/
theorem mget_below [DecidableEq α] (d : α) (m : SMap α) {lo j : Nat} (w : mwfFrom d lo m = true) (h : j < lo) : mget d m j = d := by
  cases m with
  | nil => rfl
  | cons p m =>
    obtain ⟨a, x⟩ := p
    simp only [mwfFrom, Bool.and_eq_true, decide_eq_true_eq] at w
    have h1 : j ≠ a := by omega
    have h2 : j < a := by omega
    simp [mget, h1, h2]

theorem mget_above (d : α) (m : SMap α) {j : Nat} (h : ∀ p ∈ m, j < p.1) : mget d m j = d := by
  cases m with
  | nil => rfl
  | cons p m =>
    obtain ⟨a, x⟩ := p
    have h1 := h (a, x) (by simp)
    have h2 : j ≠ a := by simp only at h1; omega
    simp only at h1
    simp [mget, h1, h2]

theorem mget_filter_above (d : α) (m : SMap α) {a j : Nat} (h : a < j) : mget d (m.filter fun p => decide (a < p.1)) j = mget d m j := by
  induction m with
  | nil => rfl
  | cons p m ih =>
    obtain ⟨b, x⟩ := p
    by_cases hb : a < b
    · simp [mget, hb, ih]
    · have h1 : j ≠ b := by omega
      have h2 : ¬ j < b := by omega
      simp [mget, hb, h1, h2, ih]

/-- Removing a key: it reads as the default, and every other key as before, in any list. -/
theorem mget_mdel (d : α) (m : SMap α) (k j : Nat) : mget d (mdel m k) j = if j = k then d else mget d m j := by
  induction m with
  | nil => simp [mdel, mget]
  | cons p m ih =>
    obtain ⟨a, x⟩ := p
    simp only [mdel]
    split
    · rename_i h1
      subst h1
      have hall : ∀ p ∈ m.filter (fun p => decide (k < p.1)), k < p.1 := by intro p hp; simpa using (List.mem_filter.mp hp).2
      rcases Nat.lt_trichotomy j k with h | h | h
      · have h2 : j ≠ k := by omega
        simp only [mget, h2, h, if_true, if_false]
        exact mget_above d _ fun p hp => Nat.lt_trans h (hall p hp)
      · subst h; simp [mget_above d _ hall]
      · have h2 : j ≠ k := by omega
        have h3 : ¬ j < k := by omega
        simp [mget, h2, h3, mget_filter_above d m h]
    · rename_i h1
      split
      · rename_i h2
        split
        · rename_i h3
          subst h3
          simp [mget, h1, h2]
        · rfl
      · rename_i h2
        simp only [mget, ih]
        by_cases h3 : j = k
        · subst h3; simp [h1, h2]
        · simp [h3]

/-- Reading after a write, for every key, in any list. -/
theorem mget_mset [DecidableEq α] (d : α) (m : SMap α) (k j : Nat) (v : α) : mget d (mset d m k v) j = if j = k then v else mget d m j := by
  unfold mset
  split
  · rename_i h
    subst h
    exact mget_mdel v m k j
  · by_cases h : j = k
    · subst h; simp
    · simp [mget_mins_other d m v h, h]

@[simp] theorem mget_mset_same [DecidableEq α] (d : α) (m : SMap α) (k : Nat) (v : α) : mget d (mset d m k v) k = v := by simp [mget_mset]

theorem mget_mset_other [DecidableEq α] (d : α) (m : SMap α) {k j : Nat} (v : α) (h : j ≠ k) : mget d (mset d m k v) j = mget d m j := by
  simp [mget_mset, h]

theorem mwf_filter_above [DecidableEq α] (d : α) (m : SMap α) {a : Nat} (w : mwfFrom d (a + 1) m = true) : m.filter (fun p => decide (a < p.1)) = m := by
  have key : ∀ (m : SMap α) (lo : Nat), a < lo → mwfFrom d lo m = true → m.filter (fun p => decide (a < p.1)) = m := by
    intro m
    induction m with
    | nil => intros; rfl
    | cons p m ih =>
      obtain ⟨b, x⟩ := p
      intro lo hlo w
      simp only [mwfFrom, Bool.and_eq_true, decide_eq_true_eq] at w
      have hb : a < b := by omega
      simp [hb, ih (b + 1) (by omega) w.2]
  exact key m (a + 1) (by omega) w

theorem mwf_mono [DecidableEq α] (d : α) (m : SMap α) {lo hi : Nat} (h : lo ≤ hi) (w : mwfFrom d hi m = true) : mwfFrom d lo m = true := by
  cases m with
  | nil => rfl
  | cons p m =>
    obtain ⟨a, x⟩ := p
    simp only [mwfFrom, Bool.and_eq_true, decide_eq_true_eq] at w ⊢
    exact ⟨⟨by omega, w.1.2⟩, w.2⟩

/-- Removing a key keeps the canonical form. -/
theorem mwf_mdel [DecidableEq α] (d : α) (m : SMap α) {lo k : Nat} (w : mwfFrom d lo m = true) : mwfFrom d lo (mdel m k) = true := by
  induction m generalizing lo with
  | nil => rfl
  | cons p m ih =>
    obtain ⟨a, x⟩ := p
    have w' := w
    simp only [mwfFrom, Bool.and_eq_true, decide_eq_true_eq] at w
    simp only [mdel]
    split
    · rw [mwf_filter_above d m w.2]
      exact mwf_mono d m (by omega) w.2
    · split
      · exact w'
      · simp only [mwfFrom, Bool.and_eq_true, decide_eq_true_eq]
        exact ⟨w.1, ih w.2⟩

/-- Listing a key with a value that is not the default keeps the canonical form. -/
theorem mwf_mins [DecidableEq α] (d : α) (m : SMap α) {lo k : Nat} (v : α) (hk : lo ≤ k) (hv : v ≠ d) (w : mwfFrom d lo m = true) :
    mwfFrom d lo (mins m k v) = true := by
  induction m generalizing lo with
  | nil => simp [mins, mwfFrom, hk, hv]
  | cons p m ih =>
    obtain ⟨a, x⟩ := p
    simp only [mwfFrom, Bool.and_eq_true, decide_eq_true_eq] at w
    simp only [mins]
    split
    · rename_i h1
      subst h1
      simp [mwfFrom, hk, hv, w.2]
    · split
      · rename_i h1 h2
        simp only [mwfFrom, Bool.and_eq_true, decide_eq_true_eq]
        exact ⟨⟨hk, hv⟩, ⟨by omega, w.1.2⟩, w.2⟩
      · rename_i h1 h2
        simp only [mwfFrom, Bool.and_eq_true, decide_eq_true_eq]
        exact ⟨w.1, ih (by omega) w.2⟩

/-- A write keeps the canonical form. -/
theorem mwf_mset [DecidableEq α] (d : α) (m : SMap α) (k : Nat) (v : α) (w : mwf d m = true) : mwf d (mset d m k v) = true := by
  unfold mset mwf at *
  split
  · exact mwf_mdel d m w
  · rename_i h
    exact mwf_mins d m v (Nat.zero_le k) h w

/-- Two canonical maps that read alike are equal. -/
theorem mwf_ext [DecidableEq α] (d : α) (m n : SMap α) {lo : Nat} (wm : mwfFrom d lo m = true) (wn : mwfFrom d lo n = true)
    (h : ∀ k, mget d m k = mget d n k) : m = n := by
  induction m generalizing lo n with
  | nil =>
    cases n with
    | nil => rfl
    | cons p r =>
      obtain ⟨a, x⟩ := p
      simp only [mwfFrom, Bool.and_eq_true, decide_eq_true_eq] at wn
      have := h a
      simp [mget] at this
      exact absurd this.symm wn.1.2
  | cons p m ih =>
    obtain ⟨a, x⟩ := p
    have wm' := wm
    simp only [mwfFrom, Bool.and_eq_true, decide_eq_true_eq] at wm
    cases n with
    | nil =>
      have := h a
      simp [mget] at this
      exact absurd this wm.1.2
    | cons q r =>
      obtain ⟨b, y⟩ := q
      have wn' := wn
      simp only [mwfFrom, Bool.and_eq_true, decide_eq_true_eq] at wn
      have hab : a = b := by
        rcases Nat.lt_trichotomy a b with hlt | he | hgt
        · have h1 := h a
          have : a ≠ b := by omega
          simp [mget, this, hlt] at h1
          exact absurd h1 wm.1.2
        · exact he
        · have h1 := h b
          have : b ≠ a := by omega
          simp [mget, this, hgt] at h1
          exact absurd h1.symm wn.1.2
      subst hab
      have hxy : x = y := by simpa [mget] using h a
      subst hxy
      rw [ih r wm.2 wn.2 fun k => ?_]
      by_cases hk : k ≤ a
      · rw [mget_below d m wm.2 (by omega), mget_below d r wn.2 (by omega)]
      · have h1 := h k
        have e1 : k ≠ a := by omega
        have e2 : ¬ k < a := by omega
        simpa [mget, e1, e2] using h1

end Sys2Proof.Machine
end

