-- ==== Sys2Proof/Laws/Memory.lean ====
section
/-! SUPPORT. Laws of physical memory: a byte written reads back, every other byte stays, and every operation keeps the canonical form. -/
namespace Sys2Proof.Machine

theorem memSet_wf {m : List Host.Cell} (pa : Nat) (b : Byte) (w : Memory.wf m = true) : Memory.wf (memSet m pa b) = true :=
  mwf_mset memDefault m pa b w

/-- Reading after a write of one byte. -/
@[simp] theorem memGet_memSet (m : List Host.Cell) (pa a : Nat) (b : Byte) : memGet (memSet m pa b) a = if a = pa then b else memGet m a :=
  mget_mset memDefault m pa a b

/-! ### One byte at its home -/

theorem putByte_mem (self : Writer) (d : Dev) (pa : Nat) (b : Byte) :
    (putByte self d pa b).mem = if memGet d.mem pa = b then (if (mget [] d.hist pa).isEmpty then d.mem else memSet d.mem pa b) else memSet d.mem pa b := by
  unfold putByte
  dsimp only
  by_cases h : memGet d.mem pa = b <;> by_cases h' : (mget [] d.hist pa).isEmpty = true <;> simp [h, h']

/-- One byte takes its next value, and no other does. -/
theorem memGet_putByte (self : Writer) (d : Dev) (pa a : Nat) (b : Byte) :
    memGet (putByte self d pa b).mem a = if a = pa then b else memGet d.mem a := by
  rw [putByte_mem]
  by_cases h : memGet d.mem pa = b
  · rw [if_pos h]
    split
    · split
      · next e => rw [e, h]
      · rfl
    · exact memGet_memSet ..
  · rw [if_neg h, memGet_memSet]

theorem putByte_wf (self : Writer) (d : Dev) (pa : Nat) (b : Byte) (w : Memory.wf d.mem = true) : Memory.wf (putByte self d pa b).mem = true := by
  rw [putByte_mem]
  repeat' split
  all_goals first | exact w | exact memSet_wf pa b w

theorem putBytes_wf (self : Writer) (bs : List Byte) (d : Dev) (pa : Nat) (w : Memory.wf d.mem = true) : Memory.wf (putBytes self d pa bs).mem = true := by
  induction bs generalizing d pa with
  | nil => exact w
  | cons b r ih => exact ih _ _ (putByte_wf self d pa b w)

/-- Bytes upwards from pa, and no others. -/
theorem memGet_putBytes (self : Writer) (bs : List Byte) (d : Dev) (pa a : Nat) :
    memGet (putBytes self d pa bs).mem a = if pa ≤ a then (bs[a - pa]?).getD (memGet d.mem a) else memGet d.mem a := by
  induction bs generalizing d pa with
  | nil => simp [putBytes]
  | cons b r ih =>
    rw [putBytes, ih, memGet_putByte]
    rcases Nat.lt_trichotomy a pa with h | rfl | h
    · simp [show ¬ pa + 1 ≤ a by omega, show ¬ pa ≤ a by omega, Nat.ne_of_lt h]
    · simp [show ¬ a + 1 ≤ a by omega]
    · simp [show pa + 1 ≤ a by omega, show pa ≤ a by omega, Nat.ne_of_gt h, show a - pa = (a - (pa + 1)) + 1 by omega]

/-! ### One write -/

@[simp] theorem nextWrite_mem (d : Dev) : (nextWrite d).mem = d.mem := rfl

/-- Whatever each step of a fold keeps, the fold keeps. -/
theorem foldl_keeps {α β : Type} (P : α → Prop) (f : α → β → α) (l : List β) (a : α) (h0 : P a) (h : ∀ a b, P a → P (f a b)) : P (l.foldl f a) := by
  induction l generalizing a with
  | nil => exact h0
  | cons b r ih => exact ih _ (h a b h0)

/-- A write's memory is that of its bytes. -/
theorem devSetBytes_mem (self : Writer) (d : Dev) (pa : Nat) (bs : List Byte) :
    (devSetBytes self d pa bs).mem = (putBytes self (nextWrite d) pa bs).mem := rfl

theorem devSetBytes_wf (self : Writer) (bs : List Byte) (d : Dev) (pa : Nat) (w : Memory.wf d.mem = true) :
    Memory.wf (devSetBytes self d pa bs).mem = true := by
  rw [devSetBytes_mem]
  exact putBytes_wf self bs (nextWrite d) pa w

/-- Bytes written upwards from pa, and no others. -/
theorem memGet_devSetBytes (self : Writer) (bs : List Byte) (d : Dev) (pa a : Nat) :
    memGet (devSetBytes self d pa bs).mem a = if pa ≤ a then (bs[a - pa]?).getD (memGet d.mem a) else memGet d.mem a := by
  rw [devSetBytes_mem, memGet_putBytes, nextWrite_mem]

@[simp] theorem clearUnits_mem (d : Dev) (pa n : Nat) : (clearUnits d pa n).mem = d.mem := by unfold clearUnits; split <;> rfl

theorem devSetNat_mem (self : Writer) (d : Dev) (pa n v : Nat) : (devSetNat self d pa n v).mem = (devSetBytes self d pa (leBytes n v)).mem :=
  clearUnits_mem _ pa n

theorem devSetNat_wf (self : Writer) (d : Dev) (pa n v : Nat) (w : Memory.wf d.mem = true) : Memory.wf (devSetNat self d pa n v).mem = true :=
  devSetNat_mem self d pa n v ▸ devSetBytes_wf self _ d pa w

@[simp] theorem leBytes_length (n v : Nat) : (leBytes n v).length = n := by
  induction n generalizing v with
  | zero => rfl
  | succ n ih => simp [leBytes, ih]

/-- A number written reads back: its lowest n bytes, lowest first (R37). -/
theorem leNat_leBytes (n v : Nat) : leNat (leBytes n v) = v % 256 ^ n := by
  induction n generalizing v with
  | zero => simp [leBytes, leNat, Nat.mod_one]
  | succ n ih =>
    rw [leBytes, leNat, ih]
    simp only [BitVec.toNat_ofNat]
    rw [show (2 : Nat) ^ 8 = 256 from rfl, Nat.pow_succ, Nat.mul_comm (256 ^ n) 256, Nat.mod_mul]

/-- A number written at pa: its bytes there, every other byte as before. -/
theorem memGet_devSetNat (self : Writer) (d : Dev) (pa n v a : Nat) (h : a < pa ∨ pa + n ≤ a) :
    memGet (devSetNat self d pa n v).mem a = memGet d.mem a := by
  rw [devSetNat_mem, memGet_devSetBytes]
  split
  · rw [List.getElem?_eq_none (by rw [leBytes_length]; omega)]; rfl
  · rfl

/-- Reading n bytes upwards: one by one. -/
theorem memBytes_getElem (m : List Host.Cell) (n pa i : Nat) (h : i < (memBytes m pa n).length) : (memBytes m pa n)[i] = memGet m (pa + i) := by
  induction n generalizing pa i with
  | zero => exact absurd h (Nat.not_lt_zero i)
  | succ n ih =>
    cases i with
    | zero => rfl
    | succ j => rw [show pa + (j + 1) = pa + 1 + j by omega]; exact ih (pa + 1) j (by simpa [memBytes] using h)

@[simp] theorem memBytes_length (m : List Host.Cell) (n pa : Nat) : (memBytes m pa n).length = n := by
  induction n generalizing pa with
  | zero => rfl
  | succ n ih => rw [memBytes, List.length_cons, ih]

/-- What devSetBytes writes, memBytes reads. -/
theorem memBytes_devSetBytes (self : Writer) (bs : List Byte) (d : Dev) (pa : Nat) :
    memBytes (devSetBytes self d pa bs).mem pa bs.length = bs := by
  refine List.ext_getElem (memBytes_length _ _ _) fun i _ h => ?_
  rw [memBytes_getElem, memGet_devSetBytes, if_pos (Nat.le_add_right pa i), Nat.add_sub_cancel_left, List.getElem?_eq_getElem h]
  rfl

/-- What devSetNat writes, memNat reads. -/
theorem memNat_devSetNat (self : Writer) (d : Dev) (pa n v : Nat) :
    memNat (devSetNat self d pa n v).mem pa n = v % 256 ^ n := by
  have h := memBytes_devSetBytes self (leBytes n v) d pa
  rw [leBytes_length] at h
  rw [memNat, devSetNat_mem, h, leNat_leBytes]

theorem rangeWrite_wf (self : Writer) (d : Dev) (l : List (Dword × TlbEnt)) (va : Nat) (bs : List Byte) (w : Memory.wf d.mem = true) :
    Memory.wf (rangeWrite self d l va bs).mem = true := by
  unfold rangeWrite
  dsimp only
  generalize hx : List.foldl _ (nextWrite d) _ = x
  have hw : Memory.wf x.mem = true := by
    rw [← hx]
    refine foldl_keeps (fun d : Dev => Memory.wf d.mem = true) _ _ _ w fun d p h => ?_
    split
    · exact h
    · exact putByte_wf self d _ _ h
  split
  · exact hw
  · exact foldl_keeps (fun d : Dev => Memory.wf d.mem = true) _ _ _ hw fun d a h => by rw [clearUnits_mem]; exact h

@[simp] theorem raiseCur_mem (d : Dev) (e : Nat) (s : OSet) : (raiseCur d e s).mem = d.mem := by unfold raiseCur; split <;> rfl

@[simp] theorem rangeRaise_mem (d : Dev) (l : List (Dword × TlbEnt)) (s : OSet) : (rangeRaise d l s).mem = d.mem := by
  unfold rangeRaise
  exact foldl_keeps (fun x : Dev => x.mem = d.mem) _ _ _ rfl fun x p h => by simp [h]

@[simp] theorem pinFrames_mem (d : Dev) (es : List Nat) : (pinFrames d es).mem = d.mem := rfl
@[simp] theorem unpinFrames_mem (d : Dev) (es : List Nat) : (unpinFrames d es).mem = d.mem := rfl
@[simp] theorem tlbFill_mem (d : Dev) (c : Nat) (t : TlbEnt) : (tlbFill d c t).mem = d.mem := rfl
@[simp] theorem tlbFill_cur (d : Dev) (c : Nat) (t : TlbEnt) : (tlbFill d c t).cur = d.cur := rfl
@[simp] theorem dropL1_mem (d : Dev) (c : Nat) : (dropL1 d c).mem = d.mem := rfl
@[simp] theorem dropL1_cur (d : Dev) (c : Nat) : (dropL1 d c).cur = d.cur := rfl
@[simp] theorem updCore_mem (d : Dev) (c : Nat) (f : Core → Core) : (d.updCore c f).mem = d.mem := rfl
@[simp] theorem updCore_cur (d : Dev) (c : Nat) (f : Core → Core) : (d.updCore c f).cur = d.cur := rfl

/-- Only the TLBs of cores have changed. -/
def OnlyCores (d d' : Dev) : Prop := ∃ k, d' = { d with cores := k }

theorem OnlyCores.same (d : Dev) : OnlyCores d d := ⟨d.cores, rfl⟩
theorem OnlyCores.fill (d : Dev) (c : Nat) (x : Except Nat TlbEnt) : OnlyCores d (match x with | .ok t => tlbFill d c t | .error _ => d) := by
  cases x with
  | ok t => exact ⟨_, rfl⟩
  | error _ => exact OnlyCores.same d

/-- Looking up an address changes no memory and no register. -/
theorem lookup_only (fw : Fw) (d : Dev) (c part asid vpn : Nat) : OnlyCores d (lookup fw d c part asid vpn).2 := by
  unfold lookup
  dsimp only
  split
  · exact OnlyCores.fill d c _
  · split
    · exact OnlyCores.same d
    · split
      · exact OnlyCores.same d
      · exact OnlyCores.fill d c _
      · exact OnlyCores.same d

/-- Nor does translating it: only the TLB of a core may take the entry. -/
theorem translate_only (fw : Fw) (d : Dev) (c part : Nat) (n : Need) (va : Dword) :
    ∃ k, (translate fw d c part n va).2 = { d with cores := k } := by
  have hk := lookup_only fw d c part 0 (vpnOf va)
  unfold translate
  split
  · exact OnlyCores.same d
  · generalize lookup fw d c part 0 (vpnOf va) = x at hk ⊢
    obtain ⟨r | t, d1⟩ := x
    · exact hk
    · exact hk

/-- A set never has more lines than ways once a load has used one. -/
theorem touchLine_length (pol : CachePol) (line : Nat) (set : List Nat) (h : set.length ≤ l1Ways) : (touchLine pol line set).length ≤ l1Ways := by
  have ht : (set.take (l1Ways - 1)).length ≤ l1Ways - 1 := List.length_take_le _ _
  have hw : 0 < l1Ways := by decide
  unfold touchLine
  split
  · rename_i hc
    have : (set.filter (· != line)).length < set.length :=
      List.length_filter_lt_length_iff_exists.mpr ⟨line, by simpa using hc, by simp⟩
    simp only [List.length_cons]
    omega
  · split <;> simp only [List.length_append, List.length_cons, List.length_nil] <;> omega

/-- The line a load has used is in its set. -/
theorem mem_touchLine (pol : CachePol) (line : Nat) (set : List Nat) : line ∈ touchLine pol line set := by
  unfold touchLine
  split
  · simp
  · split <;> simp

@[simp] theorem useLine_mem (pol : CachePol) (line c : Nat) (d : Dev) : (useLine pol line c d).mem = d.mem := rfl
@[simp] theorem useLine_cur (pol : CachePol) (line c : Nat) (d : Dev) : (useLine pol line c d).cur = d.cur := rfl

end Sys2Proof.Machine
end

