-- ==== Sys2Proof/Laws/State.lean ====
section
/-! SUPPORT. What the updates of the state leave: one law for each field and each update, all by rfl. -/
namespace Sys2Proof.Machine

/-! ### Dev.upd -/
@[simp] theorem Dev.upd_cur (d : Dev) (f : Team → Team) : (d.upd f).cur = f d.cur := rfl
@[simp] theorem Dev.upd_time (d : Dev) (f : Team → Team) : (d.upd f).time = d.time := rfl
@[simp] theorem Dev.upd_evn (d : Dev) (f : Team → Team) : (d.upd f).evn = d.evn := rfl
@[simp] theorem Dev.upd_cyc (d : Dev) (f : Team → Team) : (d.upd f).cyc = d.cyc := rfl
@[simp] theorem Dev.upd_stallR (d : Dev) (f : Team → Team) : (d.upd f).stallR = d.stallR := rfl
@[simp] theorem Dev.upd_stepK (d : Dev) (f : Team → Team) : (d.upd f).stepK = d.stepK := rfl
@[simp] theorem Dev.upd_causes (d : Dev) (f : Team → Team) : (d.upd f).causes = d.causes := rfl
@[simp] theorem Dev.upd_stepRun (d : Dev) (f : Team → Team) : (d.upd f).stepRun = d.stepRun := rfl
@[simp] theorem Dev.upd_phase (d : Dev) (f : Team → Team) : (d.upd f).phase = d.phase := rfl
@[simp] theorem Dev.upd_joint (d : Dev) (f : Team → Team) : (d.upd f).joint = d.joint := rfl
@[simp] theorem Dev.upd_free (d : Dev) (f : Team → Team) : (d.upd f).free = d.free := rfl
@[simp] theorem Dev.upd_frozen (d : Dev) (f : Team → Team) : (d.upd f).frozen = d.frozen := rfl
@[simp] theorem Dev.upd_mem (d : Dev) (f : Team → Team) : (d.upd f).mem = d.mem := rfl
@[simp] theorem Dev.upd_wn (d : Dev) (f : Team → Team) : (d.upd f).wn = d.wn := rfl
@[simp] theorem Dev.upd_hist (d : Dev) (f : Team → Team) : (d.upd f).hist = d.hist := rfl
@[simp] theorem Dev.upd_limAcq (d : Dev) (f : Team → Team) : (d.upd f).limAcq = d.limAcq := rfl
@[simp] theorem Dev.upd_limSys (d : Dev) (f : Team → Team) : (d.upd f).limSys = d.limSys := rfl
@[simp] theorem Dev.upd_slots (d : Dev) (f : Team → Team) : (d.upd f).slots = d.slots := rfl
@[simp] theorem Dev.upd_badU (d : Dev) (f : Team → Team) : (d.upd f).badU = d.badU := rfl
@[simp] theorem Dev.upd_badCorr (d : Dev) (f : Team → Team) : (d.upd f).badCorr = d.badCorr := rfl
@[simp] theorem Dev.upd_hbmU (d : Dev) (f : Team → Team) : (d.upd f).hbmU = d.hbmU := rfl
@[simp] theorem Dev.upd_frames (d : Dev) (f : Team → Team) : (d.upd f).frames = d.frames := rfl
@[simp] theorem Dev.upd_cores (d : Dev) (f : Team → Team) : (d.upd f).cores = d.cores := rfl
@[simp] theorem Dev.upd_rest (d : Dev) (f : Team → Team) : (d.upd f).rest = d.rest := rfl
@[simp] theorem Dev.upd_nextKey (d : Dev) (f : Team → Team) : (d.upd f).nextKey = d.nextKey := rfl
@[simp] theorem Dev.upd_launches (d : Dev) (f : Team → Team) : (d.upd f).launches = d.launches := rfl
@[simp] theorem Dev.upd_list (d : Dev) (f : Team → Team) : (d.upd f).list = d.list := rfl
@[simp] theorem Dev.upd_waitSince (d : Dev) (f : Team → Team) : (d.upd f).waitSince = d.waitSince := rfl
@[simp] theorem Dev.upd_saves (d : Dev) (f : Team → Team) : (d.upd f).saves = d.saves := rfl
@[simp] theorem Dev.upd_graphs (d : Dev) (f : Team → Team) : (d.upd f).graphs = d.graphs := rfl
@[simp] theorem Dev.upd_windows (d : Dev) (f : Team → Team) : (d.upd f).windows = d.windows := rfl
@[simp] theorem Dev.upd_outs (d : Dev) (f : Team → Team) : (d.upd f).outs = d.outs := rfl
@[simp] theorem Dev.upd_ports (d : Dev) (f : Team → Team) : (d.upd f).ports = d.ports := rfl
@[simp] theorem Dev.upd_cmds (d : Dev) (f : Team → Team) : (d.upd f).cmds = d.cmds := rfl
@[simp] theorem Dev.upd_msix (d : Dev) (f : Team → Team) : (d.upd f).msix = d.msix := rfl
@[simp] theorem Dev.upd_hostData (d : Dev) (f : Team → Team) : (d.upd f).hostData = d.hostData := rfl
@[simp] theorem Dev.upd_aborted (d : Dev) (f : Team → Team) : (d.upd f).aborted = d.aborted := rfl
@[simp] theorem Dev.upd_sliceErr (d : Dev) (f : Team → Team) : (d.upd f).sliceErr = d.sliceErr := rfl
@[simp] theorem Dev.upd_stackErr (d : Dev) (f : Team → Team) : (d.upd f).stackErr = d.stackErr := rfl

/-! ### Dev.updR -/
@[simp] theorem Dev.updR_time (d : Dev) (f : Regs → Regs) : (d.updR f).time = d.time := rfl
@[simp] theorem Dev.updR_evn (d : Dev) (f : Regs → Regs) : (d.updR f).evn = d.evn := rfl
@[simp] theorem Dev.updR_cyc (d : Dev) (f : Regs → Regs) : (d.updR f).cyc = d.cyc := rfl
@[simp] theorem Dev.updR_stallR (d : Dev) (f : Regs → Regs) : (d.updR f).stallR = d.stallR := rfl
@[simp] theorem Dev.updR_stepK (d : Dev) (f : Regs → Regs) : (d.updR f).stepK = d.stepK := rfl
@[simp] theorem Dev.updR_causes (d : Dev) (f : Regs → Regs) : (d.updR f).causes = d.causes := rfl
@[simp] theorem Dev.updR_stepRun (d : Dev) (f : Regs → Regs) : (d.updR f).stepRun = d.stepRun := rfl
@[simp] theorem Dev.updR_phase (d : Dev) (f : Regs → Regs) : (d.updR f).phase = d.phase := rfl
@[simp] theorem Dev.updR_joint (d : Dev) (f : Regs → Regs) : (d.updR f).joint = d.joint := rfl
@[simp] theorem Dev.updR_free (d : Dev) (f : Regs → Regs) : (d.updR f).free = d.free := rfl
@[simp] theorem Dev.updR_frozen (d : Dev) (f : Regs → Regs) : (d.updR f).frozen = d.frozen := rfl
@[simp] theorem Dev.updR_mem (d : Dev) (f : Regs → Regs) : (d.updR f).mem = d.mem := rfl
@[simp] theorem Dev.updR_wn (d : Dev) (f : Regs → Regs) : (d.updR f).wn = d.wn := rfl
@[simp] theorem Dev.updR_hist (d : Dev) (f : Regs → Regs) : (d.updR f).hist = d.hist := rfl
@[simp] theorem Dev.updR_limAcq (d : Dev) (f : Regs → Regs) : (d.updR f).limAcq = d.limAcq := rfl
@[simp] theorem Dev.updR_limSys (d : Dev) (f : Regs → Regs) : (d.updR f).limSys = d.limSys := rfl
@[simp] theorem Dev.updR_slots (d : Dev) (f : Regs → Regs) : (d.updR f).slots = d.slots := rfl
@[simp] theorem Dev.updR_badU (d : Dev) (f : Regs → Regs) : (d.updR f).badU = d.badU := rfl
@[simp] theorem Dev.updR_badCorr (d : Dev) (f : Regs → Regs) : (d.updR f).badCorr = d.badCorr := rfl
@[simp] theorem Dev.updR_hbmU (d : Dev) (f : Regs → Regs) : (d.updR f).hbmU = d.hbmU := rfl
@[simp] theorem Dev.updR_frames (d : Dev) (f : Regs → Regs) : (d.updR f).frames = d.frames := rfl
@[simp] theorem Dev.updR_cores (d : Dev) (f : Regs → Regs) : (d.updR f).cores = d.cores := rfl
@[simp] theorem Dev.updR_rest (d : Dev) (f : Regs → Regs) : (d.updR f).rest = d.rest := rfl
@[simp] theorem Dev.updR_nextKey (d : Dev) (f : Regs → Regs) : (d.updR f).nextKey = d.nextKey := rfl
@[simp] theorem Dev.updR_launches (d : Dev) (f : Regs → Regs) : (d.updR f).launches = d.launches := rfl
@[simp] theorem Dev.updR_list (d : Dev) (f : Regs → Regs) : (d.updR f).list = d.list := rfl
@[simp] theorem Dev.updR_waitSince (d : Dev) (f : Regs → Regs) : (d.updR f).waitSince = d.waitSince := rfl
@[simp] theorem Dev.updR_saves (d : Dev) (f : Regs → Regs) : (d.updR f).saves = d.saves := rfl
@[simp] theorem Dev.updR_graphs (d : Dev) (f : Regs → Regs) : (d.updR f).graphs = d.graphs := rfl
@[simp] theorem Dev.updR_windows (d : Dev) (f : Regs → Regs) : (d.updR f).windows = d.windows := rfl
@[simp] theorem Dev.updR_outs (d : Dev) (f : Regs → Regs) : (d.updR f).outs = d.outs := rfl
@[simp] theorem Dev.updR_ports (d : Dev) (f : Regs → Regs) : (d.updR f).ports = d.ports := rfl
@[simp] theorem Dev.updR_cmds (d : Dev) (f : Regs → Regs) : (d.updR f).cmds = d.cmds := rfl
@[simp] theorem Dev.updR_msix (d : Dev) (f : Regs → Regs) : (d.updR f).msix = d.msix := rfl
@[simp] theorem Dev.updR_hostData (d : Dev) (f : Regs → Regs) : (d.updR f).hostData = d.hostData := rfl
@[simp] theorem Dev.updR_aborted (d : Dev) (f : Regs → Regs) : (d.updR f).aborted = d.aborted := rfl
@[simp] theorem Dev.updR_sliceErr (d : Dev) (f : Regs → Regs) : (d.updR f).sliceErr = d.sliceErr := rfl
@[simp] theorem Dev.updR_stackErr (d : Dev) (f : Regs → Regs) : (d.updR f).stackErr = d.stackErr := rfl
@[simp] theorem Dev.updR_cur_key (d : Dev) (f : Regs → Regs) : (d.updR f).cur.key = d.cur.key := rfl
@[simp] theorem Dev.updR_cur_live (d : Dev) (f : Regs → Regs) : (d.updR f).cur.live = d.cur.live := rfl
@[simp] theorem Dev.updR_cur_part (d : Dev) (f : Regs → Regs) : (d.updR f).cur.part = d.cur.part := rfl
@[simp] theorem Dev.updR_cur_teamId (d : Dev) (f : Regs → Regs) : (d.updR f).cur.teamId = d.cur.teamId := rfl
@[simp] theorem Dev.updR_cur_launch (d : Dev) (f : Regs → Regs) : (d.updR f).cur.launch = d.cur.launch := rfl
@[simp] theorem Dev.updR_cur_launchId (d : Dev) (f : Regs → Regs) : (d.updR f).cur.launchId = d.cur.launchId := rfl
@[simp] theorem Dev.updR_cur_index (d : Dev) (f : Regs → Regs) : (d.updR f).cur.index = d.cur.index := rfl
@[simp] theorem Dev.updR_cur_core (d : Dev) (f : Regs → Regs) : (d.updR f).cur.core = d.cur.core := rfl
@[simp] theorem Dev.updR_cur_slot (d : Dev) (f : Regs → Regs) : (d.updR f).cur.slot = d.cur.slot := rfl
@[simp] theorem Dev.updR_cur_decl (d : Dev) (f : Regs → Regs) : (d.updR f).cur.decl = d.cur.decl := rfl
@[simp] theorem Dev.updR_cur_regs (d : Dev) (f : Regs → Regs) : (d.updR f).cur.regs = f d.cur.regs := rfl
@[simp] theorem Dev.updR_cur_sp (d : Dev) (f : Regs → Regs) : (d.updR f).cur.sp = d.cur.sp := rfl
@[simp] theorem Dev.updR_cur_pc (d : Dev) (f : Regs → Regs) : (d.updR f).cur.pc = d.cur.pc := rfl
@[simp] theorem Dev.updR_cur_pos (d : Dev) (f : Regs → Regs) : (d.updR f).cur.pos = d.cur.pos := rfl
@[simp] theorem Dev.updR_cur_hgrp (d : Dev) (f : Regs → Regs) : (d.updR f).cur.hgrp = d.cur.hgrp := rfl
@[simp] theorem Dev.updR_cur_hints (d : Dev) (f : Regs → Regs) : (d.updR f).cur.hints = d.cur.hints := rfl
@[simp] theorem Dev.updR_cur_runId (d : Dev) (f : Regs → Regs) : (d.updR f).cur.runId = d.cur.runId := rfl
@[simp] theorem Dev.updR_cur_runOpen (d : Dev) (f : Regs → Regs) : (d.updR f).cur.runOpen = d.cur.runOpen := rfl
@[simp] theorem Dev.updR_cur_runEnd (d : Dev) (f : Regs → Regs) : (d.updR f).cur.runEnd = d.cur.runEnd := rfl
@[simp] theorem Dev.updR_cur_haz (d : Dev) (f : Regs → Regs) : (d.updR f).cur.haz = d.cur.haz := rfl
@[simp] theorem Dev.updR_cur_ops (d : Dev) (f : Regs → Regs) : (d.updR f).cur.ops = d.cur.ops := rfl
@[simp] theorem Dev.updR_cur_nextOp (d : Dev) (f : Regs → Regs) : (d.updR f).cur.nextOp = d.cur.nextOp := rfl
@[simp] theorem Dev.updR_cur_bound (d : Dev) (f : Regs → Regs) : (d.updR f).cur.bound = d.cur.bound := rfl
@[simp] theorem Dev.updR_cur_why (d : Dev) (f : Regs → Regs) : (d.updR f).cur.why = d.cur.why := rfl
@[simp] theorem Dev.updR_cur_restart (d : Dev) (f : Regs → Regs) : (d.updR f).cur.restart = d.cur.restart := rfl
@[simp] theorem Dev.updR_cur_restartOp (d : Dev) (f : Regs → Regs) : (d.updR f).cur.restartOp = d.cur.restartOp := rfl
@[simp] theorem Dev.updR_cur_wait (d : Dev) (f : Regs → Regs) : (d.updR f).cur.wait = d.cur.wait := rfl
@[simp] theorem Dev.updR_cur_met (d : Dev) (f : Regs → Regs) : (d.updR f).cur.met = d.cur.met := rfl
@[simp] theorem Dev.updR_cur_sessions (d : Dev) (f : Regs → Regs) : (d.updR f).cur.sessions = d.cur.sessions := rfl
@[simp] theorem Dev.updR_cur_reopen (d : Dev) (f : Regs → Regs) : (d.updR f).cur.reopen = d.cur.reopen := rfl
@[simp] theorem Dev.updR_cur_active (d : Dev) (f : Regs → Regs) : (d.updR f).cur.active = d.cur.active := rfl
@[simp] theorem Dev.updR_cur_entries (d : Dev) (f : Regs → Regs) : (d.updR f).cur.entries = d.cur.entries := rfl
@[simp] theorem Dev.updR_cur_lastIssue (d : Dev) (f : Regs → Regs) : (d.updR f).cur.lastIssue = d.cur.lastIssue := rfl
@[simp] theorem Dev.updR_cur_lastReady (d : Dev) (f : Regs → Regs) : (d.updR f).cur.lastReady = d.cur.lastReady := rfl
@[simp] theorem Dev.updR_cur_stuck (d : Dev) (f : Regs → Regs) : (d.updR f).cur.stuck = d.cur.stuck := rfl
@[simp] theorem Dev.updR_cur_retry (d : Dev) (f : Regs → Regs) : (d.updR f).cur.retry = d.cur.retry := rfl
@[simp] theorem Dev.updR_cur_ipc (d : Dev) (f : Regs → Regs) : (d.updR f).cur.ipc = d.cur.ipc := rfl
@[simp] theorem Dev.updR_cur_prio (d : Dev) (f : Regs → Regs) : (d.updR f).cur.prio = d.cur.prio := rfl
@[simp] theorem Dev.updR_cur_start (d : Dev) (f : Regs → Regs) : (d.updR f).cur.start = d.cur.start := rfl
@[simp] theorem Dev.updR_cur_stall (d : Dev) (f : Regs → Regs) : (d.updR f).cur.stall = d.cur.stall := rfl
@[simp] theorem Dev.updR_cur_issued (d : Dev) (f : Regs → Regs) : (d.updR f).cur.issued = d.cur.issued := rfl
@[simp] theorem Dev.updR_cur_resident (d : Dev) (f : Regs → Regs) : (d.updR f).cur.resident = d.cur.resident := rfl
@[simp] theorem Dev.updR_cur_gp (d : Dev) (f : Regs → Regs) : (d.updR f).cur.gp = d.cur.gp := rfl
@[simp] theorem Dev.updR_cur_saveArea (d : Dev) (f : Regs → Regs) : (d.updR f).cur.saveArea = d.cur.saveArea := rfl
@[simp] theorem Dev.updR_cur_runs (d : Dev) (f : Regs → Regs) : (d.updR f).cur.runs = d.cur.runs := rfl
@[simp] theorem Dev.updR_cur_pins (d : Dev) (f : Regs → Regs) : (d.updR f).cur.pins = d.cur.pins := rfl
@[simp] theorem Dev.updR_cur_save (d : Dev) (f : Regs → Regs) : (d.updR f).cur.save = d.cur.save := rfl
@[simp] theorem Dev.updR_cur_saveAt (d : Dev) (f : Regs → Regs) : (d.updR f).cur.saveAt = d.cur.saveAt := rfl
@[simp] theorem Dev.updR_cur_halted (d : Dev) (f : Regs → Regs) : (d.updR f).cur.halted = d.cur.halted := rfl
@[simp] theorem Dev.updR_cur_slide (d : Dev) (f : Regs → Regs) : (d.updR f).cur.slide = d.cur.slide := rfl
@[simp] theorem Dev.updR_cur_badV (d : Dev) (f : Regs → Regs) : (d.updR f).cur.badV = d.cur.badV := rfl
@[simp] theorem Dev.updR_cur_badS (d : Dev) (f : Regs → Regs) : (d.updR f).cur.badS = d.cur.badS := rfl
@[simp] theorem Dev.updR_cur_badT (d : Dev) (f : Regs → Regs) : (d.updR f).cur.badT = d.cur.badT := rfl

/-! ### Dev.updS -/
@[simp] theorem Dev.updS_time (d : Dev) (f : Special → Special) : (d.updS f).time = d.time := rfl
@[simp] theorem Dev.updS_evn (d : Dev) (f : Special → Special) : (d.updS f).evn = d.evn := rfl
@[simp] theorem Dev.updS_cyc (d : Dev) (f : Special → Special) : (d.updS f).cyc = d.cyc := rfl
@[simp] theorem Dev.updS_stallR (d : Dev) (f : Special → Special) : (d.updS f).stallR = d.stallR := rfl
@[simp] theorem Dev.updS_stepK (d : Dev) (f : Special → Special) : (d.updS f).stepK = d.stepK := rfl
@[simp] theorem Dev.updS_causes (d : Dev) (f : Special → Special) : (d.updS f).causes = d.causes := rfl
@[simp] theorem Dev.updS_stepRun (d : Dev) (f : Special → Special) : (d.updS f).stepRun = d.stepRun := rfl
@[simp] theorem Dev.updS_phase (d : Dev) (f : Special → Special) : (d.updS f).phase = d.phase := rfl
@[simp] theorem Dev.updS_joint (d : Dev) (f : Special → Special) : (d.updS f).joint = d.joint := rfl
@[simp] theorem Dev.updS_free (d : Dev) (f : Special → Special) : (d.updS f).free = d.free := rfl
@[simp] theorem Dev.updS_frozen (d : Dev) (f : Special → Special) : (d.updS f).frozen = d.frozen := rfl
@[simp] theorem Dev.updS_mem (d : Dev) (f : Special → Special) : (d.updS f).mem = d.mem := rfl
@[simp] theorem Dev.updS_wn (d : Dev) (f : Special → Special) : (d.updS f).wn = d.wn := rfl
@[simp] theorem Dev.updS_hist (d : Dev) (f : Special → Special) : (d.updS f).hist = d.hist := rfl
@[simp] theorem Dev.updS_limAcq (d : Dev) (f : Special → Special) : (d.updS f).limAcq = d.limAcq := rfl
@[simp] theorem Dev.updS_limSys (d : Dev) (f : Special → Special) : (d.updS f).limSys = d.limSys := rfl
@[simp] theorem Dev.updS_slots (d : Dev) (f : Special → Special) : (d.updS f).slots = d.slots := rfl
@[simp] theorem Dev.updS_badU (d : Dev) (f : Special → Special) : (d.updS f).badU = d.badU := rfl
@[simp] theorem Dev.updS_badCorr (d : Dev) (f : Special → Special) : (d.updS f).badCorr = d.badCorr := rfl
@[simp] theorem Dev.updS_hbmU (d : Dev) (f : Special → Special) : (d.updS f).hbmU = d.hbmU := rfl
@[simp] theorem Dev.updS_frames (d : Dev) (f : Special → Special) : (d.updS f).frames = d.frames := rfl
@[simp] theorem Dev.updS_cores (d : Dev) (f : Special → Special) : (d.updS f).cores = d.cores := rfl
@[simp] theorem Dev.updS_rest (d : Dev) (f : Special → Special) : (d.updS f).rest = d.rest := rfl
@[simp] theorem Dev.updS_nextKey (d : Dev) (f : Special → Special) : (d.updS f).nextKey = d.nextKey := rfl
@[simp] theorem Dev.updS_launches (d : Dev) (f : Special → Special) : (d.updS f).launches = d.launches := rfl
@[simp] theorem Dev.updS_list (d : Dev) (f : Special → Special) : (d.updS f).list = d.list := rfl
@[simp] theorem Dev.updS_waitSince (d : Dev) (f : Special → Special) : (d.updS f).waitSince = d.waitSince := rfl
@[simp] theorem Dev.updS_saves (d : Dev) (f : Special → Special) : (d.updS f).saves = d.saves := rfl
@[simp] theorem Dev.updS_graphs (d : Dev) (f : Special → Special) : (d.updS f).graphs = d.graphs := rfl
@[simp] theorem Dev.updS_windows (d : Dev) (f : Special → Special) : (d.updS f).windows = d.windows := rfl
@[simp] theorem Dev.updS_outs (d : Dev) (f : Special → Special) : (d.updS f).outs = d.outs := rfl
@[simp] theorem Dev.updS_ports (d : Dev) (f : Special → Special) : (d.updS f).ports = d.ports := rfl
@[simp] theorem Dev.updS_cmds (d : Dev) (f : Special → Special) : (d.updS f).cmds = d.cmds := rfl
@[simp] theorem Dev.updS_msix (d : Dev) (f : Special → Special) : (d.updS f).msix = d.msix := rfl
@[simp] theorem Dev.updS_hostData (d : Dev) (f : Special → Special) : (d.updS f).hostData = d.hostData := rfl
@[simp] theorem Dev.updS_aborted (d : Dev) (f : Special → Special) : (d.updS f).aborted = d.aborted := rfl
@[simp] theorem Dev.updS_sliceErr (d : Dev) (f : Special → Special) : (d.updS f).sliceErr = d.sliceErr := rfl
@[simp] theorem Dev.updS_stackErr (d : Dev) (f : Special → Special) : (d.updS f).stackErr = d.stackErr := rfl
@[simp] theorem Dev.updS_cur_key (d : Dev) (f : Special → Special) : (d.updS f).cur.key = d.cur.key := rfl
@[simp] theorem Dev.updS_cur_live (d : Dev) (f : Special → Special) : (d.updS f).cur.live = d.cur.live := rfl
@[simp] theorem Dev.updS_cur_part (d : Dev) (f : Special → Special) : (d.updS f).cur.part = d.cur.part := rfl
@[simp] theorem Dev.updS_cur_teamId (d : Dev) (f : Special → Special) : (d.updS f).cur.teamId = d.cur.teamId := rfl
@[simp] theorem Dev.updS_cur_launch (d : Dev) (f : Special → Special) : (d.updS f).cur.launch = d.cur.launch := rfl
@[simp] theorem Dev.updS_cur_launchId (d : Dev) (f : Special → Special) : (d.updS f).cur.launchId = d.cur.launchId := rfl
@[simp] theorem Dev.updS_cur_index (d : Dev) (f : Special → Special) : (d.updS f).cur.index = d.cur.index := rfl
@[simp] theorem Dev.updS_cur_core (d : Dev) (f : Special → Special) : (d.updS f).cur.core = d.cur.core := rfl
@[simp] theorem Dev.updS_cur_slot (d : Dev) (f : Special → Special) : (d.updS f).cur.slot = d.cur.slot := rfl
@[simp] theorem Dev.updS_cur_decl (d : Dev) (f : Special → Special) : (d.updS f).cur.decl = d.cur.decl := rfl
@[simp] theorem Dev.updS_cur_regs (d : Dev) (f : Special → Special) : (d.updS f).cur.regs = d.cur.regs := rfl
@[simp] theorem Dev.updS_cur_sp (d : Dev) (f : Special → Special) : (d.updS f).cur.sp = f d.cur.sp := rfl
@[simp] theorem Dev.updS_cur_pc (d : Dev) (f : Special → Special) : (d.updS f).cur.pc = d.cur.pc := rfl
@[simp] theorem Dev.updS_cur_pos (d : Dev) (f : Special → Special) : (d.updS f).cur.pos = d.cur.pos := rfl
@[simp] theorem Dev.updS_cur_hgrp (d : Dev) (f : Special → Special) : (d.updS f).cur.hgrp = d.cur.hgrp := rfl
@[simp] theorem Dev.updS_cur_hints (d : Dev) (f : Special → Special) : (d.updS f).cur.hints = d.cur.hints := rfl
@[simp] theorem Dev.updS_cur_runId (d : Dev) (f : Special → Special) : (d.updS f).cur.runId = d.cur.runId := rfl
@[simp] theorem Dev.updS_cur_runOpen (d : Dev) (f : Special → Special) : (d.updS f).cur.runOpen = d.cur.runOpen := rfl
@[simp] theorem Dev.updS_cur_runEnd (d : Dev) (f : Special → Special) : (d.updS f).cur.runEnd = d.cur.runEnd := rfl
@[simp] theorem Dev.updS_cur_haz (d : Dev) (f : Special → Special) : (d.updS f).cur.haz = d.cur.haz := rfl
@[simp] theorem Dev.updS_cur_ops (d : Dev) (f : Special → Special) : (d.updS f).cur.ops = d.cur.ops := rfl
@[simp] theorem Dev.updS_cur_nextOp (d : Dev) (f : Special → Special) : (d.updS f).cur.nextOp = d.cur.nextOp := rfl
@[simp] theorem Dev.updS_cur_bound (d : Dev) (f : Special → Special) : (d.updS f).cur.bound = d.cur.bound := rfl
@[simp] theorem Dev.updS_cur_why (d : Dev) (f : Special → Special) : (d.updS f).cur.why = d.cur.why := rfl
@[simp] theorem Dev.updS_cur_restart (d : Dev) (f : Special → Special) : (d.updS f).cur.restart = d.cur.restart := rfl
@[simp] theorem Dev.updS_cur_restartOp (d : Dev) (f : Special → Special) : (d.updS f).cur.restartOp = d.cur.restartOp := rfl
@[simp] theorem Dev.updS_cur_wait (d : Dev) (f : Special → Special) : (d.updS f).cur.wait = d.cur.wait := rfl
@[simp] theorem Dev.updS_cur_met (d : Dev) (f : Special → Special) : (d.updS f).cur.met = d.cur.met := rfl
@[simp] theorem Dev.updS_cur_sessions (d : Dev) (f : Special → Special) : (d.updS f).cur.sessions = d.cur.sessions := rfl
@[simp] theorem Dev.updS_cur_reopen (d : Dev) (f : Special → Special) : (d.updS f).cur.reopen = d.cur.reopen := rfl
@[simp] theorem Dev.updS_cur_active (d : Dev) (f : Special → Special) : (d.updS f).cur.active = d.cur.active := rfl
@[simp] theorem Dev.updS_cur_entries (d : Dev) (f : Special → Special) : (d.updS f).cur.entries = d.cur.entries := rfl
@[simp] theorem Dev.updS_cur_lastIssue (d : Dev) (f : Special → Special) : (d.updS f).cur.lastIssue = d.cur.lastIssue := rfl
@[simp] theorem Dev.updS_cur_lastReady (d : Dev) (f : Special → Special) : (d.updS f).cur.lastReady = d.cur.lastReady := rfl
@[simp] theorem Dev.updS_cur_stuck (d : Dev) (f : Special → Special) : (d.updS f).cur.stuck = d.cur.stuck := rfl
@[simp] theorem Dev.updS_cur_retry (d : Dev) (f : Special → Special) : (d.updS f).cur.retry = d.cur.retry := rfl
@[simp] theorem Dev.updS_cur_ipc (d : Dev) (f : Special → Special) : (d.updS f).cur.ipc = d.cur.ipc := rfl
@[simp] theorem Dev.updS_cur_prio (d : Dev) (f : Special → Special) : (d.updS f).cur.prio = d.cur.prio := rfl
@[simp] theorem Dev.updS_cur_start (d : Dev) (f : Special → Special) : (d.updS f).cur.start = d.cur.start := rfl
@[simp] theorem Dev.updS_cur_stall (d : Dev) (f : Special → Special) : (d.updS f).cur.stall = d.cur.stall := rfl
@[simp] theorem Dev.updS_cur_issued (d : Dev) (f : Special → Special) : (d.updS f).cur.issued = d.cur.issued := rfl
@[simp] theorem Dev.updS_cur_resident (d : Dev) (f : Special → Special) : (d.updS f).cur.resident = d.cur.resident := rfl
@[simp] theorem Dev.updS_cur_gp (d : Dev) (f : Special → Special) : (d.updS f).cur.gp = d.cur.gp := rfl
@[simp] theorem Dev.updS_cur_saveArea (d : Dev) (f : Special → Special) : (d.updS f).cur.saveArea = d.cur.saveArea := rfl
@[simp] theorem Dev.updS_cur_runs (d : Dev) (f : Special → Special) : (d.updS f).cur.runs = d.cur.runs := rfl
@[simp] theorem Dev.updS_cur_pins (d : Dev) (f : Special → Special) : (d.updS f).cur.pins = d.cur.pins := rfl
@[simp] theorem Dev.updS_cur_save (d : Dev) (f : Special → Special) : (d.updS f).cur.save = d.cur.save := rfl
@[simp] theorem Dev.updS_cur_saveAt (d : Dev) (f : Special → Special) : (d.updS f).cur.saveAt = d.cur.saveAt := rfl
@[simp] theorem Dev.updS_cur_halted (d : Dev) (f : Special → Special) : (d.updS f).cur.halted = d.cur.halted := rfl
@[simp] theorem Dev.updS_cur_slide (d : Dev) (f : Special → Special) : (d.updS f).cur.slide = d.cur.slide := rfl
@[simp] theorem Dev.updS_cur_badV (d : Dev) (f : Special → Special) : (d.updS f).cur.badV = d.cur.badV := rfl
@[simp] theorem Dev.updS_cur_badS (d : Dev) (f : Special → Special) : (d.updS f).cur.badS = d.cur.badS := rfl
@[simp] theorem Dev.updS_cur_badT (d : Dev) (f : Special → Special) : (d.updS f).cur.badT = d.cur.badT := rfl

end Sys2Proof.Machine
end

