-- ==== Sys2Proof/Laws/Ops.lean ====
section
/-! SUPPORT. What the shared operations do: register writes, latencies, tokens, traps and the next position, each said once. -/
namespace Sys2Proof.Machine

/-! ### Older values -/

/-- A team's older values of a place are those of its list that are of that place and may still be read. -/
theorem olds_eq (t : Team) (l : Loc) : t.olds l = t.haz.filter fun h => h.loc == l && (h.op != 0 || decide (t.pos < h.upto)) := by
  unfold Team.olds
  split
  · next e => rw [e]; rfl
  · rfl

/-- Of the older values, those of one place go into another list, all still of that place; other places keep theirs. -/
theorem olds_apart (t : Team) (loc : Loc) (mine : List Haz) (hm : ∀ h ∈ mine, h.loc = loc) (l : Loc) (hl : l ≠ loc) :
    ({ t with haz := mine ++ t.haz.filter fun h => h.loc != loc } : Team).olds l = t.olds l := by
  have h1 : ∀ h ∈ mine, ¬ (h.loc == l && (h.op != 0 || decide (t.pos < h.upto))) = true := by
    intro h hh
    simp [hm h hh, Ne.symm hl]
  have h2 : ∀ h ∈ t.haz, (h.loc == l && (h.op != 0 || decide (t.pos < h.upto)) && (h.loc != loc)) =
      (h.loc == l && (h.op != 0 || decide (t.pos < h.upto))) := by
    intro h _
    by_cases e : h.loc = l
    · simp [e, hl]
    · simp [e]
  rw [olds_eq, olds_eq]
  simp only [List.filter_append, List.filter_eq_nil_iff.mpr h1, List.nil_append, List.filter_filter]
  exact List.filter_congr h2

/-- Older values of another place do not change when one is remembered. -/
theorem pushHaz_only (t : Team) (loc : Loc) (old : Nat) (lbl : Lbl) (lat : Nat) :
    ∃ hz, t.pushHaz loc old lbl lat = { t with haz := hz } ∧ ∀ l, l ≠ loc → ({ t with haz := hz } : Team).olds l = t.olds l := by
  simp only [Team.pushHaz]
  split
  · exact ⟨_, rfl, olds_apart t loc [] (fun _ h => nomatch h)⟩
  · refine ⟨_, rfl, olds_apart t loc _ fun h hh => ?_⟩
    rcases List.mem_cons.mp hh with rfl | hh
    · rfl
    · obtain ⟨x, hx, rfl⟩ := List.mem_map.mp hh
      have : x.loc = loc := by simpa using (List.mem_filter.mp hx).2
      split <;> exact this

theorem clobber_only (t : Team) (loc : Loc) :
    ∃ os, t.clobber loc = { t with ops := os } ∧ os.map (fun o => ({ o with clob := [], dirty := false } : Op)) =
      t.ops.map (fun o => ({ o with clob := [], dirty := false } : Op)) := by
  unfold Team.clobber
  split
  · exact ⟨t.ops, rfl, rfl⟩
  · refine ⟨_, rfl, ?_⟩
    rw [List.map_map]
    apply List.map_congr_left
    intro o _
    simp only [Function.comp]
    split <;> rfl

/-! ### Register writes -/

/-- Writing a scalar register changes that register, older values of its place, and marks of R32: nothing else. -/
theorem sset_only (t : Team) (s : Nat) (x : SVal) (lat : Nat) :
    ∃ hz os, t.sset s x lat = { t with haz := hz, ops := os, regs := { t.regs with s := if s = 63 then t.regs.s else mset {} t.regs.s s x } } ∧
      (∀ l, l ≠ .s s → ({ t with haz := hz } : Team).olds l = t.olds l) ∧
      os.map (fun o => ({ o with clob := [], dirty := false } : Op)) = t.ops.map (fun o => ({ o with clob := [], dirty := false } : Op)) := by
  simp only [Team.sset]
  split
  · exact ⟨t.haz, t.ops, rfl, fun _ _ => rfl, rfl⟩
  · obtain ⟨hz, h1, h2⟩ := pushHaz_only t (.s s) (mget {} t.regs.s s).val.toNat (mget {} t.regs.s s).lbl lat
    rw [h1]
    obtain ⟨os, h3, h4⟩ := clobber_only { t with haz := hz } (.s s)
    rw [h3]
    exact ⟨hz, os, rfl, h2, h4⟩

/-- The same for a mask, whose lanes at or beyond the team width read 0 (R12). -/
theorem kset_only (t : Team) (k : Nat) (m : Mask) (lat : Nat) :
    ∃ hz os, t.kset k m lat = { t with haz := hz, ops := os, regs := { t.regs with k := mset 0 t.regs.k k (m &&& allLanes t.lanes) } } ∧
      (∀ l, l ≠ .k k → ({ t with haz := hz } : Team).olds l = t.olds l) ∧
      os.map (fun o => ({ o with clob := [], dirty := false } : Op)) = t.ops.map (fun o => ({ o with clob := [], dirty := false } : Op)) := by
  simp only [Team.kset]
  obtain ⟨hz, h1, h2⟩ := pushHaz_only t (.k k) (mget 0 t.regs.k k).toNat 0 lat
  rw [h1]
  obtain ⟨os, h3, h4⟩ := clobber_only { t with haz := hz } (.k k)
  rw [h3]
  exact ⟨hz, os, rfl, h2, h4⟩

/-- The same for the condition codes. -/
theorem ccset_only (t : Team) (c : CC) (lat : Nat) :
    ∃ hz, t.ccset c lat = { t with haz := hz, regs := { t.regs with cc := c } } ∧ ∀ l, l ≠ .cc → ({ t with haz := hz } : Team).olds l = t.olds l := by
  simp only [Team.ccset]
  obtain ⟨hz, h1, h2⟩ := pushHaz_only t .cc t.regs.cc.toN 0 lat
  rw [h1]
  exact ⟨hz, rfl, h2⟩

/-! ### The next position -/

theorem purge_only (t : Team) : ∃ hz, t.purge = { t with haz := hz } := by
  unfold Team.purge
  split
  · exact ⟨t.haz, rfl⟩
  · exact ⟨_, rfl⟩

theorem goto_only (t : Team) (a : Dword) (n : Nat) : ∃ hz, t.goto a n = { t with pc := a, pos := t.pos + n, hints := [], met := false, haz := hz } := by
  obtain ⟨hz, h⟩ := purge_only ({ t with pc := a, pos := t.pos + n, hints := [], met := false } : Team)
  exact ⟨hz, by unfold Team.goto; rw [h]⟩

/-- Whether single stepping is on depends on DBGCTL, HANDLING and the older values of DBGCTL alone. -/
theorem stepping_congr {d d' : Dev} (h1 : d'.free = d.free) (h2 : d'.cur.sp = d.cur.sp) (h3 : d'.cur.olds (.spec 0x20) = d.cur.olds (.spec 0x20)) :
    stepping d' = stepping d := by
  unfold stepping specRead
  rw [h1, h2, h3]

/-- Without single stepping a finished position is the next word. -/
theorem finishN_only (fw : Fw) (n : Nat) (d : Dev) (h : stepping d = false) :
    ∃ hz, finishN fw n d = { d with cur := { d.cur with pc := d.cur.pc + 4, pos := d.cur.pos + n, hints := [], met := false, haz := hz } } := by
  obtain ⟨hz, e⟩ := goto_only d.cur (d.cur.pc + 4) n
  exact ⟨hz, by unfold finishN stepTrap; rw [h]; exact congrArg (fun t => ({ d with cur := t } : Dev)) e⟩

theorem jumpTo_only (fw : Fw) (a : Dword) (d : Dev) (h : stepping d = false) :
    ∃ hz, jumpTo fw a d = { d with causes := 6 :: d.causes, cur := { d.cur with pc := a, pos := d.cur.pos + 1, hints := [], met := false, haz := hz, runOpen := false } } := by
  obtain ⟨hz, e⟩ := goto_only d.cur.endRun a 1
  exact ⟨hz, by unfold jumpTo stepTrap; rw [h]; exact congrArg (fun t => ({ d.mayStall 6 with cur := t } : Dev)) e⟩

theorem release_only (fw : Fw) (a : Dword) (d : Dev) (h : stepping d = false) :
    ∃ hz, release fw a d = { d with cur := { d.cur with wait := .ready, pc := a, pos := d.cur.pos + 1, hints := [], met := false, haz := hz } } := by
  obtain ⟨hz, e⟩ := goto_only ({ d.cur with wait := .ready } : Team) a 1
  exact ⟨hz, by unfold release stepTrap; rw [h]; exact congrArg (fun t => ({ d with cur := t } : Dev)) e⟩

/-- A legal word that reads no register in error is its own effect, single stepping being off. -/
theorem word_plain (i : Instr) (s : State) (f : Fw → Dev → Dev) (h : hintsOk s.dev.cur i = true) (h2 : declOk s.dev.cur i = true)
    (h3 : s.dev.cur.badV = []) (h4 : stepping s.dev = false) : word i s f = .next { s with dev := f s.fw s.dev } := by
  simp [word, h, h2, guardRegs, h3, noteStep, h4]

/-- An acquire raises the bounds of its team at its scope and drops L1 lines; it changes no register, byte, frame or table. -/
theorem acquire_only (d : Dev) (sc : Scope) :
    (acquire d sc).cur = { d.cur with bound := d.cur.bound.raise (d.cur.scope sc) d.wn } ∧ (acquire d sc).mem = d.mem := by
  have h : ∀ (cs : List Nat) (d : Dev), (cs.foldl dropL1 d).cur = d.cur ∧ (cs.foldl dropL1 d).mem = d.mem := by
    intro cs
    induction cs with
    | nil => exact fun _ => ⟨rfl, rfl⟩
    | cons c cs ih => exact fun d => by simpa using ih (dropL1 d c)
  unfold acquire
  dsimp only
  split
  · exact ⟨rfl, rfl⟩
  · exact ⟨by simp [Dev.upd, (h d.cur.cores d).1], by simp [Dev.upd, (h d.cur.cores d).2]⟩

end Sys2Proof.Machine
end

