-- ==== Sys2Proof/Laws/Records.lean ====
section
/-! SUPPORT. Writes by agents and records posted to queues change memory with its errors, the cores' older bytes, page sets and sequence
numbers; every other part of the machine is as before. -/
namespace Sys2Proof.Machine

/-- The machine without memory with its older values, the cores' caches, page sets and sequence numbers. -/
def Dev.still (d : Dev) : Dev :=
  { d with mem := [], wn := 0, hist := [], badU := [], cores := [], frames := [], evn := [] }

theorem Dev.still_cur {d d' : Dev} (h : d'.still = d.still) : d'.cur = d.cur := by have := congrArg Dev.cur h; exact this
theorem Dev.still_rest {d d' : Dev} (h : d'.still = d.still) : d'.rest = d.rest := by have := congrArg Dev.rest h; exact this
theorem Dev.still_time {d d' : Dev} (h : d'.still = d.still) : d'.time = d.time := by have := congrArg Dev.time h; exact this
theorem Dev.still_launches {d d' : Dev} (h : d'.still = d.still) : d'.launches = d.launches := by have := congrArg Dev.launches h; exact this
theorem Dev.still_graphs {d d' : Dev} (h : d'.still = d.still) : d'.graphs = d.graphs := by have := congrArg Dev.graphs h; exact this
theorem Dev.still_windows {d d' : Dev} (h : d'.still = d.still) : d'.windows = d.windows := by have := congrArg Dev.windows h; exact this
theorem Dev.still_cmds {d d' : Dev} (h : d'.still = d.still) : d'.cmds = d.cmds := by have := congrArg Dev.cmds h; exact this
theorem Dev.still_msix {d d' : Dev} (h : d'.still = d.still) : d'.msix = d.msix := by have := congrArg Dev.msix h; exact this
theorem Dev.still_list {d d' : Dev} (h : d'.still = d.still) : d'.list = d.list := by have := congrArg Dev.list h; exact this

@[simp] theorem putByte_still (self : Writer) (d : Dev) (pa : Nat) (b : Byte) : (putByte self d pa b).still = d.still := by
  unfold putByte; dsimp only; split <;> rfl

@[simp] theorem putBytes_still (self : Writer) (bs : List Byte) (d : Dev) (pa : Nat) : (putBytes self d pa bs).still = d.still := by
  induction bs generalizing d pa with
  | nil => rfl
  | cons b r ih => rw [putBytes, ih, putByte_still]

@[simp] theorem nextWrite_still (d : Dev) : (nextWrite d).still = d.still := rfl

/-- A list of writes that are each still is still. -/
theorem foldl_still {β : Type} (f : Dev → β → Dev) (l : List β) (d : Dev) (h : ∀ d b, (f d b).still = d.still) : (l.foldl f d).still = d.still :=
  foldl_keeps (fun x : Dev => x.still = d.still) f l d rfl fun x b hx => (h x b).trans hx

@[simp] theorem devSetBytes_still (self : Writer) (bs : List Byte) (d : Dev) (pa : Nat) : (devSetBytes self d pa bs).still = d.still := by
  unfold devSetBytes; simp

@[simp] theorem clearUnits_still (d : Dev) (pa n : Nat) : (clearUnits d pa n).still = d.still := by unfold clearUnits; split <;> rfl
@[simp] theorem devSetNat_still (self : Writer) (d : Dev) (pa n v : Nat) : (devSetNat self d pa n v).still = d.still := by simp [devSetNat]

@[simp] theorem rangeWrite_still (self : Writer) (d : Dev) (l : List (Dword × TlbEnt)) (va : Nat) (bs : List Byte) :
    (rangeWrite self d l va bs).still = d.still := by
  unfold rangeWrite
  dsimp only
  generalize hx : List.foldl _ (nextWrite d) _ = x
  have h1 : x.still = d.still := by
    rw [← hx]
    refine foldl_still _ _ _ fun d p => ?_
    split <;> simp
  split
  · exact h1
  · exact (foldl_still _ _ _ fun _ _ => clearUnits_still ..).trans h1

@[simp] theorem raiseCur_still (d : Dev) (e : Nat) (s : OSet) : (raiseCur d e s).still = d.still := by unfold raiseCur; split <;> rfl
@[simp] theorem rangeRaise_still (d : Dev) (l : List (Dword × TlbEnt)) (s : OSet) : (rangeRaise d l s).still = d.still :=
  foldl_still _ _ _ fun _ _ => raiseCur_still ..

/-- A write of a partition's memory (R152, R161). -/
theorem fwWriteBy_still {self : Writer} {fw : Fw} {d d' : Dev} {part : Nat} {va : Dword} {bs : List Byte} {s : OSet}
    (h : fwWriteBy self fw d part va bs s = some d') : d'.still = d.still := by
  unfold fwWriteBy at h
  split at h
  · obtain rfl := Option.some.inj h
    simp
  · exact nomatch h

theorem fwWrite_still {fw : Fw} {d d' : Dev} {part : Nat} {va : Dword} {bs : List Byte} {s : OSet} (h : fwWrite fw d part va bs s = some d') :
    d'.still = d.still := fwWriteBy_still h

@[simp] theorem newSeq_still (d : Dev) (u : Nat) : (newSeq d u).2.still = d.still := rfl

/-- A record posted to a queue (R161). -/
theorem ringPost_still {self : Writer} {fw : Fw} {d d' : Dev} {part : Nat} {desc : Dword} {bs : List Byte} {s : OSet}
    (h : ringPost self fw d part desc bs s = some d') : d'.still = d.still := by
  unfold ringPost at h
  split at h
  · exact nomatch h
  · split at h
    · exact nomatch h
    · split at h
      · exact nomatch h
      · next e => exact (fwWriteBy_still h).trans (fwWriteBy_still e)

/-- A fault record, posted or counted as lost (R161, R225). -/
@[simp] theorem postFault_still (fw : Fw) (d : Dev) (part unit kind cause launch team addr i0 i1 : Nat) (org : OSet) :
    (postFault fw d part unit kind cause launch team addr i0 i1 org).still = d.still := by
  unfold postFault
  have hn : (newSeq d unit).2.still = d.still := rfl
  generalize newSeq d unit = n at hn
  obtain ⟨seq, d1⟩ := n
  dsimp only
  generalize packBytes 64 _ = bs
  split
  · rename_i h; exact (ringPost_still h).trans hn
  · split
    · exact hn
    · split
      · exact hn
      · split
        · rename_i h; exact (fwWrite_still h).trans hn
        · exact hn

@[simp] theorem teamFault_still (fw : Fw) (d : Dev) (unit kind cause addr i0 i1 : Nat) (org : OSet) :
    (teamFault fw d unit kind cause addr i0 i1 org).still = d.still := postFault_still ..

end Sys2Proof.Machine
end

