-- ==== Sys2Proof/Laws/Trap.lean ====
section
/-! SUPPORT. Taking an exception and returning from one, each said once (R222, R223). -/
namespace Sys2Proof.Machine
open Sys2Proof.Safety

/-- Errors noted for tokens change TSTAT alone. -/
theorem qerrs_only (os : List Op) (t : Team) :
    ∃ st, os.foldl (fun t o => match o.q with | some q => if o.err then t.qerr q else t | none => t) t = { t with sp := { t.sp with tstat := st } } := by
  induction os generalizing t with
  | nil => exact ⟨t.sp.tstat, rfl⟩
  | cons o r ih =>
    obtain ⟨st, h⟩ : ∃ st, (match o.q with | some q => if o.err then t.qerr q else t | none => t) = { t with sp := { t.sp with tstat := st } } := by
      split
      · split
        · exact ⟨_, rfl⟩
        · exact ⟨t.sp.tstat, rfl⟩
      · exact ⟨t.sp.tstat, rfl⟩
    obtain ⟨st', h'⟩ := ih { t with sp := { t.sp with tstat := st } }
    exact ⟨st', by rw [List.foldl_cons, h, h']⟩

/-- What has finished leaves, and nothing but TSTAT changes beside. -/
theorem leaveDone_only (t : Team) :
    ∃ st, t.leaveDone = { t with ops := t.ops.filter (fun o => !o.done), sp := { t.sp with tstat := st } } := by
  obtain ⟨st, h⟩ := qerrs_only (t.ops.filter fun o => o.done) t
  exact ⟨st, congrArg (fun t1 : Team => { t1 with ops := t1.ops.filter fun o => !o.done }) h⟩

theorem mget_three (m : SMap Mask) (a b c : Mask) (r : Nat) :
    mget 0 (mset 0 (mset 0 (mset 0 m 15 a) 14 b) 0 c) r = if r = 0 then c else if r = 14 then b else if r = 15 then a else mget 0 m r := by
  simp only [mget_mset]

/-- What is still leaves an ended team ended. -/
theorem ended_still {s : State} {x : TrapInfo} {d d' : Dev} (h : d'.still = d.still) (e : Ended s { s with dev := d } x) : Ended s { s with dev := d' } x :=
  have hc : d'.cur = d.cur := Dev.still_cur h
  { wait := (congrArg Team.wait hc).trans e.wait
    cause := (congrArg (fun c : Team => c.sp.tcause) hc).trans e.cause
    tpc := (congrArg (fun c : Team => c.sp.tpc) hc).trans e.tpc
    info0 := (congrArg (fun c : Team => c.sp.tinfo0) hc).trans e.info0
    info1 := (congrArg (fun c : Team => c.sp.tinfo1) hc).trans e.info1
    scalars := fun r => (congrArg (fun c : Team => mget ({} : SVal) c.regs.s r) hc).trans (e.scalars r)
    lanes := fun r l => (congrArg (fun c : Team => c.regs.lane r l) hc).trans (e.lanes r l)
    codes := (congrArg (fun c : Team => c.regs.cc) hc).trans e.codes
    tiles := (congrArg (fun c : Team => c.regs.tiles) hc).trans e.tiles
    scratch := (congrArg (fun c : Team => c.regs.scr) hc).trans e.scratch
    others := (Dev.still_rest h).trans e.others }

/-- A team leaves the point at which its save drains: nothing but the save changes. -/
theorem leavePoint_only (t : Team) : ∃ w, t.leavePoint = { t with save := w } := by
  unfold Team.leavePoint
  split
  · exact ⟨_, rfl⟩
  · exact ⟨t.save, rfl⟩

/-- Entering a trap: by a team with a handler every saved register is written and the handler runs next; a team without one ends. -/
theorem enterTrap_does (s : State) (x : TrapInfo) (d : Dev) (os : List Op) (w : Wait) (b b' : Bool) (sv : Option SaveWant)
    (hd : d = { s.dev with cur := { s.dev.cur with ops := os, wait := w, runOpen := b, met := b', save := sv } }) :
    if s.dev.cur.decl.handler = 0 then Ended s { s with dev := enterTrap s.fw d x } x
    else Untouched s { s with dev := enterTrap s.fw d x } ∧ Trapped s { s with dev := enterTrap s.fw d x } x := by
  subst hd
  obtain ⟨st, hl⟩ := leaveDone_only { s.dev.cur with ops := os, wait := w, runOpen := b, met := b', save := sv }
  unfold enterTrap
  simp only [hl]
  split
  · exact ended_still (teamFault_still ..) ⟨rfl, rfl, rfl, rfl, rfl, fun _ => rfl, fun _ _ => rfl, rfl, rfl, rfl, rfl⟩
  · refine ⟨⟨fun _ => rfl, fun _ _ => rfl, rfl, rfl, rfl, rfl, fun _ => rfl, rfl, rfl⟩,
      ⟨rfl, rfl, rfl, rfl, rfl, ?_, ?_, ?_, fun r h0 h14 h15 => ?_, ⟨rfl, rfl, rfl⟩⟩⟩
    · exact (mget_three _ _ _ _ 0).trans rfl
    · exact (mget_three _ _ _ _ 14).trans rfl
    · exact (mget_three _ _ _ _ 15).trans rfl
    · exact (mget_three _ _ _ _ r).trans (by simp only [h0, h14, h15, if_false]; rfl)

/-- Raising a trap (R222): entered at once when nothing has to drain, else after the drain. -/
theorem raiseTrap_takes (s : State) (x : TrapInfo) (h : ∀ w, s.dev.cur.wait ≠ .trap w) : TakesTrap s { s with dev := raiseTrap s.fw s.dev x } x := by
  obtain ⟨sv, hl⟩ := leavePoint_only s.dev.cur
  let t1 : Team := { s.dev.cur with ops := s.dev.cur.ops.map suspendOp, wait := .trap x, runOpen := false, met := false, save := sv }
  have hr : raiseTrap s.fw s.dev x = (if t1.drained then enterTrap s.fw { s.dev with cur := t1 } x else { s.dev with cur := t1 }) := by
    unfold raiseTrap
    split
    · rename_i w hw; exact absurd hw (h w)
    · simp only [Dev.upd, hl, t1]
  unfold TakesTrap
  have hn : nothingToDrain s = t1.drained := rfl
  rw [hr, hn]
  split
  · exact enterTrap_does s x _ _ _ _ _ sv rfl
  · exact ⟨⟨fun _ => rfl, fun _ _ => rfl, rfl, rfl, rfl, rfl, fun _ => rfl, rfl, rfl⟩, ⟨rfl, rfl, rfl, fun _ => rfl, rfl⟩⟩

/-- A trap at issue (R220). -/
theorem trapIssue_takes (s : State) (cause : Nat) (k14 : Mask) (ti0 ti1 : Nat) (h : ∀ w, s.dev.cur.wait ≠ .trap w) :
    TakesTrap s { s with dev := trapIssue s.fw s.dev cause k14 ti0 ti1 }
      (atIssue s (BitVec.ofNat 8 cause) k14 (BitVec.ofNat 64 ti0) (BitVec.ofNat 64 ti1)) := raiseTrap_takes s _ h

/-- Returning from a trap (R223): k0 takes k15, HANDLING goes, the streams resume, the run ends, and the team goes on at TPC. -/
theorem returnTrap_does (s : State) (a : Dword) (k : Mask) (t : State) (ht : t = { s with dev := returnTrap s.dev a k }) :
    t.dev.cur.pc = a ∧ t.dev.cur.hints = [] ∧ t.dev.cur.wait = s.dev.cur.wait ∧ mask t 0 = k ∧ (∀ r, r ≠ 0 → mask t r = mask s r) ∧
      t.dev.cur.sp = { s.dev.cur.sp with handling := false } ∧ t.dev.cur.ops = s.dev.cur.ops.map resumeOp ∧ t.dev.cur.runOpen = false ∧ Untouched s t := by
  subst ht
  refine ⟨rfl, rfl, rfl, ?_, fun r h => ?_, rfl, rfl, rfl, ⟨fun _ => rfl, fun _ _ => rfl, rfl, rfl, rfl, rfl, fun _ => rfl, rfl, rfl⟩⟩
  · simp [mask, returnTrap]
  · simp [mask, returnTrap, mget_mset, h]

end Sys2Proof.Machine
end

