-- ==== Sys2Proof/Laws/Words.lean ====
section
/-! SUPPORT. What the frames of register words do: a scalar result, a mask result, a transfer, each said once in the terms of the claims. -/
namespace Sys2Proof.Machine
open Sys2Proof.Safety

/-- Operations that differ in marks of R32 alone are the same operations. -/
theorem sameOps_of_marks {os os' : List Op} (h : os.map (fun o => ({ o with clob := [], dirty := false } : Op)) = os'.map (fun o => ({ o with clob := [], dirty := false } : Op))) :
    sameOps os os' := by
  have e := congrArg (List.map fun o : Op => ({ o with seq := 0 } : Op)) h
  rw [List.map_map, List.map_map] at e
  exact e

/-- A register write followed by the next position: pc, position, hint group, older values and marks of R32 apart, the team with other registers. -/
structure Moved (d d' : Dev) (pc : Dword) (n : Nat) (r : Regs) : Prop where
  team : ∃ hz os b, d' = { d with cur := { d.cur with pc := pc, pos := d.cur.pos + n, hints := [], met := false, haz := hz, ops := os, runOpen := b, regs := r } } ∧
    os.map opCore = d.cur.ops.map opCore ∧ (b = d.cur.runOpen ∨ b = false)

/-- Single stepping stays off while DBGCTL, HANDLING and the older values of DBGCTL stay. -/
theorem stepping_of {d : Dev} {t : Team} (hs : stepping d = false) (h2 : t.sp = d.cur.sp) (h3 : t.olds (.spec 0x20) = d.cur.olds (.spec 0x20)) :
    stepping { d with cur := t } = false := (stepping_congr (d := d) (d' := { d with cur := t }) rfl h2 h3).trans hs

/-- A scalar result (R246), once its set has an index. -/
theorem putScalar_only (fw : Fw) (d : Dev) (sd : Nat) (v : Dword) (set : OSet) (lat : Nat) (k : Dev → Dev)
    (hl : sd = 63 ∨ (allocLabel d.cur.regs.labels set).isSome = true) :
    ∃ hz os ls sm, putScalar fw d sd v set lat k = k { d with cur := { d.cur with haz := hz, ops := os, regs := { d.cur.regs with labels := ls, s := sm } } } ∧
      os.map opCore = d.cur.ops.map opCore ∧ (∀ l, l ≠ .s sd → ({ d.cur with haz := hz } : Team).olds l = d.cur.olds l) ∧
      (sd = 63 → ls = d.cur.regs.labels ∧ sm = d.cur.regs.s) ∧
      (sd ≠ 63 → ∃ i, allocLabel d.cur.regs.labels set = some (i, ls) ∧ sm = mset {} d.cur.regs.s sd { val := v, lbl := i }) := by
  unfold putScalar
  by_cases h : sd = 63
  · rw [if_pos h]
    exact ⟨d.cur.haz, d.cur.ops, d.cur.regs.labels, d.cur.regs.s, rfl, rfl, fun _ _ => rfl, fun _ => ⟨rfl, rfl⟩, fun h' => absurd h h'⟩
  · rw [if_neg h]
    obtain ⟨⟨i, ls⟩, ha⟩ := Option.isSome_iff_exists.mp (hl.resolve_left h)
    rw [ha]
    dsimp only
    obtain ⟨hz, os, e, ho, hos⟩ := sset_only ({ d.cur with regs := { d.cur.regs with labels := ls } } : Team) sd { val := v, lbl := i } lat
    refine ⟨hz, os, ls, mset {} d.cur.regs.s sd { val := v, lbl := i }, ?_, sameOps_of_marks hos, ho, fun h' => absurd h' h, fun _ => ⟨i, rfl, rfl⟩⟩
    rw [if_neg h] at e
    exact congrArg (fun t => k { d with cur := t }) e

/-- A scalar operation with its flags (R250, R251). -/
theorem scalarOp_moved (fw : Fw) (d : Dev) (f : Bool) (sd : Nat) (set : OSet) (r : Dword) (cc : CC) (hs : stepping d = false)
    (hl : sd = 63 ∨ (allocLabel d.cur.regs.labels set).isSome = true) :
    ∃ ls sm, Moved d (scalarOp fw d f sd set r cc) (d.cur.pc + 4) 1 { d.cur.regs with labels := ls, s := sm, cc := if f then cc else d.cur.regs.cc } ∧
      (sd = 63 → ls = d.cur.regs.labels ∧ sm = d.cur.regs.s) ∧
      (sd ≠ 63 → ∃ i, allocLabel d.cur.regs.labels set = some (i, ls) ∧ sm = mset {} d.cur.regs.s sd { val := r, lbl := i }) := by
  obtain ⟨hz, os, ls, sm, e, hos, ho, h1, h2⟩ := putScalar_only fw d sd r set 1 (fun d1 => finish fw (if f then d1.upd fun t => t.ccset cc 1 else d1)) hl
  refine ⟨ls, sm, ?_, h1, h2⟩
  unfold scalarOp
  rw [e]
  cases f
  · obtain ⟨hz', e'⟩ := finishN_only fw 1 { d with cur := { d.cur with haz := hz, ops := os, regs := { d.cur.regs with labels := ls, s := sm } } }
      (stepping_of hs rfl (ho (.spec 0x20) (by simp)))
    exact ⟨hz', os, d.cur.runOpen, e', hos, .inl rfl⟩
  · obtain ⟨hc, ec, hco⟩ := ccset_only ({ d.cur with haz := hz, ops := os, regs := { d.cur.regs with labels := ls, s := sm } } : Team) cc 1
    obtain ⟨hz', e'⟩ := finishN_only fw 1 { d with cur := { d.cur with haz := hc, ops := os, regs := { d.cur.regs with labels := ls, s := sm, cc := cc } } }
      (stepping_of hs rfl ((hco (.spec 0x20) (by simp)).trans (ho (.spec 0x20) (by simp))))
    refine ⟨hz', os, d.cur.runOpen, ?_, hos, .inl rfl⟩
    have : (Dev.upd { d with cur := { d.cur with haz := hz, ops := os, regs := { d.cur.regs with labels := ls, s := sm } } } fun t => t.ccset cc 1) =
        { d with cur := { d.cur with haz := hc, ops := os, regs := { d.cur.regs with labels := ls, s := sm, cc := cc } } } :=
      congrArg (fun t => ({ d with cur := t } : Dev)) ec
    simp only [if_true, this]
    exact e'

/-- What a moved team keeps, when only scalars, codes and labels differ. -/
theorem Moved.kept_scalar {s : State} {d' : Dev} {pc : Dword} {n sd : Nat} {ls : SMap OSet} {sm : SMap SVal} {cc : CC}
    (h : Moved s.dev d' pc n { s.dev.cur.regs with labels := ls, s := sm, cc := cc }) (hk : ∀ r, r ≠ sd → mget {} sm r = mget {} s.dev.cur.regs.s r)
    (hr : s.dev.cur.wait = .ready) :
    At { s with dev := d' } pc .ready ∧ Safety.Kept s { s with dev := d' } [sd] [] [] [] ∧ Quiet s { s with dev := d' } cc 0 := by
  obtain ⟨⟨hz, os, b, rfl, hos, _⟩⟩ := h
  refine ⟨⟨rfl, hr, rfl⟩, ⟨fun r h => hk r (by simpa using h), fun _ _ _ _ => rfl, fun _ _ => rfl, rfl, rfl, rfl, rfl, rfl, rfl, fun _ => rfl, rfl, rfl,
    ⟨rfl, rfl, rfl, rfl, rfl⟩⟩, ⟨rfl, by simp, hos, rfl⟩⟩

/-- A scalar operation in the terms of the claims (R246, R250, R251). -/
theorem scalarOp_gives (s : State) (f : Bool) (sd : Nat) (set : OSet) (r : Dword) (cc : CC) (hs : stepping s.dev = false) (hw : s.dev.cur.wait = .ready)
    (hl : sd = 63 ∨ (allocLabel s.dev.cur.regs.labels set).isSome = true) :
    let t : State := { s with dev := scalarOp s.fw s.dev f sd set r cc }
    PutScalar s t sd r set ∧ At t (s.dev.cur.pc + 4) .ready ∧ Safety.Kept s t [sd] [] [] [] ∧ Quiet s t (if f then cc else s.dev.cur.regs.cc) 0 := by
  intro t
  obtain ⟨ls, sm, hm, h1, h2⟩ := scalarOp_moved s.fw s.dev f sd set r cc hs hl
  have hk : ∀ q, q ≠ sd → mget {} sm q = mget {} s.dev.cur.regs.s q := by
    intro q hq
    by_cases h : sd = 63
    · rw [(h1 h).2]
    · obtain ⟨i, _, e⟩ := h2 h
      rw [e, mget_mset, if_neg hq]
  refine ⟨?_, hm.kept_scalar hk hw⟩
  obtain ⟨⟨hz, os, b, e, _, _⟩⟩ := hm
  have ht : t = { s with dev := _ } := congrArg (fun d => ({ s with dev := d } : State)) e
  rw [ht]
  refine ⟨fun h => ?_, fun h => ⟨?_, (h1 h).1⟩⟩
  · obtain ⟨i, ha, e⟩ := h2 h
    refine ⟨i, ls, ha, ?_, rfl⟩
    simp only [scalar, e, mget_mset, if_true]
  · simp only [scalar, (h1 h).2]

/-- A mask result (R12, R264). -/
theorem maskResult_gives (s : State) (kd : Nat) (m : Mask) (hs : stepping s.dev = false) (hw : s.dev.cur.wait = .ready) :
    let t : State := { s with dev := finish s.fw (s.dev.upd fun t => t.kset kd m 1) }
    mask t kd = m &&& allLanes s.dev.cur.lanes ∧ At t (s.dev.cur.pc + 4) .ready ∧ Safety.Kept s t [] [] [kd] [] ∧ Quiet s t s.dev.cur.regs.cc 0 := by
  intro t
  obtain ⟨hz, os, e, ho, hos⟩ := kset_only s.dev.cur kd m 1
  obtain ⟨hz', e'⟩ := finishN_only s.fw 1 (s.dev.upd fun t => t.kset kd m 1) (stepping_of hs (by simp only [e]) ((congrArg (fun t : Team => t.olds (.spec 0x20)) e).trans (ho (.spec 0x20) (by simp))))
  have ht : t = { s with dev := _ } := congrArg (fun d => ({ s with dev := d } : State)) e'
  rw [ht]
  simp only [Dev.upd, e]
  refine ⟨?_, ⟨rfl, hw, rfl⟩, ⟨fun _ _ => rfl, fun _ _ _ _ => rfl, fun r h => ?_, rfl, rfl, rfl, rfl, rfl, rfl, fun _ => rfl, rfl, rfl,
    ⟨rfl, rfl, rfl, rfl, rfl⟩⟩, ⟨rfl, by simp, sameOps_of_marks hos, rfl⟩⟩
  · simp only [mask, mget_mset, if_true]
  · simp only [mask, mget_mset, if_neg (show r ≠ kd by simpa using h)]

/-- A taken transfer (R21, R27, R248). -/
theorem jumpTo_gives (s : State) (a : Dword) (hs : stepping s.dev = false) (hw : s.dev.cur.wait = .ready) :
    let t : State := { s with dev := jumpTo s.fw a s.dev }
    At t a .ready ∧ Safety.Kept s t [] [] [] [] ∧ Quiet s t s.dev.cur.regs.cc 0 ∧ t.dev.cur.runOpen = false ∧ t.dev.cur.regs.labels = s.dev.cur.regs.labels := by
  intro t
  obtain ⟨hz, e⟩ := jumpTo_only s.fw a s.dev hs
  have ht : t = { s with dev := _ } := congrArg (fun d => ({ s with dev := d } : State)) e
  rw [ht]
  exact ⟨⟨rfl, hw, rfl⟩, ⟨fun _ _ => rfl, fun _ _ _ _ => rfl, fun _ _ => rfl, rfl, rfl, rfl, rfl, rfl, rfl, fun _ => rfl, rfl, rfl,
    ⟨rfl, rfl, rfl, rfl, rfl⟩⟩, ⟨rfl, by simp, rfl, rfl⟩, rfl, rfl⟩

/-- A position that changes nothing but the position (R21). -/
theorem finish_gives (s : State) (hs : stepping s.dev = false) (hw : s.dev.cur.wait = .ready) :
    let t : State := { s with dev := finish s.fw s.dev }
    At t (s.dev.cur.pc + 4) .ready ∧ Safety.Kept s t [] [] [] [] ∧ Quiet s t s.dev.cur.regs.cc 0 ∧ t.dev.cur.runOpen = s.dev.cur.runOpen ∧
      t.dev.cur.regs.labels = s.dev.cur.regs.labels := by
  intro t
  obtain ⟨hz, e⟩ := finishN_only s.fw 1 s.dev hs
  have ht : t = { s with dev := _ } := congrArg (fun d => ({ s with dev := d } : State)) e
  rw [ht]
  exact ⟨⟨rfl, hw, rfl⟩, ⟨fun _ _ => rfl, fun _ _ _ _ => rfl, fun _ _ => rfl, rfl, rfl, rfl, rfl, rfl, rfl, fun _ => rfl, rfl, rfl,
    ⟨rfl, rfl, rfl, rfl, rfl⟩⟩, ⟨rfl, by simp, rfl, rfl⟩, rfl, rfl⟩

/-- A word that runs plainly is its own effect (R243). -/
theorem plain_word {i : Instr} {s : State} (f : Fw → Dev → Dev) (h : Plain i s) : word i s f = .next { s with dev := f s.fw s.dev } :=
  word_plain i s f h.hints h.decl h.sound h.running

end Sys2Proof.Machine
end

