-- ==== Sys2Proof/Laws/Vector.lean ====
section
/-! SUPPORT. What the frame of a vector result does (R245): the registers, the latches, the labels, and nothing else. -/
namespace Sys2Proof.Machine
open Sys2Proof.Safety

theorem upFrom_sorted (n k : Nat) : (upFrom n k).Pairwise (· < ·) ∧ ∀ x ∈ upFrom n k, n ≤ x ∧ x < n + k := by
  induction k generalizing n with
  | zero => exact ⟨List.Pairwise.nil, fun _ h => nomatch h⟩
  | succ k ih =>
    obtain ⟨h1, h2⟩ := ih (n + 1)
    refine ⟨List.pairwise_cons.mpr ⟨fun x hx => ?_, h1⟩, fun x hx => ?_⟩
    · have := h2 x hx; omega
    · rcases List.mem_cons.mp hx with rfl | hx
      · omega
      · have := h2 x hx; omega

/-- Active lanes come once each, and lie below the team width (R13). -/
theorem act_nodup (d : Dev) : d.act.Nodup ∧ ∀ l ∈ d.act, l < d.cur.lanes ∧ l < 1024 := by
  unfold Dev.act maskLanes
  obtain ⟨h1, h2⟩ := upFrom_sorted 0 d.cur.lanes
  exact ⟨(h1.imp (fun h => Nat.ne_of_lt h)).filter _, fun l h => ⟨by have := h2 l (List.mem_filter.mp h).1; omega,
    BitVec.lt_of_getLsbD (List.mem_filter.mp h).2⟩⟩

/-- Allocation that finds an index for every lane gives the lanes in their order (R75). -/
theorem allocLanes_lanes (ls : SMap OSet) (rs : List (Nat × OSet)) (h : (allocLanes ls rs).2.2.1 = []) : (allocLanes ls rs).1.map (·.1) = rs.map (·.1) := by
  induction rs generalizing ls with
  | nil => rfl
  | cons r rest ih =>
    obtain ⟨l, s⟩ := r
    unfold allocLanes at h ⊢
    cases hs : allocLabel ls s with
    | none => rw [hs] at h; exact absurd h (by simp)
    | some x =>
      obtain ⟨i, ls'⟩ := x
      rw [hs] at h
      simp only at h ⊢
      rw [List.map_cons, ih ls' h, List.map_cons]

/-- Writing a vector register lane changes that lane, older values of its place, marks of R32 and its error: nothing else (R65, R105). -/
theorem vset_only (t : Team) (v l : Nat) (x : LVal) (lat : Nat) :
    ∃ hz os bv, t.vset v l x lat = { t with haz := hz, ops := os, badV := bv, regs := { t.regs with v := if 124 ≤ v then t.regs.v else mset {} t.regs.v (1024 * v + l) x } } ∧
      (∀ p, p ≠ .v v l → ({ t with haz := hz } : Team).olds p = t.olds p) ∧ os.map opCore = t.ops.map opCore := by
  unfold Team.vset
  by_cases h : 124 ≤ v
  · rw [if_pos h]
    exact ⟨t.haz, t.ops, t.badV, by rw [if_pos h], fun _ _ => rfl, rfl⟩
  · rw [if_neg h]
    obtain ⟨hz, h1, h2⟩ := pushHaz_only t (.v v l) (t.regs.lane v l).val.toNat (t.regs.lane v l).lbl lat
    obtain ⟨os, h3, h4⟩ := clobber_only { t with haz := hz } (.v v l)
    have he : (t.pushHaz (.v v l) (t.regs.lane v l).val.toNat (t.regs.lane v l).lbl lat).clobber (.v v l) = { t with haz := hz, ops := os } := by rw [h1, h3]
    dsimp only
    rw [he]
    unfold Team.clearV
    split
    · exact ⟨hz, os, t.badV, by rw [if_neg h], h2, sameOps_of_marks h4⟩
    · exact ⟨hz, os, _, by rw [if_neg h], h2, sameOps_of_marks h4⟩

/-- The lanes of one register written in turn. -/
theorem vsets_only (vals : List (Nat × LVal)) (t : Team) (v lat : Nat) (hv : v < 124) :
    ∃ hz os bv, vals.foldl (fun t p => t.vset v p.1 p.2 lat) t =
        { t with haz := hz, ops := os, badV := bv, regs := { t.regs with v := vals.foldl (fun m p => mset {} m (1024 * v + p.1) p.2) t.regs.v } } ∧
      (∀ n, ({ t with haz := hz } : Team).olds (.spec n) = t.olds (.spec n)) ∧ os.map opCore = t.ops.map opCore := by
  induction vals generalizing t with
  | nil => exact ⟨t.haz, t.ops, t.badV, rfl, fun _ => rfl, rfl⟩
  | cons p r ih =>
    obtain ⟨hz, os, bv, e, ho, hos⟩ := vset_only t v p.1 p.2 lat
    rw [if_neg (by omega)] at e
    obtain ⟨hz', os', bv', e', ho', hos'⟩ := ih (t.vset v p.1 p.2 lat)
    rw [e] at e' ho' hos'
    refine ⟨hz', os', bv', ?_, fun n => (ho' n).trans (ho _ (by simp)), hos'.trans hos⟩
    rw [List.foldl_cons, e]
    exact e'

/-- A lane after lanes of one register were written, each once: the written lanes hold their values, every other key is as before. -/
theorem mget_lanes (vals : List (Nat × LVal)) (m : SMap LVal) (v : Nat) (hn : (vals.map (·.1)).Nodup) :
    (∀ p ∈ vals, mget {} (vals.foldl (fun m p => mset {} m (1024 * v + p.1) p.2) m) (1024 * v + p.1) = p.2) ∧
      ∀ k, (∀ p ∈ vals, k ≠ 1024 * v + p.1) → mget {} (vals.foldl (fun m p => mset {} m (1024 * v + p.1) p.2) m) k = mget {} m k := by
  induction vals generalizing m with
  | nil => exact ⟨fun _ h => (nomatch h), fun _ _ => rfl⟩
  | cons q r ih =>
    obtain ⟨h1, h2⟩ := List.nodup_cons.mp hn
    obtain ⟨i1, i2⟩ := ih (mset {} m (1024 * v + q.1) q.2) h2
    refine ⟨fun p hp => ?_, fun k hk => ?_⟩
    · rcases List.mem_cons.mp hp with rfl | hp
      · rw [List.foldl_cons, i2 _ fun w hw e => h1 (List.mem_map.mpr ⟨w, hw, by dsimp only; omega⟩), mget_mset, if_pos rfl]
      · exact i1 p hp
    · rw [List.foldl_cons, i2 k fun p hp => hk p (List.mem_cons_of_mem _ hp), mget_mset, if_neg (hk q (List.mem_cons_self ..))]

/-- A fold of writes of zipped lists lists the lanes and values. -/
theorem zip_vals (rs : List (Nat × Word × OSet)) (ix : List (Nat × Lbl)) (h : ix.map (·.1) = rs.map (·.1)) :
    ((rs.zip ix).map fun p => (p.1.1, ({ val := p.1.2.1, lbl := p.2.2 } : LVal))).map (·.1) = ix.map (·.1) ∧
      ∀ l i, (l, i) ∈ ix → ∃ v u, (l, v, u) ∈ rs ∧
        (l, ({ val := v, lbl := i } : LVal)) ∈ (rs.zip ix).map fun p => (p.1.1, ({ val := p.1.2.1, lbl := p.2.2 } : LVal)) := by
  induction rs generalizing ix with
  | nil =>
    cases ix with
    | nil => exact ⟨rfl, fun _ _ h => (nomatch h)⟩
    | cons _ _ => simp at h
  | cons r rest ih =>
    cases ix with
    | nil => simp at h
    | cons q ix =>
      simp only [List.map_cons, List.cons.injEq] at h
      obtain ⟨h1, h2⟩ := ih ix h.2
      refine ⟨?_, fun l i hm => ?_⟩
      · simp only [List.zip_cons_cons, List.map_cons, List.cons.injEq]
        exact ⟨h.1.symm, h1⟩
      · rcases List.mem_cons.mp hm with rfl | hm
        · have h0 : l = r.1 := h.1
          subst h0
          exact ⟨r.2.1, r.2.2, List.mem_cons_self .., List.mem_cons_self ..⟩
        · obtain ⟨v, u, a, b⟩ := h2 l i hm
          exact ⟨v, u, List.mem_cons_of_mem _ a, List.mem_cons_of_mem _ b⟩

/-- The team after its lanes, its labels and its latches are written, before the next position. -/
theorem putLanes_writes (fw : Fw) (d : Dev) (lat vd : Nat) (write push : Bool) (rs : List (Nat × Word × OSet)) (k : Dev → Dev) (hd : vd < 124 ∨ vd = 127)
    (hf : (allocLanes d.cur.regs.labels (rs.map fun r => (r.1, r.2.2))).2.2.1 = []) :
    let a := allocLanes d.cur.regs.labels (rs.map fun r => (r.1, r.2.2))
    let vals := (rs.zip a.1).map fun p => (p.1.1, ({ val := p.1.2.1, lbl := p.2.2 } : LVal))
    ∃ hz os bv, putLanes fw d lat vd write push rs k = k { d with cur := { d.cur with haz := hz, ops := os, badV := bv, regs := { d.cur.regs with
          v := (if write = true ∧ vd ≠ 127 then vals.foldl (fun m p => mset {} m (1024 * vd + p.1) p.2) d.cur.regs.v else d.cur.regs.v),
          labels := a.2.1,
          latches := (if push then { run := (if d.cur.runOpen && decide (d.cur.pos ≤ d.cur.runEnd) then d.cur.runId else 0), ready := d.cur.pos + lat, lanes := vals.foldl (fun m p => mset {} m p.1 p.2) [] } :: d.cur.regs.latches else d.cur.regs.latches) } } } ∧
      (∀ n, ({ d.cur with haz := hz } : Team).olds (.spec n) = d.cur.olds (.spec n)) ∧ os.map opCore = d.cur.ops.map opCore := by
  intro a vals
  unfold putLanes
  dsimp only
  rw [hf]
  by_cases hw : write = true ∧ vd ≠ 127
  · obtain ⟨hz, os, bv, e, ho, hos⟩ := vsets_only vals ({ d.cur with regs := { d.cur.regs with labels := a.2.1 } } : Team) vd lat (by omega)
    refine ⟨hz, os, bv, ?_, ho, hos⟩
    have hc : (write && vd != 127) = true := by simpa using hw
    rw [if_pos hw]
    simp only [List.isEmpty_nil, if_true, hc]
    cases push
    · exact congrArg (fun t => k { d with cur := t }) e
    · exact congrArg (fun t => k { d with cur := pushLatch t lat (vals.foldl (fun m p => mset {} m p.1 p.2) []) }) e
  · refine ⟨d.cur.haz, d.cur.ops, d.cur.badV, ?_, fun _ => rfl, rfl⟩
    have hc : (write && vd != 127) = false := by
      cases h : (write && vd != 127)
      · rfl
      · exact absurd (by simpa using h) hw
    rw [if_neg hw]
    simp only [List.isEmpty_nil, if_true, hc]
    cases push <;> rfl

theorem noteLatch_eq (s : State) (srcs : List Nat) (d : Dev) :
    noteLatch s.dev srcs d = d.updS fun p => { p with tstat := p.tstat ||| lost s srcs } := by
  unfold noteLatch lost
  split
  · rfl
  · have h0 : ∀ b : BitVec 19, b ||| 0 = b := by simp
    simp only [h0]; rfl

/-- The frame of a vector result (R245, R246, R26, R28): with an index for every lane, the lanes take their values, the latches the whole result,
and nothing else changes. -/
theorem putLanes_gives (s : State) (x : VectorSpec) (hs : stepping s.dev = false) (hw : s.dev.cur.wait = .ready) (hd : x.d < 124 ∨ x.d = 127)
    (hf : x.full s = []) :
    let rs := s.dev.act.map fun l => (l, x.val l, x.set l)
    let t : State := { s with dev := putLanes s.fw s.dev x.lat x.d (!x.n) true rs fun d' => finishV s.fw s.dev.k0 (noteLatch s.dev x.srcs d') }
    PutVector s t x (x.indexes s) ∧ t.dev.cur.regs.labels = x.labels s ∧ At t (s.dev.cur.pc + 4) .ready ∧
      Safety.Kept s t [] [x.d] [] [] ∧ Quiet s t s.dev.cur.regs.cc (lost s x.srcs) := by
  intro rs t
  have hrs : (rs.map fun r => (r.1, r.2.2)) = x.needs s := by simp [rs, VectorSpec.needs, List.map_map, Function.comp_def]
  obtain ⟨hz, os, bv, e, ho, hos⟩ := putLanes_writes s.fw s.dev x.lat x.d (!x.n) true rs
    (fun d' => finishV s.fw s.dev.k0 (noteLatch s.dev x.srcs d')) hd (by rw [hrs]; exact hf)
  rw [hrs] at e
  have hl : (x.indexes s).map (·.1) = rs.map (·.1) := by
    have := allocLanes_lanes s.dev.cur.regs.labels (x.needs s) hf
    rw [VectorSpec.indexes, this, ← hrs, List.map_map]
    rfl
  have hact : rs.map (·.1) = s.dev.act := by simp [rs, List.map_map, Function.comp_def]
  obtain ⟨hz1, hz2⟩ := zip_vals rs (x.indexes s) hl
  obtain ⟨hn, hb⟩ := act_nodup s.dev
  change putLanes _ _ _ _ _ _ _ _ = finishV _ _ (noteLatch _ _ { s.dev with cur := { s.dev.cur with haz := hz, ops := os, badV := bv, regs := { s.dev.cur.regs with
      v := (if (!x.n) = true ∧ x.d ≠ 127 then ((rs.zip (x.indexes s)).map fun p => (p.1.1, ({ val := p.1.2.1, lbl := p.2.2 } : LVal))).foldl
        (fun m p => mset {} m (1024 * x.d + p.1) p.2) s.dev.cur.regs.v else s.dev.cur.regs.v),
      labels := x.labels s,
      latches := { run := (if s.dev.cur.runOpen && decide (s.dev.cur.pos ≤ s.dev.cur.runEnd) then s.dev.cur.runId else 0), ready := s.dev.cur.pos + x.lat, lanes := ((rs.zip (x.indexes s)).map fun p => (p.1.1, ({ val := p.1.2.1, lbl := p.2.2 } : LVal))).foldl (fun m p => mset {} m p.1 p.2) [] } ::
          s.dev.cur.regs.latches } } }) at e
  generalize hvals : ((rs.zip (x.indexes s)).map fun p => (p.1.1, ({ val := p.1.2.1, lbl := p.2.2 } : LVal))) = vals at hz1 hz2 e
  have hvn : (vals.map (·.1)).Nodup := by rw [hz1, hl, hact]; exact hn
  have hva : ∀ p ∈ vals, p.1 ∈ s.dev.act := fun p hp => by
    rw [← hact, ← hl, ← hz1]; exact List.mem_map.mpr ⟨p, hp, rfl⟩
  have hsp : stepping ({ s.dev with cyc := passes s.dev.k0, cur := { s.dev.cur with haz := hz, sp := { s.dev.cur.sp with tstat := s.dev.cur.sp.tstat ||| lost s x.srcs } } } : Dev) =
      false := by
    rw [← hs]
    unfold stepping specRead
    have := ho 0x20
    rw [show ({ s.dev.cur with haz := hz, sp := { s.dev.cur.sp with tstat := s.dev.cur.sp.tstat ||| lost s x.srcs } } : Team).olds (.spec 0x20) =
      s.dev.cur.olds (.spec 0x20) from this]
  rw [noteLatch_eq] at e
  unfold finishV finish at e
  obtain ⟨hz', e'⟩ := finishN_only s.fw 1 ({ (Dev.updS { s.dev with cur := { s.dev.cur with haz := hz, ops := os, badV := bv, regs := { s.dev.cur.regs with
      v := (if (!x.n) = true ∧ x.d ≠ 127 then vals.foldl (fun m p => mset {} m (1024 * x.d + p.1) p.2) s.dev.cur.regs.v else s.dev.cur.regs.v),
      labels := x.labels s,
      latches := { lanes := vals.foldl (fun m p => mset {} m p.1 p.2) [], run := (if s.dev.cur.runOpen && decide (s.dev.cur.pos ≤ s.dev.cur.runEnd) then s.dev.cur.runId else 0), ready := s.dev.cur.pos + x.lat } ::
          s.dev.cur.regs.latches } } } fun p => { p with tstat := p.tstat ||| lost s x.srcs }) with cyc := passes s.dev.k0 }) hsp
  have ht : t = { s with dev := _ } := congrArg (fun d => ({ s with dev := d } : State)) (e.trans e')
  rw [ht]
  have hm : ∀ l i, (l, i) ∈ x.indexes s → (l, ({ val := x.val l, lbl := i } : LVal)) ∈ vals := fun l i h => by
    obtain ⟨v, u, a, b⟩ := hz2 l i h
    obtain ⟨l', _, h'⟩ := List.mem_map.mp a
    cases h'
    exact b
  refine ⟨⟨fun hn0 hd0 l i h => ?_, fun l h => ?_, fun h l => ?_, hl.trans hact, ?_⟩, rfl, ⟨rfl, hw, rfl⟩, ⟨fun _ _ => rfl, fun r l hl' hr => ?_, fun _ _ => rfl, rfl, rfl, rfl, rfl, rfl, rfl,
    fun _ => rfl, rfl, rfl, ⟨rfl, rfl, rfl, rfl, rfl⟩⟩, ⟨rfl, rfl, hos, rfl⟩⟩
  · show mget ({} : LVal) (if _ then _ else _) (1024 * x.d + l) = _
    rw [if_pos ⟨by simp [hn0], hd0⟩]
    exact (mget_lanes vals _ x.d hvn).1 _ (hm l i h)
  · show mget ({} : LVal) (if _ then _ else _) (1024 * x.d + l) = _
    split
    · exact (mget_lanes vals _ x.d hvn).2 _ fun p hp e => h (by rw [show l = p.1 by omega]; exact hva p hp)
    · rfl
  · show mget ({} : LVal) (if _ then _ else _) (1024 * x.d + l) = _
    rw [if_neg (by rintro ⟨a, b⟩; rcases h with h | h <;> simp_all)]
    rfl
  · refine ⟨_, rfl, rfl, rfl, fun l i h => ?_⟩
    have := (mget_lanes vals [] 0 hvn).1 _ (hm l i h)
    simpa using this
  · show mget ({} : LVal) (if _ then _ else _) (1024 * r + l) = _
    split
    · exact (mget_lanes vals _ x.d hvn).2 _ fun p hp e => hr (by have := (hb _ (hva p hp)).2; simp; omega)
    · rfl

end Sys2Proof.Machine
end

