-- ==== Sys2Proof/Laws/Pending.lean ====
section
/-! SUPPORT. Pending operations: what finishing one does (R30, R131), and where its results land (R32, R246), each said once. -/
namespace Sys2Proof.Machine
open Sys2Proof.Safety

/-! ### Retiring -/

/-- Retiring parts a list of operations in two, and what leaves is finished. -/
theorem retireGo_parts (kept l : List Op) :
    (∀ p, p ∈ l ↔ p ∈ (retireGo kept l).1 ∨ p ∈ (retireGo kept l).2) ∧ ∀ p ∈ (retireGo kept l).2, p.done = true := by
  induction l generalizing kept with
  | nil => simp [retireGo]
  | cons o r ih =>
    by_cases h : (!o.done || kept.any fun p => p.q == o.q && o.q.isSome) = true
    · obtain ⟨h1, h2⟩ := ih (o :: kept)
      have e : retireGo kept (o :: r) = (o :: (retireGo (o :: kept) r).1, (retireGo (o :: kept) r).2) := by rw [retireGo]; simp only [h, if_true]
      rw [e]
      exact ⟨fun p => by simp only [List.mem_cons, h1 p, or_assoc], h2⟩
    · obtain ⟨h1, h2⟩ := ih kept
      have e : retireGo kept (o :: r) = ((retireGo kept r).1, o :: (retireGo kept r).2) := by
        rw [retireGo]; simp only [h]; rfl
      rw [e]
      refine ⟨fun p => by simp only [List.mem_cons, h1 p, or_left_comm], fun p hp => ?_⟩
      rcases List.mem_cons.mp hp with rfl | hp
      · cases hd : p.done
        · exact absurd (by simp [hd]) h
        · rfl
      · exact h2 p hp

/-- A token whose operation left in error has its bit set, and no bit of TSTAT goes (R30, R79). -/
theorem qerrs_bits (os : List Op) (t : Team) :
    let t' := os.foldl (fun t o => match o.q with | some q => if o.err then t.qerr q else t | none => t) t
    (∀ q, t.sp.tstat.getLsbD q = true → t'.sp.tstat.getLsbD q = true) ∧
      ∀ o ∈ os, o.err = true → ∀ q, q < 16 → o.q = some q → t'.sp.tstat.getLsbD q = true := by
  induction os generalizing t with
  | nil => exact ⟨fun _ h => h, fun _ h => (nomatch h)⟩
  | cons o r ih =>
    obtain ⟨h1, h2⟩ := ih (match o.q with | some q => if o.err then t.qerr q else t | none => t)
    refine ⟨fun q h => h1 q ?_, fun p hp he q hq hpq => ?_⟩
    · split
      · split
        · simp [Team.qerr, h]
        · exact h
      · exact h
    · rcases List.mem_cons.mp hp with rfl | hp
      · refine h1 q ?_
        rw [hpq]
        simp only [he, if_true, Team.qerr, BitVec.getLsbD_or, BitVec.getLsbD_ofNat, Nat.testBit_two_pow_self, Bool.or_eq_true, Bool.and_eq_true, decide_eq_true_eq]
        exact .inr ⟨by omega, trivial⟩
      · exact h2 p hp he q hq hpq

/-- What a held team waits for once operations have retired: nothing else of the team changes but older values. -/
theorem unheld_only (t : Team) : ∃ w hz, t.unheld = { t with wait := w, haz := hz } ∧ (w = t.wait ∨ w = .ready) := by
  have key : ∀ (c : Prop) [Decidable c] (k : List Haz), ∃ w hz,
      (if c then { t with wait := .ready, haz := k } else t) = { t with wait := w, haz := hz } ∧ (w = t.wait ∨ w = .ready) := by
    intro c _ k
    by_cases h : c
    · rw [if_pos h]; exact ⟨.ready, k, rfl, .inr rfl⟩
    · rw [if_neg h]; exact ⟨t.wait, t.haz, rfl, .inl rfl⟩
  have key2 : ∀ (c : Prop) [Decidable c] (k : List Haz), ∃ w hz,
      (if c then t else { t with wait := .ready, haz := k }) = { t with wait := w, haz := hz } ∧ (w = t.wait ∨ w = .ready) := by
    intro c _ k
    by_cases h : c
    · rw [if_pos h]; exact ⟨t.wait, t.haz, rfl, .inl rfl⟩
    · rw [if_neg h]; exact ⟨.ready, k, rfl, .inr rfl⟩
  have other : t.unheld = t → ∃ w hz, t.unheld = { t with wait := w, haz := hz } ∧ (w = t.wait ∨ w = .ready) :=
    fun e => ⟨t.wait, t.haz, e, .inl rfl⟩
  obtain ⟨v, hv⟩ : ∃ v, v = t.wait := ⟨_, rfl⟩
  cases v with
  | held n => simpa only [Team.unheld, ← hv] using key _ t.haz
  | call n => simpa only [Team.unheld, ← hv] using key2 _ _
  | _ => exact other (by unfold Team.unheld; rw [← hv])

/-- Finishing an operation: it is finished or has left with its error noted, every other one is as it was or had finished too; the team's registers,
memory and everything else but the pins are as before (R30, R131). -/
theorem finishOp_completed (u : State) (o : Op) (err : Bool) (ho : u.dev.cur.op o.id = some o) (hq : ∀ q, o.q = some q → q < 16) :
    Completed u { u with dev := finishOp u.dev o.id err } o (err || o.err) ∧
      ∃ os st w hz, finishOp u.dev o.id err = { u.dev with frames := (unpinFrames u.dev o.pins).frames, cur := { u.dev.cur with ops := os, wait := w, haz := hz, sp := { u.dev.cur.sp with tstat := st } } } ∧
        (w = u.dev.cur.wait ∨ w = .ready) := by
  have hmem : o ∈ u.dev.cur.ops := by
    have := List.mem_of_find?_eq_some (show u.dev.cur.ops.find? (fun p => p.id == o.id) = some o from ho)
    exact this
  let f : Op → Op := fun p => if p.id = o.id then { p with done := true, err := p.err || err, pins := [] } else p
  let t1 : Team := { u.dev.cur with ops := u.dev.cur.ops.map f }
  obtain ⟨hp, hdone⟩ := retireGo_parts [] t1.ops
  let t2 : Team := { t1 with ops := (retireGo [] t1.ops).1 }
  let t3 := (retireGo [] t1.ops).2.foldl (fun t o => match o.q with | some q => if o.err then t.qerr q else t | none => t) t2
  obtain ⟨st, h3⟩ := qerrs_only (retireGo [] t1.ops).2 t2
  obtain ⟨hb1, hb2⟩ := qerrs_bits (retireGo [] t1.ops).2 t2
  obtain ⟨w, hz, h4, hw⟩ := unheld_only t3
  have e : finishOp u.dev o.id err = { unpinFrames u.dev o.pins with cur := t3.unheld } := by
    unfold finishOp
    rw [ho]
    rfl
  have hops : t3.unheld.ops = (retireGo [] t1.ops).1 := by rw [h4]; show t3.ops = _; rw [show t3 = _ from h3]
  have hsp : t3.unheld.sp = t3.sp := by rw [h4]
  have hback : ∀ p, p ∈ t1.ops → p.id ≠ o.id → p ∈ u.dev.cur.ops := by
    intro p hp hne
    obtain ⟨p', hm, rfl⟩ := List.mem_map.mp hp
    by_cases h : p'.id = o.id
    · exact absurd (show (f p').id = o.id by simp only [f, if_pos h]; exact h) hne
    · simp only [f, if_neg h]; exact hm
  have hfin : ∀ p, p ∈ t1.ops → p.id = o.id → p.done = true ∧ (o ∈ u.dev.cur.ops → True) := by
    intro p hp he
    obtain ⟨p', hm, rfl⟩ := List.mem_map.mp hp
    by_cases h : p'.id = o.id
    · exact ⟨by simp only [f, if_pos h], fun _ => trivial⟩
    · exact absurd (by simpa only [f, if_neg h] using he) h
  refine ⟨⟨?_, ?_, ?_, ?_⟩, (retireGo [] t1.ops).1, st, w, hz, ?_, ?_⟩
  · intro p hpm he
    rw [e] at hpm
    exact (hfin p ((hp p).mpr (.inl (hops ▸ hpm))) he).1
  · intro p hpm he
    rw [e] at hpm
    exact hback p ((hp p).mpr (.inl (hops ▸ hpm))) he
  · intro p hpm hne hd
    rw [e]
    show p ∈ t3.unheld.ops
    rw [hops]
    have h1 : p ∈ t1.ops := List.mem_map.mpr ⟨p, hpm, by simp only [f, if_neg hne]⟩
    rcases (hp p).mp h1 with h | h
    · exact h
    · rw [hdone p h] at hd; cases hd
  · intro he q hqs
    have h1 : f o ∈ t1.ops := List.mem_map.mpr ⟨o, hmem, rfl⟩
    have hf : f o = { o with done := true, err := o.err || err, pins := [] } := by simp only [f, if_true]
    rw [e]
    rcases (hp _).mp h1 with h | h
    · refine .inl ⟨f o, ?_, by rw [hf], by rw [hf]; simpa [Bool.or_comm] using he⟩
      show f o ∈ t3.unheld.ops
      rw [hops]; exact h
    · refine .inr ?_
      show t3.unheld.sp.tstat.getLsbD q = true
      rw [hsp]
      exact hb2 _ h (by rw [hf]; simpa [Bool.or_comm] using he) q (hq q hqs) (by rw [hf]; exact hqs)
  · rw [e, h4, show t3 = _ from h3]
    rfl
  · rw [show t3.wait = u.dev.cur.wait by rw [show t3 = _ from h3]] at hw
    exact hw

/-- A team that no word holds takes no step trap when an operation ends. -/
theorem stepHeld_free (fw : Fw) (d d' : Dev) (h1 : ∀ n, d.cur.wait ≠ .held n) (h2 : ∀ n, d.cur.wait ≠ .call n) : stepHeld fw d d' = d' := by
  unfold stepHeld
  split
  · next e => exact absurd e (h1 _)
  · next e => exact absurd e (h2 _)
  · rfl

/-- An operation that ends without a cause is finished, where no word holds the team. -/
theorem endOp_plain (fw : Fw) (d : Dev) (o : Op) (err : Bool) (h1 : ∀ n, d.cur.wait ≠ .held n) (h2 : ∀ n, d.cur.wait ≠ .call n) :
    endOp fw d o err [] = finishOp d o.id err := stepHeld_free fw d _ h1 h2

end Sys2Proof.Machine
end

