-- ==== Sys2Proof/Laws/PerInstr.lean ====
section
/-! SUPPORT. Families of facts about instructions as syntax: `Encoding`, that a word fits its 32 bits. -/
namespace Sys2Proof.Laws.Encoding

/-- The word of an instruction, where it has one, has 32 bits (R231). -/
def Statement (i : Instr) : Prop := ∀ w, encode i = some w → w < 2 ^ 32

theorem bitCode_le (b : Bool) : bitCode b ≤ 1 := by cases b <;> decide
theorem cond_code_lt (c : Cond) : c.code < 16 := by cases c <;> decide
theorem vCond_code_lt (c : VCond) : c.code < 16 := by cases c <;> decide
theorem cmpType_code_lt (c : CmpType) : c.code < 8 := by cases c <;> decide
theorem shKind_code_lt (c : ShKind) : c.code < 4 := by cases c <;> decide
theorem mSize_code_lt (c : MSize) : c.code < 8 := by cases c <;> decide
theorem nSize_code_lt (c : NSize) : c.code < 8 := by cases c <;> decide
theorem atomOp_code_lt (c : AtomOp) : c.code < 16 := by cases c <;> decide
theorem sem_code_lt (c : Sem) : c.code < 8 := by cases c <;> decide
theorem scope_code_lt (c : Scope) : c.code < 4 := by cases c <;> decide
theorem fmt_code_lt (c : Fmt) : c.code < 8 := by cases c <;> decide
theorem invlKind_code_lt (c : InvlKind) : c.code < 4 := by cases c <;> decide
theorem cachePol_code_lt (c : CachePol) : c.code < 4 := by cases c <;> decide
theorem rounding_code_lt (c : Rounding) : c.code < 4 := by cases c <;> decide

theorem nop : Statement .nop := fun w h => by cases h; decide
theorem dly (n : BitVec 8) : Statement (.dly n) := fun w h => by
  cases h; omega
theorem br (o : BitVec 26) : Statement (.br o) := fun w h => by
  cases h; omega
theorem bcc (c : Cond) (o : BitVec 22) : Statement (.bcc c o) := fun w h => by
  cases h; have := cond_code_lt c; omega
theorem bkz (k : BitVec 4) (o : BitVec 21) : Statement (.bkz k o) := fun w h => by
  cases h; omega
theorem bknz (k : BitVec 4) (o : BitVec 21) : Statement (.bknz k o) := fun w h => by
  cases h; omega
theorem call (o : BitVec 26) : Statement (.call o) := fun w h => by
  cases h; omega
theorem ret : Statement .ret := fun w h => by cases h; decide
theorem jmpr (a : BitVec 6) : Statement (.jmpr a) := fun w h => by
  cases h; omega
theorem callr (a : BitVec 6) : Statement (.callr a) := fun w h => by
  cases h; omega
theorem exit : Statement .exit := fun w h => by cases h; decide
theorem trap (c : BitVec 16) : Statement (.trap c) := fun w h => by
  cases h; omega
theorem brk : Statement .brk := fun w h => by cases h; decide
theorem reth : Statement .reth := fun w h => by cases h; decide
theorem callg (q : BitVec 4) (v : BitVec 7) (s : BitVec 6) : Statement (.callg q v s) := fun w h => by
  cases h; omega
theorem sadd (f : Bool) (d : BitVec 6) (a : BitVec 6) (b : BitVec 6) : Statement (.sadd f d a b) := fun w h => by
  cases h; have := bitCode_le f; omega
theorem ssub (f : Bool) (d : BitVec 6) (a : BitVec 6) (b : BitVec 6) : Statement (.ssub f d a b) := fun w h => by
  cases h; have := bitCode_le f; omega
theorem smul (f : Bool) (d : BitVec 6) (a : BitVec 6) (b : BitVec 6) : Statement (.smul f d a b) := fun w h => by
  cases h; have := bitCode_le f; omega
theorem smulh (f : Bool) (d : BitVec 6) (a : BitVec 6) (b : BitVec 6) : Statement (.smulh f d a b) := fun w h => by
  cases h; have := bitCode_le f; omega
theorem smulhn (f : Bool) (d : BitVec 6) (a : BitVec 6) (b : BitVec 6) : Statement (.smulhn f d a b) := fun w h => by
  cases h; have := bitCode_le f; omega
theorem sand (f : Bool) (d : BitVec 6) (a : BitVec 6) (b : BitVec 6) : Statement (.sand f d a b) := fun w h => by
  cases h; have := bitCode_le f; omega
theorem sor (f : Bool) (d : BitVec 6) (a : BitVec 6) (b : BitVec 6) : Statement (.sor f d a b) := fun w h => by
  cases h; have := bitCode_le f; omega
theorem sxor (f : Bool) (d : BitVec 6) (a : BitVec 6) (b : BitVec 6) : Statement (.sxor f d a b) := fun w h => by
  cases h; have := bitCode_le f; omega
theorem sandn (f : Bool) (d : BitVec 6) (a : BitVec 6) (b : BitVec 6) : Statement (.sandn f d a b) := fun w h => by
  cases h; have := bitCode_le f; omega
theorem sshl (f : Bool) (d : BitVec 6) (a : BitVec 6) (b : BitVec 6) : Statement (.sshl f d a b) := fun w h => by
  cases h; have := bitCode_le f; omega
theorem sshr (f : Bool) (d : BitVec 6) (a : BitVec 6) (b : BitVec 6) : Statement (.sshr f d a b) := fun w h => by
  cases h; have := bitCode_le f; omega
theorem ssra (f : Bool) (d : BitVec 6) (a : BitVec 6) (b : BitVec 6) : Statement (.ssra f d a b) := fun w h => by
  cases h; have := bitCode_le f; omega
theorem smin (f : Bool) (d : BitVec 6) (a : BitVec 6) (b : BitVec 6) : Statement (.smin f d a b) := fun w h => by
  cases h; have := bitCode_le f; omega
theorem smax (f : Bool) (d : BitVec 6) (a : BitVec 6) (b : BitVec 6) : Statement (.smax f d a b) := fun w h => by
  cases h; have := bitCode_le f; omega
theorem sminn (f : Bool) (d : BitVec 6) (a : BitVec 6) (b : BitVec 6) : Statement (.sminn f d a b) := fun w h => by
  cases h; have := bitCode_le f; omega
theorem smaxn (f : Bool) (d : BitVec 6) (a : BitVec 6) (b : BitVec 6) : Statement (.smaxn f d a b) := fun w h => by
  cases h; have := bitCode_le f; omega
theorem scmp (a : BitVec 6) (b : BitVec 6) : Statement (.scmp a b) := fun w h => by
  cases h; omega
theorem spopc (f : Bool) (d : BitVec 6) (a : BitVec 6) : Statement (.spopc f d a) := fun w h => by
  cases h; have := bitCode_le f; omega
theorem sclz (f : Bool) (d : BitVec 6) (a : BitVec 6) : Statement (.sclz f d a) := fun w h => by
  cases h; have := bitCode_le f; omega
theorem sctz (f : Bool) (d : BitVec 6) (a : BitVec 6) : Statement (.sctz f d a) := fun w h => by
  cases h; have := bitCode_le f; omega
theorem saddi (d : BitVec 6) (a : BitVec 6) (i : BitVec 14) : Statement (.saddi d a i) := fun w h => by
  cases h; omega
theorem sandi (d : BitVec 6) (a : BitVec 6) (i : BitVec 14) : Statement (.sandi d a i) := fun w h => by
  cases h; omega
theorem sori (d : BitVec 6) (a : BitVec 6) (i : BitVec 14) : Statement (.sori d a i) := fun w h => by
  cases h; omega
theorem sxori (d : BitVec 6) (a : BitVec 6) (i : BitVec 14) : Statement (.sxori d a i) := fun w h => by
  cases h; omega
theorem sshi (d : BitVec 6) (a : BitVec 6) (k : ShKind) (n : BitVec 6) : Statement (.sshi d a k n) := fun w h => by
  cases h; have := shKind_code_lt k; omega
theorem scmpi (a : BitVec 6) (i : BitVec 14) : Statement (.scmpi a i) := fun w h => by
  cases h; omega
theorem slui (d : BitVec 6) (i : BitVec 20) : Statement (.slui d i) := fun w h => by
  cases h; omega
theorem smuli (d : BitVec 6) (a : BitVec 6) (i : BitVec 14) : Statement (.smuli d a i) := fun w h => by
  cases h; omega
theorem vadd (n : Bool) (d : BitVec 7) (a : BitVec 7) (b : BitVec 7) : Statement (.vadd n d a b) := fun w h => by
  cases h; have := bitCode_le n; omega
theorem vsub (n : Bool) (d : BitVec 7) (a : BitVec 7) (b : BitVec 7) : Statement (.vsub n d a b) := fun w h => by
  cases h; have := bitCode_le n; omega
theorem vmul (n : Bool) (d : BitVec 7) (a : BitVec 7) (b : BitVec 7) : Statement (.vmul n d a b) := fun w h => by
  cases h; have := bitCode_le n; omega
theorem vmulh (n : Bool) (d : BitVec 7) (a : BitVec 7) (b : BitVec 7) : Statement (.vmulh n d a b) := fun w h => by
  cases h; have := bitCode_le n; omega
theorem vmulhn (n : Bool) (d : BitVec 7) (a : BitVec 7) (b : BitVec 7) : Statement (.vmulhn n d a b) := fun w h => by
  cases h; have := bitCode_le n; omega
theorem vmad (n : Bool) (d : BitVec 7) (a : BitVec 7) (b : BitVec 7) : Statement (.vmad n d a b) := fun w h => by
  cases h; have := bitCode_le n; omega
theorem vand (n : Bool) (d : BitVec 7) (a : BitVec 7) (b : BitVec 7) : Statement (.vand n d a b) := fun w h => by
  cases h; have := bitCode_le n; omega
theorem vor (n : Bool) (d : BitVec 7) (a : BitVec 7) (b : BitVec 7) : Statement (.vor n d a b) := fun w h => by
  cases h; have := bitCode_le n; omega
theorem vxor (n : Bool) (d : BitVec 7) (a : BitVec 7) (b : BitVec 7) : Statement (.vxor n d a b) := fun w h => by
  cases h; have := bitCode_le n; omega
theorem vandn (n : Bool) (d : BitVec 7) (a : BitVec 7) (b : BitVec 7) : Statement (.vandn n d a b) := fun w h => by
  cases h; have := bitCode_le n; omega
theorem vshl (n : Bool) (d : BitVec 7) (a : BitVec 7) (b : BitVec 7) : Statement (.vshl n d a b) := fun w h => by
  cases h; have := bitCode_le n; omega
theorem vshr (n : Bool) (d : BitVec 7) (a : BitVec 7) (b : BitVec 7) : Statement (.vshr n d a b) := fun w h => by
  cases h; have := bitCode_le n; omega
theorem vsra (n : Bool) (d : BitVec 7) (a : BitVec 7) (b : BitVec 7) : Statement (.vsra n d a b) := fun w h => by
  cases h; have := bitCode_le n; omega
theorem vmin (n : Bool) (d : BitVec 7) (a : BitVec 7) (b : BitVec 7) : Statement (.vmin n d a b) := fun w h => by
  cases h; have := bitCode_le n; omega
theorem vmax (n : Bool) (d : BitVec 7) (a : BitVec 7) (b : BitVec 7) : Statement (.vmax n d a b) := fun w h => by
  cases h; have := bitCode_le n; omega
theorem vabs (n : Bool) (d : BitVec 7) (a : BitVec 7) : Statement (.vabs n d a) := fun w h => by
  cases h; have := bitCode_le n; omega
theorem vminn (n : Bool) (d : BitVec 7) (a : BitVec 7) (b : BitVec 7) : Statement (.vminn n d a b) := fun w h => by
  cases h; have := bitCode_le n; omega
theorem vmaxn (n : Bool) (d : BitVec 7) (a : BitVec 7) (b : BitVec 7) : Statement (.vmaxn n d a b) := fun w h => by
  cases h; have := bitCode_le n; omega
theorem vaddsat (n : Bool) (d : BitVec 7) (a : BitVec 7) (b : BitVec 7) : Statement (.vaddsat n d a b) := fun w h => by
  cases h; have := bitCode_le n; omega
theorem vsubsat (n : Bool) (d : BitVec 7) (a : BitVec 7) (b : BitVec 7) : Statement (.vsubsat n d a b) := fun w h => by
  cases h; have := bitCode_le n; omega
theorem vpopc (n : Bool) (d : BitVec 7) (a : BitVec 7) : Statement (.vpopc n d a) := fun w h => by
  cases h; have := bitCode_le n; omega
theorem vclz (n : Bool) (d : BitVec 7) (a : BitVec 7) : Statement (.vclz n d a) := fun w h => by
  cases h; have := bitCode_le n; omega
theorem vlane (n : Bool) (d : BitVec 7) : Statement (.vlane n d) := fun w h => by
  cases h; have := bitCode_le n; omega
theorem vbrev (n : Bool) (d : BitVec 7) (a : BitVec 7) : Statement (.vbrev n d a) := fun w h => by
  cases h; have := bitCode_le n; omega
theorem fadd (n : Bool) (d : BitVec 7) (a : BitVec 7) (b : BitVec 7) : Statement (.fadd n d a b) := fun w h => by
  cases h; have := bitCode_le n; omega
theorem fsub (n : Bool) (d : BitVec 7) (a : BitVec 7) (b : BitVec 7) : Statement (.fsub n d a b) := fun w h => by
  cases h; have := bitCode_le n; omega
theorem fmul (n : Bool) (d : BitVec 7) (a : BitVec 7) (b : BitVec 7) : Statement (.fmul n d a b) := fun w h => by
  cases h; have := bitCode_le n; omega
theorem ffma (n : Bool) (d : BitVec 7) (a : BitVec 7) (b : BitVec 7) : Statement (.ffma n d a b) := fun w h => by
  cases h; have := bitCode_le n; omega
theorem fmin (n : Bool) (d : BitVec 7) (a : BitVec 7) (b : BitVec 7) : Statement (.fmin n d a b) := fun w h => by
  cases h; have := bitCode_le n; omega
theorem fmax (n : Bool) (d : BitVec 7) (a : BitVec 7) (b : BitVec 7) : Statement (.fmax n d a b) := fun w h => by
  cases h; have := bitCode_le n; omega
theorem fabs (n : Bool) (d : BitVec 7) (a : BitVec 7) : Statement (.fabs n d a) := fun w h => by
  cases h; have := bitCode_le n; omega
theorem fneg (n : Bool) (d : BitVec 7) (a : BitVec 7) : Statement (.fneg n d a) := fun w h => by
  cases h; have := bitCode_le n; omega
theorem frcp (n : Bool) (d : BitVec 7) (a : BitVec 7) : Statement (.frcp n d a) := fun w h => by
  cases h; have := bitCode_le n; omega
theorem frsq (n : Bool) (d : BitVec 7) (a : BitVec 7) : Statement (.frsq n d a) := fun w h => by
  cases h; have := bitCode_le n; omega
theorem fexp2 (n : Bool) (d : BitVec 7) (a : BitVec 7) : Statement (.fexp2 n d a) := fun w h => by
  cases h; have := bitCode_le n; omega
theorem flog2 (n : Bool) (d : BitVec 7) (a : BitVec 7) : Statement (.flog2 n d a) := fun w h => by
  cases h; have := bitCode_le n; omega
theorem ffloor (n : Bool) (d : BitVec 7) (a : BitVec 7) : Statement (.ffloor n d a) := fun w h => by
  cases h; have := bitCode_le n; omega
theorem ffrac (n : Bool) (d : BitVec 7) (a : BitVec 7) : Statement (.ffrac n d a) := fun w h => by
  cases h; have := bitCode_le n; omega
theorem badd2 (n : Bool) (d : BitVec 7) (a : BitVec 7) (b : BitVec 7) : Statement (.badd2 n d a b) := fun w h => by
  cases h; have := bitCode_le n; omega
theorem bmul2 (n : Bool) (d : BitVec 7) (a : BitVec 7) (b : BitVec 7) : Statement (.bmul2 n d a b) := fun w h => by
  cases h; have := bitCode_le n; omega
theorem bfma2 (n : Bool) (d : BitVec 7) (a : BitVec 7) (b : BitVec 7) : Statement (.bfma2 n d a b) := fun w h => by
  cases h; have := bitCode_le n; omega
theorem bmax2 (n : Bool) (d : BitVec 7) (a : BitVec 7) (b : BitVec 7) : Statement (.bmax2 n d a b) := fun w h => by
  cases h; have := bitCode_le n; omega
theorem cvtF32I32 (n : Bool) (d : BitVec 7) (a : BitVec 7) : Statement (.cvtF32I32 n d a) := fun w h => by
  cases h; have := bitCode_le n; omega
theorem cvtF32N32 (n : Bool) (d : BitVec 7) (a : BitVec 7) : Statement (.cvtF32N32 n d a) := fun w h => by
  cases h; have := bitCode_le n; omega
theorem cvtI32F32 (n : Bool) (d : BitVec 7) (a : BitVec 7) : Statement (.cvtI32F32 n d a) := fun w h => by
  cases h; have := bitCode_le n; omega
theorem cvtN32F32 (n : Bool) (d : BitVec 7) (a : BitVec 7) : Statement (.cvtN32F32 n d a) := fun w h => by
  cases h; have := bitCode_le n; omega
theorem cvtBf2F32 (n : Bool) (d : BitVec 7) (a : BitVec 7) (b : BitVec 7) : Statement (.cvtBf2F32 n d a b) := fun w h => by
  cases h; have := bitCode_le n; omega
theorem cvtF32Bfl (n : Bool) (d : BitVec 7) (a : BitVec 7) : Statement (.cvtF32Bfl n d a) := fun w h => by
  cases h; have := bitCode_le n; omega
theorem cvtF32Bfh (n : Bool) (d : BitVec 7) (a : BitVec 7) : Statement (.cvtF32Bfh n d a) := fun w h => by
  cases h; have := bitCode_le n; omega
theorem vcmp (c : VCond) (k : BitVec 4) (t : CmpType) (a : BitVec 7) (b : BitVec 7) : Statement (.vcmp c k t a b) := fun w h => by
  cases h; have := vCond_code_lt c; have := cmpType_code_lt t; omega
theorem vsel (k : BitVec 4) (n : Bool) (d : BitVec 7) (a : BitVec 7) (b : BitVec 7) : Statement (.vsel k n d a b) := fun w h => by
  cases h; have := bitCode_le n; omega
theorem vaddi (n : Bool) (d : BitVec 7) (a : BitVec 7) (i : BitVec 7) : Statement (.vaddi n d a i) := fun w h => by
  cases h; have := bitCode_le n; omega
theorem vmuli (n : Bool) (d : BitVec 7) (a : BitVec 7) (i : BitVec 7) : Statement (.vmuli n d a i) := fun w h => by
  cases h; have := bitCode_le n; omega
theorem vandi (n : Bool) (d : BitVec 7) (a : BitVec 7) (i : BitVec 7) : Statement (.vandi n d a i) := fun w h => by
  cases h; have := bitCode_le n; omega
theorem vori (n : Bool) (d : BitVec 7) (a : BitVec 7) (i : BitVec 7) : Statement (.vori n d a i) := fun w h => by
  cases h; have := bitCode_le n; omega
theorem vxori (n : Bool) (d : BitVec 7) (a : BitVec 7) (i : BitVec 7) : Statement (.vxori n d a i) := fun w h => by
  cases h; have := bitCode_le n; omega
theorem vshli (n : Bool) (d : BitVec 7) (a : BitVec 7) (s : BitVec 5) : Statement (.vshli n d a s) := fun w h => by
  cases h; have := bitCode_le n; omega
theorem vshri (n : Bool) (d : BitVec 7) (a : BitVec 7) (s : BitVec 5) : Statement (.vshri n d a s) := fun w h => by
  cases h; have := bitCode_le n; omega
theorem vsrai (n : Bool) (d : BitVec 7) (a : BitVec 7) (s : BitVec 5) : Statement (.vsrai n d a s) := fun w h => by
  cases h; have := bitCode_le n; omega
theorem vmovi (n : Bool) (d : BitVec 7) (i : BitVec 7) : Statement (.vmovi n d i) := fun w h => by
  cases h; have := bitCode_le n; omega
theorem vmini (n : Bool) (d : BitVec 7) (a : BitVec 7) (i : BitVec 7) : Statement (.vmini n d a i) := fun w h => by
  cases h; have := bitCode_le n; omega
theorem vmaxi (n : Bool) (d : BitVec 7) (a : BitVec 7) (i : BitVec 7) : Statement (.vmaxi n d a i) := fun w h => by
  cases h; have := bitCode_le n; omega
theorem vadds (n : Bool) (d : BitVec 7) (a : BitVec 7) (s : BitVec 6) : Statement (.vadds n d a s) := fun w h => by
  cases h; have := bitCode_le n; omega
theorem vsubs (n : Bool) (d : BitVec 7) (a : BitVec 7) (s : BitVec 6) : Statement (.vsubs n d a s) := fun w h => by
  cases h; have := bitCode_le n; omega
theorem vmuls (n : Bool) (d : BitVec 7) (a : BitVec 7) (s : BitVec 6) : Statement (.vmuls n d a s) := fun w h => by
  cases h; have := bitCode_le n; omega
theorem fadds (n : Bool) (d : BitVec 7) (a : BitVec 7) (s : BitVec 6) : Statement (.fadds n d a s) := fun w h => by
  cases h; have := bitCode_le n; omega
theorem fmuls (n : Bool) (d : BitVec 7) (a : BitVec 7) (s : BitVec 6) : Statement (.fmuls n d a s) := fun w h => by
  cases h; have := bitCode_le n; omega
theorem ffmas (n : Bool) (d : BitVec 7) (a : BitVec 7) (s : BitVec 6) : Statement (.ffmas n d a s) := fun w h => by
  cases h; have := bitCode_le n; omega
theorem vmovs (n : Bool) (d : BitVec 7) (s : BitVec 6) : Statement (.vmovs n d s) := fun w h => by
  cases h; have := bitCode_le n; omega
theorem vshls (n : Bool) (d : BitVec 7) (a : BitVec 7) (s : BitVec 6) : Statement (.vshls n d a s) := fun w h => by
  cases h; have := bitCode_le n; omega
theorem shfl (n : Bool) (d : BitVec 7) (a : BitVec 7) (b : BitVec 7) : Statement (.shfl n d a b) := fun w h => by
  cases h; have := bitCode_le n; omega
theorem shflx (n : Bool) (d : BitVec 7) (a : BitVec 7) (b : BitVec 7) : Statement (.shflx n d a b) := fun w h => by
  cases h; have := bitCode_le n; omega
theorem shflu (n : Bool) (d : BitVec 7) (a : BitVec 7) (b : BitVec 7) : Statement (.shflu n d a b) := fun w h => by
  cases h; have := bitCode_le n; omega
theorem shfld (n : Bool) (d : BitVec 7) (a : BitVec 7) (b : BitVec 7) : Statement (.shfld n d a b) := fun w h => by
  cases h; have := bitCode_le n; omega
theorem scani (n : Bool) (d : BitVec 7) (a : BitVec 7) : Statement (.scani n d a) := fun w h => by
  cases h; have := bitCode_le n; omega
theorem scanf (n : Bool) (d : BitVec 7) (a : BitVec 7) : Statement (.scanf n d a) := fun w h => by
  cases h; have := bitCode_le n; omega
theorem redi (n : Bool) (d : BitVec 7) (a : BitVec 7) : Statement (.redi n d a) := fun w h => by
  cases h; have := bitCode_le n; omega
theorem redf (n : Bool) (d : BitVec 7) (a : BitVec 7) : Statement (.redf n d a) := fun w h => by
  cases h; have := bitCode_le n; omega
theorem redmaxf (n : Bool) (d : BitVec 7) (a : BitVec 7) : Statement (.redmaxf n d a) := fun w h => by
  cases h; have := bitCode_le n; omega
theorem redminf (n : Bool) (d : BitVec 7) (a : BitVec 7) : Statement (.redminf n d a) := fun w h => by
  cases h; have := bitCode_le n; omega
theorem cnfl (n : Bool) (d : BitVec 7) (a : BitVec 7) : Statement (.cnfl n d a) := fun w h => by
  cases h; have := bitCode_le n; omega
theorem kand (d : BitVec 4) (a : BitVec 4) (b : BitVec 4) : Statement (.kand d a b) := fun w h => by
  cases h; omega
theorem kor (d : BitVec 4) (a : BitVec 4) (b : BitVec 4) : Statement (.kor d a b) := fun w h => by
  cases h; omega
theorem kxor (d : BitVec 4) (a : BitVec 4) (b : BitVec 4) : Statement (.kxor d a b) := fun w h => by
  cases h; omega
theorem kandn (d : BitVec 4) (a : BitVec 4) (b : BitVec 4) : Statement (.kandn d a b) := fun w h => by
  cases h; omega
theorem knot (d : BitVec 4) (a : BitVec 4) : Statement (.knot d a) := fun w h => by
  cases h; omega
theorem kmov (d : BitVec 4) (a : BitVec 4) : Statement (.kmov d a) := fun w h => by
  cases h; omega
theorem kall (d : BitVec 4) : Statement (.kall d) := fun w h => by
  cases h; omega
theorem kfirst (d : BitVec 4) (a : BitVec 4) : Statement (.kfirst d a) := fun w h => by
  cases h; omega
theorem kgany (d : BitVec 4) (a : BitVec 4) : Statement (.kgany d a) := fun w h => by
  cases h; omega
theorem kzero (d : BitVec 4) : Statement (.kzero d) := fun w h => by
  cases h; omega
theorem kcnt (a : BitVec 4) (s : BitVec 6) : Statement (.kcnt a s) := fun w h => by
  cases h; omega
theorem ktos (k : BitVec 4) (s : BitVec 6) (w : BitVec 5) : Statement (.ktos k s w) := fun w h => by
  cases h; omega
theorem stok (k : BitVec 4) (s : BitVec 6) (w : BitVec 5) : Statement (.stok k s w) := fun w h => by
  cases h; omega
theorem ld (q : BitVec 4) (v : BitVec 7) (b : BitVec 6) (i : BitVec 7) (z : MSize) : Statement (.ld q v b i z) := fun w h => by
  cases h; have := mSize_code_lt z; omega
theorem ldn (q : BitVec 4) (v : BitVec 7) (b : BitVec 6) (i : BitVec 7) (z : NSize) : Statement (.ldn q v b i z) := fun w h => by
  cases h; have := nSize_code_lt z; omega
theorem st (q : BitVec 4) (v : BitVec 7) (b : BitVec 6) (i : BitVec 7) (z : MSize) : Statement (.st q v b i z) := fun w h => by
  cases h; have := mSize_code_lt z; omega
theorem stn (q : BitVec 4) (v : BitVec 7) (b : BitVec 6) (i : BitVec 7) (z : NSize) : Statement (.stn q v b i z) := fun w h => by
  cases h; have := nSize_code_lt z; omega
theorem ldsW (q : BitVec 4) (d : BitVec 6) (b : BitVec 6) (o : BitVec 7) : Statement (.ldsW q d b o) := fun w h => by
  cases h; omega
theorem ldsD (q : BitVec 4) (d : BitVec 6) (b : BitVec 6) (o : BitVec 7) : Statement (.ldsD q d b o) := fun w h => by
  cases h; omega
theorem stsW (q : BitVec 4) (d : BitVec 6) (b : BitVec 6) (o : BitVec 7) : Statement (.stsW q d b o) := fun w h => by
  cases h; omega
theorem stsD (q : BitVec 4) (d : BitVec 6) (b : BitVec 6) (o : BitVec 7) : Statement (.stsD q d b o) := fun w h => by
  cases h; omega
theorem ldsN8 (q : BitVec 4) (d : BitVec 6) (b : BitVec 6) (o : BitVec 7) : Statement (.ldsN8 q d b o) := fun w h => by
  cases h; omega
theorem ldsN16 (q : BitVec 4) (d : BitVec 6) (b : BitVec 6) (o : BitVec 7) : Statement (.ldsN16 q d b o) := fun w h => by
  cases h; omega
theorem stsB8 (q : BitVec 4) (d : BitVec 6) (b : BitVec 6) (o : BitVec 7) : Statement (.stsB8 q d b o) := fun w h => by
  cases h; omega
theorem stsH16 (q : BitVec 4) (d : BitVec 6) (b : BitVec 6) (o : BitVec 7) : Statement (.stsH16 q d b o) := fun w h => by
  cases h; omega
theorem ldh (q : BitVec 4) (v : BitVec 7) (h : BitVec 3) (c : BitVec 7) : Statement (.ldh q v h c) := fun w h => by
  cases h; omega
theorem sth (q : BitVec 4) (v : BitVec 7) (h : BitVec 3) (c : BitVec 7) : Statement (.sth q v h c) := fun w h => by
  cases h; omega
theorem spadd (q : BitVec 4) (v : BitVec 7) (h : BitVec 3) (c : BitVec 7) : Statement (.spadd q v h c) := fun w h => by
  cases h; omega
theorem spiter (q : BitVec 4) (v : BitVec 7) (h : BitVec 3) (s : BitVec 6) : Statement (.spiter q v h s) := fun w h => by
  cases h; omega
theorem sphas (q : BitVec 4) (v : BitVec 7) (h : BitVec 3) (c : BitVec 7) : Statement (.sphas q v h c) := fun w h => by
  cases h; omega
theorem atom (q : BitVec 4) (d : BitVec 7) (a : BitVec 7) (o : AtomOp) (e : Sem) (c : Scope) : Statement (.atom q d a o e c) := fun w h => by
  cases h; have := atomOp_code_lt o; have := sem_code_lt e; have := scope_code_lt c; omega
theorem satom (q : BitVec 4) (d : BitVec 6) (z : Bool) (a : BitVec 6) (o : AtomOp) (e : Sem) (c : Scope) : Statement (.satom q d z a o e c) := fun w h => by
  cases h; have := bitCode_le z; have := atomOp_code_lt o; have := sem_code_lt e; have := scope_code_lt c; omega
theorem wait (q : BitVec 4) (t : BitVec 8) : Statement (.wait q t) := fun w h => by
  cases h; omega
theorem waita (b : BitVec 16) : Statement (.waita b) := fun w h => by
  cases h; omega
theorem yield (q : BitVec 4) (t : BitVec 8) (o : BitVec 10) : Statement (.yield q t o) := fun w h => by
  cases h; omega
theorem phase (s : Scope) : Statement (.phase s) := fun w h => by
  cases h; have := scope_code_lt s; omega
theorem mwait (a : BitVec 6) (b : BitVec 6) (z : Bool) : Statement (.mwait a b z) := fun w h => by
  cases h; have := bitCode_le z; omega
theorem bari (a : BitVec 6) (b : BitVec 6) : Statement (.bari a b) := fun w h => by
  cases h; omega
theorem bara (a : BitVec 6) : Statement (.bara a) := fun w h => by
  cases h; omega
theorem barw (a : BitVec 6) : Statement (.barw a) := fun w h => by
  cases h; omega
theorem kcopy (q : BitVec 4) (s : BitVec 6) (h : BitVec 3) : Statement (.kcopy q s h) := fun w h => by
  cases h; omega
theorem kgath (q : BitVec 4) (s : BitVec 6) (v : BitVec 7) : Statement (.kgath q s v) := fun w h => by
  cases h; omega
theorem kscat (q : BitVec 4) (s : BitVec 6) (v : BitVec 7) : Statement (.kscat q s v) := fun w h => by
  cases h; omega
theorem kpos (q : BitVec 4) (d : BitVec 6) (a : BitVec 6) : Statement (.kpos q d a) := fun w h => by
  cases h; omega
theorem kstop (q : BitVec 4) (a : BitVec 6) : Statement (.kstop q a) := fun w h => by
  cases h; omega
theorem wwr (q : BitVec 4) (a : BitVec 6) (b : BitVec 6) (c : BitVec 6) : Statement (.wwr q a b c) := fun w h => by
  cases h; omega
theorem wsig (q : BitVec 4) (a : BitVec 6) (b : BitVec 6) : Statement (.wsig q a b) := fun w h => by
  cases h; omega
theorem wcnt (q : BitVec 4) (d : BitVec 6) (a : BitVec 6) (r : Bool) : Statement (.wcnt q d a r) := fun w h => by
  cases h; have := bitCode_le r; omega
theorem wwt (a : BitVec 6) (b : BitVec 6) (r : Bool) : Statement (.wwt a b r) := fun w h => by
  cases h; have := bitCode_le r; omega
theorem mma (q : BitVec 4) (t : BitVec 6) (a : BitVec 7) (b : BitVec 7) : Statement (.mma q t a b) := fun w h => by
  cases h; omega
theorem mmaz (q : BitVec 4) (t : BitVec 6) (a : BitVec 7) (b : BitVec 7) : Statement (.mmaz q t a b) := fun w h => by
  cases h; omega
theorem mman (q : BitVec 4) (t : BitVec 6) (a : BitVec 7) (b : BitVec 7) : Statement (.mman q t a b) := fun w h => by
  cases h; omega
theorem aclr (q : BitVec 4) (t : BitVec 6) : Statement (.aclr q t) := fun w h => by
  cases h; omega
theorem acvt (q : BitVec 4) (t : BitVec 6) (d : BitVec 7) (f : Bool) : Statement (.acvt q t d f) := fun w h => by
  cases h; have := bitCode_le f; omega
theorem abq (q : BitVec 4) (t : BitVec 6) (d : BitVec 7) (f : Fmt) : Statement (.abq q t d f) := fun w h => by
  cases h; have := fmt_code_lt f; omega
theorem ast (q : BitVec 4) (t : BitVec 6) (a : BitVec 6) : Statement (.ast q t a) := fun w h => by
  cases h; omega
theorem ald (q : BitVec 4) (t : BitVec 6) (a : BitVec 6) : Statement (.ald q t a) := fun w h => by
  cases h; omega
theorem amrg (q : BitVec 4) (t : BitVec 6) (a : BitVec 6) : Statement (.amrg q t a) := fun w h => by
  cases h; omega
theorem ami (q : BitVec 4) (a : BitVec 6) (b : BitVec 6) : Statement (.ami q a b) := fun w h => by
  cases h; omega
theorem aexp (q : BitVec 4) (t : BitVec 6) (d : BitVec 6) : Statement (.aexp q t d) := fun w h => by
  cases h; omega
theorem bqnt (d : BitVec 7) (a : BitVec 7) (f : Fmt) : Statement (.bqnt d a f) := fun w h => by
  cases h; have := fmt_code_lt f; omega
theorem bdeq (d : BitVec 7) (a : BitVec 7) : Statement (.bdeq d a) := fun w h => by
  cases h; omega
theorem bhdr (d : BitVec 7) (a : BitVec 7) : Statement (.bhdr d a) := fun w h => by
  cases h; omega
theorem tapb (a : BitVec 6) (b : BitVec 6) (c : BitVec 6) (q : BitVec 4) : Statement (.tapb a b c q) := fun w h => by
  cases h; omega
theorem fsel (t : BitVec 6) (a : BitVec 6) (q : BitVec 4) : Statement (.fsel t a q) := fun w h => by
  cases h; omega
theorem tapr (d : BitVec 4) (r : BitVec 4) (s : BitVec 6) (q : BitVec 4) : Statement (.tapr d r s q) := fun w h => by
  cases h; omega
theorem tape (a : BitVec 6) (b : BitVec 6) (c : BitVec 6) (q : BitVec 4) : Statement (.tape a b c q) := fun w h => by
  cases h; omega
theorem tapl (a : BitVec 6) (b : BitVec 6) : Statement (.tapl a b) := fun w h => by
  cases h; omega
theorem taph (d : BitVec 6) (a : BitVec 6) (b : BitVec 6) : Statement (.taph d a b) := fun w h => by
  cases h; omega
theorem sample (d : BitVec 6) (a : BitVec 7) (b : BitVec 6) : Statement (.sample d a b) := fun w h => by
  cases h; omega
theorem topk (d : BitVec 7) (a : BitVec 7) (s : BitVec 6) : Statement (.topk d a s) := fun w h => by
  cases h; omega
theorem mergek (q : BitVec 4) (a : BitVec 6) (b : BitVec 6) (c : BitVec 6) : Statement (.mergek q a b c) := fun w h => by
  cases h; omega
theorem rngu (d : BitVec 7) (a : BitVec 7) (b : BitVec 6) : Statement (.rngu d a b) := fun w h => by
  cases h; omega
theorem lblget (d : BitVec 6) (a : BitVec 7) (b : BitVec 6) : Statement (.lblget d a b) := fun w h => by
  cases h; omega
theorem lbls (d : BitVec 6) (a : BitVec 6) : Statement (.lbls d a) := fun w h => by
  cases h; omega
theorem lblt (k : BitVec 4) (a : BitVec 7) (b : BitVec 6) : Statement (.lblt k a b) := fun w h => by
  cases h; omega
theorem srd (d : BitVec 6) (n : BitVec 8) : Statement (.srd d n) := fun w h => by
  cases h; omega
theorem swr (a : BitVec 6) (n : BitVec 8) : Statement (.swr a n) := fun w h => by
  cases h; omega
theorem gprd (d : BitVec 6) (n : BitVec 6) : Statement (.gprd d n) := fun w h => by
  cases h; omega
theorem gpwr (a : BitVec 6) (n : BitVec 6) : Statement (.gpwr a n) := fun w h => by
  cases h; omega
theorem spext (h : BitVec 3) (a : BitVec 6) (b : BitVec 6) : Statement (.spext h a b) := fun w h => by
  cases h; omega
theorem invl (k : InvlKind) (a : BitVec 6) (b : BitVec 6) : Statement (.invl k a b) := fun w h => by
  cases h; have := invlKind_code_lt k; omega
theorem icinv (a : BitVec 6) (l : Bool) : Statement (.icinv a l) := fun w h => by
  cases h; have := bitCode_le l; omega
theorem imm (v : BitVec 22) : Statement (.imm v) := fun w h => by
  cases h; omega
theorem run (n : BitVec 4) : Statement (.run n) := fun w h => by
  cases h; omega
theorem livev (g : BitVec 6) (b : BitVec 16) : Statement (.livev g b) := fun w h => by
  cases h; omega
theorem lives (c : BitVec 3) (b : BitVec 16) : Statement (.lives c b) := fun w h => by
  cases h; omega
theorem livep (s : BitVec 14) (c : BitVec 8) : Statement (.livep s c) := fun w h => by
  cases h; omega
theorem region : Statement .region := fun w h => by cases h; decide
theorem off (n : BitVec 22) : Statement (.off n) := fun w h => by
  cases h; omega
theorem mod (p : CachePol) (t : Bool) (r : Rounding) : Statement (.mod p t r) := fun w h => by
  cases h; have := bitCode_le t; have := cachePol_code_lt p; have := rounding_code_lt r; omega
theorem prio (c : BitVec 3) : Statement (.prio c) := fun w h => by
  cases h; omega
theorem dlyEnd : Statement .dlyEnd := fun _ h => nomatch h
theorem teamExitComplete : Statement .teamExitComplete := fun _ h => nomatch h
theorem callRecordPost : Statement .callRecordPost := fun _ h => nomatch h
theorem callgReply : Statement .callgReply := fun _ h => nomatch h
theorem waitSatisfied : Statement .waitSatisfied := fun _ h => nomatch h
theorem yieldReactivate : Statement .yieldReactivate := fun _ h => nomatch h
theorem phaseReleaseDone : Statement .phaseReleaseDone := fun _ h => nomatch h
theorem mwaitWake : Statement .mwaitWake := fun _ h => nomatch h
theorem barwRelease : Statement .barwRelease := fun _ h => nomatch h
theorem kuduIteration : Statement .kuduIteration := fun _ h => nomatch h
theorem kuduCommandComplete : Statement .kuduCommandComplete := fun _ h => nomatch h
theorem streamResume : Statement .streamResume := fun _ h => nomatch h
theorem wwtRelease : Statement .wwtRelease := fun _ h => nomatch h
theorem senderCounterAdvance : Statement .senderCounterAdvance := fun _ h => nomatch h
theorem windowWriteArrival : Statement .windowWriteArrival := fun _ h => nomatch h
theorem wsigArrival : Statement .wsigArrival := fun _ h => nomatch h
theorem matrixOperation : Statement .matrixOperation := fun _ h => nomatch h
theorem mergeTileApply : Statement .mergeTileApply := fun _ h => nomatch h
theorem fselFeed : Statement .fselFeed := fun _ h => nomatch h
theorem taprEvaluation : Statement .taprEvaluation := fun _ h => nomatch h
theorem tapeEvaluation : Statement .tapeEvaluation := fun _ h => nomatch h
theorem mergekComplete : Statement .mergekComplete := fun _ h => nomatch h
theorem invlComplete : Statement .invlComplete := fun _ h => nomatch h
theorem icinvComplete : Statement .icinvComplete := fun _ h => nomatch h
theorem pairLinkExchange : Statement .pairLinkExchange := fun _ h => nomatch h
theorem loadCompletion : Statement .loadCompletion := fun _ h => nomatch h
theorem storePerformed : Statement .storePerformed := fun _ h => nomatch h
theorem atomicPerformed : Statement .atomicPerformed := fun _ h => nomatch h
theorem arborOperation : Statement .arborOperation := fun _ h => nomatch h
theorem pageWalk : Statement .pageWalk := fun _ h => nomatch h
theorem translationFaultResolve : Statement .translationFaultResolve := fun _ h => nomatch h
theorem migrationStart : Statement .migrationStart := fun _ h => nomatch h
theorem migrationEnd : Statement .migrationEnd := fun _ h => nomatch h
theorem teamCreate : Statement .teamCreate := fun _ h => nomatch h
theorem compaction : Statement .compaction := fun _ h => nomatch h
theorem activeSetEviction : Statement .activeSetEviction := fun _ h => nomatch h
theorem progressSwap : Statement .progressSwap := fun _ h => nomatch h
theorem save : Statement .save := fun _ h => nomatch h
theorem fullSave : Statement .fullSave := fun _ h => nomatch h
theorem teamRestore : Statement .teamRestore := fun _ h => nomatch h
theorem trapEntry : Statement .trapEntry := fun _ h => nomatch h
theorem graphReplayStart : Statement .graphReplayStart := fun _ h => nomatch h
theorem kernelNodeStart : Statement .kernelNodeStart := fun _ h => nomatch h
theorem commitNode : Statement .commitNode := fun _ h => nomatch h
theorem doorbellTailWrite : Statement .doorbellTailWrite := fun _ h => nomatch h
theorem registerWrite : Statement .registerWrite := fun _ h => nomatch h
theorem hostReadBar4 : Statement .hostReadBar4 := fun _ h => nomatch h
theorem hostWriteBar4 : Statement .hostWriteBar4 := fun _ h => nomatch h
theorem launch : Statement .launch := fun _ h => nomatch h
theorem replay : Statement .replay := fun _ h => nomatch h
theorem patch : Statement .patch := fun _ h => nomatch h
theorem copy : Statement .copy := fun _ h => nomatch h
theorem fill : Statement .fill := fun _ h => nomatch h
theorem signal : Statement .signal := fun _ h => nomatch h
theorem waitv : Statement .waitv := fun _ h => nomatch h
theorem waitvMatch : Statement .waitvMatch := fun _ h => nomatch h
theorem invlPageCommand : Statement .invlPageCommand := fun _ h => nomatch h
theorem invlAsidCommand : Statement .invlAsidCommand := fun _ h => nomatch h
theorem invlPartitionCommand : Statement .invlPartitionCommand := fun _ h => nomatch h
theorem qset : Statement .qset := fun _ h => nomatch h
theorem partCreate : Statement .partCreate := fun _ h => nomatch h
theorem partHalt : Statement .partHalt := fun _ h => nomatch h
theorem partReset : Statement .partReset := fun _ h => nomatch h
theorem fmap : Statement .fmap := fun _ h => nomatch h
theorem origin : Statement .origin := fun _ h => nomatch h
theorem policy : Statement .policy := fun _ h => nomatch h
theorem clear : Statement .clear := fun _ h => nomatch h
theorem clearComplete : Statement .clearComplete := fun _ h => nomatch h
theorem spnew : Statement .spnew := fun _ h => nomatch h
theorem graph : Statement .graph := fun _ h => nomatch h
theorem windowRegister : Statement .windowRegister := fun _ h => nomatch h
theorem windowDeregister : Statement .windowDeregister := fun _ h => nomatch h
theorem peer : Statement .peer := fun _ h => nomatch h
theorem peerBindComplete : Statement .peerBindComplete := fun _ h => nomatch h
theorem samplerEnable : Statement .samplerEnable := fun _ h => nomatch h
theorem samplerDisable : Statement .samplerDisable := fun _ h => nomatch h
theorem samplerTick : Statement .samplerTick := fun _ h => nomatch h
theorem queryPartition : Statement .queryPartition := fun _ h => nomatch h
theorem queryQuote : Statement .queryQuote := fun _ h => nomatch h
theorem restore : Statement .restore := fun _ h => nomatch h
theorem map : Statement .map := fun _ h => nomatch h
theorem fwload : Statement .fwload := fun _ h => nomatch h
theorem halt : Statement .halt := fun _ h => nomatch h
theorem resume : Statement .resume := fun _ h => nomatch h
theorem dumpOneTeam : Statement .dumpOneTeam := fun _ h => nomatch h
theorem dumpEveryTeam : Statement .dumpEveryTeam := fun _ h => nomatch h
theorem dbgset : Statement .dbgset := fun _ h => nomatch h
theorem errlog : Statement .errlog := fun _ h => nomatch h
theorem throttle : Statement .throttle := fun _ h => nomatch h
theorem frzN : Statement .frzN := fun _ h => nomatch h
theorem freeze : Statement .freeze := fun _ h => nomatch h
theorem thaw : Statement .thaw := fun _ h => nomatch h
theorem debugPortAccess : Statement .debugPortAccess := fun _ h => nomatch h
theorem packageReset : Statement .packageReset := fun _ h => nomatch h
theorem linkDown : Statement .linkDown := fun _ h => nomatch h
theorem matrixSelfTest : Statement .matrixSelfTest := fun _ h => nomatch h
theorem powerControl : Statement .powerControl := fun _ h => nomatch h
theorem patrolScrub : Statement .patrolScrub := fun _ h => nomatch h
theorem softError : Statement .softError := fun _ h => nomatch h
theorem hostMemoryWrite : Statement .hostMemoryWrite := fun _ h => nomatch h
theorem partitionResetComplete : Statement .partitionResetComplete := fun _ h => nomatch h

end Sys2Proof.Laws.Encoding
end

