-- ==== Sys2Proof/Tests/Slice0.lean ====
section
/-! SUPPORT. Tests: ill-formed terms, words written out from the manual's encodings, one step of each kind, and for each statement a state and
operands that meet all its hypotheses. -/
set_option maxRecDepth 4000
set_option Elab.async false
namespace Sys2Proof.Tests
open Machine Safety

/-! ### Small states -/

/-- Bytes placed from an address on. -/
def put (a : Nat) (bs : List Byte) (m : List Host.Cell) : List Host.Cell := (bs.foldl (fun p b => (memSet p.1 p.2 b, p.2 + 1)) (m, a)).1

/-- Pages 1 to 10 of partition 0, in frames 0 to 9: code, three plain pages, one with a ceiling, one with described blocks, two of sparse nodes, one for
merge tiles, one that may only be read. -/
def frames : SMap Frame :=
  let f : Frame := { v := true, perm := 15, ceil := 0xFFFFFFFF }
  [(0, { f with vpn := 1 }), (1, { f with vpn := 2 }), (2, { f with vpn := 3 }), (3, { f with vpn := 4 }), (4, { f with vpn := 5, ceil := 3 }),
   (5, { f with vpn := 6, cls := 1 }), (6, { f with vpn := 7, cls := 2 }), (7, { f with vpn := 8, cls := 2 }), (8, { f with vpn := 9, mi := true }),
   (9, { f with vpn := 10, perm := 9 })]

/-- Partition 0 runs on cores 0 to 3 with every origin registered; frames are numbered as they lie; extent 1 is host memory. Queue 100 is no
partition's, privileged, of four entries from 0xA0000, with one posted. -/
def fw : Fw :=
  { parts := [(0, { state := 1, pairs := 3, origins := 0xFFFFFFFF, qbase := 1, qcount := 8 })]
    fmaps := [(0, { perm := 15, count := 64, hbase := 0, gbase := 0 })]
    anchors := frames.foldl (fun m p => mset anchorDefault m (walkHash 0 0 p.2.vpn.toNat) (entLink p.1)) []
    queues := [(100, { tail := 1, state := 1, log2 := 2, base := 0x2800, vec := 3, priv := true })]
    peers := [(1, { bound := true, digest := 5 })]
    bars := true }

/-- A team of partition 0 on core 0: 64 lanes in groups of 32, the lanes of m active. -/
def team (m : Mask) : Team := { placedTeam 1 (placedAt []) with regs := { k := [(0, m)] } }

/-- The machine with that team, and what an event acts on. -/
def st (t : Team) (a : EventArgs := { tid := 1 }) : State := { fw, dev := { cur := t, nextKey := 2, frames }, args := a }

/-- An entry of queue 100: its code and operands, by offset and length; tag 7, no completion word. -/
def entry (code : Nat) (ops : List (Nat × Nat × Nat)) : List Byte := packBytes 64 ((0, 1, code) :: (4, 4, 7) :: ops)

/-- The machine with that entry posted and other bytes in memory. -/
def host (bs : List Byte) (mem : List Host.Cell := []) : State :=
  let s := st (team 1) { q := 100 }
  { s with dev := { s.dev with mem := put 0xA0000 bs mem } }

/-- The same with the entry in queue 2, partition 0's own with privilege. -/
def hostP (bs : List Byte) (mem : List Host.Cell := []) : State :=
  let s := host bs mem
  { s with args := { q := 2 }, fw := { fw with queues := [(2, { tail := 1, state := 1, log2 := 2, base := 0x2800, vec := 3, priv := true })] } }

/-- An operation of token 3, and the machine at an event about it in a team with it alone; `mem` is memory, `n` the event's lane or row. -/
def op (k : OpKind) : Op := { id := 1, q := some 3, pc := 0x10000, first := 0x10000, kind := k }
def pend (k : OpKind) (n : Nat := 0) (t : Team := team 1) (mem : List Host.Cell := []) : State :=
  let s := st { t with ops := [op k], nextOp := 2 } { tid := 1, op := 1, n }
  { s with dev := { s.dev with mem } }

/-- One lane's access of 4 bytes to page 2, and to the scratchpad. -/
def acc (l off : Nat) : Acc := { lane := l, va := BitVec.ofNat 64 (0x20000 + off), tgt := .mem (0x10000 + off) 1 true, len := 4, data := 0xA0B0C0D0, lbl := 2, albl := 4 }
def accS (l off : Nat) : Acc := { acc l off with va := BitVec.ofNat 64 (0xFFFFF00000000000 + off), tgt := .scr 0 off }

/-- A sparse tree of two shards and five nodes: its handle, with the root table from 0x70000 and the nodes from 0x80000; memory with it as SPNEW
leaves it, and with key 7 stored. -/
def tree : SparseNew :=
  { h := { words := [(0, 3 + 256 + 2 ^ 16 + 2 ^ 24 + 4 * 2 ^ 32), (1, 0x70000), (2, 4), (5, 10)], lbl := 1 }, root := 0x70000, pool := 0x80000, n := 5 }
def treeMem : List Host.Cell :=
  [(0x60000, 3), (0x60001, 1), (0x60002, 1), (0x60003, 1), (0x60004, 4), (0x60008, 4), (0x60020, 10), (0x60800, 255), (0x60801, 255),
   (0x60802, 255), (0x60803, 255), (0x60805, 1), (0x60808, 3), (0x61000, 255), (0x61001, 255), (0x61002, 255), (0x61003, 255), (0x61005, 1),
   (0x61008, 2), (0x61802, 8), (0x61808, 3), (0x62801, 3), (0x62802, 8), (0x62808, 2), (0x70008, 1), (0x70108, 2), (0x70208, 255),
   (0x70209, 255), (0x7020A, 255), (0x7020B, 255), (0x70303, 1), (0x70308, 1), (0x70403, 1), (0x70408, 255), (0x70409, 255), (0x7040A, 255),
   (0x7040B, 255)]
def stored : List Host.Cell :=
  [(0x60000, 3), (0x60001, 1), (0x60002, 1), (0x60003, 1), (0x60004, 4), (0x60008, 4), (0x60020, 10), (0x60800, 255), (0x60801, 255),
   (0x60802, 255), (0x60803, 255), (0x60805, 1), (0x60808, 3), (0x61004, 1), (0x61005, 1), (0x61008, 1), (0x6100C, 1), (0x61010, 1),
   (0x61802, 8), (0x61808, 3), (0x62801, 3), (0x62802, 8), (0x62808, 2), (0x70008, 1), (0x70108, 2), (0x70208, 255), (0x70209, 255),
   (0x7020A, 255), (0x7020B, 255), (0x70300, 1), (0x70301, 1), (0x70303, 1), (0x70308, 7), (0x70310, 77), (0x70403, 1), (0x70408, 255),
   (0x70409, 255), (0x7040A, 255), (0x7040B, 255)]

/-- A feature tensor (R163), empty; a tap descriptor at 0x20000 with its tensor's descriptor behind it, thresholds from 0x30000, rules at 0x40000,
the row map at 0x30800 and the hold array at 0x30400. -/
def feat : SparseNew :=
  { h := { words := [(0, 3 + 4 * 256 + 2 ^ 24 + 4 * 2 ^ 32), (1, 0x70000), (2, 4096 + 2 ^ 24 * 2 ^ 32), (3, 64 + 2 ^ 17 * 2 ^ 32), (5, 12 + 24 * 2 ^ 6 + 6 * 2 ^ 12 + 17 * 2 ^ 18)] },
    root := 0x70000, pool := 0x80000, n := 6 }
def tap : List Byte :=
  packBytes 128 [(16, 8, 0x30000), (24, 8, 0x20080), (32, 8, 0x40000), (40, 8, 0x30800), (48, 8, 0x30400), (56, 4, 64), (60, 2, 4), (62, 1, 5)]
def tapMem (m : List Host.Cell) : List Host.Cell := m.foldl (fun a c => memSet a c.1 c.2)
  [(0x10012, 3), (0x10018, 128), (0x1001A, 2), (0x10022, 4), (0x10029, 8), (0x1002A, 3), (0x10031, 4), (0x10032, 3), (0x10038, 64),
   (0x1003C, 4), (0x1003E, 5), (0x10080, 3), (0x10081, 4), (0x10083, 1), (0x10084, 4), (0x1008A, 7), (0x10091, 16), (0x10097, 1),
   (0x10098, 64), (0x1009E, 2), (0x100A8, 12), (0x100A9, 102), (0x100AA, 68), (0x60000, 3), (0x60001, 4), (0x60003, 1), (0x60004, 4),
   (0x60009, 16), (0x6000F, 1), (0x60010, 64), (0x60016, 2), (0x60020, 12), (0x60021, 102), (0x60022, 68), (0x60800, 255), (0x60801, 255),
   (0x60802, 255), (0x60803, 255), (0x60805, 1), (0x60808, 3), (0x61000, 255), (0x61001, 255), (0x61002, 255), (0x61003, 255), (0x61005, 1),
   (0x61008, 3), (0x61802, 8), (0x61808, 3), (0x62801, 3), (0x62802, 8), (0x62808, 3), (0x70008, 1), (0x70108, 2), (0x70208, 255),
   (0x70209, 255), (0x7020A, 255), (0x7020B, 255), (0x70303, 1), (0x70308, 1), (0x70403, 1), (0x70408, 2), (0x70503, 1), (0x70508, 255),
   (0x70509, 255), (0x7050A, 255), (0x7050B, 255)]
def desc : TapDesc := tapFields 0x20000 (leNat tap)

/-- Operands of an MMA: a block of format 1 in lane 0 at vr0, and one in column 0 at vr16; the other rows and columns are zero blocks. -/
def mmaTeam (x : Tile) : Team :=
  { team 1 with
    decl := { lanes := 64, group := 32, vregs := 32, acc := 4, scratch := 256 }
    regs :=
      { v := [(0, { val := 0x35427F01, lbl := 1 }), (1024, { val := 0x12345671, lbl := 1 }), (16384, { val := 0x21437E01, lbl := 2 }), (17408, { val := 0x31527463, lbl := 2 })]
        k := [(0, 1)]
        labels := [(1, 8), (2, 1)]
        tiles := [(2, x)] } }

/-- A state for words: addresses in s1 to s5, counts in s6 to s9, a tap descriptor and a row in s10 and s11, window 9 of peer 1 in s14; index offsets
in vr1, addresses in vr2; blocks of format 1 in vr8 and vr9; a handle of each type; lanes 0 to 7 active. -/
def wordTeam : Team :=
  { team 0xFF with
    decl := { lanes := 64, group := 32, vregs := 64, scratch := 40000, acc := 4, handler := 0x10100 }
    gp := some ([(3, 77)], [(3, 2)])
    regs :=
      { s := [(1, { val := 0x30000, lbl := 1 }), (2, { val := 0xFFFFF00000000000 }), (3, { val := 0xFFFFF80000000000 }), (4, { val := 0x10080 }),
              (5, { val := 0x90000, lbl := 2 }), (6, { val := 5, lbl := 1 }), (7, { val := 16 }), (8, { val := 1 + 2 ^ 32 }), (9, { val := 1000 }),
              (10, { val := 0x20000 }), (11, { val := 7 }), (12, { val := 0x40000 }), (13, { val := 0x3C20000001 }), (14, { val := 0x0001000900000000 }), (15, { val := 0x80000 }), (16, { val := 3 * 2 ^ 32 })]
        v := (List.range 8).map (fun l => (1024 + l, { val := BitVec.ofNat 32 (4 * l), lbl := if l = 3 then 2 else 0 })) ++
          (List.range 8).map (fun l => (2048 + l, { val := BitVec.ofNat 32 (0x30000 + 4 * l) })) ++ (List.range 8).map (fun l => (8192 + l, { val := 0x35427F01, lbl := 1 })) ++ (List.range 8).map fun l => (9216 + l, { val := 0x12345671 })
        k := [(0, 0xFF), (1, 5), (2, 0x70)]
        labels := [(1, 1), (2, 6)]
        hnd := [(1, { words := [(0, 1 + 256), (1, 0x20000), (2, 4), (5, 4)], lbl := 2 }),
                (2, { words := [(0, 2 + 2 * 256 + 3 * 2 ^ 16), (1, 0x60000), (2, 4 + 16 * 2 ^ 32), (5, 64)], lbl := 2 }), (3, { tree.h with lbl := 1 })] } }
def wordState : State :=
  let s := st wordTeam
  { s with dev := { s.dev with windows := [(9, { base := 0x20000, len := 4096, reg := true })] } }

/-- The same with a tap session open, and the tap descriptor in memory. -/
def tapState : State :=
  let s := wordState
  { s with dev := { s.dev with cur := { s.dev.cur with sessions := [{ id := 1, sc := 0x10000, desc := desc }] }, mem := tapMem [] } }

/-- The same as a paired team, whose halves have not met. -/
def wordPaired : State :=
  { wordState with dev := { wordState.dev with cur := { wordState.dev.cur with runs := wordState.dev.cur.runs ++ wordState.dev.cur.runs, decl := { wordState.dev.cur.decl with lanes := 1024 } } } }


/-! ### Helpers -/

theorem got {α : Type} {o : Option α} (h : o.isSome = true) : o = some (o.get h) := (Option.some_get h).symm

theorem gotP {α β : Type} {o : Option (α × β)} (h : o.isSome = true) : o = some ((o.get h).1, (o.get h).2) := got h

theorem gott {α β γ : Type} {o : Option (α × β × γ)} (h : o.isSome = true) : o = some ((o.get h).1, (o.get h).2.1, (o.get h).2.2) := got h

theorem gotq {α β γ δ : Type} {o : Option (α × β × γ × δ)} (h : o.isSome = true) : o = some ((o.get h).1, (o.get h).2.1, (o.get h).2.2.1, (o.get h).2.2.2) := got h

/-- What a computation that has not failed gives. -/
def exGet {ε α : Type} (e : Except ε α) (h : e.toOption.isSome = true) : α := e.toOption.get h
theorem exGot {ε α : Type} {e : Except ε α} (h : e.toOption.isSome = true) : e = .ok (exGet e h) := by
  cases e with
  | ok a => rfl
  | error x => cases h
def exGetP {ε α β : Type} (e : Except ε α × β) (h : e.1.toOption.isSome = true) : α × β := (exGet e.1 h, e.2)
theorem exGotP {ε α β : Type} {e : Except ε α × β} (h : e.1.toOption.isSome = true) : e = (.ok (exGetP e h).1, (exGetP e h).2) :=
  Prod.ext (exGot h) rfl

theorem pending_of {s u : State} {o : Op}
    (h : acting s = some u ∧ u.dev.cur.op s.args.op = some o ∧ o.done = false ∧ (o.q.all fun q => decide (q < 16)) = true ∧ o.clob = [] ∧
      (u.dev.cur.olds (.spec 0x20) = [] ∧ u.dev.cur.sp.dbgctl.getLsbD 0 = false ∨ u.dev.cur.sp.handling = true)) : Pending s u o := by
  refine ⟨h.1, h.2.1, h.2.2.1, fun q e => ?_, h.2.2.2.2.1, h.2.2.2.2.2⟩
  have := h.2.2.2.1
  rw [e] at this
  simpa using this

theorem taken_of {i : Instr} {s : State} {bs : List Byte} (h : s.args.op = 0 ∧ nextEntry s.fw s.dev s.args.q = some bs ∧ entryInstr bs = some i ∧
    queueTurn s.fw s.dev s.args.q = true ∧ compOk s.fw s.dev (queuePart s) (cmdOf s bs).comp = true ∧ fieldAt bs 1 1 < 4 ∧ fieldAt bs 2 2 = 0 ∧
    ((commandForm i).all fun x => x.1.ok s.fw s.args.q && namedOnly (bs.drop 16) x.2) = true ∧ (s.dev.frames.any fun p => p.2.mig != 0) = false) :
    Taken i s bs := by
  obtain ⟨h1, h2, h3, h4, h5, h6, h7, h8, h9⟩ := h
  refine ⟨⟨h1, h2, h3, h4, h5⟩, ⟨h6, h7⟩, fun x e => ?_, fun x e => ?_, h9⟩ <;> rw [e] at h8 <;> simp only [Option.all_some, Bool.and_eq_true] at h8
  · exact h8.1
  · exact h8.2

theorem fits_of {u : State} {rows : List (Nat × OSet × List (Nat × Word))} (h : (rows.map (·.1)).Nodup ∧ (∀ x ∈ rows, x.1 < 1024) ∧
    (∀ x ∈ rows, x.2.2 ≠ [] ∧ (x.2.2.map (·.1)).Nodup ∧ ∀ y ∈ x.2.2, y.1 < 124) ∧
    (allocLanes u.dev.cur.regs.labels (rows.map fun x => (x.1, x.2.1))).2.2.1 = []) : Fits u rows := ⟨⟨h.1, h.2.1⟩, h.2.2.1, h.2.2.2⟩

def xlGet (x : Xl) (h : (match x with | .ok _ => true | _ => false) = true) : TlbEnt :=
  match x, h with
  | .ok e, _ => e
theorem xlGot {x : Xl} (h : (match x with | .ok _ => true | _ => false) = true) : x = .ok (xlGet x h) := by
  cases x with
  | ok e => rfl
  | _ => cases h
def xlGetP {β : Type} (x : Xl × β) (h : (match x.1 with | .ok _ => true | _ => false) = true) : TlbEnt × β := (xlGet x.1 h, x.2)
theorem xlGotP {β : Type} {x : Xl × β} (h : (match x.1 with | .ok _ => true | _ => false) = true) : x = (.ok (xlGetP x h).1, (xlGetP x h).2) :=
  Prod.ext (xlGot h) rfl

theorem not_trap {x : Wait} (h : (match x with | .trap _ => false | _ => true) = true) : ∀ w, x ≠ .trap w := by
  rintro w rfl
  cases h

theorem not_exit {x : Wait} (h : (match x with | .exit _ _ => false | _ => true) = true) : ∀ st tr, x ≠ .exit st tr := by
  rintro st tr rfl
  cases h

theorem row_of {u : State} {o : Op} {c : Kudu} {x : KuduDesc} {n : Nat} {bs : List (Byte × OSet)} {src : List Piece} {p : Piece}
    (h : (c.rd = some x ∧ c.stale = false ∧ c.suspended = false ∧ c.fault = none) ∧ rowOpen c x n = true ∧ rowFree c x n = true ∧
      ((rowRead u.fw u.dev o c x n).1 = .bytes bs src ∧ rowReady (rowRead u.fw u.dev o c x n).2 o src = true ∧
        (engineRange u.fw (kuduDstNeed x) true (rowAddrs c x n).2 x.len (rowRead u.fw u.dev o c x n).2).1.toOption = some [p] ∧
        (pinOp (engineRange u.fw (kuduDstNeed x) true (rowAddrs c x n).2 x.len (rowRead u.fw u.dev o c x n).2).2 o.id (pieceEnts (src ++ [p]))).isSome = true) ∧
      (p.off = 0 ∧ p.len = bs.length ∧ p.host = false ∧ p.admits (joinOf bs) = true) ∧ (c.kind = .copy ∨ c.perf = []) ∧
      u.dev.badU = [] ∧ u.dev.badCorr = [] ∧ u.dev.cur.badS = [] ∧ u.dev.cur.badV = []) : RowOk u o c x n bs src p := by
  obtain ⟨h1, h2, h3, ⟨h4, h5, h6, h7⟩, h8, h9, h10⟩ := h
  refine ⟨h1, h2, h3, ⟨_, _, Prod.ext h4 rfl, h5, Prod.ext ?_ rfl, h7⟩, h8, h9, h10⟩
  generalize (engineRange u.fw (kuduDstNeed x) true (rowAddrs c x n).2 x.len (rowRead u.fw u.dev o c x n).2).1 = e at h6
  cases e with
  | ok l => exact congrArg Except.ok (Option.some.inj h6)
  | error y => cases h6

def consGet {α : Type} (l : List α) (h : l ≠ []) : α × List α := (l.head h, l.tail)
theorem consGot {α : Type} {l : List α} (h : l ≠ []) : l = (consGet l h).1 :: (consGet l h).2 := (List.cons_head_tail h).symm
def resGet (x : Res) (h : (match x with | .ok _ (some _) => true | _ => false) = true) : Target × TlbEnt :=
  match x, h with
  | .ok t (some e), _ => (t, e)
theorem resGot {x : Res} (h : (match x with | .ok _ (some _) => true | _ => false) = true) : x = .ok (resGet x h).1 (some (resGet x h).2) := by
  match x, h with
  | .ok t (some e), _ => rfl

def nextOf : Host.Outcome State Fault Refusal → Option State
  | .next t => some t
  | _ => none
def nextGet (x : Host.Outcome State Fault Refusal) (h : (nextOf x).isSome = true) : State := (nextOf x).get h
theorem nextGot {x : Host.Outcome State Fault Refusal} (h : (nextOf x).isSome = true) : x = .next (nextGet x h) := by
  cases x <;> first | rfl | cases h

def wordOf : Fetched → Option (Nat × Dev)
  | .word w d => some (w, d)
  | _ => none
def wordGet (x : Fetched) (h : (wordOf x).isSome = true) : Nat × Dev := (wordOf x).get h
theorem wordGot {x : Fetched} (h : (wordOf x).isSome = true) : x = .word (wordGet x h).1 (wordGet x h).2 := by
  cases x <;> first | rfl | cases h

/-- No frame is pinned or moves where none is mapped. -/
theorem canPin_bare {d : Dev} (h : d.frames = []) (es : List Nat) : canPin d es = true := by
  refine List.all_eq_true.mpr fun e _ => ?_
  have : d.frame e = {} := by unfold Dev.frame; rw [h]; rfl
  rw [this]
  rfl

theorem free_of {o : Option Nat} {w : Fw} {d : Dev} {p : Nat} (h : (o.all fun x => !takenBy w d p x) = true) : ∀ x, o = some x → takenBy w d p x = false := by
  rintro x rfl
  simpa using h

theorem triples_of {l : List (Nat × Nat × Nat)} {P : Nat → Nat → Nat → Prop} [∀ a b c, Decidable (P a b c)]
    (h : (l.all fun t => decide (P t.1 t.2.1 t.2.2)) = true) : ∀ a b c, (a, b, c) ∈ l → P a b c :=
  fun _ _ _ ht => of_decide_eq_true (List.all_eq_true.mp h _ ht)

theorem clear_of {rs : List (Want × Res)} (h : (rs.all fun r => match r.2 with | .refused _ _ => false | .missing _ => false | _ => true) = true) :
    ∀ r ∈ rs, (∀ a b, r.2 ≠ .refused a b) ∧ ∀ a, r.2 ≠ .missing a := by
  intro r hr
  have := List.all_eq_true.mp h r hr
  refine ⟨fun a b e => ?_, fun a e => ?_⟩ <;> rw [e] at this <;> cases this

theorem pages_of {l : List (Nat × Option Nat)} {f : Nat × Option Nat → Except Nat TlbEnt}
    (h : (l.all fun x => match f x with | .ok e => x.2.all (e.cls.toNat == ·) | .error _ => false) = true) :
    ∀ x ∈ l, ∃ e, f x = .ok e ∧ ∀ c, x.2 = some c → e.cls.toNat = c := by
  intro x hx
  have := List.all_eq_true.mp h x hx
  cases hf : f x with
  | ok e =>
    rw [hf] at this
    exact ⟨e, rfl, fun c hc => by rw [hc] at this; simpa using this⟩
  | error y => rw [hf] at this; cases this

/-- No core of the partition, of a package's 256, has room. -/
theorem full_of {w : Fw} {p : Nat} {P : Nat → Bool} (h : ((List.range 256).all fun c => !w.hasCore p c || !P c) = true) : ∀ c, w.hasCore p c = true → P c = false := by
  intro c hc
  have : c < 256 := by
    unfold Fw.hasCore at hc
    by_cases hl : c / 2 < 128
    · omega
    · rw [BitVec.getLsbD_of_ge _ _ (by omega)] at hc; cases hc
  simpa [hc] using List.all_eq_true.mp h c (List.mem_range.mpr this)

/-- `sound` of a machine whose memory nothing has changed, as it computes. -/
def soundB (u : State) (a : Acc) : Bool :=
  decide (u.dev.cur.badV = [] ∧ u.dev.cur.badS = [] ∧ u.dev.hist = []) && match a.tgt with
    | .mem pa _ _ => !badAt u.dev pa a.len
    | _ => true
theorem settled_of {u : State} {o : Op} (h : u.dev.hist = []) : acquiredAll u o := fun b x hx => by rw [h] at hx; cases hx
theorem soundB_gives {u : State} {o : Op} {pol : CachePol} {a : Acc} (h : soundB u a = true) : sound u o pol a := by
  simp only [soundB, Bool.and_eq_true, decide_eq_true_eq] at h
  obtain ⟨⟨h1, h2, h3⟩, h4⟩ := h
  refine ⟨h1, h2, ?_⟩
  cases ht : a.tgt with
  | mem pa e cached =>
    rw [ht] at h4
    exact ⟨by simpa using h4, .inr (.inr fun b _ _ => settled_of h3 b)⟩
  | _ => trivial
theorem acquired_of {u : State} {o : Op} (h : u.dev.hist = []) : acquiredAll u o := settled_of h
theorem lim_of {s : State} (h : s.dev.hist = []) : limAcquired s := fun b x hx => by rw [h] at hx; cases hx
theorem sound_of {u : State} {o : Op} {pol : CachePol} {as : List Acc} (h : (as.all (soundB u)) = true) : ∀ a ∈ as, sound u o pol a :=
  fun _ ha => soundB_gives (List.all_eq_true.mp h _ ha)


/-! ### Ill-formed terms (R233, R241, R242), one for each check -/

theorem test_wf_vector_destination : Instr.wf (.vadd false 124 0 0) = false ∧ Instr.wf (.fadd true 126 1 2) = false ∧ Instr.wf (.vadd false 127 0 0) = true := by decide
theorem test_wf_ranges : Instr.wf (.ld 0 122 4 9 .x) = false ∧ Instr.wf (.ld 0 120 4 9 .x) = true ∧ Instr.wf (.st 0 109 4 9 .blk) = false ∧
    Instr.wf (.callg 0 123 4) = false ∧ Instr.wf (.spiter 0 121 0 4) = false ∧ Instr.wf (.kgath 0 4 124) = false ∧ Instr.wf (.kscat 0 4 127) = false := by decide
theorem test_wf_latches : Instr.wf (.ld 0 125 4 9 .w) = false ∧ Instr.wf (.ld 0 5 4 125 .w) = false ∧ Instr.wf (.ldn 0 124 4 9 .i8) = false ∧
    Instr.wf (.stn 0 5 4 126 .n16) = false ∧ Instr.wf (.ldh 0 125 0 4) = false ∧ Instr.wf (.sth 0 5 0 127) = false ∧ Instr.wf (.spadd 0 124 0 4) = false ∧
    Instr.wf (.sphas 0 5 0 125) = false := by decide
theorem test_wf_tiles : Instr.wf (.mma 0 48 0 16) = false ∧ Instr.wf (.mmaz 0 0 109 16) = false ∧ Instr.wf (.mman 0 0 0 117) = false ∧ Instr.wf (.aclr 0 48) = false ∧
    Instr.wf (.acvt 0 0 109 false) = false ∧ Instr.wf (.acvt 0 0 109 true) = true ∧ Instr.wf (.abq 0 43 0 .e2m1) = false ∧ Instr.wf (.ast 0 48 1) = false ∧
    Instr.wf (.ald 0 48 1) = false ∧ Instr.wf (.amrg 0 48 1) = false ∧ Instr.wf (.aexp 0 48 1) = false ∧ Instr.wf (.fsel 48 1 0) = false := by decide
theorem test_wf_blocks : Instr.wf (.bqnt 109 0 .i8) = false ∧ Instr.wf (.bqnt 0 101 .i8) = false ∧ Instr.wf (.bdeq 77 0) = false ∧ Instr.wf (.bhdr 124 0) = false ∧
    Instr.wf (.topk 123 0 0) = false ∧ Instr.wf (.topk 0 0 61) = false ∧ Instr.wf (.rngu 0 123 0) = false := by decide
theorem test_wf_other : Instr.wf (.dly 0) = false ∧ Instr.wf (.waita 0) = false ∧ Instr.wf (.vcmp .lo 0 .f32 1 2) = false ∧ Instr.wf (.vcmp .un 0 .i32 1 2) = false ∧
    Instr.wf (.atom 0 123 4 .cas .rlx .core) = false ∧ Instr.wf (.satom 0 62 false 4 .cas .rlx .core) = false ∧ Instr.wf (.satom 0 5 true 4 .fadd .rlx .core) = false ∧
    Instr.wf (.tapr 0 1 4 0) = false ∧ Instr.wf (.tapr 15 1 4 0) = false ∧ Instr.wf (.icinv 1 true) = false ∧ Instr.wf (.livev 8 0) = false ∧ Instr.wf (.livev 7 4096) = false ∧
    Instr.wf (.lives 6 0) = false ∧ Instr.wf (.lives 3 32768) = false := by decide

/-! ### Words of the manual's tables (R247, R252, R260, R264, R270, R276, R277, R289, R293, R309, R315, R318, the "Assembled" tables) -/

theorem test_decode_control : decodeWord 0x07FFFFFE = some (.br (-2)) ∧ decodeWord 0x083FFFFD = some (.bcc .eq (-3)) ∧ decodeWord 0x0E200005 = some (.bknz 1 5) ∧
    decodeWord 0x10000040 = some (.call 64) ∧ decodeWord 0x14000000 = some .ret ∧ decodeWord 0x14490000 = some (.jmpr 9) ∧ decodeWord 0x148A0000 = some (.callr 10) ∧
    decodeWord 0x14C00000 = some .exit ∧ decodeWord 0x15000012 = some (.trap 0x12) ∧ decodeWord 0x15400000 = some .brk ∧ decodeWord 0x15800000 = some .reth ∧
    decodeWord 0x15C8A0C0 = some (.callg 2 20 6) ∧ decodeWord 0x0C000003 = some (.bkz 0 3) ∧ decodeWord 0x00400003 = some (.dly 3) := by decide +kernel
theorem test_decode_scalar : decodeWord 0x205FC008 = some (.saddi 5 63 8) ∧ decodeWord 0x20517FFF = some (.saddi 5 5 (-1)) ∧ decodeWord 0x37F14000 = some (.scmpi 5 0) := by
  decide +kernel
theorem test_decode_vector : decodeWord 0x48020207 = some (.fadd false 8 4 7) ∧ decodeWord 0x48BFC082 = some (.fmul true 127 1 2) ∧
    decodeWord 0x48023E03 = some (.fadd false 8 124 3) ∧ decodeWord 0x481F3E03 = none ∧ decodeWord 0x4142858C = some (.vmad false 10 11 12) ∧
    decodeWord 0x45808000 = some (.vlane false 2) ∧ decodeWord 0x5081C180 = some (.cvtI32F32 false 7 3) ∧ decodeWord 0x51018205 = some (.cvtBf2F32 false 6 4 5) ∧
    decodeWord 0x5C010201 = some (.vaddi false 4 4 1) ∧ decodeWord 0x5C01027F = some (.vaddi false 4 4 (-1)) ∧ decodeWord 0x5E00C000 = some (.vmovi false 3 0) := by
  decide +kernel
theorem test_decode_lanes : decodeWord 0x68008400 = some (.kand 0 2 1) ∧ decodeWord 0x6A804050 = some (.kcnt 1 5) ∧ decodeWord 0x65418280 = some (.scanf false 6 5) ∧
    decodeWord 0x66830500 = some (.cnfl false 12 10) := by decide +kernel
theorem test_decode_memory : decodeWord 0x80828824 = some (.ld 2 5 4 9 .w) ∧ decodeWord 0x84038826 = some (.ldn 0 7 4 9 .i16) ∧ decodeWord 0x88480DFF = some (.st 1 16 6 127 .blk) ∧
    decodeWord 0x90062082 = some (.ldsD 0 6 8 2) ∧ decodeWord 0x90051100 = some (.stsW 0 5 4 0) ∧ decodeWord 0x9842880A = some (.atom 1 5 8 .add .rel .pkg) ∧
    decodeWord 0x9CC38896 = some (.satom 3 7 false 8 .cas .acq .pkg) ∧ decodeWord 0x9442A140 = some (.ldh 1 5 2 10) := by decide +kernel
theorem test_decode_waits : decodeWord 0xA0000000 = some (.wait 0 0) ∧ decodeWord 0xA0080C00 = some (.wait 2 3) ∧ decodeWord 0xA0840003 = some (.yield 1 0 3) ∧
    decodeWord 0xA1545400 = some (.bari 20 21) ∧ decodeWord 0xA1D40000 = some (.barw 20) ∧ decodeWord 0xA40CA000 = some (.kcopy 3 10 0) ∧
    decodeWord 0xA810A2CC = some (.wwr 4 10 11 12) ∧ decodeWord 0b1010100010_0000_000111_001010_1_00000 = some (.wcnt 0 7 10 true) ∧ decodeWord 0xA8CA2E00 = some (.wwt 10 11 true) := by decide +kernel
theorem test_decode_matrix : decodeWord 0xC020C828 = some (.mma 2 3 16 40) ∧ decodeWord 0xC1100010 = some (.mmaz 1 0 0 16) ∧ decodeWord 0xC2014828 = some (.mman 0 5 16 40) ∧
    decodeWord 0xC4043000 = some (.aclr 1 3) ∧ decodeWord 0xC4483280 = some (.acvt 2 3 20 false) ∧ decodeWord 0xC4483290 = some (.acvt 2 3 20 true) ∧
    decodeWord 0xC48C0410 = some (.abq 3 0 32 .i8) ∧ decodeWord 0xC4C43200 = some (.ast 1 3 8) ∧ decodeWord 0xC5043200 = some (.ald 1 3 8) ∧
    decodeWord 0xC5443200 = some (.amrg 1 3 8) ∧ decodeWord 0xC5800209 = some (.ami 0 8 9) ∧ decodeWord 0xC5C03180 = some (.aexp 0 3 6) := by decide +kernel
theorem test_decode_taps : decodeWord 0xC8082880 = some (.bqnt 16 40 .i8) ∧ decodeWord 0xC8541000 = some (.bdeq 40 16) ∧ decodeWord 0xC8829000 = some (.bhdr 5 16) ∧
    decodeWord 0xCC041461 = some (.tapb 4 5 6 1) ∧ decodeWord 0xCC421C01 = some (.fsel 2 7 1) ∧ decodeWord 0xCC8C5405 = some (.tapr 3 1 20 5) ∧
    decodeWord 0xCCC41462 = some (.tape 4 5 6 2) ∧ decodeWord 0xCD041400 = some (.tapl 4 5) ∧ decodeWord 0xCD461050 = some (.taph 6 4 5) ∧
    decodeWord 0xD0080A48 = some (.sample 8 5 9) ∧ decodeWord 0xD0450530 = some (.topk 10 5 12) ∧ decodeWord 0xD090A2CC = some (.mergek 4 10 11 12) ∧
    decodeWord 0xD0CF14A0 = some (.rngu 30 20 40) := by decide +kernel
theorem test_decode_system : decodeWord 0xD4060A38 = some (.lblget 6 5 7) ∧ decodeWord 0xD4461C00 = some (.lbls 6 7) ∧ decodeWord 0xD48828E0 = some (.lblt 2 5 7) ∧
    decodeWord 0xD8051800 = some (.srd 5 0x18) ∧ decodeWord 0xD8462000 = some (.swr 6 0x20) ∧ decodeWord 0xD8872400 = some (.gprd 7 9) ∧ decodeWord 0xD8C72400 = some (.gpwr 7 9) ∧
    decodeWord 0xD9410500 = some (.invl .page 4 5) ∧ decodeWord 0xD9500500 = some (.invl .asid 0 5) ∧ decodeWord 0xD9600000 = some (.invl .part 0 0) := by decide +kernel
theorem test_decode_hints : decodeWord 0xF8400004 = some (.run 4) ∧ decodeWord 0xF8000004 = some (.imm 4) ∧ decodeWord 0xF83F0000 = some (.imm 0x3F0000) := by decide +kernel

/-! ### One step, with results of the manual's worked examples or worked out from its rules by hand -/

/-- The state after an instruction. -/
def after (i : Instr) (s : State) : State := match exec i s with | .next t => t | _ => s
/-- A team with registers, at one instruction. -/
def regs (r : Regs) (m : Mask := 0xFF) : State := st { team m with regs := { r with k := (0, m) :: r.k } }

/-- R250: the table of condition codes after scmp. -/
theorem test_scmp_codes :
    (after (.scmp 1 2) (regs { s := [(1, { val := 5 }), (2, { val := 7 })] })).dev.cur.regs.cc = { z := false, n := true, c := false, v := false } ∧
    (after (.scmp 1 2) (regs { s := [(1, { val := 0x8000000000000000 }), (2, { val := 1 })] })).dev.cur.regs.cc = { z := false, n := false, c := true, v := true } ∧
    (after (.scmp 1 2) (regs { s := [(1, { val := 3 }), (2, { val := 3 })] })).dev.cur.regs.cc = { z := true, n := false, c := true, v := false } := by decide +kernel
/-- R13: a write to sz is discarded, and sz reads 0. -/
theorem test_sz : scalar (after (.saddi 63 1 5) (regs { s := [(1, { val := 5 })] })) 63 = {} := by decide +kernel
/-- R235: imm 4 before saddi s5, s5, 0x2345 adds 0x12345. -/
theorem test_imm_widens :
    (scalar (after (.saddi 5 5 0x2345) (after (.imm 4) (regs { s := [(5, { val := 1 })] }))) 5).val = 0x12346 := by decide +kernel
/-- R252: the high half of a signed product; source and destination the same. -/
theorem test_vmulh : (lane (after (.vmulh false 1 1 2) (regs { v := [(1024, { val := 0x80000000 }), (2048, { val := 2 })] })) 1 0).val = 0xFFFFFFFF := by decide +kernel
/-- R252: an inactive lane keeps its value (R10). -/
theorem test_inactive : lane (after (.vadd false 1 1 1) (regs { v := [(1024 + 9, { val := 7 })] })) 1 9 = { val := 7 } := by decide +kernel
/-- R75: the worked example of labels: entries 1 to 3 hold o1, o4 and both; lane 2 joins labels 1 and 2, lane 5 labels 1 and 0. -/
theorem test_label_join :
    let s := after (.vadd false 3 1 2) (regs { v := [(1026, { lbl := 1 }), (1029, { lbl := 1 }), (2050, { lbl := 2 })], labels := [(1, 2), (2, 16), (3, 18)] })
    (lane s 3 2).lbl = 3 ∧ (lane s 3 5).lbl = 1 := by decide +kernel
/-- The same with entry 3 empty: lane 2 writes the set into it. -/
theorem test_label_new :
    let s := after (.vadd false 3 1 2) (regs { v := [(1026, { lbl := 1 }), (2050, { lbl := 2 })], labels := [(1, 2), (2, 16)] })
    (lane s 3 2).lbl = 3 ∧ mget 0 s.dev.cur.regs.labels 3 = 18 := by decide +kernel
/-- R254: ffma rounds once. -/
theorem test_ffma :
    (lane (after (.ffma false 3 1 2) (regs { v := [(1024, { val := 0x3F800001 }), (2048, { val := 0x3F7FFFFE }), (3072, { val := 0xBF800000 })] })) 3 0).val = 0xA8800000 := by
  decide +kernel
/-- R257: conversions of -2.5 and of 3e9. -/
theorem test_cvt :
    (lane (after (.cvtI32F32 false 3 1) (regs { v := [(1024, { val := 0xC0200000 })] })) 3 0).val = 0xFFFFFFFE ∧
    (lane (after (.cvtN32F32 false 3 1) (regs { v := [(1024, { val := 0x4F32D05E })] })) 3 0).val = 0xB2D05E00 ∧
    (lane (after (.cvtI32F32 false 3 1) (regs { v := [(1024, { val := 0x4F32D05E })] })) 3 0).val = 0x7FFFFFFF := by decide +kernel
/-- R258, R12: a compare of lanes 0 to 7 into a mask. -/
theorem test_vcmp : mask (after (.vcmp .lt 2 .i32 1 3) (regs { v := [(1024, { val := 0xFFFFFFFF }), (1025, { val := 5 })] })) 2 = 1 := by decide +kernel
/-- R267: cnfl at width 8 with lane 6 inactive, the worked example. -/
theorem test_cnfl :
    let s := after (.cnfl false 12 10) (st { team 0xBF with
      decl := { lanes := 8, group := 8, vregs := 16, scratch := 256 }
      regs := { k := [(0, 0xBF)], v := [(10240, { val := 3 }), (10241, { val := 5 }), (10242, { val := 3 }), (10243, { val := 3 }), (10244, { val := 7 }), (10245, { val := 5 }), (10246, { val := 9 }), (10247, { val := 3 })] } })
    (List.range 8).map (fun l => (lane s 12 l).val) = [0x400, 0x10200, 0x401, 0x402, 0x40100, 0x10201, 0, 0x403] := by decide +kernel
/-- R265: kcnt counts the lanes of a mask. -/
theorem test_kcnt : (scalar (after (.kcnt 1 5) (regs { k := [(1, 0xF0F)] })) 5).val = 8 := by decide +kernel
/-- R248: a call links the next position and goes to its target. -/
theorem test_call : let s := after (.call 64) (regs {}); s.dev.cur.pc = 0x10100 ∧ (scalar s 62).val = 0x10004 := by decide +kernel
/-- R309, R59: 300, 150 and 46 values of 1.0 quantised to I8, the worked example. -/
theorem test_bqnt :
    let s := after (.bqnt 40 0 .i8) (st { team 1 with
      decl := { lanes := 64, group := 32, vregs := 64, scratch := 256 }
      regs := { k := [(0, 1)], v := (0, { val := 0x43164396 }) :: (upFrom 1 23).map fun r => (1024 * r, { val := 0x3F803F80 }) } })
    (List.range 16).map (fun j => (lane s (40 + j) 0).val) =
      [0x80807904, 0x40404040, 0x40404040, 0x40404040, 0x40404040, 0x40404040, 0x40404040, 0x40404040, 0x40404040, 0x40404040, 0x40404040, 0x40404040,
       0x43964040, 0x00004316, 0, 0] := by decide +kernel
/-- R53 to R57: the worked example of an MMA: XMAX -1 and entry 2015 * 2^29. -/
theorem test_mma :
    let s := after .matrixOperation (pend (.mma 0 2 0 16 0 0 1 []) 0 { team 1 with
      decl := { lanes := 64, group := 32, vregs := 32, acc := 4, scratch := 256 }
      regs := { k := [(0, 1)], v := [(0, { val := 0x80037F04 }), (12288, { val := 0x447A0000 }), (16384, { val := 0x040A7E04 })] } })
    (s.dev.cur.regs.tile 0 2).xmax = some (-1) ∧ (s.dev.cur.regs.tile 0 2).e 0 0 = 2015 * 2 ^ 29 := by decide +kernel
/-- R276, R144: an atomic add wraps and gives the old value. -/
theorem test_atomic :
    let s := after .atomicPerformed (pend (.atomic (.op .add false) (.regs 5 1) none [{ acc 0 0 with data := 3 }]) 0 (team 1) [(0x10000, 0xFE), (0x10001, 0xFF), (0x10002, 0xFF), (0x10003, 0xFF)])
    (lane s 5 0).val = 0xFFFFFFFE ∧ memNat s.dev.mem 0x10000 4 = 1 := by decide +kernel
/-- R272: a store of four bytes, least significant first. -/
theorem test_store : memBytes (after .storePerformed (pend (.store [acc 0 0]))).dev.mem 0x10000 4 = [0xD0, 0xC0, 0xB0, 0xA0] := by decide +kernel
/-- R117, R118: key 7 is found in the tree that holds it, and not in the empty one. -/
theorem test_tree_read :
    let l : ArborLane := { lane := 0, key := 7, shard := shardOf 1 7 }
    (lane (after .arborOperation (pend (.arbor .read 3 tree.h 5 63 [l]) 0 (team 1) stored)) 5 0).val = 77 ∧
    (lane (after .arborOperation (pend (.arbor .read 3 tree.h 5 63 [l]) 0 (team 1) treeMem)) 5 0).val = 0 := by decide +kernel
/-- R223: a trap saves the pc and goes to the handler; RETH goes back. -/
theorem test_trap :
    let s := after (.trap 9) (st { team 0xF0 with decl := { (team 0xF0).decl with handler := 0x10100 } })
    s.dev.cur.pc = 0x10100 ∧ s.dev.cur.sp.tcause = 3 ∧ s.dev.cur.sp.tpc = 0x10004 ∧ s.dev.cur.sp.tinfo0 = 9 ∧ mask s 15 = 0xF0 ∧ mask s 0 = allLanes 64 ∧
    (after .reth s).dev.cur.pc = 0x10004 ∧ mask (after .reth s) 0 = 0xF0 := by decide +kernel
/-- R202: a FILL command writes its pattern, frees its entry and answers. -/
theorem test_fill :
    let s := after .fill (host (entry 0x05 [(16, 8, 0x20000), (24, 8, 8), (32, 8, 0x0102030405060708)]))
    memBytes s.dev.mem 0x10000 8 = [8, 7, 6, 5, 4, 3, 2, 1] := by decide +kernel

/-! ### Every word of a family meets its statement's hypotheses at one state -/

/-- `Plain`, as it computes. -/
def plainB (i : Instr) (s : State) : Bool :=
  hintsOk s.dev.cur i && declOk s.dev.cur i && s.dev.cur.badV.isEmpty && !stepping s.dev && decide (s.dev.cur.wait = .ready)
theorem plain_of {i : Instr} {s : State} (h : plainB i s = true) : Plain i s := by
  simp only [plainB, Bool.and_eq_true, List.isEmpty_iff, Bool.not_eq_true', decide_eq_true_eq] at h
  exact ⟨h.1.1.1.1, h.1.1.1.2, h.1.1.2, h.1.2, h.2⟩
theorem each_of {β : Type} {l : List Instr} {s : State} {f : Instr → Option β} {P : Instr → β → Prop} [∀ i b, Decidable (P i b)]
    (h : (l.all fun i => plainB i s && (f i).any fun b => decide (P i b)) = true) : ∀ i ∈ l, ∃ x, f i = some x ∧ Plain i s ∧ P i x := by
  intro i hi
  have := List.all_eq_true.mp h i hi
  simp only [Bool.and_eq_true] at this
  cases hf : f i with
  | none => rw [hf] at this; exact absurd this.2 (by simp)
  | some x => rw [hf] at this; exact ⟨x, rfl, plain_of this.1, of_decide_eq_true this.2⟩
theorem each_plain {l : List Instr} {s : State} (h : (l.all fun i => plainB i s && exchanges i) = true) : ∀ i ∈ l, exchanges i = true ∧ Plain i s := by
  intro i hi
  have := List.all_eq_true.mp h i hi
  simp only [Bool.and_eq_true] at this
  exact ⟨this.2, plain_of this.1⟩
theorem test_met : Met wordState := show _ = _ by decide +kernel
theorem test_each_transfer : ∀ i ∈ ([.nop, .br 35367987, .bcc .mi 339472, .bkz 7 220837, .bknz 9 1166191, .call 3365938, .ret, .jmpr 44, .callr 14] : List Instr),
    ∃ x, transferSpec i wordState = some x ∧ Plain i wordState ∧ ((x.reg = true → x.target.toNat % 4 = 0)) :=
  each_of (by decide +kernel)
theorem test_each_scalar : ∀ i ∈ ([.sadd false 14 10 43, .ssub true 57 61 22, .smul false 25 22 63, .smulh false 8 46 16, .smulhn true 22 8 24, .sand true 15 59 23,
     .sor false 61 6 17, .sxor false 35 15 35, .sandn true 16 45 55, .sshl true 20 39 42, .sshr true 60 38 2, .ssra true 58 9 3,
     .smin true 60 63 2, .smax false 18 47 52, .sminn false 34 32 52, .smaxn true 12 60 6, .spopc false 25 28, .sclz false 54 29,
     .sctz true 40 57, .saddi 59 32 2244, .sandi 53 39 8377, .sori 41 9 10727, .sxori 44 14 354, .sshi 4 2 .shr 4, .slui 42 898269,
     .smuli 7 42 1255, .sadd true 63 1 6] : List Instr),
    ∃ x, scalarSpec i wordState = some x ∧ Plain i wordState ∧ (x.d = 63 ∨ (allocLabel wordState.dev.cur.regs.labels x.set).isSome) :=
  each_of (by decide +kernel)
theorem test_each_compare : ∀ i ∈ ([.scmp 31 49, .scmpi 25 6226] : List Instr),
    ∃ x, compareSpec i wordState = some x ∧ Plain i wordState ∧ (True) :=
  each_of (by decide +kernel)
theorem test_each_vector : ∀ i ∈ ([.vadd true 48 60 47, .vsub true 40 36 25, .vmul false 9 124 40, .vmulh true 29 2 39, .vmulhn false 15 17 18, .vmad true 49 27 35,
     .vand true 42 52 26, .vor true 38 39 13, .vxor true 15 126 14, .vandn false 31 34 32, .vshl true 57 39 4, .vshr false 5 46 7,
     .vsra true 8 22 36, .vmin false 17 2 52, .vmax false 52 33 53, .vabs true 39 2, .vminn false 37 124 63, .vmaxn true 57 7 21,
     .vaddsat false 56 17 61, .vsubsat true 62 125 32, .vpopc true 49 0, .vclz false 45 41, .vlane true 37, .vbrev false 25 45,
     .vsel 13 true 46 3 55, .vadd true 127 1 2] : List Instr),
    ∃ x, vectorSpec i wordState = some x ∧ Plain i wordState ∧ (i.wf = true ∧ x.full wordState = []) :=
  each_of (by decide +kernel)
theorem test_each_vectorFp : ∀ i ∈ ([.fadd true 39 45 47, .fsub false 51 56 42, .fmul true 47 7 52, .ffma false 24 57 60, .fmin true 45 57 27, .fmax false 10 58 49,
     .fabs false 39 20, .fneg true 29 20, .frcp true 23 17, .frsq false 25 43, .fexp2 true 10 2, .flog2 true 26 25, .ffloor false 50 9,
     .ffrac false 53 52, .badd2 true 29 51 36, .bmul2 false 50 44 21, .bfma2 false 8 18 63, .bmax2 true 21 24 40, .cvtF32I32 false 11 29,
     .cvtF32N32 false 127 35, .cvtI32F32 true 56 58, .cvtN32F32 false 62 43, .cvtBf2F32 false 57 126 51, .cvtF32Bfl true 1 7,
     .cvtF32Bfh false 29 12] : List Instr),
    ∃ x, vectorFpSpec i wordState = some x ∧ Plain i wordState ∧ (i.wf = true ∧ x.full wordState = []) :=
  each_of (by decide +kernel)
theorem test_each_mask : ∀ i ∈ ([.vcmp .ls 14 .i32 36 56, .kand 1 14 13, .kor 9 7 4, .kxor 15 15 1, .kandn 4 13 9, .knot 6 15, .kmov 8 10, .kall 8, .kfirst 12 11,
     .kgany 5 11, .kzero 0, .stok 8 61 5, .lblt 5 53 10] : List Instr),
    ∃ x, maskSpec i wordState = some x ∧ Plain i wordState ∧ (True) :=
  each_of (by decide +kernel)
theorem test_each_vectorImm : ∀ i ∈ ([.vaddi false 33 19 51, .vmuli true 20 21 119, .vandi false 57 21 100, .vori true 3 60 123, .vxori false 63 36 38, .vshli true 17 39 14,
     .vshri false 31 37 0, .vsrai false 59 13 2, .vmovi false 17 78, .vmini true 36 126 32, .vmaxi false 16 5 97, .vadds true 0 17 50,
     .vsubs true 30 9 20, .vmuls true 9 0 45, .fadds true 39 17 39, .fmuls false 21 5 42, .ffmas true 26 9 49, .vmovs false 9 56,
     .vshls true 36 59 45] : List Instr),
    ∃ x, vectorImmSpec i wordState = some x ∧ Plain i wordState ∧ (i.wf = true ∧ x.full wordState = []) :=
  each_of (by decide +kernel)
theorem test_each_cross : ∀ i ∈ ([.shfl true 46 37 37, .shflx false 7 23 32, .shflu false 14 127 18, .shfld true 0 20 41, .scani true 16 21, .scanf false 12 57,
     .redi false 7 27, .redf true 18 57, .redmaxf true 25 50, .redminf true 36 13, .cnfl false 127 38] : List Instr),
    ∃ x, crossSpec i wordState = some x ∧ Plain i wordState ∧ (i.wf = true ∧ x.full wordState = []) :=
  each_of (by decide +kernel)
theorem test_each_read : ∀ i ∈ ([.kcnt 8 22, .ktos 12 53 20, .lblget 42 48 15, .lbls 47 51, .srd 50 106, .gprd 2 29] : List Instr),
    ∃ x, readSpec i wordState = some x ∧ Plain i wordState ∧ (x.d = 63 ∨ (allocLabel wordState.dev.cur.regs.labels x.set).isSome) :=
  each_of (by decide +kernel)
theorem test_each_memPost : ∀ i ∈ ([.ld 7 40 12 40 .d, .ldn 3 12 1 46 .n16, .st 5 62 10 38 .w, .stn 4 29 4 44 .i8, .ldsW 12 25 1 20, .ldsD 4 25 4 62, .stsW 3 62 4 20,
     .stsD 14 21 12 9, .ldsN8 15 55 2 98, .ldsN16 8 7 12 22, .stsB8 15 24 2 94, .stsH16 4 44 2 89, .atom 0 53 2 .or .rlx .die,
     .satom 12 27 true 4 .or .rlx .die] : List Instr),
    ∃ x, memPost i wordState = some x ∧ Plain i wordState ∧ (True) :=
  each_of (by decide +kernel)
theorem test_each_handlePost : ∀ i ∈ ([.ldh 4 35 3 47, .sth 15 27 1 42, .spadd 15 12 3 38, .spiter 15 35 3 28, .sphas 10 57 2 41, .spext 3 15 16] : List Instr),
    ∃ x, handlePost i wordState = some x ∧ Plain i wordState ∧ (True) :=
  each_of (by decide +kernel)
theorem test_each_wait : ∀ i ∈ ([.wait 7 246, .waita 23433, .yield 5 11 513, .phase .die, .mwait 1 32 true, .barw 2, .wwt 14 25 false, .invl .page 44 60, .icinv 55 false] : List Instr),
    ∃ x, waitSpec i wordState = some x ∧ Plain i wordState ∧ (True) :=
  each_of (by decide +kernel)
theorem test_each_transferPost : ∀ i ∈ ([.kcopy 2 1 7, .kgath 1 4 12, .kscat 5 10 30, .kpos 11 34 19, .kstop 15 16, .wwr 0 1 59 60, .wsig 11 0 33, .wcnt 5 23 14 false] : List Instr),
    ∃ x, transferPost i wordState = some x ∧ Plain i wordState ∧ (True) :=
  each_of (by decide +kernel)
theorem test_each_matrixPost : ∀ i ∈ ([.mma 14 3 26 41, .mmaz 9 3 46 22, .mman 5 1 31 48, .aclr 5 3, .acvt 8 0 8 true, .abq 0 1 2 .i8, .ast 9 2 12, .ald 5 3 1, .amrg 10 1 5,
     .ami 13 5 20, .aexp 9 0 7] : List Instr),
    ∃ x, matrixPost i wordState = some x ∧ Plain i wordState ∧ (True) :=
  each_of (by decide +kernel)
theorem test_each_lanes : ∀ i ∈ ([.bqnt 27 13 .i8, .bdeq 9 23, .bhdr 41 38, .rngu 49 51 30] : List Instr),
    ∃ x, lanesSpec i wordState = some x ∧ Plain i wordState ∧ (i.wf = true ∧ (x.alloc wordState).2.2.1 = []) :=
  each_of (by decide +kernel)
theorem test_each_belvederePost_tap : ∀ i ∈ ([.fsel 3 27 3, .tape 2 10 61 5] : List Instr),
    ∃ x, belvederePost i tapState = some x ∧ Plain i tapState ∧ (True) :=
  each_of (by decide +kernel)
theorem test_each_belvederePost : ∀ i ∈ ([.mergek 0 5 36 4] : List Instr),
    ∃ x, belvederePost i wordState = some x ∧ Plain i wordState ∧ (True) :=
  each_of (by decide +kernel)
theorem test_each_hint : ∀ i ∈ ([.imm 978672, .run 0, .livev 4 58547, .lives 2 53881, .livep 5762 65, .region, .off 2561117, .mod .normal false .rne, .prio 5] : List Instr), Instr.isHint i = true ∧ wordState.dev.cur.hints.length < 64 := by decide +kernel
theorem test_each_exchange : ∀ i ∈ ([.bkz 7 220837, .bknz 9 1166191, .kfirst 12 11, .kgany 5 11, .kzero 0, .kcnt 8 22, .ktos 12 53 20, .sample 40 55 40, .topk 48 57 34,
     .lblget 42 48 15] : List Instr), exchanges i = true ∧ Plain i wordPaired :=
  each_plain (by decide +kernel)

/-! ### States and operands that meet the hypotheses of each statement -/

theorem test_decode_encode_0 : ∃ (i w : _),
    i.wf = true ∧
    encode i = some w := 
  ⟨(.bcc .ne (-3)), ((encode ((.bcc .ne (-3)))).get (by decide +kernel)),
   by decide +kernel, got _⟩

theorem test_encode_decode_0 : ∃ (w i : _),
    w < 2 ^ 32 ∧
    decodeWord w = some i := 
  ⟨0x0BBFFFFF, ((decodeWord 0x0BBFFFFF).get (by decide +kernel)),
   by decide +kernel, got _⟩

theorem test_step_keeps_firmware_0 : ∃ (s t : _),
    FirmwareInv s.fw ∧
    (s.dev.frozen = false ∨ ∀ x r, s.sched ≠ .event .debugPortAccess x :: r) ∧
    Machine.step s = .next t := 
  ⟨(fun s : State => { s with fw := { s.fw with policy := [(3, { set := 6, valid := true })] }, dev := { s.dev with mem := [] }, sched := [.issue 1, .issue 2] }) (st (team 1)), (nextGet (Machine.step ((fun s : State => { s with fw := { s.fw with policy := [(3, { set := 6, valid := true })] }, dev := { s.dev with mem := [] }, sched := [.issue 1, .issue 2] }) (st (team 1)))) (by decide +kernel)),
   ⟨by decide +kernel, fun _ _ => rfl⟩, .inl (by decide +kernel), nextGot _⟩

theorem test_words_leave_firmware_0 : ∃ (i s t : _),
    (encode i).isSome = true ∧
    exec i s = .next t := 
  ⟨.nop, st (team 1), (nextGet (exec .nop (st (team 1))) (by decide +kernel)),
   by decide +kernel, nextGot _⟩

def w_label_table_0_t : Team := { team 1 with regs := { labels := [(1, 2), (3, 8)] } }
def w_label_table_0_i : Lbl := ((allocLabel w_label_table_0_t.regs.labels ((6 : OSet))).get (by decide +kernel)).1
def w_label_table_0_ls : SMap OSet := ((allocLabel w_label_table_0_t.regs.labels ((6 : OSet))).get (by decide +kernel)).2
theorem test_label_table_0 : ∃ (t : Team) (set : OSet) (i : Lbl) (ls : SMap OSet),
    allocLabel t.regs.labels set = some (i, ls) := 
  ⟨w_label_table_0_t, 6, w_label_table_0_i, w_label_table_0_ls,
   gotP _⟩

def w_label_table_0_2_t : Team := { team 1 with regs := { labels := [(1, 2), (2, 6)] } }
def w_label_table_0_2_i : Lbl := ((allocLabel w_label_table_0_2_t.regs.labels ((6 : OSet))).get (by decide +kernel)).1
def w_label_table_0_2_ls : SMap OSet := ((allocLabel w_label_table_0_2_t.regs.labels ((6 : OSet))).get (by decide +kernel)).2
theorem test_label_table_0_2 : ∃ (t : Team) (set : OSet) (i : Lbl) (ls : SMap OSet),
    allocLabel t.regs.labels set = some (i, ls) := 
  ⟨w_label_table_0_2_t, 6, w_label_table_0_2_i, w_label_table_0_2_ls,
   gotP _⟩

def w_scalar_results_0_s : State := wordState
def w_scalar_results_0_x : ScalarSpec := ((scalarSpec ((.sadd true 5 1 6 : Instr)) w_scalar_results_0_s).get (by decide +kernel))
theorem test_scalar_results_0 : ∃ (i : Instr) (s : State) (x : ScalarSpec),
    scalarSpec i s = some x ∧
    Plain i s ∧
    (x.d = 63 ∨ (allocLabel s.dev.cur.regs.labels x.set).isSome) := 
  ⟨.sadd true 5 1 6, w_scalar_results_0_s, w_scalar_results_0_x,
   got _, ⟨by decide +kernel, by decide +kernel, by decide +kernel, by decide +kernel, by decide +kernel⟩, by decide +kernel⟩

def w_scalar_results_0_2_s : State := wordState
def w_scalar_results_0_2_x : ScalarSpec := ((scalarSpec ((.sshi 63 1 .sra 63 : Instr)) w_scalar_results_0_2_s).get (by decide +kernel))
theorem test_scalar_results_0_2 : ∃ (i : Instr) (s : State) (x : ScalarSpec),
    scalarSpec i s = some x ∧
    Plain i s ∧
    (x.d = 63 ∨ (allocLabel s.dev.cur.regs.labels x.set).isSome) := 
  ⟨.sshi 63 1 .sra 63, w_scalar_results_0_2_s, w_scalar_results_0_2_x,
   got _, ⟨by decide +kernel, by decide +kernel, by decide +kernel, by decide +kernel, by decide +kernel⟩, by decide +kernel⟩

def w_scalar_results_1_s : State := wordState
def w_scalar_results_1_c : CC := ((compareSpec ((.scmp 6 7 : Instr)) w_scalar_results_1_s).get (by decide +kernel))
theorem test_scalar_results_1 : ∃ (i : Instr) (s : State) (c : CC),
    compareSpec i s = some c ∧
    Plain i s := 
  ⟨.scmp 6 7, w_scalar_results_1_s, w_scalar_results_1_c,
   got _, ⟨by decide +kernel, by decide +kernel, by decide +kernel, by decide +kernel, by decide +kernel⟩⟩

def w_scalar_results_1_2_s : State := wordState
def w_scalar_results_1_2_c : CC := ((compareSpec ((.scmpi 6 0x1FFF : Instr)) w_scalar_results_1_2_s).get (by decide +kernel))
theorem test_scalar_results_1_2 : ∃ (i : Instr) (s : State) (c : CC),
    compareSpec i s = some c ∧
    Plain i s := 
  ⟨.scmpi 6 0x1FFF, w_scalar_results_1_2_s, w_scalar_results_1_2_c,
   got _, ⟨by decide +kernel, by decide +kernel, by decide +kernel, by decide +kernel, by decide +kernel⟩⟩

def w_scalar_reads_0_s : State := wordState
def w_scalar_reads_0_x : ScalarSpec := ((readSpec ((.lblget 6 1 7 : Instr)) w_scalar_reads_0_s).get (by decide +kernel))
theorem test_scalar_reads_0 : ∃ (i : Instr) (s : State) (x : ScalarSpec),
    readSpec i s = some x ∧
    Plain i s ∧
    (x.link = true → Met s) ∧
    (x.d = 63 ∨ (allocLabel s.dev.cur.regs.labels x.set).isSome) := 
  ⟨.lblget 6 1 7, w_scalar_reads_0_s, w_scalar_reads_0_x,
   got _, ⟨by decide +kernel, by decide +kernel, by decide +kernel, by decide +kernel, by decide +kernel⟩, fun _ => show _ = _ by decide +kernel, by decide +kernel⟩

def w_label_full_traps_0_s : State := { wordState with dev := { wordState.dev with cur := { wordState.dev.cur with regs := { wordState.dev.cur.regs with labels := (upFrom 1 15).map fun i => (i, BitVec.ofNat 32 (2 ^ (i - 1))) } } } }
def w_label_full_traps_0_x : ScalarSpec := (scalarSpec (.sadd false 5 1 5) w_label_full_traps_0_s).get (by decide +kernel)
theorem test_label_full_traps_0 : ∃ (i : Instr) (s : State) (x : ScalarSpec),
    (scalarSpec i s = some x ∨ readSpec i s = some x) ∧
    Plain i s ∧
    (x.link = true → Met s) ∧
    x.d ≠ 63 ∧
    allocLabel s.dev.cur.regs.labels x.set = none := 
  ⟨.sadd false 5 1 5, w_label_full_traps_0_s, w_label_full_traps_0_x,
   .inl (got _), ⟨by decide +kernel, by decide +kernel, by decide +kernel, by decide +kernel, by decide +kernel⟩, fun _ => show _ = _ by decide +kernel, by decide +kernel⟩

def w_label_full_traps_1_s : State := { wordState with dev := { wordState.dev with cur := { wordState.dev.cur with regs := { wordState.dev.cur.regs with v := [(1024, { lbl := 1 }), (2048, { lbl := 2 })], labels := (upFrom 1 15).map fun i => (i, BitVec.ofNat 32 (2 ^ (i - 1))) } } } }
def w_label_full_traps_1_x : VectorSpec := (vectorSpec (.vadd false 3 1 2) w_label_full_traps_1_s).get (by decide +kernel)
theorem test_label_full_traps_1 : ∃ (i : Instr) (s : State) (x : VectorSpec),
    (vectorSpec i s = some x ∨ vectorImmSpec i s = some x ∨ vectorFpSpec i s = some x ∨ crossSpec i s = some x) ∧
    Plain i s ∧
    x.full s ≠ [] := 
  ⟨.vadd false 3 1 2, w_label_full_traps_1_s, w_label_full_traps_1_x,
   .inl (got _), ⟨by decide +kernel, by decide +kernel, by decide +kernel, by decide +kernel, by decide +kernel⟩, by decide +kernel⟩

theorem test_vector_results_0 : ∃ (i s x : _),
    vectorSpec i s = some x := 
  ⟨.vmad false 5 1 2, wordState, ((vectorSpec (.vmad false 5 1 2) wordState).get (by decide +kernel)),
   got _⟩

theorem test_vector_results_0_2 : ∃ (i s x : _),
    vectorSpec i s = some x := 
  ⟨.vadd true 127 127 1, wordState, ((vectorSpec (.vadd true 127 127 1) wordState).get (by decide +kernel)),
   got _⟩

theorem test_vector_results_1 : ∃ (i s x : _),
    vectorImmSpec i s = some x := 
  ⟨.vaddi false 5 1 0x40, wordState, ((vectorImmSpec (.vaddi false 5 1 0x40) wordState).get (by decide +kernel)),
   got _⟩

theorem test_vector_results_1_2 : ∃ (i s x : _),
    vectorImmSpec i s = some x := 
  ⟨.vmovs false 5 63, wordState, ((vectorImmSpec (.vmovs false 5 63) wordState).get (by decide +kernel)),
   got _⟩

theorem test_vector_float_results_0 : ∃ (i s x : _),
    vectorFpSpec i s = some x := 
  ⟨.ffma false 5 1 2, wordState, ((vectorFpSpec (.ffma false 5 1 2) wordState).get (by decide +kernel)),
   got _⟩

theorem test_vector_float_results_1 : ∃ (i s x : _),
    crossSpec i s = some x := 
  ⟨.scani false 5 1, wordState, ((crossSpec (.scani false 5 1) wordState).get (by decide +kernel)),
   got _⟩

def w_mask_results_0_s : State := wordState
def w_mask_results_0_x : MaskSpec := ((maskSpec ((.vcmp .lt 3 .i32 1 2 : Instr)) w_mask_results_0_s).get (by decide +kernel))
theorem test_mask_results_0 : ∃ (i : Instr) (s : State) (x : MaskSpec),
    maskSpec i s = some x ∧
    Plain i s ∧
    (x.link = true → Met s) := 
  ⟨.vcmp .lt 3 .i32 1 2, w_mask_results_0_s, w_mask_results_0_x,
   got _, ⟨by decide +kernel, by decide +kernel, by decide +kernel, by decide +kernel, by decide +kernel⟩, fun _ => show _ = _ by decide +kernel⟩

def w_mask_results_0_2_s : State := wordState
def w_mask_results_0_2_x : MaskSpec := ((maskSpec ((.knot 0 0 : Instr)) w_mask_results_0_2_s).get (by decide +kernel))
theorem test_mask_results_0_2 : ∃ (i : Instr) (s : State) (x : MaskSpec),
    maskSpec i s = some x ∧
    Plain i s ∧
    (x.link = true → Met s) := 
  ⟨.knot 0 0, w_mask_results_0_2_s, w_mask_results_0_2_x,
   got _, ⟨by decide +kernel, by decide +kernel, by decide +kernel, by decide +kernel, by decide +kernel⟩, fun _ => show _ = _ by decide +kernel⟩

def w_transfers_0_s : State := wordState
def w_transfers_0_x : TransferSpec := ((transferSpec ((.bknz 1 5 : Instr)) w_transfers_0_s).get (by decide +kernel))
theorem test_transfers_0 : ∃ (i : Instr) (s : State) (x : TransferSpec),
    transferSpec i s = some x ∧
    Plain i s ∧
    (x.exch = true → Met s) ∧
    (x.reg = true → x.target.toNat % 4 = 0) := 
  ⟨.bknz 1 5, w_transfers_0_s, w_transfers_0_x,
   got _, ⟨by decide +kernel, by decide +kernel, by decide +kernel, by decide +kernel, by decide +kernel⟩, fun _ => show _ = _ by decide +kernel, by decide +kernel⟩

def w_transfers_1_s : State := wordState
def w_transfers_1_x : TransferSpec := ((transferSpec ((.jmpr 11 : Instr)) w_transfers_1_s).get (by decide +kernel))
theorem test_transfers_1 : ∃ (i : Instr) (s : State) (x : TransferSpec),
    transferSpec i s = some x ∧
    Plain i s ∧
    x.reg = true ∧
    x.target.toNat % 4 ≠ 0 := 
  ⟨.jmpr 11, w_transfers_1_s, w_transfers_1_x,
   got _, ⟨by decide +kernel, by decide +kernel, by decide +kernel, by decide +kernel, by decide +kernel⟩, by decide +kernel⟩

def w_hint_words_0_s : State := wordState
theorem test_hint_words_0 : ∃ (i : Instr) (s : State),
    Instr.isHint i = true ∧
    s.dev.cur.hints.length < 64 := 
  ⟨.run 15, w_hint_words_0_s,
   by decide +kernel⟩

def w_hint_words_1_s : State := { wordState with dev := { wordState.dev with cur := { wordState.dev.cur with hints := List.replicate 64 (.prio 2) } } }
theorem test_hint_words_1 : ∃ (i : Instr) (s : State) (w : Nat),
    Instr.isHint i = true ∧
    s.dev.cur.hints.length = 64 ∧
    encode i = some w ∧
    s.dev.cur.wait = .ready := 
  ⟨.imm 5, w_hint_words_1_s, ((encode ((.imm 5 : Instr))).get (by decide +kernel)),
   by decide +kernel, by decide +kernel, got _, by decide +kernel⟩

def w_delay_and_exit_0_s : State := wordState
theorem test_delay_and_exit_0 : ∃ (n : BitVec 8) (s : State),
    Plain (.dly n) s := 
  ⟨1, w_delay_and_exit_0_s,
   ⟨by decide +kernel, by decide +kernel, by decide +kernel, by decide +kernel, by decide +kernel⟩⟩

def w_delay_and_exit_0_2_s : State := wordState
theorem test_delay_and_exit_0_2 : ∃ (n : BitVec 8) (s : State),
    Plain (.dly n) s := 
  ⟨255, w_delay_and_exit_0_2_s,
   ⟨by decide +kernel, by decide +kernel, by decide +kernel, by decide +kernel, by decide +kernel⟩⟩

def w_delay_and_exit_1_s : State := wordState
theorem test_delay_and_exit_1 : ∃ (s : State),
    Plain .exit s := 
  ⟨w_delay_and_exit_1_s,
   ⟨by decide +kernel, by decide +kernel, by decide +kernel, by decide +kernel, by decide +kernel⟩⟩

def w_trap_words_0_s : State := wordState
theorem test_trap_words_0 : ∃ (c : BitVec 16) (s : State),
    Plain (.trap c) s := 
  ⟨0xFFFF, w_trap_words_0_s,
   ⟨by decide +kernel, by decide +kernel, by decide +kernel, by decide +kernel, by decide +kernel⟩⟩

def w_trap_words_1_s : State := { wordState with dev := { wordState.dev with cur := { wordState.dev.cur with sp := { dbgctl := 2 } } } }
theorem test_trap_words_1 : ∃ (s : State),
    Plain .brk s ∧
    s.dev.cur.olds (.spec 0x20) = [] ∧
    s.dev.cur.sp.dbgctl.getLsbD 1 = true := 
  ⟨w_trap_words_1_s,
   ⟨by decide +kernel, by decide +kernel, by decide +kernel, by decide +kernel, by decide +kernel⟩, by decide +kernel⟩

def w_trap_words_2_s : State := wordState
theorem test_trap_words_2 : ∃ (s : State),
    Plain .brk s ∧
    s.dev.cur.olds (.spec 0x20) = [] ∧
    s.dev.cur.sp.dbgctl.getLsbD 1 = false := 
  ⟨w_trap_words_2_s,
   ⟨by decide +kernel, by decide +kernel, by decide +kernel, by decide +kernel, by decide +kernel⟩, by decide +kernel⟩

def w_trap_returns_0_s : State := { wordState with dev := { wordState.dev with cur := { wordState.dev.cur with sp := { handling := true, tpc := 0x10080 } } } }
theorem test_trap_returns_0 : ∃ (s : State),
    Plain .reth s ∧
    s.dev.cur.sp.handling = true ∧
    s.dev.cur.olds (.spec 0x11) = [] ∧
    s.dev.cur.olds (.k 15) = [] := 
  ⟨w_trap_returns_0_s,
   ⟨by decide +kernel, by decide +kernel, by decide +kernel, by decide +kernel, by decide +kernel⟩, by decide +kernel⟩

def w_trap_returns_1_s : State := wordState
theorem test_trap_returns_1 : ∃ (s : State) (w : Nat),
    Plain .reth s ∧
    s.dev.cur.sp.handling = false ∧
    encode .reth = some w := 
  ⟨w_trap_returns_1_s, ((encode .reth).get (by decide +kernel)),
   ⟨by decide +kernel, by decide +kernel, by decide +kernel, by decide +kernel, by decide +kernel⟩, by decide +kernel, got _⟩

theorem test_memory_posts_0 : ∃ (i s p : _),
    memPost i s = some p ∧
    Plain i s := 
  ⟨.st 3 2 1 1 .w, wordState, ((memPost (.st 3 2 1 1 .w) wordState).get (by decide +kernel)),
   got _, ⟨by decide +kernel, by decide +kernel, by decide +kernel, by decide +kernel, by decide +kernel⟩⟩

theorem test_memory_posts_1 : ∃ (i s p : _),
    handlePost i s = some p ∧
    Plain i s := 
  ⟨.spext 3 15 16, wordState, ((handlePost (.spext 3 15 16) wordState).get (by decide +kernel)),
   got _, ⟨by decide +kernel, by decide +kernel, by decide +kernel, by decide +kernel, by decide +kernel⟩⟩

def w_token_overflow_0_s : State := { wordState with dev := { wordState.dev with cur := { wordState.dev.cur with ops := (upFrom 1 255).map fun i => { op .instant with id := i }, nextOp := 256 } } }
def w_token_overflow_0_x : MemSpec := ((memSpec ((.ld 3 5 1 1 .w : Instr)) w_token_overflow_0_s).get (by decide +kernel))
theorem test_token_overflow_0 : ∃ (i : Instr) (s : State) (x : MemSpec),
    memSpec i s = some x ∧
    Plain i s ∧
    255 ≤ s.dev.cur.count x.q := 
  ⟨.ld 3 5 1 1 .w, w_token_overflow_0_s, w_token_overflow_0_x,
   got _, ⟨by decide +kernel, by decide +kernel, by decide +kernel, by decide +kernel, by decide +kernel⟩, by decide +kernel⟩

theorem test_engine_posts_0 : ∃ (i s p : _),
    transferPost i s = some p ∧
    Plain i s := 
  ⟨.kcopy 3 1 0, wordState, ((transferPost (.kcopy 3 1 0) wordState).get (by decide +kernel)),
   got _, ⟨by decide +kernel, by decide +kernel, by decide +kernel, by decide +kernel, by decide +kernel⟩⟩

theorem test_engine_posts_1 : ∃ (i s p : _),
    matrixPost i s = some p ∧
    Plain i s := 
  ⟨.mma 3 0 8 16, wordState, ((matrixPost (.mma 3 0 8 16) wordState).get (by decide +kernel)),
   got _, ⟨by decide +kernel, by decide +kernel, by decide +kernel, by decide +kernel, by decide +kernel⟩⟩

theorem test_engine_posts_2 : ∃ (i s p : _),
    belvederePost i s = some p ∧
    Plain i s := 
  ⟨.fsel 3 7 3, tapState, ((belvederePost (.fsel 3 7 3) tapState).get (by decide +kernel)),
   got _, ⟨by decide +kernel, by decide +kernel, by decide +kernel, by decide +kernel, by decide +kernel⟩⟩

def w_block_results_0_s : State := wordState
def w_block_results_0_x : LanesSpec := ((lanesSpec ((.bhdr 5 8 : Instr)) w_block_results_0_s).get (by decide +kernel))
theorem test_block_results_0 : ∃ (i : Instr) (s : State) (x : LanesSpec),
    lanesSpec i s = some x ∧
    Plain i s ∧
    i.wf = true ∧
    (x.alloc s).2.2.1 = [] := 
  ⟨.bhdr 5 8, w_block_results_0_s, w_block_results_0_x,
   got _, ⟨by decide +kernel, by decide +kernel, by decide +kernel, by decide +kernel, by decide +kernel⟩, by decide +kernel⟩

def w_selection_0_s : State := wordState
theorem test_selection_0 : ∃ (d : BitVec 6) (a : BitVec 7) (b : BitVec 6) (s : State),
    Plain (.sample d a b) s ∧
    Met s ∧
    let x := sampleSpec s d a b
    (d.toNat = 63 ∨ (allocLabel s.dev.cur.regs.labels x.2.1).isSome) := 
  ⟨6, 1, 6, w_selection_0_s,
   ⟨by decide +kernel, by decide +kernel, by decide +kernel, by decide +kernel, by decide +kernel⟩, show _ = _ by decide +kernel, by decide +kernel⟩

def w_selection_1_s : State := wordState
def w_selection_1_n : Lbl := ((allocLabel w_selection_1_s.dev.cur.regs.labels (topSpec w_selection_1_s ((1 : BitVec 7)) ((20 : BitVec 6))).set).get (by decide +kernel)).1
def w_selection_1_ls : SMap OSet := ((allocLabel w_selection_1_s.dev.cur.regs.labels (topSpec w_selection_1_s ((1 : BitVec 7)) ((20 : BitVec 6))).set).get (by decide +kernel)).2
theorem test_selection_1 : ∃ (d a : BitVec 7) (r : BitVec 6) (s : State) (n : Lbl) (ls : SMap OSet),
    Plain (.topk d a r) s ∧
    (Instr.topk d a r).wf = true ∧
    Met s ∧
    let x := topSpec s a r
    allocLabel s.dev.cur.regs.labels x.set = some (n, ls) := 
  ⟨20, 1, 20, w_selection_1_s, w_selection_1_n, w_selection_1_ls,
   ⟨by decide +kernel, by decide +kernel, by decide +kernel, by decide +kernel, by decide +kernel⟩, by decide +kernel, show _ = _ by decide +kernel, gotP _⟩

def w_special_writes_0_s : State := wordState
def w_special_writes_0_x : Special := ((swrSpec ((0x11 : BitVec 8)).toNat w_special_writes_0_s.dev.cur.sp (sval w_special_writes_0_s.dev 1 ((4 : BitVec 6)).toNat)).get (by decide +kernel))
theorem test_special_writes_0 : ∃ (a : BitVec 6) (n : BitVec 8) (s : State) (x : Special),
    Plain (.swr a n) s ∧
    swrSpec n.toNat s.dev.cur.sp (sval s.dev 1 a.toNat) = some x ∧
    (n.toNat = 0x20 → s.dev.cur.sp.handling = true ∨ (s.dev.cur.olds (.spec 0x20) = [] ∧ (sval s.dev 1 a.toNat).getLsbD 0 = false)) := 
  ⟨4, 0x11, w_special_writes_0_s, w_special_writes_0_x,
   ⟨by decide +kernel, by decide +kernel, by decide +kernel, by decide +kernel, by decide +kernel⟩, got _, by decide +kernel⟩

def w_special_writes_0_2_s : State := wordState
def w_special_writes_0_2_x : Special := ((swrSpec ((0x18 : BitVec 8)).toNat w_special_writes_0_2_s.dev.cur.sp (sval w_special_writes_0_2_s.dev 1 ((6 : BitVec 6)).toNat)).get (by decide +kernel))
theorem test_special_writes_0_2 : ∃ (a : BitVec 6) (n : BitVec 8) (s : State) (x : Special),
    Plain (.swr a n) s ∧
    swrSpec n.toNat s.dev.cur.sp (sval s.dev 1 a.toNat) = some x ∧
    (n.toNat = 0x20 → s.dev.cur.sp.handling = true ∨ (s.dev.cur.olds (.spec 0x20) = [] ∧ (sval s.dev 1 a.toNat).getLsbD 0 = false)) := 
  ⟨6, 0x18, w_special_writes_0_2_s, w_special_writes_0_2_x,
   ⟨by decide +kernel, by decide +kernel, by decide +kernel, by decide +kernel, by decide +kernel⟩, got _, by decide +kernel⟩

def w_special_writes_1_s : State := wordState
theorem test_special_writes_1 : ∃ (a : BitVec 6) (n : BitVec 8) (s : State),
    Plain (.swr a n) s ∧
    0x40 ≤ n.toNat ∧
    n.toNat < 0x80 := 
  ⟨6, 0x40, w_special_writes_1_s,
   ⟨by decide +kernel, by decide +kernel, by decide +kernel, by decide +kernel, by decide +kernel⟩, by decide +kernel⟩

def w_special_writes_1_2_s : State := wordState
theorem test_special_writes_1_2 : ∃ (a : BitVec 6) (n : BitVec 8) (s : State),
    Plain (.swr a n) s ∧
    0x40 ≤ n.toNat ∧
    n.toNat < 0x80 := 
  ⟨6, 0x7F, w_special_writes_1_2_s,
   ⟨by decide +kernel, by decide +kernel, by decide +kernel, by decide +kernel, by decide +kernel⟩, by decide +kernel⟩

def w_waits_0_s : State := wordState
def w_waits_0_x : WaitSpec := ((waitSpec ((.wait 3 0 : Instr)) w_waits_0_s).get (by decide +kernel))
theorem test_waits_0 : ∃ (i : Instr) (s : State) (x : WaitSpec),
    waitSpec i s = some x ∧
    Plain i s := 
  ⟨.wait 3 0, w_waits_0_s, w_waits_0_x,
   got _, ⟨by decide +kernel, by decide +kernel, by decide +kernel, by decide +kernel, by decide +kernel⟩⟩

def w_pair_exchange_0_s : State := wordPaired
theorem test_pair_exchange_0 : ∃ (i : Instr) (s : State),
    exchanges i = true ∧
    Plain i s ∧
    s.dev.cur.paired = true ∧
    s.dev.cur.met = false := 
  ⟨.kcnt 1 6, w_pair_exchange_0_s,
   by decide +kernel, ⟨by decide +kernel, by decide +kernel, by decide +kernel, by decide +kernel, by decide +kernel⟩, by decide +kernel⟩

def w_barriers_0_s : State := wordState
def w_barriers_0_off : Nat := ((barrierOff w_barriers_0_s ((2 : BitVec 6))).get (by decide +kernel))
def w_barriers_0_n : Lbl := ((allocLabel w_barriers_0_s.dev.cur.regs.labels (sorg w_barriers_0_s.dev 1 ((2 : BitVec 6)).toNat ||| sorg w_barriers_0_s.dev 2 ((6 : BitVec 6)).toNat)).get (by decide +kernel)).1
def w_barriers_0_ls : SMap OSet := ((allocLabel w_barriers_0_s.dev.cur.regs.labels (sorg w_barriers_0_s.dev 1 ((2 : BitVec 6)).toNat ||| sorg w_barriers_0_s.dev 2 ((6 : BitVec 6)).toNat)).get (by decide +kernel)).2
theorem test_barriers_0 : ∃ (a b : BitVec 6) (s : State) (off : Nat) (n : Lbl) (ls : SMap OSet),
    Plain (.bari a b) s ∧
    barrierOff s a = some off ∧
    s.dev.cur.writesDone s.dev.cur.nextOp (.scr 0 off) 8 = true ∧
    allocLabel s.dev.cur.regs.labels (sorg s.dev 1 a.toNat ||| sorg s.dev 2 b.toNat) = some (n, ls) := 
  ⟨2, 6, w_barriers_0_s, w_barriers_0_off, w_barriers_0_n, w_barriers_0_ls,
   ⟨by decide +kernel, by decide +kernel, by decide +kernel, by decide +kernel, by decide +kernel⟩, got _, by decide +kernel, gotP _⟩

def w_barriers_1_s : State := wordState
def w_barriers_1_off : Nat := ((barrierOff w_barriers_1_s ((2 : BitVec 6))).get (by decide +kernel))
theorem test_barriers_1 : ∃ (a : BitVec 6) (s : State) (off : Nat),
    Plain (.bara a) s ∧
    barrierOff s a = some off ∧
    s.dev.cur.released = true ∧
    barrierSound s off = true := 
  ⟨2, w_barriers_1_s, w_barriers_1_off,
   ⟨by decide +kernel, by decide +kernel, by decide +kernel, by decide +kernel, by decide +kernel⟩, got _, by decide +kernel⟩

def w_gathered_calls_0_s : State := { wordState with dev := { wordState.dev with cur := { wordState.dev.cur with regs := { wordState.dev.cur.regs with k := [] } } } }
theorem test_gathered_calls_0 : ∃ (q : BitVec 4) (v : BitVec 7) (a : BitVec 6) (s : State),
    Plain (.callg q v a) s ∧
    callRows s v = [] ∧
    s.dev.cur.ops = [] := 
  ⟨3, 1, 6, w_gathered_calls_0_s,
   ⟨by decide +kernel, by decide +kernel, by decide +kernel, by decide +kernel, by decide +kernel⟩, by decide +kernel⟩

def w_gathered_calls_1_s : State := { wordState with dev := { wordState.dev with cur := { wordState.dev.cur with decl := { wordState.dev.cur.decl with vregs := 124 } } } }
theorem test_gathered_calls_1 : ∃ (q : BitVec 4) (v : BitVec 7) (a : BitVec 6) (s : State),
    Plain (.callg q v a) s ∧
    callRows s v ≠ [] ∧
    s.dev.cur.count q.toNat < 255 := 
  ⟨3, 122, 6, w_gathered_calls_1_s,
   ⟨by decide +kernel, by decide +kernel, by decide +kernel, by decide +kernel, by decide +kernel⟩, by decide +kernel⟩

def w_own_commands_8_s : State := host (entry 0x4A [(16, 1, 2), (24, 4, 256), (28, 2, 1), (32, 8, 196608)])
def w_own_commands_8_bs : List Byte := entry 0x4A [(16, 1, 2), (24, 4, 256), (28, 2, 1), (32, 8, 196608)]
theorem test_own_commands_8 : ∃ (s : State) (bs : List Byte),
    Taken .samplerEnable s bs ∧
    let c := oper bs 16 1
    let b := oper bs 24 4
    s.fw.hasCore (queuePart s) c = true ∧
    256 ≤ b ∧
    b ≤ 2 ^ 24 ∧
    oper bs 28 2 ≠ 0 := 
  ⟨w_own_commands_8_s, w_own_commands_8_bs,
   taken_of (by decide +kernel), by decide +kernel⟩

def w_own_commands_9_s : State := host (entry 0x4A [(16, 1, 2), (28, 2, 5)])
theorem test_own_commands_9 : ∃ (s : State) (bs : List Byte),
    Taken .samplerDisable s bs ∧
    let c := oper bs 16 1
    s.fw.hasCore (queuePart s) c = true ∧
    oper bs 28 2 ≠ 0 := 
  ⟨w_own_commands_9_s, entry 0x4A [(16, 1, 2), (28, 2, 5)],
   taken_of (by decide +kernel), by decide +kernel⟩

def w_own_commands_1_s : State := (fun s : State => { s with fw := { s.fw with policy := [(3, { set := 6, valid := true })] } }) <| host (entry 0x45 [(16, 1, 3)])
theorem test_own_commands_1 : ∃ (s : State) (bs : List Byte),
    Taken .clear s bs ∧
    let n := oper bs 16 1
    let x := mget {} s.fw.policy n
    x.valid = true ∧
    x.clearing = false ∧
    x.part = queuePart s := 
  ⟨w_own_commands_1_s, entry 0x45 [(16, 1, 3)],
   taken_of (by decide +kernel), by decide +kernel⟩

def w_own_commands_2_s : State := { st (team 1) { q := 3 } with fw := { fw with policy := [(3, { set := 6, valid := true, clearing := true })] } }
theorem test_own_commands_2 : ∃ (s : State),
    let n := s.args.q
    let x := mget {} s.fw.policy n
    x.clearing = true ∧
    admittedUnder s.dev n = false := 
  ⟨w_own_commands_2_s,
   by decide +kernel⟩

def w_own_commands_3_s : State := host (entry 0x46 [(16, 8, 131072), (24, 8, 458752), (32, 8, 524288), (40, 4, 5)]) (put 0x10000 (leBytes 8 (1 + 256 + 1 * 2 ^ 16 + 1 * 2 ^ 24 + 4 * 2 ^ 32) ++ leBytes 8 0 ++ leBytes 8 4 ++ leBytes 16 0 ++ leBytes 8 10) [])
def w_own_commands_3_bs : List Byte := entry 0x46 [(16, 8, 131072), (24, 8, 458752), (32, 8, 524288), (40, 4, 5)]
def w_own_commands_3_ed : TlbEnt := ((onPage w_own_commands_3_s (queuePart w_own_commands_3_s) { r := true, w := true, e := true, cls := .plain } (operVa w_own_commands_3_bs 16) 64).get (by decide +kernel))
def w_own_commands_3_er : TlbEnt := ((onPage w_own_commands_3_s (queuePart w_own_commands_3_s) ({ r := true, w := true, e := true, cls := .node } : Need) (operVa w_own_commands_3_bs 24) ({ h := ({ words := numbered 0 (fun j => BitVec.ofNat 64 (if j = 0 then (fun (j : Nat) => memNat w_own_commands_3_s.dev.mem (w_own_commands_3_ed.pa (operVa w_own_commands_3_bs 16) + 8 * j) 8) 0 / 256 * 256 + 3 else if j = 1 then oper w_own_commands_3_bs 24 8 else if j = 6 then 0 else if j = 7 then 0 else (fun (j : Nat) => memNat w_own_commands_3_s.dev.mem (w_own_commands_3_ed.pa (operVa w_own_commands_3_bs 16) + 8 * j) 8) j)) 8 } : Handle), root := oper w_own_commands_3_bs 24 8, pool := oper w_own_commands_3_bs 32 8, n := oper w_own_commands_3_bs 40 4 } : SparseNew).table.length).get (by decide +kernel))
def w_own_commands_3_ep : TlbEnt := ((onPage w_own_commands_3_s (queuePart w_own_commands_3_s) ({ r := true, w := true, e := true, cls := .node } : Need) (operVa w_own_commands_3_bs 32) (256 * ({ h := ({ words := numbered 0 (fun j => BitVec.ofNat 64 (if j = 0 then (fun (j : Nat) => memNat w_own_commands_3_s.dev.mem (w_own_commands_3_ed.pa (operVa w_own_commands_3_bs 16) + 8 * j) 8) 0 / 256 * 256 + 3 else if j = 1 then oper w_own_commands_3_bs 24 8 else if j = 6 then 0 else if j = 7 then 0 else (fun (j : Nat) => memNat w_own_commands_3_s.dev.mem (w_own_commands_3_ed.pa (operVa w_own_commands_3_bs 16) + 8 * j) 8) j)) 8 } : Handle), root := oper w_own_commands_3_bs 24 8, pool := oper w_own_commands_3_bs 32 8, n := oper w_own_commands_3_bs 40 4 } : SparseNew).n)).get (by decide +kernel))
theorem test_own_commands_3 : ∃ (s : State) (bs : List Byte) (ed er ep : TlbEnt),
    Taken .spnew s bs ∧
    let p := queuePart s
    let va := operVa bs 16
    let node : Need := { r := true, w := true, e := true, cls := .node }
    let word := fun (j : Nat) => memNat s.dev.mem (ed.pa va + 8 * j) 8
    let h : Handle := { words := numbered 0 (fun j => BitVec.ofNat 64 (if j = 0 then word 0 / 256 * 256 + 3 else if j = 1 then oper bs 24 8
      else if j = 6 then 0 else if j = 7 then 0 else word j)) 8 }
    let x : SparseNew := { h, root := oper bs 24 8, pool := oper bs 32 8, n := oper bs 40 4 }
    va.toNat % 64 = 0 ∧
    onPage s p { r := true, w := true, e := true, cls := .plain } va 64 = some ed ∧
    s.dev.badU = [] ∧
    limAcquired s ∧
    x.ok = true ∧
    onPage s p node (operVa bs 24) x.table.length = some er ∧
    onPage s p node (operVa bs 32) (256 * x.n) = some ep ∧
    er.ceil = ep.ceil ∧
    let areas := [(er.pa (operVa bs 24), x.table), (ep.pa (operVa bs 32), x.nodes), (ed.pa va, (List.range 8).flatMap fun j => leBytes 8 (mget 0 h.words j).toNat)]
    (areas.Pairwise (fun a b => a.1 + a.2.length ≤ b.1 ∨ b.1 + b.2.length ≤ a.1)) := 
  ⟨w_own_commands_3_s, w_own_commands_3_bs, w_own_commands_3_ed, w_own_commands_3_er, w_own_commands_3_ep,
   taken_of (by decide +kernel), by decide +kernel, got _, by decide +kernel, lim_of (by decide +kernel), by decide +kernel, got _, got _, by decide +kernel⟩

def w_own_commands_4_s : State := (fun s : State => { s with dev := { s.dev with graphs := [(2, { made := true, running := some 0 })] } }) <| host (entry 0x47 [(16, 4, 2), (20, 4, 1), (24, 8, 196608), (32, 8, 197632)])
def w_own_commands_4_bs : List Byte := entry 0x47 [(16, 4, 2), (20, 4, 1), (24, 8, 196608), (32, 8, 197632)]
theorem test_own_commands_4 : ∃ (s : State) (bs : List Byte),
    Taken .graph s bs ∧
    let g := graphKey (queuePart s) (oper bs 16 4)
    oper bs 16 4 ≤ 1023 ∧
    1 ≤ oper bs 20 4 ∧
    oper bs 20 4 ≤ 64 ∧
    ((s.dev.graph g).running ≠ none ∨ graphWaiting s.dev g ≠ none) := 
  ⟨w_own_commands_4_s, w_own_commands_4_bs,
   taken_of (by decide +kernel), by decide +kernel⟩

def w_own_commands_5_s : State := host (entry 0x47 [(16, 4, 2), (20, 4, 2), (24, 8, 196608), (32, 8, 197632)]) (put 0x20000 ([1] ++ leBytes 15 0 ++ leBytes 8 0x40000 ++ leBytes 40 5 ++ [2, 1]) (put 0x20400 (leBytes 8 99) (put 0x20600 (leBytes 4 3) [])))
def w_own_commands_5_bs : List Byte := entry 0x47 [(16, 4, 2), (20, 4, 2), (24, 8, 196608), (32, 8, 197632)]
def w_own_commands_5_e : TlbEnt := ((onPage w_own_commands_5_s (queuePart w_own_commands_5_s) fwR (operVa w_own_commands_5_bs 24) (64 * (oper w_own_commands_5_bs 20 4))).get (by decide +kernel))
def w_own_commands_5_f : TlbEnt := ((onPage w_own_commands_5_s (queuePart w_own_commands_5_s) fwR (operVa w_own_commands_5_bs 32) 768).get (by decide +kernel))
theorem test_own_commands_5 : ∃ (s : State) (bs : List Byte) (e f : TlbEnt),
    Taken .graph s bs ∧
    let p := queuePart s
    let g := graphKey p (oper bs 16 4)
    let n := oper bs 20 4
    let a := e.pa (operVa bs 24)
    oper bs 16 4 ≤ 1023 ∧
    1 ≤ n ∧
    n ≤ 64 ∧
    (s.dev.graph g).running = none ∧
    graphWaiting s.dev g = none ∧
    onPage s p fwR (operVa bs 24) (64 * n) = some e ∧
    onPage s p fwR (operVa bs 32) 768 = some f ∧
    s.dev.badU = [] ∧
    s.dev.badCorr = [] ∧
    limAcquired s ∧
    (∀ i, i < n → memNat s.dev.mem (a + 64 * i) 1 = 1 ∨ memNat s.dev.mem (a + 64 * i) 1 = 2) := 
  ⟨w_own_commands_5_s, w_own_commands_5_bs, w_own_commands_5_e, w_own_commands_5_f,
   taken_of (by decide +kernel), by decide +kernel, by decide +kernel, by decide +kernel, ⟨by decide +kernel, by decide +kernel, got _, got _, by decide +kernel, by decide +kernel, lim_of (by decide +kernel), by decide +kernel⟩⟩

def w_own_commands_6_s : State := host (entry 0x48 [(16, 4, 9), (20, 1, 0), (24, 8, 196608), (32, 4, 2)])
def w_own_commands_6_bs : List Byte := entry 0x48 [(16, 4, 9), (20, 1, 0), (24, 8, 196608), (32, 4, 2)]
def w_own_commands_6_l : List (Dword × TlbEnt) := (exGet (fwRange w_own_commands_6_s.fw w_own_commands_6_s.dev (queuePart w_own_commands_6_s) { e := true } (operVa w_own_commands_6_bs 24) (65536 * oper w_own_commands_6_bs 32 4)) (by decide +kernel))
theorem test_own_commands_6 : ∃ (s : State) (bs : List Byte) (l : List (Dword × TlbEnt)),
    Taken .windowRegister s bs ∧
    let n := oper bs 16 4
    let len := 65536 * oper bs 32 4
    n ≤ 65535 ∧
    oper bs 24 8 % 65536 = 0 ∧
    len ≠ 0 ∧
    len ≤ 2 ^ 32 ∧
    (s.dev.window n).reg = false ∧
    fwRange s.fw s.dev (queuePart s) { e := true } (operVa bs 24) len = .ok l ∧
    (∀ x ∈ l, (s.dev.frame x.2.ent).mig = 0 ∧ (s.dev.frame x.2.ent).pin.toNat < 65535) := 
  ⟨w_own_commands_6_s, w_own_commands_6_bs, w_own_commands_6_l,
   taken_of (by decide +kernel), by decide +kernel, by decide +kernel, by decide +kernel, ⟨by decide +kernel, by decide +kernel, exGot _, by decide +kernel⟩⟩

def w_own_commands_7_s : State := (fun s : State => { s with dev := { s.dev with windows := [(9, { base := 0x30000, len := 65536, reg := true, pins := [2] })], frames := mupd {} s.dev.frames 2 fun f => { f with pin := 1 } } }) <| host (entry 0x48 [(16, 4, 9), (20, 1, 1)])
theorem test_own_commands_7 : ∃ (s : State) (bs : List Byte),
    Taken .windowDeregister s bs ∧
    let x := s.dev.window (oper bs 16 4)
    x.reg = true ∧
    x.part = queuePart s := 
  ⟨w_own_commands_7_s, entry 0x48 [(16, 4, 9), (20, 1, 1)],
   taken_of (by decide +kernel), by decide +kernel⟩

def w_partition_commands_0_s : State := host (entry 0x40 [(16, 4, 40), (20, 1, 16), (21, 1, 7), (22, 1, 3), (23, 1, 1), (24, 8, 2 ^ 63 + 2 ^ 49 - 64), (32, 2, 2047), (34, 1, 1), (36, 4, 1024), (44, 4, 2 ^ 24)])
def w_partition_commands_0_bs : List Byte := entry 0x40 [(16, 4, 40), (20, 1, 16), (21, 1, 7), (22, 1, 3), (23, 1, 1), (24, 8, 2 ^ 63 + 2 ^ 49 - 64), (32, 2, 2047), (34, 1, 1), (36, 4, 1024), (44, 4, 2 ^ 24)]
theorem test_partition_commands_0 : ∃ (s : State) (bs : List Byte),
    Taken .qset s bs ∧
    let q := oper bs 16 4
    let p := oper bs 22 1
    let ring := oper bs 24 8
    let limit := fun (off : Nat) => oper bs off 4 = 0 ∨ (1024 ≤ oper bs off 4 ∧ oper bs off 4 ≤ 2 ^ 24)
    q ≤ 32767 ∧
    1 ≤ oper bs 20 1 ∧
    oper bs 20 1 ≤ 16 ∧
    oper bs 21 1 ≤ 7 ∧
    p ≤ 23 ∧
    oper bs 23 1 ≤ 1 ∧
    ring % 64 = 0 ∧
    ring % 2 ^ 63 < 2 ^ 49 ∧
    1 ≤ oper bs 32 2 ∧
    oper bs 32 2 ≤ 2047 ∧
    oper bs 34 1 ≤ 1 ∧
    limit 36 ∧
    limit 40 ∧
    limit 44 := 
  ⟨w_partition_commands_0_s, w_partition_commands_0_bs,
   taken_of (by decide +kernel), by decide +kernel⟩

def w_partition_commands_0_2_s : State := host (entry 0x40 [(16, 4, 100), (20, 1, 1), (21, 1, 0), (22, 1, 0), (23, 1, 0), (24, 8, 64), (32, 2, 1)])
def w_partition_commands_0_2_bs : List Byte := entry 0x40 [(16, 4, 100), (20, 1, 1), (21, 1, 0), (22, 1, 0), (23, 1, 0), (24, 8, 64), (32, 2, 1)]
theorem test_partition_commands_0_2 : ∃ (s : State) (bs : List Byte),
    Taken .qset s bs ∧
    let q := oper bs 16 4
    let p := oper bs 22 1
    let ring := oper bs 24 8
    let limit := fun (off : Nat) => oper bs off 4 = 0 ∨ (1024 ≤ oper bs off 4 ∧ oper bs off 4 ≤ 2 ^ 24)
    q ≤ 32767 ∧
    1 ≤ oper bs 20 1 ∧
    oper bs 20 1 ≤ 16 ∧
    oper bs 21 1 ≤ 7 ∧
    p ≤ 23 ∧
    oper bs 23 1 ≤ 1 ∧
    ring % 64 = 0 ∧
    ring % 2 ^ 63 < 2 ^ 49 ∧
    1 ≤ oper bs 32 2 ∧
    oper bs 32 2 ≤ 2047 ∧
    oper bs 34 1 ≤ 1 ∧
    limit 36 ∧
    limit 40 ∧
    limit 44 := 
  ⟨w_partition_commands_0_2_s, w_partition_commands_0_2_bs,
   taken_of (by decide +kernel), by decide +kernel⟩

def w_partition_commands_1_s : State := host (entry 0x41 [(16, 1, 23), (17, 1, 0), (24, 8, 196608)]) (put 0x20000 (packBytes 128 [(4, 4, 500), (8, 4, 4), (16, 16, 12), (40, 8, 0x1000), (48, 8, 5), (56, 8, 6), (64, 4, 2048), (88, 8, 7)]) [])
def w_partition_commands_1_bs : List Byte := entry 0x41 [(16, 1, 23), (17, 1, 0), (24, 8, 196608)]
def w_partition_commands_1_e : TlbEnt := ((onPage w_partition_commands_1_s (queuePart w_partition_commands_1_s) fwR (operVa w_partition_commands_1_bs 24) 128).get (by decide +kernel))
def w_partition_commands_1_x : Part := ((Machine.partOf (memBytes w_partition_commands_1_s.dev.mem (w_partition_commands_1_e.pa (operVa w_partition_commands_1_bs 24)) 128)).get (by decide +kernel))
theorem test_partition_commands_1 : ∃ (s : State) (bs : List Byte) (e : TlbEnt) (x : Part),
    Taken .partCreate s bs ∧
    let p := oper bs 16 1
    let b := memBytes s.dev.mem (e.pa (operVa bs 24)) 128
    p ≤ 23 ∧
    onPage s (queuePart s) fwR (operVa bs 24) 128 = some e ∧
    s.dev.badU = [] ∧
    s.dev.badCorr = [] ∧
    limAcquired s ∧
    Machine.partOf b = some x ∧
    (s.fw.part p).state = 0 ∧
    partFree s.fw p x = true := 
  ⟨w_partition_commands_1_s, w_partition_commands_1_bs, w_partition_commands_1_e, w_partition_commands_1_x,
   taken_of (by decide +kernel), by decide +kernel, got _, by decide +kernel, by decide +kernel, lim_of (by decide +kernel), got _, by decide +kernel⟩

def w_partition_commands_2_s : State := (fun s : State => { s with dev := { s.dev with cmds := [{ id := 5, q := 2, part := 0, tag := 7, comp := 0x20008, notify := true, wait := .clear 3 }] } }) <| host (entry 0x41 [(16, 1, 0), (17, 1, 1)])
theorem test_partition_commands_2 : ∃ (s : State) (bs : List Byte),
    Taken .partHalt s bs ∧
    let p := oper bs 16 1
    p ≤ 23 ∧
    (s.fw.part p).state = 1 := 
  ⟨w_partition_commands_2_s, entry 0x41 [(16, 1, 0), (17, 1, 1)],
   taken_of (by decide +kernel), by decide +kernel⟩

def w_partition_commands_2_2_s : State := (fun s : State => { s with fw := { s.fw with parts := s.fw.parts ++ [(1, { state := 1, pairs := 12, qbase := 20, qcount := 4 })], queues := mins s.fw.queues 20 { state := 1, part := 1 } } }) <| host (entry 0x41 [(16, 1, 1), (17, 1, 1)])
theorem test_partition_commands_2_2 : ∃ (s : State) (bs : List Byte),
    Taken .partHalt s bs ∧
    let p := oper bs 16 1
    p ≤ 23 ∧
    (s.fw.part p).state = 1 := 
  ⟨w_partition_commands_2_2_s, entry 0x41 [(16, 1, 1), (17, 1, 1)],
   taken_of (by decide +kernel), by decide +kernel⟩

def w_partition_commands_3_s : State := (fun s : State => { s with fw := { s.fw with parts := s.fw.parts ++ [(1, { state := 1, pairs := 12, qbase := 20, qcount := 4 })], queues := mins s.fw.queues 20 { state := 1, part := 1 } } }) <| host (entry 0x41 [(16, 1, 1), (17, 1, 2)])
theorem test_partition_commands_3 : ∃ (s : State) (bs : List Byte),
    Taken .partReset s bs ∧
    let p := oper bs 16 1
    p ≤ 23 ∧
    (s.fw.part p).state ≠ 0 ∧
    (s.fw.part p).state ≠ 3 := 
  ⟨w_partition_commands_3_s, entry 0x41 [(16, 1, 1), (17, 1, 2)],
   taken_of (by decide +kernel), by decide +kernel⟩

def w_partition_commands_3_2_s : State := (fun s : State => { s with fw := { s.fw with parts := s.fw.parts ++ [(1, { state := 1, pairs := 12, qbase := 20, qcount := 4 })], queues := mins s.fw.queues 20 { state := 1, part := 1 } } }) <| host (entry 0x41 [(16, 1, 0), (17, 1, 2)])
theorem test_partition_commands_3_2 : ∃ (s : State) (bs : List Byte),
    Taken .partReset s bs ∧
    let p := oper bs 16 1
    p ≤ 23 ∧
    (s.fw.part p).state ≠ 0 ∧
    (s.fw.part p).state ≠ 3 := 
  ⟨w_partition_commands_3_2_s, entry 0x41 [(16, 1, 0), (17, 1, 2)],
   taken_of (by decide +kernel), by decide +kernel⟩

def w_partition_commands_4_s : State := (fun s : State => { s with fw := { s.fw with parts := [(0, { state := 3, pairs := 3, origins := 6 })], origins := [(1, { reg := true }), (2, { reg := true })], policy := [(3, { set := 6, valid := true })] }, dev := { s.dev with graphs := [(2, { made := true })], launches := [(1, {})], list := [.launch 1] , windows := [(9, { base := 0x30000, len := 65536, reg := true, pins := [2] })] } }) (st (team 1) { part := 0 })
theorem test_partition_commands_4 : ∃ (s : State),
    let p := s.args.part
    (s.fw.part p).state = 3 := 
  ⟨w_partition_commands_4_s,
   by decide +kernel⟩

def w_partition_commands_4_2_s : State := (fun s : State => { s with fw := { s.fw with parts := [(0, { state := 1 }), (1, { state := 3, pairs := 3, origins := 6 })] }, dev := { s.dev with frames := mupd {} s.dev.frames 2 fun f => { f with part := 1 }, cmds := [{ id := 5, q := 100, part := 0, tag := 7, comp := 0x20000, notify := true, wait := .reset 1 }] } }) (st (team 1) { part := 1 })
theorem test_partition_commands_4_2 : ∃ (s : State),
    let p := s.args.part
    (s.fw.part p).state = 3 := 
  ⟨w_partition_commands_4_2_s,
   by decide +kernel⟩

def w_partition_commands_5_s : State := host (entry 0x42 [(16, 1, 0), (17, 1, 1), (24, 16, ({ perm := 15, count := 5, hbase := 0x1000000, gbase := 64 } : Extent).image)])
def w_partition_commands_5_bs : List Byte := entry 0x42 [(16, 1, 0), (17, 1, 1), (24, 16, ({ perm := 15, count := 5, hbase := 0x1000000, gbase := 64 } : Extent).image)]
def w_partition_commands_5_x : Extent := { perm := 15, count := 5, hbase := 0x1000000, gbase := 64 }
theorem test_partition_commands_5 : ∃ (s : State) (bs : List Byte) (x : Extent),
    Taken .fmap s bs ∧
    let p := oper bs 16 1
    p ≤ 23 ∧
    oper bs 17 1 ≤ 63 ∧
    oper bs 24 16 = x.image ∧
    (x.hbase.getLsbD 24 = true ∨ x.hbase.getLsbD 23 = false) ∧
    (∀ j, j < 64 → j ≠ oper bs 17 1 → x.overlaps (mget {} s.fw.fmaps (64 * p + j)) = false) ∧
    intrudes s.fw s.dev p x = false := 
  ⟨w_partition_commands_5_s, w_partition_commands_5_bs, w_partition_commands_5_x,
   taken_of (by decide +kernel), by decide +kernel⟩

def w_partition_commands_5_2_s : State := (fun s : State => { s with dev := { s.dev with cores := [(0, { tlb := [{ part := 0, asid := 0, vpn := 4, pf := 3, cls := 0, mi := false, perm := 15, sperm := 15, ceil := 3, ent := 3, ext := 0 }] })] } }) <| host (entry 0x42 [(16, 1, 0), (17, 1, 0), (24, 16, ({ perm := 3, count := 5, hbase := 7, gbase := 2 } : Extent).image)])
def w_partition_commands_5_2_bs : List Byte := entry 0x42 [(16, 1, 0), (17, 1, 0), (24, 16, ({ perm := 3, count := 5, hbase := 7, gbase := 2 } : Extent).image)]
def w_partition_commands_5_2_x : Extent := { perm := 3, count := 5, hbase := 7, gbase := 2 }
theorem test_partition_commands_5_2 : ∃ (s : State) (bs : List Byte) (x : Extent),
    Taken .fmap s bs ∧
    let p := oper bs 16 1
    p ≤ 23 ∧
    oper bs 17 1 ≤ 63 ∧
    oper bs 24 16 = x.image ∧
    (x.hbase.getLsbD 24 = true ∨ x.hbase.getLsbD 23 = false) ∧
    (∀ j, j < 64 → j ≠ oper bs 17 1 → x.overlaps (mget {} s.fw.fmaps (64 * p + j)) = false) ∧
    intrudes s.fw s.dev p x = false := 
  ⟨w_partition_commands_5_2_s, w_partition_commands_5_2_bs, w_partition_commands_5_2_x,
   taken_of (by decide +kernel), by decide +kernel⟩

def w_partition_commands_6_s : State := let s := st (team 1) { op := 5 }; { s with dev := { s.dev with cores := [(0, { tlb := [{ part := 0, asid := 0, vpn := 4, pf := 7, cls := 0, mi := false, perm := 15, sperm := 15, ceil := 3, ent := 3, ext := 0 }] })], cmds := [{ id := 5, q := 100, part := 0, tag := 7, comp := 0, notify := true, wait := .fmap 0 {} }] } }
def w_partition_commands_6_c : Cmd := { id := 5, q := 100, part := 0, tag := 7, comp := 0, notify := true, wait := .fmap 0 {} }
theorem test_partition_commands_6 : ∃ (s : State) (c : Cmd) (i : Nat) (old : Extent),
    s.args.op ≠ 0 ∧
    s.dev.moved = false ∧
    s.dev.cmd s.args.op = some c ∧
    c.wait = .fmap i old ∧
    partIdle s.dev (i / 64) = true := 
  ⟨w_partition_commands_6_s, w_partition_commands_6_c, 0, {},
   by decide +kernel⟩

def w_partition_commands_7_s : State := host (entry 0x4D [(16, 1, 0), (20, 4, 20), (24, 32, ({ v := true, vpn := 77, perm := 9, part := 3, asid := 5, ceil := 6, cur := 2, fw := 99 } : Frame).image)])
def w_partition_commands_7_bs : List Byte := entry 0x4D [(16, 1, 0), (20, 4, 20), (24, 32, ({ v := true, vpn := 77, perm := 9, part := 3, asid := 5, ceil := 6, cur := 2, fw := 99 } : Frame).image)]
def w_partition_commands_7_f : Frame := { v := true, vpn := 77, perm := 9, part := 3, asid := 5, ceil := 6, cur := 2, fw := 99 }
theorem test_partition_commands_7 : ∃ (s : State) (bs : List Byte) (f : Frame),
    Taken .map s bs ∧
    let t := oper bs 16 1
    let fr := oper bs 20 4
    let p := f.part.toNat
    let n := entOf p (if t = 8 then 2 ^ 23 + fr else t * 2 ^ 20 + fr)
    let old := s.dev.frame n
    t ≤ 8 ∧
    fr < (if t = 8 then 2 ^ 24 else 2 ^ 20) ∧
    oper bs 24 32 = f.image ∧
    f.cls ≠ 3 ∧
    p < 24 ∧
    f.pin = 0 ∧
    f.mig = 0 ∧
    old.pin = 0 ∧
    old.mig = 0 ∧
    (∀ pf, f.v = true → physOf s.fw n = some pf → takenBy s.fw s.dev p pf = false) := 
  ⟨w_partition_commands_7_s, w_partition_commands_7_bs, w_partition_commands_7_f,
   taken_of (by decide +kernel), by decide +kernel, by decide +kernel, by decide +kernel, ⟨by decide +kernel, by decide +kernel, by decide +kernel, ⟨by decide +kernel, by decide +kernel, by decide +kernel, fun x _ e => free_of (by decide +kernel) x e⟩⟩⟩

def w_partition_commands_7_2_s : State := host (entry 0x4D [(16, 1, 0), (20, 4, 2), (24, 32, ({ v := true, vpn := 77, perm := 9, ceil := 6 } : Frame).image)])
def w_partition_commands_7_2_bs : List Byte := entry 0x4D [(16, 1, 0), (20, 4, 2), (24, 32, ({ v := true, vpn := 77, perm := 9, ceil := 6 } : Frame).image)]
def w_partition_commands_7_2_f : Frame := { v := true, vpn := 77, perm := 9, ceil := 6 }
theorem test_partition_commands_7_2 : ∃ (s : State) (bs : List Byte) (f : Frame),
    Taken .map s bs ∧
    let t := oper bs 16 1
    let fr := oper bs 20 4
    let p := f.part.toNat
    let n := entOf p (if t = 8 then 2 ^ 23 + fr else t * 2 ^ 20 + fr)
    let old := s.dev.frame n
    t ≤ 8 ∧
    fr < (if t = 8 then 2 ^ 24 else 2 ^ 20) ∧
    oper bs 24 32 = f.image ∧
    f.cls ≠ 3 ∧
    p < 24 ∧
    f.pin = 0 ∧
    f.mig = 0 ∧
    old.pin = 0 ∧
    old.mig = 0 ∧
    (∀ pf, f.v = true → physOf s.fw n = some pf → takenBy s.fw s.dev p pf = false) := 
  ⟨w_partition_commands_7_2_s, w_partition_commands_7_2_bs, w_partition_commands_7_2_f,
   taken_of (by decide +kernel), by decide +kernel, by decide +kernel, by decide +kernel, ⟨by decide +kernel, by decide +kernel, by decide +kernel, ⟨by decide +kernel, by decide +kernel, by decide +kernel, fun x _ e => free_of (by decide +kernel) x e⟩⟩⟩

def w_partition_commands_8_s : State := (fun s : State => { s with fw := { s.fw with parts := mupd {} s.fw.parts 0 fun x => { x with origins := 1 } } }) <| host (entry 0x43 [(16, 1, 0), (17, 1, 31), (24, 8, 196608)]) (put 0x20000 (leBytes 64 12345 ++ packBytes 64 [(0, 8, 5), (8, 4, 64), (12, 1, 3)]) [])
def w_partition_commands_8_bs : List Byte := entry 0x43 [(16, 1, 0), (17, 1, 31), (24, 8, 196608)]
def w_partition_commands_8_e : TlbEnt := ((onPage w_partition_commands_8_s (queuePart w_partition_commands_8_s) fwR (operVa w_partition_commands_8_bs 24) 128).get (by decide +kernel))
theorem test_partition_commands_8 : ∃ (s : State) (bs : List Byte) (e : TlbEnt),
    Taken .origin s bs ∧
    let p := oper bs 16 1
    let n := oper bs 17 1
    let b := memBytes s.dev.mem (e.pa (operVa bs 24)) 128
    p ≤ 23 ∧
    n ≤ 31 ∧
    (s.fw.part p).state ≠ 0 ∧
    (s.fw.part p).origins.getLsbD n = false ∧
    onPage s (queuePart s) fwR (operVa bs 24) 128 = some e ∧
    s.dev.badU = [] ∧
    s.dev.badCorr = [] ∧
    limAcquired s ∧
    destOk (b.drop 64) = true := 
  ⟨w_partition_commands_8_s, w_partition_commands_8_bs, w_partition_commands_8_e,
   taken_of (by decide +kernel), by decide +kernel, by decide +kernel, by decide +kernel, ⟨by decide +kernel, got _, by decide +kernel, by decide +kernel, lim_of (by decide +kernel), by decide +kernel⟩⟩

def w_partition_commands_9_s : State := host (entry 0x49 [(16, 2, 5), (18, 1, 0), (24, 8, 77), (32, 1, 23)])
def w_partition_commands_9_bs : List Byte := entry 0x49 [(16, 2, 5), (18, 1, 0), (24, 8, 77), (32, 1, 23)]
theorem test_partition_commands_9 : ∃ (s : State) (bs : List Byte),
    Taken .peer s bs ∧
    let q := oper bs 16 2
    q ≠ 0 ∧
    oper bs 18 1 ≤ 23 ∧
    oper bs 32 1 ≤ 23 := 
  ⟨w_partition_commands_9_s, w_partition_commands_9_bs,
   taken_of (by decide +kernel), by decide +kernel⟩

def w_partition_commands_10_s : State := let s := st (team 1) { q := 5 }; { s with fw := { fw with peers := [(5, { digest := 7 })] }, dev := { s.dev with cmds := [{ id := 5, q := 100, part := 0, tag := 7, comp := 0x20000, notify := false, wait := .peer 5 }] } }
def w_partition_commands_10_c : Cmd := ((w_partition_commands_10_s.dev.cmds.find? (fun x => x.wait == .peer w_partition_commands_10_s.args.q)).get (by decide +kernel))
theorem test_partition_commands_10 : ∃ (s : State) (c : Cmd),
    s.dev.cmds.find? (fun x => x.wait == .peer s.args.q) = some c := 
  ⟨w_partition_commands_10_s, w_partition_commands_10_c,
   got _⟩

def w_partition_commands_11_s : State := host (entry 0x4E [(16, 8, 196608), (24, 8, 128)]) (put 0x20000 (leBytes 64 12345) [])
def w_partition_commands_11_bs : List Byte := entry 0x4E [(16, 8, 196608), (24, 8, 128)]
def w_partition_commands_11_b : List Byte := ((fwRead w_partition_commands_11_s.fw w_partition_commands_11_s.dev (queuePart w_partition_commands_11_s) (operVa w_partition_commands_11_bs 16) (oper w_partition_commands_11_bs 24 8)).get (by decide +kernel))
theorem test_partition_commands_11 : ∃ (s : State) (bs b : List Byte),
    Taken .fwload s bs ∧
    fwRead s.fw s.dev (queuePart s) (operVa bs 16) (oper bs 24 8) = some b ∧
    s.dev.badCorr = [] := 
  ⟨w_partition_commands_11_s, w_partition_commands_11_bs, w_partition_commands_11_b,
   taken_of (by decide +kernel), got _, by decide +kernel⟩

def w_report_commands_0_s : State := host (entry 0x4B [(16, 1, 0), (24, 8, 196608)])
def w_report_commands_0_e : TlbEnt := ((onPage w_report_commands_0_s (queuePart w_report_commands_0_s) fwW (operVa (entry 0x4B [(16, 1, 0), (24, 8, 196608)]) 24) 128).get (by decide +kernel))
theorem test_report_commands_0 : ∃ (s : State) (bs : List Byte) (e : TlbEnt),
    Taken .queryPartition s bs ∧
    onPage s (queuePart s) fwW (operVa bs 24) 128 = some e ∧
    s.dev.badU = [] := 
  ⟨w_report_commands_0_s, entry 0x4B [(16, 1, 0), (24, 8, 196608)], w_report_commands_0_e,
   taken_of (by decide +kernel), got _, by decide +kernel⟩

def w_report_commands_1_s : State := host (entry 0x4B [(16, 1, 1), (24, 8, 196608), (32, 32, 2 ^ 200 + 5)])
def w_report_commands_1_bs : List Byte := entry 0x4B [(16, 1, 1), (24, 8, 196608), (32, 32, 2 ^ 200 + 5)]
def w_report_commands_1_e : TlbEnt := ((onPage w_report_commands_1_s (queuePart w_report_commands_1_s) fwW (operVa w_report_commands_1_bs 24) 36368).get (by decide +kernel))
theorem test_report_commands_1 : ∃ (s : State) (bs : List Byte) (e : TlbEnt),
    Taken .queryQuote s bs ∧
    onPage s (queuePart s) fwW (operVa bs 24) 36368 = some e ∧
    s.dev.badU = [] := 
  ⟨w_report_commands_1_s, w_report_commands_1_bs, w_report_commands_1_e,
   taken_of (by decide +kernel), got _, by decide +kernel⟩

def w_report_commands_2_s : State := (fun s : State => { s with dev := { s.dev with saves := [{ seq := 9, keys := originKeys fw 0, pages := [(3, some 0), (7, some 2)] }], launches := [(6, { launchId := 12, left := 2, prio := 3 })] } }) <| host (entry 0x4C [(16, 8, 196608)]) (put 0x20000 (packBytes 64 [(0, 1, 1), (1, 1, 2), (4, 2, 64), (6, 1, 32), (7, 1, 4), (8, 8, 0x10010), (16, 8, 0x10000), (24, 4, 3), (28, 4, 12), (32, 4, 1), (36, 4, 1), (40, 1, 2), (48, 8, 9), (56, 8, 2000)]) [])
def w_report_commands_2_h : List Byte := ((fwRead w_report_commands_2_s.fw w_report_commands_2_s.dev (queuePart w_report_commands_2_s) (operVa (entry 0x4C [(16, 8, 196608)]) 16) 5120).get (by decide +kernel))
def w_report_commands_2_n : SaveNote := ((w_report_commands_2_s.dev.saves.find? (fun n => n.seq.toNat == fieldAt w_report_commands_2_h 48 8)).get (by decide +kernel))
theorem test_report_commands_2 : ∃ (s : State) (bs h : List Byte) (n : SaveNote),
    Taken .restore s bs ∧
    let p := queuePart s
    fwRead s.fw s.dev p (operVa bs 16) 5120 = some h ∧
    s.dev.badCorr = [] ∧
    s.dev.saves.find? (fun n => n.seq.toNat == fieldAt h 48 8) = some n ∧
    fieldAt h 0 1 = 1 ∧
    n.keys = originKeys s.fw p ∧
    (∀ x ∈ n.pages, ∃ e, freshXl s.fw s.dev p 0 x.1 = .ok e ∧ ∀ c, x.2 = some c → e.cls.toNat = c) := 
  ⟨w_report_commands_2_s, entry 0x4C [(16, 8, 196608)], w_report_commands_2_h, w_report_commands_2_n,
   taken_of (by decide +kernel), got _, by decide +kernel, got _, by decide +kernel, by decide +kernel, pages_of (by decide +kernel)⟩

def w_report_commands_3_s : State := hostP (entry 0x50 [(16, 4, 0)])
def w_report_commands_3_m : Team := ((teamById w_report_commands_3_s.dev (queuePart w_report_commands_3_s) (oper (entry 0x50 [(16, 4, 0)]) 16 4)).get (by decide +kernel))
theorem test_report_commands_3 : ∃ (s : State) (bs : List Byte) (m : Team),
    teamById s.dev (queuePart s) (oper bs 16 4) = some m ∧
    (s.dev.teams.map (·.key)).Nodup ∧
    (∀ x ∈ swapped s.dev, x.key ≠ m.key) ∧
    Taken .halt s bs := 
  ⟨w_report_commands_3_s, entry 0x50 [(16, 4, 0)], w_report_commands_3_m,
   got _, by decide +kernel, by decide +kernel, taken_of (by decide +kernel)⟩

def w_report_commands_3_2_s : State := hostP (entry 0x51 [(16, 4, 0)])
def w_report_commands_3_2_m : Team := ((teamById w_report_commands_3_2_s.dev (queuePart w_report_commands_3_2_s) (oper (entry 0x51 [(16, 4, 0)]) 16 4)).get (by decide +kernel))
theorem test_report_commands_3_2 : ∃ (s : State) (bs : List Byte) (m : Team),
    teamById s.dev (queuePart s) (oper bs 16 4) = some m ∧
    (s.dev.teams.map (·.key)).Nodup ∧
    (∀ x ∈ swapped s.dev, x.key ≠ m.key) ∧
    Taken .resume s bs := 
  ⟨w_report_commands_3_2_s, entry 0x51 [(16, 4, 0)], w_report_commands_3_2_m,
   got _, by decide +kernel, by decide +kernel, taken_of (by decide +kernel)⟩

def w_report_commands_3_3_s : State := hostP (entry 0x53 [(16, 4, 0), (24, 8, 0xF3), (32, 8, 0x100), (40, 8, 0x3FFFF8)])
def w_report_commands_3_3_bs : List Byte := entry 0x53 [(16, 4, 0), (24, 8, 0xF3), (32, 8, 0x100), (40, 8, 0x3FFFF8)]
def w_report_commands_3_3_m : Team := ((teamById w_report_commands_3_3_s.dev (queuePart w_report_commands_3_3_s) (oper w_report_commands_3_3_bs 16 4)).get (by decide +kernel))
theorem test_report_commands_3_3 : ∃ (s : State) (bs : List Byte) (m : Team),
    teamById s.dev (queuePart s) (oper bs 16 4) = some m ∧
    (s.dev.teams.map (·.key)).Nodup ∧
    (∀ x ∈ swapped s.dev, x.key ≠ m.key) ∧
    Taken .dbgset s bs ∧
    (swrSpec 0x20 m.sp (operVa bs 24)).isSome = true ∧
    (swrSpec 0x21 m.sp (operVa bs 32)).isSome = true ∧
    (swrSpec 0x22 m.sp (operVa bs 40)).isSome = true := 
  ⟨w_report_commands_3_3_s, w_report_commands_3_3_bs, w_report_commands_3_3_m,
   got _, by decide +kernel, by decide +kernel, taken_of (by decide +kernel), by decide +kernel⟩

def w_report_commands_4_s : State := (fun s : State => { s with dev := { s.dev with list := [.restore { part := 0, prio := 0, launch := 6, area := 0x30000, pins := [2], decl := {}, key := 9, teamId := 4 }] } }) <| hostP (entry 0x50 [(16, 4, 4)])
def w_report_commands_4_x : Swapped := { part := 0, prio := 0, launch := 6, area := 0x30000, pins := [2], decl := {}, key := 9, teamId := 4 }
theorem test_report_commands_4 : ∃ (s : State) (bs : List Byte) (x : Swapped),
    teamById s.dev (queuePart s) (oper bs 16 4) = none ∧
    x ∈ swapped s.dev ∧
    x.part = queuePart s ∧
    x.teamId.toNat = oper bs 16 4 ∧
    (s.dev.teams.map (·.key) ++ (swapped s.dev).map (·.key)).Nodup ∧
    (∀ y ∈ swapped s.dev, y.part = x.part → y.teamId = x.teamId → y = x) ∧
    Taken .halt s bs := 
  ⟨w_report_commands_4_s, entry 0x50 [(16, 4, 4)], w_report_commands_4_x,
   by decide +kernel, by decide +kernel, by decide +kernel, ⟨by decide +kernel, by decide +kernel, by decide +kernel, taken_of (by decide +kernel)⟩⟩

def w_ordinary_commands_0_s : State := host (entry 0x01 [(16, 8, 196608), (24, 8, 5), (32, 4, 3), (40, 8, 262144)]) (put 0x20000 (packBytes 64 [(0, 8, 0x10000), (8, 8, 0x10000), (16, 2, 64), (18, 1, 32), (19, 1, 2), (20, 1, 4), (24, 4, 256)]) [])
def w_ordinary_commands_0_bs : List Byte := entry 0x01 [(16, 8, 196608), (24, 8, 5), (32, 4, 3), (40, 8, 262144)]
def w_ordinary_commands_0_rb : List Byte := ((fwRead w_ordinary_commands_0_s.fw w_ordinary_commands_0_s.dev (queuePart w_ordinary_commands_0_s) (operVa w_ordinary_commands_0_bs 16) 64).get (by decide +kernel))
theorem test_ordinary_commands_0 : ∃ (s : State) (bs rb : List Byte),
    Taken .launch s bs ∧
    let p := queuePart s
    (operVa bs 16).toNat % 64 = 0 ∧
    1 ≤ oper bs 32 4 ∧
    oper bs 32 4 ≤ 2 ^ 24 ∧
    fwRead s.fw s.dev p (operVa bs 16) 64 = some rb ∧
    recordOk rb = true := 
  ⟨w_ordinary_commands_0_s, w_ordinary_commands_0_bs, w_ordinary_commands_0_rb,
   taken_of (by decide +kernel), by decide +kernel, by decide +kernel, by decide +kernel, got _, by decide +kernel⟩

def w_ordinary_commands_1_s : State := (fun s : State => { s with dev := { s.dev with graphs := [(1023, { made := true })] } }) <| host (entry 0x02 [(16, 4, 1023)])
theorem test_ordinary_commands_1 : ∃ (s : State) (bs : List Byte),
    Taken .replay s bs ∧
    oper bs 16 4 ≤ 1023 ∧
    (s.dev.graph (graphKey (queuePart s) (oper bs 16 4))).made = true := 
  ⟨w_ordinary_commands_1_s, entry 0x02 [(16, 4, 1023)],
   taken_of (by decide +kernel), by decide +kernel⟩

def w_ordinary_commands_2_s : State := (fun s : State => { s with dev := { s.dev with graphs := [(3, { made := true, staged := [{ n := 1, val := 2, org := 3, seq := 4 }] })] } }) <| host (entry 0x03 [(16, 4, 3), (20, 2, 63), (24, 8, 77), (32, 4, 0xFFFFFFFF)])
def w_ordinary_commands_2_bs : List Byte := entry 0x03 [(16, 4, 3), (20, 2, 63), (24, 8, 77), (32, 4, 0xFFFFFFFF)]
theorem test_ordinary_commands_2 : ∃ (s : State) (bs : List Byte),
    Taken .patch s bs ∧
    let g := graphKey (queuePart s) (oper bs 16 4)
    let org : OSet := BitVec.ofNat 32 (oper bs 32 4)
    oper bs 16 4 ≤ 1023 ∧
    (s.dev.graph g).made = true ∧
    oper bs 20 2 ≤ 63 ∧
    org &&& ~~~(s.fw.part (queuePart s)).origins = 0 := 
  ⟨w_ordinary_commands_2_s, w_ordinary_commands_2_bs,
   taken_of (by decide +kernel), by decide +kernel⟩

def w_ordinary_commands_3_s : State := (fun s : State => { s with dev := { s.dev with frames := mupd {} s.dev.frames 1 fun f => { f with cur := 6 } } }) <| host (entry 0x04 [(16, 8, 131073), (24, 8, 196613), (32, 8, 7), (40, 1, 255)]) (put 0x10000 [1, 2, 3, 4, 5, 6, 7, 8] [])
def w_ordinary_commands_3_bs : List Byte := entry 0x04 [(16, 8, 131073), (24, 8, 196613), (32, 8, 7), (40, 1, 255)]
def w_ordinary_commands_3_e : TlbEnt := ((onPage w_ordinary_commands_3_s (queuePart w_ordinary_commands_3_s) fwR (operVa w_ordinary_commands_3_bs 16) (oper w_ordinary_commands_3_bs 32 8)).get (by decide +kernel))
def w_ordinary_commands_3_f : TlbEnt := ((onPage w_ordinary_commands_3_s (if oper w_ordinary_commands_3_bs 40 1 = 0xFF then (queuePart w_ordinary_commands_3_s) else oper w_ordinary_commands_3_bs 40 1) fwW (operVa w_ordinary_commands_3_bs 24) (oper w_ordinary_commands_3_bs 32 8)).get (by decide +kernel))
theorem test_ordinary_commands_3 : ∃ (s : State) (bs : List Byte) (e f : TlbEnt),
    Taken .copy s bs ∧
    let p := queuePart s
    let to_ := if oper bs 40 1 = 0xFF then p else oper bs 40 1
    let n := oper bs 32 8
    let set := (s.dev.frame e.ent).cur
    onPage s p fwR (operVa bs 16) n = some e ∧
    onPage s to_ fwW (operVa bs 24) n = some f ∧
    to_ ≤ 23 ∧
    s.dev.badU = [] ∧
    limAcquired s ∧
    (to_ = p ∧ (f.isHost = false ∨ (lodge s.fw p set 1 (operVa bs 24).toNat n).isSome = true) ∨
      to_ ≠ p ∧ Right.own.ok s.fw s.args.q = true ∧ (lodge s.fw p set 3 to_ n).isSome = true) := 
  ⟨w_ordinary_commands_3_s, w_ordinary_commands_3_bs, w_ordinary_commands_3_e, w_ordinary_commands_3_f,
   taken_of (by decide +kernel), got _, got _, by decide +kernel, by decide +kernel, lim_of (by decide +kernel), by decide +kernel⟩

def w_ordinary_commands_4_s : State := (fun s : State => { s with fw := { s.fw with parts := s.fw.parts ++ [(1, { state := 1 })], fmaps := mset {} s.fw.fmaps 64 { perm := 15, count := 64, gbase := 20, hbase := 20 }, anchors := mins s.fw.anchors (anchorOf 1 (walkHash 1 0 3)) (entLink 20) }, dev := { s.dev with frames := mins (mupd {} s.dev.frames 1 fun f => { f with cur := 2 }) (entOf 1 20) { v := true, part := 1, vpn := 3, perm := 15, ceil := 7 } } }) <| host (entry 0x04 [(16, 8, 131073), (24, 8, 196613), (32, 8, 7), (40, 1, 1)]) (put 0x10000 [1, 2, 3, 4, 5, 6, 7, 8] [])
def w_ordinary_commands_4_bs : List Byte := entry 0x04 [(16, 8, 131073), (24, 8, 196613), (32, 8, 7), (40, 1, 1)]
def w_ordinary_commands_4_e : TlbEnt := ((onPage w_ordinary_commands_4_s (queuePart w_ordinary_commands_4_s) fwR (operVa w_ordinary_commands_4_bs 16) (oper w_ordinary_commands_4_bs 32 8)).get (by decide +kernel))
def w_ordinary_commands_4_f : TlbEnt := ((onPage w_ordinary_commands_4_s (if oper w_ordinary_commands_4_bs 40 1 = 0xFF then (queuePart w_ordinary_commands_4_s) else oper w_ordinary_commands_4_bs 40 1) fwW (operVa w_ordinary_commands_4_bs 24) (oper w_ordinary_commands_4_bs 32 8)).get (by decide +kernel))
theorem test_ordinary_commands_4 : ∃ (s : State) (bs : List Byte) (e f : TlbEnt),
    Taken .copy s bs ∧
    let p := queuePart s
    let to_ := if oper bs 40 1 = 0xFF then p else oper bs 40 1
    let n := oper bs 32 8
    let set := (s.dev.frame e.ent).cur
    onPage s p fwR (operVa bs 16) n = some e ∧
    onPage s to_ fwW (operVa bs 24) n = some f ∧
    to_ ≤ 23 ∧
    s.dev.badU = [] ∧
    (to_ = p ∧ f.isHost = true ∧ lodge s.fw p set 1 (operVa bs 24).toNat n = none ∨ to_ ≠ p ∧ Right.own.ok s.fw s.args.q = true ∧ lodge s.fw p set 3 to_ n = none) := 
  ⟨w_ordinary_commands_4_s, w_ordinary_commands_4_bs, w_ordinary_commands_4_e, w_ordinary_commands_4_f,
   taken_of (by decide +kernel), got _, got _, by decide +kernel⟩

def w_ordinary_commands_5_s : State := host (entry 0x05 [(16, 8, 196616), (24, 8, 24), (32, 8, 0x0102030405060708)])
def w_ordinary_commands_5_bs : List Byte := entry 0x05 [(16, 8, 196616), (24, 8, 24), (32, 8, 0x0102030405060708)]
def w_ordinary_commands_5_e : TlbEnt := ((onPage w_ordinary_commands_5_s (queuePart w_ordinary_commands_5_s) fwW (operVa w_ordinary_commands_5_bs 16) (oper w_ordinary_commands_5_bs 24 8)).get (by decide +kernel))
theorem test_ordinary_commands_5 : ∃ (s : State) (bs : List Byte) (e : TlbEnt),
    Taken .fill s bs ∧
    let n := oper bs 24 8
    (operVa bs 16).toNat % 8 = 0 ∧
    n % 8 = 0 ∧
    onPage s (queuePart s) fwW (operVa bs 16) n = some e := 
  ⟨w_ordinary_commands_5_s, w_ordinary_commands_5_bs, w_ordinary_commands_5_e,
   taken_of (by decide +kernel), by decide +kernel, by decide +kernel, got _⟩

def w_ordinary_commands_6_s : State := host (entry 0x06 [(16, 8, 196616), (24, 8, 2 ^ 64 - 1)])
def w_ordinary_commands_6_bs : List Byte := entry 0x06 [(16, 8, 196616), (24, 8, 2 ^ 64 - 1)]
def w_ordinary_commands_6_e : TlbEnt := ((onPage w_ordinary_commands_6_s (queuePart w_ordinary_commands_6_s) fwW (operVa w_ordinary_commands_6_bs 16) 8).get (by decide +kernel))
theorem test_ordinary_commands_6 : ∃ (s : State) (bs : List Byte) (e : TlbEnt),
    Taken .signal s bs ∧
    (operVa bs 16).toNat % 8 = 0 ∧
    onPage s (queuePart s) fwW (operVa bs 16) 8 = some e := 
  ⟨w_ordinary_commands_6_s, w_ordinary_commands_6_bs, w_ordinary_commands_6_e,
   taken_of (by decide +kernel), by decide +kernel, got _⟩

def w_ordinary_commands_7_s : State := host (entry 0x07 [(16, 8, 196616), (24, 8, 5), (32, 1, 1)])
def w_ordinary_commands_7_bs : List Byte := entry 0x07 [(16, 8, 196616), (24, 8, 5), (32, 1, 1)]
def w_ordinary_commands_7_e : TlbEnt := ((onPage w_ordinary_commands_7_s (queuePart w_ordinary_commands_7_s) fwR (operVa w_ordinary_commands_7_bs 16) 8).get (by decide +kernel))
theorem test_ordinary_commands_7 : ∃ (s : State) (bs : List Byte) (e : TlbEnt),
    Taken .waitv s bs ∧
    oper bs 32 1 ≤ 1 ∧
    onPage s (queuePart s) fwR (operVa bs 16) 8 = some e ∧
    s.dev.badU = [] ∧
    s.dev.badCorr = [] := 
  ⟨w_ordinary_commands_7_s, w_ordinary_commands_7_bs, w_ordinary_commands_7_e,
   taken_of (by decide +kernel), by decide +kernel, got _, by decide +kernel⟩

def w_ordinary_commands_8_s : State := let s := st (team 1) { op := 5 }; { s with dev := { s.dev with mem := put 0x20008 [5] [], cmds := [{ id := 5, q := 100, part := 0, tag := 7, comp := 0x20000, notify := true, met := false, wait := .waitv 0x30008 5 true }] } }
def w_ordinary_commands_8_c : Cmd := { id := 5, q := 100, part := 0, tag := 7, comp := 0x20000, notify := true, met := false, wait := .waitv 0x30008 5 true }
def w_ordinary_commands_8_e : TlbEnt := ((onPage w_ordinary_commands_8_s w_ordinary_commands_8_c.part fwR ((0x30008 : Dword)) 8).get (by decide +kernel))
theorem test_ordinary_commands_8 : ∃ (s : State) (c : Cmd) (va want : Dword) (ge : Bool) (e : TlbEnt),
    s.dev.moved = false ∧
    s.dev.cmd s.args.op = some c ∧
    c.wait = .waitv va want ge ∧
    onPage s c.part fwR va 8 = some e ∧
    s.dev.badU = [] ∧
    (c.met = true ∨ if ge then want.toNat ≤ memNat s.dev.mem (e.pa va) 8 else memNat s.dev.mem (e.pa va) 8 = want.toNat) := 
  ⟨w_ordinary_commands_8_s, w_ordinary_commands_8_c, 0x30008, 5, true, w_ordinary_commands_8_e,
   by decide +kernel, by decide +kernel, by decide +kernel, got _, by decide +kernel⟩

def w_ordinary_commands_9_s : State := (fun s : State => { s with dev := { s.dev with cores := [(0, { tlb := [{ part := 0, asid := 0, vpn := 4, pf := 3, cls := 0, mi := false, perm := 15, sperm := 15, ceil := 3, ent := 3, ext := 0 }, { part := 1, asid := 0, vpn := 4, pf := 3, cls := 0, mi := false, perm := 15, sperm := 15, ceil := 3, ent := 3, ext := 0 }, { part := 0, asid := 2, vpn := 4, pf := 3, cls := 0, mi := false, perm := 15, sperm := 15, ceil := 3, ent := 3, ext := 0 }] })] } }) <| host (entry 0x08 [(16, 1, 0), (24, 8, 262144)])
theorem test_ordinary_commands_9 : ∃ (i : Instr) (k : InvlKind) (s : State) (bs : List Byte),
    (i, k) ∈ [(.invlPageCommand, .page), (.invlAsidCommand, .asid), (.invlPartitionCommand, InvlKind.part)] ∧
    Taken i s bs := 
  ⟨.invlPageCommand, .page, w_ordinary_commands_9_s, entry 0x08 [(16, 1, 0), (24, 8, 262144)],
   by decide +kernel, taken_of (by decide +kernel)⟩

def w_ordinary_commands_10_s : State := (fun s : State => { s with dev := { s.dev with cores := [(0, { tlb := [{ part := 0, asid := 0, vpn := 4, pf := 3, cls := 0, mi := false, perm := 15, sperm := 15, ceil := 3, ent := 3, ext := 0 }, { part := 1, asid := 0, vpn := 4, pf := 3, cls := 0, mi := false, perm := 15, sperm := 15, ceil := 3, ent := 3, ext := 0 }, { part := 0, asid := 2, vpn := 4, pf := 3, cls := 0, mi := false, perm := 15, sperm := 15, ceil := 3, ent := 3, ext := 0 }] })] } }) (let s := st (team 1) { op := 5 }; { s with dev := { s.dev with cmds := [{ id := 5, q := 100, part := 0, tag := 7, comp := 0, notify := false, wait := .invl { kind := .page, asid := 0, vpn := 4 } }] } })
def w_ordinary_commands_10_c : Cmd := { id := 5, q := 100, part := 0, tag := 7, comp := 0, notify := false, wait := .invl { kind := .page, asid := 0, vpn := 4 } }
theorem test_ordinary_commands_10 : ∃ (i : Instr) (s : State) (c : Cmd) (r : InvlReq),
    (i, r.kind) ∈ [(.invlPageCommand, .page), (.invlAsidCommand, .asid), (.invlPartitionCommand, InvlKind.part)] ∧
    s.args.op ≠ 0 ∧
    s.dev.moved = false ∧
    s.dev.cmd s.args.op = some c ∧
    c.wait = .invl r ∧
    invlIdle s.dev c.part r = true := 
  ⟨.invlPageCommand, w_ordinary_commands_10_s, w_ordinary_commands_10_c, { kind := .page, asid := 0, vpn := 4 },
   by decide +kernel⟩

def w_command_completions_0_s : State := st (team 1)
def w_command_completions_0_c : Cmd := { id := 5, q := 100, part := 0, tag := 7, comp := 0, notify := true, wait := .peer 0 }
theorem test_command_completions_0 : ∃ (s : State) (w : Fw) (c : Cmd) (st : Nat),
    c.comp = 0 := 
  ⟨w_command_completions_0_s, fw, w_command_completions_0_c, 3,
   by decide +kernel⟩

def w_command_completions_1_s : State := st (team 1)
def w_command_completions_1_c : Cmd := { id := 5, q := 100, part := 0, tag := 7, comp := 0x30008, notify := true, wait := .peer 0 }
def w_command_completions_1_e : TlbEnt := ((onPage w_command_completions_1_s w_command_completions_1_c.part fwW w_command_completions_1_c.comp 8).get (by decide +kernel))
theorem test_command_completions_1 : ∃ (s : State) (c : Cmd) (st : Nat) (e : TlbEnt),
    c.comp ≠ 0 ∧
    c.comp.toNat % 8 = 0 ∧
    st < 2 ^ 16 ∧
    onPage s c.part fwW c.comp 8 = some e ∧
    s.dev.badU = [] := 
  ⟨w_command_completions_1_s, w_command_completions_1_c, 3, w_command_completions_1_e,
   by decide +kernel, by decide +kernel, by decide +kernel, got _, by decide +kernel⟩

def w_command_completions_1_2_s : State := st (team 1)
def w_command_completions_1_2_c : Cmd := { id := 5, q := 100, part := 0, tag := 7, comp := 0x3FFF8, notify := false, wait := .peer 0 }
def w_command_completions_1_2_e : TlbEnt := ((onPage w_command_completions_1_2_s w_command_completions_1_2_c.part fwW w_command_completions_1_2_c.comp 8).get (by decide +kernel))
theorem test_command_completions_1_2 : ∃ (s : State) (c : Cmd) (st : Nat) (e : TlbEnt),
    c.comp ≠ 0 ∧
    c.comp.toNat % 8 = 0 ∧
    st < 2 ^ 16 ∧
    onPage s c.part fwW c.comp 8 = some e ∧
    s.dev.badU = [] := 
  ⟨w_command_completions_1_2_s, w_command_completions_1_2_c, 65535, w_command_completions_1_2_e,
   by decide +kernel, by decide +kernel, by decide +kernel, got _, by decide +kernel⟩

def w_command_completions_2_s : State := (fun s : State => s) <| host (entry 0x05 [(60, 1, 1), (1, 1, 4)])
theorem test_command_completions_2 : ∃ (i : Instr) (s : State) (bs : List Byte) (x : Right × List (Nat × Nat)),
    commandForm i = some x ∧
    Takes i s bs := 
  ⟨.fill, w_command_completions_2_s, entry 0x05 [(60, 1, 1), (1, 1, 4)], ((commandForm ((.fill : Instr))).get (by decide +kernel)),
   got _, ⟨by decide +kernel, by decide +kernel, by decide +kernel, by decide +kernel, by decide +kernel⟩⟩

def w_command_completions_2_2_s : State := (fun s : State => s) <| host (entry 0x40 [(60, 1, 1), (1, 1, 4)])
theorem test_command_completions_2_2 : ∃ (i : Instr) (s : State) (bs : List Byte) (x : Right × List (Nat × Nat)),
    commandForm i = some x ∧
    Takes i s bs := 
  ⟨.qset, w_command_completions_2_2_s, entry 0x40 [(60, 1, 1), (1, 1, 4)], ((commandForm ((.qset : Instr))).get (by decide +kernel)),
   got _, ⟨by decide +kernel, by decide +kernel, by decide +kernel, by decide +kernel, by decide +kernel⟩⟩

def w_command_completions_3_s : State := host (entry 0x05 [(1, 1, 2), (8, 8, 196612)])
theorem test_command_completions_3 : ∃ (i : Instr) (s : State) (bs : List Byte),
    (commandForm i).isSome = true ∧
    s.args.op = 0 ∧
    nextEntry s.fw s.dev s.args.q = some bs ∧
    entryInstr bs = some i ∧
    queueTurn s.fw s.dev s.args.q = true ∧
    compOk s.fw s.dev (queuePart s) (cmdOf s bs).comp = false := 
  ⟨.fill, w_command_completions_3_s, entry 0x05 [(1, 1, 2), (8, 8, 196612)],
   by decide +kernel⟩

def w_command_completions_3_2_s : State := host (entry 0x05 [(1, 1, 0), (8, 8, 2 ^ 40)])
theorem test_command_completions_3_2 : ∃ (i : Instr) (s : State) (bs : List Byte),
    (commandForm i).isSome = true ∧
    s.args.op = 0 ∧
    nextEntry s.fw s.dev s.args.q = some bs ∧
    entryInstr bs = some i ∧
    queueTurn s.fw s.dev s.args.q = true ∧
    compOk s.fw s.dev (queuePart s) (cmdOf s bs).comp = false := 
  ⟨.fill, w_command_completions_3_2_s, entry 0x05 [(1, 1, 0), (8, 8, 2 ^ 40)],
   by decide +kernel⟩

def w_command_completions_4_s : State := (fun s : State => { s with sched := [.host 100] }) <| host (entry 0x7F [(8, 8, 196616)])
theorem test_command_completions_4 : ∃ (s : State) (r : List Act) (bs : List Byte),
    let q := s.args.q
    s.sched = .host q :: r ∧
    s.dev.frozen = false ∧
    nextEntry s.fw s.dev q = some bs ∧
    entryInstr bs = none ∧
    queueTurn s.fw s.dev q = true ∧
    compOk s.fw s.dev (queuePart s) (cmdOf s bs).comp = true := 
  ⟨w_command_completions_4_s, [], entry 0x7F [(8, 8, 196616)],
   by decide +kernel⟩

def w_report_commands_5_s : State := (fun s : State => { s with dev := { s.dev with rest := [{ team 1 with key := 3, slot := 1, teamId := 4, halted := true }] } }) <| hostP (entry 0x52 [(16, 1, 0), (20, 4, 4), (24, 8, 196608), (32, 8, 9000)])
def w_report_commands_5_bs : List Byte := entry 0x52 [(16, 1, 0), (20, 4, 4), (24, 8, 196608), (32, 8, 9000)]
theorem test_report_commands_5 : ∃ (i : Instr) (s : State) (bs : List Byte),
    (i = .dumpOneTeam ∨ i = .dumpEveryTeam) ∧
    Taken i s bs ∧
    (s.dev.teams.map (·.key) ++ (swapped s.dev).map (·.key)).Nodup ∧
    let hit := fun (part : Nat) (id : Word) => part = queuePart s ∧ (i = .dumpOneTeam → id.toNat = oper bs 20 4)
    (i = .dumpOneTeam → (∃ m ∈ s.dev.teams, hit m.part m.teamId) ∨ ∃ y ∈ swapped s.dev, hit y.part y.teamId) := 
  ⟨.dumpOneTeam, w_report_commands_5_s, w_report_commands_5_bs,
   by decide +kernel, taken_of (by decide +kernel), by decide +kernel⟩

def w_report_commands_6_s : State := let s := st (team 1) { op := 5 }; { s with dev := { s.dev with rest := [{ team 1 with key := 3, slot := 1, teamId := 4, halted := true, active := false, decl := { lanes := 8, vregs := 1, scratch := 256 } }], cmds := [{ id := 5, q := 2, part := 0, tag := 7, comp := 0, notify := false, wait := .dump { every := false, keys := [3], fresh := [3], seen := [1, 3], caught := [3], out := 0x30000, len := 40000 } }] } }
def w_report_commands_6_c : Cmd := { id := 5, q := 2, part := 0, tag := 7, comp := 0, notify := false, wait := .dump { every := false, keys := [3], fresh := [3], seen := [1, 3], caught := [3], out := 0x30000, len := 40000 } }
def w_report_commands_6_x : Dump := { every := false, keys := [3], fresh := [3], seen := [1, 3], caught := [3], out := 0x30000, len := 40000 }
def w_report_commands_6_m : Team := { team 1 with key := 3, slot := 1, teamId := 4, halted := true, active := false, decl := { lanes := 8, vregs := 1, scratch := 256 } }
def w_report_commands_6_e : TlbEnt := ((onPage w_report_commands_6_s w_report_commands_6_c.part fwW w_report_commands_6_x.out (headImage (w_report_commands_6_m.atFirst) (keptFull w_report_commands_6_m.decl) (newSeq w_report_commands_6_s.dev (limamon 0)).1 (dataImage (w_report_commands_6_m.atFirst) (keptFull w_report_commands_6_m.decl)).length ++ ((fwRead w_report_commands_6_s.fw w_report_commands_6_s.dev w_report_commands_6_m.part (w_report_commands_6_m.saveArea + 5120) 11264).getD (leBytes 11264 0)).take 136 ++ leBytes 2936 0 ++ ((fwRead w_report_commands_6_s.fw w_report_commands_6_s.dev w_report_commands_6_m.part (w_report_commands_6_m.saveArea + 5120) 11264).getD (leBytes 11264 0)).drop 3072 ++ (dataImage (w_report_commands_6_m.atFirst) (keptFull w_report_commands_6_m.decl))).length).get (by decide +kernel))
theorem test_report_commands_6 : ∃ (i : Instr) (s : State) (c : Cmd) (x : Dump) (m : Team) (e : TlbEnt),
    (i = .dumpOneTeam ∨ i = .dumpEveryTeam) ∧
    s.args.op ≠ 0 ∧
    s.dev.moved = false ∧
    s.dev.cmd s.args.op = some c ∧
    c.wait = .dump x ∧
    x.keys = [m.key] ∧
    x.parked = [] ∧
    m.key ∈ x.caught ∧
    m ∈ s.dev.teams ∧
    (s.dev.teams.map (·.key) ++ (swapped s.dev).map (·.key)).Nodup ∧
    (x.every = true → (∀ t ∈ s.dev.teams, t.part = c.part → t.key ∈ x.seen) ∧ ∀ y ∈ swapped s.dev, y.part = c.part → y.key ∈ x.seen) ∧
    m.between = true ∧
    m.savable = true ∧
    m.ops = [] ∧
    let u := m.atFirst
    let data := dataImage u (keptFull m.decl)
    let kept := (fwRead s.fw s.dev m.part (m.saveArea + 5120) 11264).getD (leBytes 11264 0)
    let image := headImage u (keptFull m.decl) (newSeq s.dev (limamon 0)).1 data.length ++ kept.take 136 ++ leBytes 2936 0 ++ kept.drop 3072 ++ data
    image.length ≤ x.len ∧
    onPage s c.part fwW x.out image.length = some e ∧
    s.dev.badU = [] := 
  ⟨.dumpOneTeam, w_report_commands_6_s, w_report_commands_6_c, w_report_commands_6_x, w_report_commands_6_m, w_report_commands_6_e,
   by decide +kernel, by decide +kernel, by decide +kernel, ⟨by decide +kernel, by decide +kernel, by decide +kernel, ⟨by decide +kernel, by decide +kernel, by decide +kernel, ⟨by decide +kernel, by decide +kernel, by decide +kernel, ⟨by decide +kernel, by decide +kernel, by decide +kernel, got _, by decide +kernel⟩⟩⟩⟩⟩

def w_report_commands_7_s : State := (fun s : State => { s with dev := { s.dev with sliceErr := [(7, (3, 2))], stackErr := [(7, (9, 1))], cores := [(255, { corrected := 4, uncorr := 6 })] } }) <| hostP (entry 0x54 [(24, 8, 196608)])
def w_report_commands_7_e : TlbEnt := ((onPage w_report_commands_7_s (queuePart w_report_commands_7_s) fwW (operVa (entry 0x54 [(24, 8, 196608)]) 24) 4160).get (by decide +kernel))
theorem test_report_commands_7 : ∃ (s : State) (bs : List Byte) (e : TlbEnt),
    Taken .errlog s bs ∧
    (operVa bs 24).toNat % 64 = 0 ∧
    onPage s (queuePart s) fwW (operVa bs 24) 4160 = some e := 
  ⟨w_report_commands_7_s, entry 0x54 [(24, 8, 196608)], w_report_commands_7_e,
   taken_of (by decide +kernel), by decide +kernel, got _⟩

def w_report_commands_8_s : State := (fun s : State => { s with fw := { s.fw with rate := [(1, 800)], below := [(0, 5), (1, 0xFFFFFFFFFFFF)] } }) <| hostP (entry 0x55 [(24, 8, 196624)])
def w_report_commands_8_e : TlbEnt := ((onPage w_report_commands_8_s (queuePart w_report_commands_8_s) fwW (operVa (entry 0x55 [(24, 8, 196624)]) 24) 16).get (by decide +kernel))
theorem test_report_commands_8 : ∃ (s : State) (bs : List Byte) (e : TlbEnt),
    Taken .throttle s bs ∧
    onPage s (queuePart s) fwW (operVa bs 24) 16 = some e ∧
    s.dev.badU = [] := 
  ⟨w_report_commands_8_s, entry 0x55 [(24, 8, 196624)], w_report_commands_8_e,
   taken_of (by decide +kernel), got _, by decide +kernel⟩

def w_freezes_0_s : State := st (team 1)
theorem test_freezes_0 : ∃ (i : Instr) (s : State),
    (i = .frzN ∨ i = .freeze) := 
  ⟨.frzN, w_freezes_0_s,
   by decide +kernel⟩

def w_freezes_0_2_s : State := st (team 1)
theorem test_freezes_0_2 : ∃ (i : Instr) (s : State),
    (i = .frzN ∨ i = .freeze) := 
  ⟨.freeze, w_freezes_0_2_s,
   by decide +kernel⟩

def w_freezes_1_s : State := let s := st { team 1 with ops := [{ id := 1, q := some 0, pc := 0, first := 0, kind := .load (.scal 3) .normal [{ lane := 2048, va := 0x40000, tgt := .mem 0x30000 3 true, len := 4 }] }] }; { s with dev := { s.dev with frozen := true } }
theorem test_freezes_1 : ∃ (s : State),
    s.dev.frozen = true ∧
    (∀ m ∈ s.dev.teams, ∀ o ∈ m.ops, hostPending o = []) := 
  ⟨w_freezes_1_s,
   by decide +kernel⟩

def w_freezes_3_s : State := let s := st { team 1 with ops := [{ id := 1, q := some 0, pc := 0, first := 0, kind := .load (.scal 3) .normal [{ lane := 2048, va := 0x40000, tgt := .mem (2 ^ 40) 3 true, len := 4 }] }] }; { s with dev := { s.dev with frozen := true } }
def w_freezes_3_o : Op := nthD { id := 1, q := some 0, pc := 0, first := 0, kind := .instant } w_freezes_3_s.dev.cur.ops 0
def w_freezes_3_a : Acc := { lane := 2048, va := 0x40000, tgt := .mem (2 ^ 40) 3 true, len := 4 }
theorem test_freezes_3 : ∃ (s : State) (o : Op) (dst : LoadDst) (pol : CachePol) (a : Acc),
    s.dev.frozen = true ∧
    s.dev.cur.live = true ∧
    s.dev.rest = [] ∧
    s.dev.cur.ops = [o] ∧
    o.kind = .load dst pol [a] ∧
    hostPending o = [a] := 
  ⟨w_freezes_3_s, w_freezes_3_o, .scal 3, .normal, w_freezes_3_a,
   by decide +kernel⟩

def w_freezes_4_s : State := let s := st (team 1); { s with dev := { s.dev with frozen := true }, sched := [.issue 1, .issue 1] }
theorem test_freezes_4 : ∃ (s : State) (a : Act) (r : List Act),
    s.dev.frozen = true ∧
    s.sched = a :: r ∧
    (∀ x, a ≠ .event .thaw x ∧ a ≠ .event .freeze x ∧ a ≠ .event .frzN x ∧ a ≠ .event .debugPortAccess x ∧ a ≠ .event .packageReset x ∧
      a ≠ .event .hostReadBar4 x ∧ a ≠ .event .hostWriteBar4 x ∧ a ≠ .event .registerWrite x ∧ a ≠ .event .doorbellTailWrite x ∧ a ≠ .event .hostMemoryWrite x) := 
  ⟨w_freezes_4_s, .issue 1, [.issue 1],
   by decide +kernel, by decide +kernel, fun _ => ⟨nofun, nofun, nofun, nofun, nofun, nofun, nofun, nofun, nofun, nofun⟩⟩

def w_freezes_4_2_s : State := let s := st (team 1); { s with dev := { s.dev with frozen := true }, sched := [.host 100, .issue 1] }
theorem test_freezes_4_2 : ∃ (s : State) (a : Act) (r : List Act),
    s.dev.frozen = true ∧
    s.sched = a :: r ∧
    (∀ x, a ≠ .event .thaw x ∧ a ≠ .event .freeze x ∧ a ≠ .event .frzN x ∧ a ≠ .event .debugPortAccess x ∧ a ≠ .event .packageReset x ∧
      a ≠ .event .hostReadBar4 x ∧ a ≠ .event .hostWriteBar4 x ∧ a ≠ .event .registerWrite x ∧ a ≠ .event .doorbellTailWrite x ∧ a ≠ .event .hostMemoryWrite x) := 
  ⟨w_freezes_4_2_s, .host 100, [.issue 1],
   by decide +kernel, by decide +kernel, fun _ => ⟨nofun, nofun, nofun, nofun, nofun, nofun, nofun, nofun, nofun, nofun⟩⟩

def w_freezes_7_s : State := st (team 1)
theorem test_freezes_7 : ∃ (s : State),
    s.dev.frozen = false := 
  ⟨w_freezes_7_s,
   by decide +kernel⟩

def w_freezes_6_s : State := let s := st (team 1); { s with dev := { s.dev with frozen := true }, sched := [.event .registerWrite { part := 0, n := 0x100, addr := 5 }] }
theorem test_freezes_6 : ∃ (i : Instr) (s : State) (x : EventArgs) (r : List Act),
    i ∈ [Instr.hostReadBar4, .hostWriteBar4, .registerWrite, .doorbellTailWrite] ∧
    s.dev.frozen = true ∧
    s.sched = .event i x :: r := 
  ⟨.registerWrite, w_freezes_6_s, { part := 0, n := 0x100, addr := 5 }, [],
   by decide +kernel⟩

def w_freezes_5_s : State := let s := st (team 1); { s with dev := { s.dev with frozen := true }, sched := [.event .hostMemoryWrite { n := 256, addr := 5 }] }
theorem test_freezes_5 : ∃ (s : State) (x : EventArgs) (r : List Act),
    s.dev.frozen = true ∧
    s.sched = .event .hostMemoryWrite x :: r := 
  ⟨w_freezes_5_s, { n := 256, addr := 5 }, [],
   by decide +kernel⟩

def w_freezes_8_s : State := let s := st ({ team 1 with regs := { s := [(5, { val := 9, lbl := 2 })], v := [(1024 * 5 + 3, { val := 8, lbl := 1 })] } }) { debug := .mem 5 none }; { s with dev := { s.dev with frozen := true } }
theorem test_freezes_8 : ∃ (s : State) (a : Nat) (b : Byte),
    s.dev.frozen = true := 
  ⟨w_freezes_8_s, 5, 0,
   by decide +kernel⟩

def w_freezes_8_2_s : State := let s := st ({ team 1 with regs := { s := [(5, { val := 9, lbl := 2 })], v := [(1024 * 5 + 3, { val := 8, lbl := 1 })] } }) { debug := .mem 5 (some 7) }; { s with dev := { s.dev with frozen := true } }
theorem test_freezes_8_2 : ∃ (s : State) (a : Nat) (b : Byte),
    s.dev.frozen = true := 
  ⟨w_freezes_8_2_s, 5, 7,
   by decide +kernel⟩

def w_freezes_9_s : State := let s := st ({ team 1 with regs := { s := [(5, { val := 9, lbl := 2 })], v := [(1024 * 5 + 3, { val := 8, lbl := 1 })] } }) { debug := .scalar 1 5 none }; { s with dev := { s.dev with frozen := true } }
theorem test_freezes_9 : ∃ (s : State) (k r : Nat) (m : Team) (v : Dword),
    s.dev.frozen = true ∧
    r < 63 ∧
    (s.dev.teams.map (·.key)).Nodup ∧
    m ∈ s.dev.teams ∧
    m.key = k := 
  ⟨w_freezes_9_s, 1, 5, w_freezes_9_s.dev.cur, 0,
   by decide +kernel⟩

def w_freezes_9_2_s : State := let s := st ({ team 1 with regs := { s := [(5, { val := 9, lbl := 2 })], v := [(1024 * 5 + 3, { val := 8, lbl := 1 })] } }) { debug := .scalar 1 62 (some 77) }; { s with dev := { s.dev with frozen := true } }
theorem test_freezes_9_2 : ∃ (s : State) (k r : Nat) (m : Team) (v : Dword),
    s.dev.frozen = true ∧
    r < 63 ∧
    (s.dev.teams.map (·.key)).Nodup ∧
    m ∈ s.dev.teams ∧
    m.key = k := 
  ⟨w_freezes_9_2_s, 1, 62, w_freezes_9_2_s.dev.cur, 77,
   by decide +kernel⟩

def w_freezes_10_s : State := let s := st ({ team 1 with regs := { s := [(5, { val := 9, lbl := 2 })], v := [(1024 * 5 + 3, { val := 8, lbl := 1 })] } }) { debug := .vector 1 5 3 none }; { s with dev := { s.dev with frozen := true } }
theorem test_freezes_10 : ∃ (s : State) (k r l : Nat) (m : Team) (v : Word),
    s.dev.frozen = true ∧
    r < 124 ∧
    l < 1024 ∧
    (s.dev.teams.map (·.key)).Nodup ∧
    m ∈ s.dev.teams ∧
    m.key = k := 
  ⟨w_freezes_10_s, 1, 5, 3, w_freezes_10_s.dev.cur, 0,
   by decide +kernel⟩

def w_freezes_10_2_s : State := let s := st ({ team 1 with regs := { s := [(5, { val := 9, lbl := 2 })], v := [(1024 * 5 + 3, { val := 8, lbl := 1 })] } }) { debug := .vector 1 123 1023 (some 77) }; { s with dev := { s.dev with frozen := true } }
theorem test_freezes_10_2 : ∃ (s : State) (k r l : Nat) (m : Team) (v : Word),
    s.dev.frozen = true ∧
    r < 124 ∧
    l < 1024 ∧
    (s.dev.teams.map (·.key)).Nodup ∧
    m ∈ s.dev.teams ∧
    m.key = k := 
  ⟨w_freezes_10_2_s, 1, 123, 1023, w_freezes_10_2_s.dev.cur, 77,
   by decide +kernel⟩

def w_freezes_11_s : State := let s := st ({ team 1 with regs := { s := [(5, { val := 9, lbl := 2 })], v := [(1024 * 5 + 3, { val := 8, lbl := 1 })] } }) { debug := .restart 1 none }; { s with dev := { s.dev with frozen := true } }
theorem test_freezes_11 : ∃ (s : State) (k : Nat) (m : Team) (v : Dword),
    s.dev.frozen = true ∧
    (s.dev.teams.map (·.key)).Nodup ∧
    m ∈ s.dev.teams ∧
    m.key = k := 
  ⟨w_freezes_11_s, 1, w_freezes_11_s.dev.cur, 77,
   by decide +kernel⟩

def w_freezes_11_2_s : State := let s := st ({ team 1 with regs := { s := [(5, { val := 9, lbl := 2 })], v := [(1024 * 5 + 3, { val := 8, lbl := 1 })] } }) { debug := .restart 1 (some 77) }; { s with dev := { s.dev with frozen := true } }
theorem test_freezes_11_2 : ∃ (s : State) (k : Nat) (m : Team) (v : Dword),
    s.dev.frozen = true ∧
    (s.dev.teams.map (·.key)).Nodup ∧
    m ∈ s.dev.teams ∧
    m.key = k := 
  ⟨w_freezes_11_2_s, 1, w_freezes_11_2_s.dev.cur, 77,
   by decide +kernel⟩

def w_host_accesses_0_s : State := st (team 1) { part := 0, q := 7, m := 2 ^ 32 + 4 }
theorem test_host_accesses_0 : ∃ (s : State),
    let p := s.fw.part s.args.part
    let n := if s.args.part = 24 then s.args.q else p.qbase.toNat + s.args.q
    s.fw.bars = true ∧
    s.args.link < 2 ∧
    (s.args.part = 24 ∨ s.args.part < 24 ∧ s.args.q < p.qcount.toNat) ∧
    n < 32768 := 
  ⟨w_host_accesses_0_s,
   by decide +kernel⟩

def w_host_accesses_0_2_s : State := st (team 1) { part := 24, q := 100, n := 2, addr := 4088, m := 8 }
theorem test_host_accesses_0_2 : ∃ (s : State),
    let p := s.fw.part s.args.part
    let n := if s.args.part = 24 then s.args.q else p.qbase.toNat + s.args.q
    s.fw.bars = true ∧
    s.args.link < 2 ∧
    (s.args.part = 24 ∨ s.args.part < 24 ∧ s.args.q < p.qcount.toNat) ∧
    n < 32768 ∧
    s.args.n = 2 ∧
    s.args.addr.toNat + s.args.m ≤ 4096 := 
  ⟨w_host_accesses_0_2_s,
   by decide +kernel⟩

def w_host_accesses_1_s : State := st (team 1) { part := 24, n := 0x100, addr := 5 }
theorem test_host_accesses_1 : ∃ (s : State),
    s.fw.bars = true ∧
    s.args.link < 2 ∧
    s.args.part ≤ 24 := 
  ⟨w_host_accesses_1_s,
   by decide +kernel⟩

def w_host_accesses_1_2_s : State := st (team 1) { part := 0, n := 1, addr := 0x100, m := 8 }
theorem test_host_accesses_1_2 : ∃ (s : State),
    s.fw.bars = true ∧
    s.args.link < 2 ∧
    s.args.part ≤ 24 ∧
    s.args.n = 1 ∧
    s.args.addr.toNat + s.args.m ≤ 65536 := 
  ⟨w_host_accesses_1_2_s,
   by decide +kernel⟩

def w_host_accesses_2_s : State := let s := st (team 1) { part := 0, addr := 0x10003, m := 4, bytes := [9, 8, 7] }; { s with fw := { fw with apertures := [(0, 0x20000)] }, dev := { s.dev with mem := put 0x20000 [1, 2, 3, 4, 5, 6, 7] [], frames := mupd {} s.dev.frames 2 fun f => { f with cur := 0 } } }
def w_host_accesses_2_va : Dword := ((apertureVa w_host_accesses_2_s.fw w_host_accesses_2_s.args.link w_host_accesses_2_s.args.part w_host_accesses_2_s.args.addr w_host_accesses_2_s.args.m).get (by decide +kernel))
def w_host_accesses_2_e : TlbEnt := ((onPage w_host_accesses_2_s w_host_accesses_2_s.args.part { r := true } w_host_accesses_2_va w_host_accesses_2_s.args.m).get (by decide +kernel))
theorem test_host_accesses_2 : ∃ (s : State) (va : Dword) (e : TlbEnt),
    s.args.n = 0 ∧
    apertureVa s.fw s.args.link s.args.part s.args.addr s.args.m = some va ∧
    onPage s s.args.part { r := true } va s.args.m = some e ∧
    hostMayRead s.fw s.args.part (s.dev.frame e.ent).cur = true := 
  ⟨w_host_accesses_2_s, w_host_accesses_2_va, w_host_accesses_2_e,
   by decide +kernel, got _, got _, by decide +kernel⟩

def w_host_accesses_2_2_s : State := let s := st (team 1) { part := 0, addr := 0x10003, m := 4, bytes := [9, 8, 7] }; { s with fw := { fw with apertures := [(0, 0x20000)] }, dev := { s.dev with mem := put 0x20000 [1, 2, 3, 4, 5, 6, 7] [], frames := mupd {} s.dev.frames 2 fun f => { f with cur := 2 } } }
def w_host_accesses_2_2_va : Dword := ((apertureVa w_host_accesses_2_2_s.fw w_host_accesses_2_2_s.args.link w_host_accesses_2_2_s.args.part w_host_accesses_2_2_s.args.addr w_host_accesses_2_2_s.args.m).get (by decide +kernel))
def w_host_accesses_2_2_e : TlbEnt := ((onPage w_host_accesses_2_2_s w_host_accesses_2_2_s.args.part { r := true } w_host_accesses_2_2_va w_host_accesses_2_2_s.args.m).get (by decide +kernel))
theorem test_host_accesses_2_2 : ∃ (s : State) (va : Dword) (e : TlbEnt),
    s.args.n = 0 ∧
    apertureVa s.fw s.args.link s.args.part s.args.addr s.args.m = some va ∧
    onPage s s.args.part { r := true } va s.args.m = some e ∧
    hostMayRead s.fw s.args.part (s.dev.frame e.ent).cur = false := 
  ⟨w_host_accesses_2_2_s, w_host_accesses_2_2_va, w_host_accesses_2_2_e,
   by decide +kernel, got _, got _, by decide +kernel⟩

def w_host_accesses_4_s : State := let s := st (team 1) { part := 0, addr := 0x10003, m := 4, bytes := [9, 8, 7] }; { s with fw := { fw with apertures := [(0, 0x20000)] }, dev := { s.dev with mem := put 0x20000 [1, 2, 3, 4, 5, 6, 7] [], frames := mupd {} s.dev.frames 2 fun f => { f with cur := 1 } } }
def w_host_accesses_4_va : Dword := ((apertureVa w_host_accesses_4_s.fw w_host_accesses_4_s.args.link w_host_accesses_4_s.args.part w_host_accesses_4_s.args.addr w_host_accesses_4_s.args.bytes.length).get (by decide +kernel))
def w_host_accesses_4_e : TlbEnt := ((onPage w_host_accesses_4_s w_host_accesses_4_s.args.part { w := true } w_host_accesses_4_va w_host_accesses_4_s.args.bytes.length).get (by decide +kernel))
theorem test_host_accesses_4 : ∃ (s : State) (va : Dword) (e : TlbEnt),
    apertureVa s.fw s.args.link s.args.part s.args.addr s.args.bytes.length = some va ∧
    onPage s s.args.part { w := true } va s.args.bytes.length = some e ∧
    s.dev.badU = [] := 
  ⟨w_host_accesses_4_s, w_host_accesses_4_va, w_host_accesses_4_e,
   got _, got _, by decide +kernel⟩

def w_host_accesses_3_s : State := let s := st (team 1) { part := 0, n := 2, m := 8 }; { s with fw := { fw with bars := false } }
theorem test_host_accesses_3 : ∃ (s : State),
    s.fw.bars = false ∧
    s.args.n ≤ 2 := 
  ⟨w_host_accesses_3_s,
   by decide +kernel⟩

def w_host_accesses_5_s : State := st (team 1) { addr := 2 ^ 40 - 3, bytes := [1, 2, 3] }
theorem test_host_accesses_5 : ∃ (s : State),
    s.args.addr.toNat + s.args.bytes.length ≤ 2 ^ 40 := 
  ⟨w_host_accesses_5_s,
   by decide +kernel⟩

def w_host_accesses_5_2_s : State := st (team 1) { addr := 5, bytes := [1, 2, 3], ok := false }
theorem test_host_accesses_5_2 : ∃ (s : State),
    s.args.addr.toNat + s.args.bytes.length ≤ 2 ^ 40 := 
  ⟨w_host_accesses_5_2_s,
   by decide +kernel⟩

def w_device_events_0_s : State := let s := st (team 1) { core := 255, n := 2, ok := true }; { s with dev := { s.dev with cores := [(255, { fence := 0 })] } }
theorem test_device_events_0 : ∃ (s : State),
    s.args.core < 256 ∧
    s.args.n < 4 := 
  ⟨w_device_events_0_s,
   by decide +kernel⟩

def w_device_events_1_s : State := st (team 1) { q := 1, m := 1600 }
theorem test_device_events_1 : ∃ (s : State),
    s.args.q < 2 ∧
    800 ≤ s.args.m ∧
    s.args.m ≤ 1600 ∧
    s.args.m % 100 = 0 := 
  ⟨w_device_events_1_s,
   by decide +kernel⟩

def w_device_events_2_s : State := st (team 1) { addr := 0x20008 }
theorem test_device_events_2 : ∃ (s : State),
    let u := s.args.addr.toNat / 8
    8 * u < 2 ^ 39 := 
  ⟨w_device_events_2_s,
   by decide +kernel⟩

def w_device_events_3_s : State := st (team 1) { site := .hbm 0x20008, ok := true }
theorem test_device_events_3 : ∃ (s : State) (a : Nat) (hbm : Bool),
    s.args.site = (if hbm then .hbm a else .l2 a) ∧
    a < 2 ^ 39 := 
  ⟨w_device_events_3_s, 0x20008, true,
   by decide +kernel⟩

def w_device_events_4_s : State := st (team 1) { site := .register 1 123 1023, ok := true }
def w_device_events_4_u : State := (((w_device_events_4_s.dev.focus ((1 : Nat))).map (fun d => { w_device_events_4_s with dev := d })).get (by decide +kernel))
theorem test_device_events_4 : ∃ (s u : State) (tid r l : Nat),
    s.args.site = .register tid r l ∧
    r < 124 ∧
    l < 1024 ∧
    (s.dev.focus tid).map (fun d => { s with dev := d }) = some u := 
  ⟨w_device_events_4_s, w_device_events_4_u, 1, 123, 1023,
   by decide +kernel, by decide +kernel, by decide +kernel, got _⟩

def w_device_events_5_s : State := st (team 1) { site := .scratch 1 1 1023, ok := true }
def w_device_events_5_u : State := (((w_device_events_5_s.dev.focus ((1 : Nat))).map (fun d => { w_device_events_5_s with dev := d })).get (by decide +kernel))
theorem test_device_events_5 : ∃ (s u : State) (tid h w : Nat),
    s.args.site = .scratch tid h w ∧
    h < 2 ∧
    w < 2 ^ 20 ∧
    (s.dev.focus tid).map (fun d => { s with dev := d }) = some u := 
  ⟨w_device_events_5_s, w_device_events_5_u, 1, 1, 1023,
   by decide +kernel, by decide +kernel, by decide +kernel, got _⟩

def w_device_events_6_s : State := st (team 1) { site := .tile 1 0 47 1023, ok := true }
def w_device_events_6_u : State := (((w_device_events_6_s.dev.focus ((1 : Nat))).map (fun d => { w_device_events_6_s with dev := d })).get (by decide +kernel))
theorem test_device_events_6 : ∃ (s u : State) (tid h a i : Nat),
    s.args.site = .tile tid h a i ∧
    h < 2 ∧
    a < 48 ∧
    i < 1024 ∧
    (s.dev.focus tid).map (fun d => { s with dev := d }) = some u := 
  ⟨w_device_events_6_s, w_device_events_6_u, 1, 0, 47, 1023,
   by decide +kernel, by decide +kernel, by decide +kernel, ⟨by decide +kernel, got _⟩⟩

def w_device_events_7_s : State := let s := st { team 1 with wait := .token 3 0, ops := [op (.store [acc 0 0])] }; { s with dev := { s.dev with time := 9, causes := [], cores := [(0, { sampler := { on := true, b := 256, ring := 0x30000, l := 5, next := 0, tick := 9 } })] } }
theorem test_device_events_7 : ∃ (s : State) (who : Option Nat) (c : Nat),
    let x := (s.dev.core c).sampler
    let n := stepCycles who s.dev
    x.on = true ∧
    256 ≤ x.b ∧
    s.fw.rate = [] ∧
    s.dev.phase = [] ∧
    n ≤ 128 := 
  ⟨w_device_events_7_s, some 1, 0,
   by decide +kernel⟩

def w_device_events_8_s : State := let s := st (team 1) { core := 1 }; { s with dev := { s.dev with time := 99, cores := [(1, { sampler := { on := true, b := 256, ring := 0x30000, next := 5, tick := 500, last := 2, found := [{ time := 9, num := 4, issued := some (3, 0x10008), blocked := [(5, 0x10010, 1, 3), (2, 0x10020, 2, 15)] }] } })], mem := put 0x20000 (packBytes 32 [(0, 8, 0x40000), (8, 8, 16), (16, 4, 3)]) [] } }
def w_device_events_8_f : Found := nthD {} (w_device_events_8_s.dev.core w_device_events_8_s.args.core).sampler.found 0
def w_device_events_8_r : List Found := (w_device_events_8_s.dev.core w_device_events_8_s.args.core).sampler.found.drop 1
theorem test_device_events_8 : ∃ (s : State) (p : Nat) (f : Found) (r : List Found),
    let x := (s.dev.core s.args.core).sampler
    x.found = f :: r ∧
    s.fw.partOfCore s.args.core = some p ∧
    (f.blocked.map (·.1)).Nodup := 
  ⟨w_device_events_8_s, 0, w_device_events_8_f, w_device_events_8_r,
   by decide +kernel⟩

def w_loads_complete_0_s : State := (fun s : State => { s with dev := { s.dev with frames := mupd {} s.dev.frames 1 fun f => { f with cur := 9 } } }) (pend (.load (.regs 5 1) .normal [acc 0 0, acc 1 4]) 0 (team 1) (put 0x10000 [1, 2, 3, 4, 5, 6, 7, 0xF8, 9, 10, 11, 12] []))
def w_loads_complete_0_u : State := (fun s : State => { s with dev := { s.dev with frames := mupd {} s.dev.frames 1 fun f => { f with cur := 9 } } }) (pend (.load (.regs 5 1) .normal [acc 0 0, acc 1 4]) 0 (team 1) (put 0x10000 [1, 2, 3, 4, 5, 6, 7, 0xF8, 9, 10, 11, 12] []))
def w_loads_complete_0_o : Op := op (.load (.regs 5 1) .normal [acc 0 0, acc 1 4])
theorem test_loads_complete_0 : ∃ (s u : State) (o : Op) (dst : LoadDst) (pol : CachePol) (as : List Acc),
    Pending s u o ∧
    o.kind = .load dst pol as ∧
    o.pins = [] ∧
    as.all (u.dev.cur.inTurn o.id) = true ∧
    (∀ a ∈ as, sound u o pol a) ∧
    noWatch u ∧
    (∀ sd, dst ≠ .scal sd) ∧
    (∀ v z, dst = .elem v z → mmaCheck (as.map fun a => blockOf (valueOf u o pol a).1) = none) ∧
    let rows := loadRows u o pol dst as
    Fits u rows := 
  ⟨w_loads_complete_0_s, w_loads_complete_0_u, w_loads_complete_0_o, .regs 5 1, .normal, [acc 0 0, acc 1 4],
   pending_of (by decide +kernel), by decide +kernel, by decide +kernel, by decide +kernel, sound_of (by decide +kernel), show _ = _ by decide +kernel, nofun, by first | nofun | (rintro _ _ ⟨⟩; decide +kernel), fits_of (by decide +kernel)⟩

def w_loads_complete_1_s : State := (fun s : State => { s with dev := { s.dev with frames := mupd {} s.dev.frames 1 fun f => { f with cur := 9 } } }) (pend (.load (.scal 7) .normal [{ acc 2048 0 with len := 1 }]) 0 (team 1) (put 0x10000 [1, 2, 3, 4, 5, 6, 7, 0xF8, 9, 10, 11, 12] []))
def w_loads_complete_1_u : State := (fun s : State => { s with dev := { s.dev with frames := mupd {} s.dev.frames 1 fun f => { f with cur := 9 } } }) (pend (.load (.scal 7) .normal [{ acc 2048 0 with len := 1 }]) 0 (team 1) (put 0x10000 [1, 2, 3, 4, 5, 6, 7, 0xF8, 9, 10, 11, 12] []))
def w_loads_complete_1_o : Op := op (.load (.scal 7) .normal [{ acc 2048 0 with len := 1 }])
theorem test_loads_complete_1 : ∃ (s u : State) (o : Op) (sd : Nat) (pol : CachePol) (a : Acc),
    Pending s u o ∧
    o.kind = .load (.scal sd) pol [a] ∧
    o.pins = [] ∧
    u.dev.cur.inTurn o.id a = true ∧
    sound u o pol a ∧
    noWatch u ∧
    let x := valueOf u o pol a
    (sd = 63 ∨ (allocLabel u.dev.cur.regs.labels x.2).isSome) := 
  ⟨w_loads_complete_1_s, w_loads_complete_1_u, w_loads_complete_1_o, 7, .normal, { acc 2048 0 with len := 1 },
   pending_of (by decide +kernel), by decide +kernel, by decide +kernel, by decide +kernel, soundB_gives (by decide +kernel), show _ = _ by decide +kernel, by decide +kernel⟩

def w_loads_complete_2_s : State := (fun s : State => { s with dev := { s.dev with windows := [(9, { reg := true, rcv := [(1, 6)] })] } }) (pend (.wcnt 7 0x10009 true) 0 (team 1) ([]))
def w_loads_complete_2_u : State := (fun s : State => { s with dev := { s.dev with windows := [(9, { reg := true, rcv := [(1, 6)] })] } }) (pend (.wcnt 7 0x10009 true) 0 (team 1) ([]))
theorem test_loads_complete_2 : ∃ (s u : State) (o : Op) (sd : Nat) (win : Dword) (rcv : Bool),
    Pending s u o ∧
    o.kind = .wcnt sd win rcv ∧
    o.pins = [] := 
  ⟨w_loads_complete_2_s, w_loads_complete_2_u, op (.wcnt 7 0x10009 true), 7, 0x10009, true,
   pending_of (by decide +kernel), by decide +kernel⟩

def w_stores_performed_0_s : State := (fun s : State => { s with dev := { s.dev with frames := mupd {} s.dev.frames 1 fun f => { f with cur := 9 } } }) (pend (.store [acc 0 0, acc 1 4]) 1 (team 1) ([]))
def w_stores_performed_0_u : State := (fun s : State => { s with dev := { s.dev with frames := mupd {} s.dev.frames 1 fun f => { f with cur := 9 } } }) (pend (.store [acc 0 0, acc 1 4]) 1 (team 1) ([]))
theorem test_stores_performed_0 : ∃ (s u : State) (o : Op) (as : List Acc) (a y : Acc) (pa e : Nat) (c : Bool),
    Pending s u o ∧
    o.kind = .store as ∧
    o.pins = [] ∧
    NextLane s u o as a ∧
    Sends as a y ∧
    (∀ b ∈ as, b.note ≠ 2) ∧
    noWatch u ∧
    a.tgt = .mem pa e c ∧
    admitted u pa a.va a.len (a.lbl ||| a.albl) ∧
    badNarrow u.dev pa a.len = false := 
  ⟨w_stores_performed_0_s, w_stores_performed_0_u, op (.store [acc 0 0, acc 1 4]), [acc 0 0, acc 1 4], acc 1 4, acc 1 4, 0x10004, 1, true,
   pending_of (by decide +kernel), by decide +kernel, by decide +kernel, ⟨by decide +kernel, by decide +kernel⟩, show _ ∨ _ by decide +kernel, by decide +kernel, show _ = _ by decide +kernel, by decide +kernel, by first | exact fun h => absurd h (by decide +kernel) | exact fun _ => by decide +kernel, by decide +kernel⟩

def w_stores_performed_1_s : State := pend (.store [{ accS 0 4 with len := 4 }]) 0 (team 1) ([])
def w_stores_performed_1_u : State := pend (.store [{ accS 0 4 with len := 4 }]) 0 (team 1) ([])
def w_stores_performed_1_w : Team := (exGet (scrWrite w_stores_performed_1_u.dev.cur ((0 : Nat)) ((4 : Nat)) (({ accS 0 4 with len := 4 } : Acc)).len (({ accS 0 4 with len := 4 } : Acc)).data ((({ accS 0 4 with len := 4 } : Acc)).lbl ||| (({ accS 0 4 with len := 4 } : Acc)).albl)) (by decide +kernel))
theorem test_stores_performed_1 : ∃ (s u : State) (o : Op) (as : List Acc) (a y : Acc) (h off : Nat) (w : Team),
    Pending s u o ∧
    o.kind = .store as ∧
    o.pins = [] ∧
    NextLane s u o as a ∧
    Sends as a y ∧
    (∀ b ∈ as, b.note ≠ 2) ∧
    noWatch u ∧
    a.tgt = .scr h off ∧
    y.note ≠ 1 ∧
    scrNarrow u.dev.cur h off a.len = [] ∧
    scrWrite u.dev.cur h off a.len a.data (a.lbl ||| a.albl) = .ok w := 
  ⟨w_stores_performed_1_s, w_stores_performed_1_u, op (.store [{ accS 0 4 with len := 4 }]), [{ accS 0 4 with len := 4 }], { accS 0 4 with len := 4 }, { accS 0 4 with len := 4 }, 0, 4, w_stores_performed_1_w,
   pending_of (by decide +kernel), by decide +kernel, by decide +kernel, ⟨by decide +kernel, by decide +kernel⟩, show _ ∨ _ by decide +kernel, by decide +kernel, show _ = _ by decide +kernel, by decide +kernel, by decide +kernel, by decide +kernel, exGot _⟩

def w_stores_performed_2_s : State := pend (.code [{ acc 0 0 with len := 64, aux := 0, data := 0xF7 }]) 0 (team 1) (put 0x10000 ([1, 120] ++ leBytes 48 0x123456789) [])
def w_stores_performed_2_u : State := pend (.code [{ acc 0 0 with len := 64, aux := 0, data := 0xF7 }]) 0 (team 1) (put 0x10000 ([1, 120] ++ leBytes 48 0x123456789) [])
def w_stores_performed_2_o : Op := op (.code [{ acc 0 0 with len := 64, aux := 0, data := 0xF7 }])
def w_stores_performed_2_as : List Acc := [{ acc 0 0 with len := 64, aux := 0, data := 0xF7 }]
def w_stores_performed_2_a : Acc := { acc 0 0 with len := 64, aux := 0, data := 0xF7 }
theorem test_stores_performed_2 : ∃ (s u : State) (o : Op) (as : List Acc) (a : Acc) (pa e : Nat) (c : Bool),
    Pending s u o ∧
    o.kind = .code as ∧
    o.pins = [] ∧
    NextLane s u o as a ∧
    (∀ b ∈ as, b.note ≠ 2) ∧
    a.note = 0 ∧
    noWatch u ∧
    a.tgt = .mem pa e c ∧
    u.dev.badU = [] ∧
    let f := (byteAt u pa).toNat
    f ≠ 0 ∧
    blkKnown f = true ∧
    a.aux < blkCount f ∧
    let at_ := pa + 2 + (if blkNarrow f then a.aux / 2 else a.aux)
    paIsHost at_ = false := 
  ⟨w_stores_performed_2_s, w_stores_performed_2_u, w_stores_performed_2_o, w_stores_performed_2_as, w_stores_performed_2_a, 0x10000, 1, true,
   pending_of (by decide +kernel), by decide +kernel, by decide +kernel, ⟨by decide +kernel, by decide +kernel⟩, by decide +kernel, by decide +kernel, show _ = _ by decide +kernel, by decide +kernel⟩

def w_atomics_performed_0_s : State := (fun s : State => { s with dev := { s.dev with frames := mupd {} s.dev.frames 1 fun f => { f with cur := 9 } } }) (pend (.atomic (.op .add false) (.regs 6 1) none [acc 0 0, { acc 1 4 with aux := 9 }]) 0 (team 1) (put 0x10000 [1, 2, 3, 4, 5, 6, 7, 0xF8, 9, 10, 11, 12] []))
def w_atomics_performed_0_u : State := (fun s : State => { s with dev := { s.dev with frames := mupd {} s.dev.frames 1 fun f => { f with cur := 9 } } }) (pend (.atomic (.op .add false) (.regs 6 1) none [acc 0 0, { acc 1 4 with aux := 9 }]) 0 (team 1) (put 0x10000 [1, 2, 3, 4, 5, 6, 7, 0xF8, 9, 10, 11, 12] []))
def w_atomics_performed_0_o : Op := op (.atomic (.op .add false) (.regs 6 1) none [acc 0 0, { acc 1 4 with aux := 9 }])
theorem test_atomics_performed_0 : ∃ (s u : State) (o : Op) (k : AtomKind) (dst : LoadDst) (acq : Option Scope) (as : List Acc) (a : Acc),
    Pending s u o ∧
    o.kind = .atomic k dst acq as ∧
    o.pins = [] ∧
    NextLane s u o as a ∧
    (∀ b ∈ as, b.note = 0) ∧
    noWatch u ∧
    (as.any fun b => !b.fin && decide (b.lane < a.lane) && b.tgt.meets u.dev.cur.lanes b.len a.tgt a.len) = false ∧
    u.dev.badU = [] ∧
    u.dev.badCorr = [] ∧
    u.dev.cur.badS = [] ∧
    a.seen = none := 
  ⟨w_atomics_performed_0_s, w_atomics_performed_0_u, w_atomics_performed_0_o, .op .add false, .regs 6 1, none, [acc 0 0, { acc 1 4 with aux := 9 }], acc 0 0,
   pending_of (by decide +kernel), by decide +kernel, by decide +kernel, ⟨by decide +kernel, by decide +kernel⟩, by decide +kernel, show _ = _ by decide +kernel, by decide +kernel⟩

def w_arbor_operations_0_s : State := pend (.arbor (.read) 3 tree.h 5 63 [{ lane := 0, key := 7, shard := shardOf 1 7, data := 5, lbl := 4 }]) 0 (team 1) (treeMem)
def w_arbor_operations_0_u : State := pend (.arbor (.read) 3 tree.h 5 63 [{ lane := 0, key := 7, shard := shardOf 1 7, data := 5, lbl := 4 }]) 0 (team 1) (treeMem)
def w_arbor_operations_0_op : Op := op (.arbor (.read) 3 tree.h 5 63 [{ lane := 0, key := 7, shard := shardOf 1 7, data := 5, lbl := 4 }])
def w_arbor_operations_0_ls : List ArborLane := [{ lane := 0, key := 7, shard := shardOf 1 7, data := 5, lbl := 4 }]
def w_arbor_operations_0_l : ArborLane := { lane := 0, key := 7, shard := shardOf 1 7, data := 5, lbl := 4 }
def w_arbor_operations_0_l' : ArborLane := ((arborStep w_arbor_operations_0_u ((.read : ArborOp)) tree.h w_arbor_operations_0_l (if ((.read : ArborOp)) = .iter then w_arbor_operations_0_s.args.q else w_arbor_operations_0_l.shard)).get (by decide +kernel)).1
def w_arbor_operations_0_d : Dev := ((arborStep w_arbor_operations_0_u ((.read : ArborOp)) tree.h w_arbor_operations_0_l (if ((.read : ArborOp)) = .iter then w_arbor_operations_0_s.args.q else w_arbor_operations_0_l.shard)).get (by decide +kernel)).2
theorem test_arbor_operations_0 : ∃ (s u : State) (op : Op) (o : ArborOp) (h : Nat) (hw : Handle) (v sd : Nat) (ls : List ArborLane) (l l' : ArborLane) (d : Dev),
    Pending s u op ∧
    op.kind = .arbor o h hw v sd ls ∧
    op.pins = [] ∧
    ls.find? (fun x => x.lane == s.args.n && !x.done) = some l ∧
    let shard := if o = .iter then s.args.q else l.shard
    l.pending o shard = true ∧
    arborTurn u.dev.cur op.id l.lane hw.base shard = true ∧
    arborReady u.fw u.dev o hw ls = true ∧
    arborStep u o hw l shard = some (l', d) ∧
    u.dev.badCorr = [] ∧
    let ls' := ls.map fun x => if x.lane = l.lane then l' else x
    (∀ x ∈ ls', x.bad = false ∧ x.refused = false) ∧
    let rows := if ls'.all (·.done) then arborRows o v ls' else []
    Fits u rows ∧
    (o = .iter → sd = 63 ∨ (allocLabel (allocLanes u.dev.cur.regs.labels (rows.map fun x => (x.1, x.2.1))).2.1 (iterSet u hw ls')).isSome = true) := 
  ⟨w_arbor_operations_0_s, w_arbor_operations_0_u, w_arbor_operations_0_op, .read, 3, tree.h, 5, 63, w_arbor_operations_0_ls, w_arbor_operations_0_l, w_arbor_operations_0_l', w_arbor_operations_0_d,
   pending_of (by decide +kernel), by decide +kernel, by decide +kernel, by decide +kernel, ⟨by decide +kernel, by decide +kernel, by decide +kernel, gotP _, by decide +kernel, by decide +kernel, fits_of (by decide +kernel), by decide +kernel⟩⟩

def w_arbor_operations_1_s : State := pend (.arbor .iter 3 tree.h 5 7 [{ lane := 0, key := 0, shard := 0, atEnd := true, done := true }]) 0 (team 1) (stored)
def w_arbor_operations_1_u : State := pend (.arbor .iter 3 tree.h 5 7 [{ lane := 0, key := 0, shard := 0, atEnd := true, done := true }]) 0 (team 1) (stored)
def w_arbor_operations_1_op : Op := op (.arbor .iter 3 tree.h 5 7 [{ lane := 0, key := 0, shard := 0, atEnd := true, done := true }])
def w_arbor_operations_1_ls : List ArborLane := [{ lane := 0, key := 0, shard := 0, atEnd := true, done := true }]
theorem test_arbor_operations_1 : ∃ (s u : State) (op : Op) (h : Nat) (hw : Handle) (v sd : Nat) (ls : List ArborLane),
    Pending s u op ∧
    op.kind = .arbor .iter h hw v sd ls ∧
    op.pins = [] ∧
    (∀ l ∈ ls, l.atEnd = true ∧ l.done = true ∧ l.bad = false ∧ l.refused = false) ∧
    (sd = 63 ∨ (allocLabel u.dev.cur.regs.labels (iterSet u hw ls)).isSome = true) := 
  ⟨w_arbor_operations_1_s, w_arbor_operations_1_u, w_arbor_operations_1_op, 3, tree.h, 5, 7, w_arbor_operations_1_ls,
   pending_of (by decide +kernel), by decide +kernel⟩

def w_kudu_rows_0_s : State := pend (.kudu { kind := .copy, desc := 0x20000, tgt := .mem 0x10000 1 true, h := 0, hw := {}, lbl := 4 }) 0 (team 1) (put 0x10000 (packBytes 128 [(0, 8, 0x30000), (8, 8, 0x40000), (16, 8, 0), (24, 4, 16), (28, 2, 0), (32, 2, 4), (34, 2, 1), (36, 2, 1), (38, 2, 1), (40, 4, 16), (56, 4, 16)]) (put 0x20000 (leBytes 64 0x0102030405060708090A0B0C0D0E0F101112131415161718191A1B1C1D1E1F) []))
def w_kudu_rows_0_u : State := pend (.kudu { kind := .copy, desc := 0x20000, tgt := .mem 0x10000 1 true, h := 0, hw := {}, lbl := 4 }) 0 (team 1) (put 0x10000 (packBytes 128 [(0, 8, 0x30000), (8, 8, 0x40000), (16, 8, 0), (24, 4, 16), (28, 2, 0), (32, 2, 4), (34, 2, 1), (36, 2, 1), (38, 2, 1), (40, 4, 16), (56, 4, 16)]) (put 0x20000 (leBytes 64 0x0102030405060708090A0B0C0D0E0F101112131415161718191A1B1C1D1E1F) []))
def w_kudu_rows_0_o : Op := op (.kudu { kind := .copy, desc := 0x20000, tgt := .mem 0x10000 1 true, h := 0, hw := {}, lbl := 4 })
def w_kudu_rows_0_c : Kudu := { kind := .copy, desc := 0x20000, tgt := .mem 0x10000 1 true, h := 0, hw := {}, lbl := 4 }
def w_kudu_rows_0_desc : List Piece := (exGetP (engineRange w_kudu_rows_0_u.fw { r := true, e := true, cls := .readout } false w_kudu_rows_0_c.desc 128 w_kudu_rows_0_u.dev) (by decide +kernel)).1
def w_kudu_rows_0_d1 : Dev := (exGetP (engineRange w_kudu_rows_0_u.fw { r := true, e := true, cls := .readout } false w_kudu_rows_0_c.desc 128 w_kudu_rows_0_u.dev) (by decide +kernel)).2
def w_kudu_rows_0_x : KuduDesc := ((kuduDesc ((readPieces w_kudu_rows_0_d1 (w_kudu_rows_0_c.reader w_kudu_rows_0_d1.cur w_kudu_rows_0_o) w_kudu_rows_0_desc).map (·.1)) (joinOf (readPieces w_kudu_rows_0_d1 (w_kudu_rows_0_c.reader w_kudu_rows_0_d1.cur w_kudu_rows_0_o) w_kudu_rows_0_desc))).get (by decide +kernel))
def w_kudu_rows_0_d : Dev := ((pinOp w_kudu_rows_0_d1 w_kudu_rows_0_o.id (pieceEnts (w_kudu_rows_0_desc ++ (kuduReach w_kudu_rows_0_u.fw w_kudu_rows_0_d1 w_kudu_rows_0_o w_kudu_rows_0_c w_kudu_rows_0_x).src ++ (kuduReach w_kudu_rows_0_u.fw w_kudu_rows_0_d1 w_kudu_rows_0_o w_kudu_rows_0_c w_kudu_rows_0_x).dst))).get (by decide +kernel))
theorem test_kudu_rows_0 : ∃ (s u : State) (o : Op) (c : Kudu) (x : KuduDesc) (desc : List Piece) (d1 d : Dev),
    Pending s u o ∧
    o.kind = .kudu c ∧
    c.stale = true ∧
    c.suspended = false ∧
    c.fault = none ∧
    c.dead = [] ∧
    c.tested = false ∧
    engineRange u.fw { r := true, e := true, cls := .readout } false c.desc 128 u.dev = (.ok desc, d1) ∧
    (desc.all fun p => u.dev.cur.writesDone o.id p.tgt p.len) = true ∧
    u.dev.badU = [] ∧
    u.dev.badCorr = [] ∧
    u.dev.cur.badS = [] ∧
    u.dev.cur.badV = [] ∧
    let bs := readPieces d1 (c.reader d1.cur o) desc
    kuduDesc (bs.map (·.1)) (joinOf bs) = some x ∧
    kuduValid u.dev.cur.decl.scratch c x = true ∧
    let r := kuduReach u.fw d1 o c x
    (r.dst.any Piece.host) = false ∧
    r.noDst = none ∧
    pinOp d1 o.id (pieceEnts (desc ++ r.src ++ r.dst)) = some d ∧
    (∀ w, u.dev.cur.wait ≠ .trap w) ∧
    u.dev.cur.save = none := 
  ⟨w_kudu_rows_0_s, w_kudu_rows_0_u, w_kudu_rows_0_o, w_kudu_rows_0_c, w_kudu_rows_0_x, w_kudu_rows_0_desc, w_kudu_rows_0_d1, w_kudu_rows_0_d,
   pending_of (by decide +kernel), by decide +kernel, by decide +kernel, by decide +kernel, ⟨by decide +kernel, by decide +kernel, by decide +kernel, exGotP _, by decide +kernel, by decide +kernel, by decide +kernel, ⟨by decide +kernel, by decide +kernel, got _, by decide +kernel, by decide +kernel, by decide +kernel, got _, not_trap (by decide +kernel), by decide +kernel⟩⟩⟩

def w_kudu_rows_1_s : State := pend (.kudu { kind := .copy, desc := 0x20000, tgt := .mem 0x10000 1 true, h := 0, hw := {}, lbl := 4, stale := false, rd := some (((kuduDesc (packBytes 128 [(0, 8, 0x30000), (8, 8, 0x40000), (16, 8, 0), (24, 4, 16), (28, 2, 0), (32, 2, 4), (34, 2, 1), (36, 2, 1), (38, 2, 1), (40, 4, 16), (56, 4, 16)]) 4).get (by decide +kernel))) }) 0 ({ team 1 with regs := { (team 1).regs with v := [(1024 + 5, { val := 7, lbl := 3 }), (5, { val := 7, lbl := 3 })], scr := [(1, { val := 9, lbl := 1 }), (2, { val := 0, armed := false }), (3, { val := 2 })], labels := [(1, 8)] } }) (put 0x10000 (packBytes 128 [(0, 8, 0x30000), (8, 8, 0x40000), (16, 8, 0), (24, 4, 16), (28, 2, 0), (32, 2, 4), (34, 2, 1), (36, 2, 1), (38, 2, 1), (40, 4, 16), (56, 4, 16)]) (put 0x20000 (leBytes 64 0x0102030405060708090A0B0C0D0E0F101112131415161718191A1B1C1D1E1F) []))
def w_kudu_rows_1_u : State := pend (.kudu { kind := .copy, desc := 0x20000, tgt := .mem 0x10000 1 true, h := 0, hw := {}, lbl := 4, stale := false, rd := some (((kuduDesc (packBytes 128 [(0, 8, 0x30000), (8, 8, 0x40000), (16, 8, 0), (24, 4, 16), (28, 2, 0), (32, 2, 4), (34, 2, 1), (36, 2, 1), (38, 2, 1), (40, 4, 16), (56, 4, 16)]) 4).get (by decide +kernel))) }) 0 ({ team 1 with regs := { (team 1).regs with v := [(1024 + 5, { val := 7, lbl := 3 }), (5, { val := 7, lbl := 3 })], scr := [(1, { val := 9, lbl := 1 }), (2, { val := 0, armed := false }), (3, { val := 2 })], labels := [(1, 8)] } }) (put 0x10000 (packBytes 128 [(0, 8, 0x30000), (8, 8, 0x40000), (16, 8, 0), (24, 4, 16), (28, 2, 0), (32, 2, 4), (34, 2, 1), (36, 2, 1), (38, 2, 1), (40, 4, 16), (56, 4, 16)]) (put 0x20000 (leBytes 64 0x0102030405060708090A0B0C0D0E0F101112131415161718191A1B1C1D1E1F) []))
def w_kudu_rows_1_o : Op := op (.kudu { kind := .copy, desc := 0x20000, tgt := .mem 0x10000 1 true, h := 0, hw := {}, lbl := 4, stale := false, rd := some (((kuduDesc (packBytes 128 [(0, 8, 0x30000), (8, 8, 0x40000), (16, 8, 0), (24, 4, 16), (28, 2, 0), (32, 2, 4), (34, 2, 1), (36, 2, 1), (38, 2, 1), (40, 4, 16), (56, 4, 16)]) 4).get (by decide +kernel))) })
def w_kudu_rows_1_c : Kudu := { kind := .copy, desc := 0x20000, tgt := .mem 0x10000 1 true, h := 0, hw := {}, lbl := 4, stale := false, rd := some (((kuduDesc (packBytes 128 [(0, 8, 0x30000), (8, 8, 0x40000), (16, 8, 0), (24, 4, 16), (28, 2, 0), (32, 2, 4), (34, 2, 1), (36, 2, 1), (38, 2, 1), (40, 4, 16), (56, 4, 16)]) 4).get (by decide +kernel))) }
def w_kudu_rows_1_x : KuduDesc := ((kuduDesc (packBytes 128 [(0, 8, 0x30000), (8, 8, 0x40000), (16, 8, 0), (24, 4, 16), (28, 2, 0), (32, 2, 4), (34, 2, 1), (36, 2, 1), (38, 2, 1), (40, 4, 16), (56, 4, 16)]) 4).get (by decide +kernel))
def w_kudu_rows_1_bs : List (Byte × OSet) := match (rowRead w_kudu_rows_1_s.fw w_kudu_rows_1_s.dev w_kudu_rows_1_o w_kudu_rows_1_c w_kudu_rows_1_x 0).1 with | .bytes b _ => b | _ => []
def w_kudu_rows_1_src : List Piece := match (rowRead w_kudu_rows_1_s.fw w_kudu_rows_1_s.dev w_kudu_rows_1_o w_kudu_rows_1_c w_kudu_rows_1_x 0).1 with | .bytes _ p => p | _ => []
def w_kudu_rows_1_p : Piece := match (engineRange w_kudu_rows_1_s.fw (kuduDstNeed w_kudu_rows_1_x) true (rowAddrs w_kudu_rows_1_c w_kudu_rows_1_x 0).2 w_kudu_rows_1_x.len w_kudu_rows_1_s.dev).1 with | .ok [p] => p | _ => { off := 9, va := 0, tgt := .scr 9 9, len := 0 }
theorem test_kudu_rows_1 : ∃ (s u : State) (o : Op) (c : Kudu) (x : KuduDesc) (bs : List (Byte × OSet)) (src : List Piece) (p : Piece),
    Pending s u o ∧
    o.kind = .kudu c ∧
    RowOk u o c x s.args.n bs src p := 
  ⟨w_kudu_rows_1_s, w_kudu_rows_1_u, w_kudu_rows_1_o, w_kudu_rows_1_c, w_kudu_rows_1_x, w_kudu_rows_1_bs, w_kudu_rows_1_src, w_kudu_rows_1_p,
   pending_of (by decide +kernel), by decide +kernel, row_of (by decide +kernel)⟩

def w_kudu_completions_0_s : State := (fun s : State => { s with dev := { (pinFrames s.dev [2, 3]) with cur := { s.dev.cur with ops := [{ op (.kudu ({ kind := .copy, desc := 0x20000, tgt := .mem 0x10000 1 true, h := 0, hw := {}, lbl := 4, stale := false, rd := some { src := 0x30000, dst := 0x40000, bar := 0, len := 16, srch := false, rowarr := false, cnt := [4, 1, 1, 1], ss := [16, 0, 0, 0], ds := [16, 0, 0, 0], org := [], lbl := 0 }, committed := 4, spec := 4 })) with pins := [2, 3] }] } } }) <| (pend (.kudu { kind := .copy, desc := 0x20000, tgt := .mem 0x10000 1 true, h := 0, hw := {}, lbl := 4, stale := false, rd := some { src := 0x30000, dst := 0x40000, bar := 0, len := 16, srch := false, rowarr := false, cnt := [4, 1, 1, 1], ss := [16, 0, 0, 0], ds := [16, 0, 0, 0], org := [], lbl := 0 }, committed := 4, spec := 4 }) 0 (team 1) ([]))
def w_kudu_completions_0_u : State := (fun s : State => { s with dev := { (pinFrames s.dev [2, 3]) with cur := { s.dev.cur with ops := [{ op (.kudu ({ kind := .copy, desc := 0x20000, tgt := .mem 0x10000 1 true, h := 0, hw := {}, lbl := 4, stale := false, rd := some { src := 0x30000, dst := 0x40000, bar := 0, len := 16, srch := false, rowarr := false, cnt := [4, 1, 1, 1], ss := [16, 0, 0, 0], ds := [16, 0, 0, 0], org := [], lbl := 0 }, committed := 4, spec := 4 })) with pins := [2, 3] }] } } }) <| (pend (.kudu { kind := .copy, desc := 0x20000, tgt := .mem 0x10000 1 true, h := 0, hw := {}, lbl := 4, stale := false, rd := some { src := 0x30000, dst := 0x40000, bar := 0, len := 16, srch := false, rowarr := false, cnt := [4, 1, 1, 1], ss := [16, 0, 0, 0], ds := [16, 0, 0, 0], org := [], lbl := 0 }, committed := 4, spec := 4 }) 0 (team 1) ([]))
def w_kudu_completions_0_o : Op := { op (.kudu { kind := .copy, desc := 0x20000, tgt := .mem 0x10000 1 true, h := 0, hw := {}, lbl := 4, stale := false, rd := some { src := 0x30000, dst := 0x40000, bar := 0, len := 16, srch := false, rowarr := false, cnt := [4, 1, 1, 1], ss := [16, 0, 0, 0], ds := [16, 0, 0, 0], org := [], lbl := 0 }, committed := 4, spec := 4 }) with pins := [2, 3] }
def w_kudu_completions_0_c : Kudu := { kind := .copy, desc := 0x20000, tgt := .mem 0x10000 1 true, h := 0, hw := {}, lbl := 4, stale := false, rd := some { src := 0x30000, dst := 0x40000, bar := 0, len := 16, srch := false, rowarr := false, cnt := [4, 1, 1, 1], ss := [16, 0, 0, 0], ds := [16, 0, 0, 0], org := [], lbl := 0 }, committed := 4, spec := 4 }
theorem test_kudu_completions_0 : ∃ (s u : State) (o : Op) (c : Kudu),
    Pending s u o ∧
    o.kind = .kudu c ∧
    c.finished = true ∧
    c.full = none := 
  ⟨w_kudu_completions_0_s, w_kudu_completions_0_u, w_kudu_completions_0_o, w_kudu_completions_0_c,
   pending_of (by decide +kernel), by decide +kernel⟩

def w_kudu_completions_1_s : State := pend (.kpos 7 0x20000) 0 (team 1) ([])
def w_kudu_completions_1_v : Dword := ((posOf (pend (.kpos 7 0x20000) 0 (team 1) ([])).dev.cur (op (.kpos 7 0x20000)).id ((0x20000 : Dword))).get (by decide +kernel))
theorem test_kudu_completions_1 : ∃ (s u : State) (o : Op) (sd : Nat) (va v : Dword),
    Pending s u o ∧
    o.kind = .kpos sd va ∧
    o.pins = [] ∧
    posOf u.dev.cur o.id va = some v := 
  ⟨w_kudu_completions_1_s, pend (.kpos 7 0x20000) 0 (team 1) ([]), op (.kpos 7 0x20000), 7, 0x20000, w_kudu_completions_1_v,
   pending_of (by decide +kernel), by decide +kernel, by decide +kernel, got _⟩

def w_kudu_completions_2_s : State := pend (.kstop 0x20000 []) 0 (team 1) ([])
theorem test_kudu_completions_2 : ∃ (s u : State) (o : Op) (va : Dword) (ids : List Nat),
    Pending s u o ∧
    o.kind = .kstop va ids ∧
    o.pins = [] ∧
    stopDone u.dev.cur ids = true := 
  ⟨w_kudu_completions_2_s, pend (.kstop 0x20000 []) 0 (team 1) ([]), op (.kstop 0x20000 []), 0x20000, [],
   pending_of (by decide +kernel), by decide +kernel⟩

def w_kudu_completions_3_s : State := pend (.kudu { kind := .copy, desc := 0x20000, tgt := .mem 0x10000 1 true, h := 0, hw := {}, lbl := 4, stale := false, rd := some { src := 0x30000, dst := 0x40000, bar := 0, len := 16, srch := false, rowarr := false, cnt := [4, 1, 1, 1], ss := [16, 0, 0, 0], ds := [16, 0, 0, 0], org := [], lbl := 0 }, fault := some (0x40000, 0), resumable := true, committed := 2, spec := 3, perf := [2] }) 0 (team 1) ([])
def w_kudu_completions_3_u : State := pend (.kudu { kind := .copy, desc := 0x20000, tgt := .mem 0x10000 1 true, h := 0, hw := {}, lbl := 4, stale := false, rd := some { src := 0x30000, dst := 0x40000, bar := 0, len := 16, srch := false, rowarr := false, cnt := [4, 1, 1, 1], ss := [16, 0, 0, 0], ds := [16, 0, 0, 0], org := [], lbl := 0 }, fault := some (0x40000, 0), resumable := true, committed := 2, spec := 3, perf := [2] }) 0 (team 1) ([])
def w_kudu_completions_3_o : Op := op (.kudu { kind := .copy, desc := 0x20000, tgt := .mem 0x10000 1 true, h := 0, hw := {}, lbl := 4, stale := false, rd := some { src := 0x30000, dst := 0x40000, bar := 0, len := 16, srch := false, rowarr := false, cnt := [4, 1, 1, 1], ss := [16, 0, 0, 0], ds := [16, 0, 0, 0], org := [], lbl := 0 }, fault := some (0x40000, 0), resumable := true, committed := 2, spec := 3, perf := [2] })
def w_kudu_completions_3_c : Kudu := { kind := .copy, desc := 0x20000, tgt := .mem 0x10000 1 true, h := 0, hw := {}, lbl := 4, stale := false, rd := some { src := 0x30000, dst := 0x40000, bar := 0, len := 16, srch := false, rowarr := false, cnt := [4, 1, 1, 1], ss := [16, 0, 0, 0], ds := [16, 0, 0, 0], org := [], lbl := 0 }, fault := some (0x40000, 0), resumable := true, committed := 2, spec := 3, perf := [2] }
theorem test_kudu_completions_3 : ∃ (s u : State) (o : Op) (c : Kudu),
    Pending s u o ∧
    o.kind = .kudu c ∧
    c.fault ≠ none ∧
    c.resumable = true := 
  ⟨w_kudu_completions_3_s, w_kudu_completions_3_u, w_kudu_completions_3_o, w_kudu_completions_3_c,
   pending_of (by decide +kernel), by decide +kernel⟩

def w_window_transfers_0_s : State := (fun s : State => { s with dev := { s.dev with windows := [(9, { base := 0x30000, len := 65536, reg := true, snd := [(1, 7)], rcv := [(1, 4), (2, 5)], pins := [2] })] } }) <| (pend (.wwr { win := 0x0001000900000000, len := 4, src := [acc 2048 0], lbl := 0 }) 0 (team 1) (put 0x10000 [1, 2, 3, 4, 5, 6, 7, 0xF8, 9, 10, 11, 12] []))
def w_window_transfers_0_u : State := (fun s : State => { s with dev := { s.dev with windows := [(9, { base := 0x30000, len := 65536, reg := true, snd := [(1, 7)], rcv := [(1, 4), (2, 5)], pins := [2] })] } }) <| (pend (.wwr { win := 0x0001000900000000, len := 4, src := [acc 2048 0], lbl := 0 }) 0 (team 1) (put 0x10000 [1, 2, 3, 4, 5, 6, 7, 0xF8, 9, 10, 11, 12] []))
def w_window_transfers_0_o : Op := op (.wwr { win := 0x0001000900000000, len := 4, src := [acc 2048 0], lbl := 0 })
def w_window_transfers_0_w : Wwr := { win := 0x0001000900000000, len := 4, src := [acc 2048 0], lbl := 0 }
def w_window_transfers_0_un : List Nat := ((lodge w_window_transfers_0_u.fw w_window_transfers_0_u.dev.cur.part (wwrLabel w_window_transfers_0_u.dev w_window_transfers_0_w) 2 w_window_transfers_0_w.win.toNat w_window_transfers_0_w.len).get (by decide +kernel))
theorem test_window_transfers_0 : ∃ (s u : State) (o : Op) (w : Wwr) (un : List Nat),
    Pending s u o ∧
    o.kind = .wwr w ∧
    (w.src.all fun a => u.dev.cur.writesDone o.id a.tgt a.len) = true ∧
    winKnown u.fw u.dev u.dev.cur.part w.win = true ∧
    winHolds u.dev w.win w.len = true ∧
    (wwrPieces w).any (badPiece u.dev) = false ∧
    u.dev.badCorr = [] ∧
    lodge u.fw u.dev.cur.part (wwrLabel u.dev w) 2 w.win.toNat w.len = some un := 
  ⟨w_window_transfers_0_s, w_window_transfers_0_u, w_window_transfers_0_o, w_window_transfers_0_w, w_window_transfers_0_un,
   pending_of (by decide +kernel), by decide +kernel, by decide +kernel, by decide +kernel, ⟨by decide +kernel, by decide +kernel, by decide +kernel, got _⟩⟩

def w_window_transfers_0_2_s : State := (fun s : State => { s with dev := { s.dev with windows := [(9, { base := 0x30000, len := 65536, reg := true, snd := [(1, 7)], rcv := [(1, 4), (2, 5)], pins := [2] })] } }) <| (pend (.wwr { win := 0x0001000900000000, len := 4, src := [{ acc 2048 0 with tgt := .scr 0 4, va := 0xFFFFF00000000004 }], lbl := 0 }) 0 (team 1) (put 0x10000 [1, 2, 3, 4, 5, 6, 7, 0xF8, 9, 10, 11, 12] []))
def w_window_transfers_0_2_u : State := (fun s : State => { s with dev := { s.dev with windows := [(9, { base := 0x30000, len := 65536, reg := true, snd := [(1, 7)], rcv := [(1, 4), (2, 5)], pins := [2] })] } }) <| (pend (.wwr { win := 0x0001000900000000, len := 4, src := [{ acc 2048 0 with tgt := .scr 0 4, va := 0xFFFFF00000000004 }], lbl := 0 }) 0 (team 1) (put 0x10000 [1, 2, 3, 4, 5, 6, 7, 0xF8, 9, 10, 11, 12] []))
def w_window_transfers_0_2_o : Op := op (.wwr { win := 0x0001000900000000, len := 4, src := [{ acc 2048 0 with tgt := .scr 0 4, va := 0xFFFFF00000000004 }], lbl := 0 })
def w_window_transfers_0_2_w : Wwr := { win := 0x0001000900000000, len := 4, src := [{ acc 2048 0 with tgt := .scr 0 4, va := 0xFFFFF00000000004 }], lbl := 0 }
def w_window_transfers_0_2_un : List Nat := ((lodge w_window_transfers_0_2_u.fw w_window_transfers_0_2_u.dev.cur.part (wwrLabel w_window_transfers_0_2_u.dev w_window_transfers_0_2_w) 2 w_window_transfers_0_2_w.win.toNat w_window_transfers_0_2_w.len).get (by decide +kernel))
theorem test_window_transfers_0_2 : ∃ (s u : State) (o : Op) (w : Wwr) (un : List Nat),
    Pending s u o ∧
    o.kind = .wwr w ∧
    (w.src.all fun a => u.dev.cur.writesDone o.id a.tgt a.len) = true ∧
    winKnown u.fw u.dev u.dev.cur.part w.win = true ∧
    winHolds u.dev w.win w.len = true ∧
    (wwrPieces w).any (badPiece u.dev) = false ∧
    u.dev.badCorr = [] ∧
    lodge u.fw u.dev.cur.part (wwrLabel u.dev w) 2 w.win.toNat w.len = some un := 
  ⟨w_window_transfers_0_2_s, w_window_transfers_0_2_u, w_window_transfers_0_2_o, w_window_transfers_0_2_w, w_window_transfers_0_2_un,
   pending_of (by decide +kernel), by decide +kernel, by decide +kernel, by decide +kernel, ⟨by decide +kernel, by decide +kernel, by decide +kernel, got _⟩⟩

def w_window_transfers_1_s : State := let s := st (team 1) { arrival := .outgoing 1 5 }; { s with dev := { s.dev with outs := [{ team := 1, op := 5, win := 3, under := [] }, { team := 1, op := 6, win := 3, under := [] }] } }
theorem test_window_transfers_1 : ∃ (s : State) (tid op : Nat),
    s.args.arrival = .outgoing tid op ∧
    (∃ m ∈ s.dev.outs, m.team = tid ∧ m.op = op) := 
  ⟨w_window_transfers_1_s, 1, 5,
   by decide +kernel⟩

def w_window_transfers_2_s : State := let s := st (team 1) { arrival := .write 1 9 0 [1, 2, 3] 6 }; { s with dev := { s.dev with windows := [(9, { base := 0x30000, len := 65536, reg := true, snd := [(1, 7)], rcv := [(1, 4), (2, 5)], pins := [2] })] } }
def w_window_transfers_2_e : TlbEnt := ((onPage w_window_transfers_2_s (w_window_transfers_2_s.dev.window ((9 : BitVec 16)).toNat).part fwW ((w_window_transfers_2_s.dev.window ((9 : BitVec 16)).toNat).base + ((0 : BitVec 32)).setWidth 64) (([1, 2, 3] : List Byte)).length).get (by decide +kernel))
theorem test_window_transfers_2 : ∃ (s : State) (whole : Bool) (peer win : BitVec 16) (off : BitVec 32) (bs : List Byte) (set : OSet) (e : TlbEnt),
    s.args.arrival = (if whole then .write peer win off bs set else .torn peer win off bs set) ∧
    s.dev.badU = [] ∧
    winOpen s.fw s.dev peer.toNat win.toNat = true ∧
    let x := s.dev.window win.toNat
    off.toNat + bs.length ≤ x.len ∧
    bs ≠ [] ∧
    bs.length ≤ 65536 ∧
    x.base.toNat + off.toNat < 2 ^ 64 ∧
    let va := x.base + off.setWidth 64
    onPage s x.part fwW va bs.length = some e ∧
    set &&& ~~~e.ceil = 0 := 
  ⟨w_window_transfers_2_s, true, 1, 9, 0, [1, 2, 3], 6, w_window_transfers_2_e,
   by decide +kernel, by decide +kernel, by decide +kernel, ⟨by decide +kernel, by decide +kernel, by decide +kernel, ⟨by decide +kernel, got _, by decide +kernel⟩⟩⟩

def w_window_transfers_2_2_s : State := let s := st (team 1) { arrival := .torn 1 9 65533 [1, 2, 3] 6 }; { s with dev := { s.dev with windows := [(9, { base := 0x30000, len := 65536, reg := true, snd := [(1, 7)], rcv := [(1, 4), (2, 5)], pins := [2] })] } }
def w_window_transfers_2_2_e : TlbEnt := ((onPage w_window_transfers_2_2_s (w_window_transfers_2_2_s.dev.window ((9 : BitVec 16)).toNat).part fwW ((w_window_transfers_2_2_s.dev.window ((9 : BitVec 16)).toNat).base + ((65533 : BitVec 32)).setWidth 64) (([1, 2, 3] : List Byte)).length).get (by decide +kernel))
theorem test_window_transfers_2_2 : ∃ (s : State) (whole : Bool) (peer win : BitVec 16) (off : BitVec 32) (bs : List Byte) (set : OSet) (e : TlbEnt),
    s.args.arrival = (if whole then .write peer win off bs set else .torn peer win off bs set) ∧
    s.dev.badU = [] ∧
    winOpen s.fw s.dev peer.toNat win.toNat = true ∧
    let x := s.dev.window win.toNat
    off.toNat + bs.length ≤ x.len ∧
    bs ≠ [] ∧
    bs.length ≤ 65536 ∧
    x.base.toNat + off.toNat < 2 ^ 64 ∧
    let va := x.base + off.setWidth 64
    onPage s x.part fwW va bs.length = some e ∧
    set &&& ~~~e.ceil = 0 := 
  ⟨w_window_transfers_2_2_s, false, 1, 9, 65533, [1, 2, 3], 6, w_window_transfers_2_2_e,
   by decide +kernel, by decide +kernel, by decide +kernel, ⟨by decide +kernel, by decide +kernel, by decide +kernel, ⟨by decide +kernel, got _, by decide +kernel⟩⟩⟩

def w_window_transfers_3_s : State := let s := st (team 1) { arrival := .signal 1 9 0xFFFFFFFF 6 }; { s with dev := { s.dev with windows := [(9, { base := 0x30000, len := 65536, reg := true, snd := [(1, 7)], rcv := [(1, 4), (2, 5)], pins := [2] })] } }
theorem test_window_transfers_3 : ∃ (s : State) (peer win : BitVec 16) (v : BitVec 32) (set : OSet),
    s.args.arrival = .signal peer win v set ∧
    winOpen s.fw s.dev peer.toNat win.toNat = true := 
  ⟨w_window_transfers_3_s, 1, 9, 0xFFFFFFFF, 6,
   by decide +kernel⟩

def w_window_transfers_4_s : State := (fun s : State => { s with args := { s.args with arrival := .outgoing 1 1 }, dev := { s.dev with windows := [(9, { base := 0x30000, len := 65536, reg := true, snd := [(1, 7)], rcv := [(1, 4), (2, 5)], pins := [2] })] } }) <| (pend (.wsig 0x0001000900000000 5 0) 0 (team 1) ([]))
def w_window_transfers_4_u : State := (fun s : State => { s with args := { s.args with arrival := .outgoing 1 1 }, dev := { s.dev with windows := [(9, { base := 0x30000, len := 65536, reg := true, snd := [(1, 7)], rcv := [(1, 4), (2, 5)], pins := [2] })] } }) <| (pend (.wsig 0x0001000900000000 5 0) 0 (team 1) ([]))
theorem test_window_transfers_4 : ∃ (s u : State) (o : Op) (win : Dword) (v : Word) (set : OSet),
    s.args.arrival = .outgoing s.args.tid s.args.op ∧
    Pending s u o ∧
    o.kind = .wsig win v set ∧
    o.pins = [] ∧
    winKnown u.fw u.dev u.dev.cur.part win = true ∧
    winHolds u.dev win 4 = true ∧
    (lodge u.fw u.dev.cur.part set 2 win.toNat 4).isSome = true ∧
    earlierSent u.dev o.id win = true := 
  ⟨w_window_transfers_4_s, w_window_transfers_4_u, op (.wsig 0x0001000900000000 5 0), 0x0001000900000000, 5, 0,
   by decide +kernel, pending_of (by decide +kernel), by decide +kernel⟩

def w_window_transfers_5_s : State := (fun s : State => { s with args := { s.args with q := 1 }, dev := { s.dev with rest := [{ team 1 with key := 2, teamId := 2, ops := [op (.wsig 0x0001000900000000 5 0)] }], outs := [{ team := 1, op := 5, win := 0x0001000900000000, under := [] }, { team := 1, op := 6, win := 3, under := [] }] } }) <| (pend (.wwr { win := 0x0001000900000000, len := 4, src := [acc 2048 0], lbl := 0 }) 0 (team 1) ([]))
theorem test_window_transfers_5 : ∃ (s : State),
    s.args.m < 24 ∧
    (s.dev.teams.map (·.key)).Nodup := 
  ⟨w_window_transfers_5_s,
   by decide +kernel⟩

def w_wait_ends_0_s : State := let s := st { team 1 with wait := .token 3 0, pc := 0x10000, ops := [] }; s
def w_wait_ends_0_u : State := let s := st { team 1 with wait := .token 3 0, pc := 0x10000, ops := [] }; s
theorem test_wait_ends_0 : ∃ (i : Instr) (s u : State) (x : Dword × Option Scope),
    acting s = some u ∧
    endSpec i u = some x ∧
    stepping u.dev = false := 
  ⟨.waitSatisfied, w_wait_ends_0_s, w_wait_ends_0_u, (0x10004, none),
   by decide +kernel⟩

def w_wait_ends_1_s : State := let s := st { team 1 with wait := .dly 3 4 }; { s with dev := { s.dev with time := 7 } }
def w_wait_ends_1_u : State := let s := st { team 1 with wait := .dly 3 4 }; { s with dev := { s.dev with time := 7 } }
theorem test_wait_ends_1 : ∃ (s u : State) (since n : Nat),
    acting s = some u ∧
    u.dev.cur.wait = .dly since n ∧
    n ≤ elapsed u.dev since := 
  ⟨w_wait_ends_1_s, w_wait_ends_1_u, 3, 4,
   by decide +kernel⟩

def w_pair_exchange_1_s : State := st { team 1 with wait := .pair }
theorem test_pair_exchange_1 : ∃ (s u : State),
    acting s = some u ∧
    u.dev.cur.wait = .pair := 
  ⟨w_pair_exchange_1_s, st { team 1 with wait := .pair },
   by decide +kernel⟩

def w_special_writes_2_s : State := let s := st { team 1 with launch := 1, gp := some ([], []), regs := { (team 1).regs with s := [(4, { val := 77, lbl := 1 })], labels := [(1, 8)] } }; { s with dev := { s.dev with graphs := [(5, { gp := [(1, 2)] }), (7, { gp := [(1, 2)], staged := [{ n := 1, val := 2, org := 3, seq := 4 }] })], launches := [(1, { graph := some 7 })] } }
theorem test_special_writes_2 : ∃ (a n : BitVec 6) (s : State) (g : Nat),
    Plain (.gpwr a n) s ∧
    s.dev.cur.gp ≠ none ∧
    s.dev.graphOf = some g := 
  ⟨4, 63, w_special_writes_2_s, 7,
   ⟨by decide +kernel, by decide +kernel, by decide +kernel, by decide +kernel, by decide +kernel⟩, by decide +kernel⟩

def w_gathered_calls_2_s : State := (fun s : State => { s with fw := { s.fw with parts := [(0, { state := 1, pairs := 3, origins := 0xFFFFFFFF, qbase := 1, qcount := 8, cq := 0x30000 })] } }) <| (pend (.callg 5 7 0x9 false 6) 0 ({ team 1 with saveArea := 0x70000, wait := .call 1 }) (put 0x20000 (packBytes 32 [(0, 8, 0x40000), (8, 8, 16), (16, 4, 1), (24, 4, 1)]) []))
def w_gathered_calls_2_u : State := (fun s : State => { s with fw := { s.fw with parts := [(0, { state := 1, pairs := 3, origins := 0xFFFFFFFF, qbase := 1, qcount := 8, cq := 0x30000 })] } }) <| (pend (.callg 5 7 0x9 false 6) 0 ({ team 1 with saveArea := 0x70000, wait := .call 1 }) (put 0x20000 (packBytes 32 [(0, 8, 0x40000), (8, 8, 16), (16, 4, 1), (24, 4, 1)]) []))
def w_gathered_calls_2_d : Dev := ((callPost w_gathered_calls_2_u.fw w_gathered_calls_2_u.dev ((7 : BitVec 16)) ((0x9 : Mask)) (((6 : Dword)).setWidth 32)).get (by decide +kernel))
theorem test_gathered_calls_2 : ∃ (s u : State) (o : Op) (v : Nat) (serv : BitVec 16) (m : Mask) (w : Dword) (d : Dev),
    Pending s u o ∧
    o.kind = .callg v serv m false w ∧
    callPost u.fw u.dev serv m (w.setWidth 32) = some d := 
  ⟨w_gathered_calls_2_s, w_gathered_calls_2_u, op (.callg 5 7 0x9 false 6), 5, 7, 0x9, 6, w_gathered_calls_2_d,
   pending_of (by decide +kernel), by decide +kernel, got _⟩

def w_gathered_calls_3_s : State := (fun s : State => { s with dev := { s.dev with frames := mupd {} s.dev.frames 2 fun f => { f with cur := 9 } } }) <| (pend (.callg 5 7 0x9 true 6) 0 ({ team 1 with saveArea := 0x30000, wait := .call 1, pc := 0x10004 }) (put 0x21400 [1] (put 0x22000 [9, 8, 7, 6, 5] (put 0x22018 [1] []))))
def w_gathered_calls_3_u : State := (fun s : State => { s with dev := { s.dev with frames := mupd {} s.dev.frames 2 fun f => { f with cur := 9 } } }) <| (pend (.callg 5 7 0x9 true 6) 0 ({ team 1 with saveArea := 0x30000, wait := .call 1, pc := 0x10004 }) (put 0x21400 [1] (put 0x22000 [9, 8, 7, 6, 5] (put 0x22018 [1] []))))
theorem test_gathered_calls_3 : ∃ (s u : State) (o : Op) (v : Nat) (serv : BitVec 16) (m : Mask) (w : Dword),
    Pending s u o ∧
    o.kind = .callg v serv m true w ∧
    o.pins = [] ∧
    u.dev.cur.ops = [o] ∧
    u.dev.cur.wait = .call o.id ∧
    u.dev.cur.saveArea.toNat % 8 = 0 ∧
    let done := u.dev.cur.saveArea + 5120
    fwHome u.fw u.dev u.dev.cur.part done 8 = some (leBytes 8 1) ∧
    (fwWriteBy (u.dev.engine o) u.fw u.dev u.dev.cur.part done (leBytes 8 0) 0).isSome = true ∧
    u.dev.badU = [] ∧
    let rows := (callReplies u.fw u.dev m).map fun r => let x := leNat (rangeHome u.dev r.2 (replyVa u.dev r.1).toNat 8)
      (r.1, rangeCur u.dev r.2, [(v, BitVec.ofNat 32 x), (v + 1, BitVec.ofNat 32 (x / 2 ^ 32))])
    Fits u rows := 
  ⟨w_gathered_calls_3_s, w_gathered_calls_3_u, op (.callg 5 7 0x9 true 6), 5, 7, 0x9, 6,
   pending_of (by decide +kernel), by decide +kernel, by decide +kernel, by decide +kernel, ⟨by decide +kernel, by decide +kernel, by decide +kernel, ⟨by decide +kernel, by decide +kernel, fits_of (by decide +kernel)⟩⟩⟩

def w_stream_stop_0_s : State := st { team 1 with ops := [op (.kudu { kind := .copy, desc := 0x20000, tgt := .mem 0x10000 1 true, h := 0, hw := {}, lbl := 4, stale := false, rd := some { src := 0x30000, dst := 0x40000, bar := 0, len := 16, srch := false, rowarr := false, cnt := [4, 1, 1, 1], ss := [16, 0, 0, 0], ds := [16, 0, 0, 0], org := [], lbl := 0 } }), { op (.kpos 3 0x20000) with id := 2 }], nextOp := 3, regs := { (team 1).regs with s := [(4, { val := 0x20000, lbl := 1 })], labels := [(1, 8)] } }
theorem test_stream_stop_0 : ∃ (q : BitVec 4) (a : BitVec 6) (s : State),
    Plain (.kstop q a) s ∧
    room s q.toNat s.dev.cur.core inKudu 32 = true ∧
    let hit := (s.dev.cur.ops.filter (stopsFor (sval s.dev 1 a.toNat))).map (·.id)
    hit ≠ [] := 
  ⟨3, 4, w_stream_stop_0_s,
   ⟨by decide +kernel, by decide +kernel, by decide +kernel, by decide +kernel, by decide +kernel⟩, by decide +kernel⟩

def w_own_commands_0_s : State := host (entry 0x44 [(16, 1, 3), (24, 8, 196608), (32, 4, 59712)]) (put 0x20000 (packBytes 68 [(0, 4, 6), (4, 8, 3), (12, 4, 1), (16, 1, 1)]) [])
def w_own_commands_0_bs : List Byte := entry 0x44 [(16, 1, 3), (24, 8, 196608), (32, 4, 59712)]
def w_own_commands_0_e : TlbEnt := ((onPage w_own_commands_0_s (queuePart w_own_commands_0_s) fwR (operVa w_own_commands_0_bs 24) (oper w_own_commands_0_bs 32 4)).get (by decide +kernel))
theorem test_own_commands_0 : ∃ (s : State) (bs : List Byte) (e : TlbEnt),
    Taken .policy s bs ∧
    let p := queuePart s
    let n := oper bs 16 1
    let b := memBytes s.dev.mem (e.pa (operVa bs 24)) (oper bs 32 4)
    let set : OSet := BitVec.ofNat 32 (fieldAt b 0 4)
    let os := (List.range 32).filter fun i => set.getLsbD i
    let x : Policy := { set, part := p, valid := true, ctr := (s.fw.part p).lctr + 1, dest := (b.drop 4).take 64 }
    (mget {} s.fw.policy n).valid = false ∧
    (operVa bs 24).toNat % 64 = 0 ∧
    onPage s p fwR (operVa bs 24) (oper bs 32 4) = some e ∧
    s.dev.badU = [] ∧
    s.dev.badCorr = [] ∧
    limAcquired s ∧
    2 ≤ os.length ∧
    oper bs 32 4 = 128 + 29792 * os.length ∧
    set &&& ~~~(s.fw.part p).origins = 0 ∧
    fieldAt b 68 60 = 0 ∧
    destOk x.dest = true := 
  ⟨w_own_commands_0_s, w_own_commands_0_bs, w_own_commands_0_e,
   taken_of (by decide +kernel), by decide +kernel, by decide +kernel, got _, by decide +kernel, by decide +kernel, lim_of (by decide +kernel), by decide +kernel⟩

def w_tap_sessions_0_s : State := let s := st { team 1 with decl := { lanes := 64, group := 32, vregs := 8, scratch := 40000 }, regs := { (team 1).regs with s := [(4, { val := 0x20000, lbl := 1 }), (5, { val := 0x1234 }), (6, { val := 16 + 65536 + 7 * 2 ^ 32 })], labels := [(1, 8)] }, sessions := [{ id := 0 }] }; { s with dev := { s.dev with mem := tapMem ([]) } }
def w_tap_sessions_0_x : TapDesc × List Piece := ((tapAt w_tap_sessions_0_s (sval w_tap_sessions_0_s.dev 1 ((4 : BitVec 6)).toNat) true).get (by decide +kernel))
theorem test_tap_sessions_0 : ∃ (a b c : BitVec 6) (q : BitVec 4) (s : State) (x : TapDesc × List Piece),
    Plain (.tapb a b c q) s ∧
    tapAt s (sval s.dev 1 a.toNat) true = some x ∧
    let sc := sval s.dev 3 c.toNat
    s.dev.cur.paired = false ∧
    scRow sc ≤ 4064 ∧
    32 * scWord sc < s.dev.cur.lanes ∧
    sc.toNat / 4096 % 16 = 0 ∧
    sc.toNat / 2 ^ 20 % 4096 = 0 ∧
    (x.2.all fun p => s.dev.cur.writesDone s.dev.cur.nextOp p.tgt p.len) = true ∧
    s.dev.badU = [] ∧
    s.dev.badCorr = [] ∧
    s.dev.stores < 4 ∧
    room s q.toNat s.dev.cur.core inBelvedere 16 = true ∧
    let turn := s.dev.belTurn { s.dev.cur.self with seq := s.dev.free }
    (turn = true → s.dev.cur.ops = []) := 
  ⟨4, 5, 6, 3, w_tap_sessions_0_s, w_tap_sessions_0_x,
   ⟨by decide +kernel, by decide +kernel, by decide +kernel, by decide +kernel, by decide +kernel⟩, got _, by decide +kernel⟩

def w_tap_sessions_1_s : State := let s := st { team 1 with decl := { lanes := 64, group := 32, vregs := 8, scratch := 40000 }, regs := { (team 1).regs with s := [(4, { val := 0xFFFFF00000000008, lbl := 1 })], labels := [(1, 8)] }, sessions := [{ id := 3, isOpen := false, rows := [(2, {})] }, { id := 4, sc := 65536, desc := desc }] }; { s with dev := { s.dev with mem := tapMem ([]) } }
def w_tap_sessions_1_u : Session := ((w_tap_sessions_1_s.dev.cur.session).get (by decide +kernel))
theorem test_tap_sessions_1 : ∃ (d r : BitVec 4) (a : BitVec 6) (q : BitVec 4) (s : State) (u : Session),
    Plain (.tapr d r a q) s ∧
    s.dev.cur.session = some u ∧
    let sd := sval s.dev 1 a.toNat
    s.dev.cur.paired = false ∧
    room s q.toNat s.dev.cur.core inBelvedere 16 = true ∧
    inScratch sd = true ∧
    sd.toNat - 0xFFFFF00000000000 + 8 + 256 * (u.desc.kk + 64) ≤ s.dev.cur.decl.scratch := 
  ⟨1, 2, 4, 3, w_tap_sessions_1_s, w_tap_sessions_1_u,
   ⟨by decide +kernel, by decide +kernel, by decide +kernel, by decide +kernel, by decide +kernel⟩, got _, by decide +kernel⟩

def w_tap_rows_0_s : State := let s := st { team 1 with decl := { lanes := 64, group := 32, vregs := 8, scratch := 40000 }, regs := { (team 1).regs with s := [(4, { val := 0x20000, lbl := 1 }), (5, { val := 0x1234 }), (6, { val := 0 })] ++ [(7, { val := 3 })], labels := [(1, 8)] }, sessions := [] }; { s with dev := { s.dev with mem := tapMem (put (0x20800 + 128 * 3) (leBytes 8 (77 + 1 * 2 ^ 20 + 9 * 2 ^ 14 + 2 * 2 ^ 24 + 7 * 2 ^ 28 + 5 * 2 ^ 40)) (put 0x20400 [1, 2, 3, 4, 5, 6] [])) } }
def w_tap_rows_0_x : TapDesc := ((tapAt w_tap_rows_0_s (sval w_tap_rows_0_s.dev 1 ((4 : BitVec 6)).toNat) false).get (by decide +kernel)).1
def w_tap_rows_0_ps : List Piece := ((tapAt w_tap_rows_0_s (sval w_tap_rows_0_s.dev 1 ((4 : BitVec 6)).toNat) false).get (by decide +kernel)).2
def w_tap_rows_0_rs : List Piece := (exGetP (tapPages w_tap_rows_0_s.fw [(BitVec.ofNat 64 (rowAt w_tap_rows_0_x ((sval w_tap_rows_0_s.dev 2 ((7 : BitVec 6)).toNat).toNat)), 8, belRW), (BitVec.ofNat 64 (holdAt w_tap_rows_0_x ((sval w_tap_rows_0_s.dev 2 ((7 : BitVec 6)).toNat).toNat)), 4, belRW)] (tapPages w_tap_rows_0_s.fw [(sval w_tap_rows_0_s.dev 1 ((4 : BitVec 6)).toNat, 128, { belR with cls := .plain })] w_tap_rows_0_s.dev).2) (by decide +kernel)).1
def w_tap_rows_0_d : Dev := (exGetP (tapPages w_tap_rows_0_s.fw [(BitVec.ofNat 64 (rowAt w_tap_rows_0_x ((sval w_tap_rows_0_s.dev 2 ((7 : BitVec 6)).toNat).toNat)), 8, belRW), (BitVec.ofNat 64 (holdAt w_tap_rows_0_x ((sval w_tap_rows_0_s.dev 2 ((7 : BitVec 6)).toNat).toNat)), 4, belRW)] (tapPages w_tap_rows_0_s.fw [(sval w_tap_rows_0_s.dev 1 ((4 : BitVec 6)).toNat, 128, { belR with cls := .plain })] w_tap_rows_0_s.dev).2) (by decide +kernel)).2
theorem test_tap_rows_0 : ∃ (a b : BitVec 6) (s : State) (x : TapDesc) (ps rs : List Piece) (d : Dev),
    Plain (.tapl a b) s ∧
    tapAt s (sval s.dev 1 a.toNat) false = some (x, ps) ∧
    let row := (sval s.dev 2 b.toNat).toNat
    let pa := (placeOf rs (rowAt x row)).1
    let ha := (placeOf rs (holdAt x row)).1
    let m := memNat s.dev.mem pa 8
    row ≤ 4095 ∧
    tapPages s.fw [(BitVec.ofNat 64 (rowAt x row), 8, belRW), (BitVec.ofNat 64 (holdAt x row), 4, belRW)]
      (tapPages s.fw [(sval s.dev 1 a.toNat, 128, { belR with cls := .plain })] s.dev).2 = (.ok rs, d) ∧
    (ps.all fun p => s.dev.cur.writesDone s.dev.cur.nextOp p.tgt p.len) = true ∧
    s.dev.cur.released = true ∧
    s.dev.badU = [] ∧
    s.dev.badCorr = [] ∧
    rmState m = 1 ∧
    (pa + 8 ≤ ha ∨ ha + 4 ≤ pa) := 
  ⟨4, 7, w_tap_rows_0_s, w_tap_rows_0_x, w_tap_rows_0_ps, w_tap_rows_0_rs, w_tap_rows_0_d,
   ⟨by decide +kernel, by decide +kernel, by decide +kernel, by decide +kernel, by decide +kernel⟩, gotP _, by decide +kernel, exGotP _, by decide +kernel⟩

def w_tap_rows_1_s : State := let s := st { team 1 with decl := { lanes := 64, group := 32, vregs := 8, scratch := 40000 }, regs := { (team 1).regs with s := [(4, { val := 0x20000, lbl := 1 }), (5, { val := 0x1234 }), (6, { val := 0 })] ++ [(7, { val := 3 })], labels := [(1, 8)] }, sessions := [] }; { s with dev := { s.dev with mem := tapMem (put (0x20800 + 128 * 3) (leBytes 8 (77 + 1 * 2 ^ 20 + 9 * 2 ^ 14 + 2 * 2 ^ 24 + 7 * 2 ^ 28 + 5 * 2 ^ 40)) (put 0x20400 [1, 2, 3, 4, 5, 6] [])) } }
def w_tap_rows_1_x : TapDesc := ((tapAt w_tap_rows_1_s (sval w_tap_rows_1_s.dev 1 ((4 : BitVec 6)).toNat) false).get (by decide +kernel)).1
def w_tap_rows_1_ps : List Piece := ((tapAt w_tap_rows_1_s (sval w_tap_rows_1_s.dev 1 ((4 : BitVec 6)).toNat) false).get (by decide +kernel)).2
def w_tap_rows_1_rs : List Piece := (exGetP (tapPages w_tap_rows_1_s.fw [(BitVec.ofNat 64 (rowAt w_tap_rows_1_x ((sval w_tap_rows_1_s.dev 2 ((7 : BitVec 6)).toNat).toNat)), 8, belR)] (tapPages w_tap_rows_1_s.fw [(sval w_tap_rows_1_s.dev 1 ((4 : BitVec 6)).toNat, 128, { belR with cls := .plain })] w_tap_rows_1_s.dev).2) (by decide +kernel)).1
def w_tap_rows_1_d : Dev := (exGetP (tapPages w_tap_rows_1_s.fw [(BitVec.ofNat 64 (rowAt w_tap_rows_1_x ((sval w_tap_rows_1_s.dev 2 ((7 : BitVec 6)).toNat).toNat)), 8, belR)] (tapPages w_tap_rows_1_s.fw [(sval w_tap_rows_1_s.dev 1 ((4 : BitVec 6)).toNat, 128, { belR with cls := .plain })] w_tap_rows_1_s.dev).2) (by decide +kernel)).2
theorem test_tap_rows_1 : ∃ (e a b : BitVec 6) (s : State) (x : TapDesc) (ps rs : List Piece) (d : Dev),
    Plain (.taph e a b) s ∧
    tapAt s (sval s.dev 1 a.toNat) false = some (x, ps) ∧
    let row := (sval s.dev 2 b.toNat).toNat
    let set := (s.dev.frame (placeOf rs (rowAt x row)).2).cur ||| sorg s.dev 1 a.toNat ||| sorg s.dev 2 b.toNat
    row ≤ 4095 ∧
    tapPages s.fw [(BitVec.ofNat 64 (rowAt x row), 8, belR)]
      (tapPages s.fw [(sval s.dev 1 a.toNat, 128, { belR with cls := .plain })] s.dev).2 = (.ok rs, d) ∧
    ((ps ++ rs).all fun p => s.dev.cur.writesDone s.dev.cur.nextOp p.tgt p.len) = true ∧
    s.dev.badU = [] ∧
    s.dev.badCorr = [] ∧
    (e.toNat = 63 ∨ (allocLabel s.dev.cur.regs.labels set).isSome) := 
  ⟨9, 4, 7, w_tap_rows_1_s, w_tap_rows_1_x, w_tap_rows_1_ps, w_tap_rows_1_rs, w_tap_rows_1_d,
   ⟨by decide +kernel, by decide +kernel, by decide +kernel, by decide +kernel, by decide +kernel⟩, gotP _, by decide +kernel, exGotP _, by decide +kernel⟩

def w_tap_rows_0_2_s : State := let s := st { team 1 with decl := { lanes := 64, group := 32, vregs := 8, scratch := 40000 }, regs := { (team 1).regs with s := [(4, { val := 0x20000, lbl := 1 }), (5, { val := 0x1234 }), (6, { val := 0 })] ++ [(7, { val := 33 })], labels := [(1, 8)] }, sessions := [] }; { s with dev := { s.dev with mem := tapMem (put (0x20800 + 128 * 33) (leBytes 8 (77 + 1 * 2 ^ 20 + 9 * 2 ^ 14 + 2 * 2 ^ 24 + 7 * 2 ^ 28 + 5 * 2 ^ 40)) (put 0x20400 [1, 2, 3, 4, 5, 6] [])) } }
def w_tap_rows_0_2_x : TapDesc := ((tapAt w_tap_rows_0_2_s (sval w_tap_rows_0_2_s.dev 1 ((4 : BitVec 6)).toNat) false).get (by decide +kernel)).1
def w_tap_rows_0_2_ps : List Piece := ((tapAt w_tap_rows_0_2_s (sval w_tap_rows_0_2_s.dev 1 ((4 : BitVec 6)).toNat) false).get (by decide +kernel)).2
def w_tap_rows_0_2_rs : List Piece := (exGetP (tapPages w_tap_rows_0_2_s.fw [(BitVec.ofNat 64 (rowAt w_tap_rows_0_2_x ((sval w_tap_rows_0_2_s.dev 2 ((7 : BitVec 6)).toNat).toNat)), 8, belRW), (BitVec.ofNat 64 (holdAt w_tap_rows_0_2_x ((sval w_tap_rows_0_2_s.dev 2 ((7 : BitVec 6)).toNat).toNat)), 4, belRW)] (tapPages w_tap_rows_0_2_s.fw [(sval w_tap_rows_0_2_s.dev 1 ((4 : BitVec 6)).toNat, 128, { belR with cls := .plain })] w_tap_rows_0_2_s.dev).2) (by decide +kernel)).1
def w_tap_rows_0_2_d : Dev := (exGetP (tapPages w_tap_rows_0_2_s.fw [(BitVec.ofNat 64 (rowAt w_tap_rows_0_2_x ((sval w_tap_rows_0_2_s.dev 2 ((7 : BitVec 6)).toNat).toNat)), 8, belRW), (BitVec.ofNat 64 (holdAt w_tap_rows_0_2_x ((sval w_tap_rows_0_2_s.dev 2 ((7 : BitVec 6)).toNat).toNat)), 4, belRW)] (tapPages w_tap_rows_0_2_s.fw [(sval w_tap_rows_0_2_s.dev 1 ((4 : BitVec 6)).toNat, 128, { belR with cls := .plain })] w_tap_rows_0_2_s.dev).2) (by decide +kernel)).2
theorem test_tap_rows_0_2 : ∃ (a b : BitVec 6) (s : State) (x : TapDesc) (ps rs : List Piece) (d : Dev),
    Plain (.tapl a b) s ∧
    tapAt s (sval s.dev 1 a.toNat) false = some (x, ps) ∧
    let row := (sval s.dev 2 b.toNat).toNat
    let pa := (placeOf rs (rowAt x row)).1
    let ha := (placeOf rs (holdAt x row)).1
    let m := memNat s.dev.mem pa 8
    row ≤ 4095 ∧
    tapPages s.fw [(BitVec.ofNat 64 (rowAt x row), 8, belRW), (BitVec.ofNat 64 (holdAt x row), 4, belRW)]
      (tapPages s.fw [(sval s.dev 1 a.toNat, 128, { belR with cls := .plain })] s.dev).2 = (.ok rs, d) ∧
    (ps.all fun p => s.dev.cur.writesDone s.dev.cur.nextOp p.tgt p.len) = true ∧
    s.dev.cur.released = true ∧
    s.dev.badU = [] ∧
    s.dev.badCorr = [] ∧
    rmState m = 1 ∧
    (pa + 8 ≤ ha ∨ ha + 4 ≤ pa) := 
  ⟨4, 7, w_tap_rows_0_2_s, w_tap_rows_0_2_x, w_tap_rows_0_2_ps, w_tap_rows_0_2_rs, w_tap_rows_0_2_d,
   ⟨by decide +kernel, by decide +kernel, by decide +kernel, by decide +kernel, by decide +kernel⟩, gotP _, by decide +kernel, exGotP _, by decide +kernel⟩

def w_tap_rows_1_2_s : State := let s := st { team 1 with decl := { lanes := 64, group := 32, vregs := 8, scratch := 40000 }, regs := { (team 1).regs with s := [(4, { val := 0x20000, lbl := 1 }), (5, { val := 0x1234 }), (6, { val := 0 })] ++ [(7, { val := 33 })], labels := [(1, 8)] }, sessions := [] }; { s with dev := { s.dev with mem := tapMem (put (0x20800 + 128 * 33) (leBytes 8 (77 + 1 * 2 ^ 20 + 9 * 2 ^ 14 + 2 * 2 ^ 24 + 7 * 2 ^ 28 + 5 * 2 ^ 40)) (put 0x20400 [1, 2, 3, 4, 5, 6] [])) } }
def w_tap_rows_1_2_x : TapDesc := ((tapAt w_tap_rows_1_2_s (sval w_tap_rows_1_2_s.dev 1 ((4 : BitVec 6)).toNat) false).get (by decide +kernel)).1
def w_tap_rows_1_2_ps : List Piece := ((tapAt w_tap_rows_1_2_s (sval w_tap_rows_1_2_s.dev 1 ((4 : BitVec 6)).toNat) false).get (by decide +kernel)).2
def w_tap_rows_1_2_rs : List Piece := (exGetP (tapPages w_tap_rows_1_2_s.fw [(BitVec.ofNat 64 (rowAt w_tap_rows_1_2_x ((sval w_tap_rows_1_2_s.dev 2 ((7 : BitVec 6)).toNat).toNat)), 8, belR)] (tapPages w_tap_rows_1_2_s.fw [(sval w_tap_rows_1_2_s.dev 1 ((4 : BitVec 6)).toNat, 128, { belR with cls := .plain })] w_tap_rows_1_2_s.dev).2) (by decide +kernel)).1
def w_tap_rows_1_2_d : Dev := (exGetP (tapPages w_tap_rows_1_2_s.fw [(BitVec.ofNat 64 (rowAt w_tap_rows_1_2_x ((sval w_tap_rows_1_2_s.dev 2 ((7 : BitVec 6)).toNat).toNat)), 8, belR)] (tapPages w_tap_rows_1_2_s.fw [(sval w_tap_rows_1_2_s.dev 1 ((4 : BitVec 6)).toNat, 128, { belR with cls := .plain })] w_tap_rows_1_2_s.dev).2) (by decide +kernel)).2
theorem test_tap_rows_1_2 : ∃ (e a b : BitVec 6) (s : State) (x : TapDesc) (ps rs : List Piece) (d : Dev),
    Plain (.taph e a b) s ∧
    tapAt s (sval s.dev 1 a.toNat) false = some (x, ps) ∧
    let row := (sval s.dev 2 b.toNat).toNat
    let set := (s.dev.frame (placeOf rs (rowAt x row)).2).cur ||| sorg s.dev 1 a.toNat ||| sorg s.dev 2 b.toNat
    row ≤ 4095 ∧
    tapPages s.fw [(BitVec.ofNat 64 (rowAt x row), 8, belR)]
      (tapPages s.fw [(sval s.dev 1 a.toNat, 128, { belR with cls := .plain })] s.dev).2 = (.ok rs, d) ∧
    ((ps ++ rs).all fun p => s.dev.cur.writesDone s.dev.cur.nextOp p.tgt p.len) = true ∧
    s.dev.badU = [] ∧
    s.dev.badCorr = [] ∧
    (e.toNat = 63 ∨ (allocLabel s.dev.cur.regs.labels set).isSome) := 
  ⟨9, 4, 7, w_tap_rows_1_2_s, w_tap_rows_1_2_x, w_tap_rows_1_2_ps, w_tap_rows_1_2_rs, w_tap_rows_1_2_d,
   ⟨by decide +kernel, by decide +kernel, by decide +kernel, by decide +kernel, by decide +kernel⟩, gotP _, by decide +kernel, exGotP _, by decide +kernel⟩

def w_merge_tiles_0_s : State := pend (.ami 0x80000 8 0x90000 (5) 6 0) 0 (team 1) ([])
def w_merge_tiles_0_u : State := pend (.ami 0x80000 8 0x90000 (5) 6 0) 0 (team 1) ([])
theorem test_merge_tiles_0 : ∃ (s u : State) (o : Op) (pa e : Nat) (va : Dword) (x : Int) (set : OSet) (half : Nat),
    Pending s u o ∧
    o.kind = .ami pa e va x set half ∧
    (u.dev.core (u.dev.cur.core + half)).off = false ∧
    matrixTurn u.dev o = true := 
  ⟨w_merge_tiles_0_s, w_merge_tiles_0_u, op (.ami 0x80000 8 0x90000 (5) 6 0), 0x80000, 8, 0x90000, 5, 6, 0,
   pending_of (by decide +kernel), by decide +kernel⟩

def w_merge_tiles_0_2_s : State := pend (.ami 0x80000 8 0x90000 (-1024) 6 0) 0 (team 1) ([])
def w_merge_tiles_0_2_u : State := pend (.ami 0x80000 8 0x90000 (-1024) 6 0) 0 (team 1) ([])
theorem test_merge_tiles_0_2 : ∃ (s u : State) (o : Op) (pa e : Nat) (va : Dword) (x : Int) (set : OSet) (half : Nat),
    Pending s u o ∧
    o.kind = .ami pa e va x set half ∧
    (u.dev.core (u.dev.cur.core + half)).off = false ∧
    matrixTurn u.dev o = true := 
  ⟨w_merge_tiles_0_2_s, w_merge_tiles_0_2_u, op (.ami 0x80000 8 0x90000 (-1024) 6 0), 0x80000, 8, 0x90000, -1024, 6, 0,
   pending_of (by decide +kernel), by decide +kernel⟩

def w_merge_tiles_1_s : State := pend (.amrg 0x80000 8 0x90000 2 0 6) 0 ({ team 1 with regs := { (team 1).regs with labels := [(1, 8), (2, 1), (3, 4)], tiles := [(2, { ent := [(3, 77), (100, -5)], sat := [(4, true)], xmax := some 3, lbl := [(0, 1), (5, 2)] }), (3, { ent := [(3, 7777777), (100, -5000000)], xmax := some 1, lbl := [(0, 3)] }), (5, { ent := [(1, 2)] })] } }) (put (0x80000 + 6208) (leBytes 2 5 ++ [1]) [])
def w_merge_tiles_1_u : State := pend (.amrg 0x80000 8 0x90000 2 0 6) 0 ({ team 1 with regs := { (team 1).regs with labels := [(1, 8), (2, 1), (3, 4)], tiles := [(2, { ent := [(3, 77), (100, -5)], sat := [(4, true)], xmax := some 3, lbl := [(0, 1), (5, 2)] }), (3, { ent := [(3, 7777777), (100, -5000000)], xmax := some 1, lbl := [(0, 3)] }), (5, { ent := [(1, 2)] })] } }) (put (0x80000 + 6208) (leBytes 2 5 ++ [1]) [])
theorem test_merge_tiles_1 : ∃ (s u : State) (o : Op) (pa e : Nat) (va : Dword) (n half : Nat) (set : OSet),
    Pending s u o ∧
    o.kind = .amrg pa e va n half set ∧
    (u.dev.core (u.dev.cur.core + half)).off = false ∧
    matrixTurn u.dev o = true ∧
    u.dev.cur.badT = [] ∧
    u.dev.badU = [] ∧
    u.dev.badCorr = [] := 
  ⟨w_merge_tiles_1_s, w_merge_tiles_1_u, op (.amrg 0x80000 8 0x90000 2 0 6), 0x80000, 8, 0x90000, 2, 0, 6,
   pending_of (by decide +kernel), by decide +kernel⟩

def w_merge_tiles_1_2_s : State := pend (.amrg 0x80000 8 0x90000 2 0 6) 0 ({ team 1 with regs := { (team 1).regs with labels := [(1, 8), (2, 1), (3, 4)], tiles := [(2, { ent := [(3, 77), (100, -5)], sat := [(4, true)], xmax := some 3, lbl := [(0, 1), (5, 2)] }), (3, { ent := [(3, 7777777), (100, -5000000)], xmax := some 1, lbl := [(0, 3)] }), (5, { ent := [(1, 2)] })] } }) ([])
def w_merge_tiles_1_2_u : State := pend (.amrg 0x80000 8 0x90000 2 0 6) 0 ({ team 1 with regs := { (team 1).regs with labels := [(1, 8), (2, 1), (3, 4)], tiles := [(2, { ent := [(3, 77), (100, -5)], sat := [(4, true)], xmax := some 3, lbl := [(0, 1), (5, 2)] }), (3, { ent := [(3, 7777777), (100, -5000000)], xmax := some 1, lbl := [(0, 3)] }), (5, { ent := [(1, 2)] })] } }) ([])
theorem test_merge_tiles_1_2 : ∃ (s u : State) (o : Op) (pa e : Nat) (va : Dword) (n half : Nat) (set : OSet),
    Pending s u o ∧
    o.kind = .amrg pa e va n half set ∧
    (u.dev.core (u.dev.cur.core + half)).off = false ∧
    matrixTurn u.dev o = true ∧
    u.dev.cur.badT = [] ∧
    u.dev.badU = [] ∧
    u.dev.badCorr = [] := 
  ⟨w_merge_tiles_1_2_s, w_merge_tiles_1_2_u, op (.amrg 0x80000 8 0x90000 2 0 6), 0x80000, 8, 0x90000, 2, 0, 6,
   pending_of (by decide +kernel), by decide +kernel⟩

def w_mma_performed_0_s : State := pend (.mma 0 2 0 16 0 0 5 []) 0 (mmaTeam { ent := [(3, 77), (100, -5)], sat := [(4, true)], xmax := some 3, lbl := [(0, 1), (5, 2)] }) ([])
def w_mma_performed_0_u : State := pend (.mma 0 2 0 16 0 0 5 []) 0 (mmaTeam { ent := [(3, 77), (100, -5)], sat := [(4, true)], xmax := some 3, lbl := [(0, 1), (5, 2)] }) ([])
theorem test_mma_performed_0 : ∃ (s u : State) (o : Op) (var n va vb half w : Nat) (rows : BitVec 32),
    Pending s u o ∧
    o.kind = .mma var n va vb half w rows [] ∧
    o.dirty = false ∧
    o.pins = [] ∧
    EngineOk u o half ∧
    u.dev.cur.badV = [] ∧
    let base := if var = 1 then {} else u.dev.cur.regs.tile half n
    let A := mmaA u va w
    let B := mmaB u vb w
    let set := fun (r : Nat) => u.dev.cur.rowSet base r ||| laneSet u va 16 (32 * w + r) ||| mmaBSet u vb w
    mwf 0 base.ent = true ∧
    mwf false base.sat = true ∧
    (∀ p ∈ base.sat, p.1 < 512) ∧
    mmaCheck ((activeRows rows).map A ++ (List.range 16).map B) = none ∧
    (allocLanes u.dev.cur.regs.labels ((activeRows rows).map fun r => (r, set r))).2.2.1 = [] := 
  ⟨w_mma_performed_0_s, w_mma_performed_0_u, op (.mma 0 2 0 16 0 0 5 []), 0, 2, 0, 16, 0, 0, 5,
   pending_of (by decide +kernel), by decide +kernel, by decide +kernel, by decide +kernel, ⟨by decide +kernel, by decide +kernel, by decide +kernel⟩, by decide +kernel⟩

def w_tiles_cleared_and_converted_0_s : State := pend (.acc (.clr) 2 0 0 0) 0 (mmaTeam { ent := [(3, 77), (100, -5)], sat := [(4, true)], xmax := some 3, lbl := [(0, 1), (5, 2)] }) ([])
def w_tiles_cleared_and_converted_0_u : State := pend (.acc (.clr) 2 0 0 0) 0 (mmaTeam { ent := [(3, 77), (100, -5)], sat := [(4, true)], xmax := some 3, lbl := [(0, 1), (5, 2)] }) ([])
theorem test_tiles_cleared_and_converted_0 : ∃ (s u : State) (o : Op) (k : AccOp) (n half w : Nat) (rows : BitVec 32),
    Pending s u o ∧
    o.kind = .acc k n half w rows ∧
    EngineOk u o half ∧
    k = .clr ∧
    o.pins = [] := 
  ⟨w_tiles_cleared_and_converted_0_s, w_tiles_cleared_and_converted_0_u, op (.acc (.clr) 2 0 0 0), .clr, 2, 0, 0, 0,
   pending_of (by decide +kernel), by decide +kernel, ⟨by decide +kernel, by decide +kernel, by decide +kernel⟩, by decide +kernel⟩

def w_tiles_cleared_and_converted_1_s : State := pend (.acc (.cvt 4 true) 2 0 0 5) 0 (mmaTeam { ent := [(3, 77), (100, -5)], sat := [(4, true)], xmax := some 3, lbl := [(0, 1), (5, 2)] }) ([])
def w_tiles_cleared_and_converted_1_u : State := pend (.acc (.cvt 4 true) 2 0 0 5) 0 (mmaTeam { ent := [(3, 77), (100, -5)], sat := [(4, true)], xmax := some 3, lbl := [(0, 1), (5, 2)] }) ([])
theorem test_tiles_cleared_and_converted_1 : ∃ (s u : State) (o : Op) (k : AccOp) (n half w : Nat) (rows : BitVec 32) (v : Nat) (bf : Bool),
    Pending s u o ∧
    o.kind = .acc k n half w rows ∧
    EngineOk u o half ∧
    let x := u.dev.cur.regs.tile half n
    k = .cvt v bf ∧
    o.pins = [] ∧
    let out := fun (r : Nat) => if bf then (List.range 8).map fun j => (v + j, BitVec.ofNat 32 (x.cvt 8 r (2 * j) + 2 ^ 16 * x.cvt 8 r (2 * j + 1)))
        else (List.range 16).map fun c => (v + c, BitVec.ofNat 32 (x.cvt 24 r c))
    let ys := (activeRows rows).map fun r => (32 * w + r, u.dev.cur.rowSet x r, out r)
    Fits u ys := 
  ⟨w_tiles_cleared_and_converted_1_s, w_tiles_cleared_and_converted_1_u, op (.acc (.cvt 4 true) 2 0 0 5), .cvt 4 true, 2, 0, 0, 5, 4, true,
   pending_of (by decide +kernel), by decide +kernel, ⟨by decide +kernel, by decide +kernel, by decide +kernel⟩, by decide +kernel, by decide +kernel, fits_of (by decide +kernel)⟩

def w_tiles_cleared_and_converted_1_2_s : State := pend (.acc (.cvt 4 false) 2 0 0 0x80000000) 0 (mmaTeam { ent := [(3, 77), (100, -5)], sat := [(4, true)], xmax := some 3, lbl := [(0, 1), (5, 2)] }) ([])
def w_tiles_cleared_and_converted_1_2_u : State := pend (.acc (.cvt 4 false) 2 0 0 0x80000000) 0 (mmaTeam { ent := [(3, 77), (100, -5)], sat := [(4, true)], xmax := some 3, lbl := [(0, 1), (5, 2)] }) ([])
def w_tiles_cleared_and_converted_1_2_o : Op := op (.acc (.cvt 4 false) 2 0 0 0x80000000)
theorem test_tiles_cleared_and_converted_1_2 : ∃ (s u : State) (o : Op) (k : AccOp) (n half w : Nat) (rows : BitVec 32) (v : Nat) (bf : Bool),
    Pending s u o ∧
    o.kind = .acc k n half w rows ∧
    EngineOk u o half ∧
    let x := u.dev.cur.regs.tile half n
    k = .cvt v bf ∧
    o.pins = [] ∧
    let out := fun (r : Nat) => if bf then (List.range 8).map fun j => (v + j, BitVec.ofNat 32 (x.cvt 8 r (2 * j) + 2 ^ 16 * x.cvt 8 r (2 * j + 1)))
        else (List.range 16).map fun c => (v + c, BitVec.ofNat 32 (x.cvt 24 r c))
    let ys := (activeRows rows).map fun r => (32 * w + r, u.dev.cur.rowSet x r, out r)
    Fits u ys := 
  ⟨w_tiles_cleared_and_converted_1_2_s, w_tiles_cleared_and_converted_1_2_u, w_tiles_cleared_and_converted_1_2_o, .cvt 4 false, 2, 0, 0, 0x80000000, 4, false,
   pending_of (by decide +kernel), by decide +kernel, ⟨by decide +kernel, by decide +kernel, by decide +kernel⟩, by decide +kernel, by decide +kernel, fits_of (by decide +kernel)⟩

def w_accumulators_performed_0_s : State := pend (.acc (.blk 4 .e2m1) 2 0 0 5) 0 (mmaTeam { ent := [(3, 77), (100, -5)], sat := [(4, true)], xmax := some 3, lbl := [(0, 1), (5, 2)] }) ([])
def w_accumulators_performed_0_u : State := pend (.acc (.blk 4 .e2m1) 2 0 0 5) 0 (mmaTeam { ent := [(3, 77), (100, -5)], sat := [(4, true)], xmax := some 3, lbl := [(0, 1), (5, 2)] }) ([])
theorem test_accumulators_performed_0 : ∃ (s u : State) (o : Op) (k : AccOp) (n half w : Nat) (rows : BitVec 32) (v : Nat) (f : Fmt),
    Pending s u o ∧
    o.kind = .acc k n half w rows ∧
    EngineOk u o half ∧
    k = .blk v f ∧
    o.pins = [] ∧
    let ts := (List.range f.tiles).map fun i => u.dev.cur.regs.tile half (n + i)
    let ys := (activeRows rows).map fun r => (32 * w + r, ts.foldl (fun a y => a ||| u.dev.cur.rowSet y r) 0, blockRegs v (abqBlock ts f.code r))
    Fits u ys := 
  ⟨w_accumulators_performed_0_s, w_accumulators_performed_0_u, op (.acc (.blk 4 .e2m1) 2 0 0 5), .blk 4 .e2m1, 2, 0, 0, 5, 4, .e2m1,
   pending_of (by decide +kernel), by decide +kernel, ⟨by decide +kernel, by decide +kernel, by decide +kernel⟩, by decide +kernel, by decide +kernel, fits_of (by decide +kernel)⟩

def w_accumulators_performed_0_2_s : State := pend (.acc (.blk 4 .i8) 2 0 0 0) 0 (mmaTeam { ent := [(3, 77), (100, -5)], sat := [(4, true)], xmax := some 3, lbl := [(0, 1), (5, 2)] }) ([])
def w_accumulators_performed_0_2_u : State := pend (.acc (.blk 4 .i8) 2 0 0 0) 0 (mmaTeam { ent := [(3, 77), (100, -5)], sat := [(4, true)], xmax := some 3, lbl := [(0, 1), (5, 2)] }) ([])
theorem test_accumulators_performed_0_2 : ∃ (s u : State) (o : Op) (k : AccOp) (n half w : Nat) (rows : BitVec 32) (v : Nat) (f : Fmt),
    Pending s u o ∧
    o.kind = .acc k n half w rows ∧
    EngineOk u o half ∧
    k = .blk v f ∧
    o.pins = [] ∧
    let ts := (List.range f.tiles).map fun i => u.dev.cur.regs.tile half (n + i)
    let ys := (activeRows rows).map fun r => (32 * w + r, ts.foldl (fun a y => a ||| u.dev.cur.rowSet y r) 0, blockRegs v (abqBlock ts f.code r))
    Fits u ys := 
  ⟨w_accumulators_performed_0_2_s, w_accumulators_performed_0_2_u, op (.acc (.blk 4 .i8) 2 0 0 0), .blk 4 .i8, 2, 0, 0, 0, 4, .i8,
   pending_of (by decide +kernel), by decide +kernel, ⟨by decide +kernel, by decide +kernel, by decide +kernel⟩, by decide +kernel, by decide +kernel, fits_of (by decide +kernel)⟩

def w_accumulators_performed_1_s : State := pend (.acc (.exp 9) 2 0 0 0) 0 (mmaTeam { ent := [(3, 77), (100, -5)], sat := [(4, true)], xmax := some 3, lbl := [(0, 1), (5, 2)] }) ([])
def w_accumulators_performed_1_u : State := pend (.acc (.exp 9) 2 0 0 0) 0 (mmaTeam { ent := [(3, 77), (100, -5)], sat := [(4, true)], xmax := some 3, lbl := [(0, 1), (5, 2)] }) ([])
theorem test_accumulators_performed_1 : ∃ (s u : State) (o : Op) (k : AccOp) (n half w : Nat) (rows : BitVec 32) (d : _),
    Pending s u o ∧
    o.kind = .acc k n half w rows ∧
    EngineOk u o half ∧
    let x := u.dev.cur.regs.tile half n
    k = .exp d ∧
    o.pins = [] ∧
    (d = 63 ∨ (allocLabel u.dev.cur.regs.labels (u.dev.cur.tileSet x)).isSome) := 
  ⟨w_accumulators_performed_1_s, w_accumulators_performed_1_u, op (.acc (.exp 9) 2 0 0 0), .exp 9, 2, 0, 0, 0, 9,
   pending_of (by decide +kernel), by decide +kernel, ⟨by decide +kernel, by decide +kernel, by decide +kernel⟩, by decide +kernel⟩

def w_accumulators_performed_1_2_s : State := pend (.acc (.exp 63) 2 0 0 0) 0 (mmaTeam {}) ([])
def w_accumulators_performed_1_2_u : State := pend (.acc (.exp 63) 2 0 0 0) 0 (mmaTeam {}) ([])
theorem test_accumulators_performed_1_2 : ∃ (s u : State) (o : Op) (k : AccOp) (n half w : Nat) (rows : BitVec 32) (d : _),
    Pending s u o ∧
    o.kind = .acc k n half w rows ∧
    EngineOk u o half ∧
    let x := u.dev.cur.regs.tile half n
    k = .exp d ∧
    o.pins = [] ∧
    (d = 63 ∨ (allocLabel u.dev.cur.regs.labels (u.dev.cur.tileSet x)).isSome) := 
  ⟨w_accumulators_performed_1_2_s, w_accumulators_performed_1_2_u, op (.acc (.exp 63) 2 0 0 0), .exp 63, 2, 0, 0, 0, 63,
   pending_of (by decide +kernel), by decide +kernel, ⟨by decide +kernel, by decide +kernel, by decide +kernel⟩, by decide +kernel⟩

def w_accumulators_performed_2_s : State := pend (.acc (.st [{ acc 2048 0 with len := 4224 }]) 2 0 0 0) 0 (mmaTeam { ent := [(3, 77), (100, -5)], sat := [(4, true)], xmax := some 3, lbl := [(0, 1), (5, 2)] }) ([])
def w_accumulators_performed_2_u : State := pend (.acc (.st [{ acc 2048 0 with len := 4224 }]) 2 0 0 0) 0 (mmaTeam { ent := [(3, 77), (100, -5)], sat := [(4, true)], xmax := some 3, lbl := [(0, 1), (5, 2)] }) ([])
def w_accumulators_performed_2_o : Op := op (.acc (.st [{ acc 2048 0 with len := 4224 }]) 2 0 0 0)
theorem test_accumulators_performed_2 : ∃ (s u : State) (o : Op) (k : AccOp) (n half w : Nat) (rows : BitVec 32) (a : Acc) (pa e : Nat) (c : Bool),
    Pending s u o ∧
    o.kind = .acc k n half w rows ∧
    EngineOk u o half ∧
    let x := u.dev.cur.regs.tile half n
    k = .st [a] ∧
    a.tgt = .mem pa e c ∧
    a.len = 4224 ∧
    u.dev.cur.writesDone o.id a.tgt a.len = true ∧
    paIsHost pa = false ∧
    u.dev.badU = [] ∧
    let set := u.dev.cur.tileSet x ||| a.albl
    set &&& ~~~(u.dev.frame e).ceil = 0 := 
  ⟨w_accumulators_performed_2_s, w_accumulators_performed_2_u, w_accumulators_performed_2_o, .st [{ acc 2048 0 with len := 4224 }], 2, 0, 0, 0, { acc 2048 0 with len := 4224 }, 0x10000, 1, true,
   pending_of (by decide +kernel), by decide +kernel, ⟨by decide +kernel, by decide +kernel, by decide +kernel⟩, by decide +kernel⟩

def w_accumulators_performed_3_s : State := pend (.acc (.ld [{ acc 2048 0 with len := 4224 }]) 2 0 0 0) 0 (mmaTeam { ent := [(3, 77), (100, -5)], sat := [(4, true)], xmax := some 3, lbl := [(0, 1), (5, 2)] }) ([(0x10000, 77)])
def w_accumulators_performed_3_u : State := pend (.acc (.ld [{ acc 2048 0 with len := 4224 }]) 2 0 0 0) 0 (mmaTeam { ent := [(3, 77), (100, -5)], sat := [(4, true)], xmax := some 3, lbl := [(0, 1), (5, 2)] }) ([(0x10000, 77)])
def w_accumulators_performed_3_o : Op := op (.acc (.ld [{ acc 2048 0 with len := 4224 }]) 2 0 0 0)
def w_accumulators_performed_3_y : Tile := ((imageTile ((readPieces w_accumulators_performed_3_u.dev w_accumulators_performed_3_o (accPieces w_accumulators_performed_3_u.dev (([{ acc 2048 0 with len := 4224 }] : List Acc)))).map (·.1))).get (by decide +kernel))
theorem test_accumulators_performed_3 : ∃ (s u : State) (o : Op) (k : AccOp) (n half w : Nat) (rows : BitVec 32) (as : List Acc) (y : Tile),
    Pending s u o ∧
    o.kind = .acc k n half w rows ∧
    EngineOk u o half ∧
    k = .ld as ∧
    (as.all fun a => u.dev.cur.writesDone o.id a.tgt a.len) = true ∧
    u.dev.badU = [] ∧
    u.dev.badCorr = [] ∧
    u.dev.cur.badS = [] ∧
    u.dev.cur.badV = [] ∧
    let bs := readPieces u.dev o (accPieces u.dev as)
    let set := joinOf bs ||| accLabel as
    imageTile (bs.map (·.1)) = some y ∧
    (allocLabel u.dev.cur.regs.labels set).isSome = true := 
  ⟨w_accumulators_performed_3_s, w_accumulators_performed_3_u, w_accumulators_performed_3_o, .ld [{ acc 2048 0 with len := 4224 }], 2, 0, 0, 0, [{ acc 2048 0 with len := 4224 }], w_accumulators_performed_3_y,
   pending_of (by decide +kernel), by decide +kernel, ⟨by decide +kernel, by decide +kernel, by decide +kernel⟩, by decide +kernel, by decide +kernel, by decide +kernel, ⟨by decide +kernel, by decide +kernel, by decide +kernel, got _, by decide +kernel⟩⟩

def w_memory_checks_0_s : State := st { team 7 with decl := { lanes := 64, group := 32, vregs := 8, scratch := 256, handler := 0x10100 }, regs := { (team 7).regs with s := [(4, { val := 0x20001, lbl := 1 })], v := [(1024 * 5, { val := 1 }), (1024 * 5 + 1, { val := 3 }), (1024 * 5 + 2, { val := 2 })], labels := [(1, 8)] } }
def w_memory_checks_0_x : MemSpec := ((memSpec ((.ld 3 1 4 5 .w : Instr)) w_memory_checks_0_s).get (by decide +kernel))
theorem test_memory_checks_0 : ∃ (i : Instr) (s : State) (x : MemSpec) (w l : _),
    memSpec i s = some x ∧
    Plain i s ∧
    s.dev.cur.count x.q < 255 ∧
    let rs := outcomes s x.need true x.regs x.wants
    let mis := x.wants.filter fun w => w.va.toNat % x.align ≠ 0
    (∀ r ∈ rs, (∀ a b, r.2 ≠ .refused a b) ∧ ∀ a, r.2 ≠ .missing a) ∧
    mis = w :: l := 
  ⟨.ld 3 1 4 5 .w, w_memory_checks_0_s, w_memory_checks_0_x, (consGet ((w_memory_checks_0_x.wants.filter fun w => w.va.toNat % w_memory_checks_0_x.align ≠ 0)) (by decide +kernel)).1, (consGet ((w_memory_checks_0_x.wants.filter fun w => w.va.toNat % w_memory_checks_0_x.align ≠ 0)) (by decide +kernel)).2,
   got _, ⟨by decide +kernel, by decide +kernel, by decide +kernel, by decide +kernel, by decide +kernel⟩, by decide +kernel, clear_of (by decide +kernel), consGot _⟩

def w_memory_checks_0_2_s : State := st { team 7 with decl := { lanes := 64, group := 32, vregs := 8, scratch := 256, handler := 0x10100 }, regs := { (team 7).regs with s := [(4, { val := 0x20002, lbl := 1 })], v := [(1024 * 5, { val := 1 }), (1024 * 5 + 1, { val := 3 }), (1024 * 5 + 2, { val := 2 })], labels := [(1, 8)] } }
def w_memory_checks_0_2_x : MemSpec := ((memSpec ((.st 3 1 4 5 .w : Instr)) w_memory_checks_0_2_s).get (by decide +kernel))
theorem test_memory_checks_0_2 : ∃ (i : Instr) (s : State) (x : MemSpec) (w l : _),
    memSpec i s = some x ∧
    Plain i s ∧
    s.dev.cur.count x.q < 255 ∧
    let rs := outcomes s x.need true x.regs x.wants
    let mis := x.wants.filter fun w => w.va.toNat % x.align ≠ 0
    (∀ r ∈ rs, (∀ a b, r.2 ≠ .refused a b) ∧ ∀ a, r.2 ≠ .missing a) ∧
    mis = w :: l := 
  ⟨.st 3 1 4 5 .w, w_memory_checks_0_2_s, w_memory_checks_0_2_x, (consGet ((w_memory_checks_0_2_x.wants.filter fun w => w.va.toNat % w_memory_checks_0_2_x.align ≠ 0)) (by decide +kernel)).1, (consGet ((w_memory_checks_0_2_x.wants.filter fun w => w.va.toNat % w_memory_checks_0_2_x.align ≠ 0)) (by decide +kernel)).2,
   got _, ⟨by decide +kernel, by decide +kernel, by decide +kernel, by decide +kernel, by decide +kernel⟩, by decide +kernel, clear_of (by decide +kernel), consGot _⟩

def w_memory_checks_1_s : State := st { team 7 with decl := { lanes := 64, group := 32, vregs := 8, scratch := 256, handler := 0x10100 }, regs := { (team 7).regs with s := [(4, { val := 0xFFFFF00000000000, lbl := 1 })], v := [(1024 * 5, { val := 1 }), (1024 * 5 + 1, { val := 3 }), (1024 * 5 + 2, { val := 1000000 })], labels := [(1, 8)] } }
def w_memory_checks_1_x : MemSpec := ((memSpec ((.ld 3 1 4 5 .w : Instr)) w_memory_checks_1_s).get (by decide +kernel))
theorem test_memory_checks_1 : ∃ (i : Instr) (s : State) (x : MemSpec) (r l n : _),
    memSpec i s = some x ∧
    Plain i s ∧
    s.dev.cur.count x.q < 255 ∧
    let rs := outcomes s x.need true x.regs x.wants
    let mis := x.wants.filter fun w => w.va.toNat % x.align ≠ 0
    let out := rs.filter fun r => match r.2 with | .bound _ => true | _ => false
    (∀ r ∈ rs, (∀ a b, r.2 ≠ .refused a b) ∧ ∀ a, r.2 ≠ .missing a) ∧
    mis = [] ∧
    out = r :: l ∧
    r.2 = .bound n := 
  ⟨.ld 3 1 4 5 .w, w_memory_checks_1_s, w_memory_checks_1_x, (consGet (((outcomes w_memory_checks_1_s w_memory_checks_1_x.need true w_memory_checks_1_x.regs w_memory_checks_1_x.wants).filter fun r => match r.2 with | .bound _ => true | _ => false)) (by decide +kernel)).1, (consGet (((outcomes w_memory_checks_1_s w_memory_checks_1_x.need true w_memory_checks_1_x.regs w_memory_checks_1_x.wants).filter fun r => match r.2 with | .bound _ => true | _ => false)) (by decide +kernel)).2, 256,
   got _, ⟨by decide +kernel, by decide +kernel, by decide +kernel, by decide +kernel, by decide +kernel⟩, by decide +kernel, clear_of (by decide +kernel), by decide +kernel, consGot _, by decide +kernel⟩

def w_memory_checks_1_2_s : State := st { team 7 with decl := { lanes := 64, group := 32, vregs := 8, scratch := 256, handler := 0x10100 }, regs := { (team 7).regs with s := [(4, { val := 0xFFFFF00000000000, lbl := 1 })], v := [(1024 * 5, { val := 1 }), (1024 * 5 + 1, { val := 3 }), (1024 * 5 + 2, { val := 255 })], labels := [(1, 8)] } }
def w_memory_checks_1_2_x : MemSpec := ((memSpec ((.stn 3 1 4 5 .n16 : Instr)) w_memory_checks_1_2_s).get (by decide +kernel))
theorem test_memory_checks_1_2 : ∃ (i : Instr) (s : State) (x : MemSpec) (r l n : _),
    memSpec i s = some x ∧
    Plain i s ∧
    s.dev.cur.count x.q < 255 ∧
    let rs := outcomes s x.need true x.regs x.wants
    let mis := x.wants.filter fun w => w.va.toNat % x.align ≠ 0
    let out := rs.filter fun r => match r.2 with | .bound _ => true | _ => false
    (∀ r ∈ rs, (∀ a b, r.2 ≠ .refused a b) ∧ ∀ a, r.2 ≠ .missing a) ∧
    mis = [] ∧
    out = r :: l ∧
    r.2 = .bound n := 
  ⟨.stn 3 1 4 5 .n16, w_memory_checks_1_2_s, w_memory_checks_1_2_x, (consGet (((outcomes w_memory_checks_1_2_s w_memory_checks_1_2_x.need true w_memory_checks_1_2_x.regs w_memory_checks_1_2_x.wants).filter fun r => match r.2 with | .bound _ => true | _ => false)) (by decide +kernel)).1, (consGet (((outcomes w_memory_checks_1_2_s w_memory_checks_1_2_x.need true w_memory_checks_1_2_x.regs w_memory_checks_1_2_x.wants).filter fun r => match r.2 with | .bound _ => true | _ => false)) (by decide +kernel)).2, 256,
   got _, ⟨by decide +kernel, by decide +kernel, by decide +kernel, by decide +kernel, by decide +kernel⟩, by decide +kernel, clear_of (by decide +kernel), by decide +kernel, consGot _, by decide +kernel⟩

def w_memory_checks_2_s : State := st { team 7 with decl := { lanes := 64, group := 32, vregs := 8, scratch := 256, handler := 0x10100 }, regs := { (team 7).regs with s := [(4, { val := 0x50000, lbl := 1 })], v := [(1024 * 5, { val := 1 }), (1024 * 5 + 1, { val := 3 }), (1024 * 5 + 2, { val := 2 })], labels := [(1, 8)] } }
def w_memory_checks_2_x : MemSpec := ((memSpec ((.st 3 1 4 5 .w : Instr)) w_memory_checks_2_s).get (by decide +kernel))
theorem test_memory_checks_2 : ∃ (i : Instr) (s : State) (x : MemSpec) (r l p e : _),
    memSpec i s = some x ∧
    Plain i s ∧
    s.dev.cur.count x.q < 255 ∧
    let rs := outcomes s x.need true x.regs x.wants
    let mis := x.wants.filter fun w => w.va.toNat % x.align ≠ 0
    let out := rs.filter fun r => match r.2 with | .bound _ => true | _ => false
    let above := rs.filter fun r => match r.2 with | .ok _ (some e) => decide ((r.1.lbl ||| r.1.albl) &&& ~~~e.ceil ≠ 0) | _ => false
    (∀ r ∈ rs, (∀ a b, r.2 ≠ .refused a b) ∧ ∀ a, r.2 ≠ .missing a) ∧
    mis = [] ∧
    out = [] ∧
    x.need.w = true ∧
    (∀ r ∈ rs, clobbers s.dev.cur.regs r = none) ∧
    above = r :: l ∧
    r.2 = .ok p (some e) := 
  ⟨.st 3 1 4 5 .w, w_memory_checks_2_s, w_memory_checks_2_x, (consGet (((outcomes w_memory_checks_2_s w_memory_checks_2_x.need true w_memory_checks_2_x.regs w_memory_checks_2_x.wants).filter fun r => match r.2 with | .ok _ (some e) => decide ((r.1.lbl ||| r.1.albl) &&& ~~~e.ceil ≠ 0) | _ => false)) (by decide +kernel)).1, (consGet (((outcomes w_memory_checks_2_s w_memory_checks_2_x.need true w_memory_checks_2_x.regs w_memory_checks_2_x.wants).filter fun r => match r.2 with | .ok _ (some e) => decide ((r.1.lbl ||| r.1.albl) &&& ~~~e.ceil ≠ 0) | _ => false)) (by decide +kernel)).2, (resGet (((consGet (((outcomes w_memory_checks_2_s w_memory_checks_2_x.need true w_memory_checks_2_x.regs w_memory_checks_2_x.wants).filter fun r => match r.2 with | .ok _ (some e) => decide ((r.1.lbl ||| r.1.albl) &&& ~~~e.ceil ≠ 0) | _ => false)) (by decide +kernel)).1).2) (by decide +kernel)).1, (resGet (((consGet (((outcomes w_memory_checks_2_s w_memory_checks_2_x.need true w_memory_checks_2_x.regs w_memory_checks_2_x.wants).filter fun r => match r.2 with | .ok _ (some e) => decide ((r.1.lbl ||| r.1.albl) &&& ~~~e.ceil ≠ 0) | _ => false)) (by decide +kernel)).1).2) (by decide +kernel)).2,
   got _, ⟨by decide +kernel, by decide +kernel, by decide +kernel, by decide +kernel, by decide +kernel⟩, by decide +kernel, clear_of (by decide +kernel), by decide +kernel, by decide +kernel, by decide +kernel, ⟨by decide +kernel, consGot _, resGot _⟩⟩

def w_belvedere_performs_0_s : State := pend (.tapb) 0 (team 1) ([])
theorem test_belvedere_performs_0 : ∃ (s u : State) (o : Op),
    Pending s u o ∧
    o.kind = .tapb ∧
    o.pins = [] ∧
    u.dev.belTurn o = true ∧
    noWatch u := 
  ⟨w_belvedere_performs_0_s, pend (.tapb) 0 (team 1) ([]), op (.tapb),
   pending_of (by decide +kernel), by decide +kernel, by decide +kernel, by decide +kernel, show _ = _ by decide +kernel⟩

def w_belvedere_performs_0_2_s : State := pend (.tapb) 0 ({ team 1 with wait := .held 1 }) ([])
def w_belvedere_performs_0_2_u : State := pend (.tapb) 0 ({ team 1 with wait := .held 1 }) ([])
theorem test_belvedere_performs_0_2 : ∃ (s u : State) (o : Op),
    Pending s u o ∧
    o.kind = .tapb ∧
    o.pins = [] ∧
    u.dev.belTurn o = true ∧
    noWatch u := 
  ⟨w_belvedere_performs_0_2_s, w_belvedere_performs_0_2_u, op (.tapb),
   pending_of (by decide +kernel), by decide +kernel, by decide +kernel, by decide +kernel, show _ = _ by decide +kernel⟩

def w_belvedere_performs_1_s : State := (fun s : State => { s with dev := { s.dev with frames := mupd {} s.dev.frames 2 fun f => { f with cur := 16 } } }) <| (pend (.fsel 4 2 0 0x23 6) 0 ({ team 1 with decl := { lanes := 64, group := 32, vregs := 8, scratch := 40000 }, regs := { (team 1).regs with labels := [(1, 8), (2, 5), (3, 4)], tiles := [(2, { ent := [(3, 7 * 2 ^ 20), (16, 2 ^ 22), (17, -5000000), (80, 2 ^ 24), (81, 2 ^ 24 + 5), (82, 2 ^ 25), (83, 2 ^ 26), (84, 2 ^ 27), (85, 2 ^ 23)], sat := [(4, true)], xmax := some 3, lbl := [(0, 1), (1, 2), (5, 2)] })], scr := [] }, sessions := [{ id := 9, isOpen := false }, { id := 4, sc := 16 + 65536 + 64 * 2 ^ 32, hrow := 0x1000, desc := desc, rows := [(0, { lbl := 2, list := [(1, 1065353216), (50, 1073741824)] }), (1, { lbl := 1, list := [(3, 1056964608)] }), (5, { lbl := 4, list := [(16, 1077936128), (18, 3229614080)] })] }] }) (put 0x20000 ((List.range 64).flatMap fun c => leBytes 4 (if c % 3 = 0 then 4048155338 else 1048576000)) []))
def w_belvedere_performs_1_u : State := (fun s : State => { s with dev := { s.dev with frames := mupd {} s.dev.frames 2 fun f => { f with cur := 16 } } }) <| (pend (.fsel 4 2 0 0x23 6) 0 ({ team 1 with decl := { lanes := 64, group := 32, vregs := 8, scratch := 40000 }, regs := { (team 1).regs with labels := [(1, 8), (2, 5), (3, 4)], tiles := [(2, { ent := [(3, 7 * 2 ^ 20), (16, 2 ^ 22), (17, -5000000), (80, 2 ^ 24), (81, 2 ^ 24 + 5), (82, 2 ^ 25), (83, 2 ^ 26), (84, 2 ^ 27), (85, 2 ^ 23)], sat := [(4, true)], xmax := some 3, lbl := [(0, 1), (1, 2), (5, 2)] })], scr := [] }, sessions := [{ id := 9, isOpen := false }, { id := 4, sc := 16 + 65536 + 64 * 2 ^ 32, hrow := 0x1000, desc := desc, rows := [(0, { lbl := 2, list := [(1, 1065353216), (50, 1073741824)] }), (1, { lbl := 1, list := [(3, 1056964608)] }), (5, { lbl := 4, list := [(16, 1077936128), (18, 3229614080)] })] }] }) (put 0x20000 ((List.range 64).flatMap fun c => leBytes 4 (if c % 3 = 0 then 4048155338 else 1048576000)) []))
def w_belvedere_performs_1_v : Session := { id := 4, sc := 16 + 65536 + 64 * 2 ^ 32, hrow := 0x1000, desc := desc, rows := [(0, { lbl := 2, list := [(1, 1065353216), (50, 1073741824)] }), (1, { lbl := 1, list := [(3, 1056964608)] }), (5, { lbl := 4, list := [(16, 1077936128), (18, 3229614080)] })] }
def w_belvedere_performs_1_e : TlbEnt := (xlGet ((translate w_belvedere_performs_1_u.fw w_belvedere_performs_1_u.dev w_belvedere_performs_1_u.dev.cur.core w_belvedere_performs_1_u.dev.cur.part belR (w_belvedere_performs_1_v.desc.theta + BitVec.ofNat 64 (4 * ((0 : Nat))))).1) (by decide +kernel))
theorem test_belvedere_performs_1 : ∃ (s u : State) (o : Op) (sid n f : Nat) (rows : BitVec 32) (set : OSet) (v : Session) (e : TlbEnt),
    Pending s u o ∧
    o.kind = .fsel sid n f rows set ∧
    o.pins = [] ∧
    u.dev.cur.sessions.find? (fun y => y.id == sid) = some v ∧
    u.dev.belTurn o = true ∧
    u.dev.cur.tileTurn o.id o.kind = true ∧
    soundTeam u ∧
    acquiredAll u o ∧
    let lo := v.desc.theta + BitVec.ofNat 64 (4 * f)
    lo.toNat % 65536 + 64 ≤ 65536 ∧
    (translate u.fw u.dev u.dev.cur.core u.dev.cur.part belR lo).1 = .ok e ∧
    u.dev.cur.writesDone o.id (.mem (e.pa lo) e.ent (!e.mi)) 64 = true := 
  ⟨w_belvedere_performs_1_s, w_belvedere_performs_1_u, op (.fsel 4 2 0 0x23 6), 4, 2, 0, 0x23, 6, w_belvedere_performs_1_v, w_belvedere_performs_1_e,
   pending_of (by decide +kernel), by decide +kernel, by decide +kernel, by decide +kernel, ⟨by decide +kernel, by decide +kernel, ⟨by decide +kernel, by decide +kernel, by decide +kernel, by decide +kernel, by decide +kernel⟩, acquired_of (by decide +kernel), by decide +kernel, xlGot _, by decide +kernel⟩⟩

def w_belvedere_performs_2_s : State := pend (.tapr 4 3 1 0xFFFFF00000000008 55 6) 0 ({ team 1 with decl := { lanes := 64, group := 32, vregs := 8, scratch := 40000 }, regs := { (team 1).regs with labels := [(1, 8), (2, 5), (3, 4)], tiles := [], scr := [] }, sessions := [{ id := 4, sc := 16 + 65536 + 64 * 2 ^ 32, hrow := 0x1000, desc := desc, rows := [(0, { lbl := 2, list := [] })] }] }) (tapMem (put (0x20400) ([]) (put (0x30000 + 4 * 0) (leBytes 4 (0 * 65536 + 0)) (put (0x20800 + 128 * 16) (leBytes 8 (77 + 0 * 2 ^ 20 + 9 * 2 ^ 14 + 2 * 2 ^ 24 + 0 * 2 ^ 28 + 6 * 2 ^ 40)) ([])))))
def w_belvedere_performs_2_u : State := pend (.tapr 4 3 1 0xFFFFF00000000008 55 6) 0 ({ team 1 with decl := { lanes := 64, group := 32, vregs := 8, scratch := 40000 }, regs := { (team 1).regs with labels := [(1, 8), (2, 5), (3, 4)], tiles := [], scr := [] }, sessions := [{ id := 4, sc := 16 + 65536 + 64 * 2 ^ 32, hrow := 0x1000, desc := desc, rows := [(0, { lbl := 2, list := [] })] }] }) (tapMem (put (0x20400) ([]) (put (0x30000 + 4 * 0) (leBytes 4 (0 * 65536 + 0)) (put (0x20800 + 128 * 16) (leBytes 8 (77 + 0 * 2 ^ 20 + 9 * 2 ^ 14 + 2 * 2 ^ 24 + 0 * 2 ^ 28 + 6 * 2 ^ 40)) ([])))))
def w_belvedere_performs_2_v : Session := { id := 4, sc := 16 + 65536 + 64 * 2 ^ 32, hrow := 0x1000, desc := desc, rows := [(0, { lbl := 2, list := [] })] }
def w_belvedere_performs_2_ps : List Piece := ((taprReach w_belvedere_performs_2_u (op (.tapr 4 3 1 0xFFFFF00000000008 55 6)) w_belvedere_performs_2_v (activeRows ((1 : BitVec 32)))).get (by decide +kernel)).1
def w_belvedere_performs_2_all : List Piece := ((taprReach w_belvedere_performs_2_u (op (.tapr 4 3 1 0xFFFFF00000000008 55 6)) w_belvedere_performs_2_v (activeRows ((1 : BitVec 32)))).get (by decide +kernel)).2.1
def w_belvedere_performs_2_run : List TapRow := ((taprReach w_belvedere_performs_2_u (op (.tapr 4 3 1 0xFFFFF00000000008 55 6)) w_belvedere_performs_2_v (activeRows ((1 : BitVec 32)))).get (by decide +kernel)).2.2.1
def w_belvedere_performs_2_d : Dev := ((taprReach w_belvedere_performs_2_u (op (.tapr 4 3 1 0xFFFFF00000000008 55 6)) w_belvedere_performs_2_v (activeRows ((1 : BitVec 32)))).get (by decide +kernel)).2.2.2
def w_belvedere_performs_2_a : TapSum := ((w_belvedere_performs_2_run.foldl (fun a r => a.bind fun a => taprRow w_belvedere_performs_2_u.fw false (op (.tapr 4 3 1 0xFFFFF00000000008 55 6)) w_belvedere_performs_2_v (tensorAt w_belvedere_performs_2_d (op (.tapr 4 3 1 0xFFFFF00000000008 55 6)) w_belvedere_performs_2_ps w_belvedere_performs_2_v.desc.ftens.toNat) w_belvedere_performs_2_all ((55 : Dword)) ((6 : OSet)) a r) (some { dev := w_belvedere_performs_2_d })).get (by decide +kernel))
theorem test_belvedere_performs_2 : ∃ (s u : State) (o : Op) (sid kd : Nat) (rows : BitVec 32) (sd evid : Dword) (set : OSet) (v : Session) (ps all : List Piece) (run : List TapRow) (d : Dev) (a : TapSum),
    Pending s u o ∧
    o.kind = .tapr sid kd rows sd evid set ∧
    o.pins = [] ∧
    u.dev.cur.sessions.find? (fun y => y.id == sid) = some v ∧
    u.dev.belTurn o = true ∧
    u.dev.cur.releasedBefore o.id = true ∧
    soundTeam u ∧
    taprReach u o v (activeRows rows) = some (ps, all, run, d) ∧
    run.foldl (fun a r => a.bind fun a => taprRow u.fw false o v (tensorAt d o ps v.desc.ftens.toNat) all evid set a r) (some { dev := d }) = some a ∧
    let w := writeScr u.fw u.dev.cur.belUnit a.dev 0 (sd.toNat - 0xFFFFF00000000000) sd (deltaBytes set a.es)
    w.full = none := 
  ⟨w_belvedere_performs_2_s, w_belvedere_performs_2_u, op (.tapr 4 3 1 0xFFFFF00000000008 55 6), 4, 3, 1, 0xFFFFF00000000008, 55, 6, w_belvedere_performs_2_v, w_belvedere_performs_2_ps, w_belvedere_performs_2_all, w_belvedere_performs_2_run, w_belvedere_performs_2_d, w_belvedere_performs_2_a,
   pending_of (by decide +kernel), by decide +kernel, by decide +kernel, by decide +kernel, ⟨by decide +kernel, by decide +kernel, ⟨by decide +kernel, by decide +kernel, by decide +kernel, by decide +kernel, by decide +kernel⟩, gotq _, got _, by decide +kernel⟩⟩

def w_belvedere_performs_4_s : State := (fun s : State => { s with fw := { s.fw with parts := [(0, { state := 1, pairs := 3, origins := 0xFFFFFFFF, qbase := 1, qcount := 8, wq := 0x20100 })] }, dev := { s.dev with frames := mupd {} (mupd {} s.dev.frames 2 fun f => { f with cur := 16 }) 3 fun f => { f with cur := 3 } } }) <| (pend (.tape desc 0xFFFFF00000000000 20 55 6) 0 ({ team 1 with decl := { lanes := 64, group := 32, vregs := 8, scratch := 40000 }, regs := { (team 1).regs with labels := [(1, 8), (2, 5), (3, 4)], tiles := [], scr := [(0, { val := 1, lbl := 0 }), (2, { val := 7, lbl := 2 }), (4, { val := 50, lbl := 1 }), (5, { val := 1073741824, lbl := 2 })] }, sessions := [] }) (put 0x10100 (packBytes 32 [(0, 8, 0x22000), (8, 8, 16), (16, 4, 1), (24, 4, 1)]) (tapMem (put (0x20400) ([]) (put (0x30000 + 16384 + 16 * 5) (packBytes 16 [(0, 4, 1073741842), (4, 4, 1082130432), (8, 4, 0)]) (put (0x30000 + 16384 + 16 * 4) (packBytes 16 [(0, 4, 536870915), (4, 4, 1048576000), (8, 4, 0)]) (put (0x30000 + 16384 + 16 * 3) (packBytes 16 [(0, 4, 0), (4, 4, 0), (8, 4, 0)]) (put (0x30000 + 16384 + 16 * 2) (packBytes 16 [(0, 4, 805306384), (4, 4, 0), (8, 4, 1065353216)]) (put (0x30000 + 16384 + 16 * 1) (packBytes 16 [(0, 4, 268435506), (4, 4, 1069547520), (8, 4, 0)]) (put (0x30000 + 16384 + 16 * 0) (packBytes 16 [(0, 4, 1073741825), (4, 4, 1056964608), (8, 4, 0)]) (put (0x30000 + 4 * 5) (leBytes 4 (4 * 65536 + 1)) (put (0x30000 + 4 * 4) (leBytes 4 (0 * 65536 + 65)) (put (0x30000 + 4 * 3) (leBytes 4 (2 * 65536 + 4)) (put (0x30000 + 4 * 2) (leBytes 4 (1 * 65536 + 1)) (put (0x30000 + 4 * 1) (leBytes 4 (0 * 65536 + 1)) (put (0x30000 + 4 * 0) (leBytes 4 (0 * 65536 + 0)) (put (0x20800 + 128 * 20) (leBytes 8 (77 + 1 * 2 ^ 20 + 5 * 2 ^ 14 + 2 * 2 ^ 24 + 0 * 2 ^ 28 + 6 * 2 ^ 40)) ([]))))))))))))))))))
def w_belvedere_performs_4_u : State := (fun s : State => { s with fw := { s.fw with parts := [(0, { state := 1, pairs := 3, origins := 0xFFFFFFFF, qbase := 1, qcount := 8, wq := 0x20100 })] }, dev := { s.dev with frames := mupd {} (mupd {} s.dev.frames 2 fun f => { f with cur := 16 }) 3 fun f => { f with cur := 3 } } }) <| (pend (.tape desc 0xFFFFF00000000000 20 55 6) 0 ({ team 1 with decl := { lanes := 64, group := 32, vregs := 8, scratch := 40000 }, regs := { (team 1).regs with labels := [(1, 8), (2, 5), (3, 4)], tiles := [], scr := [(0, { val := 1, lbl := 0 }), (2, { val := 7, lbl := 2 }), (4, { val := 50, lbl := 1 }), (5, { val := 1073741824, lbl := 2 })] }, sessions := [] }) (put 0x10100 (packBytes 32 [(0, 8, 0x22000), (8, 8, 16), (16, 4, 1), (24, 4, 1)]) (tapMem (put (0x20400) ([]) (put (0x30000 + 16384 + 16 * 5) (packBytes 16 [(0, 4, 1073741842), (4, 4, 1082130432), (8, 4, 0)]) (put (0x30000 + 16384 + 16 * 4) (packBytes 16 [(0, 4, 536870915), (4, 4, 1048576000), (8, 4, 0)]) (put (0x30000 + 16384 + 16 * 3) (packBytes 16 [(0, 4, 0), (4, 4, 0), (8, 4, 0)]) (put (0x30000 + 16384 + 16 * 2) (packBytes 16 [(0, 4, 805306384), (4, 4, 0), (8, 4, 1065353216)]) (put (0x30000 + 16384 + 16 * 1) (packBytes 16 [(0, 4, 268435506), (4, 4, 1069547520), (8, 4, 0)]) (put (0x30000 + 16384 + 16 * 0) (packBytes 16 [(0, 4, 1073741825), (4, 4, 1056964608), (8, 4, 0)]) (put (0x30000 + 4 * 5) (leBytes 4 (4 * 65536 + 1)) (put (0x30000 + 4 * 4) (leBytes 4 (0 * 65536 + 65)) (put (0x30000 + 4 * 3) (leBytes 4 (2 * 65536 + 4)) (put (0x30000 + 4 * 2) (leBytes 4 (1 * 65536 + 1)) (put (0x30000 + 4 * 1) (leBytes 4 (0 * 65536 + 1)) (put (0x30000 + 4 * 0) (leBytes 4 (0 * 65536 + 0)) (put (0x20800 + 128 * 20) (leBytes 8 (77 + 1 * 2 ^ 20 + 5 * 2 ^ 14 + 2 * 2 ^ 24 + 0 * 2 ^ 28 + 6 * 2 ^ 40)) ([]))))))))))))))))))
def w_belvedere_performs_4_o : Op := op (.tape desc 0xFFFFF00000000000 20 55 6)
def w_belvedere_performs_4_all : List Piece := ((tapeReach w_belvedere_performs_4_u w_belvedere_performs_4_o desc ((20 : Nat))).get (by decide +kernel)).1
def w_belvedere_performs_4_m : Nat := ((tapeReach w_belvedere_performs_4_u w_belvedere_performs_4_o desc ((20 : Nat))).get (by decide +kernel)).2.1
def w_belvedere_performs_4_head : Nat := ((tapeReach w_belvedere_performs_4_u w_belvedere_performs_4_o desc ((20 : Nat))).get (by decide +kernel)).2.2.1
def w_belvedere_performs_4_d : Dev := ((tapeReach w_belvedere_performs_4_u w_belvedere_performs_4_o desc ((20 : Nat))).get (by decide +kernel)).2.2.2
theorem test_belvedere_performs_4 : ∃ (s u : State) (o : Op) (x : TapDesc) (sa : Dword) (row m head : Nat) (evid : Dword) (set : OSet) (all : List Piece) (d : Dev),
    Pending s u o ∧
    o.kind = .tape x sa row evid set ∧
    o.pins = [] ∧
    u.dev.belTurn o = true ∧
    u.dev.cur.releasedBefore o.id = true ∧
    soundTeam u ∧
    tapeReach u o x row = some (all, m, head, d) ∧
    ((tapeFeatures u x 0 m).any fun fv => let h := tensorAt d o all x.ftens.toNat; let dl := scrLabel u.dev.cur 0 0 (16 + 8 * scrNat u.dev.cur.regs 0 0 4) ||| set; let rset := tapSet d all (rowAt x row); ((prune u.fw false x h m row (dl ||| rset ||| h.lbl) dl fv (d, false)).bind (tapStoreList u.fw false x h m row (dl ||| rset ||| h.lbl) dl fv)).any fun y => let c := evalChain u.fw false o x h all m head fv y.1; !c.wait && (c.hit.isEmpty && tapHome c.dev all (rowAt x row) 8 == m && (writeScr u.fw u.dev.cur.belUnit c.dev 0 ((sa + 2064).toNat - 0xFFFFF00000000000) (sa + 2064) (deltaBytes dl ((deltasOf fv c.w).map fun p => (0, p.1, p.2, dl ||| rset ||| c.set)))).full.isNone)) = true := 
  ⟨w_belvedere_performs_4_s, w_belvedere_performs_4_u, w_belvedere_performs_4_o, desc, 0xFFFFF00000000000, 20, w_belvedere_performs_4_m, w_belvedere_performs_4_head, 55, 6, w_belvedere_performs_4_all, w_belvedere_performs_4_d,
   pending_of (by decide +kernel), by decide +kernel, by decide +kernel, by decide +kernel, ⟨by decide +kernel, ⟨by decide +kernel, by decide +kernel, by decide +kernel, by decide +kernel, by decide +kernel⟩, gotq _, by decide +kernel⟩⟩

def w_belvedere_performs_4_2_s : State := (fun s : State => { s with fw := { s.fw with parts := [(0, { state := 1, pairs := 3, origins := 0xFFFFFFFF, qbase := 1, qcount := 8, wq := 0x20100 })] }, dev := { s.dev with frames := mupd {} (mupd {} s.dev.frames 2 fun f => { f with cur := 16 }) 3 fun f => { f with cur := 3 } } }) <| (pend (.tape desc 0xFFFFF00000000000 20 55 6) 0 ({ team 1 with decl := { lanes := 64, group := 32, vregs := 8, scratch := 40000 }, regs := { (team 1).regs with labels := [(1, 8), (2, 5), (3, 4)], tiles := [], scr := [(0, { val := 1, lbl := 0 }), (2, { val := 7, lbl := 2 }), (4, { val := 50, lbl := 1 }), (5, { val := 1073741824, lbl := 2 })] }, sessions := [] }) (put 0x10100 (packBytes 32 [(0, 8, 0x22000), (8, 8, 16), (16, 4, 1), (24, 4, 1)]) (tapMem (put (0x20400) ([]) (put (0x30000 + 16384 + 16 * 5) (packBytes 16 [(0, 4, 1073741842), (4, 4, 1082130432), (8, 4, 0)]) (put (0x30000 + 16384 + 16 * 4) (packBytes 16 [(0, 4, 536870915), (4, 4, 1048576000), (8, 4, 0)]) (put (0x30000 + 16384 + 16 * 3) (packBytes 16 [(0, 4, 0), (4, 4, 0), (8, 4, 0)]) (put (0x30000 + 16384 + 16 * 2) (packBytes 16 [(0, 4, 805306384), (4, 4, 0), (8, 4, 1065353216)]) (put (0x30000 + 16384 + 16 * 1) (packBytes 16 [(0, 4, 268435506), (4, 4, 1069547520), (8, 4, 0)]) (put (0x30000 + 16384 + 16 * 0) (packBytes 16 [(0, 4, 1073741825), (4, 4, 1056964608), (8, 4, 0)]) (put (0x30000 + 4 * 5) (leBytes 4 (4 * 65536 + 1)) (put (0x30000 + 4 * 4) (leBytes 4 (0 * 65536 + 65)) (put (0x30000 + 4 * 3) (leBytes 4 (2 * 65536 + 4)) (put (0x30000 + 4 * 2) (leBytes 4 (1 * 65536 + 1)) (put (0x30000 + 4 * 1) (leBytes 4 (0 * 65536 + 1)) (put (0x30000 + 4 * 0) (leBytes 4 (0 * 65536 + 0)) (put (0x20800 + 128 * 20) (leBytes 8 (77 + 1 * 2 ^ 20 + 5 * 2 ^ 14 + 2 * 2 ^ 24 + 2 * 2 ^ 28 + 6 * 2 ^ 40)) ([]))))))))))))))))))
def w_belvedere_performs_4_2_u : State := (fun s : State => { s with fw := { s.fw with parts := [(0, { state := 1, pairs := 3, origins := 0xFFFFFFFF, qbase := 1, qcount := 8, wq := 0x20100 })] }, dev := { s.dev with frames := mupd {} (mupd {} s.dev.frames 2 fun f => { f with cur := 16 }) 3 fun f => { f with cur := 3 } } }) <| (pend (.tape desc 0xFFFFF00000000000 20 55 6) 0 ({ team 1 with decl := { lanes := 64, group := 32, vregs := 8, scratch := 40000 }, regs := { (team 1).regs with labels := [(1, 8), (2, 5), (3, 4)], tiles := [], scr := [(0, { val := 1, lbl := 0 }), (2, { val := 7, lbl := 2 }), (4, { val := 50, lbl := 1 }), (5, { val := 1073741824, lbl := 2 })] }, sessions := [] }) (put 0x10100 (packBytes 32 [(0, 8, 0x22000), (8, 8, 16), (16, 4, 1), (24, 4, 1)]) (tapMem (put (0x20400) ([]) (put (0x30000 + 16384 + 16 * 5) (packBytes 16 [(0, 4, 1073741842), (4, 4, 1082130432), (8, 4, 0)]) (put (0x30000 + 16384 + 16 * 4) (packBytes 16 [(0, 4, 536870915), (4, 4, 1048576000), (8, 4, 0)]) (put (0x30000 + 16384 + 16 * 3) (packBytes 16 [(0, 4, 0), (4, 4, 0), (8, 4, 0)]) (put (0x30000 + 16384 + 16 * 2) (packBytes 16 [(0, 4, 805306384), (4, 4, 0), (8, 4, 1065353216)]) (put (0x30000 + 16384 + 16 * 1) (packBytes 16 [(0, 4, 268435506), (4, 4, 1069547520), (8, 4, 0)]) (put (0x30000 + 16384 + 16 * 0) (packBytes 16 [(0, 4, 1073741825), (4, 4, 1056964608), (8, 4, 0)]) (put (0x30000 + 4 * 5) (leBytes 4 (4 * 65536 + 1)) (put (0x30000 + 4 * 4) (leBytes 4 (0 * 65536 + 65)) (put (0x30000 + 4 * 3) (leBytes 4 (2 * 65536 + 4)) (put (0x30000 + 4 * 2) (leBytes 4 (1 * 65536 + 1)) (put (0x30000 + 4 * 1) (leBytes 4 (0 * 65536 + 1)) (put (0x30000 + 4 * 0) (leBytes 4 (0 * 65536 + 0)) (put (0x20800 + 128 * 20) (leBytes 8 (77 + 1 * 2 ^ 20 + 5 * 2 ^ 14 + 2 * 2 ^ 24 + 2 * 2 ^ 28 + 6 * 2 ^ 40)) ([]))))))))))))))))))
def w_belvedere_performs_4_2_o : Op := op (.tape desc 0xFFFFF00000000000 20 55 6)
def w_belvedere_performs_4_2_all : List Piece := ((tapeReach w_belvedere_performs_4_2_u w_belvedere_performs_4_2_o desc ((20 : Nat))).get (by decide +kernel)).1
def w_belvedere_performs_4_2_m : Nat := ((tapeReach w_belvedere_performs_4_2_u w_belvedere_performs_4_2_o desc ((20 : Nat))).get (by decide +kernel)).2.1
def w_belvedere_performs_4_2_head : Nat := ((tapeReach w_belvedere_performs_4_2_u w_belvedere_performs_4_2_o desc ((20 : Nat))).get (by decide +kernel)).2.2.1
def w_belvedere_performs_4_2_d : Dev := ((tapeReach w_belvedere_performs_4_2_u w_belvedere_performs_4_2_o desc ((20 : Nat))).get (by decide +kernel)).2.2.2
theorem test_belvedere_performs_4_2 : ∃ (s u : State) (o : Op) (x : TapDesc) (sa : Dword) (row m head : Nat) (evid : Dword) (set : OSet) (all : List Piece) (d : Dev),
    Pending s u o ∧
    o.kind = .tape x sa row evid set ∧
    o.pins = [] ∧
    u.dev.belTurn o = true ∧
    u.dev.cur.releasedBefore o.id = true ∧
    soundTeam u ∧
    tapeReach u o x row = some (all, m, head, d) ∧
    ((tapeFeatures u x 0 m).any fun fv => let h := tensorAt d o all x.ftens.toNat; let dl := scrLabel u.dev.cur 0 0 (16 + 8 * scrNat u.dev.cur.regs 0 0 4) ||| set; let rset := tapSet d all (rowAt x row); ((prune u.fw false x h m row (dl ||| rset ||| h.lbl) dl fv (d, false)).bind (tapStoreList u.fw false x h m row (dl ||| rset ||| h.lbl) dl fv)).any fun y => let c := evalChain u.fw false o x h all m head fv y.1; !c.wait && (!c.hit.isEmpty && holdMay x all row && (casRow o x all row m (rmWith m 1 x.tapid (rmDepth m + 1)) c.dev).isSome)) = true := 
  ⟨w_belvedere_performs_4_2_s, w_belvedere_performs_4_2_u, w_belvedere_performs_4_2_o, desc, 0xFFFFF00000000000, 20, w_belvedere_performs_4_2_m, w_belvedere_performs_4_2_head, 55, 6, w_belvedere_performs_4_2_all, w_belvedere_performs_4_2_d,
   pending_of (by decide +kernel), by decide +kernel, by decide +kernel, by decide +kernel, ⟨by decide +kernel, ⟨by decide +kernel, by decide +kernel, by decide +kernel, by decide +kernel, by decide +kernel⟩, gotq _, by decide +kernel⟩⟩

def w_belvedere_performs_3_s : State := (fun s : State => { s with fw := { s.fw with parts := [(0, { state := 1, pairs := 3, origins := 0xFFFFFFFF, qbase := 1, qcount := 8, wq := 0x20100 })] }, dev := { s.dev with frames := mupd {} (mupd {} s.dev.frames 2 fun f => { f with cur := 16 }) 3 fun f => { f with cur := 3 } } }) <| (pend (.tape desc 0xFFFFF00000000000 20 55 6) 0 ({ team 1 with decl := { lanes := 64, group := 32, vregs := 8, scratch := 40000 }, regs := { (team 1).regs with labels := [(1, 8), (2, 5), (3, 4)], tiles := [], scr := [(0, { val := 1, lbl := 0 }), (2, { val := 7, lbl := 2 }), (4, { val := 50, lbl := 1 }), (5, { val := 1073741824, lbl := 2 })] }, sessions := [] }) (tapMem (put (0x20400) ([]) (put (0x30000 + 16384 + 16 * 5) (packBytes 16 [(0, 4, 1073741842), (4, 4, 1082130432), (8, 4, 0)]) (put (0x30000 + 16384 + 16 * 4) (packBytes 16 [(0, 4, 536870915), (4, 4, 1048576000), (8, 4, 0)]) (put (0x30000 + 16384 + 16 * 3) (packBytes 16 [(0, 4, 0), (4, 4, 0), (8, 4, 0)]) (put (0x30000 + 16384 + 16 * 2) (packBytes 16 [(0, 4, 805306384), (4, 4, 0), (8, 4, 1065353216)]) (put (0x30000 + 16384 + 16 * 1) (packBytes 16 [(0, 4, 268435506), (4, 4, 1069547520), (8, 4, 0)]) (put (0x30000 + 16384 + 16 * 0) (packBytes 16 [(0, 4, 1073741825), (4, 4, 1056964608), (8, 4, 0)]) (put (0x30000 + 4 * 5) (leBytes 4 (4 * 65536 + 1)) (put (0x30000 + 4 * 4) (leBytes 4 (0 * 65536 + 65)) (put (0x30000 + 4 * 3) (leBytes 4 (2 * 65536 + 4)) (put (0x30000 + 4 * 2) (leBytes 4 (1 * 65536 + 1)) (put (0x30000 + 4 * 1) (leBytes 4 (0 * 65536 + 1)) (put (0x30000 + 4 * 0) (leBytes 4 (0 * 65536 + 0)) (put (0x20800 + 128 * 20) (leBytes 8 (77 + 0 * 2 ^ 20 + 5 * 2 ^ 14 + 2 * 2 ^ 24 + 1 * 2 ^ 28 + 6 * 2 ^ 40)) ([])))))))))))))))))
def w_belvedere_performs_3_u : State := (fun s : State => { s with fw := { s.fw with parts := [(0, { state := 1, pairs := 3, origins := 0xFFFFFFFF, qbase := 1, qcount := 8, wq := 0x20100 })] }, dev := { s.dev with frames := mupd {} (mupd {} s.dev.frames 2 fun f => { f with cur := 16 }) 3 fun f => { f with cur := 3 } } }) <| (pend (.tape desc 0xFFFFF00000000000 20 55 6) 0 ({ team 1 with decl := { lanes := 64, group := 32, vregs := 8, scratch := 40000 }, regs := { (team 1).regs with labels := [(1, 8), (2, 5), (3, 4)], tiles := [], scr := [(0, { val := 1, lbl := 0 }), (2, { val := 7, lbl := 2 }), (4, { val := 50, lbl := 1 }), (5, { val := 1073741824, lbl := 2 })] }, sessions := [] }) (tapMem (put (0x20400) ([]) (put (0x30000 + 16384 + 16 * 5) (packBytes 16 [(0, 4, 1073741842), (4, 4, 1082130432), (8, 4, 0)]) (put (0x30000 + 16384 + 16 * 4) (packBytes 16 [(0, 4, 536870915), (4, 4, 1048576000), (8, 4, 0)]) (put (0x30000 + 16384 + 16 * 3) (packBytes 16 [(0, 4, 0), (4, 4, 0), (8, 4, 0)]) (put (0x30000 + 16384 + 16 * 2) (packBytes 16 [(0, 4, 805306384), (4, 4, 0), (8, 4, 1065353216)]) (put (0x30000 + 16384 + 16 * 1) (packBytes 16 [(0, 4, 268435506), (4, 4, 1069547520), (8, 4, 0)]) (put (0x30000 + 16384 + 16 * 0) (packBytes 16 [(0, 4, 1073741825), (4, 4, 1056964608), (8, 4, 0)]) (put (0x30000 + 4 * 5) (leBytes 4 (4 * 65536 + 1)) (put (0x30000 + 4 * 4) (leBytes 4 (0 * 65536 + 65)) (put (0x30000 + 4 * 3) (leBytes 4 (2 * 65536 + 4)) (put (0x30000 + 4 * 2) (leBytes 4 (1 * 65536 + 1)) (put (0x30000 + 4 * 1) (leBytes 4 (0 * 65536 + 1)) (put (0x30000 + 4 * 0) (leBytes 4 (0 * 65536 + 0)) (put (0x20800 + 128 * 20) (leBytes 8 (77 + 0 * 2 ^ 20 + 5 * 2 ^ 14 + 2 * 2 ^ 24 + 1 * 2 ^ 28 + 6 * 2 ^ 40)) ([])))))))))))))))))
def w_belvedere_performs_3_o : Op := op (.tape desc 0xFFFFF00000000000 20 55 6)
def w_belvedere_performs_3_rs : List Piece := ((tapeRow w_belvedere_performs_3_u w_belvedere_performs_3_o desc ((20 : Nat))).get (by decide +kernel)).1
def w_belvedere_performs_3_m : Nat := ((tapeRow w_belvedere_performs_3_u w_belvedere_performs_3_o desc ((20 : Nat))).get (by decide +kernel)).2.1
def w_belvedere_performs_3_d : Dev := ((tapeRow w_belvedere_performs_3_u w_belvedere_performs_3_o desc ((20 : Nat))).get (by decide +kernel)).2.2
theorem test_belvedere_performs_3 : ∃ (s u : State) (o : Op) (x : TapDesc) (sa : Dword) (row m : Nat) (evid : Dword) (set : OSet) (rs : List Piece) (d : Dev),
    Pending s u o ∧
    o.kind = .tape x sa row evid set ∧
    o.pins = [] ∧
    u.dev.belTurn o = true ∧
    u.dev.cur.releasedBefore o.id = true ∧
    soundTeam u ∧
    tapeRow u o x row = some (rs, m, d) ∧
    tapeFeatures u x (sa.toNat - 0xFFFFF00000000000) m = none := 
  ⟨w_belvedere_performs_3_s, w_belvedere_performs_3_u, w_belvedere_performs_3_o, desc, 0xFFFFF00000000000, 20, w_belvedere_performs_3_m, 55, 6, w_belvedere_performs_3_rs, w_belvedere_performs_3_d,
   pending_of (by decide +kernel), by decide +kernel, by decide +kernel, by decide +kernel, ⟨by decide +kernel, ⟨by decide +kernel, by decide +kernel, by decide +kernel, by decide +kernel, by decide +kernel⟩, gott _, by decide +kernel⟩⟩

def w_belvedere_performs_5_s : State := (fun s : State => { s with dev := { s.dev with frames := mupd {} (mupd {} s.dev.frames 2 fun f => { f with cur := 16 }) 3 fun f => { f with cur := 3 } } }) <| (pend (.mergek 8589934594 6 [{ lane := 2048, va := 0x30000, tgt := .mem 0x20000 2 true, len := 32 }] [{ acc 2048 8 with len := 32 }]) 0 (team 1) (put 0x20000 (leBytes 8 (0x40000 + 0) ++ leBytes 8 2 ++ leBytes 8 (0x40000 + 256) ++ leBytes 8 3) (put (0x30000 + 256) (leBytes 4 2 ++ leBytes 4 3225419776 ++ leBytes 4 9 ++ leBytes 4 1088421888 ++ leBytes 4 4294967295 ++ leBytes 4 3) (put (0x30000 + 0) (leBytes 4 1 ++ leBytes 4 1069547520 ++ leBytes 4 2 ++ leBytes 4 3225419776) ([])))))
def w_belvedere_performs_5_u : State := (fun s : State => { s with dev := { s.dev with frames := mupd {} (mupd {} s.dev.frames 2 fun f => { f with cur := 16 }) 3 fun f => { f with cur := 3 } } }) <| (pend (.mergek 8589934594 6 [{ lane := 2048, va := 0x30000, tgt := .mem 0x20000 2 true, len := 32 }] [{ acc 2048 8 with len := 32 }]) 0 (team 1) (put 0x20000 (leBytes 8 (0x40000 + 0) ++ leBytes 8 2 ++ leBytes 8 (0x40000 + 256) ++ leBytes 8 3) (put (0x30000 + 256) (leBytes 4 2 ++ leBytes 4 3225419776 ++ leBytes 4 9 ++ leBytes 4 1088421888 ++ leBytes 4 4294967295 ++ leBytes 4 3) (put (0x30000 + 0) (leBytes 4 1 ++ leBytes 4 1069547520 ++ leBytes 4 2 ++ leBytes 4 3225419776) ([])))))
def w_belvedere_performs_5_o : Op := op (.mergek 8589934594 6 [{ lane := 2048, va := 0x30000, tgt := .mem 0x20000 2 true, len := 32 }] [{ acc 2048 8 with len := 32 }])
def w_belvedere_performs_5_tab : List Acc := [{ lane := 2048, va := 0x30000, tgt := .mem 0x20000 2 true, len := 32 }]
def w_belvedere_performs_5_es : List (Nat × Nat) := match (readLists w_belvedere_performs_5_s.fw w_belvedere_performs_5_o w_belvedere_performs_5_s.dev (mergeTable ((readPieces w_belvedere_performs_5_s.dev w_belvedere_performs_5_o (accPieces w_belvedere_performs_5_s.dev [{ lane := 2048, va := 0x30000, tgt := .mem 0x20000 2 true, len := 32 }])).map (·.1)) 2)).1 with | .entries es => es | _ => [(99, 99)]
def w_belvedere_performs_5_ps : List Piece := (readLists w_belvedere_performs_5_s.fw w_belvedere_performs_5_o w_belvedere_performs_5_s.dev (mergeTable ((readPieces w_belvedere_performs_5_s.dev w_belvedere_performs_5_o (accPieces w_belvedere_performs_5_s.dev [{ lane := 2048, va := 0x30000, tgt := .mem 0x20000 2 true, len := 32 }])).map (·.1)) 2)).2.1
def w_belvedere_performs_5_d : Dev := (readLists w_belvedere_performs_5_s.fw w_belvedere_performs_5_o w_belvedere_performs_5_s.dev (mergeTable ((readPieces w_belvedere_performs_5_s.dev w_belvedere_performs_5_o (accPieces w_belvedere_performs_5_s.dev [{ lane := 2048, va := 0x30000, tgt := .mem 0x20000 2 true, len := 32 }])).map (·.1)) 2)).2.2
theorem test_belvedere_performs_5 : ∃ (s u : State) (o : Op) (sb : Dword) (set : OSet) (tab : List Acc) (a : Acc) (l k pa e : Nat) (c : Bool) (es : List (Nat × Nat)) (ps : List Piece) (d : Dev),
    Pending s u o ∧
    o.kind = .mergek sb set tab [a] ∧
    a.tgt = .mem pa e c ∧
    paIsHost pa = false ∧
    mergeSizes sb = some (l, k) ∧
    a.len = 16 + 8 * k ∧
    (tab.all fun b => u.dev.cur.writesDone o.id b.tgt b.len) = true ∧
    soundTeam u ∧
    let tp := accPieces u.dev tab
    let table := mergeTable ((readPieces u.dev o tp).map (·.1)) l
    (table.map fun y => y.2.1).sum ≤ 65536 ∧
    readLists u.fw o u.dev table = (.entries es, ps, d) ∧
    (pinOp d o.id (pieceEnts ps)).isSome = true ∧
    let all := set ||| piecesSet u.dev o tp ||| piecesSet u.dev o ps
    all &&& ~~~(u.dev.frame e).ceil = 0 := 
  ⟨w_belvedere_performs_5_s, w_belvedere_performs_5_u, w_belvedere_performs_5_o, 8589934594, 6, w_belvedere_performs_5_tab, { acc 2048 8 with len := 32 }, 2, 2, 0x10008, 1, true, w_belvedere_performs_5_es, w_belvedere_performs_5_ps, w_belvedere_performs_5_d,
   pending_of (by decide +kernel), by decide +kernel, by decide +kernel, by decide +kernel, ⟨by decide +kernel, by decide +kernel, by decide +kernel, ⟨by decide +kernel, by decide +kernel, by decide +kernel, by decide +kernel, by decide +kernel⟩, by decide +kernel⟩⟩

def w_translations_0_s : State := st (team 1) { tid := 1, addr := 0x30000, n := 0 }
def w_translations_0_e : TlbEnt := (exGet (freshXl w_translations_0_s.fw w_translations_0_s.dev w_translations_0_s.dev.cur.part 0 (vpnOf w_translations_0_s.args.addr)) (by decide +kernel))
theorem test_translations_0 : ∃ (s u : State) (e : TlbEnt),
    acting s = some u ∧
    isTranslated s.args.addr = true ∧
    freshXl u.fw u.dev u.dev.cur.part 0 (vpnOf s.args.addr) = .ok e := 
  ⟨w_translations_0_s, w_translations_0_s, w_translations_0_e,
   by decide +kernel, by decide +kernel, exGot _⟩

def w_translations_1_s : State := st { team 1 with wait := .tfault ({ va := 0x30000, trap := { cause := 5, tpc := 0x10000, k14 := 1, ti0 := 0x30000, ti1 := 0 } }), restart := 0x10000, pc := 0x10008 } { tid := 1, ok := true }
def w_translations_1_f : TFault := { va := 0x30000, trap := { cause := 5, tpc := 0x10000, k14 := 1, ti0 := 0x30000, ti1 := 0 } }
theorem test_translations_1 : ∃ (s u : State) (f : TFault),
    acting s = some u ∧
    s.args.op = 0 ∧
    s.args.ok = true ∧
    u.dev.cur.wait = .tfault f ∧
    repairOf u.fw u.dev u.dev.cur.part f.va = .there := 
  ⟨w_translations_1_s, w_translations_1_s, w_translations_1_f,
   by decide +kernel⟩

def w_translations_2_s : State := st { team 1 with wait := .tfault ({ va := 0x990000, trap := { cause := 5, tpc := 0x10000, k14 := 1, ti0 := 0x990000, ti1 := 0 } }), restart := 0x10000, pc := 0x10008, decl := { lanes := 64, group := 32, handler := 0x10100 } } { tid := 1, ok := false }
def w_translations_2_f : TFault := { va := 0x990000, trap := { cause := 5, tpc := 0x10000, k14 := 1, ti0 := 0x990000, ti1 := 0 } }
theorem test_translations_2 : ∃ (s u : State) (f : TFault),
    acting s = some u ∧
    s.args.op = 0 ∧
    s.args.ok = false ∧
    u.dev.cur.wait = .tfault f ∧
    repairOf u.fw u.dev u.dev.cur.part f.va = .missing := 
  ⟨w_translations_2_s, w_translations_2_s, w_translations_2_f,
   by decide +kernel⟩

def w_translations_3_s : State := st (team 1) { q := 2 }
theorem test_translations_3 : ∃ (s : State),
    let f := s.dev.frame s.args.q
    f.v = true ∧
    f.pin = 0 ∧
    f.mig = 0 ∧
    kuduHolds s.fw s.dev s.args.q = false := 
  ⟨w_translations_3_s,
   by decide +kernel⟩

def w_translations_5_s : State := (fun s : State => { s with dev := { s.dev with mem := put 0x20000 [1, 2, 3, 4] (put 0x210000 [5, 6, 7, 8, 9, 10] (put 0x20FFF [7] [])), cores := [(0, { tlb := [{ part := 0, asid := 0, vpn := 3, pf := 2, cls := 0, mi := false, perm := 15, sperm := 15, ceil := 3, ent := 2, ext := 0 }, { part := 1, asid := 0, vpn := 3, pf := 2, cls := 0, mi := false, perm := 15, sperm := 15, ceil := 3, ent := 2, ext := 0 }] })], frames := mupd {} s.dev.frames 2 fun f => { f with mig := 2 } } }) <| st (team 1) { q := 2, m := 33 }
theorem test_translations_5 : ∃ (s : State) (i j : Nat) (x y : Extent),
    let q := s.args.q
    let m := s.args.m
    let p := q / 2 ^ 26
    let f := s.dev.frame q
    let src := stage2 x q * 65536
    let dst := stage2 y m * 65536
    MemoryCanonical s ∧
    m / 2 ^ 26 = p ∧
    extentOf s.fw p q = some (i, x) ∧
    extentOf s.fw p m = some (j, y) ∧
    f.mig = 2 ∧
    (s.dev.frame m).v = false ∧
    q ≠ m ∧
    src ≠ dst ∧
    (s.dev.teams.all fun t => t.ops.all fun o => o.done || !(o.kind.onEntry q)) = true := 
  ⟨w_translations_5_s, 0, 0, (mget {} w_translations_5_s.fw.fmaps 0), (mget {} w_translations_5_s.fw.fmaps 0),
   show _ = _ by decide +kernel, by decide +kernel⟩

def w_translations_4_s : State := (fun s : State => { s with dev := { s.dev with frames := mupd {} s.dev.frames 2 fun f => { f with mig := 1 } } }) <| st (team 1) { q := 2 }
theorem test_translations_4 : ∃ (s : State),
    let f := s.dev.frame s.args.q
    f.mig = 1 ∧
    (s.dev.teams.all fun t => t.ops.all fun o => o.done || !(o.kind.onEntry s.args.q)) = true := 
  ⟨w_translations_4_s,
   by decide +kernel⟩

def w_teams_start_and_end_0_s : State := (fun s : State => { s with dev := { s.dev with frames := [], launches := [(6, { key := 6, launchId := 12, prio := 3, count := 3, made := 1, left := 2, decl := { entry := 0x10000, lanes := 64, group := 32, vregs := 8, scratch := 256, acc := 2 }, arg := 77 })], list := [.launch 6, .launch 9], cores := [(2, { l1 := [(3, [1])] })] } }) <| st (team 1) { core := 2, slot := 2 }
def w_teams_start_and_end_0_runs : List Runs := ((placeTeam w_teams_start_and_end_0_s.dev.teams (w_teams_start_and_end_0_s.args).core (w_teams_start_and_end_0_s.args).slot (mget {} w_teams_start_and_end_0_s.dev.launches ((6 : Nat))).decl).get (by decide +kernel))
theorem test_teams_start_and_end_0 : ∃ (s : State) (k : Nat) (runs : List Runs),
    let a := s.args
    let l := mget {} s.dev.launches k
    let pins := areaEnts s.fw s.dev a.part (Config.saveAreaOf s.dev.nextKey) (saveBytes l.decl)
    listHead s.dev a.part = some (.launch k) ∧
    s.fw.goes a.part = true ∧
    s.fw.hasCore a.part a.core = true ∧
    placeTeam s.dev.teams a.core a.slot l.decl = some runs ∧
    canPin s.dev pins = true := 
  ⟨w_teams_start_and_end_0_s, 6, w_teams_start_and_end_0_runs,
   by decide +kernel, by decide +kernel, by decide +kernel, got _, canPin_bare rfl _⟩

def w_teams_start_and_end_1_s : State := (fun s : State => { s with dev := { s.dev with launches := [(6, { key := 6, launchId := 12, prio := 3, count := 3, made := 3, left := 2, cmd := some 5, exits := 0 })], frames := mupd {} (mupd {} s.dev.frames 2 fun f => { f with pin := 1 }) 3 fun f => { f with pin := 2 }, cmds := [{ id := 5, q := 100, part := 0, tag := 7, comp := 0x20008, notify := true, wait := .launch 6 }, { id := 6, q := 100, part := 0, tag := 7, comp := 0x20008, notify := true, wait := .launch 8 }], mem := [] } }) <| st ({ team 1 with wait := .exit 0 none, launch := 6, pins := [2, 3], index := 1, stall := [(3, 7)], start := 5, issued := 9, resident := 11, teamId := 8 }) { tid := 1 }
theorem test_teams_start_and_end_1 : ∃ (s u : State) (st : Nat) (tr : Option TrapInfo),
    acting s = some u ∧
    u.dev.cur.wait = .exit st tr ∧
    u.dev.cur.ops = [] ∧
    let l := mget {} u.dev.launches u.dev.cur.launch
    l.exits = 0 ∧
    1 < l.left := 
  ⟨w_teams_start_and_end_1_s, w_teams_start_and_end_1_s, 0, none,
   by decide +kernel⟩

def w_teams_start_and_end_2_s : State := (fun s : State => { s with dev := { s.dev with launches := [(6, { key := 6, launchId := 12, prio := 3, count := 3, made := 3, left := 1, cmd := some 5, exits := 0 })], frames := mupd {} (mupd {} s.dev.frames 2 fun f => { f with pin := 1 }) 3 fun f => { f with pin := 2 }, cmds := [{ id := 5, q := 100, part := 0, tag := 7, comp := 0x20008, notify := true, wait := .launch 6 }, { id := 6, q := 100, part := 0, tag := 7, comp := 0x20008, notify := true, wait := .launch 8 }], mem := [] } }) <| st ({ team 1 with wait := .exit 0 none, launch := 6, pins := [2, 3], index := 1, stall := [(3, 7)], start := 5, issued := 9, resident := 11, teamId := 8 }) { tid := 1 }
theorem test_teams_start_and_end_2 : ∃ (s u : State) (st : Nat) (tr : Option TrapInfo),
    acting s = some u ∧
    u.dev.cur.wait = .exit st tr ∧
    u.dev.cur.ops = [] ∧
    let l := mget {} u.dev.launches u.dev.cur.launch
    l.left ≤ 1 ∧
    l.graph = none := 
  ⟨w_teams_start_and_end_2_s, w_teams_start_and_end_2_s, 0, none,
   by decide +kernel⟩

def w_teams_start_and_end_3_s : State := (fun s : State => { s with dev := { s.dev with launches := [(6, { key := 6, launchId := 12, prio := 3, count := 3, made := 3, left := 2, cmd := some 5, exits := 0x30000 })], frames := mupd {} (mupd {} s.dev.frames 2 fun f => { f with pin := 1 }) 3 fun f => { f with pin := 2 }, cmds := [{ id := 5, q := 100, part := 0, tag := 7, comp := 0x20008, notify := true, wait := .launch 6 }, { id := 6, q := 100, part := 0, tag := 7, comp := 0x20008, notify := true, wait := .launch 8 }], mem := put 0x20000 (packBytes 32 [(0, 8, 0), (16, 8, 3)]) [] } }) <| st ({ team 1 with wait := .exit 1 none, launch := 6, pins := [2, 3], index := 1, stall := [(3, 7)], start := 5, issued := 9, resident := 11, teamId := 8 }) { tid := 1 }
def w_teams_start_and_end_3_e : TlbEnt := ((onPage w_teams_start_and_end_3_s 0 { r := true, w := true, e := true } 0x30000 64).get (by decide +kernel))
theorem test_teams_start_and_end_3 : ∃ (s u : State) (st : Nat) (tr : Option TrapInfo) (e : TlbEnt),
    acting s = some u ∧
    u.dev.cur.wait = .exit st tr ∧
    u.dev.cur.ops = [] ∧
    let m := u.dev.cur
    let l := mget {} u.dev.launches m.launch
    let a := e.pa l.exits
    let k := memNat u.dev.mem a 8
    let r := a + 64 + 256 * k
    l.exits ≠ 0 ∧
    1 < l.left ∧
    onPage u m.part { r := true, w := true, e := true } l.exits (64 + 256 * (k + 1)) = some e ∧
    u.dev.badU = [] ∧
    k < memNat u.dev.mem (a + 16) 8 := 
  ⟨w_teams_start_and_end_3_s, w_teams_start_and_end_3_s, 1, none, w_teams_start_and_end_3_e,
   by decide +kernel⟩

def w_team_life_0_s : State := st { team 5 with wait := .trap { cause := 3, tpc := 0x10007, k14 := 9, ti0 := 77, ti1 := 5 }, decl := { lanes := 64, group := 32, handler := 0x10100 }, ops := [] } { tid := 1 }
def w_team_life_0_i : TrapInfo := { cause := 3, tpc := 0x10007, k14 := 9, ti0 := 77, ti1 := 5 }
theorem test_team_life_0 : ∃ (s u : State) (i : TrapInfo),
    acting s = some u ∧
    u.dev.cur.wait = .trap i ∧
    u.dev.cur.drained = true ∧
    u.dev.cur.decl.handler ≠ 0 := 
  ⟨w_team_life_0_s, w_team_life_0_s, w_team_life_0_i,
   by decide +kernel⟩

def w_team_life_1_s : State := st { team 5 with decl := { lanes := 64 }, wait := .trap { cause := 3, tpc := 0x10007, k14 := 9, ti0 := 77, ti1 := 5 }, ops := [] } { tid := 1 }
def w_team_life_1_i : TrapInfo := { cause := 3, tpc := 0x10007, k14 := 9, ti0 := 77, ti1 := 5 }
theorem test_team_life_1 : ∃ (s u : State) (i : TrapInfo),
    acting s = some u ∧
    u.dev.cur.wait = .trap i ∧
    u.dev.cur.drained = true ∧
    u.dev.cur.decl.handler = 0 := 
  ⟨w_team_life_1_s, w_team_life_1_s, w_team_life_1_i,
   by decide +kernel⟩

def w_team_life_4_s : State := (fun s : State => { s with dev := { s.dev with time := 100, rest := [{ team 1 with key := 2, active := false }] } }) <| st { team 5 with wait := .token 3 0, active := true, lastReady := 36, ops := [op (.store [acc 0 0])] } { tid := 1 }
theorem test_team_life_4 : ∃ (s u : State),
    acting s = some u ∧
    let t := u.dev.cur
    t.active = true ∧
    t.isReady u.fw u.dev = false ∧
    t.inRun = false ∧
    (t.hints = [] ∨ t.wait ≠ .ready) ∧
    64 ≤ elapsed u.dev t.lastReady ∧
    (∃ m ∈ u.dev.teams, m.slot = t.slot ∧ (∃ c ∈ t.cores, c ∈ m.cores) ∧ m.active = false ∧ m.isReady u.fw u.dev = true) := 
  ⟨w_team_life_4_s, w_team_life_4_s,
   by decide +kernel⟩

def w_team_life_2_s : State := (fun s : State => { s with fw := { s.fw with parts := [(0, { state := 1, pairs := 2, cwait := 1024 })] }, dev := { s.dev with time := 2000, waitSince := [(0, (51539607552, 900))], rest := [{ team 1 with key := 3, core := 2, active := true, wait := .yield 3 0 0x10000, decl := { lanes := 64, group := 32, vregs := 120, acc := 10, scratch := 256 }, runs := [{ reg := 600, scr := 800, acc := 20 }] }, { team 1 with key := 5, core := 3, decl := { lanes := 64, group := 32, vregs := 8, acc := 40, scratch := 256 }, runs := [{}] }], launches := [(6, { key := 6, decl := { lanes := 64, group := 32, vregs := 120, acc := 30, scratch := 256 } })], list := [.launch 6] } }) <| st (team 1) { core := 2 }
def w_team_life_2_p : Nat × Part := (0, { state := 1, pairs := 2, cwait := 1024 })
theorem test_team_life_2 : ∃ (s : State) (p : Nat × Part) (since : Nat) (x : ListItem),
    p ∈ s.fw.parts ∧
    mfind s.dev.waitSince p.1 = some (x.mark s.dev, since) ∧
    listHead s.dev p.1 = some x ∧
    p.2.cwait.toNat ≤ elapsed s.dev since ∧
    wouldFit s.fw s.dev.teams p.1 s.args.core (x.decl s.dev) = true ∧
    (∀ m ∈ s.dev.teams, m.slide = []) ∧
    (∃ m ∈ s.dev.teams, (m.runsOn s.args.core).isSome = true) ∧
    (s.dev.teams.map (·.key)).Nodup := 
  ⟨w_team_life_2_s, w_team_life_2_p, 900, .launch 6,
   by decide +kernel⟩

def w_team_life_3_s : State := (fun s : State => { s with dev := { s.dev with rest := [{ team 1 with key := 3, core := 2, slide := [2], active := true, wait := .yield 3 0 0x10000, decl := { lanes := 64, group := 32, vregs := 120, acc := 10, scratch := 256 }, runs := [{ reg := 600, scr := 800, acc := 20 }] }] } }) <| st (team 1) { core := 2 }
theorem test_team_life_3 : ∃ (s : State),
    let slides := fun (m : Team) => m.slide.contains s.args.core && movable s.fw s.dev m
    (∃ m ∈ s.dev.teams, slides m = true) ∧
    (s.dev.teams.map (·.key)).Nodup ∧
    s.dev.teams.filter (fun m => m.slide.contains s.args.core && movable s.fw s.dev m) = [{ team 1 with key := 3, core := 2, slide := [2], active := true, wait := .yield 3 0 0x10000, decl := { lanes := 64, group := 32, vregs := 120, acc := 10, scratch := 256 }, runs := [{ reg := 600, scr := 800, acc := 20 }] }] ∧
    (({ team 1 with key := 3, core := 2, slide := [2], active := true, wait := .yield 3 0 0x10000, decl := { lanes := 64, group := 32, vregs := 120, acc := 10, scratch := 256 }, runs := [{ reg := 600, scr := 800, acc := 20 }] }).runsOn s.args.core).isSome = true ∧
    (placeHalf (s.dev.teams.filter fun y => y.key != 3) s.args.core ({ team 1 with key := 3, core := 2, slide := [2], active := true, wait := .yield 3 0 0x10000, decl := { lanes := 64, group := 32, vregs := 120, acc := 10, scratch := 256 }, runs := [{ reg := 600, scr := 800, acc := 20 }] }).decl).isSome = true := 
  ⟨w_team_life_3_s,
   by decide +kernel⟩

def w_team_life_5_s : State := (fun s : State => { s with fw := { s.fw with parts := [(0, { state := 1, pairs := 1, pwin := 1024 })] }, dev := { s.dev with time := 2000, rest := [{ team 1 with key := 2, decl := { lanes := 64, group := 32, vregs := 8, acc := 40, scratch := 256 }, teamId := 5, lastIssue := 900 }, { team 1 with key := 5, core := 1, decl := { lanes := 64, group := 32, vregs := 8, acc := 40, scratch := 256 }, runs := [{}] }], launches := [(6, { key := 6, decl := { lanes := 64, group := 32, vregs := 120, acc := 30, scratch := 256 } })], list := [.launch 6] } }) <| st { team 1 with lastIssue := 900, teamId := 3 } { core := 0 }
theorem test_team_life_5 : ∃ (s : State) (x : ListItem) (v : Team) (d : Dev),
    listHead s.dev s.args.part = some x ∧
    s.fw.hasCore s.args.part s.args.core = true ∧
    let here := s.dev.teams.filter fun t => t.cores.contains s.args.core
    v ∈ here ∧
    (∀ m ∈ here, v.lastIssue < m.lastIssue ∨ v.lastIssue = m.lastIssue ∧ v.teamId.toNat < m.teamId.toNat ∨ m = v) ∧
    (∀ c, s.fw.hasCore s.args.part c = true → fitsOn s.dev.teams (x.decl s.dev) c = false) ∧
    (∀ m ∈ here, (s.fw.part s.args.part).pwin.toNat ≤ elapsed s.dev m.lastIssue) ∧
    v.save = none ∧
    s.dev.focus v.key = some d := 
  ⟨w_team_life_5_s, .launch 6, w_team_life_5_s.dev.cur, w_team_life_5_s.dev,
   by decide +kernel, by decide +kernel, by decide +kernel, ⟨by decide +kernel, full_of (by decide +kernel), by decide +kernel⟩⟩

def w_saves_0_s : State := st (team 1)
theorem test_saves_0 : ∃ (s u : State),
    acting s = some u ∧
    u.dev.cur.save = none ∧
    (∀ st tr, u.dev.cur.wait ≠ .exit st tr) := 
  ⟨w_saves_0_s, ((acting w_saves_0_s).get (by decide +kernel)),
   got _, by decide +kernel, not_exit (by decide +kernel)⟩

def w_saves_1_s : State := (fun s : State => { s with dev := { s.dev with mem := put 0x20000 [1, 2, 3] (put 0x21400 [4, 5] []) } }) <| st { team 0xF0 with decl := { lanes := 8, group := 8, vregs := 3, acc := 1, scratch := 256 }, saveArea := 0x30000, launch := 6, launchId := 12, teamId := 9, index := 2, pins := [2], prio := 3, regs := { (team 0xF0).regs with s := [(3, { val := 77, lbl := 1 }), (62, { val := 5, lbl := 2 })], v := [(1024 + 3, { val := 99, lbl := 3 }), (5, { val := 1 })], labels := [(1, 8), (2, 6), (3, 1)], cc := { z := true }, scr := [(3, { val := 11, lbl := 2 }), (9, { val := 5 })], tiles := [(0, { ent := [(3, 5)], xmax := some 4, lbl := [(2, 1)] })] }, save := some .full } { tid := 1 }
def w_saves_1_k : Machine.Kept := ((saveKept ((.fullSave : Instr)) (((acting w_saves_1_s).get (by decide +kernel)))).get (by decide +kernel))
def w_saves_1_e : TlbEnt := ((onPage (((acting w_saves_1_s).get (by decide +kernel))) (writtenTeam ((.fullSave : Instr)) (((acting w_saves_1_s).get (by decide +kernel)))).part fwW (writtenTeam ((.fullSave : Instr)) (((acting w_saves_1_s).get (by decide +kernel)))).saveArea (16384 + (dataImage (writtenTeam ((.fullSave : Instr)) (((acting w_saves_1_s).get (by decide +kernel)))) w_saves_1_k).length)).get (by decide +kernel))
theorem test_saves_1 : ∃ (i : Instr) (s u : State) (k : Machine.Kept) (e : TlbEnt),
    acting s = some u ∧
    saveKept i u = some k ∧
    nothingToDrain u = true ∧
    let m := writtenTeam i u
    let data := dataImage m k
    onPage u m.part fwW m.saveArea (16384 + data.length) = some e ∧
    u.dev.badU = [] := 
  ⟨.fullSave, w_saves_1_s, ((acting w_saves_1_s).get (by decide +kernel)), w_saves_1_k, w_saves_1_e,
   got _, got _, by decide +kernel, got _, by decide +kernel⟩

def w_saves_1_2_s : State := (fun s : State => { s with dev := { s.dev with mem := put 0x20000 [1, 2, 3] (put 0x21400 [4, 5] []) } }) <| st { team 0xF0 with decl := { lanes := 8, group := 8, vregs := 3, acc := 1, scratch := 256 }, saveArea := 0x30000, launch := 6, launchId := 12, teamId := 9, index := 2, pins := [2], prio := 3, regs := { (team 0xF0).regs with s := [(3, { val := 77, lbl := 1 }), (62, { val := 5, lbl := 2 })], v := [(1024 + 3, { val := 99, lbl := 3 }), (5, { val := 1 })], labels := [(1, 8), (2, 6), (3, 1)], cc := { z := true }, scr := [(3, { val := 11, lbl := 2 }), (9, { val := 5 })], tiles := [(0, { ent := [(3, 5)], xmax := some 4, lbl := [(2, 1)] })] }, save := some .full, wait := .token 3 0, pc := 0x10008 } { tid := 1 }
def w_saves_1_2_k : Machine.Kept := ((saveKept ((.fullSave : Instr)) (((acting w_saves_1_2_s).get (by decide +kernel)))).get (by decide +kernel))
def w_saves_1_2_e : TlbEnt := ((onPage (((acting w_saves_1_2_s).get (by decide +kernel))) (writtenTeam ((.fullSave : Instr)) (((acting w_saves_1_2_s).get (by decide +kernel)))).part fwW (writtenTeam ((.fullSave : Instr)) (((acting w_saves_1_2_s).get (by decide +kernel)))).saveArea (16384 + (dataImage (writtenTeam ((.fullSave : Instr)) (((acting w_saves_1_2_s).get (by decide +kernel)))) w_saves_1_2_k).length)).get (by decide +kernel))
theorem test_saves_1_2 : ∃ (i : Instr) (s u : State) (k : Machine.Kept) (e : TlbEnt),
    acting s = some u ∧
    saveKept i u = some k ∧
    nothingToDrain u = true ∧
    let m := writtenTeam i u
    let data := dataImage m k
    onPage u m.part fwW m.saveArea (16384 + data.length) = some e ∧
    u.dev.badU = [] := 
  ⟨.fullSave, w_saves_1_2_s, ((acting w_saves_1_2_s).get (by decide +kernel)), w_saves_1_2_k, w_saves_1_2_e,
   got _, got _, by decide +kernel, got _, by decide +kernel⟩

def w_saves_2_s : State := st { team 0xF0 with decl := { lanes := 8, group := 8, vregs := 3, acc := 1, scratch := 256 }, saveArea := 0x30000, launch := 6, launchId := 12, teamId := 9, index := 2, pins := [2], prio := 3, regs := { (team 0xF0).regs with s := [(3, { val := 77, lbl := 1 }), (62, { val := 5, lbl := 2 })], v := [(1024 + 3, { val := 99, lbl := 3 }), (5, { val := 1 })], labels := [(1, 8), (2, 6), (3, 1)], cc := { z := true }, scr := [(3, { val := 11, lbl := 2 }), (9, { val := 5 })], tiles := [(0, { ent := [(3, 5)], xmax := some 4, lbl := [(2, 1)] })] }, save := some .full, ops := [op (.kudu { kind := .copy, desc := 0x20000, tgt := .mem 0x10000 1 true, h := 0, hw := {}, lbl := 4, stale := false, rd := some { src := 0x30000, dst := 0x40000, bar := 0, len := 16, srch := false, rowarr := false, cnt := [4, 1, 1, 1], ss := [16, 0, 0, 0], ds := [16, 0, 0, 0], org := [0, 0, 0, 0, 0], lbl := 0 } }), { op (.store [acc 0 0]) with id := 2 }], nextOp := 3 } { tid := 1 }
def w_saves_2_k : Machine.Kept := ((saveKept ((.fullSave : Instr)) (((acting w_saves_2_s).get (by decide +kernel)))).get (by decide +kernel))
theorem test_saves_2 : ∃ (i : Instr) (s u : State) (k : Machine.Kept),
    acting s = some u ∧
    saveKept i u = some k ∧
    nothingToDrain u = false ∧
    (u.dev.cur.ops.map suspendOp ≠ u.dev.cur.ops ∨ u.dev.cur.save ≠ some (drainsAs i)) := 
  ⟨.fullSave, w_saves_2_s, ((acting w_saves_2_s).get (by decide +kernel)), w_saves_2_k,
   got _, got _, by decide +kernel⟩

def w_saves_3_s : State := st { team 1 with reopen := some { id := 4, sc := 0x10000, desc := desc } } { tid := 1 }
def w_saves_3_x : Session := (((((acting w_saves_3_s).get (by decide +kernel))).dev.cur.reopen).get (by decide +kernel))
theorem test_saves_3 : ∃ (s u : State) (x : Session),
    acting s = some u ∧
    s.args.tid ≠ 0 ∧
    u.dev.cur.reopen = some x ∧
    u.dev.stores < 4 := 
  ⟨w_saves_3_s, ((acting w_saves_3_s).get (by decide +kernel)), w_saves_3_x,
   got _, by decide +kernel, got _, by decide +kernel⟩

def w_saves_4_s : State := (fun s : State => { s with dev := { s.dev with mem := put 0x20000 (packBytes 64 [(0, 1, 1), (1, 1, 2), (4, 2, 8), (6, 1, 8), (7, 1, 3), (8, 8, 0x10010), (16, 8, 0x10000), (24, 4, 3), (28, 4, 12), (32, 4, 9), (36, 4, 1), (40, 1, 1), (56, 8, 2000)]) [], list := [.restore { part := 0, prio := 3, launch := 6, area := 0x30000, pins := [2], decl := { entry := 0x10000, lanes := 8, group := 8, vregs := 3, acc := 1, scratch := 256 }, key := 9, teamId := 3 }], launches := [(6, { key := 6, count := 3, made := 3, left := 1 })] } }) <| st (team 1) { core := 2, slot := 1 }
def w_saves_4_x : Swapped := { part := 0, prio := 3, launch := 6, area := 0x30000, pins := [2], decl := { entry := 0x10000, lanes := 8, group := 8, vregs := 3, acc := 1, scratch := 256 }, key := 9, teamId := 3 }
def w_saves_4_h : List Byte := ((savedParts w_saves_4_s.fw (firmAcquire w_saves_4_s.dev) w_saves_4_x).get (by decide +kernel)).1
def w_saves_4_bs : List Byte := ((savedParts w_saves_4_s.fw (firmAcquire w_saves_4_s.dev) w_saves_4_x).get (by decide +kernel)).2
def w_saves_4_runs : List Runs := ((placeTeam w_saves_4_s.dev.teams w_saves_4_s.args.core w_saves_4_s.args.slot (w_saves_4_x.decl)).get (by decide +kernel))
theorem test_saves_4 : ∃ (s : State) (x : Swapped) (h bs : List Byte) (runs : List Runs),
    let k := x.decl
    s.args.tid = 0 ∧
    listHead s.dev s.args.part = some (.restore x) ∧
    x.pins ≠ [] ∧
    s.fw.goes x.part = true ∧
    s.fw.hasCore x.part s.args.core = true ∧
    placeTeam s.dev.teams s.args.core s.args.slot k = some runs ∧
    s.dev.cur.key ≠ x.key ∧
    (∀ m ∈ s.dev.rest, m.key ≠ x.key) ∧
    s.dev.badCorr = [] ∧
    savedParts s.fw (firmAcquire s.dev) x = some (h, bs) ∧
    fieldAt h 1 1 = 2 ∧
    fieldAt h 41 1 = 0 ∧
    k.lanes % 2 = 0 ∧
    k.lanes ≤ 512 ∧
    (fieldAt h 4 2, fieldAt h 6 1, fieldAt h 7 1, 256 * fieldAt h 36 4, fieldAt h 40 1) = (k.lanes, k.group, k.vregs, k.scratch, k.acc) := 
  ⟨w_saves_4_s, w_saves_4_x, w_saves_4_h, w_saves_4_bs, w_saves_4_runs,
   by decide +kernel, by decide +kernel, by decide +kernel, ⟨by decide +kernel, by decide +kernel, got _, by decide +kernel, by decide +kernel, by decide +kernel, gotP _, by decide +kernel⟩⟩

def w_graph_replays_0_s : State := (fun s : State => { s with dev := { s.dev with graphs := [(5, { made := true, nodes := [{ kernel := true, ops := leBytes 8 0x30000 ++ leBytes 8 77 ++ leBytes 8 3 ++ leBytes 8 0x40000 }], gp := [(1, 2), (3, 9)], org := [(3, 6)], running := none, staged := [{ n := 1, val := 2, org := 3, seq := 4 }, { n := 1, val := 7, org := 8, seq := 9 }, { n := 1, val := 5, org := 1, seq := 6 }, { n := 63, val := 5, org := 1, seq := 0x7FFFFFFFFFFFFFFF }] }), (7, { gp := [(1, 2)] })], cmds := [{ id := 5, q := 100, part := 0, tag := 7, comp := 0x20008, notify := true, wait := .replay 5 }] } }) <| st (team 1) { q := 5 }
def w_graph_replays_0_c : Cmd := ((graphWaiting w_graph_replays_0_s.dev w_graph_replays_0_s.args.q).get (by decide +kernel))
theorem test_graph_replays_0 : ∃ (s : State) (c : Cmd) (h : Nat),
    let x := s.dev.graph s.args.q
    x.running = none ∧
    graphWaiting s.dev s.args.q = some c ∧
    c.wait = .replay h ∧
    x.made = true := 
  ⟨w_graph_replays_0_s, w_graph_replays_0_c, 5,
   by decide +kernel, got _, by decide +kernel⟩

def w_graph_replays_1_s : State := (fun s : State => { s with dev := { s.dev with graphs := [(5, { made := true, nodes := [{ kernel := true, ops := leBytes 8 0x30000 ++ leBytes 8 77 ++ leBytes 8 3 ++ leBytes 8 0x40000 }], gp := [(1, 2), (3, 9)], org := [(3, 6)], running := some 0, staged := [{ n := 1, val := 2, org := 3, seq := 4 }, { n := 1, val := 7, org := 8, seq := 9 }, { n := 1, val := 5, org := 1, seq := 6 }, { n := 63, val := 5, org := 1, seq := 0x7FFFFFFFFFFFFFFF }] }), (7, { gp := [(1, 2)] })], cmds := [{ id := 5, q := 100, part := 0, tag := 7, comp := 0x20008, notify := true, wait := .replay 6 }], mem := put 0x20000 (packBytes 64 [(0, 8, 0x10000), (8, 8, 0x10000), (16, 2, 64), (18, 1, 32), (19, 1, 2), (20, 1, 4), (24, 4, 256)]) [], launches := [(9, { prio := 3 })], list := [.launch 9] } }) <| st (team 1) { q := 5 }
def w_graph_replays_1_n : Node := (((w_graph_replays_1_s.dev.graph (w_graph_replays_1_s.args.q)).node).get (by decide +kernel))
def w_graph_replays_1_rb : List Byte := ((fwRead w_graph_replays_1_s.fw w_graph_replays_1_s.dev ((w_graph_replays_1_s.args.q) / 1024) (operVa (List.replicate 16 0#8 ++ w_graph_replays_1_n.ops) 16) 64).get (by decide +kernel))
theorem test_graph_replays_1 : ∃ (s : State) (n : Node) (rb : List Byte),
    let g := s.args.q
    let bs := List.replicate 16 0#8 ++ n.ops
    let p := g / 1024
    (s.dev.graph g).node = some n ∧
    n.kernel = true ∧
    s.dev.moved = false ∧
    namedOnly n.ops [(16, 8), (24, 8), (32, 4), (40, 8)] = true ∧
    (operVa bs 16).toNat % 64 = 0 ∧
    1 ≤ oper bs 32 4 ∧
    oper bs 32 4 ≤ 2 ^ 24 ∧
    fwRead s.fw s.dev p (operVa bs 16) 64 = some rb ∧
    recordOk rb = true := 
  ⟨w_graph_replays_1_s, w_graph_replays_1_n, w_graph_replays_1_rb,
   got _, by decide +kernel, by decide +kernel, by decide +kernel, ⟨by decide +kernel, by decide +kernel, by decide +kernel, got _, by decide +kernel⟩⟩

def w_graph_replays_2_s : State := (fun s : State => { s with dev := { s.dev with graphs := [(5, { made := true, nodes := [{ kernel := true, ops := leBytes 8 0x30000 ++ leBytes 8 77 ++ leBytes 8 3 ++ leBytes 8 0x40000 }, { kernel := true, ops := leBytes 8 0x30000 ++ leBytes 8 77 ++ leBytes 8 3 ++ leBytes 8 0x40000 }], gp := [(1, 2), (3, 9)], org := [(3, 6)], running := some 0, staged := [{ n := 1, val := 2, org := 3, seq := 4 }, { n := 1, val := 7, org := 8, seq := 9 }, { n := 1, val := 5, org := 1, seq := 6 }, { n := 63, val := 5, org := 1, seq := 0x7FFFFFFFFFFFFFFF }] }), (7, { gp := [(1, 2)] })], launches := [(6, { key := 6, left := 1, graph := some 5 })] } }) <| st ({ team 1 with wait := .exit 0 none, launch := 6, index := 1 }) { tid := 1 }
theorem test_graph_replays_2 : ∃ (s u : State) (st : Nat) (tr : Option TrapInfo) (g i : Nat),
    acting s = some u ∧
    u.dev.cur.wait = .exit st tr ∧
    u.dev.cur.ops = [] ∧
    let l := mget {} u.dev.launches u.dev.cur.launch
    l.left ≤ 1 ∧
    l.exits = 0 ∧
    l.cmd = none ∧
    l.graph = some g ∧
    (u.dev.graph g).running = some i ∧
    i + 1 < (u.dev.graph g).nodes.length := 
  ⟨w_graph_replays_2_s, w_graph_replays_2_s, 0, none, 5, 0,
   by decide +kernel⟩

def w_graph_replays_3_s : State := (fun s : State => { s with dev := { s.dev with graphs := [(5, { made := true, nodes := [{ kernel := false, ops := [] }, { kernel := true, ops := leBytes 8 0x30000 ++ leBytes 8 77 ++ leBytes 8 3 ++ leBytes 8 0x40000 }], gp := [(0, 1), (1, 1000), (2, 0x30000), (3, 0x30800), (4, 0x40000), (5, 0x30400)], org := [], running := some 0 })], mem := put 0x20000 (packBytes 64 [(8, 8, 77)]) (put 0x20040 (packBytes 64 [(0, 1, 8), (1, 1, 0), (8, 4, 999), (12, 4, 5), (16, 4, 6), (20, 4, 7), (24, 4, 9), (28, 4, 1), (32, 4, 2), (36, 4, 3)]) (put 0x20800 (leBytes 8 (77 + 2 * 2 ^ 14 + 3 * 2 ^ 24 + 2 * 2 ^ 28 + 0xFFFFFD * 2 ^ 40)) (put 0x30040 (packBytes 32 [(0, 8, 0x40200), (8, 8, 0x40100), (16, 8, 0x40104), (24, 1, 3)]) (put 0x30100 (leBytes 4 1 ++ leBytes 4 1) (put 0x20400 [3] []))))), frames := mupd {} (mupd {} s.dev.frames 2 fun f => { f with cur := 6 }) 3 fun f => { f with cur := 16 } } }) <| st (team 1) { q := 5 }
def w_graph_replays_3_n : Node := (((w_graph_replays_3_s.dev.graph (w_graph_replays_3_s.args.q)).node).get (by decide +kernel))
def w_graph_replays_3_e : Nat → TlbEnt := fun j => (onPage w_graph_replays_3_s 0 { r := true, w := true, e := true } (BitVec.ofNat 64 (nthD 0 [0x30000, 0x30800, 0x40000, 0x40000, 0x40000, 0x30000, 0x40000] j)) 8).getD { part := 0, asid := 0, vpn := 0, pf := 0, cls := 0, mi := false, perm := 0, sperm := 0, ceil := 0, ent := 0, ext := 0 }
theorem test_graph_replays_3 : ∃ (s : State) (n : Node) (i : Nat) (e : Nat → TlbEnt),
    let g := s.args.q
    let x := commitOf g (s.dev.graph g)
    let at_ := fun (j va : Nat) => (e j).pa (BitVec.ofNat 64 va)
    (s.dev.graph g).node = some n ∧
    n.kernel = false ∧
    n.retry = false ∧
    s.dev.moved = false ∧
    (s.dev.graph g).running = some i ∧
    i + 1 < (s.dev.graph g).nodes.length ∧
    x.ok s.fw s.dev = true ∧
    x.rows = 1 ∧
    s.dev.badU = [] ∧
    s.dev.badCorr = [] ∧
    limAcquired (onDev s (firmAcquire s.dev)) ∧
    let raw := memBytes s.dev.mem (at_ 0 (x.commit + 64)) 64
    let m := memNat s.dev.mem (at_ 1 x.rowmap) 8
    let desc := x.rings + 32 * rmSlot m
    let ring := memBytes s.dev.mem (at_ 2 desc) 32
    let base := fieldAt ring 0 8
    let lg := fieldAt ring 24 1
    let k := fieldAt raw 0 1
    let tok := fun (j : Nat) => fieldAt raw (8 + 4 * j) 4
    let areas := [(at_ 0 x.commit, 128), (at_ 1 x.rowmap, 24), (at_ 2 desc, 32), (at_ 3 (fieldAt ring 8 8), 4), (at_ 4 (fieldAt ring 16 8), 4), (at_ 5 x.hold, 4), (at_ 6 base, 16 * 2 ^ lg)]
    (∀ j va len, (j, va, len) ∈ [(0, x.commit, 128), (1, x.rowmap, 24), (2, desc, 32), (3, fieldAt ring 8 8, 4), (4, fieldAt ring 16 8, 4), (5, x.hold, 4), (6, base, 16 * 2 ^ lg)] →
      va < 2 ^ 64 ∧ onPage s x.part { r := true, w := true, e := true } (BitVec.ofNat 64 va) len = some (e j) ∧ (e j).isHost = false) ∧
    (areas.Pairwise (fun a b => a.1 + a.2 ≤ b.1 ∨ b.1 + b.2 ≤ a.1)) ∧
    badRecord raw = false ∧
    ringDesc ring ≠ none ∧
    rmState m = 0 ∧
    1 ≤ k ∧
    (∀ j, j < k → tok j < x.vocab) ∧
    let set := (s.dev.frame (e 0).ent).cur
    set &&& ~~~(e 6).ceil = 0 ∧
    set &&& ~~~(e 1).ceil = 0 := 
  ⟨w_graph_replays_3_s, w_graph_replays_3_n, 0, w_graph_replays_3_e,
   got _, by decide +kernel, by decide +kernel, by decide +kernel, ⟨by decide +kernel, by decide +kernel, by decide +kernel, ⟨by decide +kernel, by decide +kernel, by decide +kernel, lim_of (by decide +kernel), triples_of (by decide +kernel), by decide +kernel⟩⟩⟩

def w_step_runs_decoded_0_s : State := (fun s : State => { s with dev := { s.dev with mem := put 0 (leBytes 4 (((encode (.nop)).get (by decide +kernel)))) [] }, sched := [.issue 1, .issue 2] }) <| st { team 1 with pc := 0x10000 }
def w_step_runs_decoded_0_d : Dev := ((w_step_runs_decoded_0_s.dev.focus ((1 : Nat))).get (by decide +kernel))
def w_step_runs_decoded_0_w : Nat := (wordGet (fetch w_step_runs_decoded_0_s.fw w_step_runs_decoded_0_d) (by decide +kernel)).1
def w_step_runs_decoded_0_d1 : Dev := (wordGet (fetch w_step_runs_decoded_0_s.fw w_step_runs_decoded_0_d) (by decide +kernel)).2
theorem test_step_runs_decoded_0 : ∃ (s : State) (key : Nat) (r : List Act) (d d1 : Dev) (w : Nat) (i : Instr),
    s.sched = .issue key :: r ∧
    s.dev.frozen = false ∧
    s.dev.focus key = some d ∧
    mayIssue s.fw d d.cur = true ∧
    fetch s.fw d = .word w d1 ∧
    decodeWord w = some i := 
  ⟨w_step_runs_decoded_0_s, 1, [.issue 2], w_step_runs_decoded_0_d, w_step_runs_decoded_0_d1, w_step_runs_decoded_0_w, .nop,
   by decide +kernel, by decide +kernel, got _, by decide +kernel, wordGot _, by decide +kernel⟩

def w_step_runs_decoded_1_s : State := (fun s : State => { s with dev := { s.dev with joint := some { core := 0, slot := 0, cls := pipeClass (.vadd false 3 1 2), lanes := 8, keys := [1] }, mem := put 0 (leBytes 4 (((encode (.vadd false 3 1 2)).get (by decide +kernel)))) [] }, sched := [.join 1, .issue 2] }) <| st { team 1 with pc := 0x10000, decl := { entry := 0x10000 } }
def w_step_runs_decoded_1_d : Dev := ((w_step_runs_decoded_1_s.dev.focus ((1 : Nat))).get (by decide +kernel))
def w_step_runs_decoded_1_j : Joint := ((w_step_runs_decoded_1_s.dev.joint).get (by decide +kernel))
def w_step_runs_decoded_1_w : Nat := (wordGet (fetch w_step_runs_decoded_1_s.fw (inJoint w_step_runs_decoded_1_j w_step_runs_decoded_1_d)) (by decide +kernel)).1
def w_step_runs_decoded_1_d1 : Dev := (wordGet (fetch w_step_runs_decoded_1_s.fw (inJoint w_step_runs_decoded_1_j w_step_runs_decoded_1_d)) (by decide +kernel)).2
theorem test_step_runs_decoded_1 : ∃ (s : State) (key : Nat) (r : List Act) (d d1 : Dev) (j : Joint) (w : Nat) (i : Instr),
    s.sched = .join key :: r ∧
    s.dev.frozen = false ∧
    s.dev.joint = some j ∧
    s.dev.focus key = some d ∧
    fetch s.fw (inJoint j d) = .word w d1 ∧
    decodeWord w = some i ∧
    mayJoin s.fw d1 j i = true ∧
    joinsNext s.fw d j key = true := 
  ⟨w_step_runs_decoded_1_s, 1, [.issue 2], w_step_runs_decoded_1_d, w_step_runs_decoded_1_d1, w_step_runs_decoded_1_j, w_step_runs_decoded_1_w, .vadd false 3 1 2,
   by decide +kernel, by decide +kernel, got _, got _, wordGot _, by decide +kernel⟩

def w_step_runs_decoded_2_d : Dev := { (st { team 1 with pc := 0x10000 }).dev with mem := put 0 [1, 2, 3, 4] [] }
def w_step_runs_decoded_2_e : TlbEnt := (xlGetP (translate fw w_step_runs_decoded_2_d (w_step_runs_decoded_2_d.cur).core (w_step_runs_decoded_2_d.cur).part { x := true } (w_step_runs_decoded_2_d.cur).pc) (by decide +kernel)).1
def w_step_runs_decoded_2_d1 : Dev := (xlGetP (translate fw w_step_runs_decoded_2_d (w_step_runs_decoded_2_d.cur).core (w_step_runs_decoded_2_d.cur).part { x := true } (w_step_runs_decoded_2_d.cur).pc) (by decide +kernel)).2
theorem test_step_runs_decoded_2 : ∃ (w : Fw) (d d1 : Dev) (e : TlbEnt),
    let t := d.cur
    let pa := e.pa t.pc
    inScratch t.pc = false ∧
    inRegWin t.pc = false ∧
    translate w d t.core t.part { x := true } t.pc = (.ok e, d1) ∧
    badAt d1 pa 4 = false ∧
    mfind (d1.core t.core).ic (pa / 128) = none := 
  ⟨fw, w_step_runs_decoded_2_d, w_step_runs_decoded_2_d1, w_step_runs_decoded_2_e,
   by decide +kernel, by decide +kernel, xlGotP _, by decide +kernel⟩

def w_illegal_word_traps_0_s : State := (fun s : State => { s with dev := { s.dev with mem := put 0 (leBytes 4 0xFFFFFFFF) [] }, sched := [.issue 1, .issue 2] }) <| st { team 1 with pc := 0x10000, decl := { (team 1).decl with handler := 0x10100 } }
def w_illegal_word_traps_0_d : Dev := ((w_illegal_word_traps_0_s.dev.focus ((1 : Nat))).get (by decide +kernel))
def w_illegal_word_traps_0_w : Nat := (wordGet (fetch w_illegal_word_traps_0_s.fw w_illegal_word_traps_0_d) (by decide +kernel)).1
def w_illegal_word_traps_0_d1 : Dev := (wordGet (fetch w_illegal_word_traps_0_s.fw w_illegal_word_traps_0_d) (by decide +kernel)).2
theorem test_illegal_word_traps_0 : ∃ (s : State) (key : Nat) (r : List Act) (d : Dev) (w : Nat) (d1 : Dev),
    s.sched = .issue key :: r ∧
    s.dev.frozen = false ∧
    s.dev.focus key = some d ∧
    mayIssue s.fw d d.cur = true ∧
    fetch s.fw d = .word w d1 ∧
    decodeWord w = none ∧
    d1.cur.decl.handler ≠ 0 ∧
    d1.cur.wait = .ready ∧
    d1.cur.ops = [] := 
  ⟨w_illegal_word_traps_0_s, 1, [.issue 2], w_illegal_word_traps_0_d, w_illegal_word_traps_0_w, w_illegal_word_traps_0_d1,
   by decide +kernel, by decide +kernel, got _, by decide +kernel, wordGot _, by decide +kernel⟩

end Sys2Proof.Tests
end

section
/-! Proofs of the statements about traps and about the conversion of accumulator tiles (R219-R223, R301, R302, R323, R324). -/
namespace Sys2Proof.Proofs.IsaMatrixTaps
open Sys2Proof Sys2Proof.Machine Sys2Proof.Safety

/-! ### Reads of settled places -/

/-- A special register without older values reads as it stands (R318). -/
theorem specRead_settled {d : Dev} {n : Nat} (h : d.cur.olds (.spec n) = []) (cur : Nat) : specRead d n cur = cur := by
  unfold specRead
  rw [h]
  rfl

/-- A mask without older values reads as it stands (R241). -/
theorem kread_settled {d : Dev} {k : Nat} (h : d.cur.olds (.k k) = []) (slot : Nat) : kread d slot k = mget 0 d.cur.regs.k k := by
  unfold kread
  rw [h]

/-! ### RETH -/

theorem exec_reth (s : State) : exec .reth s = word .reth s fun fw d =>
    if d.cur.sp.handling then returnTrap d (BitVec.ofNat 64 (specRead d 0x11 d.cur.sp.tpc.toNat)) (kread d 1 15)
    else trapIllegal fw d (wordOf .reth) 0 := rfl

/-- A team at a plain word does not drain for a trap. -/
theorem plain_not_draining {i : Instr} {s : State} (h : Plain i s) (x : TrapInfo) : s.dev.cur.wait ≠ .trap x := by
  rw [h.ready]
  exact nofun

/-- RETH while a trap is handled returns from it (R223); TPC and k15 are settled, so it reads them as they stand. -/
theorem exec_reth_handling {s : State} (h : Plain .reth s) (hh : s.dev.cur.sp.handling = true) (ht : s.dev.cur.olds (.spec 0x11) = [])
    (hk : s.dev.cur.olds (.k 15) = []) : exec .reth s = .next { s with dev := returnTrap s.dev s.dev.cur.sp.tpc (mask s 15) } := by
  rw [exec_reth, plain_word _ h, if_pos hh, specRead_settled ht, kread_settled hk, BitVec.ofNat_toNat, BitVec.setWidth_eq, mask]

/-- RETH while no trap is handled is an illegal instruction (R324). -/
theorem exec_reth_idle {s : State} (h : Plain .reth s) (hh : s.dev.cur.sp.handling = false) :
    exec .reth s = .next { s with dev := trapIllegal s.fw s.dev (wordOf .reth) 0 } := by
  rw [exec_reth, plain_word _ h, if_neg (by rw [hh]; exact Bool.false_ne_true)]

/-- Settles O20: with HANDLING set RETH returns to TPC with the mask of k15, with HANDLING clear it is the illegal instruction's trap at issue. -/
theorem trapReturns : Obligations.trap_returns := by
  unfold Obligations.trap_returns
  refine ⟨fun s h hh ht hk => ?_, fun s w h hh hw => ?_⟩
  · obtain ⟨hpc, hhints, hwait, hk0, hks, hsp, hops, hrun, hun⟩ := returnTrap_does s s.dev.cur.sp.tpc (mask s 15) _ rfl
    exact ⟨_, exec_reth_handling h hh ht hk, ⟨hpc, hwait.trans h.ready, hhints⟩, hk0, hks, hsp, hops, hrun, hun⟩
  · cases hw
    exact ⟨rfl, _, exec_reth_idle h hh, trapIssue_takes s 1 s.dev.k0 (wordOf .reth) 0 (plain_not_draining h)⟩

/-! ### A team with a conversion under way -/

/-- The machine after a word, where the word gives a next state. -/
def ran (i : Instr) (s : State) : State := match exec i s with | .next t => t | _ => s

/-- A team of 64 lanes on core 0 with lane 0 active, 32 vector registers, four tiles and a trap handler. -/
def fourTileTeam : Team :=
  { key := 1, live := true, pc := 0x10000, decl := { entry := 0x10000, handler := 0x10100, lanes := 64, group := 32, acc := 4, vregs := 32 },
    regs := { k := [(0, 1)] } }

/-- That team after an ACVT of tile 2 to the registers from vr4 on, whose operation waits for the matrix engine. -/
def converting : State := ran (.acvt 3 2 4 false) { dev := { cur := fourTileTeam, nextKey := 2 } }

/-! ### TRAP -/

theorem exec_trap (c : BitVec 16) (s : State) : exec (.trap c) s = word (.trap c) s fun fw d =>
    raiseTrap fw (d.upd fun t => t.goto (t.pc + 4) 1) { cause := 3, tpc := d.cur.pc + 4, k14 := d.k0, ti0 := immZ d c.toNat 16, ti1 := 0 } := rfl

/-- What TRAP with code c raises (R323). -/
def trapOf (s : State) (c : BitVec 16) : TrapInfo :=
  { cause := 3, tpc := s.dev.cur.pc + 4, k14 := s.dev.k0, ti0 := immZ s.dev c.toNat 16, ti1 := 0 }

/-- The machine with the acting team one position on. -/
def movedOn (s : State) : State := { s with dev := s.dev.upd fun t => t.goto (t.pc + 4) 1 }

theorem movedOn_cur (s : State) : ∃ hz, (movedOn s).dev.cur =
    { s.dev.cur with pc := s.dev.cur.pc + 4, pos := s.dev.cur.pos + 1, hints := [], met := false, haz := hz } :=
  goto_only s.dev.cur (s.dev.cur.pc + 4) 1

/-- TRAP leaves its position before it takes its trap (R323): the team that takes it stands at the next one. -/
theorem exec_trap_takes {c : BitVec 16} {s : State} (h : Plain (.trap c) s) :
    ∃ t, exec (.trap c) s = .next t ∧ TakesTrap (movedOn s) t (trapOf s c) := by
  refine ⟨_, (exec_trap c s).trans (plain_word _ h), raiseTrap_takes (movedOn s) (trapOf s c) fun x => ?_⟩
  obtain ⟨hz, e⟩ := movedOn_cur s
  rw [e]
  exact plain_not_draining h x

/-- A team with something to drain stands where it stood while it drains (R222). -/
theorem takesTrap_pc {s t : State} {x : TrapInfo} (h : TakesTrap s t x) (hd : nothingToDrain s = false) : t.dev.cur.pc = s.dev.cur.pc := by
  unfold TakesTrap at h
  rw [if_neg (by rw [hd]; exact Bool.false_ne_true)] at h
  exact h.2.pc

/-- While operations drain for its trap, a team stands behind its TRAP. -/
theorem exec_trap_draining_pc {c : BitVec 16} {s t : State} (h : Plain (.trap c) s) (hd : nothingToDrain s = false)
    (ht : exec (.trap c) s = .next t) : t.dev.cur.pc = s.dev.cur.pc + 4 := by
  obtain ⟨t', ht', htakes⟩ := exec_trap_takes h
  obtain rfl : t' = t := Host.Outcome.next.inj (ht'.symm.trans ht)
  obtain ⟨hz, e⟩ := movedOn_cur s
  have hd' : nothingToDrain (movedOn s) = false := by
    unfold nothingToDrain at hd ⊢
    rw [e]
    exact hd
  rw [takesTrap_pc htakes hd', e]

/-- `Raises` has a team that must drain stand at its word meanwhile, so TRAP raises no trap in that sense while something has to drain. -/
theorem trap_not_raises_draining {c : BitVec 16} {s : State} {x : TrapInfo} (h : Plain (.trap c) s) (hd : nothingToDrain s = false) :
    ¬ Raises (.trap c) s x := by
  rintro ⟨t, ht, htakes⟩
  have hpc : s.dev.cur.pc = s.dev.cur.pc + 4 := (takesTrap_pc htakes hd).symm.trans (exec_trap_draining_pc h hd ht)
  bv_omega

theorem converting_plain_trap : Plain (.trap 0) converting :=
  ⟨by decide +kernel, by decide +kernel, by decide +kernel, by decide +kernel, by decide +kernel⟩

theorem converting_drains : nothingToDrain converting = false := by decide +kernel

/-- Refutes O19, by its first clause: it has a team that must drain stand at its TRAP until the trap is entered (`Draining.pc`), and the model
moves the team to the next position, which R323 reports, before it drains. The team here has an ACVT still to be performed. -/
theorem not_trapWords : ¬ Obligations.trap_words := by
  unfold Obligations.trap_words
  rintro ⟨htrap, -, -, -⟩
  exact trap_not_raises_draining converting_plain_trap converting_drains (htrap 0 converting converting_plain_trap)

/-! ### ACVT -/

/-- The same team after an MMA of tile 3 too, whose rows are the registers that the conversion has still to write (R25, R32); the next event is
that of the conversion. -/
def convertingUnderMma : State := { ran (.mma 4 3 4 20) converting with args := { tid := 1, op := 1 } }

/-- Its operations: the conversion, and behind it the MMA. -/
def acvtOp : Op := { id := 1, q := some 3, pc := 0x10000, first := 0x10000, kind := .acc (.cvt 4 false) 2 0 0 1 }
def mmaOp : Op := { id := 2, q := some 4, pc := 0x10004, first := 0x10004, kind := .mma 0 3 4 20 0 0 1 [] }

theorem convertingUnderMma_ops : convertingUnderMma.dev.cur.ops = [acvtOp, mmaOp] := by decide +kernel

/-- What the conversion gives lane 0: the sixteen values of row 0 of the empty tile. -/
def acvtRows : List (Nat × OSet × List (Nat × Word)) := [(0, 0, (List.range 16).map fun c => (4 + c, 0))]

theorem convertingUnderMma_pending : Pending convertingUnderMma convertingUnderMma acvtOp :=
  ⟨by decide +kernel, by decide +kernel, rfl, fun q h => by cases h; decide, rfl, .inl (by decide +kernel)⟩

theorem convertingUnderMma_engineOk : EngineOk convertingUnderMma acvtOp 0 := ⟨by decide +kernel, by decide +kernel, by decide +kernel⟩

theorem convertingUnderMma_rows :
    ((activeRows 1).map fun r => (32 * 0 + r, convertingUnderMma.dev.cur.rowSet (convertingUnderMma.dev.cur.regs.tile 0 2) r,
      (List.range 16).map fun c => (4 + c, BitVec.ofNat 32 ((convertingUnderMma.dev.cur.regs.tile 0 2).cvt 24 r c)))) = acvtRows := by decide +kernel

theorem acvtRows_fits : Fits convertingUnderMma acvtRows :=
  ⟨by decide +kernel, by decide +kernel, by decide +kernel⟩

/-- The conversion retires, and leaves the MMA marked: its operands were written before it was performed (R32). -/
theorem matrixOperation_marks_mma : (ran .matrixOperation convertingUnderMma).dev.cur.ops = [{ mmaOp with dirty := true }] := by decide +kernel

/-- Refutes O44, by its ACVT clause: it leaves every other pending operation as it was (`Completed.kept`), and the model marks a pending MMA
whose operand registers the conversion writes, since that MMA's result is then undefined (R32, `Team.spoil`). -/
theorem not_tilesClearedAndConverted : ¬ Obligations.tiles_cleared_and_converted := by
  unfold Obligations.tiles_cleared_and_converted
  intro h
  obtain ⟨-, hcvt⟩ := h convertingUnderMma convertingUnderMma acvtOp (.cvt 4 false) 2 0 0 1 convertingUnderMma_pending rfl convertingUnderMma_engineOk
  have hfits := acvtRows_fits
  rw [← convertingUnderMma_rows] at hfits
  obtain ⟨t, ht, -, -, hdone⟩ := hcvt 4 false rfl rfl hfits
  have hops : t.dev.cur.ops = [{ mmaOp with dirty := true }] := by
    rw [← matrixOperation_marks_mma, ran, ht]
  have hkept := hdone.kept { mmaOp with dirty := true } (by rw [hops]; exact List.mem_singleton.mpr rfl) (by decide)
  rw [convertingUnderMma_ops] at hkept
  exact absurd hkept (by decide +kernel)

end Sys2Proof.Proofs.IsaMatrixTaps
end
